-- ==== Sys2Proof/Word.lean ====
section
/-! DEFINITION. Word types of the XZ2880 and their plainest arithmetic (spec/00_scope.md R4). -/

namespace Sys2Proof

/-- A byte of memory, of a row or of a flit. -/
abbrev Byte := BitVec 8

/-- A lane, a uniform register, a half of a 64-bit register. -/
abbrev W32 := BitVec 32

/-- An x register, a generic address, a control register, an instruction word. -/
abbrev W64 := BitVec 64

/-- A core's global identifier (01_package.md R17). -/
abbrev GlobalId := BitVec 22

end Sys2Proof
end

