-- ==== Sys2Proof/Config.lean ====
section
/-! DEFINITION. What an implementation fixes, and the free values: constants without a body, of which no proof
can see a value. Each takes a plain counter of the state or the operands it depends on. -/

namespace Sys2Proof

/-- Whether a path cache still holds the line it once read (07_addresses.md R186, 09_sharing.md R245, R261): the
argument is `State.ticks`, then which read of the step asks. DESIGN CHOICE (log 8). -/
opaque Config.pathStale : Nat → Nat → Bool

/-- Whether a clause fetch that no ICINV orders takes the old word of a line it once fetched (02_clauses.md R32):
`State.ticks` and the word's number. DESIGN CHOICE (log 9). -/
opaque Config.fetchStale : Nat → Nat → Bool

/-- A byte of a value that the spec leaves open: which one, and `State.ticks`. DESIGN CHOICE (log 8). -/
opaque Config.freeByte : Nat → Nat → BitVec 8

/-- SHAKE256 of a list of bytes, of which 64 bytes are used (19_system.md R475, R476). DESIGN CHOICE (log 41). -/
opaque Config.shake256 : List (BitVec 8) → List (BitVec 8)

/-- The version and the vendor-key hash that an image's 4,096-byte header holds, at places that the spec does not give
(19_system.md R476). DESIGN CHOICE (log 41). -/
opaque Config.imageVersion : List (BitVec 8) → Nat
opaque Config.imageKeyHash : List (BitVec 8) → List (BitVec 8)

/-- The ML-DSA-65 key pair that a seed generates: its public and its private key (19_system.md R475). DESIGN CHOICE
(log 41). -/
opaque Config.mldsaPublic : List (BitVec 8) → List (BitVec 8)
opaque Config.mldsaPrivate : List (BitVec 8) → List (BitVec 8)

/-- The ML-DSA-65 signature of a message under a private key, with what its signer draws at random (19_system.md R475, R478).
DESIGN CHOICE (log 41). -/
opaque Config.mldsaSign : List (BitVec 8) → List (BitVec 8) → List (BitVec 8) → List (BitVec 8)

/-- An image's signature verifies under the vendor key of a hash (19_system.md R476). DESIGN CHOICE (log 41). -/
opaque Config.imageSigned : List (BitVec 8) → List (BitVec 8) → Bool

/-- The ML-DSA-65 signature of a debug token verifies under a public key: the key, the bytes signed, the signature
(19_system.md R483). DESIGN CHOICE (log 41). -/
opaque Config.tokenSigned : List (BitVec 8) → List (BitVec 8) → List (BitVec 8) → Bool

/-- Entry of the host launch routine, which firmware chooses (15_work.md R407). DESIGN CHOICE (log 39). -/
opaque Config.fwLaunch : BitVec 64

/-- CL_OVF of a cluster, which firmware chooses (19_system.md R486). DESIGN CHOICE (log 39). -/
opaque Config.ovfArea : Nat → BitVec 64

/-- Where the raw HBM4 byte of a channel and offset lies in the die's tier-0 memory, of which the remainder by 96 GiB is
used (07_addresses.md R214). DESIGN CHOICE (log 36). -/
opaque Config.hbmOffset : Nat → Nat → Nat

/-- Value of the SPARE_ROW fuse of a die (01_package.md R14, R15). DESIGN CHOICE (log 7). -/
def Config.spareRow : Nat := 20

/-- Local identifiers that exist (01_package.md R6, 03_contexts.md R86). -/
def Config.coreCount : Nat := 161280

/-- Clusters of the package (01_package.md R6). -/
def Config.clusterCount : Nat := 3360

/-- Sites of the package (01_package.md R12). -/
def Config.siteCount : Nat := 12

/-- Tier-0 frames of a die (08_residency.md R216). -/
def Config.tier0Frames : Nat := 49152

/-- Tier-1 frames of a die (08_residency.md R216). -/
def Config.tier1Frames : Nat := 131072

end Sys2Proof
end

