-- ==== Sys2Proof/Machine/Store.lean ====
section
/-! DEFINITION. Sparse stores: lists of (key, value) pairs with strictly rising keys and no entry equal to what an
unlisted key reads as, so that equal stores are equal data. Every register file, row file and memory of the model
is one. -/

namespace Sys2Proof.Machine

/-- A store keyed by numbers. -/
abbrev Store (α : Type) := List (Nat × α)

/-- What key `k` holds; an unlisted key reads as `d`. -/
def Store.get {α : Type} (d : α) : Store α → Nat → α
  | [], _ => d
  | (k', v) :: rest, k => if k = k' then v else Store.get d rest k

/-- The store without key `k`. -/
def Store.erase {α : Type} : Store α → Nat → Store α
  | [], _ => []
  | (k', v) :: rest, k => if k = k' then Store.erase rest k else (k', v) :: Store.erase rest k

/-- Puts an entry in its place among rising keys. -/
def Store.insert {α : Type} : Store α → Nat → α → Store α
  | [], k, v => [(k, v)]
  | (k', v') :: rest, k, v =>
    if k < k' then (k, v) :: (k', v') :: rest else (k', v') :: Store.insert rest k v

/-- Key `k` set to `v`; writing what an unlisted key reads as removes the entry. -/
def Store.set {α : Type} [DecidableEq α] (d : α) (m : Store α) (k : Nat) (v : α) : Store α :=
  if v = d then Store.erase m k else Store.insert (Store.erase m k) k v

/-- All keys above `lo`, rising, and no entry equal to the default. -/
def Store.wfFrom {α : Type} [DecidableEq α] (d : α) : Nat → Store α → Bool
  | _, [] => true
  | lo, (k, v) :: rest => lo ≤ k && v ≠ d && Store.wfFrom d (k + 1) rest

/-- The canonical form. -/
def Store.wf {α : Type} [DecidableEq α] (d : α) (m : Store α) : Bool := Store.wfFrom d 0 m

/-- Memory: cells of an address and a byte; an unlisted address reads as 0 (DESIGN CHOICE, log 4). -/
abbrev Memory := List Host.Cell

/-- The canonical form of a memory: addresses strictly rising, and no listed byte equal to what an unlisted address reads
as. -/
def Memory.wf (m : Memory) : Bool := Store.wf 0 m

/-! Bytes: memory and rows are stores of bytes with unlisted bytes zero. -/

/-- `n` bytes from `k` on, lowest address first. -/
def Store.bytes (m : Store Byte) : Nat → Nat → List Byte
  | _, 0 => []
  | k, n + 1 => Store.get 0 m k :: Store.bytes m (k + 1) n

/-- The little-endian number that a list of bytes stands for (R4). -/
def bytesToNat : List Byte → Nat
  | [] => 0
  | b :: rest => b.toNat + 256 * bytesToNat rest

/-- The `n` little-endian bytes of a number (R4). -/
def natToBytes : Nat → Nat → List Byte
  | 0, _ => []
  | n + 1, v => BitVec.ofNat 8 v :: natToBytes n (v / 256)

/-- Bytes written from `k` on, lowest address first. -/
def Store.putBytes (m : Store Byte) : Nat → List Byte → Store Byte
  | _, [] => m
  | k, b :: rest => Store.putBytes (Store.set 0 m k b) (k + 1) rest

/-- `n` bytes from `k` on as a number. -/
def Store.readN (m : Store Byte) (k n : Nat) : Nat := bytesToNat (Store.bytes m k n)

/-- A number written as `n` bytes from `k` on. -/
def Store.writeN (m : Store Byte) (k n v : Nat) : Store Byte := Store.putBytes m k (natToBytes n v)

end Sys2Proof.Machine
end

