-- ==== Sys2Proof/Syntax.lean ====
section
/-! DEFINITION. The syntax: one constructor of `Instr` for each row of spec/opcode_table.json.
Rows that have an encoding carry the fields of their word (02_clauses.md R34); rows that are events of the
device (arrivals, engine steps, host actions) carry what the event brings with it and have no word. -/

namespace Sys2Proof

/-- A 10-bit operand specifier (R38). `Operands.lean` gives what each value names. -/
abbrev Opnd := BitVec 10

/-- The guard field [51:48]: negate bit and predicate number (R35). -/
abbrev Guard := BitVec 4

/-- The type field of the integer group, [41:40] (R101). -/
inductive IntTy where
  | s32 | z32 | s64 | z64
  deriving DecidableEq, Repr

/-- Conditions of CMP and VCMP (R102). -/
inductive Cond where
  | eq | ne | lt | le | gt | ge
  deriving DecidableEq, Repr

/-- Variants of HASH (R104). -/
inductive HashOp where
  | crc32 | crc64 | range
  deriving DecidableEq, Repr

/-- Modes of CVTA (R105). -/
inductive CvtaMode where
  | tocl | toloc | tovirt
  deriving DecidableEq, Repr

/-- Windows of ISWIN (R106). -/
inductive Win where
  | local | clus | prick | seg
  deriving DecidableEq, Repr

/-- Variants of VMUL (R110). -/
inductive MulMode where
  | lo | hi | sat
  deriving DecidableEq, Repr

/-- Variants of VSH (R110). -/
inductive ShOp where
  | shl | shr | rotl | rotr
  deriving DecidableEq, Repr

/-- Variants of VSHUF (R111). -/
inductive ShufOp where
  | idx | xor | rot
  deriving DecidableEq, Repr

/-- Variants of VRED (R111). -/
inductive RedOp where
  | add | min | max | and | or | xor
  deriving DecidableEq, Repr

/-- Rounding field (R122); `dyn` is 000 and code 110 has no constructor. -/
inductive Rnd where
  | dyn | rne | rtz | rup | rdn | rna | rto
  deriving DecidableEq, Repr

/-- Floating-point type of the scalar group (R135); the vector group has no f64 (R128). -/
inductive FTy where
  | f32 | f64 | f16 | bf16
  deriving DecidableEq, Repr

/-- Sign variants of the fused multiply-add (R129). -/
inductive FmaOp where
  | fma | fms | fnma | fnms
  deriving DecidableEq, Repr

/-- Variants of VFMINMAX and FMINMAX (R129). -/
inductive FMinMax where
  | min | max | minnum | maxnum
  deriving DecidableEq, Repr

/-- Conditions of VFCMP and FCMP (R131). -/
inductive FCond where
  | eq | ne | lt | le | gt | ge | un | ord
  deriving DecidableEq, Repr

/-- Kinds of KACC (R140). -/
inductive AccKind where
  | f32 | prod | f64 | s32 | s64
  deriving DecidableEq, Repr

/-- Kinds of CPYQ (R284). -/
inductive CpyqKind where
  | id | shadow | free
  deriving DecidableEq, Repr

/-- Kinds of MSTAT (R311). -/
inductive MstatKind where
  | pair | latch | ter
  deriving DecidableEq, Repr

/-- ORD of FENCE (R256). -/
inductive FenceOrd where
  | acq | rel | acqrel | sc
  deriving DecidableEq, Repr

/-- The fields of a format M word other than its major opcode (R34). -/
structure MemF where
  la : BitVec 4
  guard : Guard
  data : Opnd
  base : Opnd
  width : BitVec 3
  order : BitVec 3
  scope : BitVec 3
  bound : BitVec 4
  reuse : BitVec 2
  off : BitVec 13
  deriving DecidableEq, Repr

/-- One half of a paired word (R43). -/
structure Half where
  op : BitVec 6
  d : BitVec 6
  a : BitVec 6
  b : BitVec 6
  mod : BitVec 4
  deriving DecidableEq, Repr

/-! Parameters of the events. -/

/-- The place of a context on its core: a barrel-thread slot or a wave frame (R54). -/
inductive Seat where
  | slot (n : Nat)
  | frame (n : Nat)
  deriving DecidableEq, Repr

/-- A context: the local identifier of its core (R6) and its place there. -/
structure CtxId where
  core : Nat
  seat : Seat
  deriving DecidableEq, Repr

/-- What an arriving flit brings besides its payload (R319): its sender, its receiver, its count, whether its
CHECK verifies (R321) and whether it comes back from the overflow area (R327). -/
structure Hdr where
  src : GlobalId
  dst : GlobalId
  seq : BitVec 12
  good : Bool
  reinj : Bool
  deriving DecidableEq, Repr

/-- A task record (R336). -/
structure TaskRec where
  entry : W64
  arg0 : W64
  arg1 : W64
  sender : GlobalId
  launch : W32
  kind : Byte
  deriving DecidableEq, Repr

/-- One line of Shuttle copy or multicast data at a destination core (R274, R278). -/
structure CopyLine where
  entry : Nat          -- the sender's queue entry
  gen : Nat            -- its generation
  line : Nat           -- line number of the transfer
  bytes : List Byte
  off : Nat            -- scratchpad offset of the first byte
  tag : BitVec 16      -- expected tag; 0: the tag of launch `lnum`'s team here
  fixed : Bool         -- the tag is that of an aperture row, also where it is 0
  lnum : W32
  domain : Nat         -- physical address of the RCB that begins the sender's fault domain
  layout : BitVec 2
  rbar : Nat           -- offset of the receiver's byte barrier, 0 for none
  deriving DecidableEq, Repr

/-- One line of Shuttle reduce data (R275). -/
structure RedLine where
  entry : Nat
  gen : Nat
  line : Nat
  bytes : List Byte
  bin : BitVec 8
  off : Nat
  w64 : Bool
  tag : BitVec 16
  lnum : W32
  domain : Nat
  layout : BitVec 2
  deriving DecidableEq, Repr

/-- How a destination line ended (R277): performed, discarded, failed or cancelled, with a cause of R272. -/
inductive LineEnd where
  | done
  | gone
  | err (cause : Nat)
  deriving DecidableEq, Repr

/-- A memory request of another agent (R246): a physical address, a kind, and what it carries. -/
inductive ReqKind where
  | read (n : Nat)
  | write (bytes : List Byte)
  | atom (op : BitVec 4) (w64 : Bool) (v : W64)
  | cas (w64 : Bool) (want new : W64)
  | rbump
  deriving DecidableEq, Repr

structure MemReq where
  pa : Nat
  kind : ReqKind
  ctx : CtxId          -- the waiting context
  tok : Nat            -- which of its outstanding accesses waits
  deriving DecidableEq, Repr

/-- A translation asked of a walker (R200). -/
structure MissReq where
  core : Nat
  root : Nat
  asn : BitVec 12
  va : Nat
  write : Bool
  deriving DecidableEq, Repr

/-- Who waits for a page (R228, R488): a context, a Shuttle transfer (its entry), the directory operations of a team, the
completion add of a team. -/
inductive Asker where
  | nobody
  | ctx (id : CtxId)
  | transfer (core entry : Nat)
  | prick (core tag : Nat)
  | done (core tag : Nat)
  deriving DecidableEq, Repr

/-- The core of an asker. -/
def Asker.core : Asker → Nat
  | .nobody => 0
  | .ctx id => id.core
  | .transfer k _ => k
  | .prick k _ => k
  | .done k _ => k

/-- A page that a residency engine works on (R224, R225, R488): the accessing core, the domain, the virtual address, the
region that a first touch charges (15_work.md R394), and for a fill that has begun the page that is copied and its
frame. -/
structure PageJob where
  core : Nat
  rcb : Nat
  va : Nat
  fine : Bool
  who : Asker
  region : Nat
  begun : Bool
  src : Nat
  dst : Nat
  deriving DecidableEq, Repr

/-- A virtual range to prick (R248, R250). -/
structure PrickReq where
  vbase : Nat
  rows : Nat
  first : Nat
  tag : BitVec 16
  rights : BitVec 2
  counter : Nat        -- physical address of the round counter; replicas only
  deriving DecidableEq, Repr

/-- The type of a flit (R320). -/
inductive FlitTy where
  | ctrl | mreq | mresp | ack | credit | nack | cresp | page | ray | hit | task | ret | msg | qdata | key | copy | red
  deriving DecidableEq, Repr

/-- Who asks Tchios, what for, and the target (R452). -/
structure Dbg where
  viaHost : Bool
  tag : Byte
  ctx : CtxId
  deriving DecidableEq, Repr

/-- A halt scope (R453). -/
inductive HaltScope where
  | context | team | core | cluster | package
  deriving DecidableEq, Repr

/-- A Tchios CTRL flit: its header, and the payload that it carries (R452, R453). -/
structure CtrlCmd where
  hdr : Hdr
  opcode : Byte
  dbg : Dbg
  args : List Byte
  deriving DecidableEq, Repr

/-- Who wrote a region command: the host's slot or the supervisor's (R472). -/
inductive CmdSlot where
  | host | sup
  deriving DecidableEq, Repr

/-- What verifying a firmware image gives (R476, R477). -/
inductive FwVerdict where
  | ok | key | signature | version
  deriving DecidableEq, Repr

/-- The body of a flit that can be parked (R327). -/
inductive Parkable where
  | ray (payload : List Byte)
  | hit (payload : List Byte)
  | task (r : TaskRec)
  | ret (token value : W64) (w64 : Bool)
  | msg (lnum : W32) (len : Nat) (payload : List Byte)
  | qdata (lnum : W32) (n : BitVec 3) (w64 : Bool) (elems : List W64)
  | key (lnum : W32) (bin : BitVec 3) (slot : Nat) (w64 : Bool) (v : W64)
  deriving DecidableEq, Repr

/-- What bring-up finds around the module: per port, the largest response time and the capacities of its devices' ranges
(19_system.md R474, R486); the module fields of SITE_TOPO (01_package.md R15). -/
structure Surroundings where
  cxl : List (Nat × List Nat)
  mods : BitVec 8
  deriving DecidableEq, Repr

/-- One constructor per row of spec/opcode_table.json. -/
inductive Instr where
  -- scalar and uniform integer group (04_registers.md R102)
  | add (g : Guard) (t : IntTy) (d a b : Opnd)
  | sub (g : Guard) (t : IntTy) (d a b : Opnd)
  | addi (g : Guard) (t : IntTy) (d a : Opnd) (imm : BitVec 28)
  | mul (g : Guard) (t : IntTy) (d a b : Opnd)
  | mulh (g : Guard) (t : IntTy) (d a b : Opnd)
  | div (la : BitVec 4) (g : Guard) (t : IntTy) (d a b : Opnd)
  | rem (la : BitVec 4) (g : Guard) (t : IntTy) (d a b : Opnd)
  | minmax (g : Guard) (t : IntTy) (max : Bool) (d a b : Opnd)
  | and (g : Guard) (w64 : Bool) (d a b : Opnd)
  | or (g : Guard) (w64 : Bool) (d a b : Opnd)
  | xor (g : Guard) (w64 : Bool) (d a b : Opnd)
  | andn (g : Guard) (w64 : Bool) (d a b : Opnd)
  | shl (g : Guard) (w64 : Bool) (d a b : Opnd)
  | shr (g : Guard) (t : IntTy) (d a b : Opnd)
  | rot (g : Guard) (w64 : Bool) (left : Bool) (d a b : Opnd)
  | bfx (g : Guard) (t : IntTy) (d a b c : Opnd)
  | bfi (g : Guard) (w64 : Bool) (d a b c : Opnd)
  | popc (g : Guard) (w64 : Bool) (d a : Opnd)
  | clz (g : Guard) (w64 : Bool) (d a : Opnd)
  | ctz (g : Guard) (w64 : Bool) (d a : Opnd)
  | brev (g : Guard) (w64 : Bool) (d a : Opnd)
  | cmp (g : Guard) (t : IntTy) (k : Cond) (d a b : Opnd)
  | sel (g : Guard) (w64 : Bool) (d a b c : Opnd)
  | mov (g : Guard) (t : IntTy) (d a : Opnd)
  | sbind (g : Guard) (d a : Opnd)
  | sunb (g : Guard) (d : Opnd)
  | movi (g : Guard) (signed : Bool) (d : Opnd) (imm : BitVec 32)
  | movh (g : Guard) (d : Opnd) (imm : BitVec 32)
  | lea (g : Guard) (t : IntTy) (s : BitVec 3) (d a b : Opnd)
  | addc (g : Guard) (w64 : Bool) (d a b c : Opnd)
  | mad (g : Guard) (t : IntTy) (d a b c : Opnd)
  | sxt (g : Guard) (t : IntTy) (d a b : Opnd)
  | hash (g : Guard) (op : HashOp) (d a b : Opnd)
  | cvta (g : Guard) (m : CvtaMode) (d a : Opnd)
  | iswin (g : Guard) (w : Win) (d a : Opnd)
  -- control group (03_contexts.md R73)
  | bra (g : Guard) (off : BitVec 32)
  | bri (g : Guard) (a : Opnd)
  | call (g : Guard) (off : BitVec 32)
  | ret (g : Guard)
  | loop (g : Guard) (level : Bool) (a : Opnd) (imm : BitVec 28)
  | lbrk (g : Guard) (level : Bool)
  | join (g : Guard) (off : BitVec 32)
  | waitb (g : Guard) (team : Bool) (t : BitVec 4)
  | waitc (g : Guard) (flags : BitVec 4)
  | yield (g : Guard)
  | poll (m : MemF)
  | park (g : Guard) (a b : Opnd)
  | spawn (g : Guard) (d a b c : Opnd)
  | spawnLaunch (g : Guard) (d a b c : Opnd)
  | quit (g : Guard)
  | nop (g : Guard)
  -- global memory group (07_addresses.md R202, 08_residency.md R232, 09_sharing.md R255)
  | ld (m : MemF)
  | st (m : MemF)
  | ldc (m : MemF)
  | atom (m : MemF)
  | cas (m : MemF)
  | ldlod (m : MemF)
  | pref (m : MemF)
  | rbump (m : MemF)
  | rsnap (m : MemF)
  -- vector integer group (R110)
  | vadd (g : Guard) (signed sat : Bool) (d a b : Opnd)
  | vsub (g : Guard) (signed sat : Bool) (d a b : Opnd)
  | vmul (g : Guard) (signed : Bool) (m : MulMode) (d a b : Opnd)
  | vmad (g : Guard) (signed : Bool) (d a b c : Opnd)
  | vminmax (g : Guard) (signed max : Bool) (d a b : Opnd)
  | vlog (g : Guard) (tt : Byte) (d a b c : Opnd)
  | vsh (g : Guard) (signed : Bool) (op : ShOp) (d a b : Opnd)
  | vcmp (g : Guard) (signed : Bool) (k : Cond) (d a b : Opnd)
  | vsel (g : Guard) (d a b c : Opnd)
  | vmov (g : Guard) (d a : Opnd)
  | vbcast (g : Guard) (d a b : Opnd)
  | vshuf (g : Guard) (op : ShufOp) (d a b : Opnd)
  | vred (g : Guard) (signed : Bool) (op : RedOp) (d a : Opnd)
  | vballot (g : Guard) (d a : Opnd)
  | vpopc (g : Guard) (below : Bool) (d a : Opnd)
  -- vector floating-point group (05_lanes.md R129)
  | vfadd (g : Guard) (r : Rnd) (t : FTy) (d a b : Opnd)
  | vfsub (g : Guard) (r : Rnd) (t : FTy) (d a b : Opnd)
  | vfmul (g : Guard) (r : Rnd) (t : FTy) (d a b : Opnd)
  | vfma (g : Guard) (r : Rnd) (op : FmaOp) (t : FTy) (d a b c : Opnd)
  | vfminmax (g : Guard) (op : FMinMax) (t : FTy) (d a b : Opnd)
  | vfdiv (la : BitVec 4) (g : Guard) (r : Rnd) (t : FTy) (d a b : Opnd)
  | vfsqrt (la : BitVec 4) (g : Guard) (r : Rnd) (t : FTy) (d a : Opnd)
  | vfrcp (la : BitVec 4) (g : Guard) (r : Rnd) (t : FTy) (d a : Opnd)
  | vfrsq (la : BitVec 4) (g : Guard) (r : Rnd) (t : FTy) (d a : Opnd)
  | vfexp2 (la : BitVec 4) (g : Guard) (r : Rnd) (t : FTy) (d a : Opnd)
  | vflog2 (la : BitVec 4) (g : Guard) (r : Rnd) (t : FTy) (d a : Opnd)
  | vfsin (la : BitVec 4) (g : Guard) (r : Rnd) (t : FTy) (d a : Opnd)
  | vfcos (la : BitVec 4) (g : Guard) (r : Rnd) (t : FTy) (d a : Opnd)
  | vfcmp (g : Guard) (hi : Bool) (k : FCond) (t : FTy) (d a b : Opnd)
  | vfclass (g : Guard) (t : FTy) (d a : Opnd)
  | vcvt (g : Guard) (r : Rnd) (code : BitVec 5) (d a b : Opnd)
  -- scalar floating-point group (R136)
  | fadd (g : Guard) (r : Rnd) (sub : Bool) (t : FTy) (d a b : Opnd)
  | fmul (g : Guard) (r : Rnd) (t : FTy) (d a b : Opnd)
  | ffma (g : Guard) (r : Rnd) (op : FmaOp) (t : FTy) (d a b c : Opnd)
  | fminmax (g : Guard) (op : FMinMax) (t : FTy) (d a b : Opnd)
  | fcmp (g : Guard) (k : FCond) (t : FTy) (d a b : Opnd)
  | fdiv (la : BitVec 4) (g : Guard) (r : Rnd) (t : FTy) (d a b : Opnd)
  | fsqrt (la : BitVec 4) (g : Guard) (r : Rnd) (t : FTy) (d a : Opnd)
  | fcvt (g : Guard) (r : Rnd) (code : BitVec 5) (d a : Opnd)
  | rdmode (g : Guard) (d : Opnd)
  | wrmode (g : Guard) (a b : Opnd)
  -- vector memory group (06_scratchpad.md R176)
  | vld (m : MemF)
  | vst (m : MemF)
  | vlds (m : MemF)
  | vsts (m : MemF)
  | vatom (m : MemF)
  | scfgBind (g : Guard) (d a : Opnd)
  | scfgUnbind (g : Guard) (d : Opnd)
  | scfgRtag (g : Guard) (a b c : Opnd)
  | vpack (g : Guard) (kind : BitVec 6) (d a b : Opnd)
  | vunpk (g : Guard) (kind : BitVec 6) (d a b : Opnd)
  -- paired words (R43)
  | pairI (x y : Half)
  | pairF (x y : Half)
  | pairIF (x y : Half)
  -- matrix group (11_matrix.md R311)
  | mpairLead (g : Guard) (d b : Opnd)
  | mpairFollow (g : Guard) (d : Opnd)
  | mrel (g : Guard)
  | mcfg (g : Guard) (word : BitVec 3) (pair : Bool) (d a b : Opnd)
  | mma (g : Guard) (clr t unf bi8 : Bool) (d a b c : Opnd)
  | mdrain (g : Guard) (f32 t clr : Bool) (d a b : Opnd)
  | mdrainKacc (g : Guard) (t clr : Bool) (i : BitVec 2) (d b : Opnd)
  | mstat (g : Guard) (kind : MstatKind) (clr : Bool) (d a : Opnd)
  | kBlockStep (leader : Nat)
  | drainComplete (leader : Nat)
  -- accumulators (R140)
  | kacc (g : Guard) (i : BitVec 2) (kind : AccKind) (a b : Opnd)
  | kclr (g : Guard) (i : BitVec 2)
  | krnd (g : Guard) (i : BitVec 2) (r : Rnd) (f64 clr : Bool) (d : Opnd)
  | kstat (g : Guard) (i : BitVec 2) (clr : Bool) (d : Opnd)
  -- Shuttle group (10_shuttle.md R284)
  | cpyw (g : Guard) (word : BitVec 3) (pair : Bool) (d a b : Opnd)
  | cpygo (g : Guard) (d a : Opnd)
  | shkick (g : Guard) (d a b : Opnd)
  | seal (g : Guard)
  | cpyq (g : Guard) (kind : CpyqKind) (d a : Opnd)
  | bari (g : Guard) (d a b c : Opnd)
  | bara (g : Guard) (a b : Opnd)
  | barw (g : Guard) (d a : Opnd)
  | cpyx (g : Guard) (d a : Opnd)
  | transferStart (core entry : Nat)
  | ack (h : Hdr) (entry gen line bytes : Nat) (how : LineEnd)
  | copy (h : Hdr) (l : CopyLine)
  | red (h : Hdr) (l : RedLine)
  -- network group (12_mesh.md R339)
  | msend (g : Guard) (rel : Bool) (scope : BitVec 3) (d a b c : Opnd)
  | mrecv (la : BitVec 4) (g : Guard) (acq : Bool) (scope : BitVec 3) (d a : Opnd)
  | ksend (g : Guard) (rel : Bool) (scope : BitVec 3) (w64 : Bool) (d a b c : Opnd)
  | racfgBin (g : Guard) (d a b c : Opnd)
  | racfgUnbin (g : Guard) (d b : Opnd)
  | racfgRoute (g : Guard) (d a b c : Opnd)
  | racfgQuery (g : Guard) (d b : Opnd)
  | qcfgIn (g : Guard) (w64 : Bool) (n : BitVec 3) (d a b c : Opnd)
  | qcfgOut (g : Guard) (w64 : Bool) (n : BitVec 3) (d a b : Opnd)
  | qcfgRx (g : Guard) (d a b : Opnd)
  | qcfgUnin (g : Guard) (n : BitVec 3) (d : Opnd)
  | qcfgUnout (g : Guard) (n : BitVec 3) (d : Opnd)
  | qcfgUnrx (g : Guard) (d : Opnd)
  | callat (g : Guard) (d a b c : Opnd)
  | retm (g : Guard) (w64 : Bool) (d a b : Opnd)
  | amsg (g : Guard) (d a b c : Opnd)
  | qdata (h : Hdr) (lnum : W32) (n : BitVec 3) (w64 : Bool) (elems : List W64)
  | credit (h : Hdr) (n : BitVec 3) (amount : Nat)
  | msg (h : Hdr) (lnum : W32) (len : Nat) (payload : List Byte)
  | key (h : Hdr) (lnum : W32) (bin : BitVec 3) (slot : Nat) (w64 : Bool) (v : W64)
  | task (h : Hdr) (r : TaskRec)
  -- rays (13_rays.md R368)
  | rpop (la : BitVec 4) (g : Guard) (hits wait gather : Bool) (d a : Opnd)
  | rpopClaim (la : BitVec 4) (g : Guard) (hits : Bool) (d a : Opnd)
  | rpopRelease (la : BitVec 4) (g : Guard) (hits : Bool) (d a : Opnd)
  | rsend (g : Guard) (owner : Bool) (d a : Opnd)
  | xnode (la : BitVec 4) (g : Guard) (d a b : Opnd)
  | xtri (la : BitVec 4) (g : Guard) (d a b : Opnd)
  | hsend (g : Guard) (d a : Opnd)
  | tmapMap (g : Guard) (d a : Opnd)
  | tmapUnmap (g : Guard) (d a : Opnd)
  | tlpin (g : Guard) (d a : Opnd)
  | tlrepOffer (g : Guard) (d a b c : Opnd)
  | tlrepWithdraw (g : Guard) (d a : Opnd)
  | ray (h : Hdr) (payload : List Byte)
  | hit (h : Hdr) (payload : List Byte)
  | directoryLookup (cluster : Nat) (asn : BitVec 12) (id : W32) (c : CtxId)
  | treeletPageIn (cluster : Nat) (asn : BitVec 12) (id : W32)
  | heatReport (core : Nat)
  | heatReportArrival (cluster : Nat) (asn : BitVec 12) (id : W32) (count : Nat)
  | routeCacheExpiry (core : Nat) (asn : BitVec 12) (id : W32)
  -- raster (14_raster.md R387)
  | xtile (g : Guard) (d a b : Opnd)
  | hoopwClaim (g : Guard) (d : Opnd)
  | hoopwRelease (g : Guard) (d : Opnd)
  | hoopwState (g : Guard) (d a : Opnd)
  | hoopwAdd (g : Guard) (d a : Opnd)
  | hoopwClear (g : Guard) (d : Opnd)
  | hoopr (g : Guard) (d a b : Opnd)
  | hoopUrgent (core : Nat)
  -- synchronisation (06_scratchpad.md R182, 09_sharing.md R256)
  | ldfe (m : MemF)
  | stfe (m : MemF)
  | waiterRetry (c : CtxId)
  | feqTest (g : Guard) (b64 : Bool) (d a : Opnd)
  | feqFill (g : Guard) (b64 : Bool) (a : Opnd)
  | feqDrain (g : Guard) (b64 : Bool) (a : Opnd)
  | barsInit (g : Guard) (scope : BitVec 3) (d a b : Opnd)
  | barsArrive (g : Guard) (scope : BitVec 3) (d a b : Opnd)
  | barsWait (g : Guard) (scope : BitVec 3) (d a b : Opnd)
  | barsSync (g : Guard) (scope : BitVec 3) (d a : Opnd)
  | fence (g : Guard) (ord : FenceOrd) (scope : BitVec 3)
  | pfence (g : Guard) (paths : BitVec 4)
  -- system (16_traps.md R437)
  | trap (g : Guard) (code : BitVec 16)
  | tretRetry (g : Guard)
  | tretSkip (g : Guard)
  | tretKill (g : Guard)
  | mfs (g : Guard) (sel : Byte) (index : BitVec 10) (d : Opnd)
  | mts (g : Guard) (sel : Byte) (index : BitVec 10) (a : Opnd)
  | cctlWrite (g : Guard) (a : Opnd)
  | bfmtWrite (g : Guard) (n : BitVec 3) (a : Opnd)
  | pgselWrite (g : Guard) (n : BitVec 3) (a : Opnd)
  | clAmodeWrite (g : Guard) (a : Opnd)
  | tierWmWrite (g : Guard) (tier : BitVec 2) (a : Opnd)
  | clOvfWrite (g : Guard) (a : Opnd)
  | clOvfsRead (g : Guard) (d : Opnd)
  | segw (g : Guard) (n : BitVec 3) (a b : Opnd)
  | segr (g : Guard) (n : BitVec 3) (hi : Bool) (d : Opnd)
  | pgmapMap (g : Guard) (d a b c : Opnd)
  | pgmapUnmap (g : Guard) (d a b c : Opnd)
  | pgmapPin (g : Guard) (d a b c : Opnd)
  | pgmapUnpin (g : Guard) (d a b c : Opnd)
  | pgmapDemote (g : Guard) (d a b c : Opnd)
  | tlbi (g : Guard) (kind : BitVec 2) (scope : BitVec 3) (a b : Opnd)
  | icinv (g : Guard) (scope : BitVec 3) (all : Bool) (a b : Opnd)
  | ctxsv (g : Guard) (a : Opnd)
  | ctxld (g : Guard) (a : Opnd)
  | ldphy (g : Guard) (space : BitVec 3) (width : BitVec 2) (d a : Opnd) (off : BitVec 26)
  | stphy (g : Guard) (space : BitVec 3) (width : BitVec 2) (d a : Opnd) (off : BitVec 26)
  -- debug (18_debug.md R462 R469)
  | bkpt (g : Guard) (code : Byte)
  | cntr (g : Guard) (unit : Bool) (d a : Opnd)
  | cntctlSel (g : Guard) (a b : Opnd)
  | cntctlEn (g : Guard) (a : Opnd)
  | cntctlClr (g : Guard) (a : Opnd)
  | cntctlUclr (g : Guard) (a : Opnd)
  | mark (g : Guard) (a : Opnd)
  -- events of contexts and the scheduler (02_clauses.md, 03_contexts.md)
  | clauseFetch
  | headerWait
  | swapOut (core frame : Nat)
  | promotion (core : Nat)
  | powerWindow (core : Nat)
  | pollRetry (c : CtxId)
  | parkLimitExpiry (c : CtxId)
  | gatherTimeout (c : CtxId)
  | mpairLimitExpiry (c : CtxId)
  | loadResult (c : CtxId) (tok : Nat)
  -- memory, directory and residency events (07 to 09)
  | mreq (h : Hdr) (r : MemReq)
  | mresp (h : Hdr) (c : CtxId) (tok : Nat) (data : List Byte)
  | forwardedAccess (core : Nat) (r : MemReq)
  | roundNotice (core : Nat) (counter : Nat) (value : W64)
  | refresh (core entry : Nat)
  | prickOwner (core : Nat) (p : PrickReq)
  | unprickOwner (core entry : Nat)
  | prickReplica (core : Nat) (p : PrickReq)
  | walkComplete (cluster : Nat) (q : MissReq)
  | missQueueRetry (cluster : Nat) (q : MissReq)
  | fill (j : PageJob)
  | firstTouch (j : PageJob)
  | demotion (site : Nat)
  | drain (pa : Nat) (fine : Bool)
  | tier1Demotion (site : Nat) (leaf : Nat) (fine : Bool)
  | tierExhaustedRetry (site tier : Nat)
  | frameStarvationTimeout (who : Asker)
  | heatHalving (site : Nat)
  | picotFilterExpiry (cluster index : Nat)
  -- mesh recovery and parking (12_mesh.md)
  | reinject (cluster index : Nat)
  | selvedgeReplay (link : Nat) (ty : FlitTy) (h : Hdr) (tries : Nat)
  | nack (h : Hdr) (ty : FlitTy) (seq : BitVec 12)
  | recoveryExpiry (core : Nat) (src : GlobalId) (vc : BitVec 3)
  | flitHoldExpiry (core index : Nat)
  -- Tchios (18_debug.md)
  | ctrl (cluster : Nat) (cmd : CtrlCmd)
  | halt (q : Dbg) (scope : HaltScope)
  | debugResume (q : Dbg) (scope : HaltScope)
  | step (q : Dbg) (slot : Bool) (limit : BitVec 16)
  | stepx (q : Dbg) (slot : Bool) (limit : BitVec 16) (word : W64)
  | stepLimitExpiry (c : CtxId)
  | rdctx (q : Dbg) (off len : Nat)
  | wrctx (q : Dbg) (off : Nat) (bytes : List Byte)
  | rdrow (q : Dbg) (off : Nat)
  | wrrow (q : Dbg) (off : Nat) (bytes : List Byte)
  | patch (q : Dbg) (asn : BitVec 16) (va : W64) (word : W64)
  | start (q : Dbg) (s : Nat) (lnum : W32) (codes : List Byte) (at_ : W64) (dest : W64)
  | launchRecordArm (cluster s : Nat)
  | stop (q : Dbg) (s : Nat)
  | linkGridSnapshot (cluster : Nat)
  -- traps and interrupts (16_traps.md)
  | trapEntry (c : CtxId)
  | interrupt (core : Nat)
  -- the work tree (15_work.md, commands in 19_system.md R472)
  | regionOpen (s : CmdSlot) (op0 op1 op2 : W64)
  | regionClose (s : CmdSlot) (op0 op1 op2 : W64)
  | regionPrio (s : CmdSlot) (op0 op1 op2 : W64)
  | regionDeadline (s : CmdSlot) (op0 op1 op2 : W64)
  | regionBudget (s : CmdSlot) (op0 op1 op2 : W64)
  | regionPreempt (s : CmdSlot) (op0 op1 op2 : W64)
  | regionResume (s : CmdSlot) (op0 op1 op2 : W64)
  | regionKill (s : CmdSlot) (op0 op1 op2 : W64)
  | epoch
  | placement (core : Nat)
  | teamStart (core : Nat) (tag : BitVec 16)
  | exit (core : Nat) (tag : BitVec 16)
  | childCompletion (core : Nat) (tag : BitVec 16)
  | preemption (core : Nat) (tag : BitVec 16) (urgent : Bool)
  | resumption (core : Nat) (tag : BitVec 16)
  -- host link, power, trust (19_system.md)
  | hostActiveMessage (core : GlobalId) (entry arg0 arg1 : W64)
  | hostMessageRing (r : TaskRec)
  | directoryWindowRead
  | registerWrite (host : Bool) (addr : Nat) (v : W64)
  | powerReqRun
  | powerReqRetention
  | powerReqOff
  | powerStateReached
  | idleGate (cluster : Nat)
  | retire (core : GlobalId)
  | retireUndo (core : GlobalId)
  | unitFailure (cluster : Nat) (slice : Bool)
  | lifecycleAdvance (target : BitVec 3)
  | tokenNonce (nonce : List Byte)
  | tokenSubmit (identityOk ownerKeyOk signatureOk : Bool)
  | tokenRevoke
  | tokenExpiry
  | fwBegin (arg : BitVec 24) (len : BitVec 21)
  | fwChunk (arg : BitVec 24) (len : BitVec 21)
  | fwCommit (verdict : FwVerdict) (flashOk : Bool)
  | fwAbort
  | fwctlComplete
  | attestationRequest (nonce : List Byte) (signature : List Byte)
  | patrolScrub (found : List (Nat × Bool))
  | rowScrub (core row : Nat) (bad : Option Bool)
  | bringUp (failed : Option (Nat × Bool)) (found : Surroundings)
  | retArrival (h : Hdr) (token value : W64) (w64 : Bool)
  | lookupRetry (c : CtxId)
  | powerLoss (duringFlash : Bool)
  deriving DecidableEq, Repr

end Sys2Proof
end

