-- ==== Sys2Proof/Machine/State.lean ====
section
/-! DEFINITION. The state of the XZ2880 as plain data, its state after reset, and the reasons a step can stop.
What each field is, and the rule that names it, is in the docstrings and in INVENTORY.md. -/

namespace Sys2Proof.Machine

/-! The reasons a step can stop. -/

/-- Faults of the machine: none. Every failure that the rules name is a trap, a kill or a status, and is taken; no rule stops
the machine. Nothing raises a fault. -/
inductive Fault where
  deriving DecidableEq, Repr

/-- Refusals of the model. -/
inductive Refusal where
  /-- An instruction that the model gives no meaning yet. Raised by the arms of `exec` alone. Safe. -/
  | notModelled (mnemonic : String)
  deriving DecidableEq, Repr

/-! Contexts (03_contexts.md). -/

/-- What a context is (R54). -/
inductive Kind where
  | thread
  | wave
  deriving DecidableEq, Repr

/-- The stall reasons of R72, codes 0 to 13 in order. -/
inductive Stall where
  | issued | halt | trapEntry | fullEmpty | barrier | loadOp | arithOp | shBatch | meshFull | matrixBusy
  | fetch | pendingSet | poll | lostArb
  deriving DecidableEq, Repr

/-- A clause in a clause buffer: its header, its words, and whether index 0 may issue (R24, R27, R30). -/
structure Buf where
  header : W64
  words : List W64
  ready : Bool
  deriving DecidableEq, Repr

/-- One PC slot (R60). A barrel thread uses slot 0 with mask 1. -/
structure PcSlot where
  live : Bool
  pc : W64               -- R29
  mask : BitVec 16
  depth : Nat
  waiting : Bool         -- STATE: waiting at a join
  jpc : W64              -- the join target while waiting
  rstk : List W64        -- return stack, top first (R56)
  cclass : BitVec 3      -- class of the clause last held (R31)
  ccount : BitVec 4      -- its COUNT (R424)
  refetch : Bool         -- the buffer was discarded: the class is compared at the next fetch (R31)
  skip : W64 × List Nat  -- the comparators that stopped it at a program counter and do not match there again (R455)
  buf : Option Buf
  deriving DecidableEq, Repr

/-- A write to a register file. -/
inductive RegWrite where
  | x (n : Nat) (v : W64)
  | v (n lane : Nat) (w : W32)
  | k (half n : Nat) (w : W32) (lat : Nat)     -- lat: its latency, 0 where it lands on arrival (R91)
  | p (n : Nat) (lanes bits : BitVec 16)
  | flags (f : BitVec 5)
  | latest (pa : Nat) (v : W64)                -- LATEST of the core's watch entry of a counter raised (09_sharing.md R255)
  | row (off : Nat) (bs : List Byte)           -- a store to rows of the core (13_rays.md R367)
  deriving DecidableEq, Repr

/-- A write to a uniform register that has been issued and has not landed: the cycle in which it lands and its rank among
those that land in that cycle (R91). -/
structure UniWrite where
  at_ : Nat
  rank : Nat             -- 0 an older result; 1 the wave port's instruction of the cycle; 2 the barrel port's
  reg : Nat              -- 512 × half + number
  val : W32
  by_ : Option Seat      -- the context that issued it
  deriving DecidableEq, Repr

/-- The result of a long-latency instruction that has not landed (R41, R91, R198). -/
structure Pend where
  tok : Nat
  writes : List RegWrite
  window : Nat           -- instructions left of the lookahead window
  load : Bool            -- a memory result, or an arithmetic one
  since : Nat            -- clk at which it was issued
  addr : W64             -- generic address of its access (16_traps.md R418)
  unit : Nat             -- 0 none that keeps an order; 1 special functions; 2 the core's divider (R116)
  deriving DecidableEq, Repr

/-- A stream binding: the descriptor of R96 and the count of the next element (R97, R98). -/
structure Stream where
  desc : BitVec 256
  next : Nat
  deriving DecidableEq, Repr

/-- A binding of `qo` (R331). -/
structure QoBind where
  core : GlobalId
  queue : Nat
  w64 : Bool
  grant : Nat            -- credits given at QCFG out
  credits : Nat          -- credits it holds
  deriving DecidableEq, Repr

/-- A waiter-table entry, or a request that the full table has refused (R172): the context and its lane, the word or
barrier object and what it waits for, with what it takes to perform it. -/
structure Waiter where
  ctx : CtxId
  lane : Nat
  off : Nat
  kind : Nat             -- 0 full (LDFE), 1 empty (STFE), 2 a phase (BARS), 3 no byte pending (BARW)
  w64 : Bool
  reg : Nat              -- LDFE: the primary register it writes
  data : W64             -- STFE: the value; a phase: the token
  deriving DecidableEq, Repr

/-- A line of a cache (R33, R239, R245): its number, its re-reference value (R209) and its bytes. In a path or clause cache
`asn`, `page` and `fine` are those of the translation that filled it; in a home slice the bytes lie in the slice's SRAM, and
`dirty` says which 32-byte atoms are newer than memory (R242). -/
structure CLine where
  line : Nat
  rrv : Nat
  dirty : BitVec 2
  asn : BitVec 12
  page : Nat             -- va >> 10
  fine : Bool            -- that translation was of a sub-page
  bytes : List Byte
  deriving DecidableEq, Repr

/-- A cache: its lines by set and way, way w of set s at s × ways + w. -/
abbrev Cache := Store (Option CLine)

/-- What a wait is: one on another agent (16_traps.md R421); one during which its context issues nothing else (R82, R183,
R198, R287, R300); one of a load that has not written its result (R27). -/
structure WaitKind where
  agent : Bool := false
  alone : Bool := false
  load : Bool := false
  deriving DecidableEq, Repr

/-- What an instruction that waits on another agent has done so far (R82, R183, R185, R369). -/
structure Progress where
  active : Bool          -- the wait belongs to the instruction at the pc
  done : BitVec 16       -- lanes performed
  old : List W64         -- POLL: the old values by lane; BARS and BARW: LSTAT at completion
  tok : Option Bool      -- BARS sync and BARW: the token
  since : Nat            -- clk at which the wait began
  reqs : List (Nat × Waiter)   -- requests not performed and in no table, with their cores
  met : List Nat         -- pending results that the instruction at the pc waits for (R41)
  violated : Bool        -- its lookahead violation has been counted (R41)
  kind : WaitKind        -- what its last wait was
  backoff : Nat          -- the polling interval I (R71)
  nextCheck : Nat        -- clk of the next check of its poll (R71), or of its next offer to the miss queue (R200); 0: none
  missed : List Nat      -- pages whose misses in the TLB have been counted (R465)
  pops : Option (Nat × Nat)   -- the queue whose elements it waits for, and the cycle since which it does (R330, R369)
  deriving DecidableEq, Repr

/-- What the divergence stack's entry of 128 bytes does not hold: the lanes pushed, the wait in progress of their
instruction (R61, R82, R172), whether a clause was discarded at the push (R31), with its COUNT, and the comparators that
stopped it (R455). -/
structure Stacked where
  lanes : BitVec 16
  prog : Progress
  refetch : Bool
  count : BitVec 4
  skip : W64 × List Nat
  deriving DecidableEq, Repr

/-- A parked context (R84): the events that wake it and the cycle of its limit. -/
structure Park where
  events : BitVec 4
  limit : Option Nat
  deriving DecidableEq, Repr

/-- What trap entry keeps of the trapping slot (R422), and the class of its discarded clause (R31). -/
structure Kept where
  slot : Nat
  cls : Option (BitVec 3)
  mask : BitVec 16
  depth : Nat
  waiting : Bool
  pc : W64               -- where it trapped, with the lanes that its POLL, LDFE or STFE has done (R82, R183)
  done : BitVec 16
  tok : Option Bool      -- the token of a BARS sync that has arrived (R185)
  check : Bool           -- a loop-end check raised the trap: a retry makes it again (R420)
  deriving DecidableEq, Repr

/-- A precise trap of the turn's context (16_traps.md R418 to R420). -/
structure Trap where
  cause : Nat
  detail : Nat := 0
  addr : W64 := 0
  lanes : Option (BitVec 16) := none    -- FAULT, when the rule names lanes of its own
  header : Bool := false
  imprecise : Bool := false
  deriving DecidableEq, Repr

/-- A trap that waits for the context's other slot (16_traps.md R421): its slot, lanes and kind of word. -/
structure TrapDue where
  trap : Trap
  paired : Bool
  lanes : BitVec 16
  slot : Nat
  deriving DecidableEq, Repr

/-- Where a context stands (R66, R67). -/
inductive Place where
  | active       -- a thread in its slot; a wave in an active position
  | pending      -- a pending wave that waits
  | ready        -- a pending wave that is ready
  deriving DecidableEq, Repr

/-- What a directory entry tells a sender: the owner and the three replica fields, 0x3F_FFFF for none. -/
structure Members where
  owner : GlobalId
  rep0 : GlobalId
  rep1 : GlobalId
  rep2 : GlobalId
  deriving DecidableEq, Repr

/-- An entry of a route cache (R361), most recently used first. -/
structure Route where
  asn : BitVec 12
  id : W32
  to_ : Members
  until_ : Nat
  deriving DecidableEq, Repr

/-- A lookup that a context waits for (R361): what it asks, and the answer: a status of R360, 8 for a refusal. -/
structure Asked where
  asn : BitVec 12
  id : W32
  answer : Option (Nat × Members)
  deriving DecidableEq, Repr

/-- A context: a barrel thread or a wave. -/
structure Ctx where
  present : Bool
  kind : Kind
  place : Place
  team : Nat                       -- tag of its team; 0 for a supervisor thread (R338)
  sup : Bool                       -- an active-message thread (R417)
  slots : PcSlot × PcSlot
  cur : Nat                        -- the slot that issues
  ran : Nat                        -- the slot that issued last (R69)
  dsp : Nat                        -- R61
  stacked : Store (Option Stacked) -- beside the stack entries in use
  released : BitVec 4              -- stack entries whose JOIN has completed and that arrive when restored (R63)
  x : Store W64                    -- x0 to x31 (R88)
  v : Store W32                    -- lane l of v n at 16 n + l (R88)
  p : Store (BitVec 16)            -- p1 to p7; p0 is constant (R94)
  g : Store (BitVec 128)           -- g0 to g7 (R189)
  ls : W64 × W64                   -- R77
  le : W64 × W64
  lc : W32 × W32
  mode : BitVec 32                 -- R121
  pend : List Pend
  tok : Nat                        -- number of the next long-latency result
  streams : Store (Option Stream)  -- 0 to 3: x24 to x27, or v28 to v31 (R96)
  qi : Option Nat                  -- R330
  qo : Option QoBind               -- R331
  latch : Store (List W64)         -- operand latch by operand position (R100)
  openBatch : List (Nat × Nat)     -- entry and generation of the open batch (R280)
  sealed : List (List (Nat × Nat)) -- sealed batches
  stall : Stall                    -- of the slot that issues, at its last turn
  stall2 : Stall                   -- of the other slot
  parked : Option Park
  yielded : Bool
  prog : Progress                  -- of the instruction at the pc of the slot that issues
  prog2 : Progress                 -- of the other slot's
  moved : Option W64               -- the header whose wait moved the wave to the pending set (R67)
  moved2 : Option W64              -- that of the other slot
  lastIssue : Nat                  -- clk at which it last issued (R69, R72)
  asked : Option Asked             -- a directory lookup under way (R361)
  handler : Bool                   -- in a handler (R417)
  kept : Option Kept               -- R422
  trapping : Option TrapDue        -- a trap about to enter (R421)
  tpc0 : W64                       -- trap registers (R424)
  tpc1 : W64
  tcause : W64
  taddr : W64
  tmask : W64
  tspare : W64
  starved : Option Nat             -- clk at which frame starvation began (R228)
  grant : Bool                     -- holds the grant of its die's reserve, or is listed as starved there (R228)
  halted : Option (BitVec 8)       -- halt cause (R456)
  bkhalt : Bool                    -- R454
  stepping : Option Nat            -- a STEP in progress: its limit's clk (R460)
  stepWord : Option W64            -- STEPX: the word to issue
  bp : Store W64                   -- BP0 to BP3 (R454)
  wp : Store (BitVec 128)          -- WP0 to WP3
  cbctl : W64                      -- R464
  cnt : Store W64                  -- C0 to C7
  lav : W64
  cbst : W64
  mkval : W32
  mkclk : W64
  deriving DecidableEq, Repr

/-! Teams (15_work.md, 12_mesh.md). -/

/-- A record that a team was started from (R401, R404, R406). -/
structure Rec where
  arg : W64
  sender : GlobalId
  tag : BitVec 16        -- the issuing team's tag; 0 for the supervisor or the host
  depth : Nat
  issuer : Option Nat    -- the RCB of the issuing team's region; none for the supervisor (R405)
  deriving DecidableEq, Repr

/-- One accumulator's status (R139); its words lie in the team's accumulator rows. -/
structure AccStat where
  nv : Bool
  pinf : Bool
  ninf : Bool
  nx : Bool
  big : Bool
  wrap : W64
  deriving DecidableEq, Repr

/-- An inbound element queue (R330). -/
structure InQueue where
  base : Nat             -- scratchpad offset of the ring
  rows : Nat
  producer : W64         -- the c operand of QCFG in
  w64 : Bool
  head : Nat             -- elements popped
  count : Nat            -- elements held
  owed : Nat             -- credits not yet returned
  deriving DecidableEq, Repr

/-- The team's receive ring (R333). -/
structure Ring where
  base : Nat
  rows : Nat
  head : Nat
  count : Nat
  deriving DecidableEq, Repr

/-- A receive-accumulate bin (R334, R344). -/
structure Bin where
  base : Nat
  rows : Nat
  w64 : Bool
  op : Nat
  bar : Option Nat       -- offset of its barrier
  count : W32
  drop : Bool
  sat : Bool
  flags : BitVec 5
  deriving DecidableEq, Repr

/-! The Shuttle (10_shuttle.md). -/

/-- States of a queue entry (R266). -/
inductive ShState where
  | free | queued | running | done
  deriving DecidableEq, Repr

/-- What a launch fixed about a transfer (R269, R274, R276). -/
structure ShEntry where
  state : ShState
  gen : Nat
  words : List W64        -- the request, W0 to W7
  team : Nat
  ctx : Option Seat       -- the launching context
  segs : Store (BitVec 128)
  sup : Bool
  order : Nat             -- launch number on the core
  dtag : Nat              -- expected tag; 0 looks it up at the receiver
  rm : BitVec 3
  ftz : Bool
  sfmt : Nat
  dfmts : List (Nat × Nat × Nat)   -- destination banks with a format other than RAW: core, bank, format
  lines : Nat             -- source lines
  sent : Nat              -- source lines read and sent
  dests : Nat             -- destination lines in all
  acked : Nat             -- destination lines acknowledged
  bar : Nat               -- scratchpad offset, plus 1, of the sender's barrier
  gone : Bool             -- status seen so far (R289)
  err : Bool
  cancel : Bool
  cause : Nat
  flags : BitVec 5
  deriving DecidableEq, Repr

/-- What is left to do of a resumption: ranges to prick and transfers to launch; `back`: both are done, and the parked
flits are offered to the core (R413). -/
structure Returning where
  ranges : List (Bool × PrickReq)
  transfers : List (Nat × ShEntry)
  back : Bool
  deriving DecidableEq, Repr

/-- A team resident on a core. -/
structure Team where
  tag : Nat
  lnum : W32
  rcb : Nat              -- physical address of its region's RCB
  threads : Nat          -- T, W, N, S as declared (R54)
  waves : Nat
  uniforms : Nat
  shuttle : Nat
  nokacc : Bool
  half : Nat             -- its uniform half (R90)
  slots : List Nat       -- its barrel-thread slots (R54)
  runs : List (Nat × Nat)     -- first row and count of each run (R150)
  accRow : Option Nat    -- first accumulator row
  frames : List (Nat × Nat)   -- frame number and first row, of the frames it still holds
  entry : W64
  desc : Nat             -- physical address of its descriptor
  mode0 : BitVec 14
  segs : Store (BitVec 128)
  done : W64             -- R399 DONE
  waitch : Bool
  records : List Rec
  batches : List (List (Nat × Nat))   -- sealed batches of contexts that have quit (R282)
  depth : Nat
  children : Nat         -- child launches not complete (R409)
  acc : Store AccStat    -- accumulators 0 to 3
  inq : Store (Option InQueue)
  ring : Option Ring
  bins : Store (Option Bin)
  routes : Store (W64 × Nat)   -- FIRST and N of each key route (R335)
  decl : BitVec 6        -- banks with a declared format (R399)
  fmts : BitVec 24
  merge : Bool           -- MERGE of its descriptor (R406)
  started : Bool         -- its contexts have started (R401)
  exiting : Bool         -- its last context has ended (R408)
  held : Bool            -- stopped for pre-emption, or resuming (R411, R413)
  returning : Option Returning   -- a resumption in progress
  deriving DecidableEq, Repr

/-- An extent of a command's footprint (R281): virtual bytes, rows of one core, or the rows that a multicast
names. -/
inductive Extent where
  | glob (lo hi : Int)
  | rows (core : Nat) (lo hi : Int)
  | multi (rect : Nat × Nat × Nat × Nat) (mask : Nat) (lo hi : Int)
  | nothing
  deriving DecidableEq, Repr

/-! The matrix pair (11_matrix.md). -/

/-- A command of the pair (R300 to R307): its kind, the images its descriptors held at issue, and what acceptance
fixed. -/
structure MatCmd where
  kind : Nat               -- 0 MMA, 1 MDRAIN s32, 2 MDRAIN f32, 3 MDRAIN kacc
  tset : Nat
  clr : Bool
  unf : Bool
  bi8 : Bool
  a : List W64             -- weights, or OUT
  b : List W64             -- activations
  va : Nat × Nat           -- virtual addresses of their bases, where global
  er : Int                 -- Er or Erd
  mask : W32               -- columns of kacc
  acc : Nat                -- accumulator of kacc
  level : Nat              -- served level of nested planes
  team : Nat
  core : Nat               -- issuing core
  pages : List (Bool × Nat × Nat)   -- pages confirmed: fine, number, physical address
  reads : List Extent
  writes : List Extent
  order : Nat              -- Shuttle launches of the core before it
  step : Nat               -- K-blocks performed
  cycles : Nat             -- cycles worked on the next one
  deriving DecidableEq, Repr

/-- A formed pair's state, held in the leader's core (R293, R303, R306). -/
structure MatPair where
  tiles : Store (BitVec 48)    -- t0 at 0 to 1023, t1 at 1024 to 2047
  ter : Int × Int
  sat : Bool
  err : Bool
  poison : Bool × Bool
  flags : BitVec 5
  queue : List MatCmd
  stopping : Bool              -- by a pre-emption under way (R310)
  deriving DecidableEq, Repr

/-- A half array's holder (R293): the team, and on the leader the driver (R294). -/
structure HalfHold where
  team : Nat
  driver : Option Seat
  deriving DecidableEq, Repr

/-! Rays and raster (13_rays.md, 14_raster.md). -/

/-- The claim of a queue (R356): the team and its address space. -/
structure Claim where
  team : Nat
  asn : BitVec 12
  deriving DecidableEq, Repr

/-- An item of the ray or hit queue: its 128-byte or 64-byte payload. -/
abbrev Item := List Byte

/-- The Hoop window of a core (R381, R382). -/
structure Hoop where
  claimant : Option Nat              -- tag of the team
  state : W32
  slots : List (List Byte)           -- primitive records, oldest first; a sub-pass is open while there are any
  tiles : List Nat                   -- first rows of the tile table
  deferred : Option Nat              -- a pre-emption that waits for the sub-pass becomes urgent at this cycle (R386)
  deriving DecidableEq, Repr

/-! Events under way. -/

/-- An event that the machine itself has caused and some agent of it will perform: a flit on its way, a page to
fill, a team to place. Each is performed by the meaning of the row of spec/opcode_table.json of its name. (A type of
its own, because Lean's compiler cannot build the later constructors of so large a type as `Instr`.) -/
inductive Ev where
  | transferStart (core entry : Nat)
  | ack (h : Hdr) (entry gen line bytes : Nat) (how : LineEnd)
  | copy (h : Hdr) (l : CopyLine)
  | red (h : Hdr) (l : RedLine)
  | qdata (h : Hdr) (lnum : W32) (n : BitVec 3) (w64 : Bool) (elems : List W64)
  | credit (h : Hdr) (n : BitVec 3) (amount : Nat)
  | msg (h : Hdr) (lnum : W32) (len : Nat) (payload : List Byte)
  | key (h : Hdr) (lnum : W32) (bin : BitVec 3) (slot : Nat) (w64 : Bool) (v : W64)
  | task (h : Hdr) (r : TaskRec)
  | ret (h : Hdr) (token value : W64) (w64 : Bool)
  | ray (h : Hdr) (payload : List Byte)
  | hit (h : Hdr) (payload : List Byte)
  | lookup (cluster : Nat) (asn : BitVec 12) (id : W32) (c : CtxId)
  | pageIn (cluster : Nat) (asn : BitVec 12) (id : W32)
  | replicate (cluster : Nat) (asn : BitVec 12) (id : W32)
  | heat (cluster : Nat) (asn : BitVec 12) (id : W32) (count : Nat)
  | kBlockStep (leader : Nat)
  | drainComplete (leader : Nat)
  | roundNotice (h : Hdr) (core counter : Nat) (value : W64)
  | refresh (core entry : Nat)
  | prickOwner (core : Nat) (p : PrickReq)
  | prickReplica (core : Nat) (p : PrickReq)
  | fill (j : PageJob)
  | firstTouch (j : PageJob)
  | demotion (site : Nat)
  | drain (pa : Nat) (fine : Bool)
  | tier1Demotion (site leaf : Nat) (fine : Bool)
  | tierRetry (site tier : Nat)
  | reinject (cluster index : Nat)
  | nack (h : Hdr) (ty : FlitTy) (seq : BitVec 12)
  | interrupt (core : Nat)
  | placement (core : Nat)
  | teamStart (core : Nat) (tag : BitVec 16)
  | exit (core : Nat) (tag : BitVec 16)
  | childCompletion (core : Nat) (tag : BitVec 16)
  | hoopUrgent (core : Nat)
  | preemption (core : Nat) (tag : BitVec 16) (urgent : Bool)
  | resumption (core : Nat) (tag : BitVec 16)
  | ctrl (cluster : Nat) (cmd : CtrlCmd)
  | cresp (h : Hdr) (payload : List Byte)
  | command (s : CmdSlot) (code : Nat) (op0 op1 op2 : W64)
  | stepLimit (c : CtxId)
  | frameTimeout (who : Asker)
  | swapOut (core frame : Nat)
  | promotion (core : Nat)
  | pollRetry (c : CtxId)
  | recoveryExpiry (core : Nat) (src : GlobalId) (vc : BitVec 3)
  | mreq (h : Hdr) (r : MemReq)
  | mresp (h : Hdr) (c : CtxId) (tok : Nat) (data : List Byte)
  | forwarded (h : Hdr) (core : Nat) (r : MemReq)
  | walk (cluster : Nat) (q : MissReq)
  | missRetry (cluster : Nat) (q : MissReq)
  | picotExpiry (cluster index : Nat)
  | powerStateReached
  | fwctlComplete
  | tokenExpiry
  | epoch
  | heatHalving (site : Nat)
  | heatReport (core : Nat)
  | idleGate (cluster : Nat)
  | recordArm (cluster s : Nat)
  | linkGrid (cluster : Nat)
  deriving DecidableEq, Repr

/-- A flit that its sender still holds (R322): its channel, its destination and when it is dropped. -/
structure Held where
  dst : GlobalId
  vc : Nat
  until_ : Nat
  ev : Ev
  deriving DecidableEq, Repr

/-- An entry of a recovery table (R322): the failed flit, and whether its failure is final already. -/
structure Recov where
  src : GlobalId
  vc : Nat
  seq : BitVec 12
  until_ : Nat
  ev : Ev
  final : Bool
  deriving DecidableEq, Repr

/-! Cores. -/

/-- A pricking entry (R169) and the copy round of a replica's rows (R251). -/
structure Prick where
  word : BitVec 128
  copy : W64
  arrivals : W64         -- rays that arrived for a pinned treelet (R357)
  watch : Nat            -- the WATCH register of a replica's counter (R250)
  pages : List Nat       -- the tier-0 frames and sub-frames that it holds (R217 HELD)
  deriving DecidableEq, Repr

/-- An entry of a placement queue (R405, R406). -/
structure Placement where
  desc : Nat             -- physical address of its descriptor
  words : List W64       -- the descriptor's words
  recs : List Rec        -- in arrival order
  rcb : Nat
  deriving DecidableEq, Repr

/-- A pre-empted team with all that its save image holds (R412, R435). -/
structure Preempted where
  team : Team
  image : Nat            -- physical address of its save image
  slots : Nat            -- save slots that the image fills
  since : Nat
  ctxs : List (Seat × Ctx)      -- park limits as the cycles left
  uni : List W32
  sh : List W64
  shCause : List Nat
  md : List W64
  mdCause : List Nat
  transfers : List (Nat × ShEntry)          -- queued transfers by entry
  rows : List (Nat × List Byte × W32 × List Bool)   -- rows, their bytes, tag words and full/empty bits
  ranges : List (Bool × PrickReq)           -- pricked ranges; true for a replica
  half : Option HalfHold
  pair : Option MatPair                     -- of the leader's team
  partner : Option Nat                      -- tag of the other team of the pair, on the other core
  paired : Bool                             -- its image has the pair's state (R310, R435)
  window : Option Hoop                      -- the window, saved with a sub-pass open (R386)
  deriving DecidableEq, Repr

/-- A core. -/
structure Core where
  ctxs : Store Ctx                     -- barrel slots 0 to 15, wave frames at 16 to 47
  teams : List Team                    -- at most two (R54)
  uni : Store W32                      -- half h at 512 h (R90)
  uniDue : List UniWrite               -- uniform writes that have not landed, first to land first (R91)
  sh : Store W64                       -- word w of sh s at 8 s + w (R267)
  shCause : Store Nat                  -- cause latches (R285)
  md : Store W64                       -- word w of md m at 8 m + w (R296)
  mdCause : Store Nat
  rows : Store Byte                    -- scratchpad bytes (R146)
  fe : Store Bool                      -- full/empty bit of word w (R146)
  tags : Store W32                     -- tag words (R155); an unlisted row has its class of reset
  pricks : Store Prick                 -- R169
  owned : Store Nat                    -- scratchpad offset, plus 1, of each line pricked as owner (R248)
  watch : Store (BitVec 128)           -- R251
  bfmt : Store W64                     -- R165
  pgsel : Store W64                    -- R196
  cctl : W64
  tvec : W64
  tcmp : W64
  itgt : W64
  waiters : List Waiter
  shuttle : Store (Option ShEntry)     -- 32 entries; none is FREE with generation 0 launches so far
  shOrder : Nat
  frozen : Bool                        -- its Shuttle and its pair are frozen by a debug halt (R282, R310, R456)
  half : Option HalfHold               -- the half array's holder (R293)
  pair : Option MatPair                -- in the leader of a formed pair
  rayq : List Item
  hitq : List Item
  rayClaim : Option Claim
  hitClaim : Option Claim
  routes : List Route
  hoop : Hoop
  taskq : List TaskRec                 -- R336
  placements : List Placement
  tids : Nat                           -- the tid counter (R156)
  preempted : List Preempted           -- longest first
  leaving : List Team                  -- teams that have only to signal their completion (R409)
  nv : Nat                             -- power window counts (R19)
  nm : Nat
  unitCnt : Store W64                  -- unit counters 0 to 3 (R466)
  lsCache : Cache                      -- load-store path cache (R245)
  smpCache : Cache
  tileCache : Cache                    -- in the leader
  cclause : Cache                      -- clause cache (R33)
  rotation : List Nat                  -- the turns left of the rotation (R59)
  rotMode : Nat                        -- 0 compact; 1 strict; 2 waiting for the first strict turn (R60)
  port : Option Nat                    -- frame of the wave that holds the wave port (R28)
  ages : Store Nat                     -- clk at which each active wave last gave up the wave port, by frame (R69)
  elig : Store (Option Nat)            -- clk since which an active wave has had an eligible slot, by frame (R69)
  readyq : List (Nat × Nat)            -- ready pending waves, first to be promoted first: clk at which each became ready, frame (R68)
  seqOut : Store (BitVec 12)           -- next SEQ by channel (R319)
  held : List Held                     -- flits sent and kept for a resend (R322)
  recov : List Recov                   -- recovery table (R322)
  deriving DecidableEq, Repr

/-! Clusters. -/

/-- A TLB entry (R199), most recently used first in its set. -/
structure Tlb where
  asn : BitVec 12
  page : Nat             -- va >> 21, or va >> 10 for a sub-page
  fine : Bool
  frame : Nat            -- physical address of the frame
  rd : Bool
  wr : Bool
  ex : Bool
  dty : Bool
  deriving DecidableEq, Repr

/-- An entry of the Picot filter (R236). -/
structure Picot where
  rcb : Nat
  page : Nat             -- virtual address of the page
  fine : Bool
  kind : Nat
  level : Nat
  plane : Nat
  core : Nat
  count : Nat
  since : Nat
  deriving DecidableEq, Repr

/-- An entry of a treelet directory shard (R359). -/
structure Treelet where
  asn : BitVec 12
  id : W32
  state : Nat            -- 1 COLD; 2 FILLING; 3 ACTIVE
  to_ : Members
  heat : BitVec 16
  hot : BitVec 16
  first : Nat
  ncnt : Nat
  nodes : Nat            -- virtual address of node 0
  deriving DecidableEq, Repr

/-- An offer of rows for a replica (R363): the counter by its virtual address. -/
structure Offer where
  core : Nat
  asn : BitVec 12
  id : W32
  first : Nat
  counter : Nat
  team : Nat
  used : Bool
  deriving DecidableEq, Repr

/-- A cluster. -/
structure Cluster where
  hist : BitVec 5                      -- CL_FLAGS.HIST (R127)
  split : Bool                         -- CL_AMODE.SPLIT (R211)
  ovf : W64                            -- CL_OVF (R328)
  ovfParked : W32                      -- CL_OVFS.PARKED
  parked : List (Nat × Hdr × Parkable) -- flits in the overflow area, oldest first, each with its slot (R327)
  ovfRaised : Bool                     -- overflow-full interrupt raised, USED not yet below half (R329)
  irq : W64                            -- CL_IRQ (R425)
  irqe : W64
  lgrid : W64                          -- CL_LGRID (R468)
  gridSkip : W32                       -- link-grid snapshots skipped since the last one (R468)
  links : Store Nat                    -- its router's counts: 16 × link + 2 × VC flits sent, + 1 stall cycles (R468)
  tlb : List Tlb
  missq : List MissReq                 -- R200
  constCache : Cache
  iCache : Cache                       -- cluster instruction cache (R33)
  picots : List Picot
  picotDrops : W64
  treelets : List Treelet
  offers : List Offer
  lookups : List (BitVec 12 × W32 × CtxId)   -- pending lookups
  fwd : Store (BitVec 96)              -- forward directory by line (R246)
  watchers : List (Nat × List Nat)     -- counter's physical address and its watching cores (R251)
  launchRec : Store (List W64)         -- launch records 0 to 7 (R467)
  unitCnt : Store W64                  -- unit counters 4 to 7 (R466)
  gated : Bool                         -- idle-gated (R479)
  lastFlit : Nat                       -- clk at which a flit last arrived
  deriving DecidableEq, Repr

/-! Sites. -/

/-- A demotion of tier 1 between its steps 3 and 7: the page's leaf entry, the page and its destination (R226). -/
structure Closing where
  leaf : Nat
  src : Nat
  dst : Nat
  fine : Bool
  deriving DecidableEq, Repr

/-- Who is frame-starved, since when, and the pages that its access is bound to (R222, R228). -/
structure Starving where
  who : Asker
  since : Nat
  bound : List Nat
  full : Bool            -- for want of MEM, not of a frame (15_work.md R395)
  deriving DecidableEq, Repr

/-- A die. Its frame records lie in physical memory (R217). -/
structure Site where
  topoMesh : BitVec 8                  -- MESH_MX, MESH_MY, MOD_X, MOD_Y (R15)
  wm : Store W64                       -- TIERn_WM of tiers 0 to 2 (R220)
  carved : Store (List Nat)            -- sub-frames in use of each carved tier-0 frame (R216)
  subs : Store (BitVec 128)            -- records of the sub-frames in use, by address / 1,024 (R216)
  used1 : Store (Option Nat)           -- tier-1 frames in use, with the leaf entry of the parked page or 0
  carved1 : Store (List Nat)
  leaf1 : Store Nat                    -- leaf entries of the pages parked in tier-1 sub-frames, by address / 1,024
  vacating : List Nat                  -- tier-0 pages that a demotion gives up for their clean copies (R226 step 6)
  closing1 : List Closing              -- demotions of tier 1 that are on their way (R226)
  used2 : List Nat                     -- tier-2 frames in use of a port, with its first site
  carved2 : Store (List Nat)
  tables : Store (Nat × Nat)           -- TABLE frames: 1 tables, 2 fine tables; how many are taken (R217)
  reserve : List Nat                   -- free frames of the reserve (R228)
  granted : Option Asker               -- who holds the grant of the reserve (R228)
  hand : Nat × Nat                     -- clock hands of tiers 0 and 1, in units of 1 KiB (R222)
  rounds : Bool × Bool                 -- demotion rounds of tiers 0 and 1 that go on (R220)
  starving : List Starving             -- oldest first (R228)
  deriving DecidableEq, Repr

/-! The module. -/

/-- The flash and a push under MG_FWCTL (R476, R477). -/
structure Firmware where
  flash : Store Byte                   -- the image in flash
  flashLen : Nat
  valid : Bool                         -- it verifies
  window : Store Byte                  -- staging window
  staged : Store Byte                  -- staging store
  stagedLen : Nat
  begun : Option Nat                   -- L of the last BEGIN
  fwst : BitVec 4
  busy : Bool
  result : BitVec 4                    -- of the command in progress
  reboot : Bool                        -- the command in progress ends with a reset
  deriving DecidableEq, Repr

/-- What the boot ROM derives at a boot (R475, R476): the identity key pair, the measurement of the image that runs, the
alias key pair and its certificate. -/
structure Identity where
  idPublic : List Byte
  idPrivate : List Byte
  measured : List Byte
  aliasPublic : List Byte
  aliasPrivate : List Byte
  cert : List Byte
  deriving DecidableEq, Repr

/-- The active debug token (R481). -/
structure Token where
  asns : List (BitVec 12)
  expiry : W64
  deriving DecidableEq, Repr

/-- The evidence of an attestation (R478), but for its byte layout (log 40). -/
structure Evidence where
  nonce : List Byte
  measurement : List Byte
  life : BitVec 3
  topo : List W64
  retired : List Nat
  fault : W64
  token : Bool
  cert : List Byte
  signature : List Byte
  deriving DecidableEq, Repr

/-- A page that a first touch has charged to a region, by the root of its tree: what removing it credits (15_work.md R394;
log 110). -/
structure Touched where
  root : Nat
  va : Nat
  fine : Bool
  region : Nat
  deriving DecidableEq, Repr

/-- The host link, management and power state (19_system.md). -/
structure System where
  up : Bool                            -- MG_STATUS.READY (R473)
  fwwait : Bool                        -- FWWAIT
  lifeErr : Bool                       -- LIFEERR
  linkFail : Bool                      -- LINKFAIL
  life : BitVec 3                      -- the fuses' LIFE in effect since the last reset (R482)
  fuse : BitVec 3                      -- the lifecycle fuses
  ownerKey : List Byte                 -- fused owner-key hash (R481)
  secret : BitVec 256                  -- fused device secret (R475)
  vendorKey : List Byte                -- fused vendor-key hash (R476)
  minVersion : Nat                     -- fused minimum version (R476)
  identity : Option Identity           -- derived at the last boot
  retired : List Nat                   -- retired cores (R22)
  retiredMap : List Nat                -- the non-volatile map
  power : Nat                          -- 0 run, 2 retention, 3 off (R479)
  wanted : Option Nat                  -- a requested state not yet reached
  supRcb : Nat                         -- MG_SUPRCB (R392)
  fwLaunch : W64                       -- MG_FWLAUNCH (R407)
  regions : List Nat                   -- RCBs of open regions
  touched : List Touched               -- pages charged to MEM (R394)
  cmdHost : List W64                   -- host's command slot: COMMAND, OP0 to OP2, STATUS (R472)
  cmdSup : List W64                    -- supervisor's slot
  ring : List TaskRec                  -- host message ring (R470)
  doorbell : List (GlobalId × TaskRec) -- host messages held until READY (R486)
  hostSeq : Store (BitVec 12)          -- the host's next SEQ by channel (R319)
  hostHeld : List Held                 -- flits of the host kept for a resend (R322)
  hostRecov : List Recov               -- the host's recovery table
  hostWait : List TaskRec              -- records that wait for room in the host message ring, oldest first (R470)
  msix : List Nat                      -- MSI-X vectors raised, newest first (R470)
  msixTable : Store Byte               -- the MSI-X table, 16 bytes a vector (R470)
  msixPend : BitVec 8                  -- its pending bits
  fw : Firmware
  token : Option Token
  nonce : Option (List Byte)           -- issued and not yet submitted (R483)
  tstat : Nat                          -- MG_TOKEN.TSTAT
  attest : Store Byte                  -- attestation buffer
  evidence : Option Evidence
  uncorr : W32                         -- MG_ERRCNT (R485)
  corr : W32
  fault : W64                          -- MG_FAULT (R23)
  cxl : List (Nat × Nat × Nat)         -- enabled decoders: base, size, response time (R474)
  dirSel : W64                         -- directory window's SELECT (R472)
  dirLatch : BitVec 256                -- the entry it latched
  tchCmd : Store Byte                  -- Tchios command slot (R471)
  tchReply : List Byte                 -- its CRESP payload
  links : List Nat                     -- failed links (R322)
  deriving DecidableEq, Repr

/-- What an input of a run says happens next; the model's own (log 3). -/
inductive Pick where
  | go                                 -- the context that holds the turn takes it
  | turn (c : CtxId)
  | event (i : Instr)
  | fire (n : Nat)
  | elapse (n : Nat)
  deriving DecidableEq, Repr

/-- The state of a module. -/
structure State where
  agenda : List Pick                   -- the model's own (log 3)
  pending : List Ev                    -- events caused and not yet happened, oldest first (log 3)
  timers : List (Nat × Ev)             -- events due at a cycle (log 3)
  ticks : Nat                          -- steps taken; argument of the free values (log 8)
  clk : W64                            -- R39, R396
  me : Ctx                             -- the context that holds the turn
  seat : Option Seat                   -- its place; none: a context of no place
  here : Core                          -- its core
  hereId : Nat                         -- local identifier of its core
  cores : Store Core                   -- every other core
  clusters : Store Cluster
  sites : Store Site
  mem : Memory                         -- physical memory (R193)
  homes : Store Cache                  -- lines of the home slices, by die × 280 + index (R239)
  sram : Store Byte                    -- their SRAM (R214), 512 KiB each
  poison : List Nat                    -- poisoned 32-byte atoms, by number (R243)
  sys : System
  deriving DecidableEq, Repr

/-! Reset. -/

def PcSlot.reset : PcSlot :=
  { live := false, pc := 0, mask := 0, depth := 0, waiting := false, jpc := 0, rstk := [], cclass := 0, ccount := 0,
    refetch := false, skip := (0, []), buf := none }

def Prick.reset : Prick := { word := 0, copy := 0, arrivals := 0, watch := 0, pages := [] }

def Progress.none : Progress :=
  { active := false, done := 0, old := [], tok := Option.none, since := 0, reqs := [], met := [], violated := false,
    kind := {}, backoff := 16, nextCheck := 0, missed := [], pops := Option.none }

/-- A context with nothing in it; MODE.RM is 001 (R121). -/
def Ctx.blank : Ctx :=
  { present := false, kind := .thread, place := .active, team := 0, sup := false,
    slots := ({ PcSlot.reset with live := true, mask := 1 }, PcSlot.reset), cur := 0, ran := 0, dsp := 0, stacked := [], released := 0,
    x := [], v := [], p := [], g := [], ls := (0, 0), le := (0, 0), lc := (0, 0), mode := 0x100,
    pend := [], tok := 0, streams := [], qi := none, qo := none, latch := [], openBatch := [], sealed := [],
    stall := .issued, stall2 := .issued, parked := none, yielded := false, prog := .none, prog2 := .none, moved := none, moved2 := none,
    lastIssue := 0, asked := none, handler := false,
    kept := none, trapping := none, tpc0 := 0, tpc1 := 0, tcause := 0, taddr := 0, tmask := 0, tspare := 0, starved := none,
    grant := false, halted := none, bkhalt := false, stepping := none, stepWord := none, bp := [], wp := [],
    cbctl := 0, cnt := [], lav := 0, cbst := 0, mkval := 0, mkclk := 0 }

def Hoop.reset : Hoop :=
  { claimant := none, state := 0, slots := [], tiles := [], deferred := none }

def Core.reset : Core :=
  { ctxs := [], teams := [], uni := [], uniDue := [], sh := [], shCause := [], md := [], mdCause := [], rows := [], fe := [],
    tags := [], pricks := [], owned := [], watch := [], bfmt := [], pgsel := [], cctl := 0, tvec := 0, tcmp := 0, itgt := 0,
    waiters := [], shuttle := [], shOrder := 0, frozen := false, half := none, pair := none, rayq := [], hitq := [],
    rayClaim := none, hitClaim := none, routes := [], hoop := .reset, taskq := [], placements := [], tids := 1,
    preempted := [], leaving := [], nv := 0, nm := 0, unitCnt := [], lsCache := [], smpCache := [], tileCache := [],
    cclause := [], rotation := [], rotMode := 0, port := none, ages := [], elig := [], readyq := [], seqOut := [], held := [], recov := [] }

/-- SPLIT is 1 at reset (R211). -/
def Cluster.reset : Cluster :=
  { hist := 0, split := true, ovf := 0, ovfParked := 0, parked := [], ovfRaised := false, irq := 0, irqe := 0, lgrid := 0,
    gridSkip := 0, links := [], tlb := [], missq := [], constCache := [], iCache := [], picots := [], picotDrops := 0, treelets := [],
    offers := [], lookups := [], fwd := [], watchers := [], launchRec := [], unitCnt := [], gated := false,
    lastFlit := 0 }

/-- Watermarks at their reset values (R220); the reserve is the 64 frames below the frame-table frame
(DESIGN CHOICE, log 6). -/
def Site.reset : Site :=
  { topoMesh := 0, wm := [(0, 0x0000080000000400), (1, 0x0000100000000800)],
    carved := [], subs := [], used1 := [], carved1 := [], leaf1 := [], vacating := [], closing1 := [], used2 := [], carved2 := [], tables := [],
    reserve := (List.range 64).map (49087 + ·), granted := none, hand := (0, 0), rounds := (false, false), starving := [] }

/-- The flash holds an image that verifies (DESIGN CHOICE, log 41). -/
def Firmware.reset : Firmware :=
  { flash := [], flashLen := 0, valid := true, window := [], staged := [], stagedLen := 0, begun := none, fwst := 0, busy := false,
    result := 0, reboot := false }

/-- Every entry of the MSI-X table is masked (PRESUMED, log 117); the fuses' values are DESIGN CHOICES (log 7). -/
def System.reset : System :=
  { up := false, fwwait := false, lifeErr := false, linkFail := false, life := 0, fuse := 0,
    ownerKey := List.replicate 64 0, secret := 0, vendorKey := List.replicate 64 0, minVersion := 0, identity := none,
    retired := [], retiredMap := [], power := 0, wanted := none, supRcb := 0,
    fwLaunch := 0, regions := [], touched := [], cmdHost := [], cmdSup := [], ring := [], doorbell := [], hostSeq := [], hostHeld := [], hostRecov := [], hostWait := [],
    msix := [], msixTable := (List.range 8).map fun n => (16 * n + 12, 1), msixPend := 0,
    fw := .reset, token := none, nonce := none, tstat := 0, attest := [], evidence := none, uncorr := 0, corr := 0,
    fault := 0, cxl := [], dirSel := 0, dirLatch := 0, tchCmd := [], tchReply := [], links := [] }

/-- The machine right after reset: no team, no region, nothing listed in memory. -/
def State.reset : State :=
  { agenda := [], pending := [], timers := [], ticks := 0, clk := 0, me := .blank, seat := none, here := .reset,
    hereId := 0, cores := [], clusters := [], sites := [], mem := [], homes := [], sram := [], poison := [], sys := .reset }

end Sys2Proof.Machine
end

