-- ==== Sys2Proof/Machine/Base.lean ====
section
/-! DEFINITION. The monad of the meanings, and the accessors that give every context, core, cluster and site one
home: the turn's context and core live in `me` and `here`, every other in its store. -/

namespace Sys2Proof.Machine

/-- How an instruction leaves its meaning early. What it did before stays done. -/
inductive Exit where
  /-- it traps -/
  | trap (t : Trap)
  /-- it waits: nothing of it counts as issued, and it is tried again -/
  | hold (r : Stall) (k : WaitKind)
  /-- the context goes on elsewhere or is gone: no advance of the pc -/
  | gone
  deriving DecidableEq, Repr

/-- Meanings: state passing with early exits. -/
abbrev M := EStateM Exit State

/-- The state that a computation leaves, whether it ran to its end or left early. -/
def M.toOutcome (m : M Unit) (s : State) : Host.Outcome State Fault Refusal :=
  match m.run s with
  | .ok _ t => .next t
  | .error _ t => .next t

/-! Traps by name (R418). -/

def trapWith {α : Type} (cause : Nat) (detail : Nat := 0) (addr : W64 := 0) : M α :=
  throw (.trap { cause := cause, detail := detail, addr := addr })

def illegalInstruction {α : Type} : M α := trapWith 1
def illegalOperand {α : Type} : M α := trapWith 2
def divergeTrap {α : Type} : M α := trapWith 5
def misalign {α : Type} (a : W64) : M α := trapWith 7 0 a
def apertureFault {α : Type} (a : W64) : M α := trapWith 8 0 a

/-- The instruction waits with a stall reason (R72). -/
def hold {α : Type} (r : Stall) (k : WaitKind := {}) : M α := throw (.hold r k)

/-- Every wait of a computation is one during which its context issues nothing else. -/
def alone {α : Type} (m : M α) : M α := fun s =>
  match m s with
  | .error (.hold r k) t => .error (.hold r { k with alone := true }) t
  | o => o

/-- A check of operands: ILLEGAL-OPERAND when it fails. -/
def needOperand (ok : Bool) : M Unit := if ok then pure () else illegalOperand

/-! The turn's context and core. -/

def getMe : M Ctx := do return (← get).me
def setMe (c : Ctx) : M Unit := modify fun s => { s with me := c }
def modMe (f : Ctx → Ctx) : M Unit := modify fun s => { s with me := f s.me }
def getHere : M Core := do return (← get).here
def modHere (f : Core → Core) : M Unit := modify fun s => { s with here := f s.here }

/-- The place of a context among its core's contexts: slots 0 to 15, frames from 16. -/
def seatIndex : Seat → Nat
  | .slot n => n
  | .frame n => 16 + n

def seatOf (k : Nat) : Seat := if k < 16 then .slot k else .frame (k - 16)

/-- A core as a whole, with the turn's context in its place. -/
def State.core (s : State) (id : Nat) : Core :=
  if id = s.hereId then
    match s.seat with
    | some q => { s.here with ctxs := Store.set .blank s.here.ctxs (seatIndex q) s.me }
    | none => s.here
  else Store.get .reset s.cores id

/-- A core put back; the turn's context goes back to the turn. -/
def State.putCore (s : State) (id : Nat) (c : Core) : State :=
  if id = s.hereId then
    match s.seat with
    | some q => { s with here := { c with ctxs := Store.set .blank c.ctxs (seatIndex q) .blank },
                         me := Store.get .blank c.ctxs (seatIndex q) }
    | none => { s with here := c }
  else { s with cores := Store.set .reset s.cores id c }

def getCore (id : Nat) : M Core := do return (← get).core id
def modCore (id : Nat) (f : Core → Core) : M Unit := modify fun s => s.putCore id (f (s.core id))

def getCtx (c : CtxId) : M Ctx := do return Store.get .blank (← getCore c.core).ctxs (seatIndex c.seat)
def modCtx (c : CtxId) (f : Ctx → Ctx) : M Unit :=
  modCore c.core fun k =>
    { k with ctxs := Store.set .blank k.ctxs (seatIndex c.seat) (f (Store.get .blank k.ctxs (seatIndex c.seat))) }

/-- Hands the turn to another context. -/
def State.switchTo (s : State) (c : CtxId) : State :=
  let s1 : State := match s.seat with
    | some q => { s with here := { s.here with ctxs := Store.set .blank s.here.ctxs (seatIndex q) s.me },
                         me := .blank, seat := none }
    | none => { s with me := .blank }
  let s2 : State := if c.core = s1.hereId then s1 else
    let cores1 := Store.set .reset s1.cores s1.hereId s1.here
    { s1 with here := Store.get .reset cores1 c.core, cores := Store.set .reset cores1 c.core .reset,
              hereId := c.core }
  { s2 with me := Store.get .blank s2.here.ctxs (seatIndex c.seat), seat := some c.seat,
            here := { s2.here with ctxs := Store.set .blank s2.here.ctxs (seatIndex c.seat) .blank } }

/-- Runs a computation as another context, and hands the turn back. -/
def asCtx {α : Type} (c : CtxId) (m : M α) : M α := fun s =>
  if s.seat = some c.seat ∧ s.hereId = c.core then m s else
  let back (t : State) : State := match s.seat with
    | some q => t.switchTo ⟨s.hereId, q⟩
    | none => t
  match m (s.switchTo c) with
  | .ok a t => .ok a (back t)
  | .error e t => .error e (back t)

/-- The turn's identity; a context of no place counts as slot 0. -/
def myId : M CtxId := do
  let s ← get
  return ⟨s.hereId, s.seat.getD (.slot 0)⟩

/-! Clusters and sites. -/

/-- The cluster of a core (00_scope.md R6): its number cy × 42 + cx. -/
def clusterOf (core : Nat) : Nat := core / 48

/-- The site of a cluster (R13, R193): sy × 3 + sx. -/
def siteOfCluster (cl : Nat) : Nat := (cl / 42 / 20) * 3 + (cl % 42) / 14

def siteOfCore (core : Nat) : Nat := siteOfCluster (clusterOf core)

def getCluster (n : Nat) : M Cluster := do return Store.get .reset (← get).clusters n
def modCluster (n : Nat) (f : Cluster → Cluster) : M Unit :=
  modify fun s => { s with clusters := Store.set .reset s.clusters n (f (Store.get .reset s.clusters n)) }

def getSite (n : Nat) : M Site := do return Store.get .reset (← get).sites n
def modSite (n : Nat) (f : Site → Site) : M Unit :=
  modify fun s => { s with sites := Store.set .reset s.sites n (f (Store.get .reset s.sites n)) }

def modSys (f : System → System) : M Unit := modify fun s => { s with sys := f s.sys }

/-- The turn's cluster. -/
def myCluster : M Nat := do return clusterOf (← get).hereId

/-! What has been caused and not yet happened. -/

/-- An event that some agent will perform. -/
def later (i : Ev) : M Unit := modify fun s => { s with pending := s.pending ++ [i] }

/-- An event that some agent will perform, unless the same event already waits. -/
def laterOnce (i : Ev) : M Unit :=
  modify fun s => if s.pending.contains i then s else { s with pending := s.pending ++ [i] }

/-- An event at a cycle. -/
def atCycle (n : Nat) (i : Ev) : M Unit := modify fun s => { s with timers := s.timers ++ [(n, i)] }

/-- The cycle count (R39). -/
def now : M Nat := do return (← get).clk.toNat

/-! Teams. -/

/-- The team with a tag on a core. -/
def Core.team (c : Core) (tag : Nat) : Option Team := c.teams.find? (·.tag = tag)

/-- A team put back. -/
def Core.putTeam (c : Core) (t : Team) : Core :=
  { c with teams := c.teams.map fun u => if u.tag = t.tag then t else u }

def modTeam (core tag : Nat) (f : Team → Team) : M Unit :=
  modCore core fun c => match c.team tag with
    | some t => c.putTeam (f t)
    | none => c

/-- The team of the turn's context. -/
def State.myTeam (s : State) : Option Team := s.here.team s.me.team

def getTeam : M (Option Team) := do return (← get).myTeam
def modMyTeam (f : Team → Team) : M Unit := do
  let tag := (← getMe).team
  modHere fun c => match c.team tag with
    | some t => c.putTeam (f t)
    | none => c

/-! Existence (R86, R15, R17). -/

/-- The SITE_TOPO fields that describe the mesh: MESH_MX, MESH_MY, MOD_X, MOD_Y (R15). -/
def State.topo (s : State) : BitVec 8 := (Store.get Site.reset s.sites 0).topoMesh

/-- This module's number, MOD_Y × 4 + MOD_X (R17). -/
def State.moduleNo (s : State) : Nat := (s.topo.extractLsb' 0 2).toNat * 4 + (s.topo.extractLsb' 2 2).toNat

/-- The core that a 64-bit target names, if it exists. -/
def State.target (s : State) (a : W64) : Option GlobalId :=
  let mx := (s.topo.extractLsb' 6 2).toNat
  let my := (s.topo.extractLsb' 4 2).toNat
  let n := (a.extractLsb' 18 4).toNat
  if a.toNat < 2 ^ 22 ∧ n % 4 ≤ mx ∧ n / 4 ≤ my ∧ (a.extractLsb' 0 18).toNat < Config.coreCount then
    some (a.setWidth 22)
  else none

/-- The local identifier of a core of this module. -/
def State.localCore (s : State) (g : GlobalId) : Option Nat :=
  if (g.extractLsb' 18 4).toNat = s.moduleNo ∧ (g.extractLsb' 0 18).toNat < Config.coreCount then
    some (g.extractLsb' 0 18).toNat
  else none

/-- The global identifier of a core of this module (R17). -/
def State.globalId (s : State) (core : Nat) : GlobalId := BitVec.ofNat 22 (s.moduleNo * 262144 + core)

/-- The host as a source or target (R86). -/
def hostId : GlobalId := 0x3FFFFF

/-! PC slots. -/

def Ctx.slot (c : Ctx) (n : Nat) : PcSlot := if n = 0 then c.slots.1 else c.slots.2

def Ctx.putSlot (c : Ctx) (n : Nat) (p : PcSlot) : Ctx :=
  if n = 0 then { c with slots := (p, c.slots.2) } else { c with slots := (c.slots.1, p) }

/-- The other slot of a wave. -/
def Ctx.otherSlot (c : Ctx) : PcSlot := c.slot (1 - c.cur)

/-- The slot that issues. -/
def Ctx.curSlot (c : Ctx) : PcSlot := c.slot c.cur

def Ctx.modCur (c : Ctx) (f : PcSlot → PcSlot) : Ctx := c.putSlot c.cur (f c.curSlot)

end Sys2Proof.Machine
end

