-- ==== Sys2Proof/Machine/Cache.lean ====
section
/-! DEFINITION. Caches and their replacement, row tags, home slices, memory at its point of coherence, and the frame
records (06_scratchpad.md R153 to R155; 07_addresses.md R209; 08_residency.md R217, R221; 09_sharing.md R239 to
R246). -/

namespace Sys2Proof.Machine

/-- Bits n and up of a word as a number: `len` bits from `lo`. -/
def field {w : Nat} (x : BitVec w) (lo len : Nat) : Nat := (x.extractLsb' lo len).toNat

/-! Caches (R33, R209, R239, R245). -/

/-- Sets and ways of a cache. -/
structure Geometry where
  sets : Nat
  ways : Nat
  deriving DecidableEq, Repr

/-- The places of a line's set; its set is the line number modulo the sets (DESIGN CHOICE for all but the home slices,
log 90). -/
def Geometry.places (g : Geometry) (line : Nat) : List Nat :=
  (List.range g.ways).map fun w => line % g.sets * g.ways + w

/-- A line's place and what is held of it. -/
def cacheFind (m : Cache) (g : Geometry) (line : Nat) : Option (Nat × CLine) :=
  (g.places line).findSome? fun k =>
    match Store.get none m k with
    | some l => if l.line = line then some (k, l) else none
    | none => none

/-- The cache holds a line. -/
def cacheHas (m : Cache) (g : Geometry) (line : Nat) : Bool := (cacheFind m g line).isSome

/-- A line's entry changed, where it is held. -/
def cacheMod (m : Cache) (g : Geometry) (line : Nat) (f : CLine → CLine) : Cache :=
  match cacheFind m g line with
  | some (k, l) => Store.set none m k (some (f l))
  | none => m

/-- A hit sets the line's re-reference value to 0 (R209). -/
def cacheHit (m : Cache) (g : Geometry) (line : Nat) : Cache := cacheMod m g line fun l => { l with rrv := 0 }

def rrvAt (m : Cache) (k : Nat) : Nat :=
  match Store.get none m k with
  | some l => l.rrv
  | none => 0

/-- All lines of a list of places older by `n`. -/
def ageBy (n : Nat) (m : Cache) (ks : List Nat) : Cache :=
  ks.foldl (fun m k =>
    match Store.get none m k with
    | some l => Store.set none m k (some { l with rrv := l.rrv + n })
    | none => m) m

/-- The place where a line that misses goes, and the cache after ageing: an empty way, else a line whose value is 3
after all lines of the set have aged equally until one reaches 3 (R209); the lowest such way (DESIGN CHOICE, log 90). -/
def cacheRoom (m : Cache) (g : Geometry) (line : Nat) : Nat × Cache :=
  let ks := g.places line
  match ks.find? fun k => (Store.get none m k).isNone with
  | some k => (k, m)
  | none =>
    let top := ks.foldl (fun t k => max t (rrvAt m k)) 0
    let old := ageBy (3 - top) m ks
    ((ks.find? fun k => rrvAt old k = 3).getD (ks.headD 0), old)

/-- A line put in, in its own place if the cache holds it. -/
def cachePut (m : Cache) (g : Geometry) (l : CLine) : Cache :=
  match cacheFind m g l.line with
  | some (k, _) => Store.set none m k (some l)
  | none =>
    let r := cacheRoom m g l.line
    Store.set none r.2 r.1 (some l)

/-- The cache without the lines that a test selects. -/
def cacheDrop (m : Cache) (p : CLine → Bool) : Cache :=
  m.filter fun x => match x.2 with
    | some l => !p l
    | none => true

/-- The path caches (R245) and the clause caches (R33). -/
def lsGeo : Geometry := { sets := 64, ways := 4 }
def constGeo : Geometry := { sets := 128, ways := 8 }
def smpGeo : Geometry := { sets := 32, ways := 4 }
def tileGeo : Geometry := { sets := 64, ways := 8 }
def clauseGeo : Geometry := { sets := 64, ways := 2 }
def iGeo : Geometry := { sets := 512, ways := 8 }
/-- A home slice (R239). -/
def homeGeo : Geometry := { sets := 512, ways := 16 }

/-! Row tags (R149, R155, R157). -/

/-- What the tag word of a row is at reset. -/
def tagDefault (row : Nat) : W32 :=
  if row < 16 then 0x0001FFF0 else if row < 128 then 0x0002FFF1 else 0

/-- The tag word of a row. -/
def Core.tag (c : Core) (row : Nat) : W32 := Store.get 0 c.tags row ^^^ tagDefault row

def Core.putTag (c : Core) (row : Nat) (t : W32) : Core :=
  { c with tags := Store.set 0 c.tags row (t ^^^ tagDefault row) }

def tagClass (t : W32) : Nat := field t 16 3
def tagOwner (t : W32) : Nat := field t 0 16
def tagLayout (t : W32) : Nat := field t 21 2
def tagPoison (t : W32) : Bool := t.getLsbD 23

/-- A tag word with class and owner, LAYOUT LINEAR. -/
def mkTag (cls owner : Nat) : W32 := BitVec.ofNat 32 (cls * 65536 + owner)

/-- A tag word with another class. -/
def setClass (t : W32) (cls : Nat) : W32 := (t &&& 0xFFF8FFFF) ||| BitVec.ofNat 32 (cls * 65536)

/-- A tag word with another layout. -/
def setLayout (t : W32) (l : Nat) : W32 := (t &&& 0xFF9FFFFF) ||| BitVec.ofNat 32 (l * 2097152)

/-- The tag word of a row that is released: free, its LAYOUT and POISON kept (R152, R155, R159). -/
def freeTag (t : W32) : W32 := t &&& 0x00E00000

/-- Full/empty bit of the word at a scratchpad offset (R146). -/
def Core.full (c : Core) (off : Nat) : Bool := Store.get false c.fe (off / 4)
def Core.setFull (c : Core) (off : Nat) (b : Bool) : Core := { c with fe := Store.set false c.fe (off / 4) b }

/-- Clears a row: data, full/empty bits, tag (R153). -/
def Core.clearRow (c : Core) (cls owner row : Nat) : Core :=
  let c1 := { c with rows := Store.putBytes c.rows (64 * row) (List.replicate 64 0),
                     fe := (List.range 16).foldl (fun f i => Store.set false f (16 * row + i) false) c.fe }
  c1.putTag row (mkTag cls owner)

def Core.clearRows (c : Core) (cls owner first n : Nat) : Core :=
  (List.range n).foldl (fun c i => c.clearRow cls owner (first + i)) c

/-- The rows of a range that it covers whole, of a core's 1,536. -/
def wholeRows (off n : Nat) : List Nat :=
  ((List.range ((off + n) / 64 + 1 - off / 64)).map (off / 64 + ·)).filter fun r => off ≤ 64 * r && 64 * r + 64 ≤ off + n

/-- Rows written in full lose their POISON (R148, R155). -/
def Core.cleanRows (c : Core) (rs : List Nat) : Core :=
  rs.foldl (fun c r => if tagPoison (c.tag r) then c.putTag r (c.tag r &&& 0xFF7FFFFF) else c) c

/-- Bytes written to a core's rows. -/
def Core.putRows (c : Core) (off : Nat) (bs : List Byte) : Core :=
  { c with rows := Store.putBytes c.rows off bs }.cleanRows (wholeRows off bs.length)

/-- LATEST of the watch entry of a counter takes the larger value (R251, R253). -/
def Core.heard (c : Core) (pa : Nat) (v : W64) : Core :=
  { c with watch := c.watch.map fun (i, w) =>
      if w.getLsbD 63 && field w 3 49 * 8 = pa && field w 64 64 < v.toNat then (i, v ++ w.setWidth 64) else (i, w) }

/-! Tiers of the physical space (R193). -/

def tier0 (pa : Nat) : Bool := pa < 0x12000000000
def tier1 (pa : Nat) : Bool := 0x400000000000 ≤ pa && pa < 0x430000000000
def tier2 (pa : Nat) : Bool := 0x1000000000000 ≤ pa && pa < 0xF000000000000

/-- Physical addresses that exist (R193): tier 0, tier 1 and the enabled CXL windows. -/
def State.populated (s : State) (pa : Nat) : Bool :=
  tier0 pa || tier1 pa || s.sys.cxl.any fun d => d.1 ≤ pa && pa < d.1 + d.2.1

/-! Home slices (R239, R242, R243). -/

/-- Slice index and site of a line's home (R239). -/
def homeSlice (pa : Nat) : Nat × Nat :=
  let sl : Nat × Nat :=
    if pa < 0x12000000000 then (pa / 0x1800000000, (pa % 0x1800000000) / 64)
    else if pa < 0x8000000000000 then (1, (pa - 0x1000000000000) / 64)
    else (10, (pa - 0x8000000000000) / 64)
  let L := sl.2
  (sl.1, (Nat.xor (Nat.xor (L % 4096) (L / 4096 % 4096)) (L / 16777216 % 4096)) % 280)

/-- The cluster whose home slice holds a line. -/
def homeCluster (pa : Nat) : Nat :=
  let h := homeSlice pa
  let cx := (h.1 % 3) * 14 + h.2 % 14
  let cy := (h.1 / 3) * 20 + h.2 / 14
  cy * 42 + cx

/-- The number of a line's home slice: its die × 280 + its index. -/
def homeNumber (pa : Nat) : Nat := (homeSlice pa).1 * 280 + (homeSlice pa).2

/-- The forward directory's entry of a line (R246). -/
def State.fwdEntry (s : State) (pa : Nat) : BitVec 96 :=
  Store.get 0 (Store.get Cluster.reset s.clusters (homeCluster pa)).fwd (pa / 64)

/-- A line's place in its home slice. -/
def State.homeFind (s : State) (pa : Nat) : Option (Nat × CLine) :=
  cacheFind (Store.get [] s.homes (homeNumber pa)) homeGeo (pa / 64)

/-- Where place `k` of a slice lies in its SRAM (the order of the lines is a DESIGN CHOICE, log 90). -/
def sramKey (slice k : Nat) : Nat := slice * 2 ^ 19 + 64 * k

/-- STATE of the atom that holds an address (R242): 0 MEM, 1 CLEAN, 2 DIRTY, 3 FWD. -/
def State.atomState (s : State) (pa : Nat) : Nat :=
  if field (s.fwdEntry pa) 72 2 ≠ 0 then 3
  else match s.homeFind pa with
    | some (_, l) => if l.dirty.getLsbD (pa % 64 / 32) then 2 else 1
    | none => 0

def State.modHome (s : State) (pa : Nat) (f : Cache → Cache) : State :=
  { s with homes := Store.set [] s.homes (homeNumber pa) (f (Store.get [] s.homes (homeNumber pa))) }

/-- The dirty atoms of a line at a place of its home written back to memory: the atoms become CLEAN. -/
def State.writeBack (s : State) (pa k : Nat) (l : CLine) : State :=
  let key := sramKey (homeNumber pa) k
  let atom (m : Memory) (j : Nat) : Memory :=
    if l.dirty.getLsbD j then Store.putBytes m (64 * l.line + 32 * j) (Store.bytes s.sram (key + 32 * j) 32) else m
  { s with mem := atom (atom s.mem 0) 1 }.modHome pa fun m => Store.set none m k (some { l with dirty := 0 })

/-- A line written back and out of its home slice: its atoms become MEM. -/
def State.unhome (s : State) (pa : Nat) : State :=
  match s.homeFind pa with
  | none => s
  | some (k, l) => (s.writeBack pa k l).modHome pa fun m => Store.set none m k none

/-- Every line of the home slices that a test selects, written back and out. -/
def State.unhomeAll (s : State) (p : CLine → Bool) : State :=
  (s.homes.flatMap fun h => h.2.filterMap fun x => x.2.bind fun l => if p l then some (64 * l.line) else none).foldl
    State.unhome s

/-- The home slices without the lines that a test selects, none of which is written back. -/
def State.discardHome (s : State) (p : CLine → Bool) : State :=
  { s with homes := s.homes.map fun h => (h.1, cacheDrop h.2 p) }

/-- A home slice with room made at a place: the line that lies there is written back. -/
def State.roomAt (s : State) (pa k : Nat) (m : Cache) : State :=
  let s1 := s.modHome pa fun _ => m
  match Store.get none m k with
  | some l => s1.writeBack pa k l
  | none => s1

/-- A line read from memory into a place of its home slice. -/
def State.bringTo (s : State) (pa reuse k : Nat) : State :=
  let l : CLine := { line := pa / 64, rrv := reuse, dirty := 0, asn := 0, page := 0, fine := false, bytes := [] }
  { s with sram := Store.putBytes s.sram (sramKey (homeNumber pa) k) (Store.bytes s.mem (pa / 64 * 64) 64) }.modHome pa
    fun m => Store.set none m k (some l)

/-- A line that its home slice does not hold is brought in from memory, at the position that the reuse field gives
(R209); the line it replaces is written back. -/
def State.bring (s : State) (pa reuse : Nat) : State :=
  let r := cacheRoom (Store.get [] s.homes (homeNumber pa)) homeGeo (pa / 64)
  (s.roomAt pa r.1 r.2).bringTo pa reuse r.1

/-! Points of coherence (R239, R240, R243, R246). -/

/-- The core and scratchpad offset that hold a byte whose line is pricked as owner and ACTIVE. -/
def State.forwarded (s : State) (pa : Nat) : Option (Nat × Nat) :=
  let e := s.fwdEntry pa
  if field e 72 2 = 2 then
    let core := field e 74 18
    let o := Store.get 0 (s.core core).owned (pa / 64)
    if o = 0 then none else some (core, o - 1 + pa % 64)
  else none

/-- A byte at its point of coherence. What an unpopulated address reads as is not stated (log 91). -/
def State.pocByte (s : State) (pa : Nat) : Byte :=
  match s.forwarded pa with
  | some (core, off) => Store.get 0 (s.core core).rows off
  | none =>
    match s.homeFind pa with
    | some (k, _) => Store.get 0 s.sram (sramKey (homeNumber pa) k + pa % 64)
    | none => if s.populated pa then Store.get 0 s.mem pa else Config.freeByte pa s.ticks

def State.pocBytes (s : State) (pa : Nat) : Nat → List Byte
  | 0 => []
  | n + 1 => s.pocByte pa :: s.pocBytes (pa + 1) n

def State.pocN (s : State) (pa n : Nat) : Nat := bytesToNat (s.pocBytes pa n)

/-- A byte written at its point of coherence: an atom in the home slice becomes DIRTY; a line that the slice does not hold
is merged in memory (R243). -/
def State.pocPutByte (s : State) (pa : Nat) (b : Byte) : State :=
  match s.forwarded pa with
  | some (core, off) => s.putCore core (let c := s.core core; { c with rows := Store.set 0 c.rows off b })
  | none =>
    match s.homeFind pa with
    | some (k, l) =>
      let d : BitVec 2 := l.dirty ||| BitVec.ofNat 2 (2 ^ (pa % 64 / 32))
      let s1 : State := if d = l.dirty then s else s.modHome pa fun m => Store.set none m k (some { l with dirty := d })
      { s1 with sram := Store.set 0 s1.sram (sramKey (homeNumber pa) k + pa % 64) b }
    | none => if s.populated pa then { s with mem := Store.set 0 s.mem pa b } else s

def State.putAll (s : State) (pa : Nat) : List Byte → State
  | [] => s
  | b :: rest => (s.pocPutByte pa b).putAll (pa + 1) rest

/-- Atoms that a write covers whole lose their poison (R243). -/
def State.cleanAtoms (s : State) (pa n : Nat) : State :=
  if s.poison.isEmpty then s
  else { s with poison := s.poison.filter fun a => !(pa ≤ 32 * a && 32 * a + 32 ≤ pa + n) }

/-- The rows that hold whole lines of a write lose theirs (R155). -/
def State.cleanForwarded (s : State) (pa n : Nat) : State :=
  ((List.range (n / 64 + 1)).map fun j => (pa + 63) / 64 * 64 + 64 * j).foldl (fun s a =>
    if a + 64 ≤ pa + n then
      match s.forwarded a with
      | some (core, off) => s.putCore core ((s.core core).cleanRows [off / 64])
      | none => s
    else s) s

/-- Bytes written at their points of coherence. -/
def State.pocPutBytes (s : State) (pa : Nat) (bs : List Byte) : State :=
  ((s.putAll pa bs).cleanAtoms pa bs.length).cleanForwarded pa bs.length

/-! Frame records (R217), which lie in the last tier-0 frame of each site (19_system.md R486). -/

/-- The first number from `k` on, of `n`, that passes a test. -/
def firstNat (p : Nat → Bool) : Nat → Nat → Option Nat
  | _, 0 => none
  | k, n + 1 => if p k then some k else firstNat p (k + 1) n

/-- How many numbers from `k` on, of `n`, pass a test. -/
def countNat (p : Nat → Bool) : Nat → Nat → Nat
  | _, 0 => 0
  | k, n + 1 => (if p k then 1 else 0) + countNat p (k + 1) n

/-- The physical address of a tier-0 frame. -/
def frameBase (site f : Nat) : Nat := site * 0x1800000000 + f * 2 ^ 21

/-- The physical address of its record. -/
def recordAddr (site f : Nat) : Nat := frameBase site 49151 + 16 * f

/-- The site and number of the tier-0 frame that holds an address. -/
def frameOf (pa : Nat) : Nat × Nat := (pa / 0x1800000000, pa % 0x1800000000 / 2 ^ 21)

/-- A frame's record, read and written at its home (R241). -/
def State.record (s : State) (site f : Nat) : BitVec 128 := BitVec.ofNat 128 (s.pocN (recordAddr site f) 16)

def State.putRecord (s : State) (site f : Nat) (r : BitVec 128) : State :=
  s.pocPutBytes (recordAddr site f) (natToBytes 16 r.toNat)

def modRecord (site f : Nat) (g : BitVec 128 → BitVec 128) : M Unit :=
  modify fun s => s.putRecord site f (g (s.record site f))

/-- STATE of a record: 0 FREE; 1 LIVE; 2 CLOSING; 3 FILLING; 4 TABLE; 5 CARVED; 6 RESERVE. -/
def recState (r : BitVec 128) : Nat := field r 125 3

/-- A record with bits [lo + len − 1:lo] replaced. -/
def recPut (r : BitVec 128) (lo len v : Nat) : BitVec 128 :=
  BitVec.ofNat 128 (r.toNat - field r lo len * 2 ^ lo + v % 2 ^ len * 2 ^ lo)

def getSiteState (s : State) (n : Nat) : Site := Store.get .reset s.sites n

/-- The lowest free frame of a die outside the reserve (R488). -/
def State.freeFrame (s : State) (site : Nat) : Option Nat :=
  let rsv := (getSiteState s site).reserve
  firstNat (fun f => recState (s.record site f) = 0 && !rsv.contains f) 0 49152

/-- FREE of tier 0 (R220). -/
def State.freeCount (s : State) (site : Nat) : Nat := countNat (fun f => recState (s.record site f) = 0) 0 49152

/-- The lowest free sub-frame of the lowest carved frame that has one (R488). -/
def freeSub (m : Store (List Nat)) : Option (Nat × Nat) :=
  m.findSome? fun x => (firstNat (fun j => !x.2.contains j) 0 2048).map fun j => (x.1, j)

/-- A TABLE frame of a kind (1 tables, 2 fine tables) has room for `n` more (R217). -/
def State.tableRoom (s : State) (site kind n : Nat) : Bool :=
  n = 0 || (getSiteState s site).tables.any fun x => x.2.1 = kind && x.2.2 + n ≤ (if kind = 1 then 512 else 128)

/-- A die can supply a frame or a sub-frame with `n` tables, and a fine table where `t` says so, outside its reserve. -/
def State.canSupply (s : State) (site : Nat) (fine : Bool) (n : Nat) (t : Bool) : Bool :=
  (s.freeFrame site).isSome ||
  (fine && (freeSub (getSiteState s site).carved).isSome && s.tableRoom site 1 n && s.tableRoom site 2 (if t then 1 else 0))

/-- The record of a sub-frame, in the layout of R217 with BACK at [105:64] and VPN at [56:10] (log 94). -/
def State.subRec (s : State) (pa : Nat) : BitVec 128 :=
  Store.get 0 (getSiteState s (frameOf pa).1).subs (pa / 1024)

def modSub (pa : Nat) (g : BitVec 128 → BitVec 128) (s : State) : State :=
  let n := (frameOf pa).1
  let t := getSiteState s n
  let t1 : Site := { t with subs := Store.set 0 t.subs (pa / 1024) (g (Store.get 0 t.subs (pa / 1024))) }
  { s with sites := Store.set .reset s.sites n t1 }

/-! Heat, and what an access does to its home (R209, R221). -/

/-- HEAT of a record raised by 1, to 15 at most. -/
def recHeated (r : BitVec 128) : BitVec 128 := recPut r 119 4 (min 15 (field r 119 4 + 1))

/-- A frame's HEAT raised, and that of the sub-frame in use there. -/
def State.heated (s : State) (pa : Nat) : State :=
  if tier0 pa then
    let f := frameOf pa
    let r := s.record f.1 f.2
    let t := if field r 119 4 = 15 then s else s.putRecord f.1 f.2 (recHeated r)
    if recState (s.subRec pa) = 0 then t else modSub pa recHeated t
  else s

/-- A line's home serves an access: a hit is noted; a miss heats the frame, and a read brings the line in. An atomic heats
the frame once. A line that is pricked as owner is not served here. -/
def State.homed (s : State) (pa reuse : Nat) (brings atomic : Bool) : State :=
  if field (s.fwdEntry pa) 72 2 ≠ 0 || !(tier0 pa || tier2 pa) then s
  else match s.homeFind pa with
    | some _ => (if atomic then s.heated pa else s).modHome pa fun m => cacheHit m homeGeo (pa / 64)
    | none => let t := s.heated pa; if brings then t.bring pa reuse else t

/-- The same for each line that `n` bytes touch. -/
def State.homedAll (s : State) (pa n reuse : Nat) (brings atomic : Bool) : State :=
  ((List.range ((pa + n - 1) / 64 + 1 - pa / 64)).map fun j => (pa / 64 + j) * 64).foldl
    (fun s a => s.homed a reuse brings atomic) s

/-! Accesses of engines to physical memory. -/

/-- A physical read of an engine; `reuse`: where its home inserts a line that misses (R209). -/
def readPhysBytes (pa n : Nat) (reuse : Nat := 0) : M (List Byte) := do
  let s ← get
  modify fun s => s.homedAll pa n reuse true false
  return s.pocBytes pa n

def readPhys (pa n : Nat) : M Nat := do return bytesToNat (← readPhysBytes pa n)

/-- A physical write of an engine. -/
def writePhysBytes (pa : Nat) (bs : List Byte) : M Unit :=
  modify fun s => (s.pocPutBytes pa bs).homedAll pa bs.length 0 false false

def writePhys (pa n v : Nat) : M Unit := writePhysBytes pa (natToBytes n v)

end Sys2Proof.Machine
end

