-- ==== Sys2Proof/Machine/Flit.lean ====
section
/-! DEFINITION. Flits: their types and channels, their 64-byte image with its check value, the ports at which they arrive,
and the order in which they do (12_mesh.md R318 to R329). -/

namespace Sys2Proof.Machine

/-! CRC-32C (04_registers.md R104). -/

/-- One byte into a CRC-32C, reflected (R104). -/
def crcStep (crc : Nat) : Nat → Nat
  | 0 => crc
  | n + 1 => crcStep (if crc % 2 = 1 then Nat.xor (crc / 2) 0x82F63B78 else crc / 2) n

def crcBytes (crc : Nat) : List Byte → Nat
  | [] => crc
  | b :: rest => crcBytes (crcStep (Nat.xor crc b.toNat) 8) rest

/-- CHECK of 60 bytes (R321). -/
def flitCheck (bs : List Byte) : Nat := Nat.xor (crcBytes 0xFFFFFFFF bs) 0xFFFFFFFF

/-! Types and channels (R320). -/

/-- The header of a flit. -/
def Ev.hdr : Ev → Option Hdr
  | .ack h _ _ _ _ _ | .copy h _ | .red h _ | .qdata h _ _ _ _ | .credit h _ _ | .msg h _ _ _ | .key h _ _ _ _ _
  | .task h _ | .ret h _ _ _ | .ray h _ | .hit h _ | .nack h _ _ | .mreq h _ | .mresp h _ _ _ | .cresp h _
  | .forwarded h _ _ | .roundNotice h _ _ _ => some h
  | .ctrl _ c => some c.hdr
  | _ => none

/-- The type of a flit (R320). -/
def Ev.ty : Ev → FlitTy
  | .ack .. => .ack
  | .mreq .. => .mreq
  | .mresp .. => .mresp
  | .credit .. => .credit
  | .nack .. => .nack
  | .ray .. => .ray
  | .hit .. => .hit
  | .task .. => .task
  | .ret .. => .ret
  | .msg .. => .msg
  | .qdata .. => .qdata
  | .key .. => .key
  | .copy .. => .copy
  | .ctrl .. => .ctrl
  | .cresp .. => .cresp
  | .forwarded .. | .roundNotice .. => .page
  | _ => .red

/-- The number of a flit type (R320). -/
def tyCode (t : FlitTy) : Nat :=
  match t with
  | .ctrl => 1
  | .mreq => 2
  | .mresp => 3
  | .ack => 4
  | .credit => 5
  | .nack => 6
  | .cresp => 7
  | .page => 8
  | .ray => 9
  | .hit => 10
  | .task => 11
  | .ret => 12
  | .msg => 13
  | .qdata => 14
  | .key => 15
  | .copy => 16
  | .red => 17

/-- The channel of a flit type (R320). -/
def tyVc (t : FlitTy) : Nat :=
  match t with
  | .ctrl => 0
  | .mreq => 1
  | .mresp | .ack | .credit | .nack | .cresp => 2
  | .page => 3
  | .ray => 4
  | .hit => 5
  | .task | .ret => 6
  | .msg | .qdata | .key | .copy | .red => 7

/-- The channel of a flit. -/
def Ev.vc (e : Ev) : Nat := tyVc e.ty

/-! The image of a flit (R318, R319). -/

/-- The header word of a flit. -/
def hdrWord (h : Hdr) (t : FlitTy) : Nat :=
  h.seq.toNat * 2 ^ 52 + tyCode t * 2 ^ 47 + tyVc t * 2 ^ 44 + h.src.toNat * 2 ^ 22 + h.dst.toNat

/-- A task record as the 52 bytes of its payload (R336). -/
def taskBytes (r : TaskRec) : List Byte :=
  natToBytes 8 r.entry.toNat ++ natToBytes 8 r.arg0.toNat ++ natToBytes 8 r.arg1.toNat ++ natToBytes 4 r.sender.toNat ++
  natToBytes 4 r.launch.toNat ++ natToBytes 1 r.kind.toNat ++ List.replicate 19 0

/-- The 52 bytes of a flit's payload: those of a ray, a hit and a task record as R353, R354 and R336 lay them out, those of
the other types, which no rule lays out, free bytes (log 68). -/
def parkPayload (p : Parkable) (k : Nat) : List Byte :=
  match p with
  | .ray b => (b ++ List.replicate (52 - b.length) 0).take 52
  | .hit b => (b ++ List.replicate (52 - b.length) 0).take 52
  | .task r => taskBytes r
  | _ => (List.range 52).map fun j => Config.freeByte (2 ^ 24 + j) k

/-- The type of a flit that may be parked. -/
def parkTy : Parkable → FlitTy
  | .ray _ => .ray
  | .hit _ => .hit
  | .task _ => .task
  | .ret .. => .ret
  | .msg .. => .msg
  | .qdata .. => .qdata
  | .key .. => .key

/-- The 64 bytes of a flit. -/
def flitImage (h : Hdr) (p : Parkable) (k : Nat) : List Byte :=
  let bs := natToBytes 8 (hdrWord h (parkTy p)) ++ parkPayload p k
  bs ++ natToBytes 4 (flitCheck bs)

/-- The header word of an image. -/
def imageHdr (bs : List Byte) : W64 := BitVec.ofNat 64 (bytesToNat (bs.take 8))

/-- The type of an image. -/
def imageTy (bs : List Byte) : Option FlitTy :=
  ([.ray, .hit, .task, .ret, .msg, .qdata, .key] : List FlitTy).find? fun t =>
    tyCode t = ((imageHdr bs).extractLsb' 47 5).toNat

/-- An image that passes its check: its CHECK, and a TYPE that may be parked on the VC of that type (R320, R321). -/
def imageGood (bs : List Byte) : Bool :=
  bytesToNat ((bs.drop 60).take 4) = flitCheck (bs.take 60) &&
  (imageTy bs).any fun t => tyVc t = ((imageHdr bs).extractLsb' 44 3).toNat

/-- The header of an image, of a flit that comes from the overflow area. -/
def hdrOfImage (bs : List Byte) (good : Bool) : Hdr :=
  let w := imageHdr bs
  { src := w.extractLsb' 22 22, dst := w.extractLsb' 0 22, seq := w.extractLsb' 52 12, good := good, reinj := true }

/-- What an image read back carries: of the types whose payload a rule lays out, its payload. -/
def parkOfImage (p : Parkable) (bs : List Byte) : Parkable :=
  let q (o n : Nat) : Nat := bytesToNat ((bs.drop (8 + o)).take n)
  match imageTy bs with
  | some .ray => .ray ((bs.drop 8).take 52)
  | some .hit => .hit ((bs.drop 8).take 52)
  | some .task =>
    .task { entry := BitVec.ofNat 64 (q 0 8), arg0 := BitVec.ofNat 64 (q 8 8), arg1 := BitVec.ofNat 64 (q 16 8),
            sender := BitVec.ofNat 22 (q 24 4), launch := BitVec.ofNat 32 (q 28 4), kind := BitVec.ofNat 8 (q 32 1) }
  | _ => p

/-! Order (R325, R329). -/

/-- The input port of a flit at its destination's router: 0 to 3 the mesh directions, by the last leg of its route X then
Y; 4 the cluster crossbar; 5 the host interface (R16, R324). -/
def inPort (src dst : GlobalId) : Nat :=
  if src = hostId then 5 else
  let at_ (g : GlobalId) : Nat × Nat :=
    let m := (g.extractLsb' 18 4).toNat
    let cl := (g.extractLsb' 0 18).toNat / 48
    (m % 4 * 42 + cl % 42, m / 4 * 80 + cl / 42)
  let a := at_ src
  let b := at_ dst
  if a = b then 4
  else if a.2 < b.2 then 0
  else if b.2 < a.2 then 1
  else if a.1 < b.1 then 2
  else 3

/-- A flit that stays in the buffers of its destination's router holds another back: one of its channel that arrives by
the same port (R329). -/
def Ev.stops (a b : Ev) : Bool :=
  match a.hdr, b.hdr with
  | some g, some h =>
    4 ≤ a.vc && a.vc = b.vc && !h.reinj && g.dst.toNat / 48 = h.dst.toNat / 48 && inPort g.src g.dst = inPort h.src h.dst
  | _, _ => false

/-- Two events that must happen in the order in which they were caused: flits of one source, destination and channel,
region commands, Tchios commands. A flit read back from an overflow area waits for none that is in its channel (R325). -/
def Ev.ordered (a b : Ev) : Bool :=
  match a, b with
  | .command .., .command .. => true
  | .ctrl .., .ctrl .. => true
  | _, _ =>
    match a.hdr, b.hdr with
    | some g, some h => g.src = h.src && g.dst = h.dst && a.vc = b.vc && (!h.reinj || g.reinj)
    | _, _ => false

/-- An event waits for one caused before it. -/
def State.blocked (s : State) (before : List Ev) (e : Ev) : Bool :=
  before.any (fun b => b.ordered e) || s.timers.any fun t => t.2.ordered e || t.2.stops e

/-- A core's channel is full: four flits of its cluster on the channel, as many as a router's port holds, are stuck behind
or at a full overflow area (R324, R329, R340; log 94). -/
def State.channelFull (s : State) (core vc : Nat) : Bool :=
  let mine (e : Ev) : Bool := e.vc = vc && e.hdr.any fun h => !h.reinj && (s.localCore h.src).any fun k => k / 48 = core / 48
  let stuck := (s.timers.map (·.2)).filter fun e => 4 ≤ e.vc && e.hdr.isSome
  !stuck.isEmpty && 4 ≤ (stuck.filter mine).length + (s.pending.filter fun e => mine e && stuck.any fun t => t.stops e).length

end Sys2Proof.Machine
end

