-- ==== Sys2Proof/Machine/Mem.lean ====
section
/-! DEFINITION. System rows, region control blocks, page walks, translation and the accesses of a context
(06_scratchpad.md, 07_addresses.md, 08_residency.md, 09_sharing.md, 16_traps.md R432). -/

namespace Sys2Proof.Machine

/-! Counters of the turn's context (R464, R465) and of units (R466). -/

/-- Counts one event of a code in every enabled counter that selects it. -/
def Ctx.count (c : Ctx) (code : Nat) : Ctx :=
  (List.range 8).foldl (fun c i =>
    if c.cbctl.getLsbD (48 + i) && field c.cbctl (6 * i) 6 == code then
      let n := (Store.get 0 c.cnt i).toNat + 1
      let c1 := { c with cnt := Store.set 0 c.cnt i (BitVec.ofNat 64 (n % 2 ^ 48)) }
      if n = 2 ^ 48 then { c1 with cbst := c1.cbst ||| BitVec.ofNat 64 (2 ^ i) } else c1
    else c) c

/-- An armed launch record of a cluster (18_debug.md R467) after `n` events of a code in a team of launch `lnum`. Its
words: 0 the launch number, with LATE in bit 32 and in bit 33 that its clk is still to come; 1 the eight event codes; 2 the destination; 3 the cycle at which
counting began; 4 to 11 the sums; 12 teams placed; 13 exits; 14 the last MARK value, with its core from bit 32. -/
def feedRecord (lnum : W32) (code n : Nat) (r : List W64) : List W64 :=
  if (r.getD 0 0).setWidth 32 = lnum && !(r.getD 0 0).getLsbD 33 then
    r.mapIdx fun i v =>
      if 4 ≤ i ∧ i < 12 ∧ field (r.getD 1 0) (8 * (i - 4)) 8 = code then v + BitVec.ofNat 64 n else v
  else r

/-- A context's bank after `n` events of a code; it counts while a counter is enabled. -/
def Ctx.counts (c : Ctx) (code n : Nat) : Ctx :=
  if c.cbctl.extractLsb' 48 8 ≠ 0 then (List.range n).foldl (fun c _ => c.count code) c else c

/-- The clusters after `n` events of a code in the turn's team: the armed launch records of its cluster sum them. -/
def State.feeds (s : State) (code n : Nat) : Store Cluster :=
  let cl := Store.get Cluster.reset s.clusters (clusterOf s.hereId)
  if cl.launchRec.isEmpty then s.clusters
  else match s.myTeam with
    | some t => Store.set Cluster.reset s.clusters (clusterOf s.hereId)
        { cl with launchRec := cl.launchRec.map fun (i, r) => (i, feedRecord t.lnum code n r) }
    | none => s.clusters

/-- `n` events of a code counted: in the context's bank and in the armed launch records of its cluster. -/
def State.counted (s : State) (code : Nat) (n : Nat := 1) : State :=
  { s with me := s.me.counts code n, clusters := s.feeds code n }

/-- Counts `n` events of a code. -/
def countEvent (code : Nat) (n : Nat := 1) : M Unit := modify fun s => s.counted code n

/-- Changes the word `i` of the armed launch records of a launch in a core's cluster (18_debug.md R467). -/
def markRecord (core : Nat) (lnum : W32) (i : Nat) (f : W64 → W64) : M Unit := do
  if !(Store.get Cluster.reset (← get).clusters (clusterOf core)).launchRec.isEmpty then
    modCluster (clusterOf core) fun k =>
      { k with launchRec := k.launchRec.map fun (j, r) =>
          (j, if (r.getD 0 0).setWidth 32 = lnum && !(r.getD 0 0).getLsbD 33 then r.set i (f (r.getD i 0)) else r) }

/-- Adds to a unit counter of a core (0 to 3) or of its cluster (4 to 7). -/
def bumpUnit (core idx : Nat) (n : Nat := 1) : M Unit :=
  if idx < 4 then modCore core fun c => { c with unitCnt := Store.set 0 c.unitCnt idx (Store.get 0 c.unitCnt idx + BitVec.ofNat 64 n) }
  else modCluster (clusterOf core) fun c => { c with unitCnt := Store.set 0 c.unitCnt idx (Store.get 0 c.unitCnt idx + BitVec.ofNat 64 n) }

/-- A late arrival (R466 index 0). -/
def lateArrival (core : Nat) (n : Nat := 1) : M Unit := bumpUnit core 0 n

/-! System rows (16_traps.md R432). -/

/-- Core register k of group 0x01. -/
def Core.sysReg (c : Core) (k : Nat) : W64 :=
  match k with
  | 0 => c.cctl
  | 1 => c.tvec
  | 2 => c.tcmp
  | 3 => c.itgt
  | _ => 0

/-- A word of the trap block of a barrel-thread slot. -/
def Ctx.blockWord (c : Ctx) (k : Nat) : W64 :=
  match k with
  | 0 => c.tpc0
  | 1 => c.tcause
  | 2 => c.taddr
  | _ => c.tspare

/-- The bits of MODE that are not reserved (05_lanes.md R121). -/
def modeBits : BitVec 32 := 0x371F

/-- Legal rounding-mode codes (R121). -/
def rmLegal (rm : Nat) : Bool := rm ≠ 0 && rm ≠ 6

/-- The bits of a PC that are not reserved (02_clauses.md R29). -/
def pcBits : W64 := 0xF1FFFFFFFFFFFFF8

/-- A word with TMODE replaced. -/
def putTmode (w : W64) (m : BitVec 32) : W64 := (w &&& 0xFFFFC000FFFFFFFF) ||| ((m &&& modeBits).setWidth 64 <<< 32)

/-- A store to a word of a trap block: of its registers tpc0, TMODE of tcause and tspare are written, as MTS writes them
(16_traps.md R424); a TMODE that is not legal stays as it was (log 92). -/
def Ctx.putBlockWord (c : Ctx) (k : Nat) (v : W64) : Ctx :=
  match k with
  | 0 => { c with tpc0 := v &&& pcBits }
  | 1 =>
    let m : BitVec 32 := (v.extractLsb' 32 14).setWidth 32
    if rmLegal (field m 8 3) then { c with tcause := putTmode c.tcause m } else c
  | 2 => c
  | _ => { c with tspare := v }

/-- Byte i of a word. -/
def byteOf (v : W64) (i : Nat) : Byte := v.extractLsb' (8 * i) 8
def putByte (v : W64) (i : Nat) (b : Byte) : W64 :=
  BitVec.ofNat 64 (v.toNat - (byteOf v i).toNat * 2 ^ (8 * i) + b.toNat * 2 ^ (8 * i))

/-- A byte of a core's scratchpad. The register block and the trap blocks are views. Offsets 32 to 511 name registers of
group 0x01 that there are not: they read as free values (log 8). -/
def State.rowByte (s : State) (core off : Nat) : Byte :=
  let c := s.core core
  if 1024 ≤ off then Store.get 0 c.rows off
  else if off < 32 then byteOf (c.sysReg (off / 8)) (off % 8)
  else if 512 ≤ off then
    byteOf ((Store.get Ctx.blank c.ctxs ((off - 512) / 32)).blockWord (off % 32 / 8)) (off % 8)
  else Config.freeByte (2 ^ 20 + off) s.ticks

def State.rowBytes (s : State) (core off : Nat) : Nat → List Byte
  | 0 => []
  | n + 1 => s.rowByte core off :: s.rowBytes core (off + 1) n

/-- Eight bytes of a trap block, or some of them, written from an offset on. -/
def State.putBlock (s : State) (core off : Nat) (bs : List Byte) : State :=
  let c := s.core core
  let k := (off - 512) / 32
  let x := Store.get Ctx.blank c.ctxs k
  let j := off % 32 / 8
  let w := (List.range bs.length).foldl (fun w i => putByte w (off % 8 + i) (bs.getD i 0)) (x.blockWord j)
  s.putCore core { c with ctxs := Store.set Ctx.blank c.ctxs k (x.putBlockWord j w) }

/-- Up to eight bytes written within one aligned word of a core's scratchpad; a store to the register block is
ignored. -/
def State.putRowWord (s : State) (core off : Nat) (bs : List Byte) : State :=
  if 1024 ≤ off then s.putCore core ((s.core core).putRows off bs)
  else if 512 ≤ off then s.putBlock core off bs
  else s

/-- The pieces of `n` bytes from an offset on, at most a word each: offset, first byte and count. -/
def wordPieces (off : Nat) : Nat → Nat → List (Nat × Nat × Nat)
  | 0, _ => []
  | fuel + 1, n =>
    if n = 0 then [] else
      let k := min n (8 - off % 8)
      (off, n, k) :: wordPieces (off + k) fuel (n - k)

/-- Bytes written to a core's scratchpad. -/
def State.putRowBytes (s : State) (core off : Nat) (bs : List Byte) : State :=
  if 1024 ≤ off then s.putCore core ((s.core core).putRows off bs)
  else (wordPieces off bs.length bs.length).foldl
    (fun s p => s.putRowWord core p.1 ((bs.drop (bs.length - p.2.1)).take p.2.2)) s

/-! Region control blocks (R390, R391). -/

def State.rcbWord (s : State) (rcb i : Nat) : Nat := s.pocN (rcb + 8 * i) 8

def rcbWord (rcb i : Nat) : M Nat := do return (← get).rcbWord rcb i

def putRcbWord (rcb i v : Nat) : M Unit := modify fun s => s.pocPutBytes (rcb + 8 * i) (natToBytes 8 v)

/-- Bits of a word of an RCB. -/
def State.rcbField (s : State) (rcb i lo len : Nat) : Nat := s.rcbWord rcb i / 2 ^ lo % 2 ^ len

/-- The parent's RCB, 0 for the supervisor region. -/
def State.parentOf (s : State) (rcb : Nat) : Nat := s.rcbField rcb 0 8 44 * 256

/-- The region and its ancestors, at most 16 of them (R393 bounds LEVEL by 15). -/
def State.chain (s : State) : Nat → Nat → List Nat
  | _, 0 => []
  | rcb, n + 1 => if rcb = 0 then [] else rcb :: s.chain (s.parentOf rcb) n

def State.ancestors (s : State) (rcb : Nat) : List Nat := s.chain rcb 17

/-- A region lies in the subtree of another. -/
def State.under (s : State) (rcb top : Nat) : Bool := (s.ancestors rcb).contains top

/-- The RCB that begins the fault domain of a region (R391). -/
def State.domainOf (s : State) (rcb : Nat) : Nat :=
  match (s.ancestors rcb).find? fun r => s.rcbField r 1 56 1 = 1 with
  | some r => r
  | none => rcb

def State.domAsn (s : State) (dom : Nat) : BitVec 12 := BitVec.ofNat 12 (s.rcbField dom 1 20 12)
def State.domRoot (s : State) (dom : Nat) : Nat := s.rcbField dom 2 12 40 * 4096
def State.domFirstTouch (s : State) (dom : Nat) : Bool := s.rcbField dom 1 57 1 = 1
/-- Default rights RD, WR, EX as bits 2, 1, 0. -/
def State.domRights (s : State) (dom : Nat) : Nat := s.rcbField dom 1 36 3

/-- The domain in which a context translates (R194, R392). -/
def State.ctxDomain (s : State) (core : Nat) (c : Ctx) : Nat :=
  match (s.core core).team c.team with
  | some t => s.domainOf t.rcb
  | none => s.sys.supRcb

def State.myDomain (s : State) : Nat :=
  match s.here.team s.me.team with
  | some t => s.domainOf t.rcb
  | none => s.sys.supRcb

/-- Supervisor privilege (R417). -/
def Ctx.supervisor (c : Ctx) : Bool := c.sup || c.handler

/-! Flits (R319, R322). -/

/-- Sends a flit of a core on a virtual channel, with the next SEQ of that channel (R319): it is on its way, and its sender
holds it for 1,024 cycles unless it is a NACK. A flit to another module leaves the model (log 19). -/
def sendFlit (core : Nat) (dst : GlobalId) (vc : Nat) (mk : Hdr → Ev) : M Unit := do
  let s ← get
  let q := Store.get 0 (s.core core).seqOut vc
  let ev := mk { src := s.globalId core, dst := dst, seq := q, good := true, reinj := false }
  modCore core fun c =>
    { c with seqOut := Store.set 0 c.seqOut vc (q + 1),
             held := (c.held.filter fun x => s.clk.toNat < x.until_) ++
               (if ev.ty = .nack then [] else [{ dst := dst, vc := vc, until_ := s.clk.toNat + 1024, ev := ev }]) }
  if (s.localCore dst).isSome || dst = hostId then later ev

/-- Sends a flit of the host on a virtual channel to a core of this module, and keeps it as any agent does. -/
def hostFlit (dst : GlobalId) (vc : Nat) (mk : Hdr → Ev) : M Unit := do
  let s ← get
  let q := Store.get 0 s.sys.hostSeq vc
  let ev := mk { src := hostId, dst := dst, seq := q, good := true, reinj := false }
  modSys fun y =>
    { y with hostSeq := Store.set 0 y.hostSeq vc (q + 1),
             hostHeld := (y.hostHeld.filter fun x => s.clk.toNat < x.until_) ++
               (if ev.ty = .nack then [] else [{ dst := dst, vc := vc, until_ := s.clk.toNat + 1024, ev := ev }]) }
  if (s.localCore dst).isSome then later ev

/-- A send of a context waits while its channel is full (R340); a record for its own core takes no channel. -/
def needChannel (vc : Nat) (dst : GlobalId) : M Unit := do
  let s ← get
  if dst ≠ s.globalId s.hereId && s.channelFull s.hereId vc then hold .meshFull

/-- Sends a task record on VC 6, or straight to the core's own queue, where it takes no channel (R86, R404). -/
def sendTask (core : Nat) (dst : GlobalId) (r : TaskRec) : M Unit := do
  let own := (← get).globalId core
  if dst = own then later (.task { src := own, dst := dst, seq := 0, good := true, reinj := false } r)
  else sendFlit core dst 6 (.task · r)

/-! Supervisor interrupts (16_traps.md R429). -/

/-- Core 0 of a cluster, which stands for the cluster's agents in a header (R319). -/
def clusterCore0 (cl : Nat) : Nat := cl * 48

/-- Sends a supervisor interrupt of a cluster; dropped while CL_IRQ.EN is 0. -/
def supInterrupt (cl code : Nat) : M Unit := do
  let k ← getCluster cl
  if k.irq.getLsbD 63 then
    let s ← get
    sendTask (clusterCore0 cl) (k.irq.setWidth 22)
      { entry := k.irqe, arg0 := BitVec.ofNat 64 code, arg1 := BitVec.ofNat 64 cl,
        sender := s.globalId (clusterCore0 cl), launch := 0, kind := 2 }

/-! Translation (R194, R195, R197, R199, R218, R219). -/

/-- InFineRange of a core for an address space (R196, R197). -/
def State.inFine (s : State) (core : Nat) (asn : BitVec 12) (va : Nat) : Bool :=
  (List.range 8).any fun i =>
    let r := Store.get 0 (s.core core).pgsel i
    let vpn := va / 2 ^ 21
    r.getLsbD 63 && field r 51 12 = asn.toNat && field r 0 36 ≤ vpn && vpn ≤ field r 0 36 + field r 36 15

/-- How a walk ends. -/
inductive Walk where
  /-- at a leaf: the entry's address, the entry, and whether it maps a sub-page -/
  | leaf (at_ : Nat) (e : W64) (fine : Bool)
  /-- at an entry with V = 0: its address, the entry, its level (4 for a fine entry) -/
  | miss (at_ : Nat) (e : W64) (level : Nat)
  /-- with a PAGE fault: SIZE 2, TABLE 3, FORMAT 4, RANGE 5 -/
  | fail (detail : Nat)
  deriving DecidableEq, Repr

/-- Reserved bits of an entry at levels 3 to 1 (R195). -/
def upperFormat (e : W64) : Bool := field e 52 11 = 0 && field e 0 8 = 0

/-- Required zero bits of a valid level-0 or fine entry (R195). -/
def leafFormat (e : W64) (fineEntry : Bool) : Bool :=
  if fineEntry then !e.getLsbD 59 && field e 0 10 = 0
  else if e.getLsbD 59 then field e 0 14 = 0
  else field e 0 21 = 0

/-- A fine entry of a walk. -/
def State.walkFine (s : State) (tab va : Nat) : Walk :=
  let at_ := tab + 8 * (va / 1024 % 2048)
  let e : W64 := BitVec.ofNat 64 (s.pocN at_ 8)
  if !e.getLsbD 63 then .miss at_ e 4
  else if !leafFormat e true then .fail 4
  else if !s.populated (field e 10 42 * 1024) then .fail 5
  else .leaf at_ e true

/-- The level-0 entry of a walk. -/
def State.walk0 (s : State) (fine : Bool) (tab va : Nat) : Walk :=
  let at_ := tab + 8 * (va / 2 ^ 21 % 512)
  let e : W64 := BitVec.ofNat 64 (s.pocN at_ 8)
  if !e.getLsbD 63 then .miss at_ e 0
  else if !leafFormat e false then .fail 4
  else if fine != e.getLsbD 59 then .fail 2
  else if e.getLsbD 59 then
    (if tier0 (field e 14 38 * 16384) then s.walkFine (field e 14 38 * 16384) va else .fail 3)
  else if !s.populated (field e 21 31 * 2 ^ 21) then .fail 5
  else .leaf at_ e false

/-- Levels `lvl` to 1, then level 0. -/
def State.walkFrom (s : State) (fine : Bool) (va : Nat) : Nat → Nat → Walk
  | 0, tab => s.walk0 fine tab va
  | lvl + 1, tab =>
    let at_ := tab + 8 * (va / 2 ^ (21 + 9 * (lvl + 1)) % 512)
    let e : W64 := BitVec.ofNat 64 (s.pocN at_ 8)
    if !e.getLsbD 63 then .miss at_ e (lvl + 1)
    else if !upperFormat e then .fail 4
    else if !tier0 (field e 12 40 * 4096) then .fail 3
    else s.walkFrom fine va lvl (field e 12 40 * 4096)

/-- The level at which a walk missed: 4 for a fine entry. -/
def Walk.level : Walk → Nat
  | .miss _ _ l => l
  | _ => 0

/-- The walk of a virtual address (R194). -/
def State.walk (s : State) (dom core va : Nat) : Walk :=
  if tier0 (s.domRoot dom) then s.walkFrom (s.inFine core (s.domAsn dom) va) va 3 (s.domRoot dom) else .fail 3

/-- The entries that a walk reads, levels `lvl` to 0, by physical address. -/
def State.walkReads (s : State) (fine : Bool) (va : Nat) : Nat → Nat → List Nat
  | 0, tab =>
    let at_ := tab + 8 * (va / 2 ^ 21 % 512)
    let e : W64 := BitVec.ofNat 64 (s.pocN at_ 8)
    if fine && e.getLsbD 63 && leafFormat e false && e.getLsbD 59 && tier0 (field e 14 38 * 16384) then
      [at_, field e 14 38 * 16384 + 8 * (va / 1024 % 2048)]
    else [at_]
  | lvl + 1, tab =>
    let at_ := tab + 8 * (va / 2 ^ (21 + 9 * (lvl + 1)) % 512)
    let e : W64 := BitVec.ofNat 64 (s.pocN at_ 8)
    if e.getLsbD 63 && upperFormat e && tier0 (field e 12 40 * 4096) then
      at_ :: s.walkReads fine va lvl (field e 12 40 * 4096)
    else [at_]

/-- The homes of the entries that a walk reads serve it (09_sharing.md R241). -/
def State.walked (s : State) (dom core va : Nat) : State :=
  if !tier0 (s.domRoot dom) then s else
  (s.walkReads (s.inFine core (s.domAsn dom) va) va 3 (s.domRoot dom)).foldl (fun s a => s.homed a 0 true false) s

/-- A walk reads a poisoned entry: a machine check that no context can take (R322; 16_traps.md R429). It goes on with what
memory holds of the entry (DESIGN CHOICE, log 112). -/
def State.walkPoisoned (s : State) (dom core va : Nat) : Bool :=
  !s.poison.isEmpty && (s.walkReads (s.inFine core (s.domAsn dom) va) va 3 (s.domRoot dom)).any fun a => s.poison.contains (a / 32)

/-- States of a parked entry (R218). -/
inductive Parked where
  | unmapped | tier1 | tier2 | moving | badFormat
  deriving DecidableEq, Repr

/-- A parked entry read (R218); entries at levels 3 to 1 are UNMAPPED whatever their bits. -/
def parkedState (e : W64) (level : Nat) : Parked :=
  if level = 1 ∨ level = 2 ∨ level = 3 then .unmapped else
  let st := field e 60 3
  let bf := field e 10 42 * 1024
  if 4 ≤ st || field e 52 8 ≠ 0 || field e 0 10 ≠ 0 || (level = 0 && field e 10 11 ≠ 0) then .badFormat
  else if st = 0 then (if bf = 0 then .unmapped else .badFormat)
  else if st = 1 then (if tier1 bf then .tier1 else .badFormat)
  else if st = 2 then (if tier2 bf then .tier2 else .badFormat)
  else .moving

/-- What translating one page gives. -/
inductive Trans where
  /-- the physical address, and where its page ends -/
  | ok (pa : Nat)
  /-- a PAGE fault with its DETAIL -/
  | page (detail : Nat)
  /-- a wait for an engine: a fill, a first touch or a MOVING entry -/
  | wait (job : Option Ev)
  deriving DecidableEq, Repr

/-- Set of the TLB that an entry lies in (R199). -/
def tlbSet (e : Tlb) : Nat := e.page % 64

/-- An entry put first; the seventeenth entry of its set, the least recently used, is replaced. -/
def tlbInsert (l : List Tlb) (e : Tlb) : List Tlb :=
  let same := l.filter fun x => tlbSet x = tlbSet e
  if same.length < 16 then e :: l
  else match same.getLast? with
    | some old => e :: l.erase old
    | none => e :: l

/-- An entry that serves a lookup (R199). -/
def tlbHit (asn : BitVec 12) (fine : Bool) (va : Nat) (write : Bool) (e : Tlb) : Bool :=
  e.asn = asn && e.fine = fine && e.page = (if fine then va / 1024 else va / 2 ^ 21) && (!write || e.dty)

/-- What an access does with a page: read, write, or fetch clauses. -/
inductive Use where
  | read | write | fetch
  deriving DecidableEq, Repr

def Use.allowed (u : Use) (rd wr ex : Bool) : Bool :=
  match u with
  | .read => rd
  | .write => wr
  | .fetch => ex

/-- The physical address under a TLB entry. -/
def tlbAddr (e : Tlb) (va : Nat) : Nat := e.frame + (if e.fine then va % 1024 else va % 2 ^ 21)

/-- Translation of one address for an access of a core in a domain. `fills` is false for accesses that never start
an engine (LDLOD, PREF); `again`: for a miss that is counted already, of which only the walk that finds the page is new
(18_debug.md R466). -/
def translate (dom core va : Nat) (u : Use) (fills : Bool := true) (again : Bool := false) : M Trans := do
  let s ← get
  let cl := clusterOf core
  let asn := s.domAsn dom
  let fine := s.inFine core asn va
  let c := Store.get Cluster.reset s.clusters cl
  match c.tlb.find? (tlbHit asn fine va (u = .write)) with
  | some e =>
    if c.tlb.head? ≠ some e then modCluster cl fun c => { c with tlb := e :: c.tlb.erase e }
    if u.allowed e.rd e.wr e.ex then return .ok (tlbAddr e va) else return .page 6
  | none =>
    if !again then
      bumpUnit core 6
      bumpUnit core 7
    modify fun s => s.walked dom core va
    if !again && s.walkPoisoned dom core va then supInterrupt cl 2
    match s.walk dom core va with
    | .fail d => return .page d
    | .leaf at_ e fineLeaf =>
      if again then bumpUnit core 7
      let want : W64 := e ||| 0x0200000000000000 ||| (if u = .write then 0x0100000000000000 else 0)
      if want ≠ e then modify fun s => s.pocPutBytes at_ (natToBytes 8 want.toNat)
      let t : Tlb := { asn := asn, page := (if fineLeaf then va / 1024 else va / 2 ^ 21), fine := fineLeaf,
                       frame := (if fineLeaf then field e 10 42 * 1024 else field e 21 31 * 2 ^ 21),
                       rd := e.getLsbD 62, wr := e.getLsbD 61, ex := e.getLsbD 60, dty := want.getLsbD 56 }
      modCluster cl fun c =>
        { c with tlb := tlbInsert (c.tlb.filter fun x => !(x.asn = t.asn && x.fine = t.fine && x.page = t.page)) t }
      if u.allowed t.rd t.wr t.ex then return .ok (tlbAddr t va) else return .page 6
    | .miss _ e level =>
      let job : PageJob :=
        { core := core, rcb := dom, va := va, fine := fine, who := .nobody, region := dom, begun := false, src := 0, dst := 0 }
      match parkedState e level with
      | .badFormat => return .page 4
      | .moving => if fills then return .wait none else return .page 1
      | .tier1 => if fills then return .wait (some (.fill job)) else return .page 1
      | .tier2 => if fills then return .wait (some (.fill job)) else return .page 1
      | .unmapped =>
        if fills && s.domFirstTouch dom then return .wait (some (.firstTouch job)) else return .page 1

/-! Accesses of a context. -/

/-- Where an access goes: a byte of a core's scratchpad, or a virtual address. -/
inductive Tgt where
  | row (core off : Nat)
  | glob (va : Nat)
  deriving DecidableEq, Repr

/-- The paths of R245. -/
inductive Path where
  | ls | const | sampler | poc
  deriving DecidableEq, Repr

/-- How an access reaches global memory: its path, whether the path's cache may answer (R245), its scope and its reuse
field (R209). -/
structure Via where
  path : Path
  cached : Bool := false
  scope : Nat := 0
  reuse : Nat := 0
  deriving DecidableEq, Repr

/-- What an access needs. -/
structure Need where
  rd : Bool
  wr : Bool
  at_ : Bool
  natural : Bool          -- natural alignment at a global address (R192)
  rowStore : Bool := wr   -- the column of R157 that it falls under
  via : Option Via := some { path := .ls }   -- how it reads; none: its reads look for poison themselves
  deriving DecidableEq, Repr

/-- A plain access on the load-store path (R186, R245). -/
def plainLoad : Via := { path := .ls, cached := true }

def Need.load : Need := { rd := true, wr := false, at_ := false, natural := false }
/-- A plain load, which may be answered by the path's cache. -/
def plainNeed : Need := { rd := true, wr := false, at_ := false, natural := false, via := some plainLoad }
def Need.store : Need := { rd := false, wr := true, at_ := false, natural := false }
def Need.rmw : Need := { rd := true, wr := true, at_ := true, natural := true }

/-- The core and offset of an aperture address (R160 to R162), for a context of core `core`. -/
def apertureTarget (core : Nat) (a : W64) : Option (Nat × Nat) :=
  if field a 40 24 = 0xFFFFFF then
    (if field a 0 40 < 0x18000 then some (core, field a 0 17) else none)
  else if field a 40 24 = 0xFFFFFE then
    (if field a 23 17 = 0 && field a 17 6 < 48 && field a 0 17 < 0x18000
     then some (core / 48 * 48 + field a 17 6, field a 0 17) else none)
  else none

/-- R157 for one row: a supervisor's store is allowed on an accumulator row of another domain too, as R157's table has it
(DEDUCED against R139, log 121). -/
def State.rowAllowed (s : State) (dom : Nat) (sup : Bool) (core row : Nat) (store : Bool) : Bool :=
  let t := (s.core core).tag row
  let cls := tagClass t
  let same := match (s.core core).team (tagOwner t) with
    | some u => decide (s.domainOf u.rcb = dom)
    | none => false
  if same && (cls = 4 || cls = 5 || cls = 6) then true
  else if same && cls = 7 then !store
  else sup

/-- The rows that `n` bytes from an offset touch, checked under R157. -/
def State.rowsAllowed (s : State) (dom : Nat) (sup : Bool) (core off n : Nat) (store : Bool) : Bool :=
  (List.range ((off + n - 1) / 64 - off / 64 + 1)).all fun i =>
    1536 ≤ off / 64 + i || s.rowAllowed dom sup core (off / 64 + i) store

/-- The segment register n of a context. -/
def Ctx.seg (c : Ctx) (n : Nat) : BitVec 128 := Store.get 0 c.g n

def segLimit (g : BitVec 128) : Nat := field g 66 62
def segBase (g : BitVec 128) : Nat := field g 0 57

/-- Test 1 of R190. -/
def segRights (g : BitVec 128) (sup : Bool) (n : Need) : Bool :=
  g.getLsbD 63 && (!g.getLsbD 59 || sup) && (!n.rd || g.getLsbD 62) && (!n.wr || g.getLsbD 61) &&
  (!n.at_ || g.getLsbD 60)

/-- The checks of the core's pipeline on one access (R160 to R164, R188, R190, R192): the target, or the trap and
its rank in the order of R198. -/
def State.precheck (s : State) (a : W64) (n : Nat) (need : Need) : Except (Nat × Trap) Tgt :=
  if field a 48 16 = 0xFFFF then
    match apertureTarget s.hereId a with
    | none => .error (0, { cause := 8, addr := a })
    | some (core, off) =>
      if s.sys.retired.contains core ∨ !s.rowsAllowed s.myDomain s.me.supervisor core off n need.rowStore then
        .error (0, { cause := 8, addr := a })
      else if a.toNat % n ≠ 0 then .error (3, { cause := 7, addr := a })
      else .ok (.row core off)
  else
    let sn := field a 61 3
    let g := s.me.seg sn
    let o := field a 0 61
    let va := segBase g + o
    if !segRights g s.me.supervisor need then .error (1, { cause := 9, detail := sn, addr := a })
    else if segLimit g < o + n then .error (2, { cause := 10, detail := sn, addr := a })
    else if (need.natural ∨ n = 64) ∧ va % n ≠ 0 then .error (3, { cause := 7, addr := a })
    else if va / 2 ^ 21 ≠ (va + n - 1) / 2 ^ 21 then .error (3, { cause := 7, addr := a })
    else .ok (.glob va)

/-- One lane's access: its lane and its generic address. -/
abbrev LaneAddr := Nat × W64

def laneBit (l : Nat) : BitVec 16 := BitVec.ofNat 16 (2 ^ l)

/-- The first cause that any lane meets, its lanes and its lowest lane's address (R198, R418). -/
def firstCause (faults : List (Nat × Nat × Trap)) : Option Trap :=
  match faults.foldl (fun (m : Option Nat) f => match m with
      | none => some f.2.1
      | some r => some (min r f.2.1)) none with
  | none => none
  | some r =>
    let l := faults.filter fun f => f.2.1 = r
    match l.head? with
    | none => none
    | some f => some { f.2.2 with lanes := some (l.foldl (fun m f => m ||| laneBit f.1) 0) }

/-- A target after translation: pieces of a row or of physical memory. -/
inductive Place1 where
  | row (core off n : Nat)
  | phys (pa va n : Nat)
  deriving DecidableEq, Repr

/-- Pieces of a global access: one, or two at a sub-page boundary (R192). -/
def pieceSplit (va n : Nat) : List (Nat × Nat) :=
  if va / 1024 = (va + n - 1) / 1024 then [(va, n)]
  else let k := 1024 - va % 1024; [(va, k), (va + k, n - k)]

/-- A comparator stopped the slot at this instruction, and does not match it again (R455). -/
def PcSlot.skips (p : PcSlot) (n : Nat) : Bool := p.skip.1 = p.pc && p.skip.2.contains n

/-- The slot stopped by a comparator. -/
def PcSlot.skipping (p : PcSlot) (n : Nat) : PcSlot :=
  { p with skip := (p.pc, n :: (if p.skip.1 = p.pc then p.skip.2 else [])) }

/-- One watchpoint of the turn's context on an access (R454, R455): the comparator's number and its action. -/
def Ctx.watchHit (c : Ctx) (i n : Nat) (need : Need) (lanes : List LaneAddr) : Option (Nat × Nat × Trap) :=
  let w := Store.get 0 c.wp i
  let action := field w 125 3
  let kind := field w 123 2
  let base := field w 0 64
  let len := 2 ^ field w 118 5
  let hitKind := (kind = 1 && need.rd) || (kind = 2 && need.wr) || (kind = 3 && (need.rd || need.wr))
  let hits := lanes.filter fun l => base < l.2.toNat + n && l.2.toNat < base + len
  if 1 ≤ action && action ≤ 6 && hitKind && !c.curSlot.skips (4 + i) then
    match hits.head? with
    | some h => some (4 + i, action,
        { cause := 19, detail := i + (if need.wr && kind ≠ 1 then 16 else 0), addr := h.2,
          lanes := some (hits.foldl (fun m l => m ||| laneBit l.1) 0) })
    | none => none
  else none

/-- The lowest-numbered watchpoint of the turn's context that matches one of an instruction's accesses, each of them its
size, its kind and its lanes. -/
def Ctx.watchMatch (c : Ctx) (gs : List (Nat × Need × List LaneAddr)) : Option (Nat × Nat × Trap) :=
  if c.handler then none
  else (List.range 4).findSome? fun i => gs.findSome? fun g => c.watchHit i g.1 g.2.1 g.2.2

/-- Halt scopes by action (R454). -/
def actionScope : Nat → HaltScope
  | 2 => .context
  | 3 => .team
  | 4 => .core
  | 5 => .cluster
  | _ => .package

/-- The cores of the module that hold something. -/
def State.knownCores (s : State) : List Nat := (s.hereId :: s.cores.map (·.1)).dedup

/-- Removes the waiter entries of a context from every core of its cluster (R172). -/
def dropWaiters (id : CtxId) : M Unit := do
  for k in (← get).knownCores do
    if clusterOf k = clusterOf id.core then
      if (← getCore k).waiters.any (·.ctx = id) then
        modCore k fun c => { c with waiters := c.waiters.filter (·.ctx ≠ id) }

/-- A wait given up: what it has performed stays, and its instruction issues the rest again (R172, R456). -/
def Progress.pause (p : Progress) : Progress := 
  { p with active := false, reqs := [], met := [], pops := Option.none, kind := {}, backoff := 16, nextCheck := 0, missed := [] }

/-- A wait given up by pre-emption: a bounded load that waits for a refresh is completed by a read at the point of
coherence (09_sharing.md R254). -/
def Progress.leave (p : Progress) : Progress :=
  { p.pause with tok := if p.active && !p.old.isEmpty && p.tok.isNone then some true else p.tok }

/-- The same for the waits of slots in the divergence stack. -/
def pauseStacked (m : Store (Option Stacked)) : Store (Option Stacked) :=
  m.map fun x => (x.1, x.2.map fun e => { e with prog := e.prog.pause })

/-- A die's reserve and its list of the starved are left by an asker. -/
def dropClaim (who : Asker) : M Unit := do
  let n := siteOfCore who.core
  let t := getSiteState (← get) n
  if t.granted = some who || t.starving.any fun x => x.who = who then
    modSite n fun t => { t with granted := (if t.granted = some who then none else t.granted),
                                starving := t.starving.filter fun x => x.who ≠ who }

/-- A context gives up the grant of its die's reserve and its wait for a frame. -/
def dropGrant (id : CtxId) (c : Ctx) : M Unit :=
  if c.grant then dropClaim (.ctx id) else pure ()

/-- Halts a context with a cause: its waits, that for a frame among them, are abandoned (R456). -/
def haltCtx (id : CtxId) (cause : BitVec 8) : M Unit := do
  let c ← getCtx id
  if c.halted.isNone then
    dropWaiters id
    dropGrant id c
    modCtx id fun x => { x with halted := some cause, grant := false, starved := none, prog := x.prog.pause,
                                prog2 := x.prog2.pause, stacked := pauseStacked x.stacked }

/-- Halts every context of a core that a test selects, with a cause (R456). -/
def haltCore (core : Nat) (sel : Ctx → Bool) (cause : BitVec 8) : M Unit := do
  for x in (← getCore core).ctxs do
    if sel x.2 then haltCtx ⟨core, seatOf x.1⟩ cause

/-- Freezes or unfreezes the Shuttle and the pair of a core (R456, R282, R310). -/
def freezeCore (core : Nat) (b : Bool) : M Unit :=
  modCore core fun c => { c with frozen := b }

/-- The cores of a cluster. -/
def clusterCores (cl : Nat) : List Nat := (List.range 48).map (cl * 48 + ·)

/-- Halts the contexts in a scope around a context (R456). A package halt travels on the trigger tree, and gives that as its
cause (DEDUCED: log 116). -/
def haltScope (c : CtxId) (scope : HaltScope) (cause : BitVec 8) : M Unit := do
  let tag := (← getCtx c).team
  match scope with
  | .context => haltCtx c cause
  | .team => haltCore c.core (fun x => x.team = tag && x.present) cause
  | .core => haltCore c.core (·.present) cause
  | .cluster =>
    for k in (← get).knownCores do
      if clusterOf k = clusterOf c.core then
        haltCore k (·.present) cause
        freezeCore k true
  | .package =>
    for k in (← get).knownCores do
      haltCore k (·.present) 4
      freezeCore k true

/-- A comparator acts: a trap, or a halt before the instruction (R455). -/
def comparatorActs (m : Nat × Nat × Trap) : M Unit := do
  modMe fun c => c.modCur (·.skipping m.1)
  if m.2.1 = 1 then throw (.trap m.2.2)
  else
    let id ← myId
    haltCtx id 2
    haltScope id (actionScope m.2.1) 2
    hold .halt

/-- The watchpoints on the accesses of an instruction (R455). -/
def watchAll (gs : List (Nat × Need × List LaneAddr)) : M Unit := do
  match (← getMe).watchMatch gs with
  | some m => comparatorActs m
  | none => pure ()

/-- The watchpoints on one access. -/
def watchCheck (n : Nat) (need : Need) (lanes : List LaneAddr) : M Unit := watchAll [(n, need, lanes)]

/-- The aperture fault of an access that reaches only apertures (R178, R182). -/
def apertureOnly (n : Nat) (need : Need) (lanes : List LaneAddr) : M Unit := do
  watchCheck n need lanes
  let s ← get
  let out (l : LaneAddr) : Bool := field l.2 48 16 ≠ 0xFFFF
  if lanes.any out then
    let bad := lanes.filter fun l => out l || (match s.precheck l.2 n need with | .error (0, _) => true | _ => false)
    throw (.trap { cause := 8, addr := (bad.headD (0, 0)).2,
                   lanes := some (bad.foldl (fun m l => m ||| laneBit l.1) 0) })

/-! Fault-domain events (R415, R416, R237, R238). -/

/-- Writes one 16-byte entry to a ring with header at `base` of 2^log2n entries: the index, or none when full. The header's
LOG2N is left to software (DESIGN CHOICE, log 123). -/
def ringWrite (base log2n : Nat) (entry : BitVec 128) : M (Option Nat) := do
  let head ← readPhys base 8
  let tail ← readPhys (base + 8) 8
  if 2 ^ log2n ≤ (head + 2 ^ 64 - tail) % 2 ^ 64 then
    let d ← readPhys (base + 16) 8
    writePhys (base + 16) 8 (d + 1)
    return none
  else
    writePhys base 8 (head + 1)
    let i := head % 2 ^ log2n
    writePhys (base + 64 + 16 * i) 16 (entry.toNat % 2 ^ 127)
    writePhys (base + 64 + 16 * i) 16 (entry.toNat % 2 ^ 127 + 2 ^ 127)
    return some i

/-- Posts an event to the ring of a fault domain, and the active message of EVCORE (R415). -/
def postEvent (dom code core tag : Nat) (detail : W64) : M Unit := do
  let s ← get
  let log2n := s.rcbField dom 4 52 5
  if log2n = 0 then return ()
  let gid := (s.globalId core).toNat
  let entry : BitVec 128 := BitVec.ofNat 128 (code * 2 ^ 120 + gid * 2 ^ 98 + tag % 65536 * 2 ^ 82 + detail.toNat)
  match ← ringWrite (s.rcbField dom 4 6 46 * 64) log2n entry with
  | none => return ()
  | some i =>
    let ev := s.rcbField dom 5 32 22
    if ev ≠ 0 then
      sendTask core (BitVec.ofNat 22 ev)
        { entry := BitVec.ofNat 64 (s.rcbWord dom 6), arg0 := BitVec.ofNat 64 i, arg1 := 0,
          sender := s.globalId core, launch := 0, kind := 2 }

/-! Frame starvation (08_residency.md R228, R229). -/

/-- The budget MEM of a region allows a first touch of a page (15_work.md R395). -/
def State.memFits (s : State) (region : Nat) (fine : Bool) : Bool :=
  (s.ancestors region).all fun r =>
    let lim := s.rcbField r 15 0 32
    lim = 0xFFFFFFFF || s.rcbField r 15 32 32 + (if fine then 1 else 2048) ≤ lim

/-- The page, and whether it is a first touch that MEM refuses, of an engine's job. -/
def Ev.pageJob (s : State) : Ev → Option (PageJob × Bool)
  | .fill j => some (j, false)
  | .firstTouch j => some (j, !s.memFits j.region j.fine)
  | _ => none

/-- The same job, asked by someone of a team: a first touch is charged to the team's region (15_work.md R394). -/
def Ev.askedBy (s : State) (who : Asker) (tag : Nat) : Ev → Ev
  | .fill j => .fill { j with who := who }
  | .firstTouch j =>
    .firstTouch { j with who := who, region := (((s.core who.core).team tag).map (·.rcb)).getD j.region }
  | e => e

/-- The tables that a first touch must make, and whether a fine table is among them. -/
def State.tablesToMake (s : State) (j : PageJob) : Nat × Bool :=
  match s.walk j.rcb j.core j.va with
  | .miss _ _ level => if level = 4 then (0, false) else (level, j.fine)
  | _ => (0, false)

/-- An asker is frame-starved: noted once, with an event for the page's domain and its time limit. `tag`: its team;
`bound`: the pages its access has reached; `full`: it is MEM that refuses. -/
def starve (who : Asker) (tag : Nat) (bound : List Nat) (full : Bool) (j : PageJob) : M Unit := do
  let now := (← get).clk.toNat
  let n := siteOfCore j.core
  if (getSiteState (← get) n).starving.any fun x => x.who = who then
    modSite n fun t => { t with starving := t.starving.map fun x => if x.who = who then { x with bound := bound, full := full } else x }
  else
    modSite n fun t => { t with starving := t.starving ++ [{ who := who, since := now, bound := bound, full := full }] }
    if who = .ctx (← myId) then modMe fun c => { c with starved := some now, grant := true }
    postEvent j.rcb 1 j.core tag (BitVec.ofNat 64 j.va)
    let p := (← get).rcbField j.rcb 1 40 8
    if p ≠ 0 then atCycle (now + p * 65536 + 1) (.frameTimeout who)

/-- Someone's access asks for a page: the engine's job begins, with the grant of the reserve where the die has no free
frame, or the asker is starved (R228). -/
def askFor (who : Asker) (tag : Nat) (bound : List Nat) (ev0 : Ev) : M Unit := do
  let s ← get
  let ev := ev0.askedBy s who tag
  match ev.pageJob s with
  | none => pure ()
  | some (j, full) =>
    let st := siteOfCore j.core
    let t := getSiteState s st
    let first := ((t.starving.find? fun x => !x.full).map (·.who)).all (· = who)
    let mine := who = .ctx (← myId)
    let go : M Unit := do
      if t.starving.any fun x => x.who = who then
        modSite st fun t => { t with starving := t.starving.filter fun x => x.who ≠ who }
        if mine then modMe fun c => { c with starved := none }
      laterOnce ev
    let wants := s.tablesToMake j
    let supply := match ev with
      | .fill _ => s.canSupply st ((s.walk j.rcb j.core j.va).level = 4) 0 false
      | _ => s.canSupply st j.fine wants.1 wants.2
    if full then starve who tag bound true j
    else if supply then (if first || !(t.starving.any fun x => x.who = who && !x.full) then go else pure ())
    else if t.granted = some who then (if t.reserve.isEmpty then starve who tag bound false j else go)
    else if t.granted.isNone && first then
      if mine then modMe fun c => { c with grant := true }
      modSite st fun t => { t with granted := some who }
      go
    else starve who tag bound false j

/-- An access of the turn's context asks for a page. -/
def askPage (bound : List Nat) (ev : Ev) : M Unit := do
  askFor (.ctx (← myId)) (← getMe).team bound ev

/-- The pages that an access of the turn's context waits for are asked for; `bound`: those that it has reached. -/
def askPages (bound : List Nat) (jobs : List (Option Ev)) : M Unit :=
  jobs.forM fun j => match j with
    | some ev => askPage bound ev
    | none => pure ()

/-- The page that an engine's translation waits for is asked for by that engine; `bound`: those that it has reached. -/
def awaitPage (who : Asker) (tag : Nat) (bound : List Nat) (job : Option Ev) : M Unit :=
  match job with
  | some ev => askFor who tag bound ev
  | none => pure ()

/-! Path caches (R245). -/

/-- A path's cache. -/
def State.pathCache (s : State) : Path → Cache
  | .ls => s.here.lsCache
  | .const => (Store.get Cluster.reset s.clusters (clusterOf s.hereId)).constCache
  | .sampler => s.here.smpCache
  | .poc => []

def Path.geo : Path → Geometry
  | .ls => lsGeo
  | .const => constGeo
  | .sampler => smpGeo
  | .poc => lsGeo

/-- The path cache changed. -/
def State.modPath (s : State) (p : Path) (f : Cache → Cache) : State :=
  match p with
  | .ls => { s with here := { s.here with lsCache := f s.here.lsCache } }
  | .const =>
    let c := Store.get Cluster.reset s.clusters (clusterOf s.hereId)
    { s with clusters := Store.set .reset s.clusters (clusterOf s.hereId) { c with constCache := f c.constCache } }
  | .sampler => { s with here := { s.here with smpCache := f s.here.smpCache } }
  | .poc => s

/-- An access of system scope to a line behind a CXL port reads and writes the memory itself (R240). -/
def Via.direct (v : Via) (pa : Nat) : Bool := v.scope = 5 && tier2 pa

/-- The lines that `n` bytes touch. -/
def linesOf (pa n : Nat) : List Nat := (List.range ((pa + n - 1) / 64 + 1 - pa / 64)).map (pa / 64 + ·)

/-- An access that reaches the memory behind a port passes through the home slice, which writes its copies of the lines back
and keeps none (R240, R262; the slice keeping none is DEDUCED, log 109). -/
def State.passHome (s : State) (pa n : Nat) : State := (linesOf pa n).foldl (fun s line => s.unhome (64 * line)) s

/-- Bytes at the point of coherence of an access. -/
def State.viaBytes (s : State) (v : Via) (pa n : Nat) : List Byte :=
  if v.direct pa then Store.bytes (s.passHome pa n).mem pa n else s.pocBytes pa n

/-- Bytes written at the point of coherence of an access. -/
def State.viaPut (s : State) (v : Via) (pa : Nat) (bs : List Byte) : State :=
  if v.direct pa then
    let t := s.passHome pa bs.length
    { t with mem := Store.putBytes t.mem pa bs }.cleanAtoms pa bs.length
  else s.pocPutBytes pa bs

/-- The turn's core holds a line as owner: it serves its own accesses from its rows (R246). -/
def State.owns (s : State) (line : Nat) : Bool := Store.get 0 s.here.owned line ≠ 0

/-- The copy with which a path's cache answers a read of a line: one that it holds, unless it has been replaced there
since (a free value: the set of a line is not stated, log 8). -/
def State.pathAnswer (s : State) (v : Via) (line : Nat) : Option (List Byte) :=
  if v.cached && !s.owns line then
    match cacheFind (s.pathCache v.path) v.path.geo line with
    | some (_, l) =>
      if l.bytes = s.viaBytes v (64 * line) 64 || Config.pathStale s.ticks line then some l.bytes else none
    | none => none
  else none

/-- A line put into a path's cache as the turn's context fills it through `va` (R245). -/
def State.fillPath (s : State) (v : Via) (line va : Nat) : State :=
  let l : CLine := { line := line, rrv := v.reuse, dirty := 0, asn := s.domAsn s.myDomain, page := va / 1024,
                     fine := s.inFine s.hereId (s.domAsn s.myDomain) va, bytes := s.viaBytes v (64 * line) 64 }
  s.modPath v.path fun m => cachePut m v.path.geo l

/-- A read at the point of coherence also refills the path's line where the cache holds it, and a store updates the
load-store line; the line keeps the tags of the translation that filled it (R245). -/
def State.refillPath (s : State) (v : Via) (line : Nat) : State :=
  if cacheHas (s.pathCache v.path) v.path.geo line then
    s.modPath v.path fun m => cacheMod m v.path.geo line fun l => { l with rrv := 0, bytes := s.viaBytes v (64 * line) 64 }
  else s

/-- What an access does to the homes of its lines (R209, R240). -/
def State.atHome (s : State) (v : Via) (pa n : Nat) (brings atomic : Bool) : State :=
  if v.direct pa then s.passHome pa n else s.homedAll pa n v.reuse brings atomic

/-- One line read through a path that may answer from its cache. -/
def readLine (v : Via) (line va : Nat) : M (List Byte) := do
  let s ← get
  match s.pathAnswer v line with
  | some bs =>
    modify fun s => s.modPath v.path fun m => cacheHit m v.path.geo line
    return bs
  | none =>
    if v.path = .ls then countEvent 0x14
    modify fun s => (s.fillPath v line va).atHome v (64 * line) 64 true false
    return s.viaBytes v (64 * line) 64

/-- Physical bytes of a virtual address through a path. -/
def readPath (v : Via) (pa va n : Nat) : M (List Byte) := do
  let s ← get
  if (linesOf pa n).any s.owns then return s.pocBytes pa n
  else if v.cached && v.path ≠ .poc then
    let mut all : List Byte := []
    for line in linesOf pa n do
      all := all ++ (← readLine v line va)
    return (all.drop (pa % 64)).take n
  else
    modify fun s => ((linesOf pa n).foldl (fun s line => s.refillPath v line) s).atHome v pa n true false
    return s.viaBytes v pa n

/-- Removes from every path cache that serves a core of a cluster the lines that a test selects (R226, R245;
16_traps.md R442). -/
def dropLines (cl : Nat) (p : CLine → Bool) : M Unit := do
  modCluster cl fun c => { c with constCache := cacheDrop c.constCache p }
  for k in (← get).knownCores do
    if clusterOf k = cl then
      modCore k fun c => { c with lsCache := cacheDrop c.lsCache p, smpCache := cacheDrop c.smpCache p,
                                  tileCache := cacheDrop c.tileCache p }

/-- The lines of a core's load-store cache that bytes which an engine of the core has written lie in are gone: what
observes the engine reads its bytes (R260, R261). -/
def engineWrote (core pa n : Nat) : M Unit :=
  modCore core fun c =>
    if c.lsCache.isEmpty then c
    else { c with lsCache := cacheDrop c.lsCache fun l => (linesOf pa n).contains l.line }

/-! Machine checks (R148, R243, R420). -/

/-- A piece with poison in it: in its rows or atoms, or in the rows that hold its bytes as their owner's. -/
def Place1.poisoned (s : State) : Place1 → Bool
  | .row core off n =>
    (List.range ((off + n - 1) / 64 - off / 64 + 1)).any fun i => tagPoison ((s.core core).tag (off / 64 + i))
  | .phys pa _ n =>
    (linesOf pa n).any fun line =>
      match s.forwarded (64 * line) with
      | some (core, off) => tagPoison ((s.core core).tag (off / 64))
      | none => s.poison.any fun a => a / 2 = line && a * 32 < pa + n && pa < a * 32 + 32

/-- Poison that a read of a piece meets: a copy in a path's cache has none. -/
def Place1.strikes (s : State) (v : Via) (q : Place1) : Bool :=
  q.poisoned s &&
  (match q with
   | .row _ _ _ => true
   | .phys pa _ n => (linesOf pa n).any fun line => (s.pathAnswer v line).isNone)

def Place1.isRow : Place1 → Bool
  | .row _ _ _ => true
  | .phys _ _ _ => false

/-- The machine check of the lanes whose reads meet poison: found before confirmation in a row, after it in memory. -/
def machineCheck (v : Via) (lanes : List LaneAddr) (got : List (Nat × List Place1)) : M Unit := do
  let s ← get
  let bad (row : Bool) : List (Nat × List Place1) :=
    got.filter fun g => g.2.any fun q => q.isRow = row && q.strikes s v
  let raise (row : Bool) : M Unit :=
    match bad row with
    | [] => pure ()
    | b :: rest =>
      throw (.trap { cause := 15, detail := if row then 0 else 1, addr := ((lanes.find? (·.1 = b.1)).getD (0, 0)).2,
                     lanes := some (rest.foldl (fun m g => m ||| laneBit g.1) (laneBit b.1)), imprecise := !row })
  raise true
  raise false

/-- The generic address of a row of the turn's core in its local aperture (06_scratchpad.md R160). -/
def localAddrOf (off : Nat) : W64 := BitVec.ofNat 64 (0xFFFFFF0000000000 + off)

/-- A read of rows of the turn's core by an instruction whose operands give no generic address. -/
def rowCheck (off n : Nat) : M Unit := do
  let s ← get
  machineCheck { path := .poc } [(0, localAddrOf off)] [(0, [.row s.hereId off n])]

/-- The first address of the page that a miss is to: a fine one where the core's selectors say so (R196). -/
def State.missPage (s : State) (q : MissReq) : Nat :=
  if s.inFine q.core q.asn q.va then q.va / 2 ^ 10 * 2 ^ 10 else q.va / 2 ^ 21 * 2 ^ 21

/-- Two misses of a cluster to one page with one ASN are one (R200). -/
def State.oneMiss (s : State) (q r : MissReq) : Bool := q.asn = r.asn && q.root = r.root && s.missPage q = s.missPage r

/-- An access of the turn's context misses the TLB: where a walk of the page is under way it waits for it; where the
cluster's queue of 32 misses is full it is offered again after 16 cycles (R200). -/
def offerMiss (why : Stall) (q : MissReq) : M Unit := do
  let s ← get
  let l := (Store.get Cluster.reset s.clusters (clusterOf s.hereId)).missq
  let now := s.clk.toNat
  if now < s.me.prog.nextCheck || l.any (s.oneMiss q) then hold why { agent := true, alone := true }
  if 32 ≤ l.length then
    modMe fun c => { c with prog := { c.prog with nextCheck := now + 16 } }
    hold why { agent := true, alone := true }

/-- Translation of an address for an access of the turn's context, which reports `why` while it waits; its bank counts its
miss in the TLB once (18_debug.md R465). -/
def translateMine (va : Nat) (u : Use) (fills : Bool := true) (why : Stall := .loadOp) : M Trans := do
  let s ← get
  let dom := s.myDomain
  let asn := s.domAsn dom
  let hit := tlbHit asn (s.inFine s.hereId asn va) va (u = .write)
  if ((Store.get Cluster.reset s.clusters (clusterOf s.hereId)).tlb.find? hit).isSome then
    translate dom s.hereId va u fills
  else
    let q : MissReq := { core := s.hereId, root := s.domRoot dom, asn := asn, va := va, write := u = .write }
    offerMiss why q
    let page := s.missPage q
    let again := s.me.prog.missed.contains page
    if !again then
      countEvent 0x13
      modMe fun c => { c with prog := { c.prog with missed := page :: c.prog.missed } }
    translate dom s.hereId va u fills again

/-- The home has forwarded accesses to the owner of a line that it has not performed: one of the turn's core comes after
them (R246). -/
def State.forwardsFirst (s : State) (pa : Nat) : Bool :=
  match s.forwarded pa with
  | none => false
  | some (core, _) => core ≠ s.hereId && s.pending.any fun e => match e with
    | .forwarded _ k r => k = core && homeCluster r.pa = homeCluster pa
    | _ => false

/-- An access of the turn's context waits while accesses of others must be performed first. -/
def awaitForwards (done : List (Nat × List Place1)) : M Unit := do
  let s ← get
  if done.any fun g => g.2.any fun q => match q with
      | .phys pa _ n => (linesOf pa n).any fun line => s.forwardsFirst (64 * line)
      | .row _ _ _ => false then
    hold .loadOp { agent := true, alone := true }

/-- Every check of an access of the turn's context on the lanes that act, in the order of R198: the pieces of each
lane, with nothing read or written. `quiet`: an access whose checks were made before, not counted again. `watched`:
the watchpoints have been looked at. -/
def access (n : Nat) (need : Need) (lanes : List LaneAddr) (quiet : Bool := false) (watched : Bool := false) :
    M (List (Nat × List Place1)) := do
  if !watched then watchCheck n need lanes
  let s ← get
  let pre := lanes.map fun l => (l.1, s.precheck l.2 n need)
  match firstCause (pre.filterMap fun p => match p.2 with | .error e => some (p.1, e.1, e.2) | .ok _ => none) with
  | some t => throw (.trap t)
  | none => pure ()
  let mut done : List (Nat × List Place1) := []
  let mut bad : List (Nat × Nat × Trap) := []
  let mut waits : List (Option Ev) := []
  for p in pre do
    match p.2 with
    | .error _ => pure ()
    | .ok (.row core off) => done := done ++ [(p.1, [.row core off n])]
    | .ok (.glob va) =>
      let mut ps : List Place1 := []
      for q in pieceSplit va n do
        match ← translateMine q.1 (if need.wr then .write else .read) with
        | .ok pa =>
          -- a read-modify-write also needs RD
          ps := ps ++ [.phys pa q.1 q.2]
        | .page d => bad := bad ++ [(p.1, 4, { cause := 11, detail := d, addr := BitVec.ofNat 64 q.1 })]
        | .wait j => waits := waits ++ [j]
      if need.rd && need.wr then
        for q in pieceSplit va n do
          match ← translateMine q.1 .read with
          | .page d => bad := bad ++ [(p.1, 4, { cause := 11, detail := d, addr := BitVec.ofNat 64 q.1 })]
          | _ => pure ()
      done := done ++ [(p.1, ps)]
  match firstCause bad with
  | some t => throw (.trap t)
  | none => pure ()
  if waits.isEmpty then
    awaitForwards done
    let globals := (pre.filter fun p => match p.2 with | .ok (.glob _) => true | _ => false).length
    if 0 < globals && !quiet then countEvent 0x12 globals
    match need.via with
    | some v => if need.rd then machineCheck v lanes done
    | none => pure ()
    return done
  else
    let reached := done.flatMap fun l => l.2.filterMap fun q => match q with
      | .phys pa _ _ => some pa
      | .row _ _ _ => none
    askPages reached waits
    hold .loadOp { agent := true, alone := true }

/-! Reading and writing the pieces. -/

/-- Bytes of one piece. -/
def readPlace (v : Via) (q : Place1) : M (List Byte) := do
  match q with
  | .row core off n =>
    if 1024 ≤ off then return Store.bytes (← getCore core).rows off n else return (← get).rowBytes core off n
  | .phys pa va n => readPath v pa va n

/-- The number that a lane's pieces hold. -/
def readPieces (v : Via) (ps : List Place1) : M Nat := do
  let mut bs : List Byte := []
  for q in ps do
    bs := bs ++ (← readPlace v q)
  return bytesToNat bs

/-- The replica entry of a core that covers an address of a domain (R254): its number and the row offset. -/
def State.replicaEntry (s : State) (core va : Nat) : Option (Nat × Nat) :=
  (List.range 32).findSome? fun i =>
    let w := (Store.get Prick.reset (s.core core).pricks i).word
    let base := field w 0 51 * 64
    if field w 78 2 = 2 ∧ base ≤ va ∧ va < base + 64 * field w 65 11 then
      some (i, 64 * field w 54 11 + (va - base))
    else none

/-- Bytes stored by a context of the turn's core written to the replicas it holds of them (R252). -/
def writeReplica (va : Nat) (bs : List Byte) : M Unit :=
  (List.range bs.length).forM fun j => do
    match (← get).replicaEntry (← get).hereId (va + j) with
    | some (_, off) => modHere fun c => { c with rows := Store.set 0 c.rows off (bs.getD j 0) }
    | none => pure ()

/-- The lines of the turn's load-store cache that rows of a core hold as owner are gone when the rows are written: the
context's later loads see the store (R186). -/
def State.ownedWritten (s : State) (core off n : Nat) : State :=
  if s.here.lsCache.isEmpty then s
  else
    let lines := ((s.core core).owned.filter fun x => x.2 - 1 < off + n && off < x.2 - 1 + 64).map (·.1)
    { s with here := { s.here with lsCache := cacheDrop s.here.lsCache fun l => lines.contains l.line } }

/-- Stores bytes to one piece as a store of the turn's context: at the PoC, in the load-store line of its core if
present, and in a replica that the core holds (R245, R252). -/
def writePlace (v : Via) (q : Place1) (bs : List Byte) : M Unit := do
  match q with
  | .row core off _ => modify fun s => (s.putRowBytes core off bs).ownedWritten core off bs.length
  | .phys pa va _ =>
    modify fun s => s.viaPut v pa bs
    modify fun s => ((linesOf pa bs.length).foldl (fun s line => s.refillPath { v with path := .ls } line) s).atHome v pa
      bs.length false false
    writeReplica va bs

def Place1.len : Place1 → Nat
  | .row _ _ n => n
  | .phys _ _ n => n

/-- A number stored over a lane's pieces, lowest bytes first. -/
def writePieces (v : Via) (ps : List Place1) (n val : Nat) : M Unit := do
  let mut bs := natToBytes n val
  for q in ps do
    writePlace v q (bs.take q.len)
    bs := bs.drop q.len

/-- The homes of an atomic's pieces serve it (08_residency.md R221). -/
def atomicAtHome (v : Via) (ps : List Place1) : M Unit :=
  ps.forM fun q => match q with
    | .phys pa _ n => modify fun s => s.atHome v pa n true true
    | .row _ _ _ => pure ()

end Sys2Proof.Machine
end

