-- ==== Sys2Proof/Machine/Ops.lean ====
section
/-! DEFINITION. Operations that the meanings share: program counters, guards, arrivals at headers, the landing of
results, the end of contexts and teams, fault-domain events, and taking a trap (02_clauses.md, 03_contexts.md,
15_work.md, 16_traps.md). -/

namespace Sys2Proof.Machine

/-! Program counters (R29). -/

def pcIndex (pc : W64) : Nat := field pc 60 4

/-- The virtual address CP × 8. -/
def pcAddr (pc : W64) : W64 := pc &&& 0x01FFFFFFFFFFFFF8

/-- The program counter at index `i` of the clause at an address. -/
def mkPc (addr : W64) (i : Nat) : W64 := (addr &&& 0x01FFFFFFFFFFFFF8) ||| (BitVec.ofNat 64 i <<< 60)

/-- CP × 8 + 8 × a signed count of words (R34). -/
def wordsFrom (pc : W64) (off : W64) : W64 := pcAddr pc + (off <<< 3)

/-! PC slots. -/

def modSlot (f : PcSlot → PcSlot) : M Unit := modMe (·.modCur f)

/-- Hands the issue to slot `n`; the progress and the stall of each slot's instruction stay its own. -/
def Ctx.turnTo (c : Ctx) (n : Nat) : Ctx :=
  if c.cur = n then c
  else { c with cur := n, prog := c.prog2, prog2 := c.prog, stall := c.stall2, stall2 := c.stall }

/-- The stack entry in use that holds a lane. -/
def Ctx.stackedAt (c : Ctx) (lane : Nat) : Option (Nat × Stacked) :=
  (List.range c.dsp).findSome? fun i =>
    match Store.get none c.stacked i with
    | some e => if e.lanes.getLsbD lane then some (i, e) else none
    | none => none

/-- Changes the progress of the instruction of the slot, or of the stack entry, that holds a lane. -/
def Ctx.modProg (c : Ctx) (lane : Nat) (f : Progress → Progress) : Ctx :=
  if c.otherSlot.live && c.otherSlot.mask.getLsbD lane then { c with prog2 := f c.prog2 }
  else if c.curSlot.mask.getLsbD lane then { c with prog := f c.prog }
  else match c.stackedAt lane with
    | some (i, e) => { c with stacked := Store.set none c.stacked i (some { e with prog := f e.prog }) }
    | none => { c with prog := f c.prog }

def Ctx.isWave (c : Ctx) : Bool := c.kind = .wave

/-- Slots in use. -/
def Ctx.live (c : Ctx) : Nat := (if c.slots.1.live then 1 else 0) + (if c.slots.2.live then 1 else 0)

def headerClass (h : W64) : Nat := field h 52 4
def headerCount (h : W64) : Nat := field h 48 4

/-- The class of the clause that a slot runs. -/
def PcSlot.cls (p : PcSlot) : Nat :=
  match p.buf with
  | some b => headerClass b.header
  | none => p.cclass.toNat

/-- COUNT of the clause that a slot runs, or of the one discarded there. -/
def PcSlot.count (p : PcSlot) : Nat :=
  match p.buf with
  | some b => headerCount b.header
  | none => if p.refetch then p.ccount.toNat else 0

/-- Discards the clause buffer and keeps the class (R31) and COUNT (R424). -/
def PcSlot.discard (p : PcSlot) : PcSlot :=
  match p.buf with
  | some b => { p with buf := none, cclass := BitVec.ofNat 3 (headerClass b.header),
                       ccount := BitVec.ofNat 4 (headerCount b.header), refetch := true }
  | none => p

/-- Discards the buffers of both slots. -/
def Ctx.discard (c : Ctx) : Ctx := { c with slots := (c.slots.1.discard, c.slots.2.discard) }

/-- A slot at a header, to be fetched (R28, R49). -/
def PcSlot.at_ (p : PcSlot) (addr : W64) : PcSlot :=
  { p with pc := mkPc addr 0, buf := none, refetch := false, waiting := false, jpc := 0 }

/-! Guards (R35). -/

/-- A predicate register; p0 is true in every lane (R94). -/
def Ctx.pred (c : Ctx) (n : Nat) : BitVec 16 := if n = 0 then 0xFFFF else Store.get 0 c.p n

/-- The lanes of the issuing slot on which a guard is true; bit 0 stands for a barrel thread. -/
def Ctx.guardLanes (c : Ctx) (g : Guard) : BitVec 16 :=
  let p := c.pred (field g 0 3)
  c.curSlot.mask &&& (if g.getLsbD 3 then ~~~p else p)

/-- The numbers of the lanes of a set, ascending. -/
def lanesOf (m : BitVec 16) : List Nat := (List.range 16).filter fun l => m.getLsbD l

/-- The lowest lane of a set. -/
def lowLane (m : BitVec 16) : Nat := (lanesOf m).headD 0

/-! Flags of MODE (R121, R125, R127). -/

/-- Flags raised into MODE and into the cluster's HIST. -/
def State.raised (s : State) (f : BitVec 5) : State :=
  if f = 0 then s else
  let cl := clusterOf s.hereId
  let k := Store.get Cluster.reset s.clusters cl
  { s with me := { s.me with mode := s.me.mode ||| f.setWidth 32 },
           clusters := Store.set Cluster.reset s.clusters cl { k with hist := k.hist ||| f } }

/-- Raises flags into MODE and into the cluster's HIST. -/
def raiseFlags (f : BitVec 5) : M Unit := modify fun s => s.raised f

/-! Results that land later (R41, R91). -/

/-- A register as a number, for the scoreboard: x, v, p and k. -/
def xReg (n : Nat) : Nat := n
def vReg (n : Nat) : Nat := 32 + n
def pReg (n : Nat) : Nat := 64 + n
def kReg (n : Nat) : Nat := 128 + n

def RegWrite.reg : RegWrite → Nat
  | .x n _ => xReg n
  | .v n _ _ => vReg n
  | .p n _ _ => pReg n
  | .k _ n _ _ => kReg n
  | .flags _ | .latest _ _ | .row _ _ => 1024

/-- A uniform write lands before another: in an earlier cycle, or before it in the same one (R91). -/
def UniWrite.before (a b : UniWrite) : Bool := a.at_ < b.at_ || (a.at_ = b.at_ && a.rank < b.rank)

/-- A uniform write among those that have not landed, behind the ones that land no later. -/
def UniWrite.insert (w : UniWrite) : List UniWrite → List UniWrite
  | [] => [w]
  | x :: l => if w.before x then w :: x :: l else x :: w.insert l

/-- The uniform writes of a core that land in a cycle before `now` have landed (R91). -/
def Core.landUni (c : Core) (now : Nat) : Core :=
  if c.uniDue.isEmpty then c
  else { c with uni := (c.uniDue.filter (·.at_ < now)).foldl (fun m w => Store.set 0 m w.reg w.val) c.uni,
                uniDue := c.uniDue.filter fun w => !(w.at_ < now) }

/-- The write of a uniform register by the turn's context: with latency L it lands L − 1 cycles after this one (R91; log
106). -/
def State.uniWrite (s : State) (half n : Nat) (val : W32) (lat : Nat) : UniWrite :=
  { at_ := s.clk.toNat + (lat - 1), rank := if lat ≠ 1 then 0 else if s.me.isWave then 1 else 2, reg := 512 * half + n,
    val := val, by_ := s.seat }

/-- One register write of the turn's context performed. -/
def State.write (s : State) (w : RegWrite) : State :=
  match w with
  | .x n val => { s with me := { s.me with x := Store.set 0 s.me.x n val } }
  | .v n l val => { s with me := { s.me with v := Store.set 0 s.me.v (16 * n + l) val } }
  | .k h n val lat => { s with here := { s.here with uniDue := (s.uniWrite h n val lat).insert s.here.uniDue } }
  | .p n lanes bits =>
    if n = 0 then s else
    { s with me := { s.me with p := Store.set 0 s.me.p n ((Store.get 0 s.me.p n &&& ~~~lanes) ||| (bits &&& lanes)) } }
  | .flags f => s.raised f
  | .latest pa v => { s with here := s.here.heard pa v }
  | .row off bs => (s.putRowBytes s.hereId off bs).ownedWritten s.hereId off bs.length

/-- Register writes performed in order. -/
def State.writes (s : State) (ws : List RegWrite) : State := ws.foldl State.write s

def applyAll (ws : List RegWrite) : M Unit := modify fun s => s.writes ws

/-- A register write that lands on arrival. -/
def RegWrite.late : RegWrite → RegWrite
  | .k h n val _ => .k h n val 0
  | w => w

/-- Lands the results that a test selects, in issue order. -/
def landIf (p : Pend → Bool) : M Unit := do
  let c ← getMe
  let (now, rest) := c.pend.partition p
  setMe { c with pend := rest }
  now.forM fun q => applyAll (q.writes.map RegWrite.late)

/-- Waits until every outstanding result of the turn's context has landed. -/
def awaitAll (r : Stall) : M Unit := do if !(← getMe).pend.isEmpty then hold r

/-- Records a result that lands later, in a window of `la` instructions, from a unit that keeps the order of its
results or from none (R116). `addr`: the address of the access that it comes from. -/
def pendResult (la : Nat) (load : Bool) (ws : List RegWrite) (unit : Nat := 0) (addr : W64 := 0) : M Unit :=
  modify fun s =>
    { s with me := { s.me with
        pend := s.me.pend ++ [{ tok := s.me.tok, writes := ws, window := la, load := load, unit := unit, addr := addr,
                                since := s.clk.toNat }],
        tok := s.me.tok + 1 } }

/-! Arrival at a header (R49, R78). -/

/-- One level of the loop-end check: the level's registers after it, and whether control goes to its start. -/
def loopCheck (addr : W64) (le : W64) (lc : W32) : Option (W32 × Bool) :=
  if lc ≠ 0 ∧ pcAddr le = pcAddr addr then some (lc - 1, decide (lc - 1 ≠ 0)) else none

/-- A loop end met where the wave has diverged. -/
def Ctx.diverged (c : Ctx) : Bool := c.isWave && (1 < c.live || c.dsp ≠ 0)

/-- The check of the outer level at a header: the context after it, and whether it traps. -/
def Ctx.arrivedOuter (c : Ctx) (addr : W64) : Ctx × Bool :=
  match loopCheck addr c.le.1 c.lc.1 with
  | some (n, again) =>
    if c.diverged then (c, true) else
    let c1 : Ctx := { c with lc := (n, c.lc.2) }
    (if again then c1.modCur (·.at_ c1.ls.1) else c1, false)
  | none => (c, false)

/-- The issuing slot at the header at `addr`, by fall-through or a taken transfer, after the loop-end checks of both
levels, and whether a check traps. -/
def Ctx.arrived (c : Ctx) (addr : W64) : Ctx × Bool :=
  let c0 := c.modCur (·.at_ addr)
  if c0.handler then (c0, false) else
  match loopCheck addr c0.le.2 c0.lc.2 with
  | some (n, again) =>
    if c0.diverged then (c0, true) else
    let c1 : Ctx := { c0 with lc := (c0.lc.1, n) }
    if again then (c1.modCur (·.at_ c1.ls.2), false) else c1.arrivedOuter addr
  | none => c0.arrivedOuter addr

/-- The context after the instruction at its pc: at the next index, or at the next sequential clause (R28, R24). -/
def Ctx.stepped (c : Ctx) : Ctx × Bool :=
  let p := c.curSlot
  if pcIndex p.pc < p.count then (c.modCur fun p => { p with pc := mkPc p.pc (pcIndex p.pc + 1) }, false)
  else c.arrived (wordsFrom p.pc (BitVec.ofNat 64 (p.count + 2)))

/-- Puts the turn's context where it goes on; a loop-end check may trap (R78). -/
def goOn (r : Ctx × Bool) : M Unit := do
  setMe r.1
  if r.2 then throw (.trap { cause := 5, header := true })

/-- Arrival of the issuing slot at a header. -/
def arrive (addr : W64) : M Unit := do goOn ((← getMe).arrived addr)

/-- Goes on after the instruction at the pc. -/
def advance : M Unit := do goOn (← getMe).stepped

/-! The end of contexts and teams (R85, R408, R410). -/

/-- The frame and first row of a wave frame of a team (R152). -/
def Team.frameRow (t : Team) (frame : Nat) : Option Nat := (t.frames.find? (·.1 = frame)).map (·.2)

/-- Frees the rows of a wave frame: OWNER and CLASS free (R152). -/
def Core.freeRows (c : Core) (first n : Nat) : Core :=
  (List.range n).foldl (fun c i => c.putTag (first + i) (freeTag (c.tag (first + i)))) c

/-- A context ends: its slot or frame becomes free (R85). The team's exit begins with its last context (R408). -/
def endContext (id : CtxId) : M Unit := do
  let c ← getCtx id
  dropWaiters id
  dropGrant id c
  -- results for uniform registers that are no loads' land (R85, R91)
  asCtx id (landIf fun p => !p.load)
  modCtx id fun _ => .blank
  modCore id.core fun (k : Core) =>
    let h := k.half.map fun h => if h.team = c.team ∧ h.driver = some id.seat then { h with driver := none } else h
    { k with half := h }
  match (← getCore id.core).team c.team with
  -- a record that waits for a free slot may start (12_mesh.md R338)
  | none => laterOnce (.placement id.core)
  | some t =>
    match id.seat with
    | .frame n =>
      match t.frameRow n with
      | some r =>
        modCore id.core fun k => k.freeRows r 44
        modTeam id.core t.tag fun t => { t with frames := t.frames.filter (·.1 ≠ n) }
      | none => pure ()
    | .slot _ => pure ()
    modTeam id.core t.tag fun t => { t with batches := t.batches ++ c.sealed }
    laterOnce (.placement id.core)
    if (← getCore id.core).ctxs.any fun x => x.2.present && x.2.place ≠ .active then laterOnce (.promotion id.core)
    if ((← getCore id.core).ctxs.all fun x => !(x.2.present && x.2.team == t.tag)) then
      modTeam id.core t.tag fun t => { t with exiting := true }
      laterOnce (.exit id.core (BitVec.ofNat 16 t.tag))

/-- Kills a team (R410, R431). -/
def killTeam (core tag cause : Nat) : M Unit := do
  match (← getCore core).team tag with
  | none => pure ()
  | some t =>
    modTeam core tag fun t => { t with waitch := false, exiting := true }
    for x in (← getCore core).ctxs do
      if x.2.present && x.2.team = tag then endContext ⟨core, seatOf x.1⟩
    let s ← get
    postEvent (s.domainOf t.rcb) 2 core tag (BitVec.ofNat 64 cause)
    laterOnce (.exit core (BitVec.ofNat 16 tag))

/-- Kills the team of the turn's context; an active-message thread, or a context of no team, ends alone (R423,
R427). -/
def killMine (cause : Nat) : M Unit := do
  let s ← get
  match s.myTeam with
  | some t => killTeam s.hereId t.tag cause
  | none =>
    let id ← myId
    if s.seat.isSome then endContext id else setMe .blank
    postEvent s.sys.supRcb 2 s.hereId 0 (BitVec.ofNat 64 cause)

/-! Taking a trap (R420 to R424). -/

/-- TCAUSE at entry (R424). -/
def tcauseWord (c : Ctx) (t : Trap) (paired : Bool) : W64 :=
  let p := c.curSlot
  let clause := (p.buf.isSome || p.refetch) && !t.header
  BitVec.ofNat 64
    (field c.mode 0 14 * 2 ^ 32 + (if t.header then 2 ^ 31 else 0) + (if clause then p.count * 2 ^ 27 else 0) +
     (if clause then p.cls % 8 * 2 ^ 24 else 0) + (if paired then 2 ^ 23 else 0) + p.rstk.length * 2 ^ 19 +
     c.cur * 2 ^ 18 + (if t.imprecise then 2 ^ 17 else 0) + t.detail % 256 * 2 ^ 8 + t.cause % 256)

/-- The trapped context after entry (R422): its registers saved, in the handler of `tvec`. -/
def Ctx.enterTrap (c : Ctx) (tvec : W64) (t : Trap) (paired : Bool) (fault : BitVec 16) : Ctx :=
  let p := c.curSlot
  let q := c.otherSlot
  let cls : Option (BitVec 3) := match p.buf with
    | some b => some (BitVec.ofNat 3 (headerClass b.header))
    | none => if p.refetch then some p.cclass else none
  let m0 := if c.slots.1.live then c.slots.1.mask else 0
  let m1 := if c.slots.2.live then c.slots.2.mask else 0
  let c1 : Ctx :=
    { c with
        tpc0 := p.pc, tpc1 := (if c.isWave && q.live then q.pc else 0), tcause := tcauseWord c t paired,
        taddr := t.addr,
        tmask := fault.setWidth 64 ||| (if c.isWave then (m0.setWidth 64 <<< 16) ||| (m1.setWidth 64 <<< 32) else 0x10000),
        mode := 0x100, handler := true, parked := none, prog := .none, trapping := none, asked := none, yielded := false, starved := none,
        grant := false, stall := .issued, stacked := pauseStacked c.stacked,
        kept := some { slot := c.cur, cls := cls, mask := p.mask, depth := p.depth, waiting := p.waiting, pc := p.pc,
                       done := c.prog.done, tok := if c.prog.active then c.prog.tok else none,
                       check := t.header && t.cause = 5 } }
  (c1.discard).modCur fun p => { (p.at_ tvec) with mask := fault, depth := 0, jpc := p.jpc }

/-- Takes a trap in the turn's context: entry, or a kill where there is no handler to enter. -/
def takeTrap (t : Trap) (paired : Bool) (lanes : BitVec 16) : M Unit := do
  countEvent 0x17
  let c ← getMe
  let tvec := (← getHere).tvec
  if c.handler then killMine 33
  else if !tvec.getLsbD 63 then killMine t.cause
  else
    dropWaiters (← myId)
    dropGrant (← myId) c
    setMe (c.enterTrap tvec t paired (if c.isWave then t.lanes.getD lanes else 1))
    if c.stepping.isSome || c.halted = some 5 then
      modMe fun c => { c with stepping := none, stepWord := none, halted := some 6 }

/-- A trap of the turn's context enters once the other slot's wait on another agent has ended and every outstanding result
has landed; until then it waits, reporting trap entry (R421). -/
def raiseTrap (t : Trap) (paired : Bool) (lanes : BitVec 16) : M Unit := do
  let c ← getMe
  if c.prog2.kind.agent || !c.pend.isEmpty then
    setMe { c with trapping := some { trap := t, paired := paired, lanes := lanes, slot := c.cur }, stall := .trapEntry }
  else takeTrap t paired lanes

end Sys2Proof.Machine
end

