-- ==== Sys2Proof/Machine/Operands.lean ====
section
/-! DEFINITION. Operand specifiers, what may stand in each role, reading of sources and writing of destinations,
streams and queue operands (02_clauses.md R38 and R39, 04_registers.md R88 to R100, 12_mesh.md R331). -/

namespace Sys2Proof.Machine

/-- What a specifier names (R38, R39). -/
inductive Op where
  | k (n : Nat)
  | prim (n : Nat)
  | pred (n : Nat)
  | zero | qi | qo | lid | cid | tid | dsp | clk
  | imm (v : W64)
  | sh (n : Nat)
  | md (n : Nat)
  | bad
  deriving DecidableEq, Repr

/-- The special operands of R39. -/
def specialOf : Nat → Op
  | 0 => .zero
  | 1 => .qi
  | 2 => .qo
  | 3 => .lid
  | 4 => .cid
  | 5 => .tid
  | 6 => .dsp
  | 7 => .clk
  | _ => .bad

/-- A specifier decoded (R38). -/
def opOf (o : Opnd) : Op :=
  if o.getLsbD 9 then .k (field o 0 9)
  else match field o 6 3 with
    | 0 => if o.getLsbD 5 then .bad else .prim (field o 0 5)
    | 1 => if field o 3 3 = 0 then .pred (field o 0 3) else .bad
    | 2 => specialOf (field o 0 6)
    | 3 => .imm ((o.extractLsb' 0 6).signExtend 64)
    | 4 => if field o 4 2 = 0 then .sh (field o 0 4) else .bad
    | 5 => if field o 3 3 = 0 then .md (field o 0 3) else .bad
    | _ => .bad

/-! Streams (R96, R97). -/

/-- The stream that a primary register may be bound as: x24 to x27, or v28 to v31. -/
def streamIndex (wave : Bool) (n : Nat) : Option Nat :=
  if wave then (if 28 ≤ n ∧ n < 32 then some (n - 28) else none)
  else (if 24 ≤ n ∧ n < 28 then some (n - 24) else none)

/-- The binding of a primary register, if it has one; bindings are suspended in a handler (16_traps.md R423). -/
def Ctx.streamOf (c : Ctx) (n : Nat) : Option Stream :=
  if c.handler then none else
  match streamIndex c.isWave n with
  | some i => Store.get none c.streams i
  | none => none

def Stream.width (t : Stream) : Nat := 2 ^ field t.desc 192 3
/-- A stream's element accesses: plain, of scope self, with the descriptor's reuse (R96, R97). -/
def Stream.via (t : Stream) : Via := { plainLoad with reuse := field t.desc 197 2 }
def Stream.need (t : Stream) : Need := { plainNeed with via := some t.via }
def Stream.isWrite (t : Stream) : Bool := t.desc.getLsbD 195
def Stream.length (t : Stream) : Nat := field t.desc 128 32 * field t.desc 160 32

/-- Address of element e (R96). -/
def descAddr (desc : BitVec 256) (e : Nat) : W64 :=
  let n0 := field desc 128 32
  let s0 : W64 := (desc.extractLsb' 64 32).signExtend 64
  let s1 : W64 := (desc.extractLsb' 96 32).signExtend 64
  desc.extractLsb' 0 64 + BitVec.ofNat 64 (e / n0) * s1 + BitVec.ofNat 64 (e % n0) * s0

def Ctx.readStream (c : Ctx) (n : Nat) : Option Stream := (c.streamOf n).filter fun t => !t.isWrite
def Ctx.writeStream (c : Ctx) (n : Nat) : Option Stream := (c.streamOf n).filter (·.isWrite)

/-! Checks of R38 and R39. -/

/-- Uniform registers that a context may name: those of the team's declaration; all 512 in a handler (16_traps.md
R417); none without a team. -/
def State.kLimit (s : State) : Nat :=
  match s.myTeam with
  | some t => if s.me.handler then 512 else t.uniforms
  | none => 0

/-- The inbound queue of the turn's context; none in a handler (16_traps.md R423). -/
def State.myQi (s : State) : Option (Nat × InQueue) :=
  if s.me.handler then none else
  match s.me.qi, s.myTeam with
  | some n, some t => (Store.get none t.inq n).map fun q => (n, q)
  | _, _ => none

/-- `qi` may be named: bound, and of 32 bits for a wave (R99). -/
def State.qiOk (s : State) : Bool :=
  match s.myQi with
  | some (_, q) => !(s.me.isWave && q.w64)
  | none => false

/-- `qo` may be named by an instruction that pushes `n` elements: bound, of 32 bits for a wave, and granted that many
credits (R99, R331). -/
def State.qoOk (s : State) (n : Nat) : Bool :=
  match s.me.qo with
  | some b => !s.me.handler && !(s.me.isWave && b.w64) && n ≤ b.grant
  | none => false

/-- What an issue is: its lanes, whether it acts lane by lane, and its sources in order. -/
structure Iss where
  lanes : BitVec 16
  vec : Bool
  srcs : List Opnd
  lat : Nat := 1         -- latency of its result (R91)
  deriving DecidableEq, Repr

/-- A source of the integer groups: any readable operand; a wave names a primary register only lane by lane (R95,
R109). -/
def State.srcOk (s : State) (vec : Bool) (o : Opnd) : Bool :=
  match opOf o with
  | .k n => n < s.kLimit
  | .prim n => (vec || !s.me.isWave) && (s.me.writeStream n).isNone
  | .qi => s.qiOk
  | .pred _ | .zero | .lid | .cid | .tid | .dsp | .clk | .imm _ => true
  | .qo | .sh _ | .md _ | .bad => false

/-- A source that is a predicate. -/
def State.predOk (_ : State) (o : Opnd) : Bool :=
  match opOf o with
  | .pred _ => true
  | _ => false

/-- A source that gives every lane one value: uniform, immediate or special (R111). The specials lid and qi, whose value
may differ by lane, are accepted with the value of the representative lane (DESIGN CHOICE, log 101). -/
def State.uniSrcOk (s : State) (o : Opnd) : Bool :=
  match opOf o with
  | .prim _ | .pred _ => false
  | _ => s.srcOk true o

/-- A destination of the scalar groups. `w64`: no uniform register under a 64-bit type (R101). `long`: the result of a
long-latency instruction goes to no stream (R97). -/
def State.dstOk (s : State) (w64 long : Bool) (o : Opnd) : Bool :=
  match opOf o with
  | .k n => n < s.kLimit && !w64
  | .prim n => !s.me.isWave && (s.me.readStream n).isNone && !(long && (s.me.streamOf n).isSome)
  | .pred _ | .zero => true
  | .qo => s.qoOk 1
  | _ => false

/-- A destination of the vector groups: a v register, `qo` or `zero` (R109). -/
def State.vdstOk (s : State) (long : Bool) (lanes : Nat) (o : Opnd) : Bool :=
  match opOf o with
  | .prim n => (s.me.readStream n).isNone && !(long && (s.me.streamOf n).isSome)
  | .zero => true
  | .qo => s.qoOk lanes
  | _ => false

/-- A destination that may also be a uniform register (R111). -/
def State.vkdstOk (s : State) (lanes : Nat) (o : Opnd) : Bool :=
  match opOf o with
  | .k n => n < s.kLimit
  | _ => s.vdstOk false lanes o

/-! Registers that an operand names, for the scoreboard. -/

def opRegs (wave : Bool) (o : Opnd) : List Nat :=
  match opOf o with
  | .k n => [kReg n]
  | .prim n => [if wave then vReg n else xReg n]
  | .pred n => [pReg n]
  | _ => []

/-! Reading (R38, R39, R89, R94, R95, R118). -/

/-- The uniform register n of the turn's team. -/
def State.uni (s : State) (n : Nat) : W32 :=
  match s.myTeam with
  | some t => Store.get 0 s.here.uni (512 * t.half + n)
  | none => 0

def Ctx.xreg (c : Ctx) (n : Nat) : W64 := Store.get 0 c.x n
def Ctx.vreg (c : Ctx) (n lane : Nat) : W32 := Store.get 0 c.v (16 * n + lane)

/-- The place of an operand among the sources: that of the first source of the same name (R97, R99). -/
def Iss.place (i : Iss) (o : Opnd) : Nat := i.srcs.idxOf o

/-- A popped value, by lane. -/
def State.latched (s : State) (i : Iss) (o : Opnd) (lane : Nat) : W64 :=
  ((Store.get [] s.me.latch (i.place o)).drop lane).headD 0

/-- A 32-bit value as an x value: sign-extended if asked for. -/
def ext32 (sx : Bool) (v : W32) : W64 := if sx then v.signExtend 64 else v.setWidth 64

/-- The value of a source in a lane. `sx`: a uniform register is sign-extended (R101). -/
def State.val (s : State) (i : Iss) (sx : Bool) (o : Opnd) (lane : Nat) : W64 :=
  match opOf o with
  | .k n => ext32 sx (s.uni n)
  | .prim n =>
    if (s.me.readStream n).isSome then s.latched i o lane
    else if s.me.isWave then (s.me.vreg n lane).setWidth 64 else s.me.xreg n
  | .pred n =>
    let p := s.me.pred n
    if s.me.isWave && !i.vec then p.setWidth 64 else (if p.getLsbD lane then 1 else 0)
  | .qi => s.latched i o lane
  | .lid => BitVec.ofNat 64 (if s.me.isWave then lane else 0)
  | .cid => BitVec.ofNat 64 s.hereId
  | .tid => BitVec.ofNat 64 s.me.team
  | .dsp => BitVec.ofNat 64 (if s.me.isWave then s.me.dsp else 0)
  | .clk => s.clk
  | .imm v => v
  | _ => 0

/-- The representative lane of an issue (R95); lane 0 for a barrel thread. -/
def Iss.rep (i : Iss) : Nat := lowLane i.lanes

/-- The value of a source of a scalar issue. -/
def State.sval (s : State) (i : Iss) (sx : Bool) (o : Opnd) : W64 := s.val i sx o i.rep

/-- A condition read from a predicate in a lane. -/
def State.cond (s : State) (o : Opnd) (lane : Nat) : Bool :=
  match opOf o with
  | .pred n => (s.me.pred n).getLsbD lane
  | _ => false

def sval (i : Iss) (o : Opnd) (sx : Bool := false) : M W64 := do return (← get).sval i sx o
def lval (i : Iss) (o : Opnd) (lane : Nat) : M W32 := do return ((← get).val i false o lane).setWidth 32

/-! Queues (R330, R331). -/

def InQueue.elemSize (q : InQueue) : Nat := if q.w64 then 8 else 4
def InQueue.capacity (q : InQueue) : Nat := 64 * q.rows / q.elemSize

/-- Sends the credits that a queue owes its producer. -/
def returnCredits (core tag n : Nat) (force : Bool) : M Unit := do
  match (← getCore core).team tag with
  | none => pure ()
  | some t =>
    match Store.get none t.inq n with
    | none => pure ()
    | some q =>
      if 8 ≤ q.owed || (force && 0 < q.owed) then
        match (← get).target q.producer with
        | some p => sendFlit core p 2 (.credit · (BitVec.ofNat 3 n) q.owed)
        | none => pure ()
        modTeam core tag fun t => { t with inq := Store.set none t.inq n (some { q with owed := 0 }) }

/-- The waits for elements of queues in a context. Queues 0 to 7 are the team's, 8 and 9 the ray and the hit queue. -/
def Ctx.popWaits (c : Ctx) : List (Nat × Nat) :=
  (c.prog :: c.prog2 :: c.stacked.filterMap fun x => x.2.map Stacked.prog).filterMap Progress.pops

/-- An earlier pop of a queue by another context of the team, or another slot, is not served yet (R330, R369). -/
def State.popsBehind (s : State) (q : Nat) : Bool :=
  let since := match s.me.prog.pops with
    | some x => x.2
    | none => s.clk.toNat
  ((s.me :: s.here.ctxs.filterMap fun x => if x.2.present && x.2.team = s.me.team then some x.2 else none).flatMap
    Ctx.popWaits).any fun x => x.1 = q && x.2 < since

/-- A pop of a queue waits. -/
def awaitPop (q : Nat) {α : Type} (k : WaitKind := {}) : M α := do
  let now ← now
  modMe fun c => match c.prog.pops with
    | some _ => c
    | none => { c with prog := { c.prog with pops := some (q, now) } }
  hold .loadOp k

/-- The scratchpad offset of the element `j` places behind a queue's head (R330). -/
def InQueue.slotOff (q : InQueue) (j : Nat) : Nat := q.base + (q.head + j) % q.capacity * q.elemSize

/-- The rows of the next `k` elements of a queue are read: a machine check where one is poisoned (06_scratchpad.md R148). -/
def soundQueue (q : InQueue) (k : Nat) : M Unit := do
  for j in List.range k do rowCheck (q.slotOff j) q.elemSize

/-- Pops `k` elements of the turn's queue: their values, with nothing changed if they are not there. -/
def popQueue (k : Nat) : M (List W64) := do
  let s ← get
  match s.myQi with
  | none => illegalOperand
  | some (n, q) =>
    if q.count < k || s.popsBehind n then awaitPop n
    soundQueue q k
    let vals := (List.range k).map fun j => BitVec.ofNat 64 (Store.readN s.here.rows (q.slotOff j) q.elemSize)
    let q1 : InQueue := { q with head := q.head + k, count := q.count - k, owed := q.owed + k }
    modMyTeam fun t => { t with inq := Store.set none t.inq n (some q1) }
    returnCredits s.hereId s.me.team n (q1.count = 0)
    return vals

/-- Lists cut into pieces of at most `n`. -/
def chunks {α : Type} (n : Nat) : Nat → List α → List (List α)
  | 0, _ => []
  | fuel + 1, l => if l.isEmpty then [] else l.take n :: chunks n fuel (l.drop n)

/-- Pushes elements to the turn's `qo` (R331): credits spent, QDATA flits sent. -/
def pushQueue (vals : List W64) : M Unit := do
  let s ← get
  match s.me.qo, s.myTeam with
  | some b, some t =>
    needChannel 7 b.core
    modMe fun c => { c with qo := some { b with credits := b.credits - vals.length } }
    for part in chunks (if b.w64 then 5 else 11) vals.length vals do
      countEvent 0x16
      sendFlit s.hereId b.core 7 (.qdata · t.lnum (BitVec.ofNat 3 b.queue) b.w64 part)
  | _, _ => pure ()

/-! Stream elements. -/

/-- The addresses of the next elements of a stream, one for each lane. -/
def Stream.lanesAddrs (t : Stream) (lanes : List Nat) : List LaneAddr :=
  (List.range lanes.length).map fun j => (lanes.getD j 0, descAddr t.desc (t.next + j))

/-- The count check of R97. -/
def Stream.hasRoom (t : Stream) (k : Nat) : Bool := t.next + k ≤ t.length

/-- An element extended into a register (R97). -/
def Stream.extend (t : Stream) (v : Nat) : W64 :=
  let bits := 8 * t.width
  if t.desc.getLsbD 196 && v / 2 ^ (bits - 1) % 2 = 1 then BitVec.ofInt 64 ((v : Int) - 2 ^ bits)
  else BitVec.ofNat 64 v

/-- A word of the free values of a step (log 8). -/
def freeWord (what ticks : Nat) : W64 :=
  (List.range 8).foldl (fun v j => (v <<< 8) ||| (Config.freeByte (8 * what + j) ticks).setWidth 64) 0

/-- By-lane list of 16 values. A lane that popped nothing has a free value, which a cross-lane member may read
(R111; log 17). -/
def byLane (ticks : Nat) (lanes : List Nat) (vals : List W64) : List W64 :=
  (List.range 16).map fun l => if lanes.contains l then vals.getD (lanes.idxOf l) 0 else freeWord l ticks

/-- The lanes for which an issue pops or pushes: every lane acted on, or one for a scalar issue (R95, R99). -/
def Iss.movers (i : Iss) : List Nat := if i.vec then lanesOf i.lanes else [i.rep]

/-- The accesses that an instruction makes by its operands: of the streams that it pops and of those that it writes. -/
def State.streamTouches (s : State) (i : Iss) (dsts : List Opnd) : List (Nat × Need × List LaneAddr) :=
  let pops := (i.srcs.dedup.filter fun o => (Store.get [] s.me.latch (i.place o)).isEmpty).filterMap fun o => match opOf o with
    | .prim r => (s.me.readStream r).map fun t => (t.hasRoom i.movers.length, t.width, t.need, t.lanesAddrs i.movers)
    | _ => none
  let pushes := dsts.filterMap fun o => match opOf o with
    | .prim r => (s.me.writeStream r).map fun t => (t.hasRoom i.movers.length, t.width, Need.store, t.lanesAddrs i.movers)
    | _ => none
  if (pops ++ pushes).all (·.1) then (pops ++ pushes).map (·.2) else []

/-- Checks that the instruction's pushes can be made: the count and the faults of a write stream, the credits of
`qo`. Nothing is pushed. -/
def pushChecks (i : Iss) (d : Opnd) : M Unit := do
  let s ← get
  let n := i.movers.length
  match opOf d with
  | .qo =>
    match s.me.qo with
    | some b => if b.credits < n then hold .meshFull
    | none => pure ()
  | .prim r =>
    match s.me.writeStream r with
    | some t =>
      if !t.hasRoom n then trapWith 12
      let _ ← access t.width .store (t.lanesAddrs i.movers) true
    | none => pure ()
  | _ => pure ()

/-- Pops what the sources name, into the operand latch (R97, R99, R100): first every count, fault and wait, then the
pops. -/
def popSources (i : Iss) : M Unit := do
  let s ← get
  let todo := i.srcs.dedup.filter fun o => (Store.get [] s.me.latch (i.place o)).isEmpty
  for o in todo do
    match opOf o with
    | .prim r =>
      match s.me.readStream r with
      | some t => if !t.hasRoom i.movers.length then trapWith 12
      | none => pure ()
    | .qi =>
      match s.myQi with
      | some (_, q) => if q.count < i.movers.length then hold .loadOp
      | none => pure ()
    | _ => pure ()
  for o in todo do
    match opOf o with
    | .prim r =>
      match s.me.readStream r with
      | some t => let _ ← access t.width t.need (t.lanesAddrs i.movers) true
      | none => pure ()
    | .qi =>
      match s.myQi with
      | some (_, q) => soundQueue q i.movers.length
      | none => pure ()
    | _ => pure ()
  for o in todo do
    match opOf o with
    | .prim r =>
      match s.me.readStream r with
      | some t =>
        let got ← access t.width t.need (t.lanesAddrs i.movers)
        let mut vals : List W64 := []
        for g in got do
          vals := vals ++ [t.extend (← readPieces t.via g.2)]
        let t1 : Stream := { t with next := t.next + i.movers.length }
        match streamIndex s.me.isWave r with
        | some k =>
          let line := byLane s.ticks i.movers vals
          modMe fun c => { c with streams := Store.set none c.streams k (some t1),
                                  latch := Store.set [] c.latch (i.place o) line }
        | none => pure ()
      | none => pure ()
    | .qi =>
      let vals ← popQueue i.movers.length
      let line := byLane s.ticks i.movers vals
      modMe fun c => { c with latch := Store.set [] c.latch (i.place o) line }
    | _ => pure ()

/-- Pushes elements to a write stream that `pushChecks` has passed (R97). -/
def pushStream (i : Iss) (r : Nat) (t : Stream) (vals : List W64) : M Unit := do
  let got ← access t.width .store (t.lanesAddrs i.movers)
  for j in List.range got.length do
    let g := got.getD j (0, [])
    writePieces t.via g.2 t.width ((vals.getD j 0).toNat % 2 ^ (8 * t.width))
  let t1 : Stream := { t with next := t.next + got.length }
  match streamIndex (← getMe).isWave r with
  | some k => modMe fun c => { c with streams := Store.set none c.streams k (some t1) }
  | none => pure ()

/-! Writing. -/

/-- Register writes of a scalar result (R89, R94, R95). -/
def State.scalarWrites (s : State) (i : Iss) (d : Opnd) (v : W64) : List RegWrite :=
  match opOf d with
  | .k n => match s.myTeam with
    | some t => [.k t.half n (v.setWidth 32) i.lat]
    | none => []
  | .prim n => if (s.me.streamOf n).isSome then [] else [.x n v]
  | .pred n => [.p n i.lanes (if v.getLsbD 0 then 0xFFFF else 0)]
  | _ => []

/-- Register writes of a vector result. -/
def State.vectorWrites (s : State) (i : Iss) (d : Opnd) (f : Nat → W32) : List RegWrite :=
  match opOf d with
  | .prim n => if (s.me.streamOf n).isSome then [] else (lanesOf i.lanes).map fun l => .v n l (f l)
  | .pred n => [.p n i.lanes ((lanesOf i.lanes).foldl (fun m l => if (f l).getLsbD 0 then m ||| laneBit l else m) 0)]
  | _ => []

/-- Writes of a predicate as a mask. -/
def maskWrites (i : Iss) (d : Opnd) (bits : BitVec 16) : List RegWrite :=
  match opOf d with
  | .pred n => [.p n i.lanes bits]
  | _ => []

/-- Pushes of a destination that is a queue or a stream. -/
def pushTo (i : Iss) (d : Opnd) (vals : List W64) : M Unit := do
  match opOf d with
  | .qo =>
    let w64 := match (← getMe).qo with
      | some b => b.w64
      | none => false
    pushQueue (vals.map fun v => if w64 then v else (v.setWidth 32).setWidth 64)
  | .prim r =>
    match (← getMe).writeStream r with
    | some t => pushStream i r t vals
    | none => pure ()
  | _ => pure ()

/-- Writes a scalar result. -/
def putScalar (i : Iss) (d : Opnd) (v : W64) : M Unit := do
  applyAll ((← get).scalarWrites i d v)
  pushTo i d [v]

/-- Writes a vector result. -/
def putVector (i : Iss) (d : Opnd) (f : Nat → W32) : M Unit := do
  applyAll ((← get).vectorWrites i d f)
  pushTo i d ((lanesOf i.lanes).map fun l => (f l).setWidth 64)

/-- Writes a result that lands later, in a window of `la` instructions (R41). -/
def putLater (la : Nat) (load : Bool) (i : Iss) (d : Opnd) (ws : List RegWrite) (vals : List W64)
    (unit : Nat := 0) : M Unit := do
  if !ws.isEmpty then pendResult la load ws unit
  pushTo i d vals

/-! Addresses and 64-bit values (R175, R203). -/

/-- Split mode refuses every instruction that forms a generic address (R212). -/
def State.unified (s : State) : Bool := !(Store.get Cluster.reset s.clusters (clusterOf s.hereId)).split

/-- An even uniform register below the declared count, naming its pair. -/
def State.kPairOk (s : State) (o : Opnd) : Bool :=
  match opOf o with
  | .k n => n % 2 = 0 && n + 1 < s.kLimit
  | _ => false

/-- An even v register, naming its pair. -/
def State.vPairOk (s : State) (o : Opnd) : Bool :=
  match opOf o with
  | .prim n =>
    s.me.isWave && s.me.curSlot.cls ≠ 0 && n % 2 = 0 && (s.me.writeStream n).isNone && (s.me.writeStream (n + 1)).isNone
  | _ => false

/-- An x register of a barrel thread as a source. -/
def State.xOk (s : State) (o : Opnd) : Bool :=
  match opOf o with
  | .prim n => !s.me.isWave && (s.me.writeStream n).isNone
  | _ => false

/-- An x register that holds an address, or a wave's uniform pair (R203). -/
def State.addrOk (s : State) (o : Opnd) : Bool := if s.me.isWave then s.kPairOk o else s.xOk o

/-- The same, or a v pair of per-lane addresses (R175). -/
def State.vaddrOk (s : State) (o : Opnd) : Bool := s.addrOk o || s.vPairOk o

/-- An even x register that names its pair. -/
def State.xPairOk (s : State) (o : Opnd) : Bool :=
  match opOf o with
  | .prim n => s.xOk o && n % 2 = 0
  | _ => false

/-- The operand whose register follows. -/
def nextOpnd (o : Opnd) : Opnd := o + 1

/-- The sources that a 64-bit operand stands for: a pair in a wave, one register in a barrel thread. -/
def wideSrcs (wave : Bool) (o : Opnd) : List Opnd :=
  if !wave then [o] else
  match opOf o with
  | .prim _ | .k _ => [o, nextOpnd o]
  | _ => [o]

/-- The 64-bit value of an operand in a lane: a pair, low word first, or one register (R175). -/
def State.wide (s : State) (i : Iss) (o : Opnd) (lane : Nat) : W64 :=
  match opOf o with
  | .k n => s.uni (n + 1) ++ s.uni n
  | .prim _ =>
    if s.me.isWave then
      ((s.val i false (nextOpnd o) lane).setWidth 32 : W32) ++ ((s.val i false o lane).setWidth 32 : W32)
    else s.val i false o lane
  | _ => s.val i true o lane

def wval (i : Iss) (o : Opnd) (lane : Nat) : M W64 := do return (← get).wide i o lane

/-- Register writes of a 64-bit result: an x register, or a uniform pair low word first (R175). -/
def State.wideWrites (s : State) (d : Opnd) (v : W64) : List RegWrite :=
  match opOf d with
  | .k n => match s.myTeam with
    | some t => [.k t.half n (v.setWidth 32) 1, .k t.half (n + 1) ((v >>> 32).setWidth 32) 1]
    | none => []
  | .prim n => [.x n v]
  | _ => []

/-- Registers that a pair names. -/
def pairRegs (wave : Bool) (o : Opnd) : List Nat := opRegs wave o ++ opRegs wave (nextOpnd o)

/-- A primary operand is refused of a wave in a class U clause (02_clauses.md R38, R48). -/
def State.laneSrcOk (s : State) (o : Opnd) : Bool :=
  match opOf o with
  | .prim _ => s.srcOk true o && !(s.me.isWave && s.me.curSlot.cls = 0)
  | _ => s.srcOk true o

end Sys2Proof.Machine
end

