-- ==== Sys2Proof/Machine/Issue.lean ====
section
/-! DEFINITION. How an instruction issues: comparators, the checks of R46 in their order, the guard, the lookahead
interlock, the power cap, pops, the instruction's own effect, and the bookkeeping of an issue (02_clauses.md R35,
R40 to R49; 01_package.md R19, R20; 18_debug.md R455, R458). -/

namespace Sys2Proof.Machine

/-- What an instruction asks of its issue. -/
structure Req where
  guard : Guard
  /-- home class of its group; none for the groups legal in every class (R48) -/
  cls : Option Nat := none
  /-- the PRIVILEGE trap it takes at user privilege -/
  priv : Option Trap := none
  /-- ILLEGAL-INSTRUCTION checks beyond the encoding's -/
  form : State → Bool := fun _ => true
  /-- operand checks of R38 and R39, made whatever the guard -/
  ok : State → Bool := fun _ => true
  /-- source operands, in order -/
  srcs : List Opnd := []
  /-- destination operands -/
  dsts : List Opnd := []
  /-- further registers that it reads or writes, for the scoreboard -/
  regs : Bool → List Nat := fun _ => []
  /-- acts lane by lane -/
  vec : Bool := false
  /-- counts in the power window -/
  counted : Bool := false
  /-- long-latency (R40) -/
  long : Bool := false
  /-- latency of its result (R108, R112, R115) -/
  lat : Nat := 1
  /-- a paired word: no guard -/
  paired : Bool := false

/-- A barrel thread's or a wave's classes: the clause's class is the group's (R48). -/
def State.classOk (s : State) (r : Req) : Bool :=
  match r.cls with
  | none => true
  | some c => s.me.curSlot.cls = c

/-- The first check of R46 that fails. -/
def State.checkTrap (s : State) (r : Req) : Option Trap :=
  if !(s.classOk r && r.form s) then some { cause := 1 }
  else match r.priv with
    | some t => if s.me.supervisor then (if r.ok s then none else some { cause := 2 }) else some t
    | none => if r.ok s then none else some { cause := 2 }

/-- Lanes that an instruction acts on; a paired word acts on the whole slot (R43). -/
def State.actLanes (s : State) (r : Req) : BitVec 16 :=
  if r.paired then s.me.curSlot.mask else s.me.guardLanes r.guard

/-- Lanes that a trap of the instruction names (16_traps.md R420). -/
def State.trapLanes (s : State) (r : Req) : BitVec 16 :=
  if s.actLanes r = 0 then s.me.curSlot.mask else s.actLanes r

/-- The breakpoint that matches the instruction about to issue (R455): its number and action. -/
def Ctx.breakMatch (c : Ctx) : Option (Nat × Nat) :=
  if c.handler then none else
  (List.range 4).findSome? fun i =>
    let b := Store.get 0 c.bp i
    let action := field b 61 3
    if 1 ≤ action && action ≤ 6 && pcAddr b = pcAddr c.curSlot.pc && field b 57 4 = pcIndex c.curSlot.pc &&
       !c.curSlot.skips i then some (i, action) else none

def checkBreakpoints : M Unit := do
  let c ← getMe
  match c.breakMatch with
  | none => pure ()
  | some (i, action) =>
    comparatorActs (i, action, { cause := 18, detail := i, lanes := some c.curSlot.mask })

/-- Registers that the instruction reads or writes. -/
def Req.allRegs (r : Req) (wave : Bool) : List Nat :=
  (if r.paired then [] else [pReg (field r.guard 0 3)]) ++ r.regs wave ++
  (r.srcs ++ r.dsts).flatMap (opRegs wave)

/-- A pending result that the instruction meets. -/
def Pend.meets (regs : List Nat) (p : Pend) : Bool := p.writes.any fun w => regs.contains w.reg

/-- The pending results that an instruction meets in some registers. -/
def State.metBy (s : State) (regs : List Nat) : List Pend := s.me.pend.filter (Pend.meets regs)

/-- A uniform write of the turn's context to one of some registers has not landed (R91). -/
def State.uniOwed (s : State) (regs : List Nat) : Bool :=
  s.here.uniDue.any fun w => w.by_ = s.seat && regs.contains (kReg (w.reg % 512))

/-- The interlock of R41 on some registers: an instruction that meets a pending result waits until it has landed. In
the result's window that is a lookahead violation, counted once or taken as the STRICT trap. -/
def interlockOn (regs : List Nat) : M Unit := do
  let s ← get
  match s.metBy regs with
  | [] => if s.uniOwed regs then hold .arithOp
  | p :: rest =>
    if ((p :: rest).any fun q => 0 < q.window) && !s.me.prog.violated then
      if s.me.mode.getLsbD 13 then trapWith 4 0
      modMe fun c => { c with lav := c.lav + 1, prog := { c.prog with violated := true } }
    modMe fun c => { c with prog := { c.prog with met := (p :: rest).map Pend.tok } }
    hold (if (p :: rest).any Pend.load then .loadOp else .arithOp)

/-- The register that the guard reads; a paired word has none. -/
def Req.guardRegs (r : Req) : List Nat := if r.paired then [] else [pReg (field r.guard 0 3)]

def interlock (r : Req) : M Unit := do
  interlockOn (r.allRegs (← getMe).isWave)

/-- An issue counted in the power window (R19). -/
def State.charged (s : State) (r : Req) : State :=
  if r.counted then State.counted { s with here := { s.here with nv := s.here.nv + 1 } } 0x19 else s

/-- The power cap of R19 and R20: at the cap a counted issue waits for the next window. -/
def powerCap (r : Req) : M Unit := do
  if r.counted && 320 ≤ (← getHere).nv + (← getHere).nm then
    bumpUnit (← get).hereId 3
    hold .lostArb

/-- The books of a context whose instruction has issued: windows, latch, progress, a step. `before`: the number of the
first result of its own; `now`: the cycle. -/
def Ctx.booked (c : Ctx) (before now : Nat) : Ctx :=
  { c with pend := c.pend.map fun p => if p.tok < before then { p with window := p.window - 1 } else p,
           latch := (if c.handler then c.latch else []), prog := .none,
           stall := .issued, yielded := false,
           lastIssue := now, ran := c.cur,
           halted := (if c.stepping.isSome then some 5 else c.halted), stepping := none, stepWord := none }

/-- What an issue counts. -/
def State.countedIssue (s : State) (r : Req) : State :=
  let s1 := ((s.charged r).counted 0x10).counted 0
  if r.long then s1.counted 0x11 else s1

/-- The books of an instruction that has issued; a grant of the reserve is given back, and a wait for a frame is over
(08_residency.md R228). -/
def issued (r : Req) (before : Nat) : M Unit := do
  modify fun s => s.countedIssue r
  let c ← getMe
  if c.grant then
    dropGrant (← myId) c
    modMe fun c => { c with grant := false, starved := none }
  modify fun s => { s with me := s.me.booked before s.clk.toNat }

/-- Where control goes after an instruction that has issued. -/
abbrev Then := M Unit

/-- An instruction whose access finds poison after its confirmation has issued: the machine check is taken at the next
instruction boundary (16_traps.md R419). -/
def imprecise (m : M Then) : M Then := fun s =>
  match m s with
  | .error (.trap t) u =>
    if t.imprecise then
      .ok (do
        advance
        throw (.trap t)) u
    else .error (.trap t) u
  | o => o

/-- Issues an instruction whose body answers where control goes on once it has issued. -/
def issueCtl (r : Req) (body : Iss → M Then) : M Unit := do
  checkBreakpoints
  match (← get).checkTrap r with
  | some t => throw (.trap t)
  | none => pure ()
  interlockOn r.guardRegs
  let lanes := (← get).actLanes r
  let before := (← getMe).tok
  if lanes = 0 then
    powerCap r
    issued r before
    advance
  else
    interlock r
    powerCap r
    let i : Iss := { lanes := lanes, vec := r.vec, srcs := r.srcs, lat := r.lat }
    watchAll ((← get).streamTouches i r.dsts)
    for d in r.dsts do pushChecks i d
    popSources i
    let go ← imprecise (body i)
    issued r before
    go

/-- The code of a stall reason (03_contexts.md R72). -/
def stallCode : Stall → Nat
  | .issued => 0
  | .halt => 1
  | .trapEntry => 2
  | .fullEmpty => 3
  | .barrier => 4
  | .loadOp => 5
  | .arithOp => 6
  | .shBatch => 7
  | .meshFull => 8
  | .matrixBusy => 9
  | .fetch => 10
  | .pendingSet => 11
  | .poll => 12
  | .lostArb => 13

/-- The turn's context does not issue and reports a reason (R72), which is counted as its cycle ends. -/
def stalls (w : Stall) : M Unit := modMe fun c => { c with stall := w }

/-- A trap's lanes: those of a scalar issue are the lanes on which its guard is true (16_traps.md R420), whatever lane its
access stood for; a breakpoint and a trap at a header name theirs. -/
def Trap.forIssue (t : Trap) (vec : Bool) : Trap :=
  if vec || t.header || t.cause = 18 then t else { t with lanes := none }

/-- The turn's context waits: its stall reason, and what its wait is. A halt leaves the reason before it (R460). -/
def waits (w : Stall) (k : WaitKind) : M Unit :=
  modMe fun c => if w = .halt then c else { c with stall := w, prog := { c.prog with kind := k } }

/-- What an issue leaves: a trap is raised, a wait recorded. -/
def settle (r : Req) (m : M Unit) (s : State) : Host.Outcome State Fault Refusal :=
  match m.run s with
  | .ok _ t => .next t
  | .error (.trap t0) u =>
    let t := t0.forIssue r.vec
    (raiseTrap t r.paired (if t.header then u.me.curSlot.mask else u.trapLanes r)).toOutcome u
  | .error (.hold w k) u => (waits w k).toOutcome u
  | .error .gone u => .next u

/-- The meaning of an instruction whose body may transfer control. -/
def runCtl (r : Req) (body : Iss → M Then) (s : State) : Host.Outcome State Fault Refusal :=
  settle r (issueCtl r body) s

/-- The meaning of an instruction after which control goes on at the next index. -/
def runIssue (r : Req) (body : Iss → M Unit) (s : State) : Host.Outcome State Fault Refusal :=
  runCtl r (fun i => do body i; return advance) s

end Sys2Proof.Machine
end

