-- ==== Sys2Proof/Machine/Control.lean ====
section
/-! DEFINITION. The control group: transfers, divergence, loops, waits, PARK, SPAWN and QUIT (03_contexts.md R56 to
R64, R73 to R87). -/

namespace Sys2Proof.Machine

/-! The divergence stack (R61, R63, R64). -/

/-- Scratchpad offset of stack entry `i` of the turn's wave: rows 36 to 43 of its frame. -/
def State.stackOff (s : State) (i : Nat) : Nat :=
  let first := match s.seat, s.myTeam with
    | some (.frame n), some t => (t.frameRow n).getD 0
    | _, _ => 0
  64 * (first + 36) + 128 * i

/-- A slot as a stack entry of 128 bytes (R64). -/
def PcSlot.packEntry (p : PcSlot) : List Byte :=
  natToBytes 8 p.pc.toNat ++ natToBytes 8 (if p.waiting then p.jpc.toNat else 0) ++ natToBytes 4 p.mask.toNat ++
  natToBytes 1 p.depth ++ natToBytes 1 (if p.waiting then 1 else 0) ++ natToBytes 1 p.cls ++
  natToBytes 1 p.rstk.length ++ List.replicate 40 0 ++
  ((p.rstk.reverse ++ List.replicate (8 - p.rstk.length) 0).flatMap fun (e : W64) => natToBytes 8 e.toNat)

/-- A number of `n` bytes within a list. -/
def bytesAt (bs : List Byte) (off n : Nat) : Nat := bytesToNat ((bs.drop off).take n)

/-- A slot restored from an entry. The class is compared at the refetch inside a clause, and at a header whose clause
was discarded at the push (R31). -/
def unpackEntry (bs : List Byte) (discarded : Bool := false) (count : BitVec 4 := 0)
    (skip : W64 × List Nat := (0, [])) : PcSlot :=
  let pcAt (off : Nat) : W64 := BitVec.ofNat 64 (bytesAt bs off 8) &&& pcBits
  let pc := pcAt 0
  let n := min (bytesAt bs 23 1) 8
  { live := true, pc := pc, mask := BitVec.ofNat 16 (bytesAt bs 16 4), depth := bytesAt bs 20 1,
    waiting := decide (bytesAt bs 21 1 = 1), jpc := pcAt 8,
    rstk := ((List.range n).map fun i => pcAt (64 + 8 * i)).reverse,
    cclass := BitVec.ofNat 3 (bytesAt bs 22 1), ccount := count, refetch := decide (pcIndex pc ≠ 0) || discarded, skip := skip,
    buf := none }

def stackEntry (i : Nat) : M (List Byte) := do
  let s ← get
  return Store.bytes s.here.rows (s.stackOff i) 128

def putStackBytes (i off : Nat) (bs : List Byte) : M Unit := do
  let s ← get
  modHere fun c => c.putRows (s.stackOff i + off) bs

/-- Pushes the other slot (R61 step 1). -/
def pushOther : M Unit := do
  let c ← getMe
  if 4 ≤ c.dsp then divergeTrap
  let o := c.otherSlot.discard
  putStackBytes c.dsp 0 o.packEntry
  modMe fun c =>
    { c with stacked := Store.set none c.stacked c.dsp (some { lanes := o.mask, prog := c.prog2, refetch := o.refetch, count := o.ccount,
                                                                skip := o.skip }),
             prog2 := .none, stall2 := .issued, dsp := c.dsp + 1 }

/-- A pending arrival: a slot and the header it arrives at. -/
abbrev Arrivals := List (Nat × W64)

/-- The progress of slot `n`'s instruction replaced. -/
def Ctx.putProg (c : Ctx) (n : Nat) (p : Progress) : Ctx :=
  if n = c.cur then { c with prog := p, stall := .issued } else { c with prog2 := p, stall2 := .issued }

/-- Frees a slot and restores the top of the stack into it, with the wait of its instruction (R63). -/
def freeSlot (n : Nat) : M Arrivals := do
  modMe fun c => (c.putSlot n .reset).putProg n .none
  let c ← getMe
  if c.dsp = 0 then return []
  let i := c.dsp - 1
  let e := Store.get none c.stacked i
  let p := unpackEntry (← stackEntry i) ((e.map Stacked.refetch).getD false) ((e.map Stacked.count).getD 0)
    ((e.map Stacked.skip).getD (0, []))
  modMe fun c =>
    { ((c.putSlot n p).putProg n ((e.map Stacked.prog).getD .none)) with
        dsp := i, stacked := Store.set none c.stacked i none, released := c.released &&& ~~~(BitVec.ofNat 4 (2 ^ i)) }
  return if c.released.getLsbD i then [(n, p.pc)] else []

/-- Where the partner of a depth stands (R63): the other live slot, or a stack entry. -/
inductive Partner where
  | none
  | other
  | entry (i : Nat)
  deriving DecidableEq, Repr

def partnerOf (slot : Nat) : M Partner := do
  let c ← getMe
  let d := (c.slot slot).depth
  if d = 0 then return .none
  let o := c.slot (1 - slot)
  if o.live && o.depth = d then return .other
  for i in List.range c.dsp do
    if bytesAt (← stackEntry i) 20 1 = d then return .entry i
  return .none

/-- The entries in use of the wave's stack are read: a machine check where a row is poisoned (06_scratchpad.md R148). -/
def soundStack : M Unit := do
  let s ← get
  for i in List.range s.me.dsp do rowCheck (s.stackOff i) 128

/-- A slot left with no lanes: its partner's DEPTH falls, a waiting partner goes on, the slot becomes free (R63). -/
def vacate (n : Nat) : M Arrivals := do
  let mut go : Arrivals := []
  match ← partnerOf n with
  | .none => pure ()
  | .other =>
    let o := (← getMe).slot (1 - n)
    if o.waiting then go := [(1 - n, o.jpc)]
    modMe (·.putSlot (1 - n) { o with depth := o.depth - 1, waiting := false })
  | .entry i =>
    let e ← stackEntry i
    putStackBytes i 20 (natToBytes 1 (bytesAt e 20 1 - 1))
    if bytesAt e 21 1 = 1 then
      putStackBytes i 0 ((e.drop 8).take 8 ++ List.replicate 8 0)
      putStackBytes i 21 [0]
      modMe fun c => { c with released := c.released ||| BitVec.ofNat 4 (2 ^ i) }
  let more ← freeSlot n
  return go ++ more

/-- Makes the arrivals, each in its slot. -/
def arriveAll (l : Arrivals) : M Unit :=
  l.forM fun a => do
    modMe (·.turnTo a.1)
    arrive a.2

/-- Leaves the turn with a slot that can issue, if the one that issued cannot. -/
def settleSlot : M Unit := do
  let c ← getMe
  if !(c.curSlot.live && !c.curSlot.waiting) && c.otherSlot.live then modMe fun c => c.turnTo (1 - c.cur)

/-- Transfers the lanes acted on to `target`, splitting where R61 requires it. `stk` is the return stack that the
lanes that transfer take. -/
def transfer (i : Iss) (target : W64) (stk : List W64) : M Then := do
  let c ← getMe
  let p := c.curSlot
  if !c.isWave || (i.lanes = p.mask && !c.otherSlot.live) then
    modSlot fun p => { p with rstk := stk }
    return arrive target
  if c.handler then divergeTrap
  if c.otherSlot.live then pushOther
  let a := c.cur
  let b := 1 - a
  let taken : PcSlot :=
    { (p.at_ target) with live := true, mask := i.lanes, depth := p.depth + 1, rstk := stk, buf := none }
  modMe fun c => (c.putSlot b taken).putSlot a { p with mask := p.mask &&& ~~~i.lanes, depth := p.depth + 1 }
  if i.lanes = p.mask then
    return do
      let more ← vacate a
      arriveAll (more ++ [(b, target)])
      settleSlot
  return do
    advance
    modMe (·.turnTo b)
    arrive target
    modMe (·.turnTo a)

/-- The byte target of a B-format offset (R34). -/
def branchTarget (off : BitVec 32) : M W64 := do
  return wordsFrom (← getMe).curSlot.pc (off.signExtend 64)

def ctlReq (g : Guard) : Req := { guard := g }

def execBra (g : Guard) (off : BitVec 32) (s : State) : Host.Outcome State Fault Refusal :=
  runCtl (ctlReq g) (fun i => do transfer i (← branchTarget off) (← getMe).curSlot.rstk) s

/-- BRI: a target per lane, which must agree (R75). A target with [63:57] not zero is found before targets that differ
(DESIGN CHOICE, log 98). -/
def execBri (g : Guard) (a : Opnd) (s : State) : Host.Outcome State Fault Refusal :=
  runCtl { guard := g, ok := fun s => s.laneSrcOk a, srcs := [a], vec := true }
    (fun i => do
      let s ← get
      let targets := (lanesOf i.lanes).map fun l =>
        let v := s.val i true a l
        wordsFrom s.me.curSlot.pc 0 + ((if s.me.isWave then (v.setWidth 32).signExtend 64 else v) <<< 3)
      match targets.find? fun t => field t 57 7 ≠ 0 with
      | some t => misalign t
      | none => pure ()
      let t := targets.headD 0
      if targets.any (· ≠ t) then divergeTrap
      transfer i t s.me.curSlot.rstk) s

/-- CALL pushes the clause that follows its own (R49, R56, R76). -/
def execCall (g : Guard) (off : BitVec 32) (s : State) : Host.Outcome State Fault Refusal :=
  runCtl (ctlReq g)
    (fun i => do
      let p := (← getMe).curSlot
      if 8 ≤ p.rstk.length then trapWith 6 0
      transfer i (← branchTarget off) (mkPc (wordsFrom p.pc (BitVec.ofNat 64 (p.count + 2))) 0 :: p.rstk)) s

/-- RET; in a handler it does not pop below the depth saved in TCAUSE (16_traps.md R423). -/
def execRet (g : Guard) (s : State) : Host.Outcome State Fault Refusal :=
  runCtl (ctlReq g)
    (fun i => do
      let c ← getMe
      let p := c.curSlot
      if p.rstk.length ≤ (if c.handler then field c.tcause 19 4 else 0) then trapWith 6 1
      transfer i (pcAddr (p.rstk.headD 0)) p.rstk.tail) s

/-- In a wave, an instruction that needs a guard uniform in its slot (R62). -/
def needUniform (i : Iss) : M Unit := do
  let c ← getMe
  if c.isWave && i.lanes ≠ c.curSlot.mask then divergeTrap

/-- In a wave, an instruction that needs the whole wave in one slot (R77 to R79). -/
def needConverged : M Unit := do
  let c ← getMe
  if c.isWave && (1 < c.live || c.dsp ≠ 0) then divergeTrap

/-- An operand of LOOP and PARK: in a wave a uniform register, a small immediate or a special operand (R74). -/
def State.ctlSrcOk (s : State) (o : Opnd) : Bool :=
  s.srcOk false o && !(s.me.isWave && (match opOf o with
    | .pred _ => true
    | _ => false))

/-- LOOP and LBRK are illegal in a handler (16_traps.md R423). -/
def notInHandler (s : State) : Bool := !s.me.handler

def putLoop (level : Bool) (start fin : W64) (n : W32) (c : Ctx) : Ctx :=
  if level then { c with ls := (c.ls.1, start), le := (c.le.1, fin), lc := (c.lc.1, n) }
  else { c with ls := (start, c.ls.2), le := (fin, c.le.2), lc := (n, c.lc.2) }

/-- LOOP (R77). An illegal body is found before a guard that is not uniform (DESIGN CHOICE, log 98). -/
def execLoop (g : Guard) (level : Bool) (a : Opnd) (imm : BitVec 28) (s : State) :
    Host.Outcome State Fault Refusal :=
  runCtl { guard := g, form := notInHandler, ok := fun s => s.ctlSrcOk a, srcs := [a] }
    (fun i => do
      let p := (← getMe).curSlot
      let n := p.count + 1
      if imm.toInt ≤ (n : Int) + 1 then illegalInstruction
      needUniform i
      needConverged
      let count : W32 := (← sval i a).setWidth 32
      let start := wordsFrom p.pc (BitVec.ofNat 64 (n + 1))
      let fin := wordsFrom p.pc (imm.signExtend 64)
      modMe (putLoop level start fin count)
      return if count = 0 then arrive fin else advance) s

/-- LBRK (R79). A level that is not active is found before a guard that is not uniform or a second slot in use (DESIGN
CHOICE, log 98). -/
def execLbrk (g : Guard) (level : Bool) (s : State) : Host.Outcome State Fault Refusal :=
  runCtl { guard := g, form := notInHandler }
    (fun i => do
      let c ← getMe
      if (if level then c.lc.2 else c.lc.1) = 0 then illegalInstruction
      needUniform i
      needConverged
      let fin := if level then c.le.2 else c.le.1
      modMe fun c => if level then { c with lc := (c.lc.1, 0) } else { c with lc := (0, c.lc.2) }
      return arrive fin) s

/-- JOIN (R62). -/
def execJoin (g : Guard) (off : BitVec 32) (s : State) : Host.Outcome State Fault Refusal :=
  runCtl (ctlReq g)
    (fun i => do
      let target ← branchTarget off
      let c ← getMe
      if !c.isWave then return arrive target
      needUniform i
      soundStack
      let a := c.cur
      let p := c.curSlot
      let o := c.otherSlot
      match ← partnerOf a with
      | .none => return arrive target
      | .other =>
        if !o.waiting then
          modSlot fun p => { p with waiting := true, jpc := target }
          return settleSlot
        if pcAddr o.jpc ≠ pcAddr target || o.rstk ≠ p.rstk then divergeTrap
        let merged : PcSlot :=
          { (p.at_ target) with mask := p.mask ||| o.mask, depth := p.depth - 1 }
        return do
          modMe fun c => (c.putSlot 0 merged).turnTo 0
          let more ← freeSlot 1
          arriveAll (more ++ [(0, target)])
      | .entry k =>
        let e ← stackEntry k
        if bytesAt e 21 1 = 1 && ((unpackEntry e).rstk ≠ p.rstk || pcAddr (unpackEntry e).jpc ≠ pcAddr target) then
          divergeTrap
        if o.live && o.waiting then divergeTrap
        modSlot fun p => { p with waiting := true, jpc := target }
        return settleSlot) s

/-! Waits (R27, R81, R84). -/

/-- A transfer named by entry and generation is not complete (10_shuttle.md R279). -/
def Core.transferOpen (c : Core) (id : Nat × Nat) : Bool :=
  match Store.get none c.shuttle id.1 with
  | some e => e.gen = id.2 && (e.state = .queued || e.state = .running)
  | none => false

/-- Sealed batches of a context that are not complete (10_shuttle.md R280). -/
def Core.openBatches (c : Core) (x : Ctx) : Nat :=
  (x.sealed.filter fun b => b.any c.transferOpen).length

/-- The same over a team's contexts. -/
def State.teamBatches (s : State) : Nat :=
  s.here.openBatches s.me + ((s.myTeam.map fun t => (t.batches.filter fun b => b.any s.here.transferOpen).length).getD 0) +
  (s.here.ctxs.foldl (fun n x => if x.2.present && x.2.team = s.me.team then n + s.here.openBatches x.2 else n) 0)

/-- The core that shares a matrix pair (11_matrix.md R293). -/
def buddy (core : Nat) : Nat := Nat.xor core 1

/-- Matrix operations of the turn's team that are not complete (R27). -/
def State.matrixOpen (s : State) : Bool :=
  let cmds (k : Core) : List MatCmd := match k.pair with
    | some p => p.queue
    | none => []
  (cmds s.here ++ cmds (s.core (buddy s.hereId))).any fun q => q.team = s.me.team && q.core = s.hereId

/-- Drains into accumulators of the turn's team that have not been performed (05_lanes.md R145): into number `i`, or
into any. -/
def State.drainsInto (s : State) (i : Option Nat) : Bool :=
  match s.here.pair with
  | some p => p.queue.any fun q =>
      q.kind = 3 && q.team = s.me.team && q.core = s.hereId && (i.isNone || i = some q.acc)
  | none => false

/-- The team's receive ring holds a message (R27). -/
def State.messageHere (s : State) : Bool :=
  match s.myTeam with
  | some t => match t.ring with
    | some r => decide (0 < r.count)
    | none => false
  | none => false

/-- The next check of a poll is not due (R71). -/
def State.pollWaits (s : State) : Bool := decide (s.clk.toNat < s.me.prog.nextCheck)

/-- A poll after a failed check: the cycle of the next one, and the doubled interval for the one after it (R71). -/
def Progress.failed (p : Progress) (now : Nat) : Progress :=
  { p with nextCheck := now + p.backoff, backoff := min (2 * p.backoff) 1024 }

/-- After a failed check of the instruction at the pc (R71). -/
def backOff : M Unit := do
  let s ← get
  let due := s.clk.toNat + s.me.prog.backoff
  modMe fun c => { c with prog := c.prog.failed s.clk.toNat }
  match s.seat with
  | some q => atCycle due (.pollRetry ⟨s.hereId, q⟩)
  | none => pure ()

/-- A wait for a message that polls, under the back-off of R71: whether the team's ring holds one. -/
def pollMessage : M Unit := do
  let s ← get
  if s.pollWaits then hold .poll { agent := true }
  if !s.messageHere then
    backOff
    hold .poll { agent := true }

/-- A load of the context has not written its result: one that is outstanding, or one that waits in a slot or in the
divergence stack (R27). -/
def State.loadsOpen (s : State) : Bool :=
  s.me.pend.any Pend.load || s.me.prog.kind.load || s.me.prog2.kind.load ||
  s.me.stacked.any fun x => (x.2.map fun e => e.prog.kind.load).getD false

/-- Waits until every load of the context has returned. -/
def awaitLoads (k : WaitKind := {}) : M Unit := do if (← get).loadsOpen then hold .loadOp k

def execWaitb (g : Guard) (team : Bool) (t : BitVec 4) (s : State) : Host.Outcome State Fault Refusal :=
  runIssue (ctlReq g)
    (fun _ => do
      let s ← get
      if t.toNat < (if team then s.teamBatches else s.here.openBatches s.me) then hold .shBatch { agent := true }) s

def execWaitc (g : Guard) (flags : BitVec 4) (s : State) : Host.Outcome State Fault Refusal :=
  runIssue (ctlReq g)
    (fun _ => do
      let s ← get
      if flags.getLsbD 2 then awaitLoads { agent := true }
      if flags.getLsbD 0 && s.matrixOpen then hold .matrixBusy { agent := true }
      if flags.getLsbD 1 then pollMessage) s

/-- YIELD ends the clause; the context loses its next turn (R83). -/
def execYield (g : Guard) (s : State) : Host.Outcome State Fault Refusal :=
  runCtl (ctlReq g)
    (fun _ => do
      let p := (← getMe).curSlot
      return do
        arrive (wordsFrom p.pc (BitVec.ofNat 64 (p.count + 2)))
        modMe fun c => { c with yielded := true }) s

/-- A record in the core's task queue for the turn's team (R84). -/
def State.taskHere (s : State) : Bool :=
  match s.myTeam with
  | some t => s.here.taskq.any fun r => (r.kind = 0 || r.kind = 1) && r.launch = t.lnum
  | none => false

/-- A wake condition of a parked context holds (R84). -/
def State.parkWakes (s : State) (events : BitVec 4) : Bool :=
  (events.getLsbD 0 && s.messageHere) || (events.getLsbD 1 && s.here.openBatches s.me = 0) ||
  (events.getLsbD 2 && !s.matrixOpen) || (events.getLsbD 3 && s.taskHere)

/-- PARK: its operands are read once; it ends the clause when it wakes (R84). A parked wave reports pending set also while it
is still in an active position (DESIGN CHOICE, log 119: R72's rows name only a pending wave and a parked thread). -/
def execPark (g : Guard) (a b : Opnd) (s : State) : Host.Outcome State Fault Refusal :=
  runCtl { guard := g, ok := fun s => s.ctlSrcOk a && s.ctlSrcOk b, srcs := [a, b] }
    (fun i => do
      needUniform i
      let ev ← sval i a
      let lim ← sval i b
      let s ← get
      let park : Park := match s.me.parked with
        | some p => p
        | none => { events := ev.setWidth 4, limit := if lim = 0 then none else some (s.clk.toNat + lim.toNat) }
      if s.parkWakes park.events || (match park.limit with | some n => decide (n ≤ s.clk.toNat) | none => false) then
        modMe fun c => { c with parked := none }
        let p := (← getMe).curSlot
        return arrive (wordsFrom p.pc (BitVec.ofNat 64 (p.count + 2)))
      else
        modMe fun c => { c with parked := some park }
        hold (if s.me.isWave then .pendingSet else .poll) { agent := true }) s

/-- A result that writes a uniform register. -/
def Pend.uniform (p : Pend) : Bool := p.writes.any fun w => match w with
  | .k _ _ _ _ => true
  | _ => false

/-- A release-ordered operation first waits until the context's uniform writes have landed, and its team's drains into
accumulators (04_registers.md R92; 05_lanes.md R145). -/
def landUniform : M Unit := do
  let s ← get
  if s.drainsInto none then hold .arithOp
  if s.me.pend.any fun p => p.uniform && p.load then hold .loadOp
  if s.me.pend.any Pend.uniform || s.here.uniDue.any (·.by_ = s.seat) then hold .arithOp

/-- A 64-bit operand of SPAWN in a lane: a wave's are of 32 bits (R86). -/
def State.spawnVal (s : State) (i : Iss) (sx : Bool) (o : Opnd) (l : Nat) : W64 :=
  if s.me.isWave then ext32 sx ((s.val i false o l).setWidth 32) else s.val i sx o l

/-- A record for each lane whose target exists, in ascending lane order, which R86 leaves open (DESIGN CHOICE, log 95); their
lanes. -/
def sendSpawns (a b c : Opnd) (i : Iss) : M (BitVec 16) := do
  let s ← get
  let lnum := match s.myTeam with
    | some t => t.lnum
    | none => 0
  let sent := (lanesOf i.lanes).filter fun l => (s.target (s.spawnVal i false a l)).isSome
  sent.forM fun l => match s.target (s.spawnVal i false a l) with
    | some dst => needChannel 6 dst
    | none => pure ()
  for l in sent do
    match s.target (s.spawnVal i false a l) with
    | some dst =>
      countEvent 0x16
      sendTask s.hereId dst
        { entry := wordsFrom s.me.curSlot.pc (s.spawnVal i true b l), arg0 := s.spawnVal i false c l, arg1 := 0,
          sender := s.globalId s.hereId, launch := lnum, kind := 0 }
    | none => pure ()
  return sent.foldl (fun m l => m ||| laneBit l) 0

/-- What `Spawn` asks of its issue. -/
def spawnReq (g : Guard) (d : Opnd) (a : Opnd) (b : Opnd) (c : Opnd) : Req :=
  { guard := g, ok := fun s => s.predOk d && s.laneSrcOk a && s.laneSrcOk b && s.laneSrcOk c, srcs := [a, b, c],
    dsts := [d], vec := true }

/-- SPAWN, the task form: a record for each lane acted on (R86). -/
def spawnBody (d : Opnd) (a : Opnd) (b : Opnd) (c : Opnd) (i : Iss) : M Unit := do
  landUniform
  let sent ← sendSpawns a b c i
  applyAll (maskWrites i d sent)

def execSpawn (g : Guard) (d a b c : Opnd) (s : State) : Host.Outcome State Fault Refusal :=
  runIssue (spawnReq g d a b c) (spawnBody d a b c) s

/-- QUIT: a thread ends; lanes leave a wave, and the wave ends with its last (R85). -/
def execQuit (g : Guard) (s : State) : Host.Outcome State Fault Refusal :=
  runCtl (ctlReq g)
    (fun i => do
      let c ← getMe
      let id ← myId
      let die : M Unit := do
        if (← get).seat.isSome then endContext id else setMe .blank
      if !c.isWave then return die
      let p := c.curSlot
      let left := p.mask &&& ~~~i.lanes
      if left ≠ 0 then
        modSlot fun p => { p with mask := left }
        return advance
      soundStack
      if !c.otherSlot.live && c.dsp = 0 then return die
      return do
        let more ← vacate c.cur
        arriveAll more
        settleSlot) s

def execNop (g : Guard) (s : State) : Host.Outcome State Fault Refusal :=
  runIssue (ctlReq g) (fun _ => pure ()) s

end Sys2Proof.Machine
end

