-- ==== Sys2Proof/Machine/Flags.lean ====
section
/-! DEFINITION. Binary floating point: formats, rounding, special values and flags (05_lanes.md R117, R121 to R125,
R129 to R134). Every result is the exact value rounded once. -/

namespace Sys2Proof.Machine

/-- Flags in the order of MODE[4:0]: NV, DZ, OF, UF, NX (R121). -/
abbrev FlagSet := BitVec 5

def flagNV : FlagSet := 16
def flagDZ : FlagSet := 8
def flagOF : FlagSet := 4
def flagUF : FlagSet := 2
def flagNX : FlagSet := 1

/-- A format: its exponent and fraction widths (R117). -/
structure Fmt where
  eb : Nat
  mb : Nat
  deriving DecidableEq, Repr

def f16Fmt : Fmt := ⟨5, 10⟩
def bf16Fmt : Fmt := ⟨8, 7⟩
def f32Fmt : Fmt := ⟨8, 23⟩
def f64Fmt : Fmt := ⟨11, 52⟩

def fmtOf (t : FTy) : Fmt :=
  match t with
  | .f32 => f32Fmt
  | .f64 => f64Fmt
  | .f16 => f16Fmt
  | .bf16 => bf16Fmt

def Fmt.bias (f : Fmt) : Nat := 2 ^ (f.eb - 1) - 1
def Fmt.expMax (f : Fmt) : Nat := 2 ^ f.eb - 1
/-- Exponent of the smallest normal. -/
def Fmt.emin (f : Fmt) : Int := 1 - f.bias

/-- How an instruction computes: its rounding code (R122) and whether subnormals are flushed (R124). -/
structure Env where
  rm : Nat
  ftz : Bool
  deriving DecidableEq, Repr

/-- FTZ does not apply to binary64 (R124). -/
def Env.flush (c : Env) (f : Fmt) : Bool := c.ftz && f.mb ≠ 52

/-- A datum: ±m × 2^e, an infinity, or a NaN with its fraction. -/
inductive Num where
  | fin (neg : Bool) (m : Nat) (e : Int)
  | inf (neg : Bool)
  | nan (neg : Bool) (frac : Nat)
  deriving DecidableEq, Repr

/-- A datum of a format read under R118 and R124. -/
def unpack (f : Fmt) (flush : Bool) (bits : Nat) : Num :=
  let neg := bits.testBit (f.eb + f.mb)
  let ex := bits / 2 ^ f.mb % 2 ^ f.eb
  let fr := bits % 2 ^ f.mb
  if ex = f.expMax then (if fr = 0 then .inf neg else .nan neg fr)
  else if ex = 0 then .fin neg (if flush then 0 else fr) (f.emin - f.mb)
  else .fin neg (fr + 2 ^ f.mb) ((ex : Int) - f.bias - f.mb)

def signBits (f : Fmt) (neg : Bool) : Nat := if neg then 2 ^ (f.eb + f.mb) else 0
def packZero (f : Fmt) (neg : Bool) : Nat := signBits f neg
def packInf (f : Fmt) (neg : Bool) : Nat := signBits f neg + f.expMax * 2 ^ f.mb
def packMax (f : Fmt) (neg : Bool) : Nat := packInf f neg - 1
/-- A quiet NaN with a fraction. -/
def packNan (f : Fmt) (neg : Bool) (frac : Nat) : Nat :=
  packInf f neg + (frac % 2 ^ (f.mb - 1)) + 2 ^ (f.mb - 1)
def canonicalNan (f : Fmt) : Nat := packNan f false 0

def Num.isNan : Num → Bool
  | .nan _ _ => true
  | _ => false

/-- Signalling: the top fraction bit is 0 (R117). -/
def Num.isSig (f : Fmt) : Num → Bool
  | .nan _ frac => frac < 2 ^ (f.mb - 1)
  | _ => false

def Num.isZero : Num → Bool
  | .fin _ m _ => m = 0
  | _ => false

def Num.isInf : Num → Bool
  | .inf _ => true
  | _ => false

def Num.isNeg : Num → Bool
  | .fin n _ _ => n
  | .inf n => n
  | .nan n _ => n

/-- The other sign, as an operation takes it: a NaN keeps its own. -/
def Num.flip : Num → Num
  | .fin n m e => .fin (!n) m e
  | .inf n => .inf (!n)
  | .nan n frac => .nan n frac

/-- NaN results (R123): the first NaN operand made quiet; a signalling one raises NV. -/
def nanOf (f : Fmt) (ops : List Num) : Option (Nat × FlagSet) :=
  match ops.find? Num.isNan with
  | some (.nan n frac) => some (packNan f n frac, if ops.any (Num.isSig f) then flagNV else 0)
  | _ => none

def invalid (f : Fmt) : Nat × FlagSet := (canonicalNan f, flagNV)

/-! Rounding (R122, R124). -/

/-- Whether a quotient with remainder r of d is rounded up; `odd`: its lowest bit. -/
def roundsUp (rm : Nat) (neg odd : Bool) (r d : Nat) : Bool :=
  match rm with
  | 1 => d < 2 * r || (2 * r = d && odd)
  | 3 => !neg && r ≠ 0
  | 4 => neg && r ≠ 0
  | 5 => d ≤ 2 * r
  | _ => false

/-- The quotient n / d rounded to an integer, and whether it is inexact; round to odd sets the lowest bit. -/
def roundDiv (rm : Nat) (neg : Bool) (n d : Nat) : Nat × Bool :=
  let q := n / d
  let r := n % d
  let up := roundsUp rm neg (q % 2 = 1) r d
  let v := if up then q + 1 else if rm = 7 && r ≠ 0 && q % 2 = 0 then q + 1 else q
  (v, r ≠ 0)

/-- num / den × 2^e rounded to a multiple of 2^q: the multiple, and whether it is inexact. -/
def roundAt (rm : Nat) (neg : Bool) (num den : Nat) (e q : Int) : Nat × Bool :=
  roundDiv rm neg (num * 2 ^ (e - q).toNat) (den * 2 ^ (q - e).toNat)

/-- The largest k with 2^k ≤ num / den (both positive). -/
def floorLog2 (num den : Nat) : Int :=
  let k : Int := (num.log2 : Int) - den.log2
  if den * 2 ^ k.toNat ≤ num * 2 ^ (-k).toNat then k else k - 1

/-- A magnitude m × 2^q in a format, m below 2^(mb+1) or equal to it. -/
def packFin (f : Fmt) (neg : Bool) (m : Nat) (q : Int) : Nat :=
  let m2 := if m = 2 ^ (f.mb + 1) then m / 2 else m
  let q2 := if m = 2 ^ (f.mb + 1) then q + 1 else q
  if m2 < 2 ^ f.mb then signBits f neg + m2
  else signBits f neg + (q2 + f.mb + f.bias).toNat * 2 ^ f.mb + (m2 - 2 ^ f.mb)

/-- What an overflow gives (R122). -/
def overflowBits (f : Fmt) (rm : Nat) (neg : Bool) : Nat :=
  let toMax : Bool := match rm with
    | 2 => true
    | 3 => neg
    | 4 => !neg
    | 7 => true
    | _ => false
  if toMax then packMax f neg else packInf f neg

/-- The exact value ±num / den × 2^e, not zero, rounded once into a format. -/
def roundF (f : Fmt) (c : Env) (neg : Bool) (num den : Nat) (e : Int) : Nat × FlagSet :=
  let q := floorLog2 num den + e - f.mb
  let u := roundAt c.rm neg num den e q
  let tiny : Bool := q + u.1.log2 < f.emin
  if tiny then
    if c.flush f then (packZero f neg, flagUF ||| flagNX)
    else
      let b := roundAt c.rm neg num den e (f.emin - f.mb)
      (packFin f neg b.1 (f.emin - f.mb), if b.2 then flagUF ||| flagNX else 0)
  else
    let qb := max q (f.emin - f.mb)
    let b := if qb = q then u else roundAt c.rm neg num den e qb
    if (f.bias : Int) < qb + b.1.log2 then (overflowBits f c.rm neg, flagOF ||| flagNX)
    else (packFin f neg b.1 qb, if b.2 then flagNX else 0)

/-- An exact value m × 2^e of a sign, zero included. -/
def roundNum (f : Fmt) (c : Env) (neg : Bool) (m : Nat) (e : Int) : Nat × FlagSet :=
  if m = 0 then (packZero f neg, 0) else roundF f c neg m 1 e

/-- An exact sum as an integer multiple of 2^e; an exact zero has the sign `zneg`. -/
def roundSum (f : Fmt) (c : Env) (v : Int) (e : Int) (zneg : Bool) : Nat × FlagSet :=
  if v = 0 then (packZero f zneg, 0) else roundF f c (v < 0) v.natAbs 1 e

/-- Sign of an exact zero sum of terms of the given signs (R122). -/
def zeroSign (c : Env) (n1 n2 : Bool) : Bool := if n1 = n2 then n1 else c.rm = 4

def signed (neg : Bool) (m : Nat) : Int := if neg then -(m : Int) else m

/-! Operations (R129, R130). -/

/-- a × b + z, in which NaNs are looked for in `ops`. -/
def fmaNum (f : Fmt) (c : Env) (ops : List Num) (a b z : Num) : Nat × FlagSet :=
  match nanOf f ops with
  | some r => r
  | none =>
    if (a.isZero && b.isInf) || (a.isInf && b.isZero) then invalid f
    else
      let pneg := xor a.isNeg b.isNeg
      if a.isInf || b.isInf then
        (if z.isInf && z.isNeg ≠ pneg then invalid f else (packInf f pneg, 0))
      else match a, b, z with
        | _, _, .inf n => (packInf f n, 0)
        | .fin _ m1 e1, .fin _ m2 e2, .fin n3 m3 e3 =>
          let e := min (e1 + e2) e3
          let v := signed pneg (m1 * m2 * 2 ^ (e1 + e2 - e).toNat) + signed n3 (m3 * 2 ^ (e3 - e).toNat)
          roundSum f c v e (zeroSign c pneg n3)
        | _, _, _ => invalid f

def addNum (f : Fmt) (c : Env) (a b : Num) : Nat × FlagSet := fmaNum f c [a, b] a (.fin false 1 0) b

def subNum (f : Fmt) (c : Env) (a b : Num) : Nat × FlagSet := fmaNum f c [a, b] a (.fin false 1 0) b.flip

def mulNum (f : Fmt) (c : Env) (a b : Num) : Nat × FlagSet :=
  match nanOf f [a, b] with
  | some r => r
  | none =>
    let neg := xor a.isNeg b.isNeg
    match a, b with
    | .fin _ m1 e1, .fin _ m2 e2 => roundNum f c neg (m1 * m2) (e1 + e2)
    | _, _ => if a.isZero || b.isZero then invalid f else (packInf f neg, 0)

/-- The variants of the fused multiply-add; 0 × ∞ with a quiet NaN addend gives that NaN and no flag (R123). -/
def fmaOp (f : Fmt) (c : Env) (op : FmaOp) (a b z : Num) : Nat × FlagSet :=
  let a1 := match op with
    | .fma | .fms => a
    | .fnma | .fnms => a.flip
  let z1 := match op with
    | .fma | .fnma => z
    | .fms | .fnms => z.flip
  fmaNum f c [a, b, z] a1 b z1

def divNum (f : Fmt) (c : Env) (a b : Num) : Nat × FlagSet :=
  match nanOf f [a, b] with
  | some r => r
  | none =>
    let neg := xor a.isNeg b.isNeg
    match a, b with
    | .inf _, .inf _ => invalid f
    | .inf _, _ => (packInf f neg, 0)
    | _, .inf _ => (packZero f neg, 0)
    | .fin _ m1 e1, .fin _ m2 e2 =>
      if m2 = 0 then (if m1 = 0 then invalid f else (packInf f neg, flagDZ))
      else if m1 = 0 then (packZero f neg, 0)
      else roundF f c neg m1 m2 (e1 - e2)
    | _, _ => invalid f

/-- The integer square root from its top bit down: bits below `k` are still to be found. -/
def isqrtGo (n : Nat) : Nat → Nat → Nat
  | 0, r => r
  | k + 1, r => isqrtGo n k (if (r + 2 ^ k) * (r + 2 ^ k) ≤ n then r + 2 ^ k else r)

def isqrt (n : Nat) : Nat := isqrtGo n (n.log2 / 2 + 1) 0

/-- √n as a quotient by 2, its last bit sticky, n large enough that the bits above it hold a significand. -/
def sqrtSticky (n : Nat) : Nat :=
  let i := isqrt n
  2 * i + (if i * i = n then 0 else 1)

def sqrtNum (f : Fmt) (c : Env) (a : Num) : Nat × FlagSet :=
  match nanOf f [a] with
  | some r => r
  | none =>
    match a with
    | .fin neg m e =>
      if m = 0 then (packZero f neg, 0)
      else if neg then invalid f
      else
        -- m × 2^e with an even exponent and at least 2 (mb + 3) bits
        let k : Nat := 2 * (f.mb + 3)
        let odd := (e - k) % 2 ≠ 0
        let sh := if odd then k + 1 else k
        roundF f c false (sqrtSticky (m * 2 ^ sh)) 2 ((e - sh) / 2)
    | .inf false => (packInf f false, 0)
    | _ => invalid f

def rcpNum (f : Fmt) (c : Env) (a : Num) : Nat × FlagSet := divNum f c (.fin false 1 0) a

def rsqNum (f : Fmt) (c : Env) (a : Num) : Nat × FlagSet :=
  match nanOf f [a] with
  | some r => r
  | none =>
    match a with
    | .fin neg m e =>
      if m = 0 then (packInf f neg, flagDZ)
      else if neg then invalid f
      else
        -- √(2^(2k) / m') / 2^k × 2^(−e'/2), e' even
        let m1 := if e % 2 = 0 then m else 2 * m
        let e1 := if e % 2 = 0 then e else e - 1
        let k : Nat := f.mb + 8 + m1.log2
        let n := 2 ^ (2 * k)
        let i := isqrt (n / m1)
        let v := 2 * i + (if i * i * m1 = n then 0 else 1)
        roundF f c false v 2 (-(k : Int) - e1 / 2)
    | .inf false => (packZero f false, 0)
    | _ => invalid f

/-! Special functions: fixed point with `fxBits` bits, far beyond what any input of 32 bits or less needs to be
rounded as the exact value (DEDUCED, log 15). -/

def fxBits : Nat := 448
def fxOne : Nat := 2 ^ fxBits

def fxMul (a b : Nat) : Nat := a * b / fxOne

/-- Σ z^(2i+1) / (2i+1), n terms: atanh z. -/
def atanhSum (z2 : Nat) : Nat → Nat → Nat → Nat
  | 0, _, _ => 0
  | n + 1, pow, i => pow / (2 * i + 1) + atanhSum z2 n (fxMul pow z2) (i + 1)

/-- ln of num / den in [1, 2]: 2 atanh ((num − den) / (num + den)). -/
def fxLn (num den : Nat) : Nat :=
  let z := (num - den) * fxOne / (num + den)
  2 * atanhSum (fxMul z z) 150 z 0

def fxLn2 : Nat := fxLn 2 1

/-- Σ (−1)^i z^(2i+1) / (2i+1) split in its positive and negative terms: arctan (1 / k). -/
def atanSum (k : Nat) : Nat → Nat → Nat → Int
  | 0, _, _ => 0
  | n + 1, pow, i =>
    (if i % 2 = 0 then ((pow / (2 * i + 1) : Nat) : Int) else -((pow / (2 * i + 1) : Nat) : Int)) +
      atanSum k n (pow / (k * k)) (i + 1)

/-- π by Machin's formula. -/
def fxPi : Nat := (16 * atanSum 5 110 (fxOne / 5) 0 - 4 * atanSum 239 40 (fxOne / 239) 0).toNat

/-- Σ x^i / i!, n terms from term i. -/
def expSum (x : Nat) : Nat → Nat → Nat → Nat
  | 0, _, _ => 0
  | n + 1, term, i => term + expSum x n (fxMul term x / (i + 1)) (i + 1)

/-- The alternating sum of x^(2j+i) / (2j+i)!: the sine from i = 1, the cosine from i = 0. -/
def altSum (x2 : Nat) : Nat → Nat → Nat → Bool → Int
  | 0, _, _, _ => 0
  | n + 1, term, i, neg =>
    signed neg term + altSum x2 n (fxMul term x2 / ((i + 1) * (i + 2))) (i + 2) (!neg)

def fxSin (x : Nat) : Nat := (altSum (fxMul x x) 110 x 1 false).toNat
def fxCos (x : Nat) : Nat := (altSum (fxMul x x) 110 fxOne 0 false).toNat

/-- An approximation v / 2^fxBits × 2^e of an irrational value, rounded; its last place is sticky. -/
def roundFx (f : Fmt) (c : Env) (neg : Bool) (v : Nat) (e : Int) : Nat × FlagSet :=
  roundF f c neg (2 * v + 1) 1 (e - fxBits - 1)

/-- The integer part (floor) of m × 2^e of a sign, and the fraction as a fixed-point number. -/
def floorFrac (neg : Bool) (m : Nat) (e : Int) : Int × Nat :=
  let n : Int := signed neg m * 2 ^ (e + fxBits).toNat
  let fl := n / (fxOne : Int)
  (fl, (n - fl * fxOne).toNat)

def exp2Num (f : Fmt) (c : Env) (a : Num) : Nat × FlagSet :=
  match nanOf f [a] with
  | some r => r
  | none =>
    match a with
    | .inf neg => if neg then (packZero f false, 0) else (packInf f false, 0)
    | .fin neg m e =>
      if m = 0 then roundF f c false 1 1 0
      else if 12 ≤ (m.log2 : Int) + e then roundF f c false 3 1 (if neg then -5000 else 5000)
      else
        let p := floorFrac neg m e
        if p.2 = 0 then roundF f c false 1 1 p.1
        else roundFx f c false (expSum (fxMul p.2 fxLn2) 110 fxOne 0) p.1
    | _ => invalid f

def log2Num (f : Fmt) (c : Env) (a : Num) : Nat × FlagSet :=
  match nanOf f [a] with
  | some r => r
  | none =>
    match a with
    | .inf false => (packInf f false, 0)
    | .fin neg m e =>
      if m = 0 then (packInf f true, flagDZ)
      else if neg then invalid f
      else
        let k : Int := (m.log2 : Int) + e
        if m = 2 ^ m.log2 then roundSum f c k 0 false
        else
          let frac := fxLn m (2 ^ m.log2) * fxOne / fxLn2
          let v : Int := k * fxOne + frac
          roundFx f c (v < 0) (if v < 0 then v.natAbs - 1 else v.natAbs) 0
    | _ => invalid f

/-- a mod 2 as a fixed-point number in [0, 2). -/
def mod2Fx (neg : Bool) (m : Nat) (e : Int) : Nat :=
  let p := floorFrac neg m e
  (p.1 % 2).toNat * fxOne + p.2

/-- sin (π r) for r in [0, 1], fixed point. -/
def fxSinPi (r : Nat) : Nat :=
  let h := if fxOne < 2 * r then fxOne - r else r
  if 4 * h ≤ fxOne then fxSin (fxMul h fxPi) else fxCos (fxMul (fxOne / 2 - h) fxPi)

/-- sin (π a) (R130); an odd multiple of ½ gives ±1. -/
def sinNum (f : Fmt) (c : Env) (a : Num) : Nat × FlagSet :=
  match nanOf f [a] with
  | some r => r
  | none =>
    match a with
    | .fin neg m e =>
      if m = 0 then (packZero f neg, 0) else
      let r := mod2Fx false m e
      let half := r % fxOne
      let flip := xor neg (fxOne ≤ r)
      if half = 0 then (packZero f neg, 0)
      else if 2 * half = fxOne then roundF f c flip 1 1 0
      else roundFx f c flip (fxSinPi half) 0
    | _ => invalid f

/-- cos (π a) (R130). -/
def cosNum (f : Fmt) (c : Env) (a : Num) : Nat × FlagSet :=
  match nanOf f [a] with
  | some r => r
  | none =>
    match a with
    | .fin _ m e =>
      let r := mod2Fx false m e
      let s := if fxOne < r then 2 * fxOne - r else r      -- cos is even about 0 and about 1
      if s = 0 then roundF f c false 1 1 0
      else if s = fxOne then roundF f c true 1 1 0
      else if 2 * s = fxOne then (packZero f false, 0)
      else if 2 * s < fxOne then roundFx f c false (fxSinPi (fxOne / 2 - s)) 0
      else roundFx f c true (fxSinPi (s - fxOne / 2)) 0
    | _ => invalid f

/-! Comparison, minimum and maximum, classes (R130 to R132). -/

/-- Order of two data that are no NaN: a < b, with −0 equal to +0. -/
def numLt (a b : Num) : Bool :=
  match a, b with
  | .inf n1, .inf n2 => n1 && !n2
  | .inf n1, _ => n1
  | _, .inf n2 => !n2
  | .fin n1 m1 e1, .fin n2 m2 e2 =>
    let e := min e1 e2
    signed n1 (m1 * 2 ^ (e1 - e).toNat) < signed n2 (m2 * 2 ^ (e2 - e).toNat)
  | _, _ => false

def cmpNum (f : Fmt) (k : FCond) (a b : Num) : Bool × FlagSet :=
  let un := a.isNan || b.isNan
  let sig := a.isSig f || b.isSig f
  let lt := !un && numLt a b
  let gt := !un && numLt b a
  let eq := !un && !lt && !gt
  let loud : Bool := match k with
    | .lt | .le | .gt | .ge => un
    | _ => false
  (match k with
    | .eq => eq
    | .ne => !eq
    | .lt => lt
    | .le => lt || eq
    | .gt => gt
    | .ge => gt || eq
    | .un => un
    | .ord => !un,
   if sig || loud then flagNV else 0)

/-- The bits of a datum that needs no rounding. -/
def packNum (f : Fmt) (x : Num) : Nat :=
  match x with
  | .inf n => packInf f n
  | .nan n frac => packNan f n frac
  | .fin n m e => if m = 0 then packZero f n else packFin f n (m * 2 ^ (e - max (f.emin - f.mb) ((m.log2 : Int) + e - f.mb)).toNat)
      (max (f.emin - f.mb) ((m.log2 : Int) + e - f.mb))

/-- −0 orders below +0 (R130). -/
def minFirst (a b : Num) : Bool := numLt a b || (!numLt b a && a.isNeg)

def minmaxNum (f : Fmt) (op : FMinMax) (a b : Num) : Nat × FlagSet :=
  let nv : FlagSet := if a.isSig f || b.isSig f then flagNV else 0
  let pick (lo : Bool) : Nat := packNum f (if minFirst a b = lo then a else b)
  match op with
  | .min => match nanOf f [a, b] with
    | some r => r
    | none => (pick true, 0)
  | .max => match nanOf f [a, b] with
    | some r => r
    | none => (pick false, 0)
  | .minnum =>
    if a.isNan && !b.isNan then (packNum f b, nv)
    else if b.isNan && !a.isNan then (packNum f a, nv)
    else match nanOf f [a, b] with
      | some r => r
      | none => (pick true, 0)
  | .maxnum =>
    if a.isNan && !b.isNan then (packNum f b, nv)
    else if b.isNan && !a.isNan then (packNum f a, nv)
    else match nanOf f [a, b] with
      | some r => r
      | none => (pick false, 0)

/-- The class mask of R132; FTZ does not apply. -/
def classMask (f : Fmt) (bits : Nat) : Nat :=
  match unpack f false bits with
  | .inf n => if n then 1 else 2 ^ 7
  | .nan n frac => if (Num.nan n frac).isSig f then 2 ^ 8 else 2 ^ 9
  | .fin n m _ =>
    if m = 0 then (if n then 2 ^ 3 else 2 ^ 4)
    else if m < 2 ^ f.mb then (if n then 2 ^ 2 else 2 ^ 5)
    else (if n then 2 ^ 1 else 2 ^ 6)

/-! Conversions (R133, R134, R137). -/

/-- A datum to an integer of a range. -/
def toIntNum (c : Env) (lo hi : Int) (x : Num) : Int × FlagSet :=
  match x with
  | .nan _ _ => (0, flagNV)
  | .inf n => (if n then lo else hi, flagNV)
  | .fin n m e =>
    let r := roundAt c.rm n m 1 e 0
    let v := signed n r.1
    if v < lo then (lo, flagNV)
    else if hi < v then (hi, flagNV)
    else (v, if r.2 then flagNX else 0)

/-- An integer to a format. -/
def ofInt (f : Fmt) (c : Env) (v : Int) : Nat × FlagSet := roundSum f c v 0 false

/-- A datum of one format to another; a NaN's payload is cut or widened at its low end (R123). -/
def convNum (src dst : Fmt) (c : Env) (x : Num) : Nat × FlagSet :=
  match x with
  | .nan n frac =>
    (packNan dst n (if dst.mb ≤ src.mb then frac / 2 ^ (src.mb - dst.mb) else frac * 2 ^ (dst.mb - src.mb)),
     if x.isSig src then flagNV else 0)
  | .inf n => (packInf dst n, 0)
  | .fin n m e => roundNum dst c n m e

/-- A datum rounded to an integral datum of its format, keeping its sign (R133). -/
def rintNum (f : Fmt) (c : Env) (x : Num) : Nat × FlagSet :=
  match nanOf f [x] with
  | some r => r
  | none =>
    match x with
    | .inf n => (packInf f n, 0)
    | .fin n m e =>
      if 0 ≤ e then (packNum f x, 0) else
      let r := roundAt c.rm n m 1 e 0
      (packNum f (.fin n r.1 0), if r.2 then flagNX else 0)
    | _ => invalid f

/-! The environment of an instruction. -/

/-- Rounding codes of R122. -/
def rndCode (r : Rnd) : Nat :=
  match r with
  | .dyn => 0
  | .rne => 1
  | .rtz => 2
  | .rup => 3
  | .rdn => 4
  | .rna => 5
  | .rto => 7

/-- The rounding and FTZ of an instruction; `dyn` takes MODE.RM as it stands (R122). -/
def Ctx.env (c : Ctx) (r : Rnd) : Env :=
  { rm := if r = .dyn then (c.mode.extractLsb' 8 3).toNat else rndCode r, ftz := c.mode.getLsbD 12 }

end Sys2Proof.Machine
end

