-- ==== Sys2Proof/Machine/Int.lean ====
section
/-! DEFINITION. The scalar and uniform integer group, majors 0x00 to 0x1F (04_registers.md R101 to R107). -/

namespace Sys2Proof.Machine

/-! Types (R89, R101). -/

def tyW64 (t : IntTy) : Bool :=
  match t with
  | .s32 | .z32 => false
  | .s64 | .z64 => true

def tySigned (t : IntTy) : Bool :=
  match t with
  | .s32 | .s64 => true
  | .z32 | .z64 => false

/-- The unsigned type of a width. -/
def zTy (w64 : Bool) : IntTy := if w64 then .z64 else .z32

def tyBits (t : IntTy) : Nat := if tyW64 t then 64 else 32

/-- A value read at a type's width. -/
def readTy (t : IntTy) (v : W64) : Nat := if tyW64 t then v.toNat else (v.setWidth 32).toNat

/-- A value read at a type's width and signedness. -/
def readInt (t : IntTy) (v : W64) : Int :=
  match t with
  | .s32 => (v.setWidth 32).toInt
  | .s64 => v.toInt
  | _ => readTy t v

/-- A result written at a type's width, extended to 64 bits (R89). -/
def writeTy (t : IntTy) (v : W64) : W64 := if tyW64 t then v else ext32 (tySigned t) (v.setWidth 32)

/-- An exact integer result wrapped into a type (R101). -/
def wrapTy (t : IntTy) (v : Int) : W64 := writeTy t (BitVec.ofInt 64 v)

/-! Results (R102 to R104). -/

def cmpInts (k : Cond) (a b : Int) : Bool :=
  match k with
  | .eq => a = b
  | .ne => a ≠ b
  | .lt => a < b
  | .le => a ≤ b
  | .gt => a > b
  | .ge => a ≥ b

/-- Division toward zero; by zero the quotient is all ones (R103). -/
def divResult (t : IntTy) (a b : W64) : W64 :=
  if readInt t b = 0 then wrapTy t (-1) else wrapTy t ((readInt t a).tdiv (readInt t b))

/-- The remainder, of the dividend's sign; by zero the dividend (R103). -/
def remResult (t : IntTy) (a b : W64) : W64 :=
  if readInt t b = 0 then wrapTy t (readInt t a) else wrapTy t ((readInt t a).tmod (readInt t b))

/-- Shift left by b mod W. -/
def shlResult (t : IntTy) (a b : W64) : W64 := writeTy t (a <<< (b.toNat % tyBits t))

/-- Shift right by b mod W, arithmetic or logical by type. -/
def shrResult (t : IntTy) (a b : W64) : W64 := wrapTy t (readInt t a / 2 ^ (b.toNat % tyBits t))

/-- Rotation of the low W bits by n mod W to the left. -/
def rotlNat (w a n : Nat) : Nat := (a <<< (n % w) ||| a >>> (w - n % w)) % 2 ^ w

def rotResult (w64 left : Bool) (a b : W64) : W64 :=
  let w := tyBits (zTy w64)
  let n := b.toNat % w
  BitVec.ofNat 64 (rotlNat w (readTy (zTy w64) a) (if left then n else w - n))

/-- The width of a field (R103). -/
def fieldLen (w pos len : Nat) : Nat := min len (w - pos)

/-- A field of n bits, extended. -/
def extendField (signed : Bool) (v n : Nat) : Int :=
  if signed && n ≠ 0 && v / 2 ^ (n - 1) % 2 = 1 then (v : Int) - 2 ^ n else v

def bfxResult (t : IntTy) (a b c : W64) : W64 :=
  let pos := field b 0 6
  let n := fieldLen (tyBits t) pos (field c 0 7)
  wrapTy t (extendField (tySigned t) (readTy t a / 2 ^ pos % 2 ^ n) n)

def bfiResult (w64 : Bool) (a b c : W64) : W64 :=
  let t := zTy w64
  let pos := field c 0 6
  let n := fieldLen (tyBits t) pos (field c 8 7)
  let mask : W64 := BitVec.ofNat 64 ((2 ^ n - 1) * 2 ^ pos)
  writeTy t ((a &&& ~~~mask) ||| ((b <<< pos) &&& mask))

def sxtResult (t : IntTy) (a b : W64) : W64 :=
  let n := field b 0 6
  if tyBits t - 1 ≤ n then writeTy t a
  else wrapTy t (extendField (tySigned t) (readTy t a % 2 ^ (n + 1)) (n + 1))

/-- Number of 1 bits among the lowest `n`. -/
def popcount (v : Nat) : Nat → Nat
  | 0 => 0
  | n + 1 => popcount v n + v / 2 ^ n % 2

/-- Leading zeros of the lowest `n` bits. -/
def leadingZeros (v : Nat) : Nat → Nat
  | 0 => 0
  | n + 1 => if v.testBit n then 0 else 1 + leadingZeros v n

/-- Trailing zeros, at most `n`. -/
def trailingZeros (v : Nat) : Nat → Nat
  | 0 => 0
  | n + 1 => if v.testBit 0 then 0 else 1 + trailingZeros (v / 2) n

/-- Bits 0 to n − 1 in reverse. -/
def reverseBits (v : Nat) : Nat → Nat
  | 0 => 0
  | n + 1 => 2 ^ n * (v % 2) + reverseBits (v / 2) n

def hashResult (op : HashOp) (a b : W64) : W64 :=
  let b32 := (b.setWidth 32).toNat
  match op with
  | .crc32 => BitVec.ofNat 64 (crcBytes b32 (natToBytes 4 (a.setWidth 32).toNat))
  | .crc64 => BitVec.ofNat 64 (crcBytes b32 (natToBytes 8 a.toNat))
  | .range => BitVec.ofNat 64 ((a.setWidth 32).toNat * b32 / 2 ^ 32)

/-! Addresses (R105, R106). -/

def isAperture (a : W64) : Bool := field a 48 16 = 0xFFFF

def validLocal (a : W64) : Bool := field a 40 24 = 0xFFFFFF && field a 0 40 < 0x18000

def validClus (a : W64) : Bool :=
  field a 40 24 = 0xFFFFFE && field a 23 17 = 0 && field a 17 6 < 48 && field a 0 17 < 0x18000

/-- Test 2 of R190 with a size of 1 byte. -/
def Ctx.inLimit (c : Ctx) (a : W64) : Bool := field a 0 61 < segLimit (c.seg (field a 61 3))

/-- The virtual address under an address's segment. -/
def Ctx.virtOf (c : Ctx) (a : W64) : W64 := BitVec.ofNat 64 (segBase (c.seg (field a 61 3)) + field a 0 61)

/-- A range of the core's pricking table holds a virtual address. -/
def Core.pricked (c : Core) (va : Nat) : Bool :=
  (List.range 32).any fun i =>
    let w := (Store.get Prick.reset c.pricks i).word
    let base := field w 0 51 * 64
    (field w 78 2 = 1 || field w 78 2 = 2) && base ≤ va && va < base + 64 * field w 65 11

def State.inWindow (s : State) (w : Win) (a : W64) : Bool :=
  match w with
  | .local => validLocal a
  | .clus => validClus a
  | .prick => !isAperture a && s.me.inLimit a && s.here.pricked (s.me.virtOf a).toNat
  | .seg => !isAperture a && s.me.inLimit a

def cvtaResult (core : Nat) (c : Ctx) (m : CvtaMode) (a : W64) : W64 :=
  match m with
  | .tocl =>
    if validLocal a then 0xFFFFFE0000000000 ||| BitVec.ofNat 64 (core % 48 * 2 ^ 17) ||| BitVec.ofNat 64 (field a 0 17)
    else a
  | .toloc =>
    if validClus a && field a 17 6 = core % 48 then 0xFFFFFF0000000000 ||| BitVec.ofNat 64 (field a 0 17) else a
  | .tovirt => if isAperture a then a else c.virtOf a

/-! The shapes of the group. -/

/-- An instruction with a typed destination, of a latency (R108). -/
def intReq (g : Guard) (t : IntTy) (d : Opnd) (srcs : List Opnd) (lat : Nat := 1) : Req :=
  { guard := g, ok := fun s => srcs.all (s.srcOk false) && s.dstOk (tyW64 t) false d, srcs := srcs, dsts := [d],
    lat := lat }

/-- An instruction with a predicate destination. -/
def intPredReq (g : Guard) (d : Opnd) (srcs : List Opnd) : Req :=
  { guard := g, ok := fun s => srcs.all (s.srcOk false) && s.predOk d, srcs := srcs, dsts := [d] }

def intOne (g : Guard) (t : IntTy) (d a : Opnd) (f : W64 → W64) (s : State) : Host.Outcome State Fault Refusal :=
  runIssue (intReq g t d [a]) (fun i => do putScalar i d (f (← sval i a (tySigned t)))) s

def intTwo (g : Guard) (t : IntTy) (d a b : Opnd) (f : W64 → W64 → W64) (s : State) (lat : Nat := 1) :
    Host.Outcome State Fault Refusal :=
  runIssue (intReq g t d [a, b] lat)
    (fun i => do putScalar i d (f (← sval i a (tySigned t)) (← sval i b (tySigned t)))) s

def intThree (g : Guard) (t : IntTy) (d a b c : Opnd) (f : W64 → W64 → W64 → W64) (s : State) (lat : Nat := 1) :
    Host.Outcome State Fault Refusal :=
  runIssue (intReq g t d [a, b, c] lat)
    (fun i => do
      putScalar i d (f (← sval i a (tySigned t)) (← sval i b (tySigned t)) (← sval i c (tySigned t)))) s

/-- The long-latency members, DIV and REM (R40, R103). -/
def intLong (la : BitVec 4) (g : Guard) (t : IntTy) (d a b : Opnd) (f : W64 → W64 → W64) (s : State) :
    Host.Outcome State Fault Refusal :=
  runIssue
    { guard := g, ok := fun s => s.srcOk false a && s.srcOk false b && s.dstOk (tyW64 t) true d, srcs := [a, b],
      dsts := [d], long := true }
    (fun i => do
      let v := f (← sval i a (tySigned t)) (← sval i b (tySigned t))
      putLater la.toNat false i d ((← get).scalarWrites i d v) [v]) s

/-! The members. -/

def execAdd (g : Guard) (t : IntTy) (d a b : Opnd) (s : State) : Host.Outcome State Fault Refusal :=
  intTwo g t d a b (fun x y => writeTy t (x + y)) s

def execSub (g : Guard) (t : IntTy) (d a b : Opnd) (s : State) : Host.Outcome State Fault Refusal :=
  intTwo g t d a b (fun x y => writeTy t (x - y)) s

def execAddi (g : Guard) (t : IntTy) (d a : Opnd) (imm : BitVec 28) (s : State) : Host.Outcome State Fault Refusal :=
  intOne g t d a (fun x => writeTy t (x + imm.signExtend 64)) s

def execMul (g : Guard) (t : IntTy) (d a b : Opnd) (s : State) : Host.Outcome State Fault Refusal :=
  intTwo g t d a b (fun x y => writeTy t (x * y)) s 3

def execMulh (g : Guard) (t : IntTy) (d a b : Opnd) (s : State) : Host.Outcome State Fault Refusal :=
  intTwo g t d a b (fun x y => wrapTy t (readInt t x * readInt t y / 2 ^ tyBits t)) s 3

def execDiv (la : BitVec 4) (g : Guard) (t : IntTy) (d a b : Opnd) (s : State) : Host.Outcome State Fault Refusal :=
  intLong la g t d a b (divResult t) s

def execRem (la : BitVec 4) (g : Guard) (t : IntTy) (d a b : Opnd) (s : State) : Host.Outcome State Fault Refusal :=
  intLong la g t d a b (remResult t) s

def execMinmax (g : Guard) (t : IntTy) (max : Bool) (d a b : Opnd) (s : State) : Host.Outcome State Fault Refusal :=
  intTwo g t d a b
    (fun x y => writeTy t (if decide (readInt t x ≤ readInt t y) = max then y else x)) s

def execAnd (g : Guard) (w64 : Bool) (d a b : Opnd) (s : State) : Host.Outcome State Fault Refusal :=
  intTwo g (zTy w64) d a b (fun x y => writeTy (zTy w64) (x &&& y)) s

def execOr (g : Guard) (w64 : Bool) (d a b : Opnd) (s : State) : Host.Outcome State Fault Refusal :=
  intTwo g (zTy w64) d a b (fun x y => writeTy (zTy w64) (x ||| y)) s

def execXor (g : Guard) (w64 : Bool) (d a b : Opnd) (s : State) : Host.Outcome State Fault Refusal :=
  intTwo g (zTy w64) d a b (fun x y => writeTy (zTy w64) (x ^^^ y)) s

def execAndn (g : Guard) (w64 : Bool) (d a b : Opnd) (s : State) : Host.Outcome State Fault Refusal :=
  intTwo g (zTy w64) d a b (fun x y => writeTy (zTy w64) (x &&& ~~~y)) s

def execShl (g : Guard) (w64 : Bool) (d a b : Opnd) (s : State) : Host.Outcome State Fault Refusal :=
  intTwo g (zTy w64) d a b (shlResult (zTy w64)) s

def execShr (g : Guard) (t : IntTy) (d a b : Opnd) (s : State) : Host.Outcome State Fault Refusal :=
  intTwo g t d a b (shrResult t) s

def execRot (g : Guard) (w64 left : Bool) (d a b : Opnd) (s : State) : Host.Outcome State Fault Refusal :=
  intTwo g (zTy w64) d a b (rotResult w64 left) s

def execBfx (g : Guard) (t : IntTy) (d a b c : Opnd) (s : State) : Host.Outcome State Fault Refusal :=
  intThree g t d a b c (bfxResult t) s

def execBfi (g : Guard) (w64 : Bool) (d a b c : Opnd) (s : State) : Host.Outcome State Fault Refusal :=
  intThree g (zTy w64) d a b c (bfiResult w64) s

def execPopc (g : Guard) (w64 : Bool) (d a : Opnd) (s : State) : Host.Outcome State Fault Refusal :=
  intOne g (zTy w64) d a (fun x => BitVec.ofNat 64 (popcount (readTy (zTy w64) x) (tyBits (zTy w64)))) s

def execClz (g : Guard) (w64 : Bool) (d a : Opnd) (s : State) : Host.Outcome State Fault Refusal :=
  intOne g (zTy w64) d a (fun x => BitVec.ofNat 64 (leadingZeros (readTy (zTy w64) x) (tyBits (zTy w64)))) s

def execCtz (g : Guard) (w64 : Bool) (d a : Opnd) (s : State) : Host.Outcome State Fault Refusal :=
  intOne g (zTy w64) d a (fun x => BitVec.ofNat 64 (trailingZeros (readTy (zTy w64) x) (tyBits (zTy w64)))) s

def execBrev (g : Guard) (w64 : Bool) (d a : Opnd) (s : State) : Host.Outcome State Fault Refusal :=
  intOne g (zTy w64) d a (fun x => BitVec.ofNat 64 (reverseBits (readTy (zTy w64) x) (tyBits (zTy w64)))) s

/-- CMP writes one bit into every lane acted on (R95). -/
def execCmp (g : Guard) (t : IntTy) (k : Cond) (d a b : Opnd) (s : State) : Host.Outcome State Fault Refusal :=
  runIssue (intPredReq g d [a, b])
    (fun i => do
      let x := readInt t (← sval i a (tySigned t))
      let y := readInt t (← sval i b (tySigned t))
      putScalar i d (if cmpInts k x y then 1 else 0)) s

/-- SEL's condition is the representative lane's (R95). -/
def execSel (g : Guard) (w64 : Bool) (d a b c : Opnd) (s : State) : Host.Outcome State Fault Refusal :=
  runIssue
    { guard := g, ok := fun s => s.srcOk false a && s.srcOk false b && s.predOk c && s.dstOk w64 false d,
      srcs := [a, b, c], dsts := [d] }
    (fun i => do
      let x ← sval i a
      let y ← sval i b
      putScalar i d (writeTy (zTy w64) (if (← get).cond c i.rep then x else y))) s

/-- MOV writes a predicate destination as a mask (R95). -/
def execMov (g : Guard) (t : IntTy) (d a : Opnd) (s : State) : Host.Outcome State Fault Refusal :=
  runIssue (intReq g t d [a])
    (fun i => do
      let v := writeTy t (← sval i a (tySigned t))
      if (← get).predOk d then applyAll (maskWrites i d (v.setWidth 16)) else putScalar i d v) s

/-- MOVI writes 32 bits, extended by its type (R89, R102). -/
def execMovi (g : Guard) (signed : Bool) (d : Opnd) (imm : BitVec 32) (s : State) :
    Host.Outcome State Fault Refusal :=
  runIssue (intReq g (if signed then .s32 else .z32) d []) (fun i => putScalar i d (ext32 signed imm)) s

/-- MOVH keeps the low half; its destination is an x register that is no stream, or `zero` (R97, R102); qo is
refused with those that R102 names (DESIGN CHOICE, log 100). -/
def execMovh (g : Guard) (d : Opnd) (imm : BitVec 32) (s : State) : Host.Outcome State Fault Refusal :=
  runIssue
    { guard := g, dsts := [d],
      ok := fun s => match opOf d with
        | .prim n => !s.me.isWave && (s.me.streamOf n).isNone
        | .zero => true
        | _ => false }
    (fun i => do
      let c ← getMe
      let old := match opOf d with
        | .prim n => c.xreg n
        | _ => 0
      putScalar i d (imm ++ old.setWidth 32)) s

def execLea (g : Guard) (t : IntTy) (sc : BitVec 3) (d a b : Opnd) (s : State) : Host.Outcome State Fault Refusal :=
  intTwo g t d a b (fun x y => writeTy t (x + (y <<< sc.toNat))) s

/-- ADDC: c is carry-in, from the representative lane, and carry-out, in every lane acted on (R95, R103). -/
def execAddc (g : Guard) (w64 : Bool) (d a b c : Opnd) (s : State) : Host.Outcome State Fault Refusal :=
  runIssue
    { guard := g, ok := fun s => s.srcOk false a && s.srcOk false b && s.predOk c && s.dstOk w64 false d,
      srcs := [a, b, c], dsts := [d] }
    (fun i => do
      let t := zTy w64
      let sum := readTy t (← sval i a) + readTy t (← sval i b) + (if (← get).cond c i.rep then 1 else 0)
      putScalar i d (writeTy t (BitVec.ofNat 64 sum))
      putScalar i c (if 2 ^ tyBits t ≤ sum then 1 else 0)) s

def execMad (g : Guard) (t : IntTy) (d a b c : Opnd) (s : State) : Host.Outcome State Fault Refusal :=
  intThree g t d a b c (fun x y z => writeTy t (x * y + z)) s 3

def execSxt (g : Guard) (t : IntTy) (d a b : Opnd) (s : State) : Host.Outcome State Fault Refusal :=
  intTwo g t d a b (sxtResult t) s

def execHash (g : Guard) (op : HashOp) (d a b : Opnd) (s : State) : Host.Outcome State Fault Refusal :=
  intTwo g (zTy (op = .crc64)) d a b (hashResult op) s 2

/-- CVTA; a wave cannot use it (R105). -/
def execCvta (g : Guard) (m : CvtaMode) (d a : Opnd) (s : State) : Host.Outcome State Fault Refusal :=
  runIssue
    { guard := g, ok := fun s => !s.me.isWave && s.srcOk false a && s.dstOk true false d, srcs := [a], dsts := [d] }
    (fun i => do
      let v ← sval i a
      let s ← get
      if m = .tovirt && !isAperture v && !s.me.inLimit v then trapWith 10 (field v 61 3) v
      putScalar i d (cvtaResult s.hereId s.me m v)) s

def execIswin (g : Guard) (w : Win) (d a : Opnd) (s : State) : Host.Outcome State Fault Refusal :=
  runIssue (intPredReq g d [a])
    (fun i => do
      let v ← sval i a
      putScalar i d (if (← get).inWindow w v then 1 else 0)) s

/-! Stream bindings (R96, R107). -/

/-- The smallest and the largest offset of an element from BASE. -/
def descSpan (desc : BitVec 256) : Int × Int :=
  let far0 := ((field desc 128 32 : Nat) - 1 : Int) * ((desc.extractLsb' 64 32).toInt)
  let far1 := ((field desc 160 32 : Nat) - 1 : Int) * ((desc.extractLsb' 96 32).toInt)
  (min 0 far0 + min 0 far1, max 0 far0 + max 0 far1)

/-- The elements of a descriptor whose BASE is an aperture address leave the aperture: the core's own rows for the local
aperture, those of the cluster's 48 cores for the cluster aperture (06_scratchpad.md R160, R161). -/
def descLeaves (core : Nat) (desc : BitVec 256) : Bool :=
  let base : W64 := desc.extractLsb' 0 64
  let size := 2 ^ field desc 192 3
  isAperture base && field desc 128 32 * field desc 160 32 ≠ 0 &&
  match apertureTarget core base with
  | none => true
  | some _ =>
    let top : Nat := if base.getLsbD 40 then 0x18000 else 48 * 2 ^ 17
    let off : Int := (field base 0 40 : Nat)
    let span := descSpan desc
    decide (off + span.1 < 0 ∨ (top : Int) < off + span.2 + size)

/-- The checks of a descriptor that are ILLEGAL-OPERAND (R96). -/
def descOk (wave : Bool) (core : Nat) (desc : BitVec 256) : Bool :=
  field desc 199 57 = 0 && field desc 192 3 < 4 && !(wave && field desc 192 3 = 3) && !descLeaves core desc

/-- BASE, S0 and S1 are multiples of the element size. -/
def descAligned (desc : BitVec 256) : Bool :=
  let size := 2 ^ field desc 192 3
  field desc 0 64 % size = 0 && field desc 64 32 % size = 0 && field desc 96 32 % size = 0

/-- Reads a descriptor and binds the stream register to it. Where BASE or a stride is no multiple of the element size, the
address that MISALIGN reports is BASE (DESIGN CHOICE, log 93: R96 names none). -/
def bindStream (k lane : Nat) (addr : W64) : M Unit := do
  let got ← access 32 { plainNeed with natural := true } [(lane, addr)]
  let v ← readPieces plainLoad ((got.headD (0, [])).2)
  let desc : BitVec 256 := BitVec.ofNat 256 v
  needOperand (descOk (← getMe).isWave (← get).hereId desc)
  if !descAligned desc then misalign (desc.extractLsb' 0 64)
  modMe fun c => { c with streams := Store.set none c.streams k (some { desc := desc, next := 0 }) }

/-- The stream register that d names (R107). -/
def State.streamDst (s : State) (wave : Bool) (d : Opnd) : Option Nat :=
  match opOf d with
  | .prim n => if s.me.isWave = wave then streamIndex wave n else none
  | _ => none

/-- What `Sbind` asks of its issue. -/
def sbindReq (g : Guard) (d : Opnd) (a : Opnd) : Req :=
  { guard := g, form := State.unified, ok := fun s => s.srcOk false a && (s.streamDst false d).isSome, srcs := [a],
    regs := fun w => opRegs w d }

def sbindBody (d : Opnd) (a : Opnd) (i : Iss) : M Unit := do
  match (← get).streamDst false d with
  | some k => bindStream k i.rep (← sval i a)
  | none => illegalOperand

def execSbind (g : Guard) (d a : Opnd) (s : State) : Host.Outcome State Fault Refusal :=
  runIssue (sbindReq g d a) (sbindBody d a) s

/-- What `Sunb` asks of its issue. -/
def sunbReq (g : Guard) (d : Opnd) : Req :=
  { guard := g, ok := fun s => (s.streamDst false d).isSome, regs := fun w => opRegs w d }

def sunbBody (d : Opnd) (_ : Iss) : M Unit := do
  match (← get).streamDst false d with
  | some k => modMe fun c => { c with streams := Store.set none c.streams k none }
  | none => illegalOperand

def execSunb (g : Guard) (d : Opnd) (s : State) : Host.Outcome State Fault Refusal :=
  runIssue (sunbReq g d) (sunbBody d) s

end Sys2Proof.Machine
end

