-- ==== Sys2Proof/Machine/VecInt.lean ====
section
/-! DEFINITION. The vector integer group, majors 0x40 to 0x4E (04_registers.md R109 to R111). -/

namespace Sys2Proof.Machine

/-- Lanes that an instruction with a guard would act on, for the credits that a push needs. -/
def State.laneCount (s : State) (g : Guard) : Nat := (lanesOf (s.me.guardLanes g)).length

/-- A vector instruction with a v destination. -/
def vecReq (g : Guard) (d : Opnd) (srcs : List Opnd) : Req :=
  { guard := g, cls := some 1, ok := fun s => srcs.all (s.srcOk true) && s.vdstOk false (s.laneCount g) d,
    srcs := srcs, dsts := [d], vec := true, counted := true }

def vecOne (g : Guard) (d a : Opnd) (f : W32 → W32) (s : State) : Host.Outcome State Fault Refusal :=
  runIssue (vecReq g d [a])
    (fun i => do
      let s ← get
      putVector i d fun l => f ((s.val i false a l).setWidth 32)) s

def vecTwo (g : Guard) (d a b : Opnd) (f : W32 → W32 → W32) (s : State) : Host.Outcome State Fault Refusal :=
  runIssue (vecReq g d [a, b])
    (fun i => do
      let s ← get
      putVector i d fun l => f ((s.val i false a l).setWidth 32) ((s.val i false b l).setWidth 32)) s

def vecThree (g : Guard) (d a b c : Opnd) (f : W32 → W32 → W32 → W32) (s : State) :
    Host.Outcome State Fault Refusal :=
  runIssue (vecReq g d [a, b, c])
    (fun i => do
      let s ← get
      putVector i d fun l =>
        f ((s.val i false a l).setWidth 32) ((s.val i false b l).setWidth 32) ((s.val i false c l).setWidth 32)) s

/-- A lane as an integer of a type. -/
def laneInt (signed : Bool) (v : W32) : Int := if signed then v.toInt else v.toNat

/-- An exact result clamped to a type's range (R110). -/
def clampInt (signed : Bool) (v : Int) : W32 :=
  let lo : Int := if signed then -2147483648 else 0
  let hi : Int := if signed then 2147483647 else 4294967295
  BitVec.ofInt 32 (max lo (min hi v))

def addLane (signed sat : Bool) (a b : W32) : W32 :=
  if sat then clampInt signed (laneInt signed a + laneInt signed b) else a + b

def subLane (signed sat : Bool) (a b : W32) : W32 :=
  if sat then clampInt signed (laneInt signed a - laneInt signed b) else a - b

def mulLane (signed : Bool) (m : MulMode) (a b : W32) : W32 :=
  let p := laneInt signed a * laneInt signed b
  match m with
  | .lo => BitVec.ofInt 32 p
  | .hi => BitVec.ofInt 32 (p / 4294967296)
  | .sat => clampInt signed p

def minmaxLane (signed max : Bool) (a b : W32) : W32 :=
  if decide (laneInt signed a ≤ laneInt signed b) = max then b else a

/-- Bit i is tt[4 a_i + 2 b_i + c_i] (R110). -/
def logLane (tt : Byte) (a b c : W32) : W32 :=
  (List.range 32).foldl (fun v j =>
    if tt.getLsbD ((if a.getLsbD j then 4 else 0) + (if b.getLsbD j then 2 else 0) + (if c.getLsbD j then 1 else 0))
    then v ||| BitVec.ofNat 32 (2 ^ j) else v) 0

def shLane (signed : Bool) (op : ShOp) (a b : W32) : W32 :=
  let n := b.toNat % 32
  match op with
  | .shl => a <<< n
  | .shr => if signed then a.sshiftRight n else a >>> n
  | .rotl => a.rotateLeft n
  | .rotr => a.rotateRight n

def execVadd (g : Guard) (signed sat : Bool) (d a b : Opnd) (s : State) : Host.Outcome State Fault Refusal :=
  vecTwo g d a b (addLane signed sat) s

def execVsub (g : Guard) (signed sat : Bool) (d a b : Opnd) (s : State) : Host.Outcome State Fault Refusal :=
  vecTwo g d a b (subLane signed sat) s

def execVmul (g : Guard) (signed : Bool) (m : MulMode) (d a b : Opnd) (s : State) :
    Host.Outcome State Fault Refusal :=
  vecTwo g d a b (mulLane signed m) s

/-- The low half of a product is the same under both types. -/
def execVmad (g : Guard) (_signed : Bool) (d a b c : Opnd) (s : State) : Host.Outcome State Fault Refusal :=
  vecThree g d a b c (fun x y z => x * y + z) s

def execVminmax (g : Guard) (signed max : Bool) (d a b : Opnd) (s : State) : Host.Outcome State Fault Refusal :=
  vecTwo g d a b (minmaxLane signed max) s

def execVlog (g : Guard) (tt : Byte) (d a b c : Opnd) (s : State) : Host.Outcome State Fault Refusal :=
  vecThree g d a b c (logLane tt) s

def execVsh (g : Guard) (signed : Bool) (op : ShOp) (d a b : Opnd) (s : State) :
    Host.Outcome State Fault Refusal :=
  vecTwo g d a b (shLane signed op) s

/-- A mask of the lanes of which a test holds. -/
def lanesWith (lanes : List Nat) (p : Nat → Bool) : BitVec 16 :=
  lanes.foldl (fun m l => if p l then m ||| laneBit l else m) 0

def execVcmp (g : Guard) (signed : Bool) (k : Cond) (d a b : Opnd) (s : State) :
    Host.Outcome State Fault Refusal :=
  runIssue
    { guard := g, cls := some 1, ok := fun s => s.srcOk true a && s.srcOk true b && s.predOk d, srcs := [a, b],
      dsts := [d], vec := true, counted := true }
    (fun i => do
      let s ← get
      applyAll (maskWrites i d (lanesWith (lanesOf i.lanes) fun l =>
        cmpInts k (laneInt signed ((s.val i false a l).setWidth 32)) (laneInt signed ((s.val i false b l).setWidth 32))))) s

def execVsel (g : Guard) (d a b c : Opnd) (s : State) : Host.Outcome State Fault Refusal :=
  runIssue
    { guard := g, cls := some 1, srcs := [a, b, c], dsts := [d], vec := true, counted := true,
      ok := fun s => s.srcOk true a && s.srcOk true b && s.predOk c && s.vdstOk false (s.laneCount g) d }
    (fun i => do
      let s ← get
      putVector i d fun l => (s.val i false (if s.cond c l then a else b) l).setWidth 32) s

def execVmov (g : Guard) (d a : Opnd) (s : State) : Host.Outcome State Fault Refusal :=
  vecOne g d a id s

/-- VBCAST: lane j of a in every lane; b names j (R111). -/
def execVbcast (g : Guard) (d a b : Opnd) (s : State) : Host.Outcome State Fault Refusal :=
  runIssue
    { guard := g, cls := some 1, srcs := [a, b], dsts := [d], vec := true, counted := true,
      ok := fun s => s.srcOk true a && s.uniSrcOk b && s.vdstOk false (s.laneCount g) d }
    (fun i => do
      let s ← get
      let j := (s.val i false b i.rep).toNat % 16
      putVector i d fun _ => (s.val i false a j).setWidth 32) s

/-- The source lane of VSHUF (R111). -/
def shufLane (op : ShufOp) (l b : Nat) : Nat :=
  match op with
  | .idx => b % 16
  | .xor => Nat.xor l (b % 16)
  | .rot => (l + b % 16) % 16

def execVshuf (g : Guard) (op : ShufOp) (d a b : Opnd) (s : State) : Host.Outcome State Fault Refusal :=
  runIssue
    { guard := g, cls := some 1, srcs := [a, b], dsts := [d], vec := true, counted := true,
      ok := fun s => s.srcOk true a && (if op = .idx then s.srcOk true b else s.uniSrcOk b) &&
        s.vdstOk false (s.laneCount g) d }
    (fun i => do
      let s ← get
      putVector i d fun l => (s.val i false a (shufLane op l (s.val i false b l).toNat)).setWidth 32) s

/-- A cross-lane result: the same for every lane acted on, or one uniform register (R111). -/
def putCross (i : Iss) (d : Opnd) (v : W32) : M Unit := do
  match opOf d with
  | .k _ => putScalar i d (v.setWidth 64)
  | _ => putVector i d fun _ => v

def combine (signed : Bool) (op : RedOp) (a b : W32) : W32 :=
  match op with
  | .add => a + b
  | .min => minmaxLane signed false a b
  | .max => minmaxLane signed true a b
  | .and => a &&& b
  | .or => a ||| b
  | .xor => a ^^^ b

def crossReq (g : Guard) (d a : Opnd) (ok : State → Bool) : Req :=
  { guard := g, cls := some 1, srcs := [a], dsts := [d], vec := true, counted := true, lat := 4,
    ok := fun s => ok s && s.vkdstOk (s.laneCount g) d }

def execVred (g : Guard) (signed : Bool) (op : RedOp) (d a : Opnd) (s : State) :
    Host.Outcome State Fault Refusal :=
  runIssue (crossReq g d a fun s => s.srcOk true a)
    (fun i => do
      let s ← get
      let vals := (lanesOf i.lanes).map fun l => ((s.val i false a l).setWidth 32 : W32)
      putCross i d (vals.tail.foldl (combine signed op) (vals.headD 0))) s

def execVballot (g : Guard) (d a : Opnd) (s : State) : Host.Outcome State Fault Refusal :=
  runIssue (crossReq g d a fun s => s.predOk a)
    (fun i => do
      let s ← get
      putCross i d ((lanesWith (lanesOf i.lanes) fun l => s.cond a l).setWidth 32)) s

def execVpopc (g : Guard) (below : Bool) (d a : Opnd) (s : State) : Host.Outcome State Fault Refusal :=
  runIssue
    { guard := g, cls := some 1, srcs := [a], dsts := [d], vec := true, counted := true,
      ok := fun s => (if below then s.predOk a else s.srcOk true a) && s.vdstOk false (s.laneCount g) d }
    (fun i => do
      let s ← get
      putVector i d fun l =>
        BitVec.ofNat 32
          (if below then ((lanesOf i.lanes).filter fun m => m < l && s.cond a m).length
           else popcount ((s.val i false a l).setWidth 32 : W32).toNat 32)) s

end Sys2Proof.Machine
end

