-- ==== Sys2Proof/Machine/VecFp.lean ====
section
/-! DEFINITION. The vector floating-point group, majors 0x50 to 0x5F (05_lanes.md R118, R128 to R134). -/

namespace Sys2Proof.Machine

/-- A floating-point source: the identifiers and `clk` are refused (R118). -/
def State.fpSrcOk (s : State) (vec : Bool) (o : Opnd) : Bool :=
  match opOf o with
  | .lid | .cid | .tid | .dsp | .clk => false
  | _ => s.srcOk vec o

/-- Elements of a lane: one of binary32, two packed ones, low first (R118). -/
def laneElems (t : FTy) (v : W32) : List Nat :=
  match t with
  | .f16 | .bf16 => [field v 0 16, field v 16 16]
  | _ => [v.toNat]

/-- A lane made of element results. -/
def joinElems (rs : List (Nat × FlagSet)) : W32 × FlagSet :=
  (BitVec.ofNat 32 ((rs.headD (0, 0)).1 + 65536 * ((rs.tail.headD (0, 0)).1)), rs.foldl (fun f r => f ||| r.2) 0)

/-- The bits of a floating-point source in a lane: an immediate is converted, to both elements of a packed type
(R118). -/
def State.fpLane (s : State) (i : Iss) (t : FTy) (o : Opnd) (lane : Nat) : W32 :=
  match opOf o with
  | .imm v =>
    let b := (ofInt (fmtOf t) ⟨1, false⟩ v.toInt).1
    match t with
    | .f16 | .bf16 => BitVec.ofNat 32 (b + 65536 * b)
    | _ => BitVec.ofNat 32 b
  | _ => (s.val i false o lane).setWidth 32

/-- One lane of an operation on up to three sources. -/
def fpLaneOp (t : FTy) (c : Env) (f : List Num → Nat × FlagSet) (srcs : List W32) : W32 × FlagSet :=
  let fm := fmtOf t
  joinElems ((List.range (laneElems t 0).length).map fun j =>
    f (srcs.map fun v => unpack fm (c.flush fm) ((laneElems t v).getD j 0)))

/-- The results of the acted lanes, and their flags together (R125). -/
def fpLanes (s : State) (i : Iss) (t : FTy) (c : Env) (f : List Num → Nat × FlagSet) (srcs : List Opnd) :
    (Nat → W32) × FlagSet :=
  let rs := (lanesOf i.lanes).map fun l => (l, fpLaneOp t c f (srcs.map fun o => s.fpLane i t o l))
  (fun l => match rs.find? (·.1 = l) with
    | some r => r.2.1
    | none => 0,
   rs.foldl (fun fl r => fl ||| r.2.2) 0)

/-- A destination of the group: a v register and nothing else (R128). -/
def State.vfdstOk (s : State) (long : Bool) (o : Opnd) : Bool :=
  match opOf o with
  | .prim n => (s.me.readStream n).isNone && !(long && (s.me.streamOf n).isSome)
  | _ => false

def vfpReq (g : Guard) (d : Opnd) (srcs : List Opnd) (long : Bool) : Req :=
  { guard := g, cls := some 1, ok := fun s => srcs.all (s.fpSrcOk true) && s.vfdstOk long d,
    srcs := srcs, dsts := [d], vec := true, counted := true, long := long }

/-- A member of fixed latency. -/
def vfpOp (g : Guard) (r : Rnd) (t : FTy) (d : Opnd) (srcs : List Opnd)
    (f : Fmt → Env → List Num → Nat × FlagSet) (s : State) : Host.Outcome State Fault Refusal :=
  runIssue (vfpReq g d srcs false)
    (fun i => do
      let s ← get
      let c := s.me.env r
      let v := fpLanes s i t c (f (fmtOf t) c) srcs
      putVector i d v.1
      raiseFlags v.2) s

/-- A long-latency member. -/
def vfpLong (la : BitVec 4) (g : Guard) (r : Rnd) (t : FTy) (d : Opnd) (srcs : List Opnd)
    (f : Fmt → Env → List Num → Nat × FlagSet) (s : State) : Host.Outcome State Fault Refusal :=
  runIssue (vfpReq g d srcs true)
    (fun i => do
      let s ← get
      let c := s.me.env r
      let v := fpLanes s i t c (f (fmtOf t) c) srcs
      putLater la.toNat false i d (s.vectorWrites i d v.1 ++ (if v.2 = 0 then [] else [.flags v.2]))
        ((lanesOf i.lanes).map fun l => (v.1 l).setWidth 64) 1) s

/-- Operations on a list of sources. -/
def onOne (h : Fmt → Env → Num → Nat × FlagSet) (f : Fmt) (c : Env) (l : List Num) : Nat × FlagSet :=
  h f c (l.headD (.inf false))

def onTwo (h : Fmt → Env → Num → Num → Nat × FlagSet) (f : Fmt) (c : Env) (l : List Num) : Nat × FlagSet :=
  h f c (l.headD (.inf false)) (l.getD 1 (.inf false))

def onThree (h : Fmt → Env → Num → Num → Num → Nat × FlagSet) (f : Fmt) (c : Env) (l : List Num) : Nat × FlagSet :=
  h f c (l.headD (.inf false)) (l.getD 1 (.inf false)) (l.getD 2 (.inf false))

def execVfadd (g : Guard) (r : Rnd) (t : FTy) (d a b : Opnd) (s : State) : Host.Outcome State Fault Refusal :=
  vfpOp g r t d [a, b] (onTwo addNum) s

def execVfsub (g : Guard) (r : Rnd) (t : FTy) (d a b : Opnd) (s : State) : Host.Outcome State Fault Refusal :=
  vfpOp g r t d [a, b] (onTwo subNum) s

def execVfmul (g : Guard) (r : Rnd) (t : FTy) (d a b : Opnd) (s : State) : Host.Outcome State Fault Refusal :=
  vfpOp g r t d [a, b] (onTwo mulNum) s

def execVfma (g : Guard) (r : Rnd) (op : FmaOp) (t : FTy) (d a b c : Opnd) (s : State) :
    Host.Outcome State Fault Refusal :=
  vfpOp g r t d [a, b, c] (onThree fun f e => fmaOp f e op) s

def execVfminmax (g : Guard) (op : FMinMax) (t : FTy) (d a b : Opnd) (s : State) :
    Host.Outcome State Fault Refusal :=
  vfpOp g .dyn t d [a, b] (onTwo fun f _ => minmaxNum f op) s

def execVfdiv (la : BitVec 4) (g : Guard) (r : Rnd) (t : FTy) (d a b : Opnd) (s : State) :
    Host.Outcome State Fault Refusal :=
  vfpLong la g r t d [a, b] (onTwo divNum) s

def execVfsqrt (la : BitVec 4) (g : Guard) (r : Rnd) (t : FTy) (d a : Opnd) (s : State) :
    Host.Outcome State Fault Refusal :=
  vfpLong la g r t d [a] (onOne sqrtNum) s

def execVfrcp (la : BitVec 4) (g : Guard) (r : Rnd) (t : FTy) (d a : Opnd) (s : State) :
    Host.Outcome State Fault Refusal :=
  vfpLong la g r t d [a] (onOne rcpNum) s

def execVfrsq (la : BitVec 4) (g : Guard) (r : Rnd) (t : FTy) (d a : Opnd) (s : State) :
    Host.Outcome State Fault Refusal :=
  vfpLong la g r t d [a] (onOne rsqNum) s

def execVfexp2 (la : BitVec 4) (g : Guard) (r : Rnd) (t : FTy) (d a : Opnd) (s : State) :
    Host.Outcome State Fault Refusal :=
  vfpLong la g r t d [a] (onOne exp2Num) s

def execVflog2 (la : BitVec 4) (g : Guard) (r : Rnd) (t : FTy) (d a : Opnd) (s : State) :
    Host.Outcome State Fault Refusal :=
  vfpLong la g r t d [a] (onOne log2Num) s

def execVfsin (la : BitVec 4) (g : Guard) (r : Rnd) (t : FTy) (d a : Opnd) (s : State) :
    Host.Outcome State Fault Refusal :=
  vfpLong la g r t d [a] (onOne sinNum) s

def execVfcos (la : BitVec 4) (g : Guard) (r : Rnd) (t : FTy) (d a : Opnd) (s : State) :
    Host.Outcome State Fault Refusal :=
  vfpLong la g r t d [a] (onOne cosNum) s

/-- VFCMP compares element `hi` of each acted lane (R131). -/
def execVfcmp (g : Guard) (hi : Bool) (k : FCond) (t : FTy) (d a b : Opnd) (s : State) :
    Host.Outcome State Fault Refusal :=
  runIssue
    { guard := g, cls := some 1, ok := fun s => s.fpSrcOk true a && s.fpSrcOk true b && s.predOk d, srcs := [a, b],
      dsts := [d], vec := true, counted := true }
    (fun i => do
      let s ← get
      let f := fmtOf t
      let z := (s.me.env .dyn).flush f
      let el (o : Opnd) (l : Nat) : Num := unpack f z ((laneElems t (s.fpLane i t o l)).getD (if hi then 1 else 0) 0)
      let rs := (lanesOf i.lanes).map fun l => (l, cmpNum f k (el a l) (el b l))
      applyAll (maskWrites i d (lanesWith (lanesOf i.lanes) fun l => rs.any fun r => r.1 = l && r.2.1))
      raiseFlags (rs.foldl (fun fl r => fl ||| r.2.2) 0)) s

/-- VFCLASS: one mask, or two (R132). -/
def classLane (t : FTy) (v : W32) : W32 :=
  (joinElems ((laneElems t v).map fun e => (classMask (fmtOf t) e, 0))).1

def execVfclass (g : Guard) (t : FTy) (d a : Opnd) (s : State) : Host.Outcome State Fault Refusal :=
  runIssue (vfpReq g d [a] false)
    (fun i => do
      let s ← get
      putVector i d fun l => classLane t (s.fpLane i t a l)) s

/-! Conversions (R133, R134). -/

/-- A two's-complement result of 32 bits. -/
def intBits (r : Int × FlagSet) : W32 × FlagSet := (BitVec.ofInt 32 r.1, r.2)

def natBits (r : Nat × FlagSet) : W32 × FlagSet := (BitVec.ofNat 32 r.1, r.2)

/-- ±m × 2^(e + k): a datum scaled exactly. -/
def scaleNum (x : Num) (k : Int) : Num :=
  match x with
  | .fin n m e => .fin n m (e + k)
  | y => y

/-- s8_f32 and f32_s8 with scale E; 0xFF gives 0 and NV (R133). -/
def toS8 (c : Env) (x : Num) (E : Nat) : W32 × FlagSet :=
  if E = 255 then (0, flagNV) else intBits (toIntNum c (-128) 127 (scaleNum x (127 - E)))

def ofS8 (c : Env) (q : Int) (E : Nat) : W32 × FlagSet :=
  if E = 255 then (0, flagNV) else natBits (roundSum f32Fmt c q ((E : Int) - 127) false)

/-- One lane of VCVT. -/
def cvtLane (c : Env) (code : Nat) (a b : W32) : W32 × FlagSet :=
  let n (f : Fmt) (v : Nat) : Num := unpack f (c.flush f) v
  let fa := n f32Fmt a.toNat
  let conv (src dst : Fmt) (v : Nat) : Nat × FlagSet := convNum src dst c (n src v)
  let two (x y : Nat × FlagSet) : W32 × FlagSet := joinElems [x, y]
  match code with
  | 0 => intBits (toIntNum c (-2147483648) 2147483647 fa)
  | 1 => intBits (toIntNum c 0 4294967295 fa)
  | 2 => natBits (ofInt f32Fmt c a.toInt)
  | 3 => natBits (ofInt f32Fmt c a.toNat)
  | 4 => natBits (rintNum f32Fmt c fa)
  | 5 => natBits (conv f32Fmt f16Fmt a.toNat)
  | 6 => natBits (conv f32Fmt bf16Fmt a.toNat)
  | 7 => natBits (conv f16Fmt f32Fmt (field a 0 16))
  | 8 => natBits (conv bf16Fmt f32Fmt (field a 0 16))
  | 9 => natBits (conv f16Fmt f32Fmt (field a 16 16))
  | 10 => natBits (conv bf16Fmt f32Fmt (field a 16 16))
  | 11 => two (conv f32Fmt f16Fmt a.toNat) (conv f32Fmt f16Fmt b.toNat)
  | 12 => two (conv f32Fmt bf16Fmt a.toNat) (conv f32Fmt bf16Fmt b.toNat)
  | 13 => two (conv f16Fmt bf16Fmt (field a 0 16)) (conv f16Fmt bf16Fmt (field a 16 16))
  | 14 => two (conv bf16Fmt f16Fmt (field a 0 16)) (conv bf16Fmt f16Fmt (field a 16 16))
  | 15 => toS8 c fa (field b 0 8)
  | _ => ofS8 c (a.extractLsb' 0 8).toInt (field b 0 8)

/-- How a source of a code is read: as binary32, as packed elements, or as an integer (R118, R133). -/
def cvtKind (code : Nat) (second : Bool) : Option FTy :=
  if second then (if code = 11 || code = 12 then some .f32 else none)
  else match code with
    | 2 | 3 | 16 => none
    | 7 | 9 | 13 => some .f16
    | 8 | 10 | 14 => some .bf16
    | _ => some .f32

def State.cvtSrcOk (s : State) (vec : Bool) (k : Option FTy) (o : Opnd) : Bool :=
  match k with
  | none => s.srcOk vec o
  | some _ => s.fpSrcOk vec o

def State.cvtVal (s : State) (i : Iss) (k : Option FTy) (o : Opnd) (l : Nat) : W32 :=
  match k with
  | none => (s.val i false o l).setWidth 32
  | some t => s.fpLane i t o l

/-- The codes that use b (R133). -/
def cvtUsesB (code : Nat) : Bool := code = 11 || code = 12 || code = 15 || code = 16

def execVcvt (g : Guard) (r : Rnd) (code : BitVec 5) (d a b : Opnd) (s : State) :
    Host.Outcome State Fault Refusal :=
  let k := code.toNat
  runIssue
    { guard := g, cls := some 1, srcs := if cvtUsesB k then [a, b] else [a], dsts := [d], vec := true, counted := true,
      ok := fun s => s.cvtSrcOk true (cvtKind k false) a && (!cvtUsesB k || s.cvtSrcOk true (cvtKind k true) b) &&
        s.vfdstOk false d }
    (fun i => do
      let s ← get
      let c := s.me.env r
      let rs := (lanesOf i.lanes).map fun l =>
        (l, cvtLane c k (s.cvtVal i (cvtKind k false) a l) (s.cvtVal i (cvtKind k true) b l))
      putVector i d fun l => match rs.find? (·.1 = l) with
        | some q => q.2.1
        | none => 0
      raiseFlags (rs.foldl (fun fl q => fl ||| q.2.2) 0)) s

end Sys2Proof.Machine
end

