-- ==== Sys2Proof/Machine/ScalarFp.lean ====
section
/-! DEFINITION. The scalar floating-point group, majors 0x60 to 0x67, with RDMODE and WRMODE (05_lanes.md R118,
R126, R135 to R137). -/

namespace Sys2Proof.Machine

/-- A floating-point source (R118, R135): a binary64 one is an x register or a small immediate; a predicate is none
of a barrel thread's operands. -/
def State.sfpSrcOk (s : State) (w64 : Bool) (o : Opnd) : Bool :=
  match opOf o with
  | .prim _ | .imm _ => s.fpSrcOk false o
  | .pred _ => s.me.isWave && !w64
  | _ => !w64 && s.fpSrcOk false o

/-- An integer source of a conversion; a 64-bit one is an x register or a small immediate, and a predicate is none of a
barrel thread's operands (R135). -/
def State.sfpIntOk (s : State) (w64 : Bool) (o : Opnd) : Bool :=
  match opOf o with
  | .prim _ | .imm _ => s.srcOk false o
  | .pred _ => s.me.isWave && !w64
  | _ => !w64 && s.srcOk false o

/-- A result's destination: no predicate; an x register for 64 bits (R135). -/
def State.sfpDstOk (s : State) (w64 long : Bool) (o : Opnd) : Bool :=
  match opOf o with
  | .prim _ => s.dstOk w64 long o
  | .pred _ => false
  | _ => !w64 && s.dstOk w64 long o

/-- The bits of a source in a format: a small immediate is converted exactly (R118). -/
def State.sfpBits (s : State) (i : Iss) (f : Fmt) (o : Opnd) : Nat :=
  match opOf o with
  | .imm v => (ofInt f ⟨1, false⟩ v.toInt).1
  | _ => (s.sval i false o).toNat % 2 ^ (1 + f.eb + f.mb)

def State.sfpNum (s : State) (i : Iss) (f : Fmt) (c : Env) (o : Opnd) : Num :=
  unpack f (c.flush f) (s.sfpBits i f o)

def isF64 (t : FTy) : Bool := t = .f64

def sfpReq (g : Guard) (t : FTy) (d : Opnd) (srcs : List Opnd) (long : Bool) (lat : Nat := 1) : Req :=
  { guard := g, ok := fun s => srcs.all (s.sfpSrcOk (isF64 t)) && s.sfpDstOk (isF64 t) long d,
    srcs := srcs, dsts := [d], long := long, cls := some 0, lat := lat }

/-- The latency of FADD, FMUL and FFMA (R115). -/
def sfpLat (t : FTy) : Nat := if isF64 t then 6 else 4

/-- A member of fixed latency. -/
def sfpOp (lat : Nat) (g : Guard) (r : Rnd) (t : FTy) (d : Opnd) (srcs : List Opnd)
    (f : Fmt → Env → List Num → Nat × FlagSet) (s : State) : Host.Outcome State Fault Refusal :=
  runIssue (sfpReq g t d srcs false lat)
    (fun i => do
      let s ← get
      let c := s.me.env r
      let v := f (fmtOf t) c (srcs.map (s.sfpNum i (fmtOf t) c))
      putScalar i d (BitVec.ofNat 64 v.1)
      raiseFlags v.2) s

/-- A long-latency member, FDIV or FSQRT (R40). -/
def sfpLong (la : BitVec 4) (g : Guard) (r : Rnd) (t : FTy) (d : Opnd) (srcs : List Opnd)
    (f : Fmt → Env → List Num → Nat × FlagSet) (s : State) : Host.Outcome State Fault Refusal :=
  runIssue (sfpReq g t d srcs true)
    (fun i => do
      let s ← get
      let c := s.me.env r
      let v := f (fmtOf t) c (srcs.map (s.sfpNum i (fmtOf t) c))
      let w : W64 := BitVec.ofNat 64 v.1
      putLater la.toNat false i d (s.scalarWrites i d w ++ (if v.2 = 0 then [] else [.flags v.2])) [w] 2) s

def execFadd (g : Guard) (r : Rnd) (sub : Bool) (t : FTy) (d a b : Opnd) (s : State) :
    Host.Outcome State Fault Refusal :=
  sfpOp (sfpLat t) g r t d [a, b] (onTwo (if sub then subNum else addNum)) s

def execFmul (g : Guard) (r : Rnd) (t : FTy) (d a b : Opnd) (s : State) : Host.Outcome State Fault Refusal :=
  sfpOp (sfpLat t) g r t d [a, b] (onTwo mulNum) s

def execFfma (g : Guard) (r : Rnd) (op : FmaOp) (t : FTy) (d a b c : Opnd) (s : State) :
    Host.Outcome State Fault Refusal :=
  sfpOp (sfpLat t) g r t d [a, b, c] (onThree fun f e => fmaOp f e op) s

def execFminmax (g : Guard) (op : FMinMax) (t : FTy) (d a b : Opnd) (s : State) :
    Host.Outcome State Fault Refusal :=
  sfpOp 1 g .dyn t d [a, b] (onTwo fun f _ => minmaxNum f op) s

/-- FCMP's destination is a predicate, written in every lane acted on (R95, R135). -/
def execFcmp (g : Guard) (k : FCond) (t : FTy) (d a b : Opnd) (s : State) : Host.Outcome State Fault Refusal :=
  runIssue
    { guard := g, ok := fun s => s.sfpSrcOk (isF64 t) a && s.sfpSrcOk (isF64 t) b && s.predOk d, srcs := [a, b],
      dsts := [d], cls := some 0 }
    (fun i => do
      let s ← get
      let f := fmtOf t
      let c := s.me.env .dyn
      let r := cmpNum f k (s.sfpNum i f c a) (s.sfpNum i f c b)
      putScalar i d (if r.1 then 1 else 0)
      raiseFlags r.2) s

def execFdiv (la : BitVec 4) (g : Guard) (r : Rnd) (t : FTy) (d a b : Opnd) (s : State) :
    Host.Outcome State Fault Refusal :=
  sfpLong la g r t d [a, b] (onTwo divNum) s

def execFsqrt (la : BitVec 4) (g : Guard) (r : Rnd) (t : FTy) (d a : Opnd) (s : State) :
    Host.Outcome State Fault Refusal :=
  sfpLong la g r t d [a] (onOne sqrtNum) s

/-! Conversions (R137). -/

/-- What a source or a result of FCVT is. -/
inductive CvtSide where
  | int (t : IntTy)
  | flt (t : FTy)
  deriving DecidableEq, Repr

def CvtSide.wide : CvtSide → Bool
  | .int t => tyW64 t
  | .flt t => isF64 t

/-- Integer types in the order of the code table. -/
def cvtInt (k : Nat) : IntTy :=
  match k with
  | 0 => .s32
  | 1 => .z32
  | 2 => .s64
  | _ => .z64

/-- Source of a code. -/
def fcvtSrc (code : Nat) : CvtSide :=
  if code < 4 then .flt .f32
  else if code < 8 then .flt .f64
  else if code < 16 then .int (cvtInt (code % 4))
  else match code with
    | 16 | 18 | 20 | 24 | 26 => .flt .f32
    | 19 | 23 => .flt .f16
    | 21 => .flt .bf16
    | _ => .flt .f64

/-- Result of a code; the class masks are 32-bit unsigned. -/
def fcvtDst (code : Nat) : CvtSide :=
  if code < 8 then .int (cvtInt (code % 4))
  else if code < 12 then .flt .f32
  else if code < 16 then .flt .f64
  else match code with
    | 16 | 23 | 25 => .flt .f64
    | 17 | 19 | 21 | 24 => .flt .f32
    | 18 | 22 => .flt .f16
    | 20 => .flt .bf16
    | _ => .int .z32

/-- The result of a code. -/
def State.fcvtResult (s : State) (i : Iss) (code : Nat) (c : Env) (a : Opnd) : W64 × FlagSet :=
  match fcvtSrc code, fcvtDst code with
  | .int t, .flt u =>
    let r := ofInt (fmtOf u) c (readInt t (s.sval i (tySigned t) a))
    (BitVec.ofNat 64 r.1, r.2)
  | .flt t, .int u =>
    if 26 ≤ code then (BitVec.ofNat 64 (classMask (fmtOf t) (s.sfpBits i (fmtOf t) a)), 0)
    else
      let lo : Int := if tySigned u then -(2 ^ (tyBits u - 1)) else 0
      let hi : Int := if tySigned u then 2 ^ (tyBits u - 1) - 1 else 2 ^ tyBits u - 1
      let r := toIntNum c lo hi (s.sfpNum i (fmtOf t) c a)
      (wrapTy u r.1, r.2)
  | .flt t, .flt u =>
    let x := s.sfpNum i (fmtOf t) c a
    let r := if 24 ≤ code then rintNum (fmtOf t) c x else convNum (fmtOf t) (fmtOf u) c x
    (BitVec.ofNat 64 r.1, r.2)
  | .int _, .int _ => (0, 0)

def State.sideOk (s : State) (k : CvtSide) (o : Opnd) : Bool :=
  match k with
  | .int t => s.sfpIntOk (tyW64 t) o
  | .flt t => s.sfpSrcOk (isF64 t) o

def execFcvt (g : Guard) (r : Rnd) (code : BitVec 5) (d a : Opnd) (s : State) : Host.Outcome State Fault Refusal :=
  let k := code.toNat
  runIssue
    { guard := g, ok := fun s => s.sideOk (fcvtSrc k) a && s.sfpDstOk (fcvtDst k).wide false d, srcs := [a],
      dsts := [d], cls := some 0, lat := 3 }
    (fun i => do
      let s ← get
      let v := s.fcvtResult i k (s.me.env r) a
      putScalar i d v.1
      raiseFlags v.2) s

/-! MODE (R121, R126). -/

/-- A result of a floating-point instruction, or a uniform write, of the turn's context has not landed. -/
def State.fpOwed (s : State) : Bool :=
  s.me.pend.any (fun p => p.unit ≠ 0) || s.here.uniDue.any (fun w => w.by_ = s.seat)

/-- RDMODE and WRMODE wait until the results of floating-point instructions have landed (R126). -/
def awaitFp : M Unit := do if (← get).fpOwed then hold .arithOp

/-- RDMODE's destination: an x register or a uniform register. -/
def State.modeDst (s : State) (o : Opnd) : Bool :=
  match opOf o with
  | .prim _ | .k _ => s.dstOk false false o
  | _ => false

/-- What `Rdmode` asks of its issue. -/
def rdmodeReq (g : Guard) (d : Opnd) : Req :=
  { guard := g, ok := fun s => s.modeDst d, dsts := [d], cls := some 0 }

def rdmodeBody (d : Opnd) (i : Iss) : M Unit := do
  awaitFp
  putScalar i d ((← getMe).mode.setWidth 64)

def execRdmode (g : Guard) (d : Opnd) (s : State) : Host.Outcome State Fault Refusal :=
  runIssue (rdmodeReq g d) (rdmodeBody d) s

/-- What `Wrmode` asks of its issue. -/
def wrmodeReq (g : Guard) (a : Opnd) (b : Opnd) : Req :=
  { guard := g, ok := fun s => s.sfpSrcOk false a && s.sfpSrcOk false b, srcs := [a, b], cls := some 0 }

/-- WRMODE of the bits of a mask. A flag that it sets is no flag raised: HIST is unchanged (DESIGN CHOICE, log 120). -/
def wrmodeBody (a : Opnd) (b : Opnd) (i : Iss) : M Unit := do
  awaitFp
  let v : BitVec 32 := (← sval i a).setWidth 32
  let m : BitVec 32 := (← sval i b).setWidth 32
  let new := ((((← getMe).mode) &&& ~~~m) ||| (v &&& m)) &&& modeBits
  let rm := (new.extractLsb' 8 3).toNat
  needOperand (rm ≠ 0 && rm ≠ 6)
  modMe fun c => { c with mode := new }

def execWrmode (g : Guard) (a b : Opnd) (s : State) : Host.Outcome State Fault Refusal :=
  runIssue (wrmodeReq g a b) (wrmodeBody a b) s

end Sys2Proof.Machine
end

