-- ==== Sys2Proof/Machine/Accum.lean ====
section
/-! DEFINITION. The four accumulators of a team (05_lanes.md R138 to R145). -/

namespace Sys2Proof.Machine

/-! An accumulator: its 640-bit integer in the team's accumulator rows, its status in the team. -/

def AccStat.zero : AccStat := { nv := false, pinf := false, ninf := false, nx := false, big := false, wrap := 0 }

/-- Scratchpad offset of accumulator i of a team whose first accumulator row is `row` (R139). -/
def accOff (row i : Nat) : Nat := 64 * row + 80 * i

/-- A signed integer of 640 bits. -/
def signed640 (n : Nat) : Int := if n < 2 ^ 639 then n else (n : Int) - 2 ^ 640

/-- One addition of an integer multiple of 2^-320 (R141): A and WRAP after it. -/
def accSum (a : Nat) (wrap : W64) (n : Int) : Nat × W64 :=
  let s := signed640 a + n
  ((s % 2 ^ 640).toNat, if 2 ^ 639 ≤ s then wrap + 1 else if s < -2 ^ 639 then wrap - 1 else wrap)

/-- x × 2^320 rounded to an integer, to nearest even, for ±m × 2^e; whether it is inexact. -/
def accScale (neg : Bool) (m : Nat) (e : Int) : Int × Bool :=
  let r := roundAt 1 neg m 1 (e + 320) 0
  (signed neg r.1, r.2)

/-- One value added to an accumulator (R141): A and the status after it. -/
def accAddNum (a : Nat) (st : AccStat) (x : Num) : Nat × AccStat :=
  match x with
  | .nan _ _ => (a, { st with nv := true })
  | .inf n => (a, if n then { st with ninf := true } else { st with pinf := true })
  | .fin neg m e =>
    let r := accScale neg m e
    let st1 : AccStat := { st with nx := st.nx || r.2 }
    if 2 ^ 639 ≤ r.1.natAbs then (a, { st1 with big := true })
    else
      let v := accSum a st.wrap r.1
      (v.1, { st1 with wrap := v.2 })

/-- The exact product of two binary32 data; an invalid one is a NaN (R141). -/
def accProduct (x y : Num) : Num :=
  if x.isNan || y.isNan || (x.isZero && y.isInf) || (x.isInf && y.isZero) then .nan false 0
  else
    let neg := xor x.isNeg y.isNeg
    match x, y with
    | .fin _ m1 e1, .fin _ m2 e2 => .fin neg (m1 * m2) (e1 + e2)
    | _, _ => .inf neg

/-- An integer as a datum. -/
def intNum (v : Int) : Num := .fin (decide (v < 0)) v.natAbs 0

/-- Changes accumulator i of a team: its words in the rows and its status. -/
def modAcc (core tag i : Nat) (f : Nat → AccStat → Nat × AccStat) : M Unit := do
  let c ← getCore core
  match c.team tag with
  | none => pure ()
  | some t =>
    match t.accRow with
    | none => pure ()
    | some row =>
      let r := f (Store.readN c.rows (accOff row i) 80) (Store.get .zero t.acc i)
      modCore core fun c => { c with rows := Store.writeN c.rows (accOff row i) 80 r.1 }
      modTeam core tag fun t => { t with acc := Store.set .zero t.acc i r.2 }

/-- Accumulator i of the turn's team. -/
def State.acc (s : State) (i : Nat) : Nat × AccStat :=
  match s.myTeam with
  | some t => match t.accRow with
    | some row => (Store.readN s.here.rows (accOff row i) 80, Store.get .zero t.acc i)
    | none => (0, .zero)
  | none => (0, .zero)

/-- OV: BIG, or WRAP not zero (R139). -/
def AccStat.ov (st : AccStat) : Bool := st.big || st.wrap ≠ 0

/-- The status byte (R139). -/
def AccStat.byte (st : AccStat) : Nat :=
  (if st.big then 32 else 0) + (if st.nv then 16 else 0) + (if st.pinf then 8 else 0) + (if st.ninf then 4 else 0) +
  (if st.ov then 2 else 0) + (if st.nx then 1 else 0)

/-- What KRND gives (R144). -/
def krndResult (f : Fmt) (c : Env) (a : Nat) (st : AccStat) : Nat × FlagSet :=
  if st.nv || st.ov || (st.pinf && st.ninf) then (canonicalNan f, flagNV)
  else if st.pinf then (packInf f false, 0)
  else if st.ninf then (packInf f true, 0)
  else if a = 0 then (0, 0)
  else roundSum f c (signed640 a) (-320) false

/-! The instructions (R140). -/

/-- The place of an operation in the accumulator unit's order: it waits for every drain into the accumulator that was
accepted before it (R145). -/
def accTurn (i : BitVec 2) : M Unit := do
  if (← get).drainsInto (some i.toNat) then hold .arithOp

/-- The team owns accumulators: it exists and did not declare NOKACC (R139). -/
def State.hasAcc (s : State) : Bool :=
  match s.myTeam with
  | some t => t.accRow.isSome
  | none => false

/-- The wide kinds of KACC: binary64 and 64-bit integers. -/
def accWide (k : AccKind) : Bool := k = .f64 || k = .s64

def State.kaccOk (s : State) (k : AccKind) (a b : Opnd) : Bool :=
  s.hasAcc && (match k with
    | .f32 => s.fpSrcOk true a
    | .prod => s.fpSrcOk true a && s.fpSrcOk true b
    | .s32 => s.srcOk true a
    | .f64 | .s64 => if s.me.isWave then s.vPairOk a else s.xOk a)

/-- The value of a lane (R141). -/
def State.kaccVal (s : State) (i : Iss) (k : AccKind) (a b : Opnd) (lane : Nat) : Num :=
  let f32 (o : Opnd) : Num := unpack f32Fmt false (s.fpLane i .f32 o lane).toNat
  match k with
  | .f32 => f32 a
  | .prod => accProduct (f32 a) (f32 b)
  | .f64 => unpack f64Fmt false (s.wide i a lane).toNat
  | .s32 => intNum ((s.val i false a lane).setWidth 32 : W32).toInt
  | .s64 => intNum (s.wide i a lane).toInt

/-- What `Kacc` asks of its issue. -/
def kaccReq (g : Guard) (kind : AccKind) (a : Opnd) (b : Opnd) (s : State) : Req :=
  { guard := g, cls := some 2, ok := fun s => s.kaccOk kind a b, vec := true,
    srcs := if accWide kind then wideSrcs s.me.isWave a else if kind = .prod then [a, b] else [a] }

def kaccBody (i : BitVec 2) (kind : AccKind) (a : Opnd) (b : Opnd) (q : Iss) : M Unit := do
  accTurn i
  let s ← get
  for l in lanesOf q.lanes do
    modAcc s.hereId s.me.team i.toNat fun v st => accAddNum v st (s.kaccVal q kind a b l)

def execKacc (g : Guard) (i : BitVec 2) (kind : AccKind) (a b : Opnd) (s : State) :
    Host.Outcome State Fault Refusal :=
  runIssue (kaccReq g kind a b s) (kaccBody i kind a b) s

/-- Sets an accumulator to zero. -/
def clearAcc (core tag i : Nat) : M Unit := modAcc core tag i fun _ _ => (0, .zero)

/-- What `Kclr` asks of its issue. -/
def kclrReq (g : Guard) : Req :=
  { guard := g, cls := some 2, ok := State.hasAcc }

def kclrBody (i : BitVec 2) (_ : Iss) : M Unit := do
  accTurn i
  let s ← get
  clearAcc s.hereId s.me.team i.toNat

def execKclr (g : Guard) (i : BitVec 2) (s : State) : Host.Outcome State Fault Refusal :=
  runIssue (kclrReq g) (kclrBody i) s

/-- The destination of KRND and KSTAT: x, v or uniform; under .f64 x or an even v register (R140). -/
def State.kDst (s : State) (w64 : Bool) (lanes : Nat) (o : Opnd) : Bool :=
  match opOf o with
  | .prim n =>
    if s.me.isWave then s.vdstOk false lanes o && (!w64 || (n % 2 = 0 && s.vdstOk false lanes (nextOpnd o)))
    else s.dstOk w64 false o
  | .k _ => s.vkdstOk lanes o && !w64
  | _ => false

/-- Writes a result of the accumulator unit to every lane acted on, or once (R144). -/
def putAcc (i : Iss) (w64 : Bool) (d : Opnd) (v : W64) : M Unit := do
  let s ← get
  match opOf d with
  | .prim _ =>
    if s.me.isWave then
      putVector i d fun _ => v.setWidth 32
      if w64 then putVector i (nextOpnd d) fun _ => (v >>> 32).setWidth 32
    else putScalar i d v
  | _ => putScalar i d v

def accDsts (wave w64 : Bool) (d : Opnd) : List Opnd := if wave && w64 then [d, nextOpnd d] else [d]

/-- What `Krnd` asks of its issue. -/
def krndReq (g : Guard) (f64 : Bool) (d : Opnd) (s : State) : Req :=
  { guard := g, cls := some 2, vec := s.me.isWave, dsts := accDsts s.me.isWave f64 d, lat := 6,
    ok := fun s => s.hasAcc && s.kDst f64 (lanesOf (s.me.guardLanes g)).length d }

def krndBody (i : BitVec 2) (r : Rnd) (f64 : Bool) (clr : Bool) (d : Opnd) (q : Iss) : M Unit := do
  accTurn i
  let s ← get
  let a := s.acc i.toNat
  let v := krndResult (if f64 then f64Fmt else f32Fmt) (s.me.env r) a.1 a.2
  if clr then clearAcc s.hereId s.me.team i.toNat
  putAcc q f64 d (BitVec.ofNat 64 v.1)
  raiseFlags v.2

def execKrnd (g : Guard) (i : BitVec 2) (r : Rnd) (f64 clr : Bool) (d : Opnd) (s : State) :
    Host.Outcome State Fault Refusal :=
  runIssue (krndReq g f64 d s) (krndBody i r f64 clr d) s

/-- What `Kstat` asks of its issue. -/
def kstatReq (g : Guard) (d : Opnd) (s : State) : Req :=
  { guard := g, cls := some 2, vec := s.me.isWave, dsts := [d], lat := 2,
    ok := fun s => s.hasAcc && s.kDst false (lanesOf (s.me.guardLanes g)).length d }

def kstatBody (i : BitVec 2) (clr : Bool) (d : Opnd) (q : Iss) : M Unit := do
  accTurn i
  let s ← get
  let a := s.acc i.toNat
  if clr then
    modAcc s.hereId s.me.team i.toNat fun v st => (v, { AccStat.zero with wrap := st.wrap })
  putAcc q false d (BitVec.ofNat 64 a.2.byte)

def execKstat (g : Guard) (i : BitVec 2) (clr : Bool) (d : Opnd) (s : State) : Host.Outcome State Fault Refusal :=
  runIssue (kstatReq g d s) (kstatBody i clr d) s

end Sys2Proof.Machine
end

