-- ==== Sys2Proof/Machine/Images.lean ====
section
/-! DEFINITION. Saved state: thread images, wave images, and the swap rows of a pending wave (16_traps.md R433, R434,
R444; 04_registers.md R93). -/

namespace Sys2Proof.Machine

/-- Numbers laid out in turn, `n` bytes each. -/
def numbers (n : Nat) (l : List Nat) : List Byte := l.flatMap (natToBytes n)

/-- A return stack, bottom first, with zeros above it. -/
def stackBytes (l : List W64) : List Byte :=
  numbers 8 ((l.reverse ++ List.replicate (8 - l.length) 0).map fun (e : W64) => e.toNat)

def stackAt (bs : List Byte) (off depth : Nat) : List W64 :=
  ((List.range (min depth 8)).map fun i => (BitVec.ofNat 64 (bytesAt bs (off + 8 * i) 8) &&& pcBits : W64)).reverse

/-- g0 to g7. -/
def Ctx.segBytes (c : Ctx) : List Byte := numbers 16 ((List.range 8).map fun n => (c.seg n).toNat)

def segsAt (bs : List Byte) (off : Nat) : Store (BitVec 128) :=
  (List.range 8).foldl (fun m n => Store.set 0 m n (BitVec.ofNat 128 (bytesAt bs (off + 16 * n) 16))) []

/-- Loop registers. -/
def Ctx.loopBytes (c : Ctx) : List Byte :=
  numbers 8 [c.ls.1.toNat, c.le.1.toNat, c.ls.2.toNat, c.le.2.toNat] ++ numbers 4 [c.lc.1.toNat, c.lc.2.toNat]

def Ctx.withLoops (c : Ctx) (bs : List Byte) (off : Nat) : Ctx :=
  let q (i : Nat) : W64 := BitVec.ofNat 64 (bytesAt bs (off + 8 * i) 8) &&& pcBits
  { c with ls := (q 0, q 2), le := (q 1, q 3),
           lc := (BitVec.ofNat 32 (bytesAt bs (off + 32) 4), BitVec.ofNat 32 (bytesAt bs (off + 36) 4)) }

/-- Cycles left of a park limit, 0 for none: a limit that has passed leaves 1. -/
def Ctx.parkLeft (c : Ctx) (now : Nat) : Nat :=
  match c.parked with
  | some p => match p.limit with
    | some n => max 1 (n - now)
    | none => 0
  | none => 0

def Ctx.parkMask (c : Ctx) : Nat :=
  match c.parked with
  | some p => p.events.toNat
  | none => 0

/-- A park restored from its mask and the cycles left of its limit. -/
def parkOf (mask left now : Nat) : Park :=
  { events := BitVec.ofNat 4 mask, limit := if left = 0 then none else some (now + left) }

/-- Streams 0 to 3: descriptors and next counts. -/
def Ctx.streamBytes (c : Ctx) : List Byte :=
  (List.range 4).flatMap fun i =>
    match Store.get none c.streams i with
    | some t => natToBytes 32 t.desc.toNat ++ natToBytes 8 t.next
    | none => List.replicate 40 0

/-- The word of bound bits and queue bindings, with the credits and the latch's valid bits. -/
def Ctx.bindBytes (c : Ctx) : List Byte :=
  let bound := (List.range 4).foldl (fun v i => v + (if (Store.get none c.streams i).isSome then 2 ^ i else 0)) 0
  let qi := match c.qi with
    | some n => n * 2 ^ 8 + 2 ^ 11
    | none => 0
  let qo := match c.qo with
    | some b => b.core.toNat * 2 ^ 32 + b.queue * 2 ^ 56 + 2 ^ 59
    | none => 0
  let credits := match c.qo with
    | some b => b.credits
    | none => 0
  let valid := (List.range 3).foldl (fun v i => v + (if (Store.get [] c.latch i).isEmpty then 0 else 2 ^ i)) 0
  natToBytes 8 (bound + qi + qo) ++ natToBytes 4 credits ++ [0, 0, 0] ++ natToBytes 1 valid

/-- The binding of `qo` that an image names. Its element size and its grant are in no image: those of a binding that the
context has to the same queue stay, and of any other they are free values (log 107). -/
def Ctx.qoFrom (c : Ctx) (core : GlobalId) (queue credits ticks : Nat) : QoBind :=
  match c.qo with
  | some b =>
    if b.core = core && b.queue = queue then { b with credits := credits } else other
  | none => other
where
  other : QoBind :=
    { core := core, queue := queue, credits := credits, w64 := (Config.freeByte (2 ^ 25) ticks).getLsbD 0,
      grant := credits + (Config.freeByte (2 ^ 25 + 1) ticks).toNat }

/-- Streams and queue bindings restored (R444). -/
def Ctx.withBinds (c : Ctx) (bs : List Byte) (sOff bOff ticks : Nat) : Ctx :=
  let w := bytesAt bs bOff 8
  let put (m : Store (Option Stream)) (i : Nat) : Store (Option Stream) :=
    Store.set none m i (if w.testBit i then
      some { desc := BitVec.ofNat 256 (bytesAt bs (sOff + 40 * i) 32), next := bytesAt bs (sOff + 40 * i + 32) 8 } else none)
  { c with streams := (List.range 4).foldl put [],
           qi := if w.testBit 11 then some (w / 2 ^ 8 % 8) else none,
           qo := if w.testBit 59 then
               some (c.qoFrom (BitVec.ofNat 22 (w / 2 ^ 32)) (w / 2 ^ 56 % 8) (bytesAt bs (bOff + 8) 4) ticks)
             else none }

/-- The operand latch: `k` values of `n` bytes at each of three positions. -/
def Ctx.latchBytes (c : Ctx) (k n : Nat) : List Byte :=
  (List.range 3).flatMap fun i =>
    let l := Store.get [] c.latch i
    (List.range k).flatMap fun j => natToBytes n ((l.getD j 0).toNat)

def Ctx.withLatch (c : Ctx) (bs : List Byte) (off valid k n : Nat) : Ctx :=
  let put (m : Store (List W64)) (i : Nat) : Store (List W64) :=
    Store.set [] m i (if valid.testBit i then
      (List.range 16).map fun j => if j < k then BitVec.ofNat 64 (bytesAt bs (off + n * (k * i + j)) n) else 0 else [])
  { c with latch := (List.range 3).foldl put [] }

/-- The trap block of a barrel thread (R432). -/
def Ctx.trapBlock (c : Ctx) : List Byte := numbers 8 [c.tpc0.toNat, c.tcause.toNat, c.taddr.toNat, c.tspare.toNat]

/-! Thread images (R433). -/

/-- A thread image as of a cycle. -/
def Ctx.threadImage (c : Ctx) (now : Nat) : List Byte :=
  let p := c.slots.1
  let preds := (List.range 8).foldl (fun v n => v + (if n ≠ 0 && (c.pred n).getLsbD 0 then 2 ^ n else 0)) 0
  numbers 8 ((List.range 32).map fun n => (Store.get 0 c.x n).toNat) ++
  natToBytes 8 p.pc.toNat ++ natToBytes 4 c.mode.toNat ++ natToBytes 1 preds ++ natToBytes 1 p.rstk.length ++
  natToBytes 1 (p.cls % 8 + (if c.parked.isSome then 8 else 0) + 16 * c.parkMask) ++
  natToBytes 1 (if c.handler then 1 else 0) ++ stackBytes p.rstk ++ c.segBytes ++ c.loopBytes ++
  natToBytes 8 (c.parkLeft now) ++ c.streamBytes ++ c.bindBytes ++ c.latchBytes 1 8 ++
  (if c.handler then c.trapBlock else List.replicate 32 0) ++ List.replicate 280 0

/-- A context with the content of a thread image; its trap block only where the image has one. -/
def Ctx.withThreadImage (c : Ctx) (bs : List Byte) (now ticks : Nat) : Ctx :=
  let q (off : Nat) : W64 := BitVec.ofNat 64 (bytesAt bs off 8)
  let b270 := bytesAt bs 270 1
  let p : PcSlot :=
    { c.slots.1 with pc := q 256 &&& pcBits, rstk := stackAt bs 272 (bytesAt bs 269 1), cclass := BitVec.ofNat 3 b270, buf := none,
                     refetch := decide (field (q 256) 60 4 ≠ 0) }
  let c1 : Ctx :=
    { c with
        x := (List.range 32).foldl (fun m n => Store.set 0 m n (q (8 * n))) [],
        slots := (p, c.slots.2), mode := BitVec.ofNat 32 (bytesAt bs 264 4) &&& modeBits,
        p := (List.range 8).foldl (fun m n => if n = 0 then m else
          Store.set 0 m n (if (bytesAt bs 268 1).testBit n then 1 else 0)) [],
        g := segsAt bs 336,
        parked := if b270.testBit 3 then some (parkOf (b270 / 16) (bytesAt bs 504 8) now) else none }
  ((c1.withLoops bs 464).withBinds bs 512 672 ticks).withLatch bs 688 (bytesAt bs 687 1) 1 8

/-! Swap rows and wave images (R434). -/

/-- One slot's 16 bits: DEPTH, STATE, RSD, CCLASS, LIVE. -/
def PcSlot.bits (p : PcSlot) : Nat :=
  p.depth % 8 + (if p.waiting then 8 else 0) + 16 * p.rstk.length + 2 ^ 8 * (p.cls % 8) + (if p.live then 2 ^ 11 else 0)

def Ctx.slotMask (c : Ctx) (n : Nat) : Nat := if (c.slot n).live then (c.slot n).mask.toNat else 0
def Ctx.slotPc (c : Ctx) (n : Nat) : Nat := if (c.slot n).live then (c.slot n).pc.toNat else 0
def Ctx.slotJpc (c : Ctx) (n : Nat) : Nat := if (c.slot n).live && (c.slot n).waiting then (c.slot n).jpc.toNat else 0

/-- Swap rows 32 to 35. -/
def Ctx.swapState (c : Ctx) : List Byte :=
  stackBytes c.slots.1.rstk ++ stackBytes c.slots.2.rstk ++
  numbers 8 [c.slotPc 0, c.slotPc 1, c.slotJpc 0, c.slotJpc 1] ++ numbers 2 [c.slotMask 0, c.slotMask 1] ++
  numbers 2 [c.slots.1.bits, c.slots.2.bits] ++ natToBytes 1 c.dsp ++
  natToBytes 1 (c.parkMask + (if c.parked.isSome then 16 else 0) + (if c.handler then 32 else 0)) ++
  numbers 2 ((List.range 7).map fun n => (c.pred (n + 1)).toNat) ++ natToBytes 4 c.mode.toNat ++ [0, 0, 0, 0] ++
  numbers 8 [c.tpc0.toNat, c.tpc1.toNat, c.tcause.toNat, c.taddr.toNat, c.tmask.toNat, c.tspare.toNat] ++
  List.replicate 16 0

/-- Swap rows 0 to 31, and the first half of a wave image. -/
def Ctx.vBytes (c : Ctx) : List Byte := numbers 4 ((List.range 512).map fun j => (Store.get 0 c.v j).toNat)

def vAt (bs : List Byte) (off : Nat) : Store W32 :=
  (List.range 512).foldl (fun m j => Store.set 0 m j (BitVec.ofNat 32 (bytesAt bs (off + 4 * j) 4))) []

/-- A slot restored from swap rows 32 to 35, which begin at `off`. -/
def PcSlot.withSwap (p : PcSlot) (bs : List Byte) (off n : Nat) : PcSlot :=
  let w := bytesAt bs (off + 164 + 2 * n) 2
  let q (o : Nat) : W64 := BitVec.ofNat 64 (bytesAt bs (off + o) 8) &&& pcBits
  { p with live := w.testBit 11, pc := q (128 + 8 * n), mask := BitVec.ofNat 16 (bytesAt bs (off + 160 + 2 * n) 2),
           depth := w % 8, waiting := w.testBit 3, jpc := q (144 + 8 * n), rstk := stackAt bs (off + 64 * n) (w / 16 % 16),
           cclass := BitVec.ofNat 3 (w / 2 ^ 8), buf := none,
           refetch := p.refetch || decide (pcIndex (q (128 + 8 * n)) ≠ 0) }

/-- A wave with the state of swap rows 32 to 35; the cycles left of a park limit come from the frame table. -/
def Ctx.withSwapState (c : Ctx) (bs : List Byte) (off left now : Nat) : Ctx :=
  let b169 := bytesAt bs (off + 169) 1
  { c with
      slots := (c.slots.1.withSwap bs off 0, c.slots.2.withSwap bs off 1), dsp := bytesAt bs (off + 168) 1,
      parked := if b169.testBit 4 then some (parkOf (b169 % 16) left now) else none,
      p := (List.range 7).foldl (fun m n =>
        Store.set 0 m (n + 1) (BitVec.ofNat 16 (bytesAt bs (off + 170 + 2 * n) 2))) [],
      mode := BitVec.ofNat 32 (bytesAt bs (off + 184) 4) &&& modeBits }

/-- The handler bit and trap block of swap rows 32 to 35. -/
def Ctx.withSwapTraps (c : Ctx) (bs : List Byte) (off : Nat) : Ctx :=
  let q (o : Nat) : W64 := BitVec.ofNat 64 (bytesAt bs (off + o) 8)
  { c with handler := (bytesAt bs (off + 169) 1).testBit 5, tpc0 := q 192 &&& pcBits, tpc1 := q 200 &&& pcBits,
           tcause := putTmode (q 208 &&& 0x00003FFFFFFEFFFF) ((q 208).extractLsb' 32 14 |>.setWidth 32), taddr := q 216,
           tmask := q 224 &&& 0x0000FFFFFFFFFFFF, tspare := q 232 }

/-- The frame-table entry of a wave. -/
def Ctx.frameEntry (c : Ctx) (now : Nat) : List Byte :=
  c.segBytes ++ c.loopBytes ++ natToBytes 8 (c.parkLeft now) ++ c.streamBytes ++ c.bindBytes ++ c.latchBytes 16 4

def Ctx.withFrameEntry (c : Ctx) (bs : List Byte) (off ticks : Nat) : Ctx :=
  let c1 : Ctx := { c with g := segsAt bs off }
  ((c1.withLoops bs (off + 128)).withBinds bs (off + 176) (off + 336) ticks).withLatch bs (off + 352)
    (bytesAt bs (off + 351) 1) 16 4

/-- A wave image; `stack`: the 512 bytes of its divergence stack. -/
def Ctx.waveImage (c : Ctx) (stack : List Byte) (now : Nat) : List Byte :=
  c.vBytes ++ c.swapState ++ stack ++ c.frameEntry now ++ List.replicate 736 0

def Ctx.withWaveImage (c : Ctx) (bs : List Byte) (now ticks : Nat) : Ctx :=
  let c1 : Ctx := { c with v := vAt bs 0 }
  (c1.withSwapState bs 2048 (bytesAt bs 2984 8) now).withFrameEntry bs 2816 ticks

/-! The frame of a wave. -/

/-- The first row of a wave's frame. -/
def State.frameFirst (s : State) (id : CtxId) : Option Nat :=
  let c := s.core id.core
  match id.seat with
  | .frame n => (c.team (Store.get .blank c.ctxs (seatIndex id.seat)).team).bind fun t => t.frameRow n
  | .slot _ => none

/-- Writes a wave's state to its swap rows (03_contexts.md R67). -/
def swapStore (id : CtxId) : M Unit := do
  match (← get).frameFirst id with
  | none => pure ()
  | some r =>
    let c ← getCtx id
    modCore id.core fun k => k.putRows (64 * r) (c.vBytes ++ c.swapState)

/-- Keeps the swap rows of a wave that is not active as its state stands. -/
def swapSync (id : CtxId) : M Unit := do
  let c ← getCtx id
  if c.present && c.isWave && c.place ≠ .active then swapStore id

/-- Reads a wave's state back from its swap rows (03_contexts.md R68). A poisoned one is a machine check of the wave before it
issues again (06_scratchpad.md R148; the lowest such row, DEDUCED, log 130). -/
def swapLoad (id : CtxId) : M Unit := do
  match (← get).frameFirst id with
  | none => pure ()
  | some r =>
    let now ← now
    let k ← getCore id.core
    let bs := Store.bytes k.rows (64 * r) 2304
    modCtx id fun c =>
      let c1 : Ctx := { c with v := vAt bs 0 }
      (c1.withSwapState bs 2048 (c.parkLeft now) now).withSwapTraps bs 2048
    match (List.range 36).find? fun j => tagPoison (k.tag (r + j)) with
    | some j =>
      modCtx id fun c =>
        { c with trapping := some { trap := { cause := 15, detail := 0, addr := localAddrOf (64 * (r + j)) }, paired := false,
                                    lanes := c.curSlot.mask, slot := c.cur } }
    | none => pure ()

end Sys2Proof.Machine
end

