-- ==== Sys2Proof/Machine/Memory.lean ====
section
/-! DEFINITION. The global memory group, POLL, RBUMP, RSNAP, LDLOD, FENCE and PFENCE (03_contexts.md R82;
07_addresses.md R202 to R210; 08_residency.md R230 to R238; 09_sharing.md R245, R253 to R256). -/

namespace Sys2Proof.Machine

/-! Shared pieces. -/

def widthSize (w : BitVec 3) : Nat := 2 ^ w.toNat

/-- base + Sext(offset) × size (R188). -/
def memAddr (base : W64) (off : BitVec 13) (size : Nat) : W64 := base + off.signExtend 64 * BitVec.ofNat 64 size

/-- Whether a read's path may answer from its cache (R245). -/
def mayCache (p : Path) (order scope : Nat) : Bool :=
  match p with
  | .ls => order ≤ 1 && scope ≤ 1
  | .const => order ≤ 1
  | .sampler => order ≤ 1 || 6 ≤ order
  | .poc => false

/-- A completed acquire of scope 2 to 5 empties the core's load-store cache (R245). -/
def acquired (order scope : Nat) : M Unit := do
  if (order = 2 || order = 4 || order = 5) && 2 ≤ scope then modHere fun c => { c with lsCache := [] }

/-- What a release-ordered access waits for (R92, R210). -/
def releasing (order : Nat) : M Unit := do
  if order = 3 || order = 4 || order = 5 then landUniform

/-- How a memory instruction of the format M reads: its path, its order, scope and reuse (R245). -/
def viaOf (p : Path) (m : MemF) : Via :=
  { path := p, cached := mayCache p m.order.toNat m.scope.toNat, scope := m.scope.toNat, reuse := m.reuse.toNat }

/-- How it reads and writes at the point of coherence. -/
def atPoc (m : MemF) : Via := { path := .ls, scope := m.scope.toNat, reuse := m.reuse.toNat }

/-! Bounded loads (R254). -/

/-- A refresh of a replica entry of a core is asked for or under way. -/
def State.refreshing (s : State) (core e : Nat) : Bool :=
  s.pending.contains (.refresh core e) || s.timers.any fun t => t.2 = .refresh core e

/-- Where a byte of a bounded load comes from: an offset of the core's rows, or its point of coherence (none). While a
refresh must run the load waits; `prog.old` holds the entries for which it has asked for one, and `prog.tok` says that its
context was pre-empted meanwhile. -/
def boundedFrom (order bound va : Nat) : M (Option Nat) := do
  let s ← get
  match s.replicaEntry s.hereId va with
  | none => return none
  | some (e, off) =>
    let k := Store.get Prick.reset s.here.pricks e
    let latest := field (Store.get 0 s.here.watch k.watch) 64 64
    let mine := s.me.prog.active && s.me.prog.old.contains (BitVec.ofNat 64 e)
    if bound = 15 || latest - k.copy.toNat ≤ bound then return some off
    else if order = 7 || s.me.prog.tok = some true then return none
    else if mine && !s.refreshing s.hereId e then return some off
    else
      modMe fun c =>
        let old := if c.prog.active then c.prog.old else []
        let asked := if mine || s.refreshing s.hereId e then old else BitVec.ofNat 64 e :: old
        { c with prog := { c.prog with active := true, old := asked } }
      if !s.refreshing s.hereId e then later (.refresh s.hereId e)
      hold .loadOp { load := true }

/-- The pieces of a load as single bytes where it is bounded: rows of a replica, or memory. A bounded access to a row acts
as order 1 (06_scratchpad.md R164). -/
def boundedPieces (order bound : Nat) (ps : List Place1) : M (List Place1) := do
  if order < 6 then return ps
  let mut qs : List Place1 := []
  for q in ps do
    match q with
    | .row _ _ _ => qs := qs ++ [q]
    | .phys pa va n =>
      for j in List.range n do
        match ← boundedFrom order bound (va + j) with
        | some off => qs := qs ++ [.row (← get).hereId off 1]
        | none => qs := qs ++ [.phys (pa + j) (va + j) 1]
  return qs

/-- What the lanes of a load read: every lane's sources, their machine checks, then the bytes (R245, R254). -/
def loadLanesAt (v : Via) (order bound : Nat) (lanes : List LaneAddr) (got : List (Nat × List Place1)) :
    M (List (Nat × Nat)) := do
  let src ← got.mapM fun g => do return (g.1, ← boundedPieces order bound g.2)
  if 6 ≤ order then machineCheck v lanes src
  src.mapM fun g => do return (g.1, ← readPieces v g.2)

/-- A load's access: its reads look for poison with the access itself unless they are bounded. -/
def loadNeed (v : Via) (order : Nat) : Need := { Need.load with via := if 6 ≤ order then none else some v }

/-! Atomic operations (R206, 06_scratchpad.md R179). -/

/-- The new value of a read-modify-write of `bits` bits, and the flags of fadd. -/
def atomValue (op bits : Nat) (c : Ctx) (old d : Nat) : Nat × FlagSet :=
  let so : Int := (BitVec.ofNat bits old).toInt
  let sd : Int := (BitVec.ofNat bits d).toInt
  match op with
  | 0 => (d, 0)
  | 1 => ((old + d) % 2 ^ bits, 0)
  | 2 => (if so ≤ sd then old else d, 0)
  | 3 => (if so ≤ sd then d else old, 0)
  | 4 => (min old d, 0)
  | 5 => (max old d, 0)
  | 6 => (Nat.land old d, 0)
  | 7 => (Nat.lor old d, 0)
  | 8 => (Nat.xor old d, 0)
  | _ =>
    let f := if bits = 64 then f64Fmt else f32Fmt
    let e := c.env .dyn
    addNum f e (unpack f (e.flush f) old) (unpack f (e.flush f) d)

/-! Operands of the group (R203). -/

/-- Data of a load: an x register or pair, or a wave's uniform register or pair; no stream (R97, R203). -/
def State.loadDst (s : State) (w : BitVec 3) (d : Opnd) : Bool :=
  match opOf d with
  | .prim n =>
    !s.me.isWave && (s.me.streamOf n).isNone && (w ≠ 4 || (n % 2 = 0 && (s.me.streamOf (n + 1)).isNone))
  | .k n => s.me.isWave && n < s.kLimit && w ≠ 4 && (w ≠ 3 || (n % 2 = 0 && n + 1 < s.kLimit))
  | _ => false

def State.storeSrc (s : State) (w : BitVec 3) (d : Opnd) : Bool :=
  match opOf d with
  | .zero | .imm _ => w ≠ 4 && !(s.me.isWave && w = 3)
  | .k n => s.me.isWave && n < s.kLimit && w ≠ 4 && (w ≠ 3 || (n % 2 = 0 && n + 1 < s.kLimit))
  | .prim n => s.xOk d && (w ≠ 4 || (n % 2 = 0 && (s.me.writeStream (n + 1)).isNone))
  | _ => false

def State.casData (s : State) (w : BitVec 3) (d : Opnd) : Bool :=
  match opOf d with
  | .prim n =>
    !s.me.isWave && (s.me.streamOf n).isNone && (w = 2 || (n % 2 = 0 && (s.me.streamOf (n + 1)).isNone))
  | .k _ => s.me.isWave && w = 2 && s.kPairOk d
  | _ => false

/-- Register writes of a load of a width: zero-extended; b128 fills a register pair. -/
def State.loadWrites (s : State) (w : BitVec 3) (d : Opnd) (v : Nat) : List RegWrite :=
  match opOf d with
  | .prim n =>
    if w = 4 then [.x n (BitVec.ofNat 64 v), .x (n + 1) (BitVec.ofNat 64 (v / 2 ^ 64))] else [.x n (BitVec.ofNat 64 v)]
  | .k n =>
    match s.myTeam with
    | some t =>
      if w = 3 then [.k t.half n (BitVec.ofNat 32 v) 0, .k t.half (n + 1) (BitVec.ofNat 32 (v / 2 ^ 32)) 0]
      else [.k t.half n (BitVec.ofNat 32 v) 0]
    | none => []
  | _ => []

/-- The registers that a datum of a width names. -/
def dataRegs (w : BitVec 3) (wave : Bool) (d : Opnd) : List Nat :=
  if w = 4 || (wave && w = 3) then pairRegs wave d else opRegs wave d

/-- A memory instruction of the group. -/
def memReq (m : MemF) (data : State → Bool) (long : Bool) : Req :=
  { guard := m.guard, cls := some 0, form := State.unified, ok := fun s => s.addrOk m.base && data s,
    srcs := [m.base, nextOpnd m.base],
    regs := fun w => dataRegs m.width w m.data, long := long }

/-- The generic address of a scalar memory instruction. -/
def scalarAddr (i : Iss) (m : MemF) (size : Nat) : M W64 := do
  return memAddr (← wval i m.base i.rep) m.off size

/-- The offset of ATOM and VATOM (R206). -/
def atomOff (m : MemF) : BitVec 13 := (m.off.extractLsb' 0 9).signExtend 13

/-- Records what a scalar load of `size` bytes with an offset reads, with its address. -/
def loadResult (m : MemF) (off : BitVec 13) (size : Nat) (i : Iss) (ws : List RegWrite) : M Unit := do
  pendResult m.la.toNat true ws 0 (memAddr (← wval i m.base i.rep) off size)

/-- What LD or LDC reads: the access with its checks, then the bytes (R204). -/
def loadValue (p : Path) (m : MemF) (i : Iss) : M Nat := do
  let size := widthSize m.width
  let lanes : List LaneAddr := [(i.rep, ← scalarAddr i m size)]
  let v := viaOf p m
  let got ← access size (loadNeed v m.order.toNat) lanes
  let vals ← loadLanesAt v m.order.toNat m.bound.toNat lanes got
  return (vals.headD (0, 0)).2

/-- LD and LDC (R204). -/
def loadBody (p : Path) (m : MemF) (i : Iss) : M Unit := do
  let v ← loadValue p m i
  acquired m.order.toNat m.scope.toNat
  loadResult m m.off (widthSize m.width) i ((← get).loadWrites m.width m.data v)

def execLd (m : MemF) (s : State) : Host.Outcome State Fault Refusal :=
  runIssue { memReq m (fun s => s.loadDst m.width m.data) true with srcs := wideSrcs s.me.isWave m.base }
    (loadBody .ls m) s

def execLdc (m : MemF) (s : State) : Host.Outcome State Fault Refusal :=
  runIssue { memReq m (fun s => s.loadDst m.width m.data) true with srcs := wideSrcs s.me.isWave m.base }
    (loadBody .const m) s

/-- The number that a store's data operand gives (R203). -/
def storeData (i : Iss) (w : BitVec 3) (d : Opnd) : M Nat := do
  let s ← get
  match opOf d with
  | .k n => return (if w = 3 then (s.uni (n + 1) ++ s.uni n : W64).toNat else (s.uni n).toNat)
  | .prim _ =>
    let lo := (s.val i false d i.rep).toNat
    return if w = 4 then lo + 2 ^ 64 * (s.val i false (nextOpnd d) i.rep).toNat else lo
  | .imm v => return (v.signExtend 128).toNat
  | _ => return 0

/-- ST's access and its store. -/
def storeAt (m : MemF) (i : Iss) : M Unit := do
  let size := widthSize m.width
  let got ← access size .store [(i.rep, ← scalarAddr i m size)]
  let v ← storeData i m.width m.data
  writePieces (atPoc m) ((got.headD (0, [])).2) size (v % 2 ^ (8 * size))

/-- What `St` asks of its issue. -/
def stReq (m : MemF) (s : State) : Req :=
  { memReq m (fun s => s.storeSrc m.width m.data) false with
    srcs := wideSrcs s.me.isWave m.base ++ (if m.width = 4 then [m.data, nextOpnd m.data] else [m.data]) }

/-- ST (R205). -/
def stBody (m : MemF) (i : Iss) : M Unit := do
  releasing m.order.toNat
  storeAt m i

def execSt (m : MemF) (s : State) : Host.Outcome State Fault Refusal :=
  runIssue (stReq m s) (stBody m) s

/-- ATOM's read-modify-write: the old value, and the flags of fadd. -/
def atomValueAt (m : MemF) (i : Iss) : M (Nat × FlagSet) := do
  let size := widthSize m.width
  let got ← access size .rmw [(i.rep, memAddr (← wval i m.base i.rep) (atomOff m) size)]
  let ps := (got.headD (0, [])).2
  atomicAtHome (atPoc m) ps
  let old ← readPieces (atPoc m) ps
  let d ← storeData i m.width m.data
  let r := atomValue (m.off.extractLsb' 9 4).toNat (8 * size) (← getMe) old (d % 2 ^ (8 * size))
  writePieces (atPoc m) ps size r.1
  return (old, r.2)

/-- What `Atom` asks of its issue. -/
def atomReq (m : MemF) (s : State) : Req :=
  { memReq m (fun s => s.loadDst m.width m.data) true with srcs := wideSrcs s.me.isWave m.base }

/-- ATOM (R206); the offset is [8:0] in units of the width. -/
def atomBody (m : MemF) (i : Iss) : M Unit := do
  releasing m.order.toNat
  let r ← atomValueAt m i
  acquired m.order.toNat m.scope.toNat
  loadResult m (atomOff m) (widthSize m.width) i
    ((← get).loadWrites m.width m.data r.1 ++ (if r.2 = 0 then [] else [.flags r.2]))

def execAtom (m : MemF) (s : State) : Host.Outcome State Fault Refusal :=
  runIssue (atomReq m s) (atomBody m) s

/-- What CAS expects and what it would write (R203). -/
def casOperands (i : Iss) (w : BitVec 3) (d : Opnd) : M (Nat × Nat) := do
  let s ← get
  match opOf d with
  | .k n => return ((s.uni n).toNat, (s.uni (n + 1)).toNat)
  | .prim n =>
    if w = 3 then return ((s.me.xreg n).toNat, (s.me.xreg (n + 1)).toNat)
    else return (field (s.me.xreg n) 0 32, field (s.me.xreg n) 32 32)
  | _ => let v := (s.val i false d i.rep).toNat; return (v, v)

/-- The expected half written with the old value, the desired half kept (R207). -/
def State.casWrites (s : State) (w : BitVec 3) (d : Opnd) (old : Nat) : List RegWrite :=
  match opOf d with
  | .k n => match s.myTeam with
    | some t => [.k t.half n (BitVec.ofNat 32 old) 0]
    | none => []
  | .prim n =>
    if w = 3 then [.x n (BitVec.ofNat 64 old)]
    else [.x n (((s.me.xreg n).extractLsb' 32 32) ++ BitVec.ofNat 32 old)]
  | _ => []

/-- CAS's comparison and its store: the old value. -/
def casValueAt (m : MemF) (i : Iss) : M Nat := do
  let size := widthSize m.width
  let got ← access size .rmw [(i.rep, ← scalarAddr i m size)]
  let ps := (got.headD (0, [])).2
  atomicAtHome (atPoc m) ps
  let old ← readPieces (atPoc m) ps
  let want ← casOperands i m.width m.data
  if old = want.1 then writePieces (atPoc m) ps size want.2
  return old

/-- What `Cas` asks of its issue. -/
def casReq (m : MemF) (s : State) : Req :=
  { memReq m (fun s => s.casData m.width m.data) true with
    srcs := wideSrcs s.me.isWave m.base,
    regs := fun w => if w || m.width = 3 then pairRegs w m.data else opRegs w m.data }

/-- CAS (R207). -/
def casBody (m : MemF) (i : Iss) : M Unit := do
  releasing m.order.toNat
  let old ← casValueAt m i
  acquired m.order.toNat m.scope.toNat
  loadResult m m.off (widthSize m.width) i ((← get).casWrites m.width m.data old)

def execCas (m : MemF) (s : State) : Host.Outcome State Fault Refusal :=
  runIssue (casReq m s) (casBody m) s

/-- Brings a line into its home slice, and with scope 1 into the core's load-store cache, if it can be reached without a
fault or a fill (R208). -/
def prefLine (v : Via) (a : W64) : M Unit := do
  match (← get).precheck a 64 .load with
  | .ok (.glob va) =>
    match ← translateMine va .read false with
    | .ok pa =>
      modify fun s =>
        let s1 := s.atHome { v with scope := 4 } pa 64 true false
        if v.scope = 1 && !s.owns (pa / 64) then s1.fillPath v (pa / 64) va else s1
    | _ => pure ()
  | _ => pure ()

/-- The lines of PREF from an address on, those of its 2 MB. -/
def prefLines (v : Via) (addr : W64) (n : Nat) : M Unit := do
  let va := ((← get).me.virtOf addr).toNat
  for j in List.range n do
    if (va / 64 + j) * 64 / 2 ^ 21 = va / 2 ^ 21 then
      prefLine v (addr - BitVec.ofNat 64 (va % 64) + BitVec.ofNat 64 (64 * j))

/-- What `Pref` asks of its issue. -/
def prefReq (m : MemF) (s : State) : Req :=
  { guard := m.guard, cls := some 0, form := State.unified, ok := fun s => s.addrOk m.base,
    srcs := wideSrcs s.me.isWave m.base }

/-- PREF: brings lines into their home slices and, with scope 1, into the core's load-store cache; it never faults
(R208). -/
def prefBody (m : MemF) (i : Iss) : M Unit := do
  let addr := memAddr (← wval i m.base i.rep) m.off 64
  if isAperture addr then pure () else prefLines (atPoc m) addr (2 ^ m.width.toNat)

def execPref (m : MemF) (s : State) : Host.Outcome State Fault Refusal :=
  runIssue (prefReq m s) (prefBody m) s

/-! POLL (R82). -/

/-- POLL's data: a primary register that no stream binds. -/
def State.pollDst (s : State) (d : Opnd) : Bool :=
  match opOf d with
  | .prim n => (s.me.streamOf n).isNone && !(s.me.isWave && s.me.curSlot.cls = 0)
  | _ => false

/-- A primary register's value in a lane. -/
def State.primVal (s : State) (d : Opnd) (lane : Nat) : W64 :=
  match opOf d with
  | .prim n => if s.me.isWave then (s.me.vreg n lane).setWidth 64 else s.me.xreg n
  | _ => 0

/-- A primary register's write in a lane. -/
def primWrite (wave : Bool) (d : Opnd) (lane : Nat) (v : W64) : List RegWrite :=
  match opOf d with
  | .prim n => if wave then [.v n lane (v.setWidth 32)] else [.x n v]
  | _ => []

/-- The lanes of a POLL that have not seen a change, looked at once more. -/
def pollLanes (m : MemF) (i : Iss) : M Unit := do
  let c ← getMe
  let s ← get
  let size := widthSize m.width
  let todo := (lanesOf i.lanes).filter fun l => !c.prog.done.getLsbD l
  let lanes : List LaneAddr := todo.map fun l => (l, memAddr (s.wide i m.base l) m.off size)
  let got ← access size { loadNeed (viaOf .ls m) m.order.toNat with natural := true } lanes
  let vals ← loadLanesAt (viaOf .ls m) m.order.toNat 0 lanes got
  vals.forM fun g => do
    let v : W64 := BitVec.ofNat 64 g.2
    let old := c.prog.old.getD g.1 0
    if (if m.width = 3 then v ≠ old else v.setWidth 32 ≠ (old.setWidth 32 : W32)) then
      applyAll (primWrite c.isWave m.data g.1 v)
      modMe fun c => { c with prog := { c.prog with done := c.prog.done ||| laneBit g.1 } }
  acquired m.order.toNat m.scope.toNat

/-- The old values of a POLL that begins. -/
def beginPoll (m : MemF) : M Unit := do
  let s ← get
  if !s.me.prog.active then
    let old := (List.range 16).map fun l => s.primVal m.data l
    modMe fun c =>
      { c with prog := { c.prog with active := true, old := old, since := s.clk.toNat, backoff := 16, nextCheck := 0 } }

/-- What a POLL's wait is: the context issues nothing until it has completed (R82). -/
def pollKind : WaitKind := { agent := true, alone := true, load := true }

/-- What `Poll` asks of its issue; a wave's width is b32 (R82). -/
def pollReq (m : MemF) (s : State) : Req :=
  { guard := m.guard, form := fun s => s.unified && !(s.me.isWave && m.width = 3), ok := fun s => s.vaddrOk m.base && s.pollDst m.data,
    srcs := wideSrcs s.me.isWave m.base, regs := fun w => opRegs w m.data, vec := true, long := true }

/-- POLL: one check of the lanes not done; those that see a change are written at once and stay done; it is tried
again, under the back-off of R71, until every lane has (R82). The old values are those the register held when the POLL issued. -/
def pollBody (m : MemF) (i : Iss) : M Unit := do
  beginPoll m
  if (← get).pollWaits then hold .poll pollKind
  pollLanes m i
  if ((← getMe).prog.done &&& i.lanes) ≠ i.lanes then
    backOff
    hold .poll pollKind

def execPoll (m : MemF) (s : State) : Host.Outcome State Fault Refusal :=
  runIssue (pollReq m s) (pollBody m) s

/-! Round counters (R253, R255). -/

def roundReq (m : MemF) (s : State) : Req :=
  { memReq m (fun s => s.loadDst 3 m.data) true with srcs := wideSrcs s.me.isWave m.base }

/-- The access of a round operation: a global word. -/
def roundAccess (i : Iss) (m : MemF) (need : Need) : M (List Place1) := do
  let addr ← scalarAddr i m 8
  if isAperture addr then apertureFault addr
  let got ← access 8 need [(i.rep, addr)]
  return (got.headD (0, [])).2

def placeAddr (ps : List Place1) : Nat :=
  match ps with
  | .phys pa _ _ :: _ => pa
  | _ => 0

/-- Sends a counter's notices to its watchers (R253). -/
def sendNotices (pa : Nat) (v : W64) : M Unit := do
  for w in (← getCluster (homeCluster pa)).watchers do
    if w.1 = pa then
      for k in w.2 do sendFlit (clusterCore0 (homeCluster pa)) ((← get).globalId k) 3 (.roundNotice · k pa v)

/-- RBUMP on a counter (R255): its new value. -/
def bumpCounter (v : Via) (ps : List Place1) : M W64 := do
  atomicAtHome v ps
  let old : W64 := BitVec.ofNat 64 (← readPieces v ps)
  if old = 0xFFFFFFFFFFFFFFFF then return old
  writePieces v ps 8 (old + 1).toNat
  sendNotices (placeAddr ps) (old + 1)
  return old + 1

/-- What `Rbump` asks of its issue. -/
def rbumpReq (m : MemF) (s : State) : Req :=
  (roundReq m s)

def rbumpBody (m : MemF) (i : Iss) : M Unit := do
  landUniform
  let ps ← roundAccess i m .rmw
  let v ← bumpCounter (atPoc m) ps
  acquired m.order.toNat m.scope.toNat
  loadResult m m.off 8 i ((← get).loadWrites 3 m.data v.toNat)

def execRbump (m : MemF) (s : State) : Host.Outcome State Fault Refusal :=
  runIssue (rbumpReq m s) (rbumpBody m) s

/-- Raises LATEST of the watch entry of a counter on a core (R253). -/
def raiseLatest (core pa : Nat) (v : W64) : M Unit :=
  modCore core fun c => c.heard pa v

/-- What `Rsnap` asks of its issue. -/
def rsnapReq (m : MemF) (s : State) : Req :=
  (roundReq m s)

/-- RSNAP: one of order 2 or 5 has raised LATEST when the next instruction issues; one of order 1 raises it when its result
lands (R255; 17_programs.md R447). -/
def rsnapBody (m : MemF) (i : Iss) : M Unit := do
  let ps ← roundAccess i m { Need.load with natural := true }
  let v : W64 := BitVec.ofNat 64 (← readPieces (atPoc m) ps)
  if m.order ≠ 1 then raiseLatest (← get).hereId (placeAddr ps) v
  acquired m.order.toNat m.scope.toNat
  loadResult m m.off 8 i ((← get).loadWrites 3 m.data v.toNat ++ (if m.order = 1 then [.latest (placeAddr ps) v] else []))

def execRsnap (m : MemF) (s : State) : Host.Outcome State Fault Refusal :=
  runIssue (rsnapReq m s) (rsnapBody m) s

/-! The Picot filter (08_residency.md R236 to R238). -/

/-- A filter entry as a ring entry (R237). -/
def Picot.ringEntry (p : Picot) : BitVec 128 :=
  BitVec.ofNat 128
    (p.kind * 2 ^ 125 + p.level * 2 ^ 122 + p.plane * 2 ^ 119 + (if p.fine then 2 ^ 118 else 0) + p.core * 2 ^ 100 +
     p.count * 2 ^ 92 + p.page)

/-- Writes a filter entry to its domain's ring; one whose ring is not there is dropped and counted. -/
def writePicot (cluster : Nat) (p : Picot) : M Unit := do
  let s ← get
  let log2n := s.rcbField p.rcb 3 52 5
  let base := s.rcbField p.rcb 3 6 46 * 64
  let core := cluster * 48
  if log2n = 0 then pure ()
  else if !s.populated base || !s.populated (base + 63 + 16 * 2 ^ log2n) then bumpUnit core 4
  else
    if (← ringWrite base log2n p.ringEntry).isSome then bumpUnit core 5

/-- Hands a wanted page to the filter: whether its domain logs at all. -/
def wantPage (core dom va : Nat) (fine : Bool) (kind level plane : Nat) : M Bool := do
  let s ← get
  if s.rcbField dom 3 52 5 = 0 then return false
  let cl := clusterOf core
  let page := if fine then va / 1024 * 1024 else va / 2 ^ 21 * 2 ^ 21
  let same (p : Picot) : Bool :=
    p.rcb = dom && p.page = page && p.fine = fine && p.kind = kind && p.level = level && p.plane = plane
  let k ← getCluster cl
  match k.picots.find? same with
  | some p =>
    let p1 : Picot := { p with count := min 255 (p.count + 1) }
    let rest := k.picots.filter fun q => !same q
    if p1.count = 255 then
      modCluster cl fun k => { k with picots := rest }
      writePicot cl p1
    else modCluster cl fun k => { k with picots := p1 :: rest }
  | none =>
    let now := s.clk.toNat
    let p : Picot := { rcb := dom, page := page, fine := fine, kind := kind, level := level, plane := plane,
                       core := core, count := 1, since := now }
    if 16 ≤ k.picots.length then
      match k.picots.getLast? with
      | some old => writePicot cl old
      | none => pure ()
    modCluster cl fun k => { k with picots := p :: k.picots.take 15 }
    atCycle (now + 4096) (.picotExpiry cl 0)
  return true

/-! LDLOD (R230 to R235). -/

/-- A chain descriptor's four registers. -/
structure Chain where
  b0 : W64
  shape : W32       -- k4c+2
  blk : W32         -- k4c+3
  deriving DecidableEq, Repr

def Chain.kind (d : Chain) : Nat := field d.shape 0 4
def Chain.nlev (d : Chain) : Nat := field d.shape 4 3
def Chain.size (d : Chain) : Nat := 2 ^ field d.shape 7 2
def Chain.lw (d : Chain) : Nat := field d.shape 9 4
def Chain.lh (d : Chain) : Nat := field d.shape 13 4
def Chain.elems (d : Chain) : Nat := 512 * field d.blk 0 24

/-- Width and height of level L. -/
def Chain.dim (lg L : Nat) : Nat := max (2 ^ lg / 2 ^ L) 1

/-- Elements of the levels below L. -/
def Chain.before (d : Chain) : Nat → Nat
  | 0 => 0
  | L + 1 => Chain.before d L + Chain.dim d.lw L * Chain.dim d.lh L

/-- Bytes from B0 to the end of the span. -/
def Chain.span (d : Chain) : Nat :=
  if d.kind = 2 then d.elems + d.elems / 32 else d.size * d.before (d.nlev + 1)

/-- DescBad (R233). -/
def Chain.bad (d : Chain) (width : Nat) : Bool :=
  field d.blk 24 8 ≠ 0 || field d.shape 17 15 ≠ 0 ||
  (match d.kind with
   | 1 => field d.blk 0 24 ≠ 0 || field d.shape 7 2 ≠ width || d.b0.toNat % d.size ≠ 0
   | 2 => field d.shape 7 10 ≠ 0 || d.nlev ≠ 6 || d.elems = 0 || width ≠ 0
   | _ => true)

/-- Outside (R233). -/
def Chain.outside (d : Chain) (a : W64) : Bool :=
  let off := (a - d.b0).toNat
  if d.kind = 2 then d.elems ≤ off
  else d.size * Chain.dim d.lw 0 * Chain.dim d.lh 0 ≤ off || off % d.size ≠ 0

/-- Offsets from B0 of the pieces of level L's data: offset and plane of each byte or element. -/
def Chain.data (d : Chain) (a : W64) (L : Nat) : List (Nat × Nat) :=
  let off := (a - d.b0).toNat
  if d.kind = 2 then
    ((List.range (8 - L)).map fun j => (j * (d.elems / 8) + off / 8, 7 - j)) ++ [(d.elems + off / 32, 7)]
  else
    let e := off / d.size
    let x := e % Chain.dim d.lw 0
    let y := e / Chain.dim d.lw 0
    [(d.size * (d.before L + y / 2 ^ L * Chain.dim d.lw L + x / 2 ^ L), 0)]

/-- The midpoint value of k planes (05_lanes.md R119): `q` holds planes 7 down, plane 7 in bit k − 1. -/
def midpoint (q k : Nat) : Int :=
  let t : Int := if 2 ^ (k - 1) ≤ q then (q : Int) - 2 ^ k else q
  if k = 8 then t else t * 2 ^ (8 - k) + 2 ^ (7 - k)

/-- The status word of R234. -/
def lodStatus (scale : Nat) (logged : Bool) (wanted served code : Nat) : Nat :=
  scale * 2 ^ 24 + (if logged then 2 ^ 12 else 0) + wanted * 2 ^ 8 + served * 2 ^ 4 + code

/-- The bytes of level L's data, cut at sub-pages: for each datum its plane and its pieces, as virtual addresses and
counts. -/
def Chain.pieces (d : Chain) (a : W64) (base L : Nat) : List (Nat × List (Nat × Nat)) :=
  (d.data a L).map fun p => (p.2, pieceSplit (base + p.1) (if d.kind = 2 then 1 else d.size))

/-- One level tried: the places of each datum, a failure of its walk, or absence. -/
inductive LodTry where
  | all (places : List (List Place1))
  | badMap
  | absent
  deriving DecidableEq, Repr

/-- Tries one level; `counts`: the walk's own try, whose TLB misses the context's bank counts (18_debug.md R465). -/
def lodTry (counts : Bool) (data : List (List (Nat × Nat))) : M LodTry := do
  let s ← get
  let mut places : List (List Place1) := []
  let mut bad := false
  let mut gone := false
  for d in data do
    let mut ps : List Place1 := []
    for q in d do
      match ← (if counts then translateMine q.1 .read false else translate s.myDomain s.hereId q.1 .read false) with
      | .ok pa => ps := ps ++ [.phys pa q.1 q.2]
      | .page e => if e = 1 then gone := true else bad := true
      | .wait _ => gone := true
    places := places ++ [ps]
  return if bad then .badMap else if gone then .absent else .all places

/-- LogWanted (R235): one request for each wanted page that is not valid; whether any was handed to the filter. -/
def logWanted (d : Chain) (a : W64) (base lvl : Nat) : M Bool := do
  let s ← get
  let core := s.hereId
  let dom := s.myDomain
  let mut pages : List (Nat × Nat × Bool) := []
  for p in d.pieces a base lvl do
    for q in p.2 do
      match ← lodTry false [[q]] with
      | .absent =>
        let fine := s.inFine core (s.domAsn dom) q.1
        let page := if fine then q.1 / 1024 * 1024 else q.1 / 2 ^ 21 * 2 ^ 21
        if !pages.contains (page, p.1, fine) then pages := pages ++ [(page, p.1, fine)]
      | _ => pure ()
  let mut logged := false
  for g in pages do
    if ← wantPage core dom g.1 g.2.2 (if d.kind = 2 then 2 else 1) lvl g.2.1 then logged := true
  return logged

/-- The value and status that the data of a served level give. -/
def lodResult (d : Chain) (a : W64) (lvl L : Nat) (logged : Bool) (vals : List Nat) : Nat × Nat × Bool :=
  let code := if L = lvl then 0 else 1
  if d.kind = 2 then
    let k := 8 - L
    let bit := (a - d.b0).toNat % 8
    let q := (List.range k).foldl (fun acc j => 2 * acc + vals.getD j 0 / 2 ^ bit % 2) 0
    let scale := vals.getD k 0
    let v := if scale = 255 then 0 else midpoint q k
    ((BitVec.ofInt 64 v).toNat, lodStatus scale logged lvl L code, scale = 255)
  else (vals.headD 0, lodStatus 0 logged lvl L code, false)

/-- The result of LDLOD: data, status, and whether NV is raised. -/
def lodWalk (d : Chain) (a : W64) (m : MemF) (i : Iss) (lvl base : Nat) : Nat → Nat → M (Nat × Nat × Bool)
  | 0, _ => do
    let logged ← logWanted d a base lvl
    return (0, lodStatus 0 logged lvl 0xF 2, false)
  | fuel + 1, L => do
    match ← lodTry true ((d.pieces a base L).map (·.2)) with
    | .badMap => return (0, lodStatus 0 false lvl L 4, false)
    | .absent => if L < d.nlev then lodWalk d a m i lvl base fuel (L + 1) else lodWalk d a m i lvl base 0 L
    | .all places =>
      let v := viaOf .sampler m
      let lanes : List LaneAddr := [(i.rep, a)]
      if m.order.toNat < 6 then machineCheck v lanes (places.map fun ps => (i.rep, ps))
      let vals ← loadLanesAt v m.order.toNat m.bound.toNat lanes (places.map fun ps => (i.rep, ps))
      let logged ← if lvl < L then logWanted d a base lvl else pure false
      return lodResult d a lvl L logged (vals.map (·.2))

/-- LDLOD's destination: an even x register, or a wave's even uniform register (R232). -/
def State.lodDst (s : State) (m : MemF) : Bool :=
  (match opOf m.data with
   | .prim n => !s.me.isWave && n % 2 = 0 && (s.me.streamOf n).isNone && (s.me.streamOf (n + 1)).isNone
   | .k _ => s.me.isWave && m.width ≠ 3 && s.kPairOk m.data
   | _ => false) && 4 * field m.off 9 4 + 3 < s.kLimit

/-- Writes of a pair of destinations: the named register and the next. -/
def State.twoWrites (s : State) (d : Opnd) (v w : Nat) : List RegWrite :=
  match opOf d with
  | .prim n => [.x n (BitVec.ofNat 64 v), .x (n + 1) (BitVec.ofNat 64 w)]
  | .k n => match s.myTeam with
    | some t => [.k t.half n (BitVec.ofNat 32 v) 0, .k t.half (n + 1) (BitVec.ofNat 32 w) 0]
    | none => []
  | _ => []

/-- What LDLOD finds: its data, its status word, and whether NV is raised. -/
def lodValue (m : MemF) (i : Iss) : M (Nat × Nat × Bool) := do
  let s ← get
  let ch := 4 * field m.off 9 4
  let lvl := field m.off 6 3
  let off : BitVec 13 := (m.off.extractLsb' 0 6).signExtend 13
  let a := memAddr (← wval i m.base i.rep) off (widthSize m.width)
  let d : Chain := { b0 := s.uni (ch + 1) ++ s.uni ch, shape := s.uni (ch + 2), blk := s.uni (ch + 3) }
  if isAperture a || isAperture d.b0 || d.bad m.width.toNat || d.nlev < lvl || d.outside a then
    return (0, lodStatus 0 false lvl lvl 3, false)
  watchCheck (widthSize m.width) .load [(i.rep, a)]
  let sn := field a 61 3
  let g := s.me.seg sn
  if !segRights g s.me.supervisor .load then trapWith 9 sn a
  if field d.b0 61 3 ≠ sn || segLimit g < field d.b0 0 61 + d.span then trapWith 10 sn a
  lodWalk d a m i lvl (segBase g + field d.b0 0 61) 8 lvl

/-- What `Ldlod` asks of its issue. -/
def ldlodReq (m : MemF) (s : State) : Req :=
  { memReq m (fun s => s.lodDst m) true with
    srcs := wideSrcs s.me.isWave m.base, regs := fun w => pairRegs w m.data ++
    (List.range 4).map fun j => kReg (4 * field m.off 9 4 + j) }

def ldlodBody (m : MemF) (i : Iss) : M Unit := do
  let r ← lodValue m i
  if 1 ≤ r.2.1 % 16 && r.2.1 % 16 ≤ 2 then countEvent 0x18
  acquired m.order.toNat m.scope.toNat
  loadResult m ((m.off.extractLsb' 0 6).signExtend 13) (widthSize m.width) i
    ((← get).twoWrites m.data r.1 r.2.1 ++ (if r.2.2 then [.flags flagNV] else []))

def execLdlod (m : MemF) (s : State) : Host.Outcome State Fault Refusal :=
  runIssue (ldlodReq m s) (ldlodBody m) s

/-! Fences (R256). -/

/-- What `Fence` asks of its issue. -/
def fenceReq (g : Guard) : Req :=
  (ctlReq g)

/-- FENCE: releases wait for uniform writes; an acquire fence waits for the loads, and one of scope 2 to 5 empties the load-store cache (R92,
R245, R256). Every access of the model is performed in issue order (log 1). -/
def fenceBody (ord : FenceOrd) (scope : BitVec 3) (_ : Iss) : M Unit := do
  if ord ≠ .acq then landUniform
  if ord ≠ .rel then
    awaitLoads
    acquired 2 scope.toNat

def execFence (g : Guard) (ord : FenceOrd) (scope : BitVec 3) (s : State) : Host.Outcome State Fault Refusal :=
  runIssue (fenceReq g) (fenceBody ord scope) s

/-- The core that leads the pair of a core, where a pair is formed (11_matrix.md R293). -/
def State.pairLeader (s : State) (core : Nat) : Nat :=
  if (s.core core).pair.isNone && (s.core (buddy core)).pair.isSome then buddy core else core

/-- What `Pfence` asks of its issue. -/
def pfenceReq (g : Guard) : Req :=
  (ctlReq g)

/-- PFENCE: the caches of the named paths that serve the core (R245, R256): 3 tile, of the pair that the core belongs to
(11_matrix.md R293), 2 sampler, 1 const, 0 ls. -/
def pfenceBody (paths : BitVec 4) (_ : Iss) : M Unit := do
  awaitLoads
  if paths.getLsbD 0 then modHere fun c => { c with lsCache := [] }
  if paths.getLsbD 1 then modCluster (← myCluster) fun c => { c with constCache := [] }
  if paths.getLsbD 2 then modHere fun c => { c with smpCache := [] }
  if paths.getLsbD 3 then
    let id := (← get).hereId
    modCore (id - id % 2) fun c => { c with tileCache := [] }

def execPfence (g : Guard) (paths : BitVec 4) (s : State) : Host.Outcome State Fault Refusal :=
  runIssue (pfenceReq g) (pfenceBody paths) s

end Sys2Proof.Machine
end

