-- ==== Sys2Proof/Machine/VecMem.lean ====
section
/-! DEFINITION. The vector memory group, majors 0x68 to 0x6F (06_scratchpad.md R165, R166, R175 to R181). -/

namespace Sys2Proof.Machine

/-- The data of a vector load: a v register that no stream binds (R97, R176). -/
def State.vloadDst (s : State) (d : Opnd) : Bool :=
  match opOf d with
  | .prim n => (s.me.streamOf n).isNone
  | _ => false

/-- The data of a vector store. -/
def State.vstoreSrc (s : State) (d : Opnd) : Bool :=
  match opOf d with
  | .prim _ => s.srcOk true d
  | _ => false

/-- A request of the group: a wave's address is a v pair or a uniform pair; a row access takes the uniform pair
(R175, R177). -/
def vmemReq (m : MemF) (data : State → Bool) (wave long store : Bool) : Req :=
  { guard := m.guard, cls := some 1, form := State.unified, vec := true, long := long,
    ok := fun s => data s && (if m.width = 5 then s.kPairOk m.base else s.vaddrOk m.base),
    srcs := wideSrcs wave m.base ++ (if store then [m.data] else []), regs := fun w => opRegs w m.data }

/-- A base given to every lane alike. -/
def uniformBase (m : MemF) : Bool :=
  match opOf m.base with
  | .k _ => true
  | _ => false

/-- Lane addresses (R177): base + off + s × l from a uniform pair, base[l] + off from a v pair. -/
def State.laneAddrs (s : State) (i : Iss) (m : MemF) (size : Nat) (off : BitVec 13) : List LaneAddr :=
  (lanesOf i.lanes).map fun l =>
    let a := memAddr (s.wide i m.base l) off size
    (l, if uniformBase m then a + BitVec.ofNat 64 (size * l) else a)

/-- The four bytes of lane l in an aligned row. -/
def rowPiece (l : Nat) (q : Place1) : Place1 :=
  match q with
  | .row core off _ => .row core (off + 4 * l) 4
  | .phys pa va _ => .phys (pa + 4 * l) (va + 4 * l) 4

/-- The generic address of each lane of VLD or VST: the row's own for a row access. -/
def State.vmemLanes (s : State) (i : Iss) (m : MemF) : List LaneAddr :=
  if m.width = 5 then (lanesOf i.lanes).map fun l => (l, memAddr (s.wide i m.base l) m.off 64)
  else s.laneAddrs i m (widthSize m.width) m.off

/-- The pieces of each lane of VLD or VST, checked. A row access is checked as 64 bytes; the watchpoints look at each
lane's own four. -/
def vmemAccess (i : Iss) (m : MemF) (need : Need) : M (List (Nat × List Place1)) := do
  let lanes := (← get).vmemLanes i m
  if m.width = 5 then
    watchCheck 4 need (lanes.map fun l => (l.1, l.2 + BitVec.ofNat 64 (4 * l.1)))
    let got ← access 64 need lanes false true
    return got.map fun g => (g.1, g.2.map (rowPiece g.1))
  else access (widthSize m.width) need lanes

def vmemSize (m : MemF) : Nat := if m.width = 5 then 4 else widthSize m.width

/-- Records what the lanes of a vector access read, with the address of the lowest. -/
def lanesResult (m : MemF) (at_ : List LaneAddr) (ws : List RegWrite) : M Unit :=
  pendResult m.la.toNat true ws 0 (at_.headD (0, 0)).2

def laneWrites (d : Opnd) (vals : List (Nat × W32)) : List RegWrite :=
  match opOf d with
  | .prim n => vals.map fun v => .v n v.1 v.2
  | _ => []

/-- What the lanes of a vector load read. -/
def loadLanes (i : Iss) (m : MemF) (got : List (Nat × List Place1)) : M (List (Nat × W32)) := do
  let vals ← loadLanesAt (viaOf .ls m) m.order.toNat m.bound.toNat ((← get).vmemLanes i m) got
  return vals.map fun v => (v.1, BitVec.ofNat 32 v.2)

/-- The read of a vector load. -/
def vloadNeed (m : MemF) : Need := loadNeed (viaOf .ls m) m.order.toNat

/-- The pieces together write a row whole. -/
def rowCovered (ps : List Place1) (core row : Nat) : Bool :=
  (List.range 16).all fun j => ps.any fun q => match q with
    | .row c off n => c = core && off ≤ 64 * row + 4 * j && 64 * row + 4 * j + 4 ≤ off + n
    | .phys _ _ _ => false

/-- The pieces together write an atom whole. -/
def atomCovered (ps : List Place1) (a : Nat) : Bool :=
  (List.range 8).all fun j => ps.any fun q => match q with
    | .phys pa _ n => pa ≤ 32 * a + 4 * j && 32 * a + 4 * j + 4 ≤ pa + n
    | .row _ _ _ => false

/-- What the lanes of one store together write whole loses its poison: a row (R148), an atom of 32 bytes (R243), and the row
that holds a line as its owner's. -/
def State.storedWhole (s : State) (ps : List Place1) : State :=
  ps.foldl (fun s q => match q with
    | .row core off _ =>
      if tagPoison ((s.core core).tag (off / 64)) && rowCovered ps core (off / 64) then
        s.putCore core ((s.core core).cleanRows [off / 64])
      else s
    | .phys pa _ _ =>
      let a := pa / 64 * 2
      let t := if s.poison.contains (pa / 32) && atomCovered ps (pa / 32) then s.cleanAtoms (32 * (pa / 32)) 32 else s
      if (t.forwarded (32 * a)).isSome && atomCovered ps a && atomCovered ps (a + 1) then t.cleanForwarded (32 * a) 64 else t) s

def rowStored (got : List (Nat × List Place1)) : M Unit := modify fun s => s.storedWhole (got.flatMap (·.2))

/-- The lanes of a vector store, ascending. -/
def storeLanes (i : Iss) (m : MemF) (got : List (Nat × List Place1)) : M Unit := do
  got.forM fun g => do
    writePieces (atPoc m) g.2 (vmemSize m) ((← lval i m.data g.1).toNat % 2 ^ (8 * vmemSize m))
  rowStored got

/-- What `Vld` asks of its issue. -/
def vldReq (m : MemF) (s : State) : Req :=
  (vmemReq m (fun s => s.vloadDst m.data) s.me.isWave true false)

def vldBody (m : MemF) (i : Iss) : M Unit := do
  let got ← vmemAccess i m (vloadNeed m)
  let vals ← loadLanes i m got
  acquired m.order.toNat m.scope.toNat
  lanesResult m ((← get).vmemLanes i m) (laneWrites m.data vals)

def execVld (m : MemF) (s : State) : Host.Outcome State Fault Refusal :=
  runIssue (vldReq m s) (vldBody m) s

/-- What `Vst` asks of its issue. -/
def vstReq (m : MemF) (s : State) : Req :=
  (vmemReq m (fun s => s.vstoreSrc m.data) s.me.isWave false true)

/-- VST: lanes ascending, so that the higher lane's byte prevails (R177). -/
def vstBody (m : MemF) (i : Iss) : M Unit := do
  releasing m.order.toNat
  let got ← vmemAccess i m .store
  storeLanes i m got

def execVst (m : MemF) (s : State) : Host.Outcome State Fault Refusal :=
  runIssue (vstReq m s) (vstBody m) s

/-! Bank formats (R165, R166, R178). -/

/-- FMT of the bank that a scratchpad offset lies in. -/
def Core.fmtAt (c : Core) (off : Nat) : Nat := field (Store.get 0 c.bfmt (off / 16384)) 0 4

/-- The VLDS width of a format; NP has none. -/
def fmtWidth (f : Nat) : Option (BitVec 3) :=
  match f with
  | 0 | 1 | 4 => some 2
  | 2 | 3 => some 1
  | 5 | 6 => some 0
  | _ => none

/-- An element read under a format. -/
def fmtDecode (c : Env) (f v : Nat) : W32 × FlagSet :=
  let widen (t : Fmt) : W32 × FlagSet := natBits (convNum t f32Fmt c (unpack t (c.flush t) v))
  match f with
  | 2 => widen f16Fmt
  | 3 => widen bf16Fmt
  | 5 | 6 => ((BitVec.ofNat 8 v).signExtend 32, 0)
  | _ => (BitVec.ofNat 32 v, 0)

/-- A signed number clamped to a range. -/
def clampTo (lo hi v : Int) : Int := max lo (min hi v)

/-- A lane as it is stored under a format. -/
def fmtEncode (c : Env) (f : Nat) (v : W32) : Nat × FlagSet :=
  let narrow (t : Fmt) : Nat × FlagSet := convNum f32Fmt t c (unpack f32Fmt (c.flush f32Fmt) v.toNat)
  match f with
  | 2 => narrow f16Fmt
  | 3 => narrow bf16Fmt
  | 5 | 6 => ((BitVec.ofInt 8 (clampTo (-128) 127 v.toInt)).toNat, 0)
  | _ => (v.toNat, 0)

/-- The core and offset of a lane's piece. -/
def pieceRow (ps : List Place1) : Nat × Nat :=
  match ps with
  | .row core off _ :: _ => (core, off)
  | _ => (0, 0)

def State.pieceFmt (s : State) (ps : List Place1) : Nat :=
  (s.core (pieceRow ps).1).fmtAt (pieceRow ps).2

/-- The pieces of VLDS or VSTS: aperture addresses, whose banks' formats have the width (R178). -/
def fmtAccess (i : Iss) (m : MemF) (need : Need) : M (List (Nat × List Place1)) := do
  let lanes := (← get).vmemLanes i m
  apertureOnly (if m.width = 5 then 64 else vmemSize m) need lanes
  let got ← vmemAccess i m need
  let s ← get
  let bad := got.filter fun g => fmtWidth (s.pieceFmt g.2) ≠ some m.width
  match bad.head? with
  | none => return got
  | some b =>
    throw (.trap { cause := 13, addr := ((lanes.find? (·.1 = b.1)).getD (0, 0)).2,
                   lanes := some (bad.foldl (fun k g => k ||| laneBit g.1) 0) })

/-- The flags of lanes together. -/
def allFlags (l : List FlagSet) : FlagSet := l.foldl (fun f g => f ||| g) 0

/-- What the lanes of VLDS read, and the flags of each. -/
def loadFmtLanes (m : MemF) (e : Env) (got : List (Nat × List Place1)) : M (List ((Nat × W32) × FlagSet)) :=
  got.mapM fun g => do
    let v ← readPieces (atPoc m) g.2
    let r := fmtDecode e ((← get).pieceFmt g.2) v
    return ((g.1, r.1), r.2)

/-- The lanes of VSTS, ascending, and the flags of each. -/
def storeFmtLanes (i : Iss) (m : MemF) (e : Env) (got : List (Nat × List Place1)) : M (List FlagSet) := do
  let fs ← got.mapM fun g => do
    let r := fmtEncode e ((← get).pieceFmt g.2) (← lval i m.data g.1)
    writePieces (atPoc m) g.2 (vmemSize m) r.1
    return r.2
  rowStored got
  return fs

/-- What `Vlds` asks of its issue. -/
def vldsReq (m : MemF) (s : State) : Req :=
  (vmemReq m (fun s => s.vloadDst m.data) s.me.isWave true false)

def vldsBody (m : MemF) (i : Iss) : M Unit := do
  let got ← fmtAccess i m .load
  let rs ← loadFmtLanes m ((← getMe).env .dyn) got
  acquired m.order.toNat m.scope.toNat
  let flags := allFlags (rs.map (·.2))
  lanesResult m ((← get).vmemLanes i m) (laneWrites m.data (rs.map (·.1)) ++ (if flags = 0 then [] else [.flags flags]))

def execVlds (m : MemF) (s : State) : Host.Outcome State Fault Refusal :=
  runIssue (vldsReq m s) (vldsBody m) s

/-- What `Vsts` asks of its issue. -/
def vstsReq (m : MemF) (s : State) : Req :=
  (vmemReq m (fun s => s.vstoreSrc m.data) s.me.isWave false true)

def vstsBody (m : MemF) (i : Iss) : M Unit := do
  releasing m.order.toNat
  let got ← fmtAccess i m .store
  let fs ← storeFmtLanes i m ((← getMe).env .dyn) got
  raiseFlags (allFlags fs)

def execVsts (m : MemF) (s : State) : Host.Outcome State Fault Refusal :=
  runIssue (vstsReq m s) (vstsBody m) s

/-- The lanes of VATOM, one after another: what each read, and its flags. -/
def atomLanes (i : Iss) (m : MemF) (c : Ctx) (got : List (Nat × List Place1)) : M (List ((Nat × W32) × FlagSet)) :=
  got.mapM fun g => do
    atomicAtHome (atPoc m) g.2
    let old ← readPieces (atPoc m) g.2
    let r := atomValue (m.off.extractLsb' 9 4).toNat 32 c old (← lval i m.data g.1).toNat
    writePieces (atPoc m) g.2 4 r.1
    return ((g.1, BitVec.ofNat 32 old), r.2)

/-- What `Vatom` asks of its issue. -/
def vatomReq (m : MemF) (s : State) : Req :=
  (vmemReq m (fun s => s.vloadDst m.data) s.me.isWave true false)

/-- VATOM: lanes on one word follow one another (R179). -/
def vatomBody (m : MemF) (i : Iss) : M Unit := do
  releasing m.order.toNat
  let got ← access 4 .rmw ((← get).laneAddrs i m 4 (atomOff m))
  let rs ← atomLanes i m (← getMe) got
  acquired m.order.toNat m.scope.toNat
  let flags := allFlags (rs.map (·.2))
  lanesResult m ((← get).laneAddrs i m 4 (atomOff m)) (laneWrites m.data (rs.map (·.1)) ++ (if flags = 0 then [] else [.flags flags]))

def execVatom (m : MemF) (s : State) : Host.Outcome State Fault Refusal :=
  runIssue (vatomReq m s) (vatomBody m) s

/-! SCFG (R180), one scalar operation of a wave. -/

/-- What `ScfgBind` asks of its issue. -/
def scfgBindReq (g : Guard) (d : Opnd) (a : Opnd) (s : State) : Req :=
  { guard := g, cls := some 1, form := State.unified, ok := fun s => s.kPairOk a && (s.streamDst true d).isSome,
    srcs := wideSrcs s.me.isWave a, regs := fun w => opRegs w d }

def scfgBindBody (d : Opnd) (a : Opnd) (i : Iss) : M Unit := do
  match (← get).streamDst true d with
  | some k => bindStream k i.rep (← wval i a i.rep)
  | none => illegalOperand

def execScfgBind (g : Guard) (d a : Opnd) (s : State) : Host.Outcome State Fault Refusal :=
  runIssue (scfgBindReq g d a s) (scfgBindBody d a) s

/-- What `ScfgUnbind` asks of its issue. -/
def scfgUnbindReq (g : Guard) (d : Opnd) : Req :=
  { guard := g, cls := some 1, form := State.unified, ok := fun s => (s.streamDst true d).isSome,
    regs := fun w => opRegs w d }

def scfgUnbindBody (d : Opnd) (_ : Iss) : M Unit := do
  match (← get).streamDst true d with
  | some k => modMe fun c => { c with streams := Store.set none c.streams k none }
  | none => illegalOperand

def execScfgUnbind (g : Guard) (d : Opnd) (s : State) : Host.Outcome State Fault Refusal :=
  runIssue (scfgUnbindReq g d) (scfgUnbindBody d) s

/-- A small immediate from 0 to 3. -/
def layoutCode (o : Opnd) : Bool :=
  match opOf o with
  | .imm v => v.toNat < 4
  | _ => false

/-- A uniform register or a small immediate. -/
def State.kImmOk (s : State) (o : Opnd) : Bool :=
  match opOf o with
  | .k n => n < s.kLimit
  | .imm _ => true
  | _ => false

/-- What `ScfgRtag` asks of its issue. -/
def scfgRtagReq (g : Guard) (a : Opnd) (b : Opnd) (c : Opnd) (s : State) : Req :=
  { guard := g, cls := some 1, form := State.unified, srcs := wideSrcs s.me.isWave a ++ [b],
    ok := fun s => s.kPairOk a && s.kImmOk b && layoutCode c }

/-- The row at an address that SCFG rtag names, checked as a store of 64 bytes. -/
def rtagRow (lane : Nat) (addr : W64) : M (Nat × Nat) := do
  apertureOnly 64 .store [(lane, addr)]
  let got ← access 64 .store [(lane, addr)] false true
  return pieceRow (got.headD (0, [])).2

def scfgRtagBody (a : Opnd) (b : Opnd) (c : Opnd) (i : Iss) : M Unit := do
  let addr ← wval i a i.rep
  let n := (← sval i b).toNat
  let code := (← sval i c).toNat
  needOperand (1 ≤ n && n ≤ 64)
  for j in List.range n do
    let (core, off) ← rtagRow i.rep (addr + BitVec.ofNat 64 (64 * j))
    modCore core fun k => k.putTag (off / 64) (setLayout (k.tag (off / 64)) code)

def execScfgRtag (g : Guard) (a b c : Opnd) (s : State) : Host.Outcome State Fault Refusal :=
  runIssue (scfgRtagReq g a b c s) (scfgRtagBody a b c) s

/-! VPACK and VUNPK (R181). -/

/-- The result of VPACK in a lane that holds `d`. -/
def packLane (kind : Nat) (a b d : W32) : W32 :=
  let s16 (v : W32) : Nat := (BitVec.ofInt 16 (clampTo (-32768) 32767 v.toInt)).toNat
  let z16 (v : W32) : Nat := min v.toNat 65535
  let s8 (v : W32) : Nat := (BitVec.ofInt 8 (clampTo (-128) 127 v.toInt)).toNat
  let z8 (v : W32) : Nat := min v.toNat 255
  let lo (v : Nat) : W32 := BitVec.ofNat 32 (field d 16 16 * 65536 + v)
  let hi (v : Nat) : W32 := BitVec.ofNat 32 (v * 65536 + field d 0 16)
  match kind with
  | 0 => BitVec.ofNat 32 (field b 0 16 * 65536 + field a 0 16)
  | 1 => BitVec.ofNat 32 (s16 b * 65536 + s16 a)
  | 2 => BitVec.ofNat 32 (z16 b * 65536 + z16 a)
  | 3 => lo (s8 a + s8 b * 256)
  | 4 => hi (s8 a + s8 b * 256)
  | 5 => lo (z8 a + z8 b * 256)
  | _ => hi (z8 a + z8 b * 256)

def unpackLane (kind : Nat) (a b : W32) : W32 :=
  let half := a.extractLsb' (16 * (b.toNat % 2)) 16
  let byte := a.extractLsb' (8 * (b.toNat % 4)) 8
  match kind with
  | 0 => half.signExtend 32
  | 1 => half.setWidth 32
  | 2 => byte.signExtend 32
  | _ => byte.setWidth 32

/-- Kinds 3 to 6 read d, which is then no bound stream register. -/
def packReadsD (kind : Nat) : Bool := 3 ≤ kind

def execVpack (g : Guard) (kind : BitVec 6) (d a b : Opnd) (s : State) : Host.Outcome State Fault Refusal :=
  let k := kind.toNat
  runIssue
    { guard := g, cls := some 1, form := State.unified, vec := true, dsts := [d],
      srcs := [a, b] ++ (if packReadsD k then [d] else []),
      ok := fun s => s.srcOk true a && s.srcOk true b && s.vdstOk false (s.laneCount g) d &&
        (!packReadsD k || s.srcOk true d) }
    (fun i => do
      let s ← get
      let v (o : Opnd) (l : Nat) : W32 := (s.val i false o l).setWidth 32
      putVector i d fun l => packLane k (v a l) (v b l) (v d l)) s

def execVunpk (g : Guard) (kind : BitVec 6) (d a b : Opnd) (s : State) : Host.Outcome State Fault Refusal :=
  runIssue
    { guard := g, cls := some 1, form := State.unified, vec := true, srcs := [a, b], dsts := [d],
      ok := fun s => s.srcOk true a && s.vdstOk false (s.laneCount g) d &&
        (match opOf b with
         | .prim _ => s.srcOk true b
         | _ => s.kImmOk b) }
    (fun i => do
      let s ← get
      putVector i d fun l =>
        unpackLane kind.toNat ((s.val i false a l).setWidth 32) ((s.val i false b l).setWidth 32)) s

end Sys2Proof.Machine
end

