-- ==== Sys2Proof/Machine/Sync.lean ====
section
/-! DEFINITION. Full/empty words, the waiter table and barrier objects (06_scratchpad.md R171 to R174, R182 to
R185). -/

namespace Sys2Proof.Machine

/-! The waiter table (R172). -/

/-- A barrier object (R173). -/
def Core.barrier (c : Core) (off : Nat) : BitVec 128 := BitVec.ofNat 128 (Store.readN c.rows off 16)

def Core.putBarrier (c : Core) (off : Nat) (b : BitVec 128) : Core :=
  { c with rows := Store.writeN c.rows off 16 b.toNat }

def barPhase (b : BitVec 128) : Bool := b.getLsbD 80
def barExpected (b : BitVec 128) : Nat := field b 64 16
def barArrived (b : BitVec 128) : Nat := field b 48 16
def barLstat (b : BitVec 128) : Nat := field b 40 4
def barStatus (b : BitVec 128) : Nat := field b 36 4
def barPend (b : BitVec 128) : Nat := field b 0 36

/-- A field of a barrier object replaced. -/
def barPut (b : BitVec 128) (lo len v : Nat) : BitVec 128 :=
  let mask : BitVec 128 := BitVec.ofNat 128 ((2 ^ len - 1) * 2 ^ lo)
  (b &&& ~~~mask) ||| BitVec.ofNat 128 (v % 2 ^ len * 2 ^ lo)

/-- Bytes of a word request. -/
def Waiter.size (w : Waiter) : Nat := if w.w64 then 8 else 4

/-- The state that a request waits for holds: every word full, every word empty, another phase, or no byte pending
(R172, R183, R185; 10_shuttle.md R291). -/
def Core.satisfies (c : Core) (w : Waiter) : Bool :=
  let words := if w.w64 then [w.off, w.off + 4] else [w.off]
  match w.kind with
  | 0 => words.all fun o => c.full o
  | 1 => words.all fun o => !c.full o
  | 2 => barPhase (c.barrier w.off) != w.data.getLsbD 0
  | _ => barPend (c.barrier w.off) = 0

/-- The generic address of a row's bytes: in the local aperture of the core, else in the cluster aperture
(R160, R161). -/
def rowAddrOf (here core off : Nat) : W64 :=
  if here = core then localAddrOf off else BitVec.ofNat 64 (0xFFFFFE0000000000 + core % 48 * 2 ^ 17 + off)

/-- Performs a request on a core whose state satisfies it: LDFE's load and register, STFE's store, or the LSTAT that a
completed wait reads (R183, R185). -/
def performWaiter (core : Nat) (w : Waiter) : M Unit := do
  let words := if w.w64 then [w.off, w.off + 4] else [w.off]
  let c ← getCore core
  match w.kind with
  | 0 =>
    let s ← get
    if Place1.poisoned s (.row core w.off w.size) then
      -- its context finds the error when it tries again (R148)
      modCtx w.ctx fun x => x.modProg w.lane fun p => { p with reqs := p.reqs ++ [(core, w)] }
      return
    let v : W64 := BitVec.ofNat 64 (bytesToNat (s.rowBytes core w.off w.size))
    modCore core fun c => words.foldl (fun c o => c.setFull o false) c
    modCtx w.ctx fun x =>
      let y : Ctx := if x.isWave then { x with v := Store.set 0 x.v (16 * w.reg + w.lane) (v.setWidth 32) }
        else { x with x := Store.set 0 x.x w.reg v }
      y.modProg w.lane fun p => { p with done := p.done ||| laneBit w.lane }
    swapSync w.ctx
  | 1 =>
    modify fun s => s.putRowBytes core w.off (natToBytes w.size w.data.toNat)
    modCore core fun c => words.foldl (fun c o => c.setFull o true) c
    modCtx w.ctx fun x => x.modProg w.lane fun p => { p with done := p.done ||| laneBit w.lane }
  | k =>
    let l : W64 := BitVec.ofNat 64 (if k = 2 then barLstat (c.barrier w.off) else barStatus (c.barrier w.off))
    modCtx w.ctx fun x => x.modProg w.lane fun p => { p with done := p.done ||| laneBit w.lane, old := [l] }

/-- Performs waiters of a core, oldest first, while one is satisfied (R172). -/
def serveWaiters (core : Nat) : Nat → M Unit
  | 0 => pure ()
  | fuel + 1 => do
    let c ← getCore core
    match c.waiters.find? c.satisfies with
    | none => pure ()
    | some w =>
      modCore core fun c => { c with waiters := c.waiters.erase w }
      performWaiter core w
      serveWaiters core fuel

/-- After a change of a word's or a barrier's state. -/
def serveAll (core : Nat) : M Unit := do serveWaiters core ((← getCore core).waiters.length)

/-- Makes the requests of a wait that are in no table: each is performed, enters the table of its core, or is refused
by a full one (R172). -/
def tryRequests : M Unit := do
  let reqs := (← getMe).prog.reqs
  let s ← get
  for q in reqs do
    if q.2.kind = 0 && (s.core q.1).satisfies q.2 && Place1.poisoned s (.row q.1 q.2.off q.2.size) then
      throw (.trap { cause := 15, addr := rowAddrOf s.hereId q.1 q.2.off, lanes := some (laneBit q.2.lane) })
  modMe fun c => { c with prog := { c.prog with reqs := [] } }
  for q in reqs do
    let c ← getCore q.1
    if c.satisfies q.2 then
      performWaiter q.1 q.2
      serveAll q.1
    else if c.waiters.length < 64 then modCore q.1 fun c => { c with waiters := c.waiters ++ [q.2] }
    else modMe fun c => { c with prog := { c.prog with reqs := c.prog.reqs ++ [q] } }

/-- The requests of a wait that begins, and those of it that are in no table, made. -/
def makeRequests (reqs : List (Nat × Waiter)) : M Unit := do
  let s ← get
  if !s.me.prog.active then
    modMe fun c =>
      let todo := reqs.filter fun q => !c.prog.done.getLsbD q.2.lane
      { c with prog := { c.prog with active := true, since := s.clk.toNat, reqs := todo } }
  tryRequests

/-- A stall until every lane has been performed. -/
def awaitLanes (lanes : BitVec 16) (r : Stall) (k : WaitKind) : M Unit := do
  if ((← getMe).prog.done &&& lanes) ≠ lanes then
    if !(← getMe).prog.reqs.isEmpty then backOff
    hold r k

/-- WAITER_RETRY: a context makes its refused requests again (R172). -/
def execWaiterRetry (c : CtxId) (s : State) : Host.Outcome State Fault Refusal :=
  (asCtx c tryRequests).toOutcome s

/-! LDFE and STFE (R182, R183). -/

/-- b64 in a wave is ILLEGAL-INSTRUCTION (R182). -/
def State.feForm (s : State) (w64 : Bool) : Bool := s.unified && !(s.me.isWave && w64)

def Need.ldfe : Need := { rd := true, wr := false, at_ := false, natural := true }
def Need.stfe : Need := { rd := false, wr := true, at_ := false, natural := true }

/-- The addresses of a word instruction in the lanes it acts on. -/
def feLanes (i : Iss) (m : MemF) (lanes : List Nat) : M (List LaneAddr) := do
  let s ← get
  return lanes.map fun l => (l, memAddr (s.wide i m.base l) m.off (widthSize m.width))

/-- The rows of an aperture access, with a machine check where one is poisoned. -/
def feRows (n : Nat) (need : Need) (lanes : List LaneAddr) : M (List (Nat × Nat × Nat)) := do
  apertureOnly n need lanes
  let got ← access n need lanes false true
  machineCheck plainLoad lanes got
  return got.map fun g =>
    match g.2 with
    | .row core off _ :: _ => (g.1, core, off)
    | _ => (g.1, 0, 0)

/-- The requests of an LDFE: a word that is full, read and emptied, for each lane not done. -/
def ldfeAsks (m : MemF) (i : Iss) : M Unit := do
  let c ← getMe
  let id ← myId
  let n := widthSize m.width
  if !c.prog.active then
    let rows ← feRows n .ldfe (← feLanes i m ((lanesOf i.lanes).filter fun l => !c.prog.done.getLsbD l))
    let reg := field m.data 0 5
    makeRequests (rows.map fun r =>
      (r.2.1, { ctx := id, lane := r.1, off := r.2.2, kind := 0, w64 := decide (m.width = 3), reg := reg, data := 0 }))
  else makeRequests []

/-- What `Ldfe` asks of its issue. -/
def ldfeReq (m : MemF) (s : State) : Req :=
  { guard := m.guard, form := fun s => s.feForm (m.width = 3), vec := true, long := true,
    ok := fun s => s.vaddrOk m.base && s.pollDst m.data, srcs := wideSrcs s.me.isWave m.base,
    regs := fun w => opRegs w m.data }

def ldfeBody (m : MemF) (i : Iss) : M Unit := do
  ldfeAsks m i
  awaitLanes i.lanes .fullEmpty { agent := true, alone := true, load := true }
  acquired m.order.toNat m.scope.toNat

def execLdfe (m : MemF) (s : State) : Host.Outcome State Fault Refusal :=
  runIssue (ldfeReq m s) (ldfeBody m) s

/-- STFE's data: a primary register (R182). -/
def State.stfeSrc (s : State) (d : Opnd) : Bool :=
  match opOf d with
  | .prim _ => s.laneSrcOk d
  | _ => false

/-- The requests of an STFE: a word that is empty, written and filled, for each lane not done. -/
def stfeAsks (m : MemF) (i : Iss) : M Unit := do
  let s ← get
  let id ← myId
  let n := widthSize m.width
  if !s.me.prog.active then
    landUniform
    let rows ← feRows n .stfe (← feLanes i m ((lanesOf i.lanes).filter fun l => !s.me.prog.done.getLsbD l))
    makeRequests (rows.map fun r =>
      (r.2.1, { ctx := id, lane := r.1, off := r.2.2, kind := 1, w64 := decide (m.width = 3), reg := 0,
                data := if m.width = 3 then s.val i false m.data r.1
                        else ((s.val i false m.data r.1).setWidth 32).setWidth 64 }))
  else makeRequests []

/-- What `Stfe` asks of its issue. -/
def stfeReq (m : MemF) (s : State) : Req :=
  { guard := m.guard, form := fun s => s.feForm (m.width = 3), vec := true,
    ok := fun s => s.vaddrOk m.base && s.stfeSrc m.data, srcs := wideSrcs s.me.isWave m.base ++ [m.data] }

def stfeBody (m : MemF) (i : Iss) : M Unit := do
  stfeAsks m i
  awaitLanes i.lanes .fullEmpty { agent := true, alone := true }

def execStfe (m : MemF) (s : State) : Host.Outcome State Fault Refusal :=
  runIssue (stfeReq m s) (stfeBody m) s

/-! FEQ (R184). -/

/-- An operand that must be zero is a zero field or the operand `zero`. -/
def zeroOpnd (o : Opnd) : Bool := o = 0 || opOf o = .zero

def feqReq (g : Guard) (b64 : Bool) (a : Opnd) (wave : Bool) (d : List Opnd) : Req :=
  { guard := g, form := fun s => s.feForm b64, ok := fun s => s.vaddrOk a && d.all s.predOk, vec := true,
    srcs := wideSrcs wave a, dsts := d }

/-- The rows of FEQ's words; its stores change no byte. -/
def feqRows (i : Iss) (b64 : Bool) (a : Opnd) (write : Bool) : M (List (Nat × Nat × Nat)) := do
  let s ← get
  let need : Need := { rd := !write, wr := write, at_ := false, natural := true, rowStore := true }
  feRows (if b64 then 8 else 4) need ((lanesOf i.lanes).map fun l => (l, s.wide i a l))

def feWords (b64 : Bool) (off : Nat) : List Nat := if b64 then [off, off + 4] else [off]

/-- What `FeqTest` asks of its issue. -/
def feqTestReq (g : Guard) (b64 : Bool) (d : Opnd) (a : Opnd) (s : State) : Req :=
  (feqReq g b64 a s.me.isWave [d])

def feqTestBody (b64 : Bool) (d : Opnd) (a : Opnd) (i : Iss) : M Unit := do
  let rows ← feqRows i b64 a false
  let mut bits : BitVec 16 := 0
  for r in rows do
    if (feWords b64 r.2.2).all (← getCore r.2.1).full then bits := bits ||| laneBit r.1
  applyAll (maskWrites i d bits)

def execFeqTest (g : Guard) (b64 : Bool) (d a : Opnd) (s : State) : Host.Outcome State Fault Refusal :=
  runIssue (feqTestReq g b64 d a s) (feqTestBody b64 d a) s

def feqSet (g : Guard) (b64 full : Bool) (a : Opnd) (s : State) : Host.Outcome State Fault Refusal :=
  runIssue (feqReq g b64 a s.me.isWave [])
    (fun i => do
      for r in ← feqRows i b64 a true do
        modCore r.2.1 fun c => (feWords b64 r.2.2).foldl (fun c o => c.setFull o full) c
        serveAll r.2.1) s

def execFeqFill (g : Guard) (b64 : Bool) (a : Opnd) (s : State) : Host.Outcome State Fault Refusal :=
  feqSet g b64 true a s

def execFeqDrain (g : Guard) (b64 : Bool) (a : Opnd) (s : State) : Host.Outcome State Fault Refusal :=
  feqSet g b64 false a s

/-! Barrier objects (R173, R174, R185). -/

/-- After each operation on an object: a phase completes when its arrivals and its bytes are there (R174). -/
def barSettle (b : BitVec 128) : BitVec 128 :=
  if barArrived b = barExpected b ∧ barExpected b ≠ 0 ∧ barPend b = 0 then
    barPut (barPut (barPut (barPut b 40 4 (barStatus b)) 36 4 0) 48 16 0) 80 1 (if barPhase b then 0 else 1)
  else b

/-- One operation on a barrier object of a core: first the waiters on its bytes, which read STATUS as it stands, then
the completion of its phase and the waiters on that (R174; 10_shuttle.md R291). -/
def barOp (core off : Nat) (f : BitVec 128 → BitVec 128) : M Unit := do
  modCore core fun c => c.putBarrier off (f (c.barrier off))
  serveAll core
  modCore core fun c => c.putBarrier off (barSettle (c.barrier off))
  serveAll core

/-- Bytes subtracted from PEND; more than it holds leaves 0 and sets OVER (10_shuttle.md R277, R278). -/
def barSub (n : Nat) (b : BitVec 128) : BitVec 128 :=
  if barPend b < n then barPut (barPut b 0 36 0) 38 1 1 else barPut b 0 36 (barPend b - n)

/-- Arrivals counted (R185): more than are expected set OVER. -/
def barArrive (n : Nat) (b : BitVec 128) : BitVec 128 :=
  if barExpected b < barArrived b + n then barPut b 38 1 1 else barPut b 48 16 (barArrived b + n)

def Need.bars : Need := { rd := true, wr := true, at_ := false, natural := true }
def Need.barsWait : Need := { rd := true, wr := false, at_ := false, natural := true, rowStore := true }

/-- The object that BARS names: its core and offset. -/
def barsRow (i : Iss) (a : Opnd) (need : Need) : M (Nat × Nat) := do
  let addr ← wval i a i.rep
  let rows ← feRows 16 need [(i.rep, addr)]
  return (rows.headD (0, 0, 0)).2

/-- The count or the token of BARS: an x register, a uniform register or a small immediate. -/
def State.barsB (s : State) (o : Opnd) : Bool :=
  match opOf o with
  | .prim _ => s.xOk o
  | _ => s.kImmOk o

def barsReq (g : Guard) (d a : Opnd) (b : List Opnd) (dst : State → Bool) (wave : Bool) : Req :=
  { guard := g, form := State.unified, ok := fun s => s.addrOk a && b.all s.barsB && dst s,
    srcs := wideSrcs wave a ++ b, dsts := [d] }

/-- A count of 1 to 65,535. -/
def needCount (v : W64) : M Nat := do
  needOperand (1 ≤ v.toNat && v.toNat ≤ 65535)
  return v.toNat

/-- What `BarsInit` asks of its issue. -/
def barsInitReq (g : Guard) (d : Opnd) (a : Opnd) (b : Opnd) (s : State) : Req :=
  (barsReq g d a [b] (fun s => s.predOk d) s.me.isWave)

def barsInitBody (d : Opnd) (a : Opnd) (b : Opnd) (i : Iss) : M Unit := do
  let n ← needCount (← sval i b)
  let (core, off) ← barsRow i a .bars
  let c ← getCore core
  let o := c.barrier off
  let can := barArrived o = 0 && barPend o = 0 && !c.waiters.any fun w => w.kind = 2 && w.off = off
  if can then
    barOp core off fun o => barPut (barPut (barPut (barPut o 64 16 n) 48 16 0) 36 4 0) 40 4 0
  putScalar i d (if can then 1 else 0)

def execBarsInit (g : Guard) (_scope : BitVec 3) (d a b : Opnd) (s : State) : Host.Outcome State Fault Refusal :=
  runIssue (barsInitReq g d a b s) (barsInitBody d a b) s

/-- The token's destination: x, uniform or `zero`. -/
def State.tokenDst (s : State) (d : Opnd) : Bool :=
  match opOf d with
  | .prim _ | .k _ | .zero => s.dstOk false false d
  | _ => false

/-- What `BarsArrive` asks of its issue. -/
def barsArriveReq (g : Guard) (d : Opnd) (a : Opnd) (b : Opnd) (s : State) : Req :=
  (barsReq g d a [b] (fun s => s.tokenDst d) s.me.isWave)

def barsArriveBody (d : Opnd) (a : Opnd) (b : Opnd) (i : Iss) : M Unit := do
  landUniform
  let n ← needCount (← sval i b)
  let (core, off) ← barsRow i a .bars
  let tok := barPhase ((← getCore core).barrier off)
  barOp core off (barArrive n)
  putScalar i d (if tok then 1 else 0)

def execBarsArrive (g : Guard) (_scope : BitVec 3) (d a b : Opnd) (s : State) : Host.Outcome State Fault Refusal :=
  runIssue (barsArriveReq g d a b s) (barsArriveBody d a b) s

/-- The request for another phase than the token's. -/
def phaseAsk (core off : Nat) (tok : Bool) : M Unit := do
  let id ← myId
  makeRequests
    [(core, { ctx := id, lane := 0, off := off, kind := 2, w64 := false, reg := 0, data := if tok then 1 else 0 })]

/-- The wait for another phase, which ends with whether LSTAT was 0 (R185). -/
def phaseWait (i : Iss) (d : Opnd) (scope : BitVec 3) : M Unit := do
  awaitLanes 1 .barrier { agent := true }
  acquired 2 scope.toNat
  putScalar i d (if (← getMe).prog.old.headD 0 = 0 then 1 else 0)

/-- What `BarsWait` asks of its issue. -/
def barsWaitReq (g : Guard) (d : Opnd) (a : Opnd) (b : Opnd) (s : State) : Req :=
  (barsReq g d a [b] (fun s => s.predOk d) s.me.isWave)

/-- BARS wait with a token (R185): the request. -/
def barsWaitAsks (a : Opnd) (b : Opnd) (i : Iss) : M Unit := do
  if (← getMe).prog.active then makeRequests []
  else
    let tok := (← sval i b).getLsbD 0
    let (core, off) ← barsRow i a .barsWait
    phaseAsk core off tok

def barsWaitBody (scope : BitVec 3) (d : Opnd) (a : Opnd) (b : Opnd) (i : Iss) : M Unit := do
  barsWaitAsks a b i
  phaseWait i d scope

def execBarsWait (g : Guard) (scope : BitVec 3) (d a b : Opnd) (s : State) : Host.Outcome State Fault Refusal :=
  runIssue (barsWaitReq g d a b s) (barsWaitBody scope d a b) s

/-- What `BarsSync` asks of its issue. -/
def barsSyncReq (g : Guard) (d : Opnd) (a : Opnd) (s : State) : Req :=
  (barsReq g d a [] (fun s => s.predOk d) s.me.isWave)

/-- BARS sync: one arrival, then the request with its token; the arrival is made once (R185). -/
def barsSyncAsks (a : Opnd) (i : Iss) : M Unit := do
  let c ← getMe
  if c.prog.active then makeRequests []
  else
    let (core, off) ← barsRow i a .bars
    match c.prog.tok with
    | some tok => phaseAsk core off tok
    | none =>
      landUniform
      let tok := barPhase ((← getCore core).barrier off)
      modMe fun c => { c with prog := { c.prog with tok := some tok } }
      barOp core off (barArrive 1)
      phaseAsk core off tok

def barsSyncBody (scope : BitVec 3) (d : Opnd) (a : Opnd) (i : Iss) : M Unit := do
  barsSyncAsks a i
  phaseWait i d scope

def execBarsSync (g : Guard) (scope : BitVec 3) (d a : Opnd) (s : State) : Host.Outcome State Fault Refusal :=
  runIssue (barsSyncReq g d a s) (barsSyncBody scope d a) s

end Sys2Proof.Machine
end

