-- ==== Sys2Proof/Machine/Net.lean ====
section
/-! DEFINITION. Flits at their destination: check failures and their recovery, parking in overflow areas, the
combining of bins, and the bookkeeping of a Shuttle line (12_mesh.md R321 to R329, R334;
10_shuttle.md R277, R279; 16_traps.md R429). -/

namespace Sys2Proof.Machine

/-! Shuttle lines (10_shuttle.md R272, R277, R279). -/

/-- Transfers of a core that wait to start are looked at again. -/
def wakeQueued (core : Nat) : M Unit := do
  for x in (← getCore core).shuttle do
    match x.2 with
    | some e =>
      if e.state = .queued || (e.state = .running && e.sent < e.lines) then laterOnce (.transferStart core x.1)
    | none => pure ()

/-- Bits of STATUS that a line's end sets (06_scratchpad.md R173). -/
def barMark (how : LineEnd) (cancel : Bool) (b : BitVec 128) : BitVec 128 :=
  if cancel then barPut b 37 1 1 else
  match how with
  | .done => b
  | .gone => barPut b 36 1 1
  | .err _ => barPut b 39 1 1

/-- `n` destination lines of an entry end alike: `bytes` of them leave PEND in one barrier operation, and the last one
completes the transfer. -/
def linesEnd (core entry n bytes : Nat) (how : LineEnd) (cancel : Bool) : M Unit := do
  match Store.get none (← getCore core).shuttle entry with
  | none => pure ()
  | some e =>
    let e1 : ShEntry :=
      match how with
      | .done => e
      | .gone => { e with gone := true }
      | .err c => { e with err := true, cause := if e.cause = 0 then c else e.cause }
    let e2 : ShEntry := { e1 with acked := e1.acked + n, cancel := e1.cancel || cancel }
    modCore core fun c => { c with shuttle := Store.set none c.shuttle entry (some e2) }
    if e.bar ≠ 0 then barOp core (e.bar - 1) fun b => barSub bytes (barMark how cancel b)
    if e2.dests ≤ e2.acked && e2.state ≠ .done then
      modCore core fun c => { c with shuttle := Store.set none c.shuttle entry (some { e2 with state := .done }) }
      dropClaim (.transfer core entry)
      wakeQueued core
      match (← getCore core).team e.team with
      | some t => if t.exiting then laterOnce (.exit core (BitVec.ofNat 16 t.tag))
      | none => pure ()

/-- An acknowledgement for a line of an entry's present transfer. -/
def lineAcked (core entry gen bytes : Nat) (how : LineEnd) : M Unit := do
  match Store.get none (← getCore core).shuttle entry with
  | some e => if e.gen = gen && e.state = .running then linesEnd core entry 1 bytes how false
  | none => pure ()

/-! Check failures (R322). -/

/-- The RCB of the fault domain that a flit's destination belongs to: its team's, or the supervisor's. -/
def Core.boundRcb (c : Core) (sup : Nat) (ev : Ev) : Nat :=
  let byLnum (n : W32) : Nat := match c.teams.find? (·.lnum = n) with
    | some t => t.rcb
    | none => sup
  match ev with
  | .msg _ n _ _ | .qdata _ n _ _ _ | .key _ n _ _ _ _ => byLnum n
  | .task _ r => if r.kind = 0 || r.kind = 1 then byLnum r.launch else sup
  | .ret _ tok _ _ => match c.team (field tok 20 16) with
    | some t => t.rcb
    | none => sup
  | .credit .. => match c.teams.head? with
    | some t => t.rcb
    | none => sup
  | .ray .. => match c.rayClaim.bind fun k => c.team k.team with
    | some t => t.rcb
    | none => sup
  | .hit .. => match c.hitClaim.bind fun k => c.team k.team with
    | some t => t.rcb
    | none => sup
  | _ => sup

/-- An access whose request or answer is lost: its destination is not written, and its context takes the imprecise machine
check (16_traps.md R418, R419). -/
def lostAccess (c : CtxId) (tok : Nat) : M Unit := do
  asCtx c (do
    let x ← getMe
    let a := ((x.pend.find? (·.tok = tok)).map Pend.addr).getD 0
    modMe fun x => { x with pend := x.pend.filter fun p => p.tok ≠ tok }
    if x.present then
      raiseTrap { cause := 15, detail := 2, addr := a, imprecise := true, lanes := some x.curSlot.mask } false
        x.curSlot.mask)
  swapSync c

/-- The outcome of a failure that is final. -/
def finalFailure (core : Nat) (ev : Ev) : M Unit := do
  let s ← get
  match ev with
  | .copy h l =>
    match s.localCore h.src with
    | some k => lineAcked k l.entry l.gen l.bytes.length (.err 15)
    | none => pure ()
  | .red h l =>
    match s.localCore h.src with
    | some k => lineAcked k l.entry l.gen l.bytes.length (.err 15)
    | none => pure ()
  | .ack h entry gen _ bytes _ =>
    match s.localCore h.dst with
    | some k => lineAcked k entry gen bytes (.err 15)
    | none => pure ()
  | .mreq _ r => lostAccess r.ctx r.tok
  | .mresp _ c tok _ => lostAccess c tok
  | _ =>
    match ev.hdr with
    | none => pure ()
    | some h =>
      let rcb := (s.core core).boundRcb s.sys.supRcb ev
      postEvent (s.domainOf rcb) 16 core 0
        (BitVec.ofNat 64 (h.src.toNat * 2 ^ 20 + h.seq.toNat * 2 ^ 8 + ev.vc * 2 ^ 5 + tyCode ev.ty))

/-- Sends a NACK for a failed flit. -/
def sendNack (core : Nat) (h : Hdr) (ev : Ev) : M Unit := sendFlit core h.src 2 (.nack · ev.ty h.seq)

/-- What a recovery table makes of an arriving flit (R322). -/
inductive Arrival where
  | takes                      -- it is taken in
  | ignored                    -- discarded, neither counted nor notified
  | again (entry : Recov)      -- the flit of an entry has failed a second time
  | first                      -- it fails: an entry is made and its sender notified
  | full                       -- it fails while the table is full
  deriving DecidableEq, Repr

def arrivalOf (l : List Recov) (h : Hdr) (vc : Nat) : Arrival :=
  match l.find? fun r => r.src = h.src && r.vc = vc with
  | some r => if h.seq ≠ r.seq then .ignored else if h.good then .takes else .again r
  | none => if h.good then .takes else if 16 ≤ l.length then .full else .first

/-- The table without the entry of an arriving flit, or with one for it. -/
def recovAfter (l : List Recov) (h : Hdr) (ev : Ev) (now : Nat) : List Recov :=
  let rest := l.filter fun r => !(r.src = h.src && r.vc = ev.vc && r.seq = h.seq)
  if arrivalOf l h ev.vc = .first then
    rest ++ [{ src := h.src, vc := ev.vc, seq := h.seq, until_ := now + 2048, ev := ev, final := false }]
  else rest

/-- The check of an arriving flit at its destination: whether it is taken in (R321, R322). -/
def acceptFlit (core : Nat) (h : Hdr) (ev : Ev) : M Bool := do
  if h.reinj then
    -- one read back from an overflow area that fails its check fails for good
    if !h.good then
      bumpUnit core 1
      finalFailure core ev
    return h.good
  let clk ← now
  modCluster (clusterOf core) fun k => { k with gated := false, lastFlit := clk }
  let l := (← getCore core).recov
  if !l.isEmpty || !h.good then modCore core fun c => { c with recov := recovAfter c.recov h ev clk }
  match arrivalOf l h ev.vc with
  | .takes => return true
  | .ignored => return false
  | .again r =>
    bumpUnit core 1
    if !r.final then finalFailure core ev
    return false
  | .full =>
    bumpUnit core 1
    finalFailure core ev
    return false
  | .first =>
    bumpUnit core 1
    atCycle (clk + 2048) (.recoveryExpiry core h.src (BitVec.ofNat 3 ev.vc))
    sendNack core h ev
    return false

/-- The core whose place an event names where the host's own recovery table is meant, and that of a sender for an event of a
flit that the host has lost. -/
def hostCore : Nat := hostId.toNat

def State.srcCore (s : State) (h : Hdr) : Nat := (s.localCore h.src).getD 0

/-- The same check of a flit for the host (log 113). -/
def hostAccept (h : Hdr) (ev : Ev) : M Bool := do
  let s ← get
  let clk := s.clk.toNat
  let l := s.sys.hostRecov
  if !l.isEmpty || !h.good then modSys fun y => { y with hostRecov := recovAfter y.hostRecov h ev clk }
  match arrivalOf l h ev.vc with
  | .takes => return true
  | .ignored => return false
  | .again r =>
    if !r.final then finalFailure (s.srcCore h) ev
    return false
  | .full =>
    finalFailure (s.srcCore h) ev
    return false
  | .first =>
    atCycle (clk + 2048) (.recoveryExpiry hostCore h.src (BitVec.ofNat 3 ev.vc))
    hostFlit h.src 2 (.nack · ev.ty h.seq)
    return false

/-! Parking (R327 to R329). -/

/-- Slots of a cluster's overflow area. -/
def Cluster.ovfSlots (k : Cluster) : Nat := if field k.ovf 52 6 = 0 then 0 else 2 ^ field k.ovf 52 6

/-- The lowest slot of an overflow area that holds no flit. -/
def Cluster.freeOvf (k : Cluster) : Nat :=
  ((List.range (k.parked.length + 1)).find? fun n => k.parked.all fun q => q.1 ≠ n).getD 0

/-- Parks a flit: its 64 bytes are written to a slot of the overflow area; or it stays in its channel's buffers and tries
again where the area is full. One read back from its slot is there still. -/
def parkFlit (core : Nat) (h : Hdr) (p : Parkable) (again : Ev) : M Unit := do
  let cl := clusterOf core
  let k ← getCluster cl
  if h.reinj then pure ()
  else if k.parked.length < k.ovfSlots then
    let n := k.freeOvf
    writePhysBytes (field k.ovf 6 46 * 64 + 64 * n) (flitImage h p (← get).ticks)
    modCluster cl fun k =>
      { k with parked := k.parked ++ [(n, h, p)],
               ovfParked := if k.ovfParked = 0xFFFFFFFF then k.ovfParked else k.ovfParked + 1 }
  else
    if !k.ovfRaised then
      modCluster cl fun k => { k with ovfRaised := true }
      supInterrupt cl 1
    let now ← now
    atCycle (now + 1) again

/-- Room has appeared on a core: its parked flits are looked at. -/
def wakeParked (core : Nat) : M Unit := do
  let cl := clusterOf core
  if !(← getCluster cl).parked.isEmpty then laterOnce (.reinject cl 0)

/-- The queue, ring or bin that a parked flit waits for: its kind, its team or launch, and its number. -/
def parkPlace (p : Parkable) : Nat × Nat × Nat :=
  match p with
  | .ray _ => (0, 0, 0)
  | .hit _ => (1, 0, 0)
  -- launch records and active messages are for no team of the core: each kind has one place (R404, R338)
  | .task r => if r.kind = 2 ∨ r.kind = 3 then (2, 0, r.kind.toNat)
    else (2, (if r.kind = 4 then field r.arg0 0 16 + 2 ^ 32 else r.launch.toNat), 0)
  | .ret tok _ _ => (3, field tok 20 16, 0)
  | .msg n _ _ => (4, n.toNat, 0)
  | .qdata n q _ _ => (5, n.toNat, q.toNat)
  | .key n b _ _ _ => (6, n.toNat, b.toNat)

/-- An earlier flit for the same core, team and queue is parked (R327). -/
def Cluster.parkedBefore (k : Cluster) (h : Hdr) (p : Parkable) : Bool :=
  k.parked.any fun q => q.2.1.dst = h.dst && parkPlace q.2.2 = parkPlace p

/-- The interrupt may be raised again once USED is below half (R329). -/
def settleOverflow (cl : Nat) : M Unit :=
  modCluster cl fun k => if 2 * k.parked.length < k.ovfSlots then { k with ovfRaised := false } else k

/-- The parked flit that a flit read back was. -/
def Cluster.slotOf (k : Cluster) (h : Hdr) (p : Parkable) : Option (Nat × Hdr × Parkable) :=
  k.parked.find? fun q => q.2.1.src = h.src && q.2.1.dst = h.dst && q.2.1.seq = h.seq && parkTy q.2.2 = parkTy p

/-- A flit read back has left its slot. -/
def leaveSlot (core : Nat) (h : Hdr) (p : Parkable) : M Unit := do
  let cl := clusterOf core
  if h.reinj then
    match (← getCluster cl).slotOf h p with
    | some q =>
      modCluster cl fun k => { k with parked := k.parked.erase q }
      settleOverflow cl
    | none => pure ()

/-- Removes the parked flits of a core that a test selects, as late arrivals (R327). -/
def dropParked (core : Nat) (sel : Parkable → Bool) : M Unit := do
  let cl := clusterOf core
  let gid := (← get).globalId core
  let k ← getCluster cl
  let gone := k.parked.filter fun q => q.2.1.dst = gid && sel q.2.2
  if !gone.isEmpty then
    modCluster cl fun k => { k with parked := k.parked.filter fun q => !(q.2.1.dst = gid && sel q.2.2) }
    lateArrival core gone.length
    settleOverflow cl

/-! Bins (R334). -/

def Bin.size (b : Bin) : Nat := if b.w64 then 8 else 4

/-- Slots of a bin. -/
def Bin.slots (b : Bin) : Nat := 64 * b.rows / b.size

/-- The combined value, whether sadd clamped, and the flags of fadd. -/
def binCombine (w64 : Bool) (op old v : Nat) : Nat × Bool × FlagSet :=
  let bits := if w64 then 64 else 32
  let so : Int := (BitVec.ofNat bits old).toInt
  let sv : Int := (BitVec.ofNat bits v).toInt
  let wrap (x : Int) : Nat := (BitVec.ofInt bits x).toNat
  match op with
  | 0 => ((old + v) % 2 ^ bits, false, 0)
  | 1 =>
    let x := so + sv
    let y := clampTo (-(2 ^ (bits - 1))) (2 ^ (bits - 1) - 1) x
    (wrap y, x ≠ y, 0)
  | 2 => (wrap (min so sv), false, 0)
  | 3 => (wrap (max so sv), false, 0)
  | 4 => (min old v, false, 0)
  | 5 => (max old v, false, 0)
  | 6 => (Nat.lor old v, false, 0)
  | 7 =>
    let f := if w64 then f64Fmt else f32Fmt
    let r := addNum f ⟨1, false⟩ (unpack f false old) (unpack f false v)
    (r.1, false, r.2)
  | _ => (v, false, 0)

/-- The rows of a range have the owner that an arrival expects (06_scratchpad.md R158). -/
def Core.expected (c : Core) (off n tag : Nat) : Bool :=
  (List.range ((off + n - 1) / 64 + 1 - off / 64)).all fun j => tagOwner (c.tag (off / 64 + j)) = tag

/-- Combines one element into bin `n` of a team, or discards it with DROP (R334). -/
def combineElem (core tag n slot : Nat) (w64 : Bool) (v : Nat) : M Unit := do
  match ((← getCore core).team tag).bind fun t => Store.get none t.bins n with
  | none => pure ()
  | some b =>
    if b.w64 ≠ w64 || b.slots ≤ slot then
      lateArrival core
      modTeam core tag fun t => { t with bins := Store.set none t.bins n (some { b with drop := true }) }
    else if !(← getCore core).expected (b.base + slot * b.size) b.size tag then lateArrival core
    else
      let off := b.base + slot * b.size
      let old := Store.readN (← getCore core).rows off b.size
      let r := binCombine w64 b.op old (v % 2 ^ (8 * b.size))
      modCore core fun c => { c with rows := Store.writeN c.rows off b.size r.1 }
      let b1 : Bin := { b with count := b.count + 1, sat := b.sat || r.2.1, flags := b.flags ||| r.2.2 }
      modTeam core tag fun t => { t with bins := Store.set none t.bins n (some b1) }
      match b.bar with
      | some o => barOp core o (barSub b.size)
      | none => pure ()

end Sys2Proof.Machine
end

