-- ==== Sys2Proof/Machine/Shuttle.lean ====
section
/-! DEFINITION. The Shuttle: requests and their checks, launch, transfers, arrivals of their data, and the Shuttle group,
majors 0x90 to 0x98 (10_shuttle.md R264 to R292). -/

namespace Sys2Proof.Machine

/-! The request (R269, R270): eight words. -/

def rqW (w : List W64) (i : Nat) : W64 := w.getD i 0
def rqLines (w : List W64) : Nat := field (rqW w 2) 32 12 + 1
def rqLine (w : List W64) : Nat := field (rqW w 2) 0 16 + 1
def rqSstride (w : List W64) : Int := ((rqW w 3).extractLsb' 0 32).toInt
def rqDstride (w : List W64) : Int := ((rqW w 3).extractLsb' 32 32).toInt
def rqRowTarget (w : List W64) : Bool := (rqW w 4).getLsbD 16
def rqElem (w : List W64) : Nat := field (rqW w 4) 14 2
def rqRnd (w : List W64) : Nat := field (rqW w 4) 6 3
def rqLayout (w : List W64) : Nat := field (rqW w 4) 4 2
def rqReuse (w : List W64) : Nat := field (rqW w 4) 12 2
def rqKind (w : List W64) : Nat := field (rqW w 4) 0 4
def rqMask (w : List W64) : Nat := field (rqW w 6) 0 48
def rqRbar (w : List W64) : Nat := field (rqW w 7) 0 17
def rqDtag (w : List W64) : Nat := field (rqW w 1) 48 16
def rqCore (w : List W64) : Nat := field (rqW w 1) 22 22
def rqOff (w : List W64) : Nat := field (rqW w 1) 0 17

/-- GX0, GX1, GY0, GY1. -/
def rqRect (w : List W64) : Nat × Nat × Nat × Nat :=
  (field (rqW w 7) 17 8, field (rqW w 7) 34 8, field (rqW w 7) 25 9, field (rqW w 7) 42 9)

/-- Address of line i of a side. -/
def lineAddr (base : W64) (stride : Int) (i : Nat) : W64 := base + BitVec.ofInt 64 (stride * i)

/-! Checks (R272). -/

/-- Cause 1, SHAPE. -/
def rqShapeBad (w : List W64) : Bool :=
  let rect := rqRect w
  let n := rqLine w
  field (rqW w 2) 44 20 ≠ 0 || field (rqW w 2) 16 16 ≠ 0 || field (rqW w 4) 17 47 ≠ 0 || field (rqW w 4) 9 3 ≠ 0 ||
  field (rqW w 6) 48 16 ≠ 0 || field (rqW w 7) 51 13 ≠ 0 ||
  (rqRowTarget w && (field (rqW w 1) 44 4 ≠ 0 || field (rqW w 1) 17 5 ≠ 0)) ||
  (rqKind w ≠ 1 && (field (rqW w 7) 17 34 ≠ 0 || (if rqKind w = 2 then field (rqW w 6) 8 40 ≠ 0 else rqMask w ≠ 0))) ||
  n % 4 ≠ 0 || rqSstride w % 4 ≠ 0 || rqDstride w % 4 ≠ 0 || rect.2.1 < rect.1 || rect.2.2.2 < rect.2.2.1 ||
  (rqKind w = 2 && rqElem w = 1 && n % 8 ≠ 0)

/-- Cause 2, CTRL. -/
def rqCtrlBad (w : List W64) : Bool :=
  3 ≤ rqKind w || 2 ≤ rqElem w || rqRnd w = 6 || (rqKind w ≠ 0 && !rqRowTarget w) ||
  (rqKind w = 1 && (rqDtag w ≠ 0 || rqCore w ≠ 0 || rqMask w = 0))

/-- Cause 3, LAYOUT. -/
def rqLayoutBad (w : List W64) : Bool :=
  rqLayout w ≠ 0 &&
  (rqLine w % 64 ≠ 0 || rqDstride w % 64 ≠ 0 || (!rqRowTarget w && !isAperture (rqW w 1)))

/-- Causes 1 to 3, which the request alone fixes. -/
def rqStatic (w : List W64) : Nat :=
  if rqShapeBad w then 1 else if rqCtrlBad w then 2 else if rqLayoutBad w then 3 else 0

/-- Cause 4, ALIGN. -/
def rqAlignBad (w : List W64) : Bool :=
  let u := if rqLayout w = 0 then 4 else 64
  (rqW w 0).toNat % u ≠ 0 || (if rqRowTarget w then rqOff w else (rqW w 1).toNat) % u ≠ 0 ||
  (rqW w 5).toNat % 16 ≠ 0 || rqRbar w % 16 ≠ 0

/-- A global side's extent fails R190 (cause 5). -/
def segExtentBad (c : Ctx) (base : W64) (stride : Int) (lines len : Nat) (need : Need) : Bool :=
  let g := c.seg (field base 61 3)
  let o : Int := field base 0 61
  let far := stride * ((lines : Int) - 1)
  !segRights g c.supervisor need || o + min 0 far < 0 || (segLimit g : Int) < o + max 0 far + len

/-- An aperture side's extent fails (cause 6): a line out of the aperture, or a row that R157 refuses. `len`: the bytes
of each line on that side. -/
def State.apertureExtentBad (s : State) (base : W64) (stride : Int) (lines : Nat) (len : Nat → Nat) (store : Bool) : Bool :=
  (List.range lines).any fun i =>
    match apertureTarget s.hereId (lineAddr base stride i) with
    | none => true
    | some (core, off) =>
      0x18000 < off + len i || s.sys.retired.contains core ||
      !s.rowsAllowed s.myDomain s.me.supervisor core off (len i) store

/-- Pages that one line covers: fine pages by sub-page (07_addresses.md R197). -/
def State.linePages (s : State) (dom va len : Nat) : List (Bool × Nat) :=
  ((List.range ((va + len - 1) / 1024 - va / 1024 + 1)).map fun j =>
    let a := (va / 1024 + j) * 1024
    if s.inFine s.hereId (s.domAsn dom) a then (true, a / 1024) else (false, a / 2 ^ 21)).dedup

/-- A global side covers more than 16 pages (cause 7). -/
def State.pagesBad (s : State) (base : W64) (stride : Int) (lines len : Nat) : Bool :=
  let dom := s.myDomain
  let go := (List.range lines).foldl (fun (acc : List (Bool × Nat)) i =>
    if 16 < acc.length then acc
    else (acc ++ s.linePages dom (s.me.virtOf (lineAddr base stride i)).toNat len).dedup) []
  16 < go.length

/-! Destinations. -/

/-- The cluster of this module at global coordinates (01_package.md R17). -/
def State.clusterAt (s : State) (gx gy : Nat) : Option Nat :=
  if gx / 42 = s.moduleNo % 4 ∧ gy / 80 = s.moduleNo / 4 then some (gy % 80 * 42 + gx % 42) else none

/-- The clusters of a rectangle that lie in this module. -/
def State.rectClusters (s : State) (r : Nat × Nat × Nat × Nat) : List Nat :=
  (List.range (r.2.2.2 + 1 - r.2.2.1)).flatMap fun y =>
    (List.range (r.2.1 + 1 - r.1)).filterMap fun x => s.clusterAt (r.1 + x) (r.2.2.1 + y)

def maskBits (m : Nat) : List Nat := (List.range 48).filter m.testBit

/-- The cores of this module that a row target or a multicast names. -/
def State.rqCores (s : State) (w : List W64) : List Nat :=
  if rqKind w = 1 then
    (s.rectClusters (rqRect w)).flatMap fun cl => (maskBits (rqMask w)).map fun b => cl * 48 + b
  else match s.localCore (BitVec.ofNat 22 (rqCore w)) with
    | some k => [k]
    | none => []

/-- Destinations of each line, those of other modules included (R271). -/
def rqDests (w : List W64) : Nat :=
  let r := rqRect w
  if rqKind w = 1 then (r.2.1 + 1 - r.1) * (r.2.2.2 + 1 - r.2.2.1) * (maskBits (rqMask w)).length else 1

/-- Cause 11, TARGET. -/
def State.targetBad (s : State) (w : List W64) : Bool :=
  if rqKind w = 1 then
    let r := rqRect w
    ((s.topo.extractLsb' 6 2).toNat + 1) * 42 ≤ r.2.1 || ((s.topo.extractLsb' 4 2).toNat + 1) * 80 ≤ r.2.2.2
  else rqRowTarget w && (s.target (BitVec.ofNat 64 (rqCore w))).isNone

/-! Formats (R276). -/

/-- The size of an element of a bank format. -/
def fmtSize (f : Nat) : Nat :=
  match f with
  | 2 | 3 => 2
  | 5 | 6 => 1
  | _ => 4

def fmtFloat (f : Nat) : Option Fmt :=
  match f with
  | 1 => some f32Fmt
  | 2 => some f16Fmt
  | 3 => some bf16Fmt
  | _ => none

/-- The two sides' elements differ: neither format is RAW, and they are not equal or both bytes. -/
def fmtConverts (a b : Nat) : Bool := a ≠ b && a ≠ 0 && b ≠ 0 && !(5 ≤ a && a ≤ 6 && 5 ≤ b && b ≤ 6)

/-- An element of format `a` as one of format `b` (R276). -/
def fmtElem (c : Env) (a b v : Nat) : Nat × FlagSet :=
  match fmtFloat a with
  | some f =>
    let x := unpack f (c.flush f) v
    match fmtFloat b with
    | some g => convNum f g c x
    | none =>
      let r := toIntNum c (-2147483648) 2147483647 x
      if b = 4 then ((BitVec.ofInt 32 r.1).toNat, r.2) else ((BitVec.ofInt 8 (clampTo (-128) 127 r.1)).toNat, r.2)
  | none =>
    let i : Int := if a = 4 then (BitVec.ofNat 32 v).toInt else (BitVec.ofNat 8 v).toInt
    match fmtFloat b with
    | some g => ofInt g c i
    | none =>
      if b = 4 then ((BitVec.ofInt 32 i).toNat, 0) else ((BitVec.ofInt 8 (clampTo (-128) 127 i)).toNat, 0)

/-- The elements of a line converted. -/
def fmtLine (c : Env) (a b : Nat) : Nat → List Byte → List Byte × FlagSet
  | 0, _ => ([], 0)
  | n + 1, bs =>
    let r := fmtElem c a b (bytesToNat (bs.take (fmtSize a)))
    let rest := fmtLine c a b n (bs.drop (fmtSize a))
    (natToBytes (fmtSize b) r.1 ++ rest.1, r.2 ||| rest.2)

/-- Destination bytes of a line of `n` source bytes (R271). -/
def fmtBytes (a b n : Nat) : Nat := if fmtConverts a b && a ≠ 7 && b ≠ 7 then n / fmtSize a * fmtSize b else n

/-- FMT of the bank of an aperture address; RAW elsewhere. A source's is that of its line 0 (DESIGN CHOICE, log 97). -/
def State.sideFmt (s : State) (a : W64) : Nat :=
  if !isAperture a then 0 else
  match apertureTarget s.hereId a with
  | some (core, off) => (s.core core).fmtAt off
  | none => 0

/-- The scratchpad bank of an offset (06_scratchpad.md R166). -/
def bankOf (off : Nat) : Nat := off / 16384

/-- Scratchpad offset of a row target's line i; beyond the rows where it falls below them. -/
def lineOff (w : List W64) (i : Nat) : Nat :=
  let o := (rqOff w : Int) + rqDstride w * i
  if o < 0 then 0x18000 else o.toNat

/-- The cores and banks in which destination lines begin, of the cores of this module that hold something. -/
def State.destBanks (s : State) (w : List W64) : List (Nat × Nat) :=
  let ls := List.range (rqLines w)
  if rqKind w = 2 then []
  else if rqRowTarget w then
    let cores := s.rqCores w
    let banks := (ls.map fun i => bankOf (lineOff w i)).dedup
    (s.knownCores.filter fun k => cores.contains k).flatMap fun k => banks.map fun b => (k, b)
  else if isAperture (rqW w 1) then
    (ls.filterMap fun i =>
      (apertureTarget s.hereId (lineAddr (rqW w 1) (rqDstride w) i)).map fun t => (t.1, bankOf t.2)).dedup
  else []

/-- Formats, other than RAW, of the destination banks: core, bank, format. -/
def State.destFmts (s : State) (w : List W64) : List (Nat × Nat × Nat) :=
  (s.destBanks w).filterMap fun x =>
    let f := (s.core x.1).fmtAt (16384 * x.2)
    if f = 0 then none else some (x.1, x.2, f)

/-- Those that line i of a launch from a core meets: a line takes the format of the bank that it begins in (DESIGN
CHOICE, log 97). -/
def lineFmts (core : Nat) (w : List W64) (df : List (Nat × Nat × Nat)) (i : Nat) : List (Nat × Nat × Nat) :=
  if rqRowTarget w then df.filter fun d => d.2.1 = bankOf (lineOff w i)
  else match apertureTarget core (lineAddr (rqW w 1) (rqDstride w) i) with
    | some t => df.filter fun d => d.1 = t.1 && d.2.1 = bankOf t.2
    | none => []

/-- Bytes of source line i over all its destinations. -/
def lineBytes (core : Nat) (w : List W64) (sf : Nat) (df : List (Nat × Nat × Nat)) (i : Nat) : Nat :=
  let l := lineFmts core w df i
  l.foldl (fun t d => t + fmtBytes sf d.2.2 (rqLine w)) ((rqDests w - l.length) * rqLine w)

/-- Bytes of the longest destination line that source line i gives. -/
def lineLen (core : Nat) (w : List W64) (sf : Nat) (df : List (Nat × Nat × Nat)) (i : Nat) : Nat :=
  let l := lineFmts core w df i
  l.foldl (fun t d => max t (fmtBytes sf d.2.2 (rqLine w))) (if l.length < rqDests w then rqLine w else 0)

/-- A request's total bytes (R271), of its lines from `k` on. -/
def bytesFrom (core : Nat) (w : List W64) (sf : Nat) (df : List (Nat × Nat × Nat)) (k : Nat) : Nat :=
  (List.range (rqLines w - k)).foldl (fun t i => t + lineBytes core w sf df (k + i)) 0

/-- Cause 8, FORMAT. -/
def State.formatBad (s : State) (w : List W64) : Bool :=
  let a := s.sideFmt (rqW w 0)
  (s.destFmts w).any fun d =>
    fmtConverts a d.2.2 && (a = 7 || d.2.2 = 7 || fmtBytes a d.2.2 (rqLine w) % 4 ≠ 0)

/-! Launch (R264 to R268, R272, R277, R286). -/

/-- Cause 9, BARRIER: BAR names a team row of the launching team, with room in PEND. -/
def State.barrierBad (s : State) (w : List W64) (total : Nat) : Bool :=
  rqW w 5 ≠ 0 &&
  (!validLocal (rqW w 5) ||
   (let off := field (rqW w 5) 0 17
    let t := s.here.tag (off / 64)
    tagClass t ≠ 4 || s.myTeam.isNone || tagOwner t ≠ s.me.team ||
    2 ^ 36 ≤ barPend (s.here.barrier off) + total))

/-- The first cause of R272 that rejects a request, or 0. -/
def State.launchCause (s : State) (w : List W64) : Nat :=
  let n := rqLine w
  let k := rqLines w
  let src := rqW w 0
  let dst := rqW w 1
  let generic := !rqRowTarget w
  if rqStatic w ≠ 0 then rqStatic w
  else if rqAlignBad w then 4
  else if (!isAperture src && segExtentBad s.me src (rqSstride w) k n .load) ||
      (generic && !isAperture dst && segExtentBad s.me dst (rqDstride w) k n .store) then 5
  else if (isAperture src && s.apertureExtentBad src (rqSstride w) k (fun _ => n) false) ||
      (generic && isAperture dst &&
        s.apertureExtentBad dst (rqDstride w) k (lineLen s.hereId w (s.sideFmt src) (s.destFmts w)) true) then 6
  else if (!isAperture src && s.pagesBad src (rqSstride w) k n) ||
      (generic && !isAperture dst && s.pagesBad dst (rqDstride w) k n) then 7
  else if s.formatBad w then 8
  else if s.barrierBad w (bytesFrom s.hereId w (s.sideFmt src) (s.destFmts w) 0) then 9
  else if ((s.myTeam.map (·.shuttle)).getD 0) = 0 then 10
  else if s.targetBad w then 11
  else 0

/-- An entry that a launch may take. -/
def shFree (e : Option ShEntry) : Bool :=
  match e with
  | none => true
  | some e => e.state = .free || e.state = .done

/-- Entries that a team has in use. -/
def Core.shInUse (c : Core) (tag : Nat) : Nat :=
  (c.shuttle.filter fun x => match x.2 with
    | some e => e.team = tag && (e.state = .queued || e.state = .running)
    | none => false).length

/-- Generation of the next launch into an entry (R265). -/
def nextGen (e : Option ShEntry) : Nat :=
  match e with
  | none => 1
  | some e => if e.gen = 2047 then 1 else e.gen + 1

/-- Entries that a resuming team's saved transfers take again (R282). -/
def Core.promised (c : Core) : List Nat :=
  c.teams.flatMap fun t => match t.returning with
    | some r => r.transfers.map (·.1)
    | none => []

/-- Launches a request that has passed every check, and answers its id; waits while the team's entries are in use. -/
def launch (w : List W64) : M Nat := do
  let s ← get
  match s.myTeam with
  | none => return 0
  | some t =>
    if t.shuttle ≤ s.here.shInUse t.tag then hold .shBatch
    let id ← myId
    let entry := ((List.range 32).find? fun k => shFree (Store.get none s.here.shuttle k) && !s.here.promised.contains k).getD 0
    let gen := nextGen (Store.get none s.here.shuttle entry)
    let sf := s.sideFmt (rqW w 0)
    let df := s.destFmts w
    let tag := if rqRowTarget w then rqDtag w
      else match apertureTarget s.hereId (rqW w 1) with
        | some (core, off) => if isAperture (rqW w 1) then tagOwner ((s.core core).tag (off / 64)) else 0
        | none => 0
    let bar := if rqW w 5 = 0 then 0 else field (rqW w 5) 0 17 + 1
    let e : ShEntry :=
      { state := .queued, gen := gen, words := w, team := t.tag, ctx := some id.seat, segs := s.me.g,
        sup := s.me.supervisor, order := s.here.shOrder, dtag := tag,
        rm := BitVec.ofNat 3 (if rqRnd w = 0 then field s.me.mode 8 3 else rqRnd w), ftz := s.me.mode.getLsbD 12,
        sfmt := sf, dfmts := df, lines := rqLines w, sent := 0, dests := rqLines w * rqDests w, acked := 0,
        bar := bar, gone := false, err := false, cancel := false, cause := 0, flags := 0 }
    modHere fun c => { c with shuttle := Store.set none c.shuttle entry (some e), shOrder := c.shOrder + 1 }
    if bar ≠ 0 then
      barOp s.hereId (bar - 1) fun b => barPut b 0 36 (barPend b + bytesFrom s.hereId w sf df 0)
    modMe fun c => { c with openBatch := c.openBatch ++ [(entry, gen)] }
    later (.transferStart s.hereId entry)
    countEvent 0x15
    return gen * 32 + entry

/-! Footprints (R281). -/

/-- The interval from the lowest byte to the one after the highest. -/
def span (base stride : Int) (lines len : Nat) : Int × Int :=
  let far := stride * ((lines : Int) - 1)
  (base + min 0 far, base + max 0 far + len)

def meets (a b : Int × Int) : Bool := a.1 < b.2 && b.1 < a.2

/-- A multicast names a core. -/
def State.names (s : State) (rect : Nat × Nat × Nat × Nat) (mask core : Nat) : Bool :=
  (s.rectClusters rect).contains (clusterOf core) && mask.testBit (core % 48)

/-- An interval of offsets of core `c` as offsets of core `k`: a core's scratchpad is 2^17 apart from the next one's, as in
the cluster aperture. -/
def asSeenBy (c k : Nat) (i : Int × Int) : Int × Int :=
  let d : Int := ((k : Int) - c) * 2 ^ 17
  (i.1 - d, i.2 - d)

/-- Rows from core `c` on meet those that a multicast names: the interval may run over other cores of the cluster. -/
def State.rowsMeetMulti (s : State) (c : Nat) (i : Int × Int) (r : Nat × Nat × Nat × Nat) (m : Nat) (j : Int × Int) : Bool :=
  (clusterCores (clusterOf c)).any fun k => s.names r m k && meets (asSeenBy c k i) j

def State.extentsMeet (s : State) (a b : Extent) : Bool :=
  match a, b with
  | .glob l h, .glob l2 h2 => meets (l, h) (l2, h2)
  | .rows c l h, .rows c2 l2 h2 => clusterOf c = clusterOf c2 && meets (asSeenBy c c2 (l, h)) (l2, h2)
  | .rows c l h, .multi r m l2 h2 => s.rowsMeetMulti c (l, h) r m (l2, h2)
  | .multi r m l h, .rows c l2 h2 => s.rowsMeetMulti c (l2, h2) r m (l, h)
  | .multi r m l h, .multi r2 m2 l2 h2 =>
    meets (l, h) (l2, h2) && Nat.land m m2 ≠ 0 &&
    r.1 ≤ r2.2.1 && r2.1 ≤ r.2.1 && r.2.2.1 ≤ r2.2.2.2 && r2.2.2.1 ≤ r.2.2.2
  | _, _ => false

/-- The same for lines of different lengths. -/
def spanOf (base stride : Int) (lines : Nat) (len : Nat → Nat) : Int × Int :=
  (base + min 0 (stride * ((lines : Int) - 1)),
   (List.range lines).foldl (fun (h : Int) i => max h (base + stride * i + len i)) base)

/-- A side of an entry given by a generic address; `len`: the bytes of its lines there. -/
def sideExtent (core : Nat) (e : ShEntry) (a : W64) (stride : Int) (len : Nat → Nat) : Extent :=
  if isAperture a then
    match apertureTarget core a with
    | some (k, off) => let i := spanOf off stride e.lines len; .rows k i.1 i.2
    | none => .nothing
  else
    let va : Int := segBase (Store.get 0 e.segs (field a 61 3)) + field a 0 61
    let i := span va stride e.lines (rqLine e.words)
    .glob i.1 i.2

def readExtent (core : Nat) (e : ShEntry) : Extent :=
  sideExtent core e (rqW e.words 0) (rqSstride e.words) fun _ => rqLine e.words

/-- The write extent, of destination lines (R271, R281). -/
def State.writeExtent (s : State) (core : Nat) (e : ShEntry) : Extent :=
  let w := e.words
  let len := lineLen core w e.sfmt e.dfmts
  if !rqRowTarget w then sideExtent core e (rqW w 1) (rqDstride w) len
  else
    let i := spanOf (rqOff w) (rqDstride w) e.lines len
    match rqKind w with
    | 1 => .multi (rqRect w) (rqMask w) i.1 i.2
    | 2 =>
      match s.localCore (BitVec.ofNat 22 (rqCore w)) with
      | none => .nothing
      | some k =>
        let lnum := ((s.core core).team e.team).map (·.lnum)
        match ((s.core k).teams.find? fun t => if rqDtag w = 0 then some t.lnum = lnum else t.tag = rqDtag w).bind
            fun t => Store.get none t.bins (rqMask w) with
        | some b => .rows k b.base (b.base + 64 * b.rows)
        | none => .nothing
    | _ =>
      match s.localCore (BitVec.ofNat 22 (rqCore w)) with
      | some k => .rows k i.1 i.2
      | none => .nothing

/-- Two entries conflict (09_sharing.md R260). -/
def State.shConflict (s : State) (core : Nat) (a b : ShEntry) : Bool :=
  s.extentsMeet (s.writeExtent core a) (s.writeExtent core b) ||
  s.extentsMeet (s.writeExtent core a) (readExtent core b) ||
  s.extentsMeet (readExtent core a) (s.writeExtent core b)

/-- Two footprints conflict (09_sharing.md R260). -/
def State.footsMeet (s : State) (r1 w1 r2 w2 : List Extent) : Bool :=
  let hit (a b : List Extent) : Bool := a.any fun x => b.any fun y => s.extentsMeet x y
  hit w1 w2 || hit w1 r2 || hit r1 w2

/-- Commands of a core's pair. -/
def Core.matQueue (c : Core) : List MatCmd :=
  match c.pair with
  | some p => p.queue
  | none => []

/-- An earlier transfer of the core, or an earlier command of its pair, holds an entry back. -/
def State.shHeld (s : State) (core : Nat) (e : ShEntry) : Bool :=
  ((s.core core).shuttle.any fun x => match x.2 with
    | some f => f.order < e.order && (f.state = .queued || f.state = .running) && s.shConflict core e f
    | none => false) ||
  (s.core core).matQueue.any fun q =>
    q.order ≤ e.order && s.footsMeet q.reads q.writes [readExtent core e] [s.writeExtent core e]

/-! Arrivals of data (R158, R274, R278). -/

/-- Rows that `n` bytes from an offset touch. -/
def rowsOf (off n : Nat) : List Nat := (List.range ((off + n - 1) / 64 - off / 64 + 1)).map (off / 64 + ·)

/-- The tag that a line expects here: its own, or that of the launch's team (R274). `fixed`: its own, even 0. -/
def Core.expects (c : Core) (fixed : Bool) (tag : BitVec 16) (lnum : W32) : Option Nat :=
  if fixed || tag ≠ 0 then some tag.toNat else (c.teams.find? (·.lnum = lnum)).map (·.tag)

/-- A line at its destination core: written, or discarded as a late arrival. -/
def takeCopy (core : Nat) (l : CopyLine) : M LineEnd := do
  let s ← get
  let c := s.core core
  let rows := rowsOf l.off l.bytes.length
  match c.expects l.fixed l.tag l.lnum with
  | none =>
    lateArrival core
    return .gone
  | some tag =>
    if s.sys.retired.contains core || rows.any fun r => 1536 ≤ r || tagOwner (c.tag r) ≠ tag then
      lateArrival core
      return .gone
    if decide (((c.team tag).map fun t => s.domainOf t.rcb).getD l.domain ≠ l.domain) then
      lateArrival core
      return .err 13
    modify fun s => s.putRowBytes core l.off l.bytes
    modCore core fun c => rows.foldl (fun c r => c.putTag r (setLayout (c.tag r) l.layout.toNat)) c
    if l.rbar ≠ 0 then
      if l.rbar < 0x18000 && tagOwner (c.tag (l.rbar / 64)) = tag then barOp core l.rbar (barSub l.bytes.length)
      else lateArrival core
    return .done

/-- A reduce line at its core: combined into its bin, or discarded (R275, R334). -/
def takeRed (core : Nat) (l : RedLine) : M LineEnd := do
  let s ← get
  let c := s.core core
  let size := if l.w64 then 8 else 4
  let n := l.bytes.length / size
  match (c.expects false l.tag l.lnum).bind c.team with
  | none =>
    lateArrival core
    return .gone
  | some t =>
    if s.sys.retired.contains core then
      lateArrival core
      return .gone
    if s.domainOf t.rcb ≠ l.domain then
      lateArrival core
      return .err 13
    match Store.get none t.bins l.bin.toNat with
    | none =>
      lateArrival core
      return .gone
    | some b =>
      if b.w64 ≠ l.w64 || b.slots < l.off / size + n then
        lateArrival core
        modTeam core t.tag fun t => { t with bins := Store.set none t.bins l.bin.toNat (some { b with drop := true }) }
        return .gone
      if !c.expected (b.base + l.off / size * size) l.bytes.length t.tag then
        lateArrival core
        return .gone
      for i in List.range n do
        combineElem core t.tag l.bin.toNat (l.off / size + i) l.w64 (bytesToNat ((l.bytes.drop (i * size)).take size))
      modCore core fun (c : Core) =>
        (rowsOf (b.base + l.off / size * size) l.bytes.length).foldl
          (fun c r => c.putTag r (setLayout (c.tag r) l.layout.toNat)) c
      return .done

/-- COPY: a line of a copy or a multicast arrives. -/
def execCopy (h : Hdr) (l : CopyLine) (s : State) : Host.Outcome State Fault Refusal :=
  (do
    match (← get).localCore h.dst with
    | none => pure ()
    | some core =>
      if ← acceptFlit core h (.copy h l) then
        let how ← takeCopy core l
        sendFlit core h.src 2 (.ack · l.entry l.gen l.line l.bytes.length how) : M Unit).toOutcome s

/-- RED: a line of a reduce arrives. -/
def execRed (h : Hdr) (l : RedLine) (s : State) : Host.Outcome State Fault Refusal :=
  (do
    match (← get).localCore h.dst with
    | none => pure ()
    | some core =>
      if ← acceptFlit core h (.red h l) then
        let how ← takeRed core l
        sendFlit core h.src 2 (.ack · l.entry l.gen l.line l.bytes.length how) : M Unit).toOutcome s

/-- ACK: an acknowledgement or a TARGET-GONE notice arrives at the sender (R277). -/
def execAck (h : Hdr) (entry gen line bytes : Nat) (how : LineEnd) (s : State) :
    Host.Outcome State Fault Refusal :=
  (do
    match (← get).localCore h.dst with
    | none => pure ()
    | some core =>
      if ← acceptFlit core h (.ack h entry gen line bytes how) then lineAcked core entry gen bytes how : M Unit).toOutcome s

/-! A running transfer (R273). -/

/-- What reading or reaching a global range gives. -/
inductive Reach where
  | places (ps : List (Nat × Nat))   -- physical address and length of each piece
  | wait
  | fail
  deriving DecidableEq, Repr

/-- A virtual range that a transfer of a team translates sub-page by sub-page; a parked page is filled, and a transfer
that waits for a frame is starved as a context is (R273; 07_addresses.md R219). -/
def reach (entry tag dom core va len : Nat) (u : Use) : M Reach := do
  let mut ps : List (Nat × Nat) := []
  let mut waits : List (Option Ev) := []
  for j in List.range ((va + len - 1) / 1024 - va / 1024 + 1) do
    let lo := max va ((va / 1024 + j) * 1024)
    let hi := min (va + len) ((va / 1024 + j + 1) * 1024)
    match ← translate dom core lo u with
    | .ok pa => ps := ps ++ [(pa, hi - lo)]
    | .page _ => return .fail
    | .wait job => waits := waits ++ [job]
  for w in waits do awaitPage (.transfer core entry) tag (ps.map (·.1)) w
  return if waits.isEmpty then .places ps else .wait

/-- Source bytes of a line: none while a page is awaited; an error cause of R272. -/
inductive Source where
  | bytes (bs : List Byte)
  | wait
  | err (cause : Nat)
  deriving DecidableEq, Repr

def readSource (core entry dom : Nat) (e : ShEntry) (i : Nat) : M Source := do
  let s ← get
  let a := lineAddr (rqW e.words 0) (rqSstride e.words) i
  let n := rqLine e.words
  if isAperture a then
    match apertureTarget core a with
    | none => return .err 12
    | some (k, off) =>
      if (rowsOf off n).any fun r => tagPoison ((s.core k).tag r) then return .err 14
      return .bytes (if 1024 ≤ off then Store.bytes (s.core k).rows off n else s.rowBytes k off n)
  else
    let va := segBase (Store.get 0 e.segs (field a 61 3)) + field a 0 61
    match ← reach entry e.team dom core va n .read with
    | .wait => return .wait
    | .fail => return .err 12
    | .places ps =>
      let s ← get
      if ps.any fun p => Place1.poisoned s (.phys p.1 0 p.2) then return .err 14
      let mut bs : List Byte := []
      for p in ps do bs := bs ++ (← readPhysBytes p.1 p.2 (rqReuse e.words))
      return .bytes bs

/-- Changes an entry of a core's queue. -/
def modEntry (core entry : Nat) (f : ShEntry → ShEntry) : M Unit :=
  modCore core fun (c : Core) =>
    let e := (Store.get none c.shuttle entry).map f
    { c with shuttle := Store.set none c.shuttle entry e }

/-- The environment of a transfer's conversions. -/
def ShEntry.env (e : ShEntry) : Env := { rm := e.rm.toNat, ftz := e.ftz }

/-- A line converted for the bank of a destination core that it begins in, with its flags. -/
def ShEntry.convert (e : ShEntry) (core off : Nat) (bs : List Byte) : List Byte × FlagSet :=
  match e.dfmts.find? fun d => d.1 = core && d.2.1 = bankOf off with
  | some d =>
    if fmtConverts e.sfmt d.2.2 then fmtLine e.env e.sfmt d.2.2 (bs.length / fmtSize e.sfmt) bs else (bs, 0)
  | none => (bs, 0)

/-- Sends one line to rows of a core: in the core itself at once, elsewhere as a flit. -/
def sendCopy (core entry : Nat) (e : ShEntry) (lnum : W32) (dom i dest off : Nat) (bs : List Byte) : M Unit := do
  let r := e.convert dest off bs
  modEntry core entry fun e => { e with flags := e.flags ||| r.2 }
  let l : CopyLine :=
    { entry := entry, gen := e.gen, line := i, bytes := r.1, off := off, tag := BitVec.ofNat 16 e.dtag,
      fixed := !rqRowTarget e.words, lnum := lnum,
      domain := dom, layout := BitVec.ofNat 2 (rqLayout e.words), rbar := rqRbar e.words }
  if dest = core then
    let how ← takeCopy core l
    lineAcked core entry e.gen r.1.length how
  else sendFlit core ((← get).globalId dest) 7 (.copy · l)

/-- Sends line i of a running transfer to every destination; whether it went. -/
def sendLine (core entry : Nat) (e : ShEntry) (t : Team) (i : Nat) (bs : List Byte) : M Bool := do
  let s ← get
  let w := e.words
  let dom := s.domainOf t.rcb
  if rqKind w = 2 then
    let l : RedLine :=
      { entry := entry, gen := e.gen, line := i, bytes := bs, bin := BitVec.ofNat 8 (rqMask w),
        off := rqOff w + i * rqLine w, w64 := decide (rqElem w = 1), tag := BitVec.ofNat 16 e.dtag, lnum := t.lnum,
        domain := dom, layout := BitVec.ofNat 2 (rqLayout w) }
    match s.localCore (BitVec.ofNat 22 (rqCore w)) with
    | some k =>
      if k = core then
        let how ← takeRed core l
        lineAcked core entry e.gen bs.length how
      else sendFlit core (s.globalId k) 7 (.red · l)
    | none => pure ()
    return true
  else if rqRowTarget w then
    for k in s.rqCores w do
      sendCopy core entry e t.lnum dom i k (lineOff w i) bs
    return true
  else
    let a := lineAddr (rqW w 1) (rqDstride w) i
    if isAperture a then
      match apertureTarget core a with
      | some (k, off) => sendCopy core entry e t.lnum dom i k off bs
      | none => linesEnd core entry 1 bs.length .gone false
      return true
    else
      let va := segBase (Store.get 0 e.segs (field a 61 3)) + field a 0 61
      match ← reach entry e.team dom core va bs.length .write with
      | .wait => return false
      | .fail => return true
      | .places ps =>
        let mut rest := bs
        for p in ps do
          writePhysBytes p.1 (rest.take p.2)
          engineWrote core p.1 p.2
          rest := rest.drop p.2
        lineAcked core entry e.gen bs.length .done
        return true

/-- Every line not yet sent ends alike: with an error cause, or cancelled (R272, R273, R283). -/
def endUnsent (core entry : Nat) (e : ShEntry) (how : LineEnd) (cancel : Bool) : M Unit := do
  modEntry core entry fun e => { e with sent := e.lines }
  let n := e.lines - e.sent
  linesEnd core entry (n * rqDests e.words) (bytesFrom core e.words e.sfmt e.dfmts e.sent) how cancel

/-- Whether a generic global destination line's walk fails. -/
def destFails (core entry dom : Nat) (e : ShEntry) (i : Nat) : M Bool := do
  let a := lineAddr (rqW e.words 1) (rqDstride e.words) i
  if rqRowTarget e.words || isAperture a then return false
  let va := segBase (Store.get 0 e.segs (field a 61 3)) + field a 0 61
  match ← reach entry e.team dom core va (rqLine e.words) .write with
  | .fail => return true
  | _ => return false

/-- Moves the next line of a running transfer. -/
def moveLine (core entry : Nat) (e : ShEntry) (t : Team) : M Unit := do
  let s ← get
  let dom := s.domainOf t.rcb
  let again : M Unit := do atCycle ((← now) + 1) (.transferStart core entry)
  match ← readSource core entry dom e e.sent with
  | .wait => again
  | .err 12 => endUnsent core entry e (.err 12) false
  | .err c =>
    modEntry core entry fun e => { e with sent := e.sent + 1 }
    linesEnd core entry (rqDests e.words) (lineBytes core e.words e.sfmt e.dfmts e.sent) (.err c) false
    laterOnce (.transferStart core entry)
  | .bytes bs =>
    if ← destFails core entry dom e e.sent then endUnsent core entry e (.err 12) false
    else
      modEntry core entry fun e => { e with sent := e.sent + 1 }
      if ← sendLine core entry e t e.sent bs then laterOnce (.transferStart core entry)
      else
        modEntry core entry fun e => { e with sent := e.sent - 1 }
        again

/-- Transfers of a core that run. -/
def Core.running (c : Core) : Nat :=
  (c.shuttle.filter fun x => match x.2 with | some e => e.state = .running | none => false).length

/-- The QUEUED transfer of a core that starts next: of those that nothing holds, the earliest launched (R266). -/
def State.nextStart (s : State) (core : Nat) : Option (Nat × ShEntry) :=
  let c := s.core core
  (c.shuttle.filterMap fun x => x.2.bind fun e =>
    if e.state = .queued && !c.frozen && (c.team e.team).isSome && !s.shHeld core e then some (x.1, e) else none).foldl
      (fun (m : Option (Nat × ShEntry)) x => match m with
        | some y => if x.2.order < y.2.order then some x else m
        | none => some x) none

/-- TRANSFER_START: a queued transfer whose edges have cleared starts, in launch order and at most four at once; a
running one moves its next line (R266, R273, log 11). -/
def execTransferStart (core entry : Nat) (s : State) : Host.Outcome State Fault Refusal :=
  (do
    let s ← get
    match Store.get none (s.core core).shuttle entry with
    | none => pure ()
    | some e =>
      match (s.core core).team e.team with
      | none => pure ()
      | some t =>
        if (s.core core).frozen then pure ()
        else if e.state = .queued then
          match s.nextStart core with
          | none => pure ()
          | some (k, f) =>
            if (s.core core).running < 4 then
              modCore core fun c => { c with shuttle := Store.set none c.shuttle k (some { f with state := .running }) }
              laterOnce (.transferStart core k)
              if k ≠ entry then laterOnce (.transferStart core entry)
        else if e.state = .running && e.sent < e.lines then moveLine core entry e t : M Unit).toOutcome s

/-! The instructions (R284 to R292). -/

/-- The physical number of a shadow register: a team's eight, or all sixteen for a context of no team (R267). -/
def State.shReg (s : State) (o : Opnd) : Option Nat :=
  match opOf o with
  | .sh n => match s.myTeam with
    | some t => if n < 8 then some (8 * t.half + n) else none
    | none => some n
  | _ => none

def Core.shWords (c : Core) (r : Nat) : List W64 := (List.range 8).map fun i => Store.get 0 c.sh (8 * r + i)

/-- A value operand: x of a barrel thread, uniform, small immediate or `zero`. -/
def State.valOk (s : State) (o : Opnd) : Bool :=
  match opOf o with
  | .prim _ => s.xOk o
  | .k n => n < s.kLimit
  | .imm _ | .zero => true
  | _ => false

/-- A 64-bit value operand: a wave's uniform register must be even and names a pair (R175, R284; log 21). -/
def State.wideValOk (s : State) (o : Opnd) : Bool :=
  match opOf o with
  | .k n => if s.me.isWave then n % 2 = 0 && n + 1 < s.kLimit else n < s.kLimit
  | _ => s.valOk o

/-- The value of such an operand. -/
def State.wideVal (s : State) (i : Iss) (o : Opnd) : W64 :=
  match opOf o with
  | .k n => if s.me.isWave then s.uni (n + 1) ++ s.uni n else (s.uni n).setWidth 64
  | _ => s.val i true o i.rep

/-- A result's destination: x, a wave's uniform, or `zero`. -/
def State.resDst (s : State) (o : Opnd) : Bool :=
  match opOf o with
  | .prim _ | .zero => s.dstOk false false o
  | .k _ => s.me.isWave && s.dstOk false false o
  | _ => false

def shReq (g : Guard) (ok : State → Bool) (srcs dsts : List Opnd) : Req :=
  { guard := g, cls := some 3, ok := ok, srcs := srcs, dsts := dsts }

/-- The operand b of CPYW and MCFG: PAIR asks for an even uniform pair (R285, 11_matrix.md R314). -/
def State.cfgOk (s : State) (pair : Bool) (b : Opnd) : Bool := if pair then s.kPairOk b else s.valOk b

def State.cfgVal (s : State) (i : Iss) (pair : Bool) (b : Opnd) : W64 :=
  match opOf b with
  | .k n => if pair then s.uni (n + 1) ++ s.uni n else (s.uni n).setWidth 64
  | _ => s.val i true b i.rep

/-- What `Cpyw` asks of its issue. -/
def cpywReq (g : Guard) (pair : Bool) (d : Opnd) (a : Opnd) (b : Opnd) : Req :=
  (shReq g (fun s => s.predOk d && (s.shReg a).isSome && s.cfgOk pair b)
    (if pair then [b, nextOpnd b] else [b]) [d])

def cpywBody (word : BitVec 3) (pair : Bool) (d : Opnd) (a : Opnd) (b : Opnd) (i : Iss) : M Unit := do
  let s ← get
  match s.shReg a with
  | none => illegalOperand
  | some r =>
    modHere fun c => { c with sh := Store.set 0 c.sh (8 * r + word.toNat) (s.cfgVal i pair b) }
    let cause := rqStatic ((← getHere).shWords r)
    modHere fun c => { c with shCause := Store.set 0 c.shCause r cause }
    putScalar i d (if cause = 0 then 1 else 0)

def execCpyw (g : Guard) (word : BitVec 3) (pair : Bool) (d a b : Opnd) (s : State) :
    Host.Outcome State Fault Refusal :=
  runIssue (cpywReq g pair d a b) (cpywBody word pair d a b) s

/-- What `Cpygo` asks of its issue. -/
def cpygoReq (g : Guard) (d : Opnd) (a : Opnd) : Req :=
  { shReq g (fun s => s.resDst d && (s.shReg a).isSome) [] [d] with form := State.unified }

def cpygoBody (d : Opnd) (a : Opnd) (i : Iss) : M Unit := do
  let s ← get
  match s.shReg a with
  | none => illegalOperand
  | some r =>
    let w := s.here.shWords r
    let cause := s.launchCause w
    let v ← if cause = 0 then launch w else pure (cause * 65536)
    putScalar i d (BitVec.ofNat 64 v)

def execCpygo (g : Guard) (d a : Opnd) (s : State) : Host.Outcome State Fault Refusal :=
  runIssue (cpygoReq g d a) (cpygoBody d a) s

/-- The rows of a kick: team rows of the team, by local-aperture address (R287). -/
def kickRows (a : W64) (n : Nat) : M Nat := do
  let s ← get
  let off := field a 0 17
  let ok := validLocal a && off + 64 * n ≤ 0x18000 && (List.range n).all fun j =>
    let t := s.here.tag (off / 64 + j)
    tagClass t = 4 && s.myTeam.isSome && tagOwner t = s.me.team
  if !ok then apertureFault a
  if off % 64 ≠ 0 then misalign a
  return off

/-- Launches requests k to n − 1 of a list at an address, each row read as a plain load, and answers the result word; what
has been launched is kept while one waits. -/
def kickFrom (a : W64) (rep n : Nat) : Nat → M Nat
  | 0 => do
    let p := (← getMe).prog
    return p.since * 2 ^ 24 + ((p.old.headD 0).toNat)
  | fuel + 1 => do
    let s ← get
    let k := s.me.prog.since
    if n ≤ k then kickFrom a rep n 0
    else
      let got ← access 64 plainNeed [(rep, a + BitVec.ofNat 64 (64 * k))]
      let row := natToBytes 64 (← readPieces plainLoad ((got.headD (0, [])).2))
      let s ← get
      let w := (List.range 8).map fun i => (BitVec.ofNat 64 (bytesAt row (8 * i) 8) : W64)
      let cause := s.launchCause w
      if cause ≠ 0 then return k * 2 ^ 24 + cause * 2 ^ 16 + (s.me.prog.old.headD 0).toNat
      let id ← launch w
      modMe fun c => { c with prog := { c.prog with since := k + 1, old := [BitVec.ofNat 64 id] } }
      kickFrom a rep n fuel

/-- What `Shkick` asks of its issue. -/
def shkickReq (g : Guard) (d : Opnd) (a : Opnd) (b : Opnd) (s : State) : Req :=
  { shReq g (fun s => s.resDst d && s.addrOk a && s.valOk b) (wideSrcs s.me.isWave a ++ [b]) [d] with
    form := State.unified }

def shkickBody (d : Opnd) (a : Opnd) (b : Opnd) (i : Iss) : M Unit := do
  let n := (← sval i b).toNat
  needOperand (1 ≤ n && n ≤ 32)
  let a ← wval i a i.rep
  watchAll ((List.range n).map fun k => (64, plainNeed, [(i.rep, a + BitVec.ofNat 64 (64 * k))]))
  let _ ← kickRows a n
  if (← getMe).prog.tok ≠ some true then
    modMe fun c => { c with prog := { c.prog with since := 0, old := [0], tok := some true } }
  modMe fun c => { c with prog := { c.prog with active := true } }
  let v ← alone (kickFrom a i.rep n 33)
  putScalar i d (BitVec.ofNat 64 v)

def execShkick (g : Guard) (d a b : Opnd) (s : State) : Host.Outcome State Fault Refusal :=
  runIssue (shkickReq g d a b s) (shkickBody d a b) s

/-- What `Seal` asks of its issue. -/
def sealReq (g : Guard) : Req :=
  (shReq g (fun _ => true) [] [])

/-- SEAL closes a non-empty open batch; a sixteenth waits (R280). -/
def sealBody (_ : Iss) : M Unit := do
  let s ← get
  if !s.me.openBatch.isEmpty then
    let left := s.me.sealed.filter fun b => b.any s.here.transferOpen
    if 15 ≤ left.length then hold .shBatch
    modMe fun c => { c with openBatch := [], sealed := left ++ [c.openBatch] }

def execSeal (g : Guard) (s : State) : Host.Outcome State Fault Refusal :=
  runIssue (sealReq g) sealBody s

/-- The status word of a transfer id (R289). -/
def State.transferStatus (s : State) (id : Nat) : Nat :=
  match Store.get none s.here.shuttle (id % 32) with
  | none => 0
  | some e =>
    if id / 32 % 2048 ≠ e.gen || e.team ≠ s.me.team || s.myTeam.isNone then 0
    else
      let st := match e.state with
        | .free => 0
        | .queued => 1
        | .running => 2
        | .done => 3
      if st = 0 then 0
      else st * 2 ^ 28 + (if e.err then 2 ^ 27 else 0) + (if e.cancel then 2 ^ 25 else 0) + (if e.gone then 2 ^ 24 else 0) +
        e.cause * 2 ^ 16 + e.flags.toNat * 2 ^ 11

/-- What `Cpyq` asks of its issue. -/
def cpyqReq (g : Guard) (kind : CpyqKind) (d : Opnd) (a : Opnd) : Req :=
  (shReq g (fun s => s.resDst d && (match kind with
    | .id => s.valOk a
    | .shadow => (s.shReg a).isSome
    | .free => true)) (if kind = .id then [a] else []) [d])

/-- CPYQ. Bits of an id above its 16 are ignored (DESIGN CHOICE, log 127). -/
def cpyqBody (kind : CpyqKind) (d : Opnd) (a : Opnd) (i : Iss) : M Unit := do
  let s ← get
  let v : Nat := match kind with
    | .id => s.transferStatus (field (s.sval i false a) 0 16)
    | .shadow => match s.shReg a with
      | some r => Store.get 0 s.here.shCause r
      | none => 0
    | .free => match s.myTeam with
      | some t => t.shuttle - s.here.shInUse t.tag
      | none => 0
  putScalar i d (BitVec.ofNat 64 v)

def execCpyq (g : Guard) (kind : CpyqKind) (d a : Opnd) (s : State) : Host.Outcome State Fault Refusal :=
  runIssue (cpyqReq g kind d a) (cpyqBody kind d a) s

/-- The barrier that a Shuttle instruction names (R284). -/
def shBarReq (g : Guard) (a : Opnd) (more : State → Bool) (srcs dsts : List Opnd) (wave : Bool) : Req :=
  { guard := g, cls := some 3, form := State.unified, ok := fun s => s.addrOk a && more s,
    srcs := wideSrcs wave a ++ srcs, dsts := dsts }

/-- Registers of a wide value. -/
def wideValSrcs (wave : Bool) (o : Opnd) : List Opnd :=
  match opOf o with
  | .k _ => if wave then [o, nextOpnd o] else [o]
  | _ => [o]

/-- What `Bari` asks of its issue. -/
def bariReq (g : Guard) (d : Opnd) (a : Opnd) (b : Opnd) (c : Opnd) (s : State) : Req :=
  (shBarReq g a (fun s => s.predOk d && s.valOk b && s.wideValOk c) (b :: wideValSrcs s.me.isWave c) [d] s.me.isWave)

def bariBody (d : Opnd) (a : Opnd) (b : Opnd) (c : Opnd) (i : Iss) : M Unit := do
  let n ← needCount (← sval i b)
  let p := ((← get).wideVal i c).toNat
  needOperand (p < 2 ^ 36)
  let (core, off) ← barsRow i a .bars
  let k ← getCore core
  let o := k.barrier off
  let can := barArrived o = 0 && barPend o = 0 && !k.waiters.any fun w => 2 ≤ w.kind && w.off = off
  if can then
    barOp core off fun o => barPut (barPut (barPut (barPut (barPut o 64 16 n) 48 16 0) 36 4 0) 40 4 0) 0 36 p
  putScalar i d (if can then 1 else 0)

def execBari (g : Guard) (d a b c : Opnd) (s : State) : Host.Outcome State Fault Refusal :=
  runIssue (bariReq g d a b c s) (bariBody d a b c) s

/-- What `Bara` asks of its issue. -/
def baraReq (g : Guard) (a : Opnd) (b : Opnd) (s : State) : Req :=
  (shBarReq g a (fun s => s.wideValOk b) (wideValSrcs s.me.isWave b) [] s.me.isWave)

def baraBody (a : Opnd) (b : Opnd) (i : Iss) : M Unit := do
  let n := ((← get).wideVal i b).toNat
  needOperand (1 ≤ n && n < 2 ^ 36)
  let (core, off) ← barsRow i a .bars
  barOp core off fun o => if 2 ^ 36 ≤ barPend o + n then barPut o 38 1 1 else barPut o 0 36 (barPend o + n)

def execBara (g : Guard) (a b : Opnd) (s : State) : Host.Outcome State Fault Refusal :=
  runIssue (baraReq g a b s) (baraBody a b) s

/-- What `Barw` asks of its issue. -/
def barwReq (g : Guard) (d : Opnd) (a : Opnd) (s : State) : Req :=
  (shBarReq g a (fun s => s.resDst d) [] [d] s.me.isWave)

/-- The request of a BARW: PEND = 0. -/
def barwAsks (a : Opnd) (i : Iss) : M Unit := do
  let id ← myId
  if (← getMe).prog.active then makeRequests []
  else
    let (core, off) ← barsRow i a .barsWait
    modMe fun c => { c with prog := { c.prog with tok := some false } }
    makeRequests
      [(core, { ctx := id, lane := 0, off := off, kind := 3, w64 := false, reg := 0, data := 0 })]

/-- BARW waits until PEND = 0 and reads STATUS (R291). -/
def barwBody (d : Opnd) (a : Opnd) (i : Iss) : M Unit := do
  barwAsks a i
  awaitLanes 1 .barrier { agent := true }
  acquired 2 4
  putScalar i d ((← getMe).prog.old.headD 0)

def execBarw (g : Guard) (d a : Opnd) (s : State) : Host.Outcome State Fault Refusal :=
  runIssue (barwReq g d a s) (barwBody d a) s

/-- What `Cpyx` asks of its issue. -/
def cpyxReq (g : Guard) (d : Opnd) (a : Opnd) : Req :=
  (shReq g (fun s => s.predOk d && s.valOk a) [a] [d])

/-- CPYX (R283, R292). Bits of the id above its 16 are ignored (DESIGN CHOICE, log 127). -/
def cpyxBody (d : Opnd) (a : Opnd) (i : Iss) : M Unit := do
  let s ← get
  let id := field (s.sval i false a) 0 16
  match Store.get none s.here.shuttle (id % 32) with
  | none => putScalar i d 0
  | some e =>
    if e.gen = id / 32 && s.myTeam.isSome && e.team = s.me.team && (e.state = .queued || e.state = .running) &&
        e.sent < e.lines then
      endUnsent s.hereId (id % 32) e .done true
      putScalar i d 1
    else putScalar i d 0

def execCpyx (g : Guard) (d a : Opnd) (s : State) : Host.Outcome State Fault Refusal :=
  runIssue (cpyxReq g d a) (cpyxBody d a) s

end Sys2Proof.Machine
end

