-- ==== Sys2Proof/Machine/Network.lean ====
section
/-! DEFINITION. Queue chains, messages, bins, key routes, calls and active messages: the network group, majors 0xA0 to
0xA7, and the arrivals of its flits (12_mesh.md R330 to R348). -/

namespace Sys2Proof.Machine

/-! Operands (R340). -/

def netReq (g : Guard) (uni : Bool) (ok : State → Bool) (srcs dsts : List Opnd) : Req :=
  { guard := g, cls := some 4, form := fun s => !uni || s.unified, ok := ok, srcs := srcs, dsts := dsts }

/-- A 64-bit value, or `zero`. -/
def State.addrZeroOk (s : State) (o : Opnd) : Bool := decide (opOf o = .zero) || s.addrOk o

/-- A 64-bit destination: an x register, or an even uniform pair of a wave. -/
def State.wideDst (s : State) (d : Opnd) : Bool :=
  if s.me.isWave then s.kPairOk d else
  match opOf d with
  | .prim _ => s.dstOk true true d
  | _ => false

/-- Sources of a `zero` or 64-bit operand. -/
def addrZeroSrcs (wave : Bool) (o : Opnd) : List Opnd := if opOf o = .zero then [] else wideSrcs wave o

/-- The value of such an operand; none for `zero`. -/
def State.addrZero (s : State) (i : Iss) (o : Opnd) : Option W64 := if opOf o = .zero then none else some (s.wide i o i.rep)

/-- Rows of the issuing core, checked as a store of the context (06_scratchpad.md R157): their offset. -/
def localRows (a : W64) (n align : Nat) : M Nat := do
  let s ← get
  let off := field a 0 17
  if !(validLocal a && off + n ≤ 0x18000 && s.rowsAllowed s.myDomain s.me.supervisor s.hereId off n true) then
    apertureFault a
  if off % align ≠ 0 then misalign a
  return off

/-- The launch number of the turn's context. -/
def State.myLnum (s : State) : W32 :=
  match s.myTeam with
  | some t => t.lnum
  | none => 0

/-- A Boolean into a predicate. -/
def putBool (i : Iss) (d : Opnd) (b : Bool) : M Unit := putScalar i d (if b then 1 else 0)

/-! Messages (R341, R342). -/

/-- The payload of a message: a plain load of rows of the cluster. -/
def payloadAt (i : Iss) (a : W64) (n : Nat) : M (List Byte) := do
  watchCheck n .load [(i.rep, a)]
  let s ← get
  match apertureTarget s.hereId a with
  | none => apertureFault a
  | some (core, off) =>
    if s.sys.retired.contains core || 0x18000 < off + n ||
        !s.rowsAllowed s.myDomain s.me.supervisor core off n false then apertureFault a
    if off % 4 ≠ 0 then misalign a
    machineCheck plainLoad [(i.rep, a)] [(i.rep, [.row core off n])]
    readPlace plainLoad (.row core off n)

/-- What `Msend` asks of its issue. -/
def msendReq (g : Guard) (d : Opnd) (a : Opnd) (b : Opnd) (c : Opnd) (s : State) : Req :=
  (netReq g true (fun s => s.predOk d && s.valOk a && s.addrOk b && s.valOk c) (a :: wideSrcs s.me.isWave b ++ [c]) [d])

def msendBody (rel : Bool) (d : Opnd) (a : Opnd) (b : Opnd) (c : Opnd) (i : Iss) : M Unit := do
  if rel then landUniform
  let n := (← sval i c).toNat
  needOperand (1 ≤ n && n ≤ 44)
  match (← get).target (← sval i a) with
  | none => putBool i d false
  | some dst =>
    let bs ← payloadAt i (← wval i b i.rep) n
    needChannel 7 dst
    let s ← get
    countEvent 0x16
    sendFlit s.hereId dst 7 (.msg · s.myLnum n bs)
    putBool i d true

def execMsend (g : Guard) (rel : Bool) (_scope : BitVec 3) (d a b c : Opnd) (s : State) :
    Host.Outcome State Fault Refusal :=
  runIssue (msendReq g d a b c s) (msendBody rel d a b c) s

/-- A message in its row of the ring (R333). -/
def messageRow (src : GlobalId) (len : Nat) (payload : List Byte) : List Byte :=
  (payload ++ List.replicate (48 - payload.length) 0) ++ natToBytes 8 (src.toNat * 2 ^ 32 + len) ++ List.replicate 8 0

/-- What `Mrecv` asks of its issue. -/
def mrecvReq (g : Guard) (d : Opnd) (a : Opnd) (s : State) : Req :=
  { netReq g false (fun s => s.wideDst d && s.addrZeroOk a) (addrZeroSrcs s.me.isWave a) [] with
    long := true, regs := fun w => if w then pairRegs w d else opRegs w d }

def mrecvBody (la : BitVec 4) (acq : Bool) (scope : BitVec 3) (d : Opnd) (a : Opnd) (i : Iss) : M Unit := do
  let to_ ← match (← get).addrZero i a with
    | none => pure none
    | some v => do
      watchCheck 64 .store [(i.rep, v)]
      let off ← localRows v 64 64
      pure (some off)
  let s ← get
  match s.myTeam.bind (·.ring) with
  | none => hold .loadOp { agent := true }
  | some r =>
    if r.count = 0 then hold .loadOp { agent := true }
    rowCheck (r.base + 64 * (r.head % r.rows)) 64
    let row := Store.bytes s.here.rows (r.base + 64 * (r.head % r.rows)) 64
    let r1 : Ring := { r with head := r.head + 1, count := r.count - 1 }
    modMyTeam fun t => { t with ring := some r1 }
    wakeParked s.hereId
    match to_ with
    | some off => writePlace plainLoad (.row s.hereId off 64) row
    | none => pure ()
    if acq then acquired 2 scope.toNat
    pendResult la.toNat true (s.wideWrites d (BitVec.ofNat 64 (bytesAt row 48 8)))

def execMrecv (la : BitVec 4) (g : Guard) (acq : Bool) (scope : BitVec 3) (d a : Opnd) (s : State) :
    Host.Outcome State Fault Refusal :=
  runIssue (mrecvReq g d a s) (mrecvBody la acq scope d a) s

/-! Bins and key routes (R334, R335, R343, R344). -/

/-- The value of a KSEND: 64 bits under .b64. -/
def State.ksendVal (s : State) (i : Iss) (w64 : Bool) (b : Opnd) : W64 :=
  if w64 then s.wide i b i.rep else ((s.sval i false b).setWidth 32).setWidth 64

/-- What `Ksend` asks of its issue. -/
def ksendReq (g : Guard) (w64 : Bool) (d : Opnd) (a : Opnd) (b : Opnd) (c : Opnd) (s : State) : Req :=
  (netReq g true (fun s => s.predOk d && s.addrOk a && (if w64 then s.addrOk b else s.valOk b) && s.valOk c)
    (wideSrcs s.me.isWave a ++ (if w64 then wideSrcs s.me.isWave b else [b]) ++ [c]) [d])

def ksendBody (rel : Bool) (w64 : Bool) (d : Opnd) (a : Opnd) (b : Opnd) (c : Opnd) (i : Iss) : M Unit := do
  if rel then landUniform
  let bin := (← sval i c).toNat
  needOperand (bin < 8)
  let key := (← wval i a i.rep).toNat
  let s ← get
  match s.myTeam with
  | none => putBool i d false
  | some t =>
    let (first, n) := Store.get (0, 0) t.routes bin
    if n = 0 then putBool i d false
    else
      match s.target (first + BitVec.ofNat 64 (key % n)) with
      | none => putBool i d false
      | some dst =>
        if 2 ^ 32 ≤ key / n then putBool i d false
        else
          needChannel 7 dst
          countEvent 0x16
          sendFlit s.hereId dst 7 (.key · t.lnum (BitVec.ofNat 3 bin) (key / n) w64 (s.ksendVal i w64 b))
          putBool i d true

def execKsend (g : Guard) (rel : Bool) (_scope : BitVec 3) (w64 : Bool) (d a b c : Opnd) (s : State) :
    Host.Outcome State Fault Refusal :=
  runIssue (ksendReq g w64 d a b c s) (ksendBody rel w64 d a b c) s

/-- What `RacfgBin` asks of its issue. -/
def racfgBinReq (g : Guard) (d : Opnd) (a : Opnd) (b : Opnd) (c : Opnd) (s : State) : Req :=
  (netReq g false (fun s => s.predOk d && s.addrOk a && s.valOk b && s.addrZeroOk c)
    (wideSrcs s.me.isWave a ++ b :: addrZeroSrcs s.me.isWave c) [d])

def racfgBinBody (d : Opnd) (a : Opnd) (b : Opnd) (c : Opnd) (i : Iss) : M Unit := do
  let v ← sval i b
  let rows := field v 8 9
  needOperand (v.toNat < 2 ^ 17 && field v 4 4 ≤ 8 && 1 ≤ rows && rows ≤ 256)
  let off ← localRows (← wval i a i.rep) (64 * rows) 64
  let bar ← match (← get).addrZero i c with
    | none => pure none
    | some w => do
      let o ← localRows w 16 16
      pure (some o)
  let s ← get
  let n := field v 0 3
  match s.myTeam with
  | none => putBool i d false
  | some t =>
    if (Store.get none t.bins n).isSome then putBool i d false
    else
      let b : Bin :=
        { base := off, rows := rows, w64 := v.getLsbD 3, op := field v 4 4, bar := bar, count := 0, drop := false,
          sat := false, flags := 0 }
      modMyTeam fun t => { t with bins := Store.set none t.bins n (some b) }
      wakeParked s.hereId
      putBool i d true

def execRacfgBin (g : Guard) (d a b c : Opnd) (s : State) : Host.Outcome State Fault Refusal :=
  runIssue (racfgBinReq g d a b c s) (racfgBinBody d a b c) s

/-- The number of a bin. -/
def binNo (i : Iss) (o : Opnd) : M Nat := do
  let n := (← sval i o).toNat
  needOperand (n < 8)
  return n

/-- What `RacfgUnbin` asks of its issue. -/
def racfgUnbinReq (g : Guard) (d : Opnd) (b : Opnd) : Req :=
  (netReq g false (fun s => s.predOk d && s.valOk b) [b] [d])

def racfgUnbinBody (d : Opnd) (b : Opnd) (i : Iss) : M Unit := do
  let n ← binNo i b
  let had := match (← get).myTeam with
    | some t => (Store.get none t.bins n).isSome
    | none => false
  modMyTeam fun t => { t with bins := Store.set none t.bins n none }
  putBool i d had

def execRacfgUnbin (g : Guard) (d b : Opnd) (s : State) : Host.Outcome State Fault Refusal :=
  runIssue (racfgUnbinReq g d b) (racfgUnbinBody d b) s

/-- What `RacfgRoute` asks of its issue. -/
def racfgRouteReq (g : Guard) (d : Opnd) (a : Opnd) (b : Opnd) (c : Opnd) : Req :=
  (netReq g false (fun s => s.predOk d && s.valOk a && s.valOk b && s.valOk c) [a, b, c] [d])

def racfgRouteBody (d : Opnd) (a : Opnd) (b : Opnd) (c : Opnd) (i : Iss) : M Unit := do
  let first ← sval i a
  let n := (← sval i b).toNat
  needOperand (n ≤ 65535)
  let bin ← binNo i c
  modMyTeam fun t => { t with routes := Store.set (0, 0) t.routes bin (first, n) }
  putBool i d true

def execRacfgRoute (g : Guard) (d a b c : Opnd) (s : State) : Host.Outcome State Fault Refusal :=
  runIssue (racfgRouteReq g d a b c) (racfgRouteBody d a b c) s

/-- The query word of a bin (R344). -/
def Bin.query (b : Bin) : W64 :=
  BitVec.ofNat 64 (b.count.toNat * 2 ^ 32 + (if b.drop then 64 else 0) + (if b.sat then 32 else 0) + b.flags.toNat)

/-- What `RacfgQuery` asks of its issue. -/
def racfgQueryReq (g : Guard) (d : Opnd) (b : Opnd) : Req :=
  { netReq g false (fun s => s.wideDst d && s.valOk b) [b] [] with
    regs := fun w => if w then pairRegs w d else opRegs w d }

def racfgQueryBody (d : Opnd) (b : Opnd) (i : Iss) : M Unit := do
  let n ← binNo i b
  let s ← get
  let v := match s.myTeam.bind fun t => Store.get none t.bins n with
    | some b => b.query
    | none => 0
  applyAll (s.wideWrites d v)

def execRacfgQuery (g : Guard) (d b : Opnd) (s : State) : Host.Outcome State Fault Refusal :=
  runIssue (racfgQueryReq g d b) (racfgQueryBody d b) s

/-! Queues and the receive ring (R330 to R333, R345). -/

/-- What `QcfgIn` asks of its issue. -/
def qcfgInReq (g : Guard) (d : Opnd) (a : Opnd) (b : Opnd) (c : Opnd) (s : State) : Req :=
  (netReq g false (fun s => s.predOk d && s.addrOk a && s.valOk b && s.valOk c) (wideSrcs s.me.isWave a ++ [b, c]) [d])

def qcfgInBody (w64 : Bool) (n : BitVec 3) (d : Opnd) (a : Opnd) (b : Opnd) (c : Opnd) (i : Iss) : M Unit := do
  let rows := (← sval i b).toNat
  needOperand (1 ≤ rows && rows ≤ 64)
  let off ← localRows (← wval i a i.rep) (64 * rows) 64
  let producer ← sval i c
  let s ← get
  match s.myTeam with
  | none => putBool i d false
  | some t =>
    match Store.get none t.inq n.toNat with
    | none =>
      let q : InQueue :=
        { base := off, rows := rows, producer := producer, w64 := w64, head := 0, count := 0, owed := 0 }
      modMyTeam fun t => { t with inq := Store.set none t.inq n.toNat (some q) }
      modMe fun c => { c with qi := some n.toNat }
      wakeParked s.hereId
      putBool i d true
    | some q =>
      let same := q.base = off && q.rows = rows && q.producer = producer && q.w64 = w64
      if same then modMe fun c => { c with qi := some n.toNat }
      putBool i d same

def execQcfgIn (g : Guard) (w64 : Bool) (n : BitVec 3) (d a b c : Opnd) (s : State) :
    Host.Outcome State Fault Refusal :=
  runIssue (qcfgInReq g d a b c s) (qcfgInBody w64 n d a b c) s

/-- A context of the core holds a binding for (C, N). -/
def State.boundOut (s : State) (core : GlobalId) (n : Nat) : Bool :=
  (s.me :: s.here.ctxs.map (·.2)).any fun c => c.present && match c.qo with
    | some b => b.core = core && b.queue = n
    | none => false

/-- What `QcfgOut` asks of its issue. -/
def qcfgOutReq (g : Guard) (d : Opnd) (a : Opnd) (b : Opnd) : Req :=
  (netReq g false (fun s => s.predOk d && s.valOk a && s.valOk b) [a, b] [d])

def qcfgOutBody (w64 : Bool) (n : BitVec 3) (d : Opnd) (a : Opnd) (b : Opnd) (i : Iss) : M Unit := do
  let k := (← sval i b).toNat
  needOperand (1 ≤ k && k ≤ 1024)
  let s ← get
  match s.target (s.sval i false a) with
  | none => putBool i d false
  | some core =>
    if s.boundOut core n.toNat then putBool i d false
    else
      let q : QoBind := { core := core, queue := n.toNat, w64 := w64, grant := k, credits := k }
      modMe fun c => { c with qo := some q }
      putBool i d true

def execQcfgOut (g : Guard) (w64 : Bool) (n : BitVec 3) (d a b : Opnd) (s : State) :
    Host.Outcome State Fault Refusal :=
  runIssue (qcfgOutReq g d a b) (qcfgOutBody w64 n d a b) s

/-- What `QcfgRx` asks of its issue. -/
def qcfgRxReq (g : Guard) (d : Opnd) (a : Opnd) (b : Opnd) (s : State) : Req :=
  (netReq g false (fun s => s.predOk d && s.addrOk a && s.valOk b) (wideSrcs s.me.isWave a ++ [b]) [d])

def qcfgRxBody (d : Opnd) (a : Opnd) (b : Opnd) (i : Iss) : M Unit := do
  let rows := (← sval i b).toNat
  needOperand (1 ≤ rows && rows ≤ 64)
  let off ← localRows (← wval i a i.rep) (64 * rows) 64
  let s ← get
  match s.myTeam with
  | none => putBool i d false
  | some t =>
    match t.ring with
    | none =>
      let r : Ring := { base := off, rows := rows, head := 0, count := 0 }
      modMyTeam fun t => { t with ring := some r }
      wakeParked s.hereId
      putBool i d true
    | some r => putBool i d (r.base = off && r.rows = rows)

def execQcfgRx (g : Guard) (d a b : Opnd) (s : State) : Host.Outcome State Fault Refusal :=
  runIssue (qcfgRxReq g d a b s) (qcfgRxBody d a b) s

/-- What `QcfgUnin` asks of its issue. -/
def qcfgUninReq (g : Guard) (d : Opnd) : Req :=
  (netReq g false (fun s => s.predOk d) [] [d])

def qcfgUninBody (d : Opnd) (i : Iss) : M Unit := do
  let had := (← getMe).qi.isSome
  modMe fun c => { c with qi := none }
  putBool i d had

def execQcfgUnin (g : Guard) (_n : BitVec 3) (d : Opnd) (s : State) : Host.Outcome State Fault Refusal :=
  runIssue (qcfgUninReq g d) (qcfgUninBody d) s

/-- What `QcfgUnout` asks of its issue. -/
def qcfgUnoutReq (g : Guard) (d : Opnd) : Req :=
  (netReq g false (fun s => s.predOk d) [] [d])

def qcfgUnoutBody (d : Opnd) (i : Iss) : M Unit := do
  let had := (← getMe).qo.isSome
  modMe fun c => { c with qo := none }
  putBool i d had

def execQcfgUnout (g : Guard) (_n : BitVec 3) (d : Opnd) (s : State) : Host.Outcome State Fault Refusal :=
  runIssue (qcfgUnoutReq g d) (qcfgUnoutBody d) s

/-- What `QcfgUnrx` asks of its issue. -/
def qcfgUnrxReq (g : Guard) (d : Opnd) : Req :=
  (netReq g false (fun s => s.predOk d) [] [d])

def qcfgUnrxBody (d : Opnd) (i : Iss) : M Unit := do
  let free := match (← get).myTeam.bind (·.ring) with
    | some r => r.count = 0
    | none => false
  if free then modMyTeam fun t => { t with ring := none }
  putBool i d free

def execQcfgUnrx (g : Guard) (d : Opnd) (s : State) : Host.Outcome State Fault Refusal :=
  runIssue (qcfgUnrxReq g d) (qcfgUnrxBody d) s

/-! Calls, returns and active messages (R337, R346 to R348). -/

/-- The value of the register after an operand's. -/
def State.nextVal (s : State) (i : Iss) (o : Opnd) : W64 := s.sval i false (nextOpnd o)

/-- The return word that a CALLAT names; none for no return. -/
def returnWord (i : Iss) (c : Opnd) : M Nat := do
  let s ← get
  let v := s.nextVal i c
  if s.me.isWave then
    if v = 0x1FFFF then return 0x1FFFF
    let a : W64 := 0xFFFFFF0000000000 ||| v
    localRows a 8 8
  else if v = 0 then return 0x1FFFF
  else localRows v 8 8

/-- What `Callat` asks of its issue. -/
def callatReq (g : Guard) (d : Opnd) (a : Opnd) (b : Opnd) (c : Opnd) (_s : State) : Req :=
  (netReq g true
    (fun s => s.predOk d && s.valOk a && s.valOk b && (if s.me.isWave then s.kPairOk c else s.xPairOk c))
    [a, b, c, nextOpnd c] [d])

def callatBody (d : Opnd) (a : Opnd) (b : Opnd) (c : Opnd) (i : Iss) : M Unit := do
  landUniform
  match (← get).target (← sval i a) with
  | none => putBool i d false
  | some dst =>
    let off ← returnWord i c
    needChannel 6 dst
    let s ← get
    let own := s.globalId s.hereId
    let tok := BitVec.ofNat 64 (own.toNat * 2 ^ 36 + s.me.team * 2 ^ 20 + off)
    countEvent 0x16
    sendTask s.hereId dst
      { entry := wordsFrom s.me.curSlot.pc (s.sval i true b), arg0 := s.sval i false c, arg1 := tok, sender := own,
        launch := s.myLnum, kind := 1 }
    putBool i d true

def execCallat (g : Guard) (d a b c : Opnd) (s : State) : Host.Outcome State Fault Refusal :=
  runIssue (callatReq g d a b c s) (callatBody d a b c) s

/-- What `Retm` asks of its issue. -/
def retmReq (g : Guard) (w64 : Bool) (d : Opnd) (a : Opnd) (b : Opnd) (s : State) : Req :=
  (netReq g true (fun s => s.predOk d && s.addrOk a && (if w64 then s.addrOk b else s.valOk b))
    (wideSrcs s.me.isWave a ++ (if w64 then wideSrcs s.me.isWave b else [b])) [d])

def retmBody (w64 : Bool) (d : Opnd) (a : Opnd) (b : Opnd) (i : Iss) : M Unit := do
  landUniform
  let tok ← wval i a i.rep
  let s ← get
  match s.target (BitVec.ofNat 64 (field tok 36 22)) with
  | none => putBool i d false
  | some dst =>
    if field tok 0 17 = 0x1FFFF then putBool i d false
    else
      needChannel 6 dst
      countEvent 0x16
      sendFlit s.hereId dst 6 (.ret · tok (s.ksendVal i w64 b) w64)
      putBool i d true

def execRetm (g : Guard) (w64 : Bool) (d a b : Opnd) (s : State) : Host.Outcome State Fault Refusal :=
  runIssue (retmReq g w64 d a b s) (retmBody w64 d a b) s

/-- The four registers of a wave's argument pair, or the two of a barrel thread's (R348). -/
def State.argsOk (s : State) (c : Opnd) : Bool :=
  if s.me.isWave then
    match opOf c with
    | .k n => n % 4 = 0 && n + 3 < s.kLimit
    | _ => false
  else s.xPairOk c

def argSrcs (wave : Bool) (c : Opnd) : List Opnd := if wave then [c, c + 1, c + 2, c + 3] else [c, c + 1]

/-- ARG0 and ARG1. -/
def State.args (s : State) (i : Iss) (c : Opnd) : W64 × W64 :=
  if s.me.isWave then (s.wide i c i.rep, s.wide i (c + 2) i.rep) else (s.sval i false c, s.sval i false (c + 1))

/-- What `Amsg` asks of its issue. -/
def amsgReq (g : Guard) (d : Opnd) (a : Opnd) (b : Opnd) (c : Opnd) (s : State) : Req :=
  { netReq g false (fun s => s.predOk d && s.valOk a && s.addrOk b && s.argsOk c)
    (a :: wideSrcs s.me.isWave b ++ argSrcs s.me.isWave c) [d] with priv := some { cause := 3 } }

def amsgBody (d : Opnd) (a : Opnd) (b : Opnd) (c : Opnd) (i : Iss) : M Unit := do
  landUniform
  let t ← sval i a
  let e ← wval i b i.rep
  let s ← get
  let dst := if t = 0x3FFFFF then some hostId else s.target t
  match dst with
  | none => putBool i d false
  | some dst =>
    let args := s.args i c
    needChannel 6 dst
    countEvent 0x16
    sendTask s.hereId dst
      { entry := e, arg0 := args.1, arg1 := args.2, sender := s.globalId s.hereId, launch := 0, kind := 2 }
    putBool i d true

def execAmsg (g : Guard) (d a b c : Opnd) (s : State) : Host.Outcome State Fault Refusal :=
  runIssue (amsgReq g d a b c s) (amsgBody d a b c) s

/-! Arrivals (R327, R331, R333, R334, R337). -/

/-- Where a flit for a launch's team stands: its team's tag, or what becomes of it. -/
inductive Bound where
  | team (tag : Nat)
  | away               -- pre-empted and not yet resumed
  | nowhere            -- no team of the launch here
  deriving DecidableEq, Repr

def Core.boundLaunch (c : Core) (lnum : W32) : Bound :=
  match c.teams.find? (·.lnum = lnum) with
  | some t => .team t.tag
  | none => if c.preempted.any (·.team.lnum = lnum) then .away else .nowhere

def Core.boundTag (c : Core) (tag : Nat) : Bound :=
  match c.team tag with
  | some t => .team t.tag
  | none => if c.preempted.any (·.team.tag = tag) then .away else .nowhere

/-- Takes a flit that can be parked to its core: checked, then kept back while an earlier one for the same place is
parked, then delivered by `put`, which answers whether there was room. One read back leaves its slot when it is delivered
or discarded (R327). -/
def deliver (h : Hdr) (p : Parkable) (ev : Ev) (bound : Core → Bound) (put : Nat → Nat → M Bool) : M Unit := do
  let s ← get
  match s.localCore h.dst with
  | none => pure ()
  | some core =>
    let k ← getCluster (clusterOf core)
    if h.reinj && (k.slotOf h p).isNone then pure ()
    else if ← acceptFlit core h ev then
      match if s.sys.retired.contains core then .nowhere else bound (s.core core) with
      | .nowhere =>
        lateArrival core
        leaveSlot core h p
      | .away => parkFlit core h p ev
      | .team tag =>
        if !h.reinj && k.parkedBefore h p then parkFlit core h p ev
        else if !(← put core tag) then parkFlit core h p ev
        else
          leaveSlot core h p
          if h.reinj then wakeParked core
    else leaveSlot core h p

/-- Appends an element to an inbound queue (R331). A width that differs from the queue's makes its value a free value
(log 23). -/
def appendElem (core tag n : Nat) (src : GlobalId) (w64 : Bool) (v : W64) : M Unit := do
  let s ← get
  match ((s.core core).team tag).bind fun t => Store.get none t.inq n with
  | none => pure ()
  | some q =>
    if q.producer ≠ src.setWidth 64 || q.capacity ≤ q.count then lateArrival core
    else
      let v := if q.w64 = w64 then v else freeWord 16 s.ticks
      let at_ := q.base + (q.head + q.count) % q.capacity * q.elemSize
      if !(s.core core).expected at_ q.elemSize tag then lateArrival core
      else
        modCore core fun c => { c with rows := Store.writeN c.rows at_ q.elemSize v.toNat }
        let q1 : InQueue := { q with count := q.count + 1 }
        modTeam core tag fun t => { t with inq := Store.set none t.inq n (some q1) }

/-- QDATA: elements arrive at a queue. -/
def execQdata (h : Hdr) (lnum : W32) (n : BitVec 3) (w64 : Bool) (elems : List W64) (s : State) :
    Host.Outcome State Fault Refusal :=
  (deliver h (.qdata lnum n w64 elems) (.qdata h lnum n w64 elems) (·.boundLaunch lnum) fun core tag => do
    let has := match (← getCore core).team tag with
      | some t => (Store.get none t.inq n.toNat).isSome
      | none => false
    if !has then return false
    for v in elems do
      appendElem core tag n.toNat h.src w64 v
    return true).toOutcome s

/-- A context's binding takes credits back, never beyond its grant (R331). -/
def Ctx.credited (c : Ctx) (src : GlobalId) (n amount : Nat) : Ctx :=
  match c.qo with
  | some b =>
    if b.core = src && b.queue = n then
      let b1 : QoBind := { b with credits := min b.grant (b.credits + amount) }
      { c with qo := some b1 }
    else c
  | none => c

/-- CREDIT: credits come back to a producer. -/
def execCredit (h : Hdr) (n : BitVec 3) (amount : Nat) (s : State) : Host.Outcome State Fault Refusal :=
  (do
    match (← get).localCore h.dst with
    | none => pure ()
    | some core =>
      if ← acceptFlit core h (.credit h n amount) then
        modCore core fun c => { c with ctxs := c.ctxs.map fun x => (x.1, x.2.credited h.src n.toNat amount) }
        : M Unit).toOutcome s

/-- MSG: a message arrives at the team's ring (R333). -/
def execMsg (h : Hdr) (lnum : W32) (len : Nat) (payload : List Byte) (s : State) : Host.Outcome State Fault Refusal :=
  (deliver h (.msg lnum len payload) (.msg h lnum len payload) (·.boundLaunch lnum) fun core tag => do
    match ((← getCore core).team tag).bind (·.ring) with
    | none => return false
    | some r =>
      if r.rows ≤ r.count then return false
      let at_ := r.base + 64 * ((r.head + r.count) % r.rows)
      if !(← getCore core).expected at_ 64 tag then lateArrival core
      else
        modCore core fun c =>
          { c with rows := Store.putBytes c.rows at_ (messageRow h.src len payload) }.cleanRows [at_ / 64]
        let r1 : Ring := { r with count := r.count + 1 }
        modTeam core tag fun t => { t with ring := some r1 }
      return true).toOutcome s

/-- KEY: an element arrives at a bin (R334). -/
def execKey (h : Hdr) (lnum : W32) (bin : BitVec 3) (slot : Nat) (w64 : Bool) (v : W64) (s : State) :
    Host.Outcome State Fault Refusal :=
  (deliver h (.key lnum bin slot w64 v) (.key h lnum bin slot w64 v) (·.boundLaunch lnum) fun core tag => do
    let has := match (← getCore core).team tag with
      | some t => (Store.get none t.bins bin.toNat).isSome
      | none => false
    if !has then return false
    combineElem core tag bin.toNat slot w64 v.toNat
    return true).toOutcome s

/-- RET: a value arrives at its return word (R337). -/
def execRetArrival (h : Hdr) (token value : W64) (w64 : Bool) (s : State) : Host.Outcome State Fault Refusal :=
  (deliver h (.ret token value w64) (.ret h token value w64) (·.boundTag (field token 20 16)) fun core tag => do
    let off := field token 0 17
    let t := (← getCore core).tag (off / 64)
    if off < 0x18000 && tagClass t = 4 && tagOwner t = tag then
      modCore core fun c =>
        let c1 : Core := { c with rows := Store.writeN c.rows off (if w64 then 8 else 4) value.toNat }
        (feWords w64 off).foldl (fun c o => c.setFull o true) c1
      serveAll core
    else lateArrival core
    return true).toOutcome s

end Sys2Proof.Machine
end

