-- ==== Sys2Proof/WellFormed.lean ====
section
/-! DEFINITION. Which terms of `Instr` are well formed: the combinations of fields that the spec makes
ILLEGAL-INSTRUCTION although each field alone is assigned (02_clauses.md R36, R37, R44, and each group's own
table). The decoder answers only well-formed terms. -/

namespace Sys2Proof

/-- Why a term is not well formed; each is an ILLEGAL-INSTRUCTION of R46. -/
inductive FormError where
  /-- a width code that the instruction does not take (R37, R82, R176, R182, R202, R232, R255) -/
  | width
  /-- an order, scope or bound that R37 or the instruction's own table forbids -/
  | order
  /-- a scope code above 5, or one that the instruction excludes -/
  | scope
  /-- a field that must be zero is not (R36, R40) -/
  | reserved
  /-- an atomic operation of 10 to 15 (R179, R206) -/
  | atomOp
  /-- an LEA shift of 7 (R102) -/
  | leaShift
  /-- a WAITB threshold of 15 (R81) -/
  | waitbCount
  /-- a WAITC that names no condition (R81) -/
  | waitcNone
  /-- a vector floating-point instruction with type 01 (R128) -/
  | vectorType
  /-- VFCMP.f32 with `hi` (R131) -/
  | cmpHi
  /-- an unassigned conversion code (R133, R137) -/
  | cvtCode
  /-- a rounding field on an exact conversion (R133, R137) -/
  | cvtRound
  /-- an unassigned VPACK or VUNPK kind (R181) -/
  | packKind
  /-- a mini-op unassigned, of the wrong kind, or with a modifier or b it does not take (R44, R113) -/
  | halfOp
  /-- the two halves name one destination (R44) -/
  | pairDest
  /-- the two destinations lie in one bank (R44) -/
  | pairBank
  /-- the two halves read more than three registers (R44) -/
  | pairReads
  /-- both halves are special-function or divide entries (R44) -/
  | pairUnits
  /-- a PFENCE that names no path (R256) -/
  | pfenceNone
  /-- a special register that does not exist or may not be written (R436) -/
  | sysReg
  /-- an unassigned TLBI kind (R442) -/
  | tlbiKind
  /-- an unassigned space of LDPHY or STPHY (R214) -/
  | phySpace
  /-- `gather` without `wait` (R368) -/
  | gatherNoWait
  deriving DecidableEq, Repr

/-- The first check of a list that fails. -/
def firstError : List (Bool × FormError) → Option FormError
  | [] => none
  | (ok, e) :: rest => if ok then firstError rest else some e

/-! Checks of format M (R37). -/

/-- Scope 0 with order 0, 0 to 5 otherwise. -/
def MemF.scopeOk (m : MemF) : Bool :=
  if m.order = 0 then m.scope = 0 else m.scope.toNat ≤ 5

/-- The row of R37 for loads. -/
def MemF.loadOk (m : MemF) : Bool :=
  m.order ≠ 3 && m.order ≠ 4 && m.scopeOk && (m.bound = 0 || 6 ≤ m.order.toNat)

/-- The row of R37 for stores. -/
def MemF.storeOk (m : MemF) : Bool :=
  (m.order = 0 || m.order = 1 || m.order = 3 || m.order = 5) && m.scopeOk && m.bound = 0

/-- The row of R37 for read-modify-writes. -/
def MemF.rmwOk (m : MemF) : Bool :=
  1 ≤ m.order.toNat && m.order.toNat ≤ 5 && m.scope.toNat ≤ 5 && m.bound = 0

/-- The operation field of ATOM and VATOM (R179, R206). -/
def MemF.atomOp (m : MemF) : BitVec 4 := m.off.extractLsb' 9 4

/-! The half-op table (R113). -/

/-- A row of the half-op table: the modifiers it allows, and what R44 must know of it. -/
structure HalfRow where
  mods : List Nat
  usesB : Bool
  readsD : Bool
  special : Bool
  deriving DecidableEq, Repr

/-- The modifiers of entries that round (R113). -/
def HalfRow.roundings : List Nat := [0, 1, 2, 3, 4, 5, 7]

/-- Integer entries 0x00 to 0x15 (R113). -/
def HalfRow.int : Nat → Option HalfRow
  | 0x00 | 0x01 => some ⟨[0, 1, 3], true, false, false⟩
  | 0x02 => some ⟨[0], true, false, false⟩
  | 0x03 => some ⟨[0, 2], true, false, false⟩
  | 0x04 => some ⟨[0], true, true, false⟩
  | 0x05 | 0x06 => some ⟨[0, 2], true, false, false⟩
  | 0x07 | 0x08 | 0x09 | 0x0A | 0x0B => some ⟨[0], true, false, false⟩
  | 0x0C => some ⟨[0, 2], true, false, false⟩
  | 0x0D => some ⟨[0, 1], true, false, false⟩
  | 0x0E | 0x0F | 0x10 | 0x11 => some ⟨[0], false, false, false⟩
  | 0x12 | 0x13 => some ⟨[0, 1], false, false, false⟩
  | 0x14 => some ⟨[0, 2], true, false, false⟩
  | 0x15 => some ⟨[0, 2], true, true, false⟩
  | _ => none

/-- Floating-point entries 0x20 to 0x34 (R113). -/
def HalfRow.float : Nat → Option HalfRow
  | 0x20 | 0x21 | 0x22 => some ⟨HalfRow.roundings, true, false, false⟩
  | 0x23 | 0x24 => some ⟨HalfRow.roundings, true, true, false⟩
  | 0x25 | 0x26 => some ⟨[0], true, false, false⟩
  | 0x27 | 0x28 => some ⟨[0], false, false, false⟩
  | 0x29 | 0x2A | 0x2B | 0x2C | 0x2D | 0x2E => some ⟨[0], false, false, true⟩
  | 0x2F => some ⟨HalfRow.roundings, true, false, true⟩
  | 0x30 => some ⟨HalfRow.roundings, false, false, true⟩
  | 0x31 | 0x32 | 0x33 | 0x34 => some ⟨HalfRow.roundings, false, false, false⟩
  | _ => none

/-- The entry a half names, when it is of the kind asked for. -/
def Half.row (isFloat : Bool) (h : Half) : Option HalfRow :=
  if isFloat then HalfRow.float h.op.toNat else HalfRow.int h.op.toNat

/-- R44 1 and 2 for one half: assigned, of the right kind, modifier listed, b zero where the entry reads none. -/
def Half.ok (isFloat : Bool) (h : Half) : Bool :=
  match h.row isFloat with
  | some r => r.mods.contains h.mod.toNat && (r.usesB || h.b = 0)
  | none => false

/-- The registers a half reads (R44 5). -/
def Half.reads (isFloat : Bool) (h : Half) : List Nat :=
  match h.row isFloat with
  | some r =>
    h.a.toNat :: ((if r.usesB then [h.b.toNat] else []) ++ (if r.readsD then [h.d.toNat] else []))
  | none => []

/-- Whether a half uses the special-function or divide unit. -/
def Half.special (isFloat : Bool) (h : Half) : Bool :=
  match h.row isFloat with
  | some r => r.special
  | none => false

/-- R44 for a paired word. -/
def Half.pairError (fa fb : Bool) (x y : Half) : Option FormError :=
  firstError
    [(x.ok fa && y.ok fb, .halfOp),
     (x.d ≠ y.d, .pairDest),
     (x.d.toNat % 4 ≠ y.d.toNat % 4, .pairBank),
     ((x.reads fa ++ y.reads fb).dedup.length ≤ 3, .pairReads),
     (!(x.special fa && y.special fb), .pairUnits)]

/-! Special registers (R436). -/

/-- The registers that MFS reads under its own row; `cl_ovfs` (6, 3) has the row CL_OVFS_READ. -/
def sysReadable (sel index : Nat) : Bool :=
  match sel with
  | 0x00 => index ≤ 5
  | 0x01 => index ≤ 3
  | 0x02 => index ≤ 5
  | 0x03 => index ≤ 7
  | 0x04 => index ≤ 63
  | 0x05 => index ≤ 15
  | 0x06 => index ≤ 5 && index ≠ 3
  | 0x07 => index ≤ 6
  | _ => false

/-- The registers that MTS writes under its own row: those with a row of their own (`cctl`, `bfmt`, `pgsel`,
`cl_amode`, `cl_ovf`, the watermarks) and the wholly read-only ones are left out. -/
def sysWritable (sel index : Nat) : Bool :=
  match sel with
  | 0x00 => index = 0 || index = 2 || index = 5
  | 0x01 => index = 1 || index = 2 || index = 3
  | 0x06 => index = 0 || index = 3 || index = 4 || index = 5
  | _ => false

/-! Conversions (R133, R137). -/

/-- The exact codes of VCVT. -/
def vcvtExact (code : Nat) : Bool := 7 ≤ code && code ≤ 10

/-- The codes of VCVT that read b. -/
def vcvtUsesB (code : Nat) : Bool := code = 11 || code = 12 || code = 15 || code = 16

/-- The codes of FCVT that take no rounding: exact and class codes. -/
def fcvtExact (code : Nat) : Bool :=
  code = 12 || code = 13 || code = 16 || code = 19 || code = 21 || code = 23 || code = 26 || code = 27

/-- The check of a vector floating-point member without further rules: no .f64 (R128). -/
def FTy.vectorError (t : FTy) : Option FormError :=
  firstError [(t ≠ .f64, .vectorType)]

/-- The first rule a term breaks, if any. -/
def Instr.formError : Instr → Option FormError
  | .lea _ _ s _ _ _ => firstError [(s.toNat ≤ 6, .leaShift)]
  | .waitb _ _ t => firstError [(t ≠ 15, .waitbCount)]
  | .waitc _ f => firstError [(f ≠ 0, .waitcNone)]
  | .poll m => firstError [(m.width = 2 || m.width = 3, .width),
      (m.order = 0 || m.order = 1 || m.order = 2 || m.order = 5, .order),
      (m.scopeOk, .scope), (m.bound = 0, .order)]
  | .ld m => firstError [(m.width.toNat ≤ 4, .width), (m.loadOk, .order)]
  | .st m => firstError [(m.width.toNat ≤ 4, .width), (m.storeOk, .order), (m.la = 0, .reserved)]
  | .ldc m => firstError [(m.width.toNat ≤ 4, .width), (m.loadOk, .order)]
  | .atom m => firstError [(m.width = 2 || m.width = 3, .width), (m.rmwOk, .order), (m.atomOp.toNat ≤ 9, .atomOp)]
  | .cas m => firstError [(m.width = 2 || m.width = 3, .width), (m.rmwOk, .order)]
  | .ldlod m => firstError [(m.width.toNat ≤ 3, .width), (m.loadOk, .order)]
  | .pref m => firstError [(m.width.toNat ≤ 5, .width), (m.order = 0 && m.bound = 0, .order),
      (m.scope = 1 || m.scope = 4, .scope), (m.la = 0 && m.data = 0, .reserved)]
  | .rbump m => firstError [(m.width = 3, .width), (m.order = 3 || m.order = 5, .order),
      (2 ≤ m.scope.toNat && m.scope.toNat ≤ 5, .scope), (m.bound = 0 && m.reuse = 0, .reserved)]
  | .rsnap m => firstError [(m.width = 3, .width), (m.order = 1 || m.order = 2 || m.order = 5, .order),
      (2 ≤ m.scope.toNat && m.scope.toNat ≤ 5, .scope), (m.bound = 0 && m.reuse = 0, .reserved)]
  | .vld m => firstError [(m.width.toNat ≤ 2 || m.width = 5, .width), (m.loadOk, .order)]
  | .vst m => firstError [(m.width.toNat ≤ 2 || m.width = 5, .width), (m.storeOk, .order), (m.la = 0, .reserved)]
  | .vlds m => firstError [(m.width.toNat ≤ 2 || m.width = 5, .width), (m.loadOk, .order), (m.reuse = 0, .reserved)]
  | .vsts m => firstError [(m.width.toNat ≤ 2 || m.width = 5, .width), (m.storeOk, .order),
      (m.reuse = 0 && m.la = 0, .reserved)]
  | .vatom m => firstError [(m.width = 2, .width), (m.rmwOk, .order), (m.atomOp.toNat ≤ 9, .atomOp)]
  | .ldfe m => firstError [(m.width = 2 || m.width = 3, .width), (m.order = 2 || m.order = 5, .order),
      (m.scope.toNat ≤ 5, .scope), (m.bound = 0 && m.reuse = 0, .reserved)]
  | .stfe m => firstError [(m.width = 2 || m.width = 3, .width), (m.order = 3 || m.order = 5, .order),
      (m.scope.toNat ≤ 5, .scope), (m.bound = 0 && m.reuse = 0 && m.la = 0, .reserved)]
  | .vfadd _ _ t _ _ _ => t.vectorError
  | .vfsub _ _ t _ _ _ => t.vectorError
  | .vfmul _ _ t _ _ _ => t.vectorError
  | .vfma _ _ _ t _ _ _ _ => t.vectorError
  | .vfminmax _ _ t _ _ _ => t.vectorError
  | .vfdiv _ _ _ t _ _ _ => t.vectorError
  | .vfsqrt _ _ _ t _ _ => t.vectorError
  | .vfrcp _ _ _ t _ _ => t.vectorError
  | .vfrsq _ _ _ t _ _ => t.vectorError
  | .vfexp2 _ _ _ t _ _ => t.vectorError
  | .vflog2 _ _ _ t _ _ => t.vectorError
  | .vfsin _ _ _ t _ _ => t.vectorError
  | .vfcos _ _ _ t _ _ => t.vectorError
  | .vfcmp _ hi _ t _ _ _ => firstError [(t ≠ .f64, .vectorType), (!(t = .f32 && hi), .cmpHi)]
  | .vfclass _ t _ _ => t.vectorError
  | .vcvt _ r code _ _ b => firstError [(code.toNat ≤ 16, .cvtCode), (!vcvtExact code.toNat || r = .dyn, .cvtRound),
      (vcvtUsesB code.toNat || b = 0, .reserved)]
  | .fcvt _ r code _ _ => firstError [(code.toNat ≤ 27, .cvtCode), (!fcvtExact code.toNat || r = .dyn, .cvtRound)]
  | .vpack _ k _ _ _ => firstError [(k.toNat ≤ 6, .packKind)]
  | .vunpk _ k _ _ _ => firstError [(k.toNat ≤ 3, .packKind)]
  | .pairI x y => Half.pairError false false x y
  | .pairF x y => Half.pairError true true x y
  | .pairIF x y => Half.pairError false true x y
  | .kacc _ _ k _ b => firstError [(k = .prod || b = 0, .reserved)]
  | .mdrain _ f32 _ _ _ _ b => firstError [(!f32 || b = 0, .reserved)]
  | .mstat _ k clr _ a => firstError [(k = .pair || !clr, .reserved), (k ≠ .pair || a = 0, .reserved)]
  | .cpyq _ k _ a => firstError [(k ≠ .free || a = 0, .reserved)]
  | .msend _ _ scope _ _ _ _ => firstError [(scope.toNat ≤ 5, .scope)]
  | .mrecv _ _ _ scope _ _ => firstError [(scope.toNat ≤ 5, .scope)]
  | .ksend _ _ scope _ _ _ _ _ => firstError [(scope.toNat ≤ 5, .scope)]
  | .rpop _ _ _ wait gather _ _ => firstError [(!gather || wait, .gatherNoWait)]
  | .barsInit _ scope _ _ _ => firstError [(scope.toNat ≤ 5, .scope)]
  | .barsArrive _ scope _ _ _ => firstError [(scope.toNat ≤ 5, .scope)]
  | .barsWait _ scope _ _ _ => firstError [(scope.toNat ≤ 5, .scope)]
  | .barsSync _ scope _ _ => firstError [(scope.toNat ≤ 5, .scope)]
  | .fence _ _ scope => firstError [(scope.toNat ≤ 5, .scope)]
  | .pfence _ paths => firstError [(paths ≠ 0, .pfenceNone)]
  | .mfs _ grp index _ => firstError [(sysReadable grp.toNat index.toNat, .sysReg)]
  | .mts _ grp index _ => firstError [(sysWritable grp.toNat index.toNat, .sysReg)]
  | .bfmtWrite _ n _ => firstError [(n.toNat ≤ 5, .sysReg)]
  | .tierWmWrite _ tier _ => firstError [(tier.toNat ≤ 2, .sysReg)]
  | .tlbi _ kind scope a b => firstError [(kind.toNat ≤ 2, .tlbiKind), (2 ≤ scope.toNat && scope.toNat ≤ 5, .scope),
      (kind = 2 || a = 0, .reserved), (kind ≠ 0 || b = 0, .reserved)]
  | .icinv _ scope all a b => firstError [(1 ≤ scope.toNat && scope.toNat ≤ 5, .scope),
      (!all || (a = 0 && b = 0), .reserved)]
  | .ldphy _ space _ _ _ _ => firstError [(space.toNat ≤ 5, .phySpace)]
  | .stphy _ space _ _ _ _ => firstError [(space.toNat ≤ 5, .phySpace)]
  | _ => none

/-- A term is well formed when it breaks no rule. -/
def Instr.wf (i : Instr) : Bool := i.formError.isNone

end Sys2Proof
end

