-- ==== Sys2Proof/Decode.lean ====
section
/-! DEFINITION. The decoder, total on any words and bytes and rejecting by name, and after it the encoder, both
written from the encoding tables of the spec: the formats of 02_clauses.md R34, the major opcode map of R47, and
each group's own table. -/

namespace Sys2Proof

/-- Why a word in an instruction position is refused; each is an ILLEGAL-INSTRUCTION of R46. -/
inductive Reject where
  /-- fewer than eight bytes -/
  | short
  /-- a header word in an instruction position (R26) -/
  | header
  /-- a major opcode that R47 does not list -/
  | reservedMajor
  /-- an extension, function, type or rounding value that is not assigned -/
  | unassigned
  /-- a reserved or unused field that is not zero (R36) -/
  | reservedField
  /-- a combination of fields that a rule forbids -/
  | form (e : FormError)
  deriving DecidableEq, Repr

/-- What the parsers below answer. -/
abbrev Parse := Except Reject

/-! The formats of R34: each as its fields, packed into a word and taken out of one. -/

/-- Format A without its major opcode. -/
structure AWord where
  ext : BitVec 4
  g : Guard
  fn : BitVec 8
  d : Opnd
  a : Opnd
  b : Opnd
  c : Opnd
  deriving DecidableEq, Repr

/-- Format I without its major opcode. -/
structure IWord where
  ext : BitVec 4
  g : Guard
  d : Opnd
  a : Opnd
  imm : BitVec 28
  deriving DecidableEq, Repr

/-- Format L without its major opcode. -/
structure LWord where
  fn : BitVec 4
  g : Guard
  d : Opnd
  zero : BitVec 6
  imm : BitVec 32
  deriving DecidableEq, Repr

/-- Format B without its major opcode. -/
structure BWord where
  fn : BitVec 4
  g : Guard
  ext : BitVec 8
  zero : BitVec 8
  off : BitVec 32
  deriving DecidableEq, Repr

/-- The major opcode of a word. -/
def majorOf (w : W64) : BitVec 8 := w.extractLsb' 56 8

def AWord.pack (major : BitVec 8) (r : AWord) : W64 :=
  major ++ r.ext ++ r.g ++ r.fn ++ r.d ++ r.a ++ r.b ++ r.c

def AWord.of (w : W64) : AWord :=
  { ext := w.extractLsb' 52 4, g := w.extractLsb' 48 4, fn := w.extractLsb' 40 8, d := w.extractLsb' 30 10,
    a := w.extractLsb' 20 10, b := w.extractLsb' 10 10, c := w.extractLsb' 0 10 }

def IWord.pack (major : BitVec 8) (r : IWord) : W64 :=
  major ++ r.ext ++ r.g ++ r.d ++ r.a ++ r.imm

def IWord.of (w : W64) : IWord :=
  { ext := w.extractLsb' 52 4, g := w.extractLsb' 48 4, d := w.extractLsb' 38 10, a := w.extractLsb' 28 10,
    imm := w.extractLsb' 0 28 }

def LWord.pack (major : BitVec 8) (r : LWord) : W64 :=
  major ++ r.fn ++ r.g ++ r.d ++ r.zero ++ r.imm

def LWord.of (w : W64) : LWord :=
  { fn := w.extractLsb' 52 4, g := w.extractLsb' 48 4, d := w.extractLsb' 38 10, zero := w.extractLsb' 32 6,
    imm := w.extractLsb' 0 32 }

def BWord.pack (major : BitVec 8) (r : BWord) : W64 :=
  major ++ r.fn ++ r.g ++ r.ext ++ r.zero ++ r.off

def BWord.of (w : W64) : BWord :=
  { fn := w.extractLsb' 52 4, g := w.extractLsb' 48 4, ext := w.extractLsb' 40 8, zero := w.extractLsb' 32 8,
    off := w.extractLsb' 0 32 }

def MemF.pack (major : BitVec 8) (m : MemF) : W64 :=
  major ++ m.la ++ m.guard ++ m.data ++ m.base ++ m.width ++ m.order ++ m.scope ++ m.bound ++ m.reuse ++ m.off

def MemF.of (w : W64) : MemF :=
  { la := w.extractLsb' 52 4, guard := w.extractLsb' 48 4, data := w.extractLsb' 38 10,
    base := w.extractLsb' 28 10, width := w.extractLsb' 25 3, order := w.extractLsb' 22 3,
    scope := w.extractLsb' 19 3, bound := w.extractLsb' 15 4, reuse := w.extractLsb' 13 2,
    off := w.extractLsb' 0 13 }

/-- Format P (R43). -/
def Half.pack (major : BitVec 8) (x y : Half) : W64 :=
  major ++ x.op ++ x.d ++ x.a ++ x.b ++ x.mod ++ y.op ++ y.d ++ y.a ++ y.b ++ y.mod

def Half.of (w : W64) : Half × Half :=
  ({ op := w.extractLsb' 50 6, d := w.extractLsb' 44 6, a := w.extractLsb' 38 6, b := w.extractLsb' 32 6,
     mod := w.extractLsb' 28 4 },
   { op := w.extractLsb' 22 6, d := w.extractLsb' 16 6, a := w.extractLsb' 10 6, b := w.extractLsb' 4 6,
     mod := w.extractLsb' 0 4 })

/-! Fields of the function byte. -/

def fnSub (fn : BitVec 8) : BitVec 6 := fn.extractLsb' 2 6
def fnTy (fn : BitVec 8) : BitVec 2 := fn.extractLsb' 0 2
def fnHi3 (fn : BitVec 8) : BitVec 3 := fn.extractLsb' 5 3
def fnMid3 (fn : BitVec 8) : BitVec 3 := fn.extractLsb' 2 3
def fnLo5 (fn : BitVec 8) : BitVec 5 := fn.extractLsb' 0 5
def fnHi2 (fn : BitVec 8) : BitVec 2 := fn.extractLsb' 6 2
def fnBit (fn : BitVec 8) (i : Nat) : Bool := fn.getLsbD i

/-- A bit as a one-bit field. -/
def bit (b : Bool) : BitVec 1 := BitVec.ofBool b

/-- Sub and type (R101). -/
def packSubTy (s : BitVec 6) (t : BitVec 2) : BitVec 8 := s ++ t
/-- RND, SUB and TYPE (R128). -/
def packRst (r s : BitVec 3) (t : BitVec 2) : BitVec 8 := r ++ s ++ t
/-- RND and CODE (R128). -/
def packRc (r : BitVec 3) (c : BitVec 5) : BitVec 8 := r ++ c
/-- A three-bit field, two bits and three bits. -/
def pack323 (x : BitVec 3) (y : BitVec 2) (z : BitVec 3) : BitVec 8 := x ++ y ++ z
/-- A three-bit field and five single bits. -/
def pack3b (x : BitVec 3) (p q r s t : Bool) : BitVec 8 := x ++ bit p ++ bit q ++ bit r ++ bit s ++ bit t
/-- Four single bits and four zero bits. -/
def pack4b (p q r s : Bool) : BitVec 8 := bit p ++ bit q ++ bit r ++ bit s ++ 0#4
/-- Accumulator number, three bits, three single bits (R140). -/
def packAcc (i : BitVec 2) (k : BitVec 3) (p q r : Bool) : BitVec 8 := i ++ k ++ bit p ++ bit q ++ bit r

/-! Codes of the enumerations. -/

def IntTy.code : IntTy → BitVec 2
  | .s32 => 0 | .z32 => 1 | .s64 => 2 | .z64 => 3

def IntTy.of (x : BitVec 2) : IntTy :=
  if x = 0 then .s32 else if x = 1 then .z32 else if x = 2 then .s64 else .z64

def Cond.code : Cond → BitVec 6
  | .eq => 0 | .ne => 1 | .lt => 2 | .le => 3 | .gt => 4 | .ge => 5

def Cond.of (x : BitVec 6) : Option Cond :=
  match x.toNat with
  | 0 => some .eq | 1 => some .ne | 2 => some .lt | 3 => some .le | 4 => some .gt | 5 => some .ge | _ => none

def CvtaMode.code : CvtaMode → BitVec 6
  | .tocl => 0 | .toloc => 1 | .tovirt => 2

def CvtaMode.of (x : BitVec 6) : Option CvtaMode :=
  match x.toNat with
  | 0 => some .tocl | 1 => some .toloc | 2 => some .tovirt | _ => none

def Win.code : Win → BitVec 6
  | .local => 0 | .clus => 1 | .prick => 2 | .seg => 3

def Win.of (x : BitVec 6) : Option Win :=
  match x.toNat with
  | 0 => some .local | 1 => some .clus | 2 => some .prick | 3 => some .seg | _ => none

def MulMode.code : MulMode → BitVec 6
  | .lo => 0 | .hi => 1 | .sat => 2

def MulMode.of (x : BitVec 6) : Option MulMode :=
  match x.toNat with
  | 0 => some .lo | 1 => some .hi | 2 => some .sat | _ => none

def ShOp.code : ShOp → BitVec 6
  | .shl => 0 | .shr => 1 | .rotl => 2 | .rotr => 3

def ShOp.of (x : BitVec 6) : Option ShOp :=
  match x.toNat with
  | 0 => some .shl | 1 => some .shr | 2 => some .rotl | 3 => some .rotr | _ => none

def ShufOp.code : ShufOp → BitVec 6
  | .idx => 0 | .xor => 1 | .rot => 2

def ShufOp.of (x : BitVec 6) : Option ShufOp :=
  match x.toNat with
  | 0 => some .idx | 1 => some .xor | 2 => some .rot | _ => none

def RedOp.code : RedOp → BitVec 6
  | .add => 0 | .min => 1 | .max => 2 | .and => 3 | .or => 4 | .xor => 5

def RedOp.of (x : BitVec 6) : Option RedOp :=
  match x.toNat with
  | 0 => some .add | 1 => some .min | 2 => some .max | 3 => some .and | 4 => some .or | 5 => some .xor | _ => none

def Rnd.code : Rnd → BitVec 3
  | .dyn => 0 | .rne => 1 | .rtz => 2 | .rup => 3 | .rdn => 4 | .rna => 5 | .rto => 7

def Rnd.of (x : BitVec 3) : Option Rnd :=
  match x.toNat with
  | 0 => some .dyn | 1 => some .rne | 2 => some .rtz | 3 => some .rup | 4 => some .rdn | 5 => some .rna
  | 7 => some .rto | _ => none

def FTy.code : FTy → BitVec 2
  | .f32 => 0 | .f64 => 1 | .f16 => 2 | .bf16 => 3

def FTy.of (x : BitVec 2) : FTy :=
  if x = 0 then .f32 else if x = 1 then .f64 else if x = 2 then .f16 else .bf16

def FmaOp.code : FmaOp → BitVec 3
  | .fma => 0 | .fms => 1 | .fnma => 2 | .fnms => 3

def FmaOp.of (x : BitVec 3) : Option FmaOp :=
  match x.toNat with
  | 0 => some .fma | 1 => some .fms | 2 => some .fnma | 3 => some .fnms | _ => none

def FMinMax.code : FMinMax → BitVec 3
  | .min => 0 | .max => 1 | .minnum => 2 | .maxnum => 3

def FMinMax.of (x : BitVec 3) : Option FMinMax :=
  match x.toNat with
  | 0 => some .min | 1 => some .max | 2 => some .minnum | 3 => some .maxnum | _ => none

def FCond.code : FCond → BitVec 3
  | .eq => 0 | .ne => 1 | .lt => 2 | .le => 3 | .gt => 4 | .ge => 5 | .un => 6 | .ord => 7

def FCond.of (x : BitVec 3) : FCond :=
  match x.toNat with
  | 0 => .eq | 1 => .ne | 2 => .lt | 3 => .le | 4 => .gt | 5 => .ge | 6 => .un | _ => .ord

def AccKind.code : AccKind → BitVec 3
  | .f32 => 0 | .prod => 1 | .f64 => 2 | .s32 => 3 | .s64 => 4

def AccKind.of (x : BitVec 3) : Option AccKind :=
  match x.toNat with
  | 0 => some .f32 | 1 => some .prod | 2 => some .f64 | 3 => some .s32 | 4 => some .s64 | _ => none

def CpyqKind.code : CpyqKind → BitVec 6
  | .id => 0 | .shadow => 1 | .free => 2

def CpyqKind.of (x : BitVec 6) : Option CpyqKind :=
  match x.toNat with
  | 0 => some .id | 1 => some .shadow | 2 => some .free | _ => none

def MstatKind.code : MstatKind → BitVec 6
  | .pair => 0 | .latch => 1 | .ter => 2

def MstatKind.of (x : BitVec 6) : Option MstatKind :=
  match x.toNat with
  | 0 => some .pair | 1 => some .latch | 2 => some .ter | _ => none

def FenceOrd.code : FenceOrd → BitVec 3
  | .acq => 2 | .rel => 3 | .acqrel => 4 | .sc => 5

def FenceOrd.of (x : BitVec 3) : Option FenceOrd :=
  match x.toNat with
  | 2 => some .acq | 3 => some .rel | 4 => some .acqrel | 5 => some .sc | _ => none

/-! Steps of the parsers: each checks one thing and goes on. -/

/-- A field that must be zero (R36). -/
def zeroField {n : Nat} (x : BitVec n) (k : Parse Instr) : Parse Instr :=
  if x = 0 then k else .error .reservedField

/-- A value that must be assigned. -/
def assigned {α : Type} (x : Option α) (k : α → Parse Instr) : Parse Instr :=
  match x with
  | some v => k v
  | none => .error .unassigned

/-- A function or extension value that must equal one. -/
def mustBe {n : Nat} (x v : BitVec n) (k : Parse Instr) : Parse Instr :=
  if x = v then k else .error .unassigned

/-- The types .z32 and .z64 alone (R102). -/
def wideZ (t : BitVec 2) (k : Bool → Parse Instr) : Parse Instr :=
  if t = 1 then k false else if t = 3 then k true else .error .unassigned

/-- The types .s32 and .z32 alone (R109); true is signed. -/
def narrow (t : BitVec 2) (k : Bool → Parse Instr) : Parse Instr :=
  if t = 0 then k true else if t = 1 then k false else .error .unassigned

/-- A field of one bit's meaning: 0 or 1. -/
def zeroOne {n : Nat} (x : BitVec n) (k : Bool → Parse Instr) : Parse Instr :=
  if x = 0 then k false else if x = 1 then k true else .error .unassigned

/-! The integer group, 0x00 to 0x1F (R101, R102). -/

/-- Members whose only variant is their type, with operands d, a, b. -/
def intDab (r : AWord) (k : IntTy → Parse Instr) : Parse Instr :=
  zeroField r.ext <| mustBe (fnSub r.fn) 0 <| zeroField r.c <| k (.of (fnTy r.fn))

def intDabc (r : AWord) (k : IntTy → Parse Instr) : Parse Instr :=
  zeroField r.ext <| mustBe (fnSub r.fn) 0 <| k (.of (fnTy r.fn))

def zDab (r : AWord) (k : Bool → Parse Instr) : Parse Instr :=
  zeroField r.ext <| mustBe (fnSub r.fn) 0 <| zeroField r.c <| wideZ (fnTy r.fn) k

def zDabc (r : AWord) (k : Bool → Parse Instr) : Parse Instr :=
  zeroField r.ext <| mustBe (fnSub r.fn) 0 <| wideZ (fnTy r.fn) k

def zDa (r : AWord) (k : Bool → Parse Instr) : Parse Instr :=
  zeroField r.ext <| mustBe (fnSub r.fn) 0 <| zeroField r.b <| zeroField r.c <| wideZ (fnTy r.fn) k

def parseInt0 (m : BitVec 4) (w : W64) : Parse Instr :=
  let r := AWord.of w
  match m.toNat with
  | 0x0 => intDab r fun t => .ok (.add r.g t r.d r.a r.b)
  | 0x1 => intDab r fun t => .ok (.sub r.g t r.d r.a r.b)
  | 0x2 =>
    let q := IWord.of w
    if q.ext.toNat < 4 then .ok (.addi q.g (.of (q.ext.extractLsb' 0 2)) q.d q.a q.imm) else .error .unassigned
  | 0x3 => intDab r fun t => .ok (.mul r.g t r.d r.a r.b)
  | 0x4 => intDab r fun t => .ok (.mulh r.g t r.d r.a r.b)
  | 0x5 => mustBe (fnSub r.fn) 0 <| zeroField r.c <| .ok (.div r.ext r.g (.of (fnTy r.fn)) r.d r.a r.b)
  | 0x6 => mustBe (fnSub r.fn) 0 <| zeroField r.c <| .ok (.rem r.ext r.g (.of (fnTy r.fn)) r.d r.a r.b)
  | 0x7 => zeroField r.ext <| zeroField r.c <| zeroOne (fnSub r.fn) fun mx =>
      .ok (.minmax r.g (.of (fnTy r.fn)) mx r.d r.a r.b)
  | 0x8 => zDab r fun z => .ok (.and r.g z r.d r.a r.b)
  | 0x9 => zDab r fun z => .ok (.or r.g z r.d r.a r.b)
  | 0xA => zDab r fun z => .ok (.xor r.g z r.d r.a r.b)
  | 0xB => zDab r fun z => .ok (.andn r.g z r.d r.a r.b)
  | 0xC => zDab r fun z => .ok (.shl r.g z r.d r.a r.b)
  | 0xD => intDab r fun t => .ok (.shr r.g t r.d r.a r.b)
  | 0xE => zeroField r.ext <| zeroField r.c <| wideZ (fnTy r.fn) fun z => zeroOne (fnSub r.fn) fun left =>
      .ok (.rot r.g z left r.d r.a r.b)
  | _ => intDabc r fun t => .ok (.bfx r.g t r.d r.a r.b r.c)

def parseInt1 (m : BitVec 4) (w : W64) : Parse Instr :=
  let r := AWord.of w
  match m.toNat with
  | 0x0 => zDabc r fun z => .ok (.bfi r.g z r.d r.a r.b r.c)
  | 0x1 => zDa r fun z => .ok (.popc r.g z r.d r.a)
  | 0x2 => zeroField r.ext <| zeroField r.b <| zeroField r.c <| wideZ (fnTy r.fn) fun z =>
      zeroOne (fnSub r.fn) fun trailing => .ok (if trailing then .ctz r.g z r.d r.a else .clz r.g z r.d r.a)
  | 0x3 => zDa r fun z => .ok (.brev r.g z r.d r.a)
  | 0x4 => zeroField r.ext <| zeroField r.c <| assigned (Cond.of (fnSub r.fn)) fun k =>
      .ok (.cmp r.g (.of (fnTy r.fn)) k r.d r.a r.b)
  | 0x5 => zDabc r fun z => .ok (.sel r.g z r.d r.a r.b r.c)
  | 0x6 =>
    zeroField r.ext <| zeroField r.b <| zeroField r.c <|
    if fnSub r.fn = 0 then .ok (.mov r.g (.of (fnTy r.fn)) r.d r.a)
    else if fnSub r.fn = 1 then mustBe (fnTy r.fn) 0 <| .ok (.sbind r.g r.d r.a)
    else if fnSub r.fn = 2 then mustBe (fnTy r.fn) 0 <| zeroField r.a <| .ok (.sunb r.g r.d)
    else .error .unassigned
  | 0x7 =>
    let q := LWord.of w
    zeroField q.zero <| if q.fn = 0 then .ok (.movi q.g true q.d q.imm)
      else if q.fn = 1 then .ok (.movi q.g false q.d q.imm) else .error .unassigned
  | 0x8 =>
    let q := LWord.of w
    mustBe q.fn 0 <| zeroField q.zero <| .ok (.movh q.g q.d q.imm)
  | 0x9 => zeroField r.ext <| zeroField r.c <| mustBe ((fnSub r.fn).extractLsb' 3 3) 0 <|
      .ok (.lea r.g (.of (fnTy r.fn)) ((fnSub r.fn).extractLsb' 0 3) r.d r.a r.b)
  | 0xA => zDabc r fun z => .ok (.addc r.g z r.d r.a r.b r.c)
  | 0xB => intDabc r fun t => .ok (.mad r.g t r.d r.a r.b r.c)
  | 0xC => intDab r fun t => .ok (.sxt r.g t r.d r.a r.b)
  | 0xD => zeroField r.ext <| zeroField r.c <|
      if fnSub r.fn = 0 then wideZ (fnTy r.fn) fun z => .ok (.hash r.g (if z then .crc64 else .crc32) r.d r.a r.b)
      else if fnSub r.fn = 1 then mustBe (fnTy r.fn) 1 <| .ok (.hash r.g .range r.d r.a r.b)
      else .error .unassigned
  | 0xE => zeroField r.ext <| zeroField r.b <| zeroField r.c <| mustBe (fnTy r.fn) 3 <|
      assigned (CvtaMode.of (fnSub r.fn)) fun k => .ok (.cvta r.g k r.d r.a)
  | _ => zeroField r.ext <| zeroField r.b <| zeroField r.c <| mustBe (fnTy r.fn) 3 <|
      assigned (Win.of (fnSub r.fn)) fun k => .ok (.iswin r.g k r.d r.a)

/-! Control, 0x20 to 0x2E (R73, R402). -/

/-- A-format words whose function and extension are zero. -/
def plainA (r : AWord) (k : Parse Instr) : Parse Instr := zeroField r.ext <| mustBe r.fn 0 k

/-- No operand at all. -/
def noOps (r : AWord) (k : Parse Instr) : Parse Instr :=
  zeroField r.d <| zeroField r.a <| zeroField r.b <| zeroField r.c k

/-- Branches whose only field is the offset. -/
def plainB (q : BWord) (k : Parse Instr) : Parse Instr :=
  mustBe q.fn 0 <| zeroField q.ext <| zeroField q.zero k

def parseControl (m : BitVec 4) (w : W64) : Parse Instr :=
  let r := AWord.of w
  let q := BWord.of w
  let i := IWord.of w
  match m.toNat with
  | 0x0 => plainB q <| .ok (.bra q.g q.off)
  | 0x1 => plainA r <| zeroField r.d <| zeroField r.b <| zeroField r.c <| .ok (.bri r.g r.a)
  | 0x2 => plainB q <| .ok (.call q.g q.off)
  | 0x3 => plainA r <| noOps r <| .ok (.ret r.g)
  | 0x4 => zeroField i.d <| zeroOne i.ext fun level => .ok (.loop i.g level i.a i.imm)
  | 0x5 => zeroField q.ext <| zeroField q.zero <| zeroField q.off <| zeroOne q.fn fun level => .ok (.lbrk q.g level)
  | 0x6 => plainB q <| .ok (.join q.g q.off)
  | 0x7 => zeroField i.d <| zeroField i.a <| zeroField (i.imm.extractLsb' 4 24) <| zeroOne i.ext fun team =>
      .ok (.waitb i.g team (i.imm.extractLsb' 0 4))
  | 0x8 => mustBe i.ext 0 <| zeroField i.d <| zeroField i.a <| zeroField (i.imm.extractLsb' 4 24) <|
      .ok (.waitc i.g (i.imm.extractLsb' 0 4))
  | 0x9 => plainA r <| noOps r <| .ok (.yield r.g)
  | 0xA => .ok (.poll (.of w))
  | 0xB => plainA r <| zeroField r.d <| zeroField r.c <| .ok (.park r.g r.a r.b)
  | 0xC => zeroField r.ext <| zeroOne r.fn fun launch =>
      .ok (if launch then .spawnLaunch r.g r.d r.a r.b r.c else .spawn r.g r.d r.a r.b r.c)
  | 0xD => plainA r <| noOps r <| .ok (.quit r.g)
  | 0xE => plainA r <| noOps r <| .ok (.nop r.g)
  | _ => .error .reservedMajor

/-! Global memory, 0x30 to 0x38 (R202, R232, R255). -/

def parseMemory (m : BitVec 4) (w : W64) : Parse Instr :=
  match m.toNat with
  | 0x0 => .ok (.ld (.of w))
  | 0x1 => .ok (.st (.of w))
  | 0x2 => .ok (.ldc (.of w))
  | 0x3 => .ok (.atom (.of w))
  | 0x4 => .ok (.cas (.of w))
  | 0x5 => .ok (.ldlod (.of w))
  | 0x6 => .ok (.pref (.of w))
  | 0x7 => .ok (.rbump (.of w))
  | 0x8 => .ok (.rsnap (.of w))
  | _ => .error .reservedMajor

/-! Vector integer, 0x40 to 0x4E (R109, R110). -/

def parseVecInt (m : BitVec 4) (w : W64) : Parse Instr :=
  let r := AWord.of w
  let s := fnSub r.fn
  let t := fnTy r.fn
  match m.toNat with
  | 0xF => .error .reservedMajor
  | 0x5 => zeroField r.ext <| .ok (.vlog r.g r.fn r.d r.a r.b r.c)
  | 0x0 => zeroField r.ext <| zeroField r.c <| narrow t fun sg => zeroOne s fun sat =>
      .ok (.vadd r.g sg sat r.d r.a r.b)
  | 0x1 => zeroField r.ext <| zeroField r.c <| narrow t fun sg => zeroOne s fun sat =>
      .ok (.vsub r.g sg sat r.d r.a r.b)
  | 0x2 => zeroField r.ext <| zeroField r.c <| narrow t fun sg => assigned (MulMode.of s) fun k =>
      .ok (.vmul r.g sg k r.d r.a r.b)
  | 0x3 => zeroField r.ext <| narrow t fun sg => mustBe s 0 <| .ok (.vmad r.g sg r.d r.a r.b r.c)
  | 0x4 => zeroField r.ext <| zeroField r.c <| narrow t fun sg => zeroOne s fun mx =>
      .ok (.vminmax r.g sg mx r.d r.a r.b)
  | 0x6 => zeroField r.ext <| zeroField r.c <| narrow t fun sg => assigned (ShOp.of s) fun k =>
      .ok (.vsh r.g sg k r.d r.a r.b)
  | 0x7 => zeroField r.ext <| zeroField r.c <| narrow t fun sg => assigned (Cond.of s) fun k =>
      .ok (.vcmp r.g sg k r.d r.a r.b)
  | 0x8 => zeroField r.ext <| mustBe r.fn 1 <| .ok (.vsel r.g r.d r.a r.b r.c)
  | 0x9 => zeroField r.ext <| mustBe r.fn 0 <| zeroField r.b <| zeroField r.c <| .ok (.vmov r.g r.d r.a)
  | 0xA => zeroField r.ext <| mustBe r.fn 0 <| zeroField r.c <| .ok (.vbcast r.g r.d r.a r.b)
  | 0xB => zeroField r.ext <| mustBe t 0 <| zeroField r.c <| assigned (ShufOp.of s) fun k =>
      .ok (.vshuf r.g k r.d r.a r.b)
  | 0xC => zeroField r.ext <| zeroField r.b <| zeroField r.c <| narrow t fun sg => assigned (RedOp.of s) fun k =>
      .ok (.vred r.g sg k r.d r.a)
  | 0xD => zeroField r.ext <| mustBe r.fn 0 <| zeroField r.b <| zeroField r.c <| .ok (.vballot r.g r.d r.a)
  | _ => zeroField r.ext <| mustBe t 0 <| zeroField r.b <| zeroField r.c <| zeroOne s fun below =>
      .ok (.vpopc r.g below r.d r.a)

/-! Floating point, 0x50 to 0x67 (R128, R129, R133, R135 to R137, R126). -/

/-- RND and TYPE of a member with one variant. -/
def fpRt (r : AWord) (k : Rnd → FTy → Parse Instr) : Parse Instr :=
  mustBe (fnMid3 r.fn) 0 <| assigned (Rnd.of (fnHi3 r.fn)) fun x => k x (.of (fnTy r.fn))

def parseVecFp (m : BitVec 4) (w : W64) : Parse Instr :=
  let r := AWord.of w
  let t := FTy.of (fnTy r.fn)
  match m.toNat with
  | 0x0 => zeroField r.ext <| zeroField r.c <| fpRt r fun x t => .ok (.vfadd r.g x t r.d r.a r.b)
  | 0x1 => zeroField r.ext <| zeroField r.c <| fpRt r fun x t => .ok (.vfsub r.g x t r.d r.a r.b)
  | 0x2 => zeroField r.ext <| zeroField r.c <| fpRt r fun x t => .ok (.vfmul r.g x t r.d r.a r.b)
  | 0x3 => zeroField r.ext <| assigned (Rnd.of (fnHi3 r.fn)) fun x => assigned (FmaOp.of (fnMid3 r.fn)) fun k =>
      .ok (.vfma r.g x k t r.d r.a r.b r.c)
  | 0x4 => zeroField r.ext <| zeroField r.c <| mustBe (fnHi3 r.fn) 0 <| assigned (FMinMax.of (fnMid3 r.fn)) fun k =>
      .ok (.vfminmax r.g k t r.d r.a r.b)
  | 0x5 => zeroField r.c <| fpRt r fun x t => .ok (.vfdiv r.ext r.g x t r.d r.a r.b)
  | 0x6 => zeroField r.b <| zeroField r.c <| fpRt r fun x t => .ok (.vfsqrt r.ext r.g x t r.d r.a)
  | 0x7 => zeroField r.b <| zeroField r.c <| fpRt r fun x t => .ok (.vfrcp r.ext r.g x t r.d r.a)
  | 0x8 => zeroField r.b <| zeroField r.c <| fpRt r fun x t => .ok (.vfrsq r.ext r.g x t r.d r.a)
  | 0x9 => zeroField r.b <| zeroField r.c <| fpRt r fun x t => .ok (.vfexp2 r.ext r.g x t r.d r.a)
  | 0xA => zeroField r.b <| zeroField r.c <| fpRt r fun x t => .ok (.vflog2 r.ext r.g x t r.d r.a)
  | 0xB => zeroField r.b <| zeroField r.c <| fpRt r fun x t => .ok (.vfsin r.ext r.g x t r.d r.a)
  | 0xC => zeroField r.b <| zeroField r.c <| fpRt r fun x t => .ok (.vfcos r.ext r.g x t r.d r.a)
  | 0xD => zeroField r.ext <| zeroField r.c <| mustBe (fnHi2 r.fn) 0 <|
      .ok (.vfcmp r.g (fnBit r.fn 5) (.of (fnMid3 r.fn)) t r.d r.a r.b)
  | 0xE => zeroField r.ext <| zeroField r.b <| zeroField r.c <| mustBe (fnHi3 r.fn) 0 <| mustBe (fnMid3 r.fn) 0 <|
      .ok (.vfclass r.g t r.d r.a)
  | _ => zeroField r.ext <| zeroField r.c <| assigned (Rnd.of (fnHi3 r.fn)) fun x =>
      .ok (.vcvt r.g x (fnLo5 r.fn) r.d r.a r.b)

/-- Scalar floating point (0x60 to 0x67) and vector memory (0x68 to 0x6F, R176, R181). -/
def parseScalarFp (m : BitVec 4) (w : W64) : Parse Instr :=
  let r := AWord.of w
  let t := FTy.of (fnTy r.fn)
  match m.toNat with
  | 0x0 => zeroField r.ext <| zeroField r.c <| assigned (Rnd.of (fnHi3 r.fn)) fun x => zeroOne (fnMid3 r.fn) fun sub =>
      .ok (.fadd r.g x sub t r.d r.a r.b)
  | 0x1 => zeroField r.ext <| zeroField r.c <| fpRt r fun x t => .ok (.fmul r.g x t r.d r.a r.b)
  | 0x2 => zeroField r.ext <| assigned (Rnd.of (fnHi3 r.fn)) fun x => assigned (FmaOp.of (fnMid3 r.fn)) fun k =>
      .ok (.ffma r.g x k t r.d r.a r.b r.c)
  | 0x3 => zeroField r.ext <| zeroField r.c <| mustBe (fnHi3 r.fn) 0 <| assigned (FMinMax.of (fnMid3 r.fn)) fun k =>
      .ok (.fminmax r.g k t r.d r.a r.b)
  | 0x4 => zeroField r.ext <| zeroField r.c <| mustBe (fnHi3 r.fn) 0 <|
      .ok (.fcmp r.g (.of (fnMid3 r.fn)) t r.d r.a r.b)
  | 0x5 => zeroField r.c <| fpRt r fun x t => .ok (.fdiv r.ext r.g x t r.d r.a r.b)
  | 0x6 => zeroField r.b <| zeroField r.c <| fpRt r fun x t => .ok (.fsqrt r.ext r.g x t r.d r.a)
  | 0x7 =>
    zeroField r.ext <| zeroField r.c <|
    if fnLo5 r.fn = 28 then mustBe (fnHi3 r.fn) 0 <| zeroField r.a <| zeroField r.b <| .ok (.rdmode r.g r.d)
    else if fnLo5 r.fn = 29 then mustBe (fnHi3 r.fn) 0 <| zeroField r.d <| .ok (.wrmode r.g r.a r.b)
    else zeroField r.b <| assigned (Rnd.of (fnHi3 r.fn)) fun x => .ok (.fcvt r.g x (fnLo5 r.fn) r.d r.a)
  | 0x8 => .ok (.vld (.of w))
  | 0x9 => .ok (.vst (.of w))
  | 0xA => .ok (.vlds (.of w))
  | 0xB => .ok (.vsts (.of w))
  | 0xC => .ok (.vatom (.of w))
  | 0xD => zeroField r.ext <| mustBe (fnTy r.fn) 0 <|
      if fnSub r.fn = 0 then zeroField r.b <| zeroField r.c <| .ok (.scfgBind r.g r.d r.a)
      else if fnSub r.fn = 1 then noOps { r with d := 0 } <| .ok (.scfgUnbind r.g r.d)
      else if fnSub r.fn = 2 then zeroField r.d <| .ok (.scfgRtag r.g r.a r.b r.c)
      else .error .unassigned
  | 0xE => zeroField r.ext <| mustBe (fnTy r.fn) 0 <| zeroField r.c <| .ok (.vpack r.g (fnSub r.fn) r.d r.a r.b)
  | _ => zeroField r.ext <| mustBe (fnTy r.fn) 0 <| zeroField r.c <| .ok (.vunpk r.g (fnSub r.fn) r.d r.a r.b)

/-! Paired words, 0x70 to 0x72 (R43). -/

def parsePair (m : BitVec 4) (w : W64) : Parse Instr :=
  let h := Half.of w
  match m.toNat with
  | 0x0 => .ok (.pairI h.1 h.2)
  | 0x1 => .ok (.pairF h.1 h.2)
  | 0x2 => .ok (.pairIF h.1 h.2)
  | _ => .error .reservedMajor

/-! Matrix and accumulators, 0x80 to 0x89 (R311, R140). -/

def parseMatrix (m : BitVec 4) (w : W64) : Parse Instr :=
  let r := AWord.of w
  match m.toNat with
  | 0x0 => zeroField r.ext <| zeroField r.a <| zeroField r.c <| mustBe (fnTy r.fn) 0 <|
      if fnSub r.fn = 0 then .ok (.mpairLead r.g r.d r.b)
      else if fnSub r.fn = 1 then zeroField r.b <| .ok (.mpairFollow r.g r.d) else .error .unassigned
  | 0x1 => plainA r <| noOps r <| .ok (.mrel r.g)
  | 0x2 => zeroField r.ext <| zeroField r.c <| mustBe (r.fn.extractLsb' 0 4) 0 <|
      .ok (.mcfg r.g (fnHi3 r.fn) (fnBit r.fn 4) r.d r.a r.b)
  | 0x3 => zeroField r.ext <| mustBe (r.fn.extractLsb' 0 4) 0 <|
      .ok (.mma r.g (fnBit r.fn 7) (fnBit r.fn 6) (fnBit r.fn 5) (fnBit r.fn 4) r.d r.a r.b r.c)
  | 0x4 =>
    zeroField r.ext <| zeroField r.c <| mustBe (r.fn.extractLsb' 0 1) 0 <|
    if fnHi3 r.fn = 2 then zeroField r.a <|
      .ok (.mdrainKacc r.g (fnBit r.fn 4) (fnBit r.fn 3) (r.fn.extractLsb' 1 2) r.d r.b)
    else mustBe (r.fn.extractLsb' 1 2) 0 <| zeroOne (fnHi3 r.fn) fun f32 =>
      .ok (.mdrain r.g f32 (fnBit r.fn 4) (fnBit r.fn 3) r.d r.a r.b)
  | 0x5 => zeroField r.ext <| zeroField r.b <| zeroField r.c <| mustBe (r.fn.extractLsb' 0 1) 0 <|
      assigned (MstatKind.of (fnSub r.fn)) fun k => .ok (.mstat r.g k (fnBit r.fn 1) r.d r.a)
  | 0x6 => zeroField r.ext <| zeroField r.d <| zeroField r.c <| mustBe (r.fn.extractLsb' 0 3) 0 <|
      assigned (AccKind.of (r.fn.extractLsb' 3 3)) fun k => .ok (.kacc r.g (fnHi2 r.fn) k r.a r.b)
  | 0x7 => zeroField r.ext <| noOps r <| mustBe (r.fn.extractLsb' 0 6) 0 <| .ok (.kclr r.g (fnHi2 r.fn))
  | 0x8 => zeroField r.ext <| noOps { r with d := 0 } <| mustBe (r.fn.extractLsb' 0 1) 0 <|
      assigned (Rnd.of (r.fn.extractLsb' 3 3)) fun x =>
        .ok (.krnd r.g (fnHi2 r.fn) x (fnBit r.fn 2) (fnBit r.fn 1) r.d)
  | 0x9 => zeroField r.ext <| noOps { r with d := 0 } <| mustBe (r.fn.extractLsb' 0 1) 0 <|
      mustBe (r.fn.extractLsb' 2 4) 0 <| .ok (.kstat r.g (fnHi2 r.fn) (fnBit r.fn 1) r.d)
  | _ => .error .reservedMajor

/-! Shuttle, 0x90 to 0x98 (R284). -/

def parseShuttle (m : BitVec 4) (w : W64) : Parse Instr :=
  let r := AWord.of w
  match m.toNat with
  | 0x0 => zeroField r.ext <| zeroField r.c <| mustBe (r.fn.extractLsb' 0 4) 0 <|
      .ok (.cpyw r.g (fnHi3 r.fn) (fnBit r.fn 4) r.d r.a r.b)
  | 0x1 => plainA r <| zeroField r.b <| zeroField r.c <| .ok (.cpygo r.g r.d r.a)
  | 0x2 => plainA r <| zeroField r.c <| .ok (.shkick r.g r.d r.a r.b)
  | 0x3 => plainA r <| noOps r <| .ok (.seal r.g)
  | 0x4 => zeroField r.ext <| zeroField r.b <| zeroField r.c <| mustBe (fnTy r.fn) 0 <|
      assigned (CpyqKind.of (fnSub r.fn)) fun k => .ok (.cpyq r.g k r.d r.a)
  | 0x5 => plainA r <| .ok (.bari r.g r.d r.a r.b r.c)
  | 0x6 => plainA r <| zeroField r.d <| zeroField r.c <| .ok (.bara r.g r.a r.b)
  | 0x7 => plainA r <| zeroField r.b <| zeroField r.c <| .ok (.barw r.g r.d r.a)
  | 0x8 => plainA r <| zeroField r.b <| zeroField r.c <| .ok (.cpyx r.g r.d r.a)
  | _ => .error .reservedMajor

/-! Network, 0xA0 to 0xA7 (R339). -/

/-- ORD of a send: 1 relaxed or 3 release. -/
def sendOrd (x : BitVec 3) (k : Bool → Parse Instr) : Parse Instr :=
  if x = 1 then k false else if x = 3 then k true else .error .unassigned

/-- ORD of MRECV: 1 relaxed or 2 acquire. -/
def recvOrd (x : BitVec 3) (k : Bool → Parse Instr) : Parse Instr :=
  if x = 1 then k false else if x = 2 then k true else .error .unassigned

def parseRacfg (r : AWord) : Parse Instr :=
  zeroField r.ext <| mustBe (fnLo5 r.fn) 0 <|
  match (fnHi3 r.fn).toNat with
  | 0 => .ok (.racfgBin r.g r.d r.a r.b r.c)
  | 1 => zeroField r.a <| zeroField r.c <| .ok (.racfgUnbin r.g r.d r.b)
  | 2 => .ok (.racfgRoute r.g r.d r.a r.b r.c)
  | 3 => zeroField r.a <| zeroField r.c <| .ok (.racfgQuery r.g r.d r.b)
  | _ => .error .unassigned

def parseQcfg (r : AWord) : Parse Instr :=
  let n : BitVec 3 := r.fn.extractLsb' 0 3
  zeroField r.ext <| mustBe (r.fn.extractLsb' 3 1) 0 <|
  match (fnHi3 r.fn).toNat with
  | 0 => .ok (.qcfgIn r.g (fnBit r.fn 4) n r.d r.a r.b r.c)
  | 1 => zeroField r.c <| .ok (.qcfgOut r.g (fnBit r.fn 4) n r.d r.a r.b)
  | 2 => mustBe (fnLo5 r.fn) 0 <| zeroField r.c <| .ok (.qcfgRx r.g r.d r.a r.b)
  | 3 => mustBe (r.fn.extractLsb' 4 1) 0 <| noOps { r with d := 0 } <| .ok (.qcfgUnin r.g n r.d)
  | 4 => mustBe (r.fn.extractLsb' 4 1) 0 <| noOps { r with d := 0 } <| .ok (.qcfgUnout r.g n r.d)
  | 5 => mustBe (fnLo5 r.fn) 0 <| noOps { r with d := 0 } <| .ok (.qcfgUnrx r.g r.d)
  | _ => .error .unassigned

def parseNetwork (m : BitVec 4) (w : W64) : Parse Instr :=
  let r := AWord.of w
  match m.toNat with
  | 0x0 => zeroField r.ext <| mustBe (fnTy r.fn) 0 <| sendOrd (fnHi3 r.fn) fun rel =>
      .ok (.msend r.g rel (fnMid3 r.fn) r.d r.a r.b r.c)
  | 0x1 => zeroField r.b <| zeroField r.c <| mustBe (fnTy r.fn) 0 <| recvOrd (fnHi3 r.fn) fun acq =>
      .ok (.mrecv r.ext r.g acq (fnMid3 r.fn) r.d r.a)
  | 0x2 => zeroField r.ext <| mustBe (r.fn.extractLsb' 0 1) 0 <| sendOrd (fnHi3 r.fn) fun rel =>
      .ok (.ksend r.g rel (fnMid3 r.fn) (fnBit r.fn 1) r.d r.a r.b r.c)
  | 0x3 => parseRacfg r
  | 0x4 => parseQcfg r
  | 0x5 => plainA r <| .ok (.callat r.g r.d r.a r.b r.c)
  | 0x6 => zeroField r.ext <| zeroField r.c <| mustBe (fnHi3 r.fn) 0 <| mustBe (r.fn.extractLsb' 0 4) 0 <|
      .ok (.retm r.g (fnBit r.fn 4) r.d r.a r.b)
  | 0x7 => plainA r <| .ok (.amsg r.g r.d r.a r.b r.c)
  | _ => .error .reservedMajor

/-! Rays and raster, 0xB0 to 0xBA (R368, R387). -/

def parseRpop (r : AWord) : Parse Instr :=
  zeroField r.b <| zeroField r.c <| mustBe (r.fn.extractLsb' 0 3) 0 <|
  match (fnHi3 r.fn).toNat with
  | 0 => .ok (.rpop r.ext r.g false (fnBit r.fn 4) (fnBit r.fn 3) r.d r.a)
  | 1 => .ok (.rpop r.ext r.g true (fnBit r.fn 4) (fnBit r.fn 3) r.d r.a)
  | 2 => mustBe (fnLo5 r.fn) 0 <| .ok (.rpopClaim r.ext r.g false r.d r.a)
  | 3 => mustBe (fnLo5 r.fn) 0 <| .ok (.rpopClaim r.ext r.g true r.d r.a)
  | 4 => mustBe (fnLo5 r.fn) 0 <| .ok (.rpopRelease r.ext r.g false r.d r.a)
  | 5 => mustBe (fnLo5 r.fn) 0 <| .ok (.rpopRelease r.ext r.g true r.d r.a)
  | _ => .error .unassigned

def parseHoopw (r : AWord) : Parse Instr :=
  zeroField r.ext <| zeroField r.b <| zeroField r.c <| mustBe (fnLo5 r.fn) 0 <|
  match (fnHi3 r.fn).toNat with
  | 0 => zeroField r.a <| .ok (.hoopwClaim r.g r.d)
  | 1 => zeroField r.a <| .ok (.hoopwRelease r.g r.d)
  | 2 => .ok (.hoopwState r.g r.d r.a)
  | 3 => .ok (.hoopwAdd r.g r.d r.a)
  | 4 => zeroField r.a <| .ok (.hoopwClear r.g r.d)
  | _ => .error .unassigned

def parseRays (m : BitVec 4) (w : W64) : Parse Instr :=
  let r := AWord.of w
  match m.toNat with
  | 0x0 => parseRpop r
  | 0x1 => zeroField r.ext <| zeroField r.b <| zeroField r.c <| mustBe (r.fn.extractLsb' 0 7) 0 <|
      .ok (.rsend r.g (fnBit r.fn 7) r.d r.a)
  | 0x2 => mustBe r.fn 0 <| zeroField r.c <| .ok (.xnode r.ext r.g r.d r.a r.b)
  | 0x3 => mustBe r.fn 0 <| zeroField r.c <| .ok (.xtri r.ext r.g r.d r.a r.b)
  | 0x4 => plainA r <| zeroField r.c <| .ok (.xtile r.g r.d r.a r.b)
  | 0x5 => plainA r <| zeroField r.b <| zeroField r.c <| .ok (.hsend r.g r.d r.a)
  | 0x6 => zeroField r.ext <| zeroField r.b <| zeroField r.c <| mustBe (fnLo5 r.fn) 0 <|
      zeroOne (fnHi3 r.fn) fun unmap => .ok (if unmap then .tmapUnmap r.g r.d r.a else .tmapMap r.g r.d r.a)
  | 0x7 => plainA r <| zeroField r.b <| zeroField r.c <| .ok (.tlpin r.g r.d r.a)
  | 0x8 => zeroField r.ext <| mustBe (fnLo5 r.fn) 0 <|
      if fnHi3 r.fn = 0 then .ok (.tlrepOffer r.g r.d r.a r.b r.c)
      else if fnHi3 r.fn = 1 then zeroField r.b <| zeroField r.c <| .ok (.tlrepWithdraw r.g r.d r.a)
      else .error .unassigned
  | 0x9 => parseHoopw r
  | 0xA => plainA r <| zeroField r.c <| .ok (.hoopr r.g r.d r.a r.b)
  | _ => .error .reservedMajor

/-! Synchronisation, 0xC0 to 0xC5 (R182, R256). -/

def parseFeq (r : AWord) : Parse Instr :=
  zeroField r.ext <| zeroField r.b <| zeroField r.c <| zeroOne (fnTy r.fn) fun b64 =>
  if fnSub r.fn = 0 then .ok (.feqTest r.g b64 r.d r.a)
  else if fnSub r.fn = 1 then zeroField r.d <| .ok (.feqFill r.g b64 r.a)
  else if fnSub r.fn = 2 then zeroField r.d <| .ok (.feqDrain r.g b64 r.a)
  else .error .unassigned

def parseBars (r : AWord) : Parse Instr :=
  let scope : BitVec 3 := r.ext.extractLsb' 0 3
  zeroField (r.ext.extractLsb' 3 1) <| zeroField r.c <| mustBe (fnTy r.fn) 0 <|
  if fnSub r.fn = 0 then .ok (.barsInit r.g scope r.d r.a r.b)
  else if fnSub r.fn = 1 then .ok (.barsArrive r.g scope r.d r.a r.b)
  else if fnSub r.fn = 2 then .ok (.barsWait r.g scope r.d r.a r.b)
  else if fnSub r.fn = 3 then zeroField r.b <| .ok (.barsSync r.g scope r.d r.a)
  else .error .unassigned

def parseSync (m : BitVec 4) (w : W64) : Parse Instr :=
  let r := AWord.of w
  match m.toNat with
  | 0x0 => .ok (.ldfe (.of w))
  | 0x1 => .ok (.stfe (.of w))
  | 0x2 => parseFeq r
  | 0x3 => parseBars r
  | 0x4 => zeroField r.ext <| noOps r <| mustBe (fnTy r.fn) 0 <| assigned (FenceOrd.of (fnHi3 r.fn)) fun o =>
      .ok (.fence r.g o (fnMid3 r.fn))
  | 0x5 => zeroField r.ext <| noOps r <| mustBe (r.fn.extractLsb' 0 4) 0 <|
      .ok (.pfence r.g (r.fn.extractLsb' 4 4))
  | _ => .error .reservedMajor

/-! System, 0xD0 to 0xDC (R437, R213). -/

/-- MFS: CL_OVFS has its own row. -/
def parseMfs (r : AWord) : Parse Instr :=
  zeroField r.ext <| zeroField r.a <| zeroField r.b <|
  if r.fn = 6 ∧ r.c = 3 then .ok (.clOvfsRead r.g r.d) else .ok (.mfs r.g r.fn r.c r.d)

/-- MTS: the registers with a row of their own, and the rest. -/
def parseMts (r : AWord) : Parse Instr :=
  zeroField r.ext <| zeroField r.d <| zeroField r.b <|
  if r.fn = 1 ∧ r.c = 0 then .ok (.cctlWrite r.g r.a)
  else if r.fn = 2 ∧ r.c.toNat < 8 then .ok (.bfmtWrite r.g (r.c.extractLsb' 0 3) r.a)
  else if r.fn = 3 ∧ r.c.toNat < 8 then .ok (.pgselWrite r.g (r.c.extractLsb' 0 3) r.a)
  else if r.fn = 6 ∧ r.c = 1 then .ok (.clAmodeWrite r.g r.a)
  else if r.fn = 6 ∧ r.c = 2 then .ok (.clOvfWrite r.g r.a)
  else if r.fn = 7 ∧ r.c = 1 then .ok (.tierWmWrite r.g 0 r.a)
  else if r.fn = 7 ∧ r.c = 2 then .ok (.tierWmWrite r.g 1 r.a)
  else if r.fn = 7 ∧ r.c = 3 then .ok (.tierWmWrite r.g 2 r.a)
  else .ok (.mts r.g r.fn r.c r.a)

def parsePgmap (r : AWord) : Parse Instr :=
  zeroField r.ext <| mustBe (fnLo5 r.fn) 0 <|
  match (fnHi3 r.fn).toNat with
  | 0 => .ok (.pgmapMap r.g r.d r.a r.b r.c)
  | 1 => .ok (.pgmapUnmap r.g r.d r.a r.b r.c)
  | 2 => .ok (.pgmapPin r.g r.d r.a r.b r.c)
  | 3 => .ok (.pgmapUnpin r.g r.d r.a r.b r.c)
  | 4 => .ok (.pgmapDemote r.g r.d r.a r.b r.c)
  | _ => .error .unassigned

def parseSystem (m : BitVec 4) (w : W64) : Parse Instr :=
  let r := AWord.of w
  let i := IWord.of w
  match m.toNat with
  | 0x0 => mustBe i.ext 0 <| zeroField i.d <| zeroField i.a <| zeroField (i.imm.extractLsb' 16 12) <|
      .ok (.trap i.g (i.imm.extractLsb' 0 16))
  | 0x1 => zeroField r.ext <| noOps r <|
      if r.fn = 0 then .ok (.tretRetry r.g) else if r.fn = 1 then .ok (.tretSkip r.g)
      else if r.fn = 2 then .ok (.tretKill r.g) else .error .unassigned
  | 0x2 => parseMfs r
  | 0x3 => parseMts r
  | 0x4 => zeroField r.ext <| mustBe (fnLo5 r.fn) 0 <| zeroField r.d <| zeroField r.c <|
      .ok (.segw r.g (fnHi3 r.fn) r.a r.b)
  | 0x5 => zeroField r.ext <| mustBe (r.fn.extractLsb' 0 4) 0 <| noOps { r with d := 0 } <|
      .ok (.segr r.g (fnHi3 r.fn) (fnBit r.fn 4) r.d)
  | 0x6 => parsePgmap r
  | 0x7 => zeroField r.ext <| mustBe (fnTy r.fn) 0 <| mustBe ((fnHi3 r.fn).extractLsb' 2 1) 0 <|
      zeroField r.d <| zeroField r.c <| .ok (.tlbi r.g ((fnHi3 r.fn).extractLsb' 0 2) (fnMid3 r.fn) r.a r.b)
  | 0x8 => zeroField r.ext <| mustBe (r.fn.extractLsb' 0 4) 0 <| zeroField r.d <| zeroField r.c <|
      .ok (.icinv r.g (fnHi3 r.fn) (fnBit r.fn 4) r.a r.b)
  | 0x9 => plainA r <| zeroField r.d <| zeroField r.b <| zeroField r.c <| .ok (.ctxsv r.g r.a)
  | 0xA => plainA r <| zeroField r.d <| zeroField r.b <| zeroField r.c <| .ok (.ctxld r.g r.a)
  | 0xB => mustBe (i.ext.extractLsb' 3 1) 0 <|
      .ok (.ldphy i.g (i.ext.extractLsb' 0 3) (i.imm.extractLsb' 26 2) i.d i.a (i.imm.extractLsb' 0 26))
  | 0xC => mustBe (i.ext.extractLsb' 3 1) 0 <|
      .ok (.stphy i.g (i.ext.extractLsb' 0 3) (i.imm.extractLsb' 26 2) i.d i.a (i.imm.extractLsb' 0 26))
  | _ => .error .reservedMajor

/-! Debug, 0xE0 to 0xE3 (R462, R469). -/

def parseDebug (m : BitVec 4) (w : W64) : Parse Instr :=
  let r := AWord.of w
  match m.toNat with
  | 0x0 => zeroField r.ext <| noOps r <| .ok (.bkpt r.g r.fn)
  | 0x1 => zeroField r.ext <| zeroField r.b <| zeroField r.c <| mustBe (fnTy r.fn) 0 <|
      zeroOne (fnSub r.fn) fun unit => .ok (.cntr r.g unit r.d r.a)
  | 0x2 => zeroField r.ext <| zeroField r.d <| zeroField r.c <| mustBe (fnTy r.fn) 0 <|
      if fnSub r.fn = 0 then .ok (.cntctlSel r.g r.a r.b)
      else if fnSub r.fn = 1 then zeroField r.b <| .ok (.cntctlEn r.g r.a)
      else if fnSub r.fn = 2 then zeroField r.b <| .ok (.cntctlClr r.g r.a)
      else if fnSub r.fn = 3 then zeroField r.b <| .ok (.cntctlUclr r.g r.a)
      else .error .unassigned
  | 0x3 => plainA r <| zeroField r.d <| zeroField r.b <| zeroField r.c <| .ok (.mark r.g r.a)
  | _ => .error .reservedMajor

/-- The fields of a word, by the major opcode map (R47). -/
def parseWord (w : W64) : Parse Instr :=
  let m := majorOf w
  let lo : BitVec 4 := m.extractLsb' 0 4
  match (m.extractLsb' 4 4).toNat with
  | 0x0 => parseInt0 lo w
  | 0x1 => parseInt1 lo w
  | 0x2 => parseControl lo w
  | 0x3 => parseMemory lo w
  | 0x4 => parseVecInt lo w
  | 0x5 => parseVecFp lo w
  | 0x6 => parseScalarFp lo w
  | 0x7 => parsePair lo w
  | 0x8 => parseMatrix lo w
  | 0x9 => parseShuttle lo w
  | 0xA => parseNetwork lo w
  | 0xB => parseRays lo w
  | 0xC => parseSync lo w
  | 0xD => parseSystem lo w
  | 0xE => parseDebug lo w
  | _ => if lo = 0 then .error .header else .error .reservedMajor

/-- Only well-formed instructions pass. -/
def checkForm (i : Instr) : Parse Instr :=
  match i.formError with
  | none => .ok i
  | some e => .error (.form e)

/-- The instruction a word stands for, or why it is an ILLEGAL-INSTRUCTION (R46, first check). -/
def decodeWord (w : W64) : Parse Instr :=
  match parseWord w with
  | .ok i => checkForm i
  | .error e => .error e

/-- Eight little-endian bytes (R4, R24) and what follows them. -/
def decodeBytes : List Byte → Except Reject (Instr × List Byte)
  | b0 :: b1 :: b2 :: b3 :: b4 :: b5 :: b6 :: b7 :: rest =>
    match decodeWord (b7 ++ b6 ++ b5 ++ b4 ++ b3 ++ b2 ++ b1 ++ b0) with
    | .ok i => .ok (i, rest)
    | .error e => .error e
  | _ => .error .short

/-- Byte k of a word, counted from the least significant. -/
def wordByte (w : W64) (k : Nat) : Byte := w.extractLsb' (8 * k) 8

/-- The bytes of a word as the hardware stores them, lowest address first. -/
def wordBytes (w : W64) : List Byte :=
  [wordByte w 0, wordByte w 1, wordByte w 2, wordByte w 3, wordByte w 4, wordByte w 5, wordByte w 6, wordByte w 7]

/-- The host's question: what the decoder reads from the word `w`. Every instruction is one 64-bit word, so the
bits above `nbits` are zero. -/
def decodeTableWord (_nbits w : Nat) : Option Instr :=
  match decodeBytes (wordBytes (BitVec.ofNat 64 w)) with
  | .ok (i, _) => some i
  | .error _ => none

/-! The encoder. -/

/-- Format A with extension zero. -/
def encA (major : BitVec 8) (g : Guard) (fn : BitVec 8) (d a b c : Opnd) : Option W64 :=
  some (AWord.pack major ⟨0, g, fn, d, a, b, c⟩)

/-- Format A with a lookahead. -/
def encL (major : BitVec 8) (la : BitVec 4) (g : Guard) (fn : BitVec 8) (d a b : Opnd) : Option W64 :=
  some (AWord.pack major ⟨la, g, fn, d, a, b, 0⟩)

/-- Format B with only an offset. -/
def encB (major : BitVec 8) (g : Guard) (off : BitVec 32) : Option W64 :=
  some (BWord.pack major ⟨0, g, 0, 0, off⟩)

/-- The type code of an integer member with types z alone. -/
def zCode (w64 : Bool) : BitVec 2 := if w64 then 3 else 1

/-- The type code of a vector integer member. -/
def nCode (signed : Bool) : BitVec 2 := if signed then 0 else 1

/-- A one-bit variant as a sub field. -/
def subBit (b : Bool) : BitVec 6 := if b then 1 else 0

/-- A one-bit variant as a three-bit field. -/
def bit3 (b : Bool) : BitVec 3 := if b then 1 else 0

/-- A level or team bit as an extension field. -/
def ext4 (b : Bool) : BitVec 4 := if b then 1 else 0

/-- The ORD of a send. -/
def sendCode (rel : Bool) : BitVec 3 := if rel then 3 else 1

/-- The ORD of MRECV. -/
def recvCode (acq : Bool) : BitVec 3 := if acq then 2 else 1

/-- The word of an instruction; events of the device have none. -/
def encode : Instr → Option W64
  | .add g t d a b => encA 0x00 g (packSubTy 0 t.code) d a b 0
  | .sub g t d a b => encA 0x01 g (packSubTy 0 t.code) d a b 0
  | .addi g t d a imm => some (IWord.pack 0x02 ⟨0#2 ++ t.code, g, d, a, imm⟩)
  | .mul g t d a b => encA 0x03 g (packSubTy 0 t.code) d a b 0
  | .mulh g t d a b => encA 0x04 g (packSubTy 0 t.code) d a b 0
  | .div la g t d a b => encL 0x05 la g (packSubTy 0 t.code) d a b
  | .rem la g t d a b => encL 0x06 la g (packSubTy 0 t.code) d a b
  | .minmax g t mx d a b => encA 0x07 g (packSubTy (subBit mx) t.code) d a b 0
  | .and g z d a b => encA 0x08 g (packSubTy 0 (zCode z)) d a b 0
  | .or g z d a b => encA 0x09 g (packSubTy 0 (zCode z)) d a b 0
  | .xor g z d a b => encA 0x0A g (packSubTy 0 (zCode z)) d a b 0
  | .andn g z d a b => encA 0x0B g (packSubTy 0 (zCode z)) d a b 0
  | .shl g z d a b => encA 0x0C g (packSubTy 0 (zCode z)) d a b 0
  | .shr g t d a b => encA 0x0D g (packSubTy 0 t.code) d a b 0
  | .rot g z left d a b => encA 0x0E g (packSubTy (subBit left) (zCode z)) d a b 0
  | .bfx g t d a b c => encA 0x0F g (packSubTy 0 t.code) d a b c
  | .bfi g z d a b c => encA 0x10 g (packSubTy 0 (zCode z)) d a b c
  | .popc g z d a => encA 0x11 g (packSubTy 0 (zCode z)) d a 0 0
  | .clz g z d a => encA 0x12 g (packSubTy 0 (zCode z)) d a 0 0
  | .ctz g z d a => encA 0x12 g (packSubTy 1 (zCode z)) d a 0 0
  | .brev g z d a => encA 0x13 g (packSubTy 0 (zCode z)) d a 0 0
  | .cmp g t k d a b => encA 0x14 g (packSubTy k.code t.code) d a b 0
  | .sel g z d a b c => encA 0x15 g (packSubTy 0 (zCode z)) d a b c
  | .mov g t d a => encA 0x16 g (packSubTy 0 t.code) d a 0 0
  | .sbind g d a => encA 0x16 g (packSubTy 1 0) d a 0 0
  | .sunb g d => encA 0x16 g (packSubTy 2 0) d 0 0 0
  | .movi g sg d imm => some (LWord.pack 0x17 ⟨if sg then 0 else 1, g, d, 0, imm⟩)
  | .movh g d imm => some (LWord.pack 0x18 ⟨0, g, d, 0, imm⟩)
  | .lea g t s d a b => encA 0x19 g (packSubTy (0#3 ++ s) t.code) d a b 0
  | .addc g z d a b c => encA 0x1A g (packSubTy 0 (zCode z)) d a b c
  | .mad g t d a b c => encA 0x1B g (packSubTy 0 t.code) d a b c
  | .sxt g t d a b => encA 0x1C g (packSubTy 0 t.code) d a b 0
  | .hash g op d a b =>
    encA 0x1D g (match op with | .crc32 => packSubTy 0 1 | .crc64 => packSubTy 0 3 | .range => packSubTy 1 1) d a b 0
  | .cvta g k d a => encA 0x1E g (packSubTy k.code 3) d a 0 0
  | .iswin g k d a => encA 0x1F g (packSubTy k.code 3) d a 0 0
  | .bra g off => encB 0x20 g off
  | .bri g a => encA 0x21 g 0 0 a 0 0
  | .call g off => encB 0x22 g off
  | .ret g => encA 0x23 g 0 0 0 0 0
  | .loop g level a imm => some (IWord.pack 0x24 ⟨ext4 level, g, 0, a, imm⟩)
  | .lbrk g level => some (BWord.pack 0x25 ⟨ext4 level, g, 0, 0, 0⟩)
  | .join g off => encB 0x26 g off
  | .waitb g team t => some (IWord.pack 0x27 ⟨ext4 team, g, 0, 0, 0#24 ++ t⟩)
  | .waitc g f => some (IWord.pack 0x28 ⟨0, g, 0, 0, 0#24 ++ f⟩)
  | .yield g => encA 0x29 g 0 0 0 0 0
  | .poll m => some (m.pack 0x2A)
  | .park g a b => encA 0x2B g 0 0 a b 0
  | .spawn g d a b c => encA 0x2C g 0 d a b c
  | .spawnLaunch g d a b c => encA 0x2C g 1 d a b c
  | .quit g => encA 0x2D g 0 0 0 0 0
  | .nop g => encA 0x2E g 0 0 0 0 0
  | .ld m => some (m.pack 0x30)
  | .st m => some (m.pack 0x31)
  | .ldc m => some (m.pack 0x32)
  | .atom m => some (m.pack 0x33)
  | .cas m => some (m.pack 0x34)
  | .ldlod m => some (m.pack 0x35)
  | .pref m => some (m.pack 0x36)
  | .rbump m => some (m.pack 0x37)
  | .rsnap m => some (m.pack 0x38)
  | .vadd g sg sat d a b => encA 0x40 g (packSubTy (subBit sat) (nCode sg)) d a b 0
  | .vsub g sg sat d a b => encA 0x41 g (packSubTy (subBit sat) (nCode sg)) d a b 0
  | .vmul g sg k d a b => encA 0x42 g (packSubTy k.code (nCode sg)) d a b 0
  | .vmad g sg d a b c => encA 0x43 g (packSubTy 0 (nCode sg)) d a b c
  | .vminmax g sg mx d a b => encA 0x44 g (packSubTy (subBit mx) (nCode sg)) d a b 0
  | .vlog g tt d a b c => encA 0x45 g tt d a b c
  | .vsh g sg k d a b => encA 0x46 g (packSubTy k.code (nCode sg)) d a b 0
  | .vcmp g sg k d a b => encA 0x47 g (packSubTy k.code (nCode sg)) d a b 0
  | .vsel g d a b c => encA 0x48 g 1 d a b c
  | .vmov g d a => encA 0x49 g 0 d a 0 0
  | .vbcast g d a b => encA 0x4A g 0 d a b 0
  | .vshuf g k d a b => encA 0x4B g (packSubTy k.code 0) d a b 0
  | .vred g sg k d a => encA 0x4C g (packSubTy k.code (nCode sg)) d a 0 0
  | .vballot g d a => encA 0x4D g 0 d a 0 0
  | .vpopc g below d a => encA 0x4E g (packSubTy (subBit below) 0) d a 0 0
  | .vfadd g r t d a b => encA 0x50 g (packRst r.code 0 t.code) d a b 0
  | .vfsub g r t d a b => encA 0x51 g (packRst r.code 0 t.code) d a b 0
  | .vfmul g r t d a b => encA 0x52 g (packRst r.code 0 t.code) d a b 0
  | .vfma g r k t d a b c => encA 0x53 g (packRst r.code k.code t.code) d a b c
  | .vfminmax g k t d a b => encA 0x54 g (packRst 0 k.code t.code) d a b 0
  | .vfdiv la g r t d a b => encL 0x55 la g (packRst r.code 0 t.code) d a b
  | .vfsqrt la g r t d a => encL 0x56 la g (packRst r.code 0 t.code) d a 0
  | .vfrcp la g r t d a => encL 0x57 la g (packRst r.code 0 t.code) d a 0
  | .vfrsq la g r t d a => encL 0x58 la g (packRst r.code 0 t.code) d a 0
  | .vfexp2 la g r t d a => encL 0x59 la g (packRst r.code 0 t.code) d a 0
  | .vflog2 la g r t d a => encL 0x5A la g (packRst r.code 0 t.code) d a 0
  | .vfsin la g r t d a => encL 0x5B la g (packRst r.code 0 t.code) d a 0
  | .vfcos la g r t d a => encL 0x5C la g (packRst r.code 0 t.code) d a 0
  | .vfcmp g hi k t d a b => encA 0x5D g (packRst (bit3 hi) k.code t.code) d a b 0
  | .vfclass g t d a => encA 0x5E g (packRst 0 0 t.code) d a 0 0
  | .vcvt g r c d a b => encA 0x5F g (packRc r.code c) d a b 0
  | .fadd g r sub t d a b => encA 0x60 g (packRst r.code (bit3 sub) t.code) d a b 0
  | .fmul g r t d a b => encA 0x61 g (packRst r.code 0 t.code) d a b 0
  | .ffma g r k t d a b c => encA 0x62 g (packRst r.code k.code t.code) d a b c
  | .fminmax g k t d a b => encA 0x63 g (packRst 0 k.code t.code) d a b 0
  | .fcmp g k t d a b => encA 0x64 g (packRst 0 k.code t.code) d a b 0
  | .fdiv la g r t d a b => encL 0x65 la g (packRst r.code 0 t.code) d a b
  | .fsqrt la g r t d a => encL 0x66 la g (packRst r.code 0 t.code) d a 0
  | .fcvt g r c d a => encA 0x67 g (packRc r.code c) d a 0 0
  | .rdmode g d => encA 0x67 g 28 d 0 0 0
  | .wrmode g a b => encA 0x67 g 29 0 a b 0
  | .vld m => some (m.pack 0x68)
  | .vst m => some (m.pack 0x69)
  | .vlds m => some (m.pack 0x6A)
  | .vsts m => some (m.pack 0x6B)
  | .vatom m => some (m.pack 0x6C)
  | .scfgBind g d a => encA 0x6D g (packSubTy 0 0) d a 0 0
  | .scfgUnbind g d => encA 0x6D g (packSubTy 1 0) d 0 0 0
  | .scfgRtag g a b c => encA 0x6D g (packSubTy 2 0) 0 a b c
  | .vpack g k d a b => encA 0x6E g (packSubTy k 0) d a b 0
  | .vunpk g k d a b => encA 0x6F g (packSubTy k 0) d a b 0
  | .pairI x y => some (Half.pack 0x70 x y)
  | .pairF x y => some (Half.pack 0x71 x y)
  | .pairIF x y => some (Half.pack 0x72 x y)
  | .mpairLead g d b => encA 0x80 g (packSubTy 0 0) d 0 b 0
  | .mpairFollow g d => encA 0x80 g (packSubTy 1 0) d 0 0 0
  | .mrel g => encA 0x81 g 0 0 0 0 0
  | .mcfg g word pair d a b => encA 0x82 g (pack3b word pair false false false false) d a b 0
  | .mma g clr t unf bi8 d a b c => encA 0x83 g (pack4b clr t unf bi8) d a b c
  | .mdrain g f32 t clr d a b => encA 0x84 g (pack3b (bit3 f32) t clr false false false) d a b 0
  | .mdrainKacc g t clr i d b =>
    encA 0x84 g (pack3b 2 t clr (i.getLsbD 1) (i.getLsbD 0) false) d 0 b 0
  | .mstat g k clr d a => encA 0x85 g (packSubTy k.code (if clr then 2 else 0)) d a 0 0
  | .kacc g i k a b => encA 0x86 g (packAcc i k.code false false false) 0 a b 0
  | .kclr g i => encA 0x87 g (packAcc i 0 false false false) 0 0 0 0
  | .krnd g i r f64 clr d => encA 0x88 g (packAcc i r.code f64 clr false) d 0 0 0
  | .kstat g i clr d => encA 0x89 g (packAcc i 0 false clr false) d 0 0 0
  | .cpyw g word pair d a b => encA 0x90 g (pack3b word pair false false false false) d a b 0
  | .cpygo g d a => encA 0x91 g 0 d a 0 0
  | .shkick g d a b => encA 0x92 g 0 d a b 0
  | .seal g => encA 0x93 g 0 0 0 0 0
  | .cpyq g k d a => encA 0x94 g (packSubTy k.code 0) d a 0 0
  | .bari g d a b c => encA 0x95 g 0 d a b c
  | .bara g a b => encA 0x96 g 0 0 a b 0
  | .barw g d a => encA 0x97 g 0 d a 0 0
  | .cpyx g d a => encA 0x98 g 0 d a 0 0
  | .msend g rel scope d a b c => encA 0xA0 g (packRst (sendCode rel) scope 0) d a b c
  | .mrecv la g acq scope d a => encL 0xA1 la g (packRst (recvCode acq) scope 0) d a 0
  | .ksend g rel scope w64 d a b c => encA 0xA2 g (packRst (sendCode rel) scope (if w64 then 2 else 0)) d a b c
  | .racfgBin g d a b c => encA 0xA3 g (packRc 0 0) d a b c
  | .racfgUnbin g d b => encA 0xA3 g (packRc 1 0) d 0 b 0
  | .racfgRoute g d a b c => encA 0xA3 g (packRc 2 0) d a b c
  | .racfgQuery g d b => encA 0xA3 g (packRc 3 0) d 0 b 0
  | .qcfgIn g w64 n d a b c => encA 0xA4 g (pack323 0 (if w64 then 2 else 0) n) d a b c
  | .qcfgOut g w64 n d a b => encA 0xA4 g (pack323 1 (if w64 then 2 else 0) n) d a b 0
  | .qcfgRx g d a b => encA 0xA4 g (pack323 2 0 0) d a b 0
  | .qcfgUnin g n d => encA 0xA4 g (pack323 3 0 n) d 0 0 0
  | .qcfgUnout g n d => encA 0xA4 g (pack323 4 0 n) d 0 0 0
  | .qcfgUnrx g d => encA 0xA4 g (pack323 5 0 0) d 0 0 0
  | .callat g d a b c => encA 0xA5 g 0 d a b c
  | .retm g w64 d a b => encA 0xA6 g (pack3b 0 w64 false false false false) d a b 0
  | .amsg g d a b c => encA 0xA7 g 0 d a b c
  | .rpop la g hits wait gather d a =>
    encL 0xB0 la g (pack3b (if hits then 1 else 0) wait gather false false false) d a 0
  | .rpopClaim la g hits d a => encL 0xB0 la g (packRc (if hits then 3 else 2) 0) d a 0
  | .rpopRelease la g hits d a => encL 0xB0 la g (packRc (if hits then 5 else 4) 0) d a 0
  | .rsend g owner d a => encA 0xB1 g (pack4b owner false false false) d a 0 0
  | .xnode la g d a b => encL 0xB2 la g 0 d a b
  | .xtri la g d a b => encL 0xB3 la g 0 d a b
  | .hsend g d a => encA 0xB5 g 0 d a 0 0
  | .tmapMap g d a => encA 0xB6 g (packRc 0 0) d a 0 0
  | .tmapUnmap g d a => encA 0xB6 g (packRc 1 0) d a 0 0
  | .tlpin g d a => encA 0xB7 g 0 d a 0 0
  | .tlrepOffer g d a b c => encA 0xB8 g (packRc 0 0) d a b c
  | .tlrepWithdraw g d a => encA 0xB8 g (packRc 1 0) d a 0 0
  | .xtile g d a b => encA 0xB4 g 0 d a b 0
  | .hoopwClaim g d => encA 0xB9 g (packRc 0 0) d 0 0 0
  | .hoopwRelease g d => encA 0xB9 g (packRc 1 0) d 0 0 0
  | .hoopwState g d a => encA 0xB9 g (packRc 2 0) d a 0 0
  | .hoopwAdd g d a => encA 0xB9 g (packRc 3 0) d a 0 0
  | .hoopwClear g d => encA 0xB9 g (packRc 4 0) d 0 0 0
  | .hoopr g d a b => encA 0xBA g 0 d a b 0
  | .ldfe m => some (m.pack 0xC0)
  | .stfe m => some (m.pack 0xC1)
  | .feqTest g b64 d a => encA 0xC2 g (packSubTy 0 (if b64 then 1 else 0)) d a 0 0
  | .feqFill g b64 a => encA 0xC2 g (packSubTy 1 (if b64 then 1 else 0)) 0 a 0 0
  | .feqDrain g b64 a => encA 0xC2 g (packSubTy 2 (if b64 then 1 else 0)) 0 a 0 0
  | .barsInit g scope d a b => encL 0xC3 (0#1 ++ scope) g (packSubTy 0 0) d a b
  | .barsArrive g scope d a b => encL 0xC3 (0#1 ++ scope) g (packSubTy 1 0) d a b
  | .barsWait g scope d a b => encL 0xC3 (0#1 ++ scope) g (packSubTy 2 0) d a b
  | .barsSync g scope d a => encL 0xC3 (0#1 ++ scope) g (packSubTy 3 0) d a 0
  | .fence g o scope => encA 0xC4 g (packRst o.code scope 0) 0 0 0 0
  | .pfence g paths => encA 0xC5 g (paths ++ 0#4) 0 0 0 0
  | .trap g code => some (IWord.pack 0xD0 ⟨0, g, 0, 0, 0#12 ++ code⟩)
  | .tretRetry g => encA 0xD1 g 0 0 0 0 0
  | .tretSkip g => encA 0xD1 g 1 0 0 0 0
  | .tretKill g => encA 0xD1 g 2 0 0 0 0
  | .mfs g grp index d => encA 0xD2 g grp d 0 0 index
  | .mts g grp index a => encA 0xD3 g grp 0 a 0 index
  | .cctlWrite g a => encA 0xD3 g 1 0 a 0 0
  | .bfmtWrite g n a => encA 0xD3 g 2 0 a 0 (0#7 ++ n)
  | .pgselWrite g n a => encA 0xD3 g 3 0 a 0 (0#7 ++ n)
  | .clAmodeWrite g a => encA 0xD3 g 6 0 a 0 1
  | .tierWmWrite g tier a => encA 0xD3 g 7 0 a 0 (0#8 ++ (tier + 1))
  | .clOvfWrite g a => encA 0xD3 g 6 0 a 0 2
  | .clOvfsRead g d => encA 0xD2 g 6 d 0 0 3
  | .segw g n a b => encA 0xD4 g (packRc n 0) 0 a b 0
  | .segr g n hi d => encA 0xD5 g (pack3b n hi false false false false) d 0 0 0
  | .pgmapMap g d a b c => encA 0xD6 g (packRc 0 0) d a b c
  | .pgmapUnmap g d a b c => encA 0xD6 g (packRc 1 0) d a b c
  | .pgmapPin g d a b c => encA 0xD6 g (packRc 2 0) d a b c
  | .pgmapUnpin g d a b c => encA 0xD6 g (packRc 3 0) d a b c
  | .pgmapDemote g d a b c => encA 0xD6 g (packRc 4 0) d a b c
  | .tlbi g kind scope a b => encA 0xD7 g (packRst (0#1 ++ kind) scope 0) 0 a b 0
  | .icinv g scope all a b => encA 0xD8 g (pack3b scope all false false false false) 0 a b 0
  | .ctxsv g a => encA 0xD9 g 0 0 a 0 0
  | .ctxld g a => encA 0xDA g 0 0 a 0 0
  | .ldphy g space width d a off => some (IWord.pack 0xDB ⟨0#1 ++ space, g, d, a, width ++ off⟩)
  | .stphy g space width d a off => some (IWord.pack 0xDC ⟨0#1 ++ space, g, d, a, width ++ off⟩)
  | .bkpt g code => encA 0xE0 g code 0 0 0 0
  | .cntr g unit d a => encA 0xE1 g (packSubTy (subBit unit) 0) d a 0 0
  | .cntctlSel g a b => encA 0xE2 g (packSubTy 0 0) 0 a b 0
  | .cntctlEn g a => encA 0xE2 g (packSubTy 1 0) 0 a 0 0
  | .cntctlClr g a => encA 0xE2 g (packSubTy 2 0) 0 a 0 0
  | .cntctlUclr g a => encA 0xE2 g (packSubTy 3 0) 0 a 0 0
  | .mark g a => encA 0xE3 g 0 0 a 0 0
  | _ => none

end Sys2Proof
end

