-- ==== Sys2Proof/Machine/Matrix.lean ====
section
/-! DEFINITION. The matrix pair: claims, descriptors and their checks, acceptance, K-blocks, drains, and the matrix group,
majors 0x80 to 0x85 (11_matrix.md R293 to R317). -/

namespace Sys2Proof.Machine

/-! Pairs (R293, R294, R312). -/

/-- The leader of a core's pair. -/
def leaderOf (core : Nat) : Nat := core - core % 2

/-- Nothing in the cells (R303). -/
def MatPair.fresh : MatPair :=
  { tiles := [], ter := (0, 0), sat := false, err := false, poison := (false, false), flags := 0, queue := [],
    stopping := false }

def modPair (leader : Nat) (f : MatPair → MatPair) : M Unit :=
  modCore leader fun (c : Core) =>
    let p := c.pair.map f
    { c with pair := p }

/-- A team of a core, pre-empted teams among them. -/
def Core.anyTeam (c : Core) (tag : Nat) : Option Team :=
  match c.team tag with
  | some t => some t
  | none => (c.preempted.find? (·.team.tag = tag)).map (·.team)

/-- The holder's domain of a half; a team keeps its half while it is pre-empted (R293). -/
def State.halfDomain (s : State) (core : Nat) : Option Nat :=
  ((s.core core).half.bind fun h => (s.core core).anyTeam h.team).map fun t => s.domainOf t.rcb

/-- Forms the pair where both halves are held in one domain (R293). -/
def formPair (leader : Nat) : M Unit := do
  let s ← get
  match s.halfDomain leader, s.halfDomain (leader + 1) with
  | some a, some b => if a = b && (s.core leader).pair.isNone then modCore leader fun c => { c with pair := some .fresh }
  | _, _ => pure ()

/-- Takes the half of a core for a team. -/
def takeHalf (core tag : Nat) : M Unit := do
  if (← getCore core).half.isNone then
    modCore core fun c => { c with half := some { team := tag, driver := none } }
    formPair (leaderOf core)

/-- The next cycle is one of the pair's work; each cycle is once (R295). -/
def stepSoon (leader : Nat) : M Unit := do
  let s ← get
  if !(s.timers.any fun t => t.2 == .kBlockStep leader) then atCycle (s.clk.toNat + 1) (.kBlockStep leader)

/-- Gives up a team's half: the pair is no longer formed, here or in a save (R310). -/
def dropHalf (core tag : Nat) : M Unit := do
  match (← getCore core).half with
  | some h =>
    if h.team = tag then
      modCore core fun c => { c with half := none }
      let l := leaderOf core
      modCore l fun c => { c with pair := none }
      for k in [l, l + 1] do
        modCore k fun c =>
          { c with preempted := c.preempted.map fun p => if p.half.isSome then { p with pair := none, partner := none } else p }
  | none => pure ()

/-- The turn's team holds the half of its core. -/
def State.holdsHalf (s : State) : Bool :=
  match s.here.half with
  | some h => s.myTeam.isSome && h.team = s.me.team
  | none => false

/-- The turn's context is the driver of its pair. -/
def State.isDriver (s : State) : Bool :=
  match s.here.half with
  | some h => s.hereId % 2 = 0 && s.myTeam.isSome && h.team = s.me.team && h.driver = s.seat && s.seat.isSome
  | none => false

def State.myPair (s : State) : Option MatPair := (s.core (leaderOf s.hereId)).pair

/-! Descriptors (R296 to R299). -/

/-- The physical number of a descriptor register: a team's four, or all eight for a context of no team. -/
def State.mdReg (s : State) (o : Opnd) : Option Nat :=
  match opOf o with
  | .md n => match s.myTeam with
    | some t => if n < 4 then some (4 * t.half + n) else none
    | none => some n
  | _ => none

def Core.mdWords (c : Core) (r : Nat) : List W64 := (List.range 8).map fun i => Store.get 0 c.md (8 * r + i)

def mdKind (w : List W64) : Nat := field (rqW w 4) 0 4
def mdSwz (w : List W64) : Nat := field (rqW w 4) 10 2
def mdLvl (w : List W64) : Nat := field (rqW w 4) 5 3
def mdOstride (w : List W64) : Int := ((rqW w 1).extractLsb' 32 32).toInt
def mdChannels (w : List W64) : Nat := 32 * (field (rqW w 2) 40 8 + 1)
def mdPos (w : List W64) : Nat := field (rqW w 2) 8 20

/-- K of an operand. -/
def mdK (w : List W64) : Nat :=
  if mdKind w = 4 then (field (rqW w 2) 36 4 + 1) * mdChannels w else 32 * (field (rqW w 1) 8 12 + 1)

/-- Elements of an operand. -/
def mdElems (w : List W64) : Nat := if mdKind w = 4 then (mdPos w + 1) * mdChannels w else 32 * mdK w

/-- Bytes of an operand: its elements and their scales. -/
def mdLen (w : List W64) : Nat := mdElems w + mdElems w / 32

/-- SHAPE. -/
def mdShapeBad (w : List W64) : Bool :=
  let k := mdKind w
  field (rqW w 1) 20 12 ≠ 0 || field (rqW w 1) 0 8 ≠ 0 || field (rqW w 2) 48 16 ≠ 0 || field (rqW w 2) 0 8 ≠ 0 ||
  field (rqW w 3) 32 32 ≠ 0 || field (rqW w 4) 12 52 ≠ 0 || (rqW w 4).getLsbD 4 || rqW w 5 ≠ 0 || rqW w 6 ≠ 0 ||
  rqW w 7 ≠ 0 ||
  (k ≠ 5 && field (rqW w 1) 32 32 ≠ 0) || (4 ≤ k && field (rqW w 1) 8 12 ≠ 0) ||
  (k ≠ 4 && (field (rqW w 2) 8 40 ≠ 0 || rqW w 3 ≠ 0)) || (k ≠ 1 && mdLvl w ≠ 0) || 6 < mdLvl w ||
  (k = 5 && field (rqW w 4) 8 2 ≠ 0) ||
  (k = 4 && field (rqW w 2) 32 4 = 0) || (k ≠ 5 && 4096 < mdK w)

/-- LAYOUT. -/
def mdLayoutBad (w : List W64) : Bool :=
  (decide (mdKind w = 1) != decide (mdSwz w = 3)) ||
  ((mdSwz w = 1 || mdSwz w = 2) && !isAperture (rqW w 0))

/-- ALIGN. -/
def mdAlignBad (w : List W64) : Bool :=
  let u : Nat := if mdSwz w = 1 || mdSwz w = 2 then 64 else 4
  if mdKind w = 5 then (rqW w 0).toNat % u ≠ 0 || mdOstride w % (u : Int) ≠ 0 else (rqW w 0).toNat % 64 ≠ 0

/-- The cause that an image latches, of causes 1 to 4. -/
def mdCauseOf (w : List W64) : Nat :=
  if mdKind w = 0 || 6 ≤ mdKind w then 2
  else if mdShapeBad w then 1
  else if mdLayoutBad w then 3
  else if mdAlignBad w then 4
  else 0

/-! Extents and their checks (R300, R301). -/

/-- Formats of banks allowed for an image's rows; `f32`: the drain's mode. -/
def mdFormats (w : List W64) (f32 : Bool) : List Nat :=
  match mdKind w with
  | 1 => [7]
  | 5 => if f32 then [1, 0] else [4, 0]
  | _ => [6, 0]

/-- The range of bytes that an image covers: for OUT from its lowest byte to its highest (10_shuttle.md R281). -/
def mdRange (w : List W64) : W64 × Nat :=
  if mdKind w = 5 then
    (lineAddr (rqW w 0) (mdOstride w) (if mdOstride w < 0 then 31 else 0), 31 * (mdOstride w).natAbs + 128)
  else (rqW w 0, mdLen w)

/-- Footprint of an image (10_shuttle.md R281). -/
def State.mdExtent (s : State) (w : List W64) : Extent :=
  let a := rqW w 0
  let st : Int := if mdKind w = 5 then mdOstride w else 0
  let n := if mdKind w = 5 then 128 else mdLen w
  let lines := if mdKind w = 5 then 32 else 1
  if isAperture a then
    match apertureTarget s.hereId a with
    | some (k, off) => let i := span off st lines n; .rows k i.1 i.2
    | none => .nothing
  else
    let i := span ((s.me.virtOf a).toNat) st lines n
    .glob i.1 i.2

/-- Pages of a range: fine pages singly. -/
def State.rangePages (s : State) (dom va len : Nat) : List (Bool × Nat) :=
  if len = 0 then [] else
  ((List.range ((va + len - 1) / 2 ^ 21 - va / 2 ^ 21 + 1)).flatMap fun j =>
    let p := va / 2 ^ 21 + j
    if s.inFine s.hereId (s.domAsn dom) (p * 2 ^ 21) then
      let lo := max va (p * 2 ^ 21)
      let hi := min (va + len) ((p + 1) * 2 ^ 21)
      (List.range ((hi - 1) / 1024 - lo / 1024 + 1)).map fun k => (true, lo / 1024 + k)
    else [(false, p)])

/-- The global pages of an image. -/
def State.mdPages (s : State) (w : List W64) : List (Bool × Nat) :=
  let p := mdRange w
  if isAperture p.1 then [] else (s.rangePages s.myDomain (s.me.virtOf p.1).toNat p.2).dedup

/-- CheckExtents on one range: the trap and its rank. -/
def State.mdRangeTrap (s : State) (store : Bool) (p : W64 × Nat) : Option (Nat × Trap) :=
  if isAperture p.1 then
    match apertureTarget s.hereId p.1 with
    | none => some (0, { cause := 8, addr := p.1 })
    | some (core, off) =>
      if s.sys.retired.contains core || 0x18000 < off + p.2 ||
          !s.rowsAllowed s.myDomain s.me.supervisor core off p.2 store then some (0, { cause := 8, addr := p.1 })
      else none
  else
    let sn := field p.1 61 3
    let g := s.me.seg sn
    if !segRights g s.me.supervisor (if store then .store else .load) then
      some (1, { cause := 9, detail := sn, addr := p.1 })
    else if segLimit g < field p.1 0 61 + p.2 then some (2, { cause := 10, detail := sn, addr := p.1 })
    else none

/-- CheckRows on one range. -/
def State.mdRowTrap (s : State) (swz : Nat) (formats : List Nat) (p : W64 × Nat) : Option Trap :=
  if !isAperture p.1 then none else
  match apertureTarget s.hereId p.1 with
  | none => none
  | some (core, off) =>
    (rowsOf off p.2).findSome? fun r =>
      if tagLayout ((s.core core).tag r) ≠ swz then some { cause := 14 }
      else if !formats.contains ((s.core core).fmtAt (64 * r)) then some { cause := 13, addr := p.1 }
      else none

/-- The checks of acceptance on every image that a command names. -/
def checkImages (imgs : List (List W64 × Bool)) (f32 : Bool) : M Unit := do
  let s ← get
  let ranges := imgs.map fun i => (i.2, mdRange i.1)
  let traps := ranges.filterMap fun r => s.mdRangeTrap r.1 r.2
  match firstCause (traps.map fun t => (0, t.1, t.2)) with
  | some t => throw (.trap { t with lanes := none })
  | none => pure ()
  for i in imgs do
    match s.mdRowTrap (mdSwz i.1) (mdFormats i.1 f32) (mdRange i.1) with
    | some t => throw (.trap t)
    | none => pure ()

/-- TranslateData: every page confirmed, as an access of the context (07_addresses.md R198, R219). -/
def confirmPages (pages : List (Bool × Nat)) (u : Use) : M (List (Bool × Nat × Nat)) := do
  let mut got : List (Bool × Nat × Nat) := []
  let mut waits : List (Option Ev) := []
  for p in pages do
    let va := if p.1 then p.2 * 1024 else p.2 * 2 ^ 21
    match ← translateMine va u with
    | .ok pa => got := got ++ [(p.1, p.2, pa)]
    | .page d => trapWith 11 d (BitVec.ofNat 64 va)
    | .wait j => waits := waits ++ [j]
  if !waits.isEmpty then
    askPages (got.map (·.2.2)) waits
    hold .matrixBusy { agent := true, alone := true }
  return got

/-! Plane residency (R302). -/

/-- The byte ranges of plane p of a nested-plane operand, its offset from the base; the scales belong to plane 7. -/
def planeRanges (w : List W64) (p : Nat) : List (Nat × Nat) :=
  let n := mdElems w
  ((7 - p) * (n / 8), n / 8) :: (if p = 7 then [(n, n / 32)] else [])

/-- What the probe finds: the code of R234, the served level, whether a page was logged, and the pages that are
valid. -/
structure Probe where
  code : Nat
  served : Nat
  logged : Bool
  pages : List (Bool × Nat × Nat)
  deriving DecidableEq, Repr

/-- The pages of one plane that are valid, and those that are not; none for a bad one. -/
def probePlane (base : Nat) (w : List W64) (p : Nat) : M (Option (List (Bool × Nat × Nat) × List (Bool × Nat))) := do
  let s ← get
  let mut ok : List (Bool × Nat × Nat) := []
  let mut gone : List (Bool × Nat) := []
  for q in ((planeRanges w p).flatMap fun r => s.rangePages s.myDomain (base + r.1) r.2).dedup do
    let va := if q.1 then q.2 * 1024 else q.2 * 2 ^ 21
    match ← translateMine va .read false with
    | .ok pa => ok := ok ++ [(q.1, q.2, pa)]
    | .page d => if d = 1 then gone := gone ++ [q] else return none
    | .wait _ => gone := gone ++ [q]
  return some (ok, gone)

/-- PlaneResidency of an operand at a virtual base. -/
def planeResidency (base : Nat) (w : List W64) : M Probe := do
  let s ← get
  let lvl := mdLvl w
  let mut pages : List (Bool × Nat × Nat) := []
  let mut gone : List (Nat × Bool × Nat) := []
  for j in List.range 8 do
    match ← probePlane base w (7 - j) with
    | none => return { code := 4, served := 15, logged := false, pages := [] }
    | some r =>
      pages := pages ++ r.1
      gone := gone ++ r.2.map fun q => (7 - j, q)
  let bad (L : Nat) : Bool := gone.any fun g => L ≤ g.1
  if !bad lvl then return { code := 0, served := lvl, logged := false, pages := pages.dedup }
  let mut logged := false
  for g in gone do
    if lvl ≤ g.1 then
      let va := if g.2.1 then g.2.2 * 1024 else g.2.2 * 2 ^ 21
      if ← wantPage s.hereId s.myDomain va g.2.1 3 lvl g.1 then logged := true
  match (List.range 7).find? fun L => lvl ≤ L && !bad L with
  | some L => return { code := 1, served := L, logged := logged, pages := pages.dedup }
  | none => return { code := 2, served := 15, logged := logged, pages := [] }

/-! Acceptance (R300, R305 to R307). -/

/-- The checks that end with a cause, in the order of R300. `wrong`: kinds or K disagree. -/
def State.matCause (s : State) (regs : List Nat) (wrong : Bool) : Nat :=
  if s.myPair.isNone then 5
  else if !s.isDriver then 6
  else match (regs.map fun r => Store.get 0 s.here.mdCause r).find? (· ≠ 0) with
    | some c => c
    | none => if wrong then 2 else 0

/-- The wait for room and for earlier work that writes a byte of the command's extents; the reads and writes that the
command declares. -/
def matGate (reads writes : List (List W64)) : M (List Extent × List Extent) := do
  let s ← get
  let r := reads.map s.mdExtent
  let w := writes.map s.mdExtent
  let q := s.here.matQueue
  let busy := 8 ≤ q.length || (q.any fun c => s.footsMeet [] c.writes (r ++ w) []) ||
    s.here.shuttle.any fun x => match x.2 with
      | some e => (e.state = .queued || e.state = .running) && s.footsMeet [] [s.writeExtent s.hereId e] (r ++ w) []
      | none => false
  if busy then hold .matrixBusy { alone := true }
  return (r, w)

/-- Enters a command in the pair's queue. -/
def enqueue (q : MatCmd) : M Unit := do
  let s ← get
  let l := leaderOf s.hereId
  modPair l fun p => { p with queue := p.queue ++ [q] }
  stepSoon l
  laterOnce (.drainComplete l)

def State.globalBase (s : State) (w : List W64) : Nat :=
  if isAperture (rqW w 0) then 0 else (s.me.virtOf (rqW w 0)).toNat

/-- The low ten bits, signed. -/
def signed10 (v : W64) : Int := (v.extractLsb' 0 10).toInt

/-! Reading operands (R298, R306). -/

/-- Where byte `o` of an operand in scratchpad lies from its base (R298). -/
def swzByte (swz : Nat) (o : Int) : Int :=
  let i := o / 64
  let j := (o % 64).toNat
  match swz with
  | 1 => 64 * i + (4 * (Nat.xor (j / 4) (i % 16).toNat) + j % 4 : Nat)
  | 2 => 64 * i + (8 * (Nat.xor (j / 8) (i % 8).toNat) + j % 8 : Nat)
  | _ => o

/-- The physical address of a virtual one under a command's pages. -/
def MatCmd.phys (q : MatCmd) (va : Nat) : Option Nat :=
  q.pages.findSome? fun p =>
    if p.1 && p.2.1 = va / 1024 then some (p.2.2 + va % 1024)
    else if !p.1 && p.2.1 = va / 2 ^ 21 then some (p.2.2 + va % 2 ^ 21) else none

/-- The copy with which the pair's tile-layout cache answers a read of a line (09_sharing.md R245), as `State.pathAnswer`
says it. -/
def State.tileAnswer (s : State) (leader line : Nat) : Option (List Byte) :=
  match cacheFind (s.core leader).tileCache tileGeo line with
  | some (_, l) =>
    if l.bytes = s.pocBytes (64 * line) 64 || Config.pathStale s.ticks line then some l.bytes else none
  | none => none

/-- A line of a command's operand through the cache; none where an uncorrectable error is found. -/
def readTile (leader : Nat) (q : MatCmd) (w : List W64) (line va : Nat) : M (Option (List Byte)) := do
  let s ← get
  match s.tileAnswer leader line with
  | some bs =>
    modCore leader fun c => { c with tileCache := cacheHit c.tileCache tileGeo line }
    return some bs
  | none =>
    if Place1.poisoned s (.phys (64 * line) va 64) then return none
    let asn := match (s.core q.core).anyTeam q.team with
      | some t => s.domAsn (s.domainOf t.rcb)
      | none => 0
    let reuse := field (rqW w 4) 8 2
    let bs := s.pocBytes (64 * line) 64
    let fine := q.pages.any fun g => g.1 && g.2.1 = va / 1024
    let l : CLine := { line := line, rrv := reuse, dirty := 0, asn := asn, page := va / 1024, fine := fine, bytes := bs }
    modCore leader fun c => { c with tileCache := cachePut c.tileCache tileGeo l }
    modify fun s => s.homed (64 * line) reuse true false
    return some bs

/-- `n` bytes of an operand from logical offset `o` on; none where an uncorrectable error is found. -/
def matBytes (leader : Nat) (q : MatCmd) (w : List W64) (va o n : Nat) : M (Option (List Byte)) := do
  let s ← get
  if isAperture (rqW w 0) then
    match apertureTarget q.core (rqW w 0) with
    | none => return none
    | some (core, off) =>
      let c := s.core core
      let at_ := (List.range n).map fun j => off + (swzByte (mdSwz w) (o + j : Nat)).toNat
      if at_.any fun a => tagPoison (c.tag (a / 64)) then return none
      return some (at_.map fun a => Store.get 0 c.rows a)
  else
    let mut bs : List Byte := []
    for line in linesOf (va + o) n do
      match q.phys (64 * line) with
      | none => return none
      | some pa =>
        match ← readTile leader q w (pa / 64) (64 * line) with
        | none => return none
        | some l => bs := bs ++ l
    return some ((bs.drop ((va + o) % 64)).take n)

/-- A signed byte. -/
def byteInt (b : Byte) : Int := b.toInt

/-- The 32 weights of row m in K-block jb, and their scale (R304). -/
def weights (leader : Nat) (q : MatCmd) (m jb : Nat) : M (Option (List Int × Nat)) := do
  let n := mdElems q.a
  let e := m * mdK q.a + 32 * jb
  match ← matBytes leader q q.a q.va.1 (n + e / 32) 1 with
  | none => return none
  | some sc =>
    let scale := (sc.headD 0).toNat
    if q.bi8 then
      match ← matBytes leader q q.a q.va.1 e 32 with
      | none => return none
      | some bs => return some (bs.map byteInt, scale)
    else
      let mut acc : List Nat := List.replicate 32 0
      for j in List.range (8 - q.level) do
        match ← matBytes leader q q.a q.va.1 (j * (n / 8) + e / 8) 4 with
        | none => return none
        | some bs =>
          let word := bytesToNat bs
          acc := acc.mapIdx fun i v => if word.testBit i then v + 2 ^ (7 - j) else v
      let half : Int := if q.level = 0 then 0 else 2 ^ (q.level - 1)
      return some (acc.map fun v => byteInt (BitVec.ofNat 8 v) + half, scale)

/-- The 32 activations of column j in K-block jb, and their scale (R297). -/
def activations (leader : Nat) (q : MatCmd) (j jb : Nat) : M (Option (List Int × Nat)) := do
  let n := mdElems q.b
  let c := mdChannels q.b
  let w2 := rqW q.b 2
  let t := 32 * jb / c
  let p : Int := ((field (rqW q.b 3) 0 32 + j) * field w2 32 4 + t : Nat) - (field w2 28 4 : Nat)
  if q.unf && (p < 0 || (mdPos q.b : Int) < p) then return some (List.replicate 32 0, 127)
  let e := if q.unf then p.toNat * c + 32 * jb % c else j * mdK q.b + 32 * jb
  match ← matBytes leader q q.b q.va.2 e 32, ← matBytes leader q q.b q.va.2 (n + e / 32) 1 with
  | some bs, some sc => return some (bs.map byteInt, (sc.headD 0).toNat)
  | _, _ => return none

/-! K-blocks (R303, R304). -/

def cellMax : Int := 2 ^ 47 - 1

/-- A cell's gain from a K-block: the value, and NV and NX. -/
def cellGain (er : Int) (w b : List Int × Nat) : Int × FlagSet :=
  let bad := w.2 = 255 || b.2 = 255
  let p : Int := if bad then 0 else (List.zipWith (· * ·) w.1 b.1).foldl (· + ·) 0
  let sh : Int := ((w.2 : Int) - 127) + ((b.2 : Int) - 127) - er
  let r := roundAt 1 (decide (p < 0)) p.natAbs 1 sh 0
  (signed (decide (p < 0)) r.1, (if bad then flagNV else 0) ||| (if r.2 then flagNX else 0))

/-- A cell after a gain: saturated at its ends. -/
def cellAdd (c x : Int) : Int × Bool := (clampTo (-(2 ^ 47)) cellMax (c + x), decide (c + x ≠ clampTo (-(2 ^ 47)) cellMax (c + x)))

/-- One K-block over a tile: the cells of a row after it, its flags and SAT. -/
def cellRow (p : MatPair) (base m : Nat) (er : Int) (w : List Int × Nat) (cols : List (List Int × Nat)) : MatPair :=
  (List.range 32).foldl (fun p j =>
    let g := cellGain er w (cols.getD j ([], 127))
    let at_ := base + 32 * m + j
    let r := cellAdd (Store.get 0 p.tiles at_).toInt g.1
    { p with tiles := Store.set 0 p.tiles at_ (BitVec.ofInt 48 r.1), sat := p.sat || r.2, flags := p.flags ||| g.2 }) p

def MatPair.setPoison (p : MatPair) (t : Nat) (b : Bool) : MatPair :=
  { p with poison := if t = 0 then (b, p.poison.2) else (p.poison.1, b) }

def MatPair.setTer (p : MatPair) (t : Nat) (e : Int) : MatPair :=
  { p with ter := if t = 0 then (e, p.ter.2) else (p.ter.1, e) }

def MatPair.getTer (p : MatPair) (t : Nat) : Int := if t = 0 then p.ter.1 else p.ter.2
def MatPair.getPoison (p : MatPair) (t : Nat) : Bool := if t = 0 then p.poison.1 else p.poison.2

/-- Clears a tile set and its POISON. -/
def MatPair.clearTile (p : MatPair) (t : Nat) : MatPair :=
  let q : MatPair := { p with tiles := p.tiles.filter fun x => !(1024 * t ≤ x.1 && x.1 < 1024 * t + 1024) }
  q.setPoison t false

/-- A finished command leaves the queue; what waited for it is looked at. -/
def finishCmd (leader idx : Nat) : M Unit := do
  modPair leader fun p => { p with queue := p.queue.eraseIdx idx }
  stepSoon leader
  laterOnce (.drainComplete leader)
  wakeQueued leader
  for k in [leader, leader + 1] do
    for t in (← getCore k).teams do
      if t.exiting then laterOnce (.exit k (BitVec.ofNat 16 t.tag))

/-- The weights of the 32 rows and the activations of the 32 columns of a K-block. -/
def fetchBlock (leader : Nat) (q : MatCmd) (jb : Nat) : M (Option (List (List Int × Nat) × List (List Int × Nat))) := do
  let mut rows : List (List Int × Nat) := []
  let mut cols : List (List Int × Nat) := []
  for k in List.range 32 do
    match ← weights leader q k jb, ← activations leader q k jb with
    | some w, some b =>
      rows := rows ++ [w]
      cols := cols ++ [b]
    | _, _ => return none
  return some (rows, cols)

/-- One K-block of the MMA at a place in the queue. -/
def blockStep (leader idx : Nat) (q : MatCmd) : M Unit := do
  if q.step = 0 && q.clr then modPair leader fun p => p.clearTile q.tset
  match ← fetchBlock leader q q.step with
  | none =>
    modPair leader fun p => { p.setPoison q.tset true with err := true }
    finishCmd leader idx
  | some (rows, cols) =>
    modPair leader fun p => (List.range 32).foldl (fun p m =>
      cellRow p (1024 * q.tset) m q.er (rows.getD m ([], 127)) cols) p
    if 32 * (q.step + 1) = mdK q.a then
      modPair leader fun p => p.setTer q.tset q.er
      finishCmd leader idx
    else
      modPair leader fun p => { p with queue := p.queue.set idx { q with step := q.step + 1, cycles := 0 } }
      stepSoon leader

/-- A command of the pair's queue may work: no earlier command of its tile set is incomplete, and no earlier command of
the pair, or earlier transfer of the leader, with a conflicting footprint (R306, R308; 09_sharing.md R260). -/
def State.cmdReady (s : State) (leader : Nat) (l : List MatCmd) (i : Nat) (q : MatCmd) : Bool :=
  !((l.take i).any fun d =>
    ((decide (d.kind = 0) != decide (q.kind = 0)) && d.tset = q.tset) || s.footsMeet d.reads d.writes q.reads q.writes) &&
  !((s.core leader).shuttle.any fun x => match x.2 with
    | some e => e.order < q.order && (e.state = .queued || e.state = .running) &&
        s.footsMeet [readExtent leader e] [s.writeExtent leader e] q.reads q.writes
    | none => false)

/-- The next MMA, or the next drain, that may work. -/
def State.nextCmd (s : State) (leader : Nat) (mma : Bool) (l : List MatCmd) : Option (Nat × MatCmd) :=
  match l.findIdx? fun q => decide (q.kind = 0) = mma with
  | none => none
  | some i =>
    match l[i]? with
    | none => none
    | some q => if s.cmdReady leader l i q then some (i, q) else none

/-- A core has credit left in its power window (01_package.md R19, R20). -/
def Core.credit (c : Core) : Bool := c.nv + c.nm < 320

/-- K_BLOCK_STEP: one cycle of the pair's work on a K-block, in which both cores must have credit (R295, R306). A pair that
a halt or a pre-emption holds stops at the end of a K-block (R310). -/
def execKBlockStep (leader : Nat) (s : State) : Host.Outcome State Fault Refusal :=
  (do
    let s ← get
    match (s.core leader).pair with
    | none => pure ()
    | some p =>
      match s.nextCmd leader true p.queue with
      | none => pure ()
      | some (idx, q) =>
        if ((s.core leader).frozen || p.stopping) && q.cycles = 0 then pure ()
        else if (s.core leader).credit && (s.core (leader + 1)).credit then
          for k in [leader, leader + 1] do
            modCore k fun c => { c with nm := c.nm + 1 }
            bumpUnit k 2
          if q.cycles + 1 < 32 * (8 - q.level) then
            modPair leader fun p => { p with queue := p.queue.set idx { q with cycles := q.cycles + 1 } }
            stepSoon leader
          else blockStep leader idx q
        else
          for k in [leader, leader + 1] do bumpUnit k 3
          stepSoon leader : M Unit).toOutcome s

/-! Drains (R307). -/

/-- A cell drained under s32 or f32: its bits, its flags and saturation. -/
def drainCell (q : MatCmd) (ter c : Int) : Nat × FlagSet × Bool :=
  if q.kind = 1 then
    let r := roundAt 1 (decide (c < 0)) c.natAbs 1 (ter - q.er) 0
    let v := signed (decide (c < 0)) r.1
    let k := clampTo (-(2 ^ 31)) (2 ^ 31 - 1) v
    ((BitVec.ofInt 32 k).toNat, (if r.2 then flagNX else 0), decide (v ≠ k))
  else
    let r := roundNum f32Fmt { rm := 1, ftz := false } (decide (c < 0)) c.natAbs ter
    (r.1, r.2, false)

/-- Writes row m of a drained tile to OUT: 32 values. The rows that receive a byte take the layout (06_scratchpad.md
R159). -/
def drainWrite (q : MatCmd) (m : Nat) (vals : List Nat) : M Unit := do
  let w := q.a
  let o : Int := mdOstride w * m
  let bs := vals.flatMap (natToBytes 4)
  if isAperture (rqW w 0) then
    match apertureTarget q.core (rqW w 0) with
    | none => pure ()
    | some (core, off) =>
      let at_ (j : Nat) : Nat := ((off : Int) + swzByte (mdSwz w) (o + (4 * j : Nat))).toNat
      let rows := ((List.range 32).map fun j => at_ j / 64).dedup
      modCore core fun (c : Core) =>
        let put := { c with rows := (List.range 32).foldl (fun r j => Store.writeN r (at_ j) 4 (vals.getD j 0)) c.rows }
        let whole := rows.filter fun r => ((List.range 32).filter fun j => at_ j / 64 = r).length = 16
        rows.foldl (fun c r => c.putTag r (setLayout (c.tag r) (mdSwz w))) (put.cleanRows whole)
  else
    let va := ((q.va.1 : Int) + o).toNat
    for line in linesOf va 128 do
      let lo := max va (64 * line)
      let hi := min (va + 128) (64 * line + 64)
      match q.phys lo with
      | none => pure ()
      | some pa =>
        writePhysBytes pa ((bs.drop (lo - va)).take (hi - lo))
        engineWrote q.core pa (hi - lo)

/-- A row of a tile drained to OUT. -/
def drainRow (leader : Nat) (q : MatCmd) (ter : Int) (cells : List Int) (m : Nat) : M Unit := do
  let rs := cells.map (drainCell q ter)
  drainWrite q m (rs.map (·.1))
  modPair leader fun p =>
    { p with flags := allFlags (p.flags :: rs.map (·.2.1)), sat := p.sat || rs.any (·.2.2) }

/-- Reads out a tile. -/
def drainTile (leader : Nat) (q : MatCmd) (p : MatPair) : M Unit := do
  let ter := p.getTer q.tset
  for m in List.range 32 do
    let cells := (List.range 32).map fun j => (Store.get 0 p.tiles (1024 * q.tset + 32 * m + j)).toInt
    if q.kind = 3 then
      for j in List.range 32 do
        if q.mask.getLsbD j then
          let c := cells.getD j 0
          modAcc leader q.team q.acc fun a st => accAddNum a st (.fin (decide (c < 0)) c.natAbs ter)
    else drainRow leader q ter cells m

/-- DRAIN_COMPLETE: the next drain whose set is ready is performed (R306, R307). -/
def execDrainComplete (leader : Nat) (s : State) : Host.Outcome State Fault Refusal :=
  (do
    match (← getCore leader).pair with
    | none => pure ()
    | some p =>
      if (s.core leader).frozen || p.stopping then pure ()
      else match (← get).nextCmd leader false p.queue with
        | none => pure ()
        | some (idx, q) =>
          if p.getPoison q.tset then modPair leader fun p => { p with err := true }
          else drainTile leader q p
          if q.clr then modPair leader fun p => p.clearTile q.tset
          finishCmd leader idx : M Unit).toOutcome s

/-! The instructions (R311 to R317). -/

def matReq (g : Guard) (ok : State → Bool) (srcs dsts : List Opnd) : Req :=
  { guard := g, cls := some 2, ok := ok, srcs := srcs, dsts := dsts }

/-- What `MpairLead` asks of its issue. The claim is made once, when it issues; then it waits (R312). -/
def mpairLeadReq (g : Guard) (d : Opnd) (b : Opnd) : Req :=
  (matReq g (fun s => s.predOk d && s.valOk b) [b] [d])

def mpairLeadBody (d : Opnd) (b : Opnd) (i : Iss) : M Unit := do
  let s ← get
  let taken := match s.here.half with
    | some h => h.team ≠ s.me.team
    | none => false
  if !s.me.prog.active && (s.hereId % 2 = 1 || taken || s.myTeam.isNone) then putBool i d false
  else
    if !s.me.prog.active then
      takeHalf s.hereId s.me.team
      modHere fun (c : Core) =>
        let h := c.half.map fun h => { h with driver := s.seat }
        { c with half := h }
      modMe fun c => { c with prog := { c.prog with active := true, since := s.clk.toNat } }
    let limit := (s.sval i false b).toNat
    let formed := (← get).holdsHalf && (← get).myPair.isSome
    if !formed && (limit = 0 || s.clk.toNat < (← getMe).prog.since + limit) then hold .matrixBusy
    putBool i d formed

def execMpairLead (g : Guard) (d b : Opnd) (s : State) : Host.Outcome State Fault Refusal :=
  runIssue (mpairLeadReq g d b) (mpairLeadBody d b) s

/-- What `MpairFollow` asks of its issue. -/
def mpairFollowReq (g : Guard) (d : Opnd) : Req :=
  (matReq g (fun s => s.predOk d) [] [d])

def mpairFollowBody (d : Opnd) (i : Iss) : M Unit := do
  let s ← get
  let taken := match s.here.half with
    | some h => h.team ≠ s.me.team
    | none => false
  let other := match s.halfDomain (leaderOf s.hereId) with
    | some dom => dom ≠ s.myDomain
    | none => false
  if s.hereId % 2 = 0 || taken || other || s.myTeam.isNone then putBool i d false
  else
    takeHalf s.hereId s.me.team
    putBool i d true

def execMpairFollow (g : Guard) (d : Opnd) (s : State) : Host.Outcome State Fault Refusal :=
  runIssue (mpairFollowReq g d) (mpairFollowBody d) s

/-- What `Mrel` asks of its issue. -/
def mrelReq (g : Guard) : Req :=
  (matReq g (fun _ => true) [] [])

def mrelBody (_ : Iss) : M Unit := do
  let s ← get
  if s.holdsHalf then
    if !(s.core (leaderOf s.hereId)).matQueue.isEmpty then hold .matrixBusy
    dropHalf s.hereId s.me.team

def execMrel (g : Guard) (s : State) : Host.Outcome State Fault Refusal :=
  runIssue (mrelReq g) mrelBody s

/-- What `Mcfg` asks of its issue. -/
def mcfgReq (g : Guard) (pair : Bool) (d : Opnd) (a : Opnd) (b : Opnd) : Req :=
  (matReq g (fun s => s.predOk d && (s.mdReg a).isSome && s.cfgOk pair b) (if pair then [b, nextOpnd b] else [b]) [d])

def mcfgBody (word : BitVec 3) (pair : Bool) (d : Opnd) (a : Opnd) (b : Opnd) (i : Iss) : M Unit := do
  let s ← get
  match s.mdReg a with
  | none => illegalOperand
  | some r =>
    modHere fun c => { c with md := Store.set 0 c.md (8 * r + word.toNat) (s.cfgVal i pair b) }
    let cause := mdCauseOf ((← getHere).mdWords r)
    modHere fun c => { c with mdCause := Store.set 0 c.mdCause r cause }
    putBool i d (cause = 0)

def execMcfg (g : Guard) (word : BitVec 3) (pair : Bool) (d a b : Opnd) (s : State) :
    Host.Outcome State Fault Refusal :=
  runIssue (mcfgReq g pair d a b) (mcfgBody word pair d a b) s

/-- The result word of an MMA (R315). -/
def mmaResult (cause : Nat) (logged : Bool) (wanted served code : Nat) : W64 :=
  BitVec.ofNat 64 (cause * 2 ^ 24 + (if logged then 4096 else 0) + wanted * 256 + served * 16 + code)

/-- Accepts an MMA of two images and answers its result word. -/
def acceptMma (clr t unf bi8 : Bool) (wa wb : List W64) (er : Int) : M W64 := do
  let e ← matGate [wa, wb] []
  let s ← get
  if 34 < (s.mdPages wa ++ s.mdPages wb).dedup.length then return mmaResult 7 false (if bi8 then 0 else mdLvl wa) 0 0
  checkImages [(wa, false), (wb, false)] false
  let pb ← confirmPages (s.mdPages wb) .read
  let probe ← if bi8 then do
      let pa ← confirmPages (s.mdPages wa) .read
      pure { code := 0, served := 0, logged := false, pages := pa : Probe }
    else if isAperture (rqW wa 0) then pure { code := 0, served := mdLvl wa, logged := false, pages := [] : Probe }
    else planeResidency (s.globalBase wa) wa
  if probe.code ≤ 1 then
    enqueue { kind := 0, tset := (if t then 1 else 0), clr := clr, unf := unf, bi8 := bi8, a := wa, b := wb,
              va := (s.globalBase wa, s.globalBase wb), er := er, mask := 0, acc := 0, level := probe.served,
              team := s.me.team, core := s.hereId, pages := (probe.pages ++ pb).dedup, reads := e.1, writes := e.2,
              order := s.here.shOrder, step := 0, cycles := 0 }
  if probe.code = 1 || probe.code = 2 then countEvent 0x18
  return mmaResult 0 probe.logged (if bi8 then 0 else mdLvl wa) probe.served probe.code

/-- What `Mma` asks of its issue. -/
def mmaReq (g : Guard) (d : Opnd) (a : Opnd) (b : Opnd) (c : Opnd) : Req :=
  { matReq g (fun s => s.resDst d && (s.mdReg a).isSome && (s.mdReg b).isSome && s.valOk c) [c] [d] with
    form := State.unified }

/-- MMA (R315). SERVED and CODE are 0 where CAUSE is not (DESIGN CHOICE, log 128). -/
def mmaBody (clr : Bool) (t : Bool) (unf : Bool) (bi8 : Bool) (d : Opnd) (a : Opnd) (b : Opnd) (c : Opnd) (i : Iss) : M Unit := do
  let s ← get
  match s.mdReg a, s.mdReg b with
  | some ra, some rb =>
    let wa := s.here.mdWords ra
    let wb := s.here.mdWords rb
    let wrong := mdKind wa ≠ (if bi8 then 2 else 1) || mdKind wb ≠ (if unf then 4 else 3) || mdK wa ≠ mdK wb
    let cause := s.matCause [ra, rb] wrong
    let v ← if cause ≠ 0 then pure (mmaResult cause false (if bi8 then 0 else mdLvl wa) 0 0)
      else acceptMma clr t unf bi8 wa wb (signed10 (s.sval i false c))
    putScalar i d v
  | _, _ => illegalOperand

def execMma (g : Guard) (clr t unf bi8 : Bool) (d a b c : Opnd) (s : State) : Host.Outcome State Fault Refusal :=
  runIssue (mmaReq g d a b c) (mmaBody clr t unf bi8 d a b c) s

/-- A drain command without its destination. -/
def drainCmd (s : State) (kind : Nat) (t clr : Bool) : MatCmd :=
  { kind := kind, tset := (if t then 1 else 0), clr := clr, unf := false, bi8 := false, a := [], b := [], va := (0, 0),
    er := 0, mask := 0, acc := 0, level := 0, team := s.me.team, core := s.hereId, pages := [], reads := [],
    writes := [], order := s.here.shOrder, step := 0, cycles := 0 }

/-- Accepts a drain to OUT and answers its cause. -/
def acceptDrain (f32 t clr : Bool) (w : List W64) (erd : Int) : M Nat := do
  let e ← matGate [] [w]
  let s ← get
  if 34 < (s.mdPages w).length then return 7
  checkImages [(w, true)] f32
  let pages ← confirmPages (s.mdPages w) .write
  enqueue { drainCmd s (if f32 then 2 else 1) t clr with
              a := w, va := (s.globalBase w, 0), er := erd, pages := pages, writes := e.2 }
  return 0

/-- What `Mdrain` asks of its issue. -/
def mdrainReq (g : Guard) (f32 : Bool) (d : Opnd) (a : Opnd) (b : Opnd) : Req :=
  { matReq g (fun s => s.resDst d && (s.mdReg a).isSome && (f32 || s.valOk b)) (if f32 then [] else [b]) [d] with
    form := State.unified }

def mdrainBody (f32 : Bool) (t : Bool) (clr : Bool) (d : Opnd) (a : Opnd) (b : Opnd) (i : Iss) : M Unit := do
  let s ← get
  match s.mdReg a with
  | some r =>
    let w := s.here.mdWords r
    let cause := s.matCause [r] (mdKind w ≠ 5)
    let cause ← if cause ≠ 0 then pure cause
      else acceptDrain f32 t clr w (if f32 then 0 else signed10 (s.sval i false b))
    putScalar i d (mmaResult cause false 0 0 0)
  | none => illegalOperand

def execMdrain (g : Guard) (f32 t clr : Bool) (d a b : Opnd) (s : State) : Host.Outcome State Fault Refusal :=
  runIssue (mdrainReq g f32 d a b) (mdrainBody f32 t clr d a b) s

/-- What `MdrainKacc` asks of its issue. -/
def mdrainKaccReq (g : Guard) (d : Opnd) (b : Opnd) : Req :=
  (matReq g (fun s => s.hasAcc && s.resDst d && s.valOk b) [b] [d])

def mdrainKaccBody (t : Bool) (clr : Bool) (n : BitVec 2) (d : Opnd) (b : Opnd) (i : Iss) : M Unit := do
  let s ← get
  let cause := s.matCause [] false
  if cause = 0 then
    let _ ← matGate [] []
    enqueue { drainCmd s 3 t clr with mask := (s.sval i false b).setWidth 32, acc := n.toNat }
  putScalar i d (mmaResult cause false 0 0 0)

def execMdrainKacc (g : Guard) (t clr : Bool) (n : BitVec 2) (d b : Opnd) (s : State) :
    Host.Outcome State Fault Refusal :=
  runIssue (mdrainKaccReq g d b) (mdrainKaccBody t clr n d b) s

/-- The pair word of MSTAT (R317). -/
def State.pairWord (s : State) : Nat :=
  if !s.holdsHalf then 0 else
  let role := if s.hereId % 2 = 0 then 1 else 2
  let rest := match s.myPair with
    | none => 0
    | some p =>
      2 ^ 29 + p.queue.length * 2 ^ 24 + (if p.poison.2 then 2 ^ 23 else 0) + (if p.poison.1 then 2 ^ 22 else 0) +
      (if p.err then 64 else 0) + (if p.sat then 32 else 0) + p.flags.toNat
  role * 2 ^ 30 + (if s.isDriver then 2 ^ 28 else 0) + rest

/-- What `Mstat` asks of its issue. -/
def mstatReq (g : Guard) (kind : MstatKind) (d : Opnd) (a : Opnd) : Req :=
  (matReq g (fun s => s.resDst d && (match kind with
    | .pair => true
    | .latch => (s.mdReg a).isSome
    | .ter => s.valOk a)) (if kind = .ter then [a] else []) [d])

def mstatBody (kind : MstatKind) (clr : Bool) (d : Opnd) (a : Opnd) (i : Iss) : M Unit := do
  let s ← get
  match kind with
  | .pair =>
    putScalar i d (BitVec.ofNat 64 s.pairWord)
    if clr && s.holdsHalf then
      modPair (leaderOf s.hereId) fun p => { p with flags := 0, sat := false, err := false }
  | .latch =>
    let v := match s.mdReg a with
      | some r => Store.get 0 s.here.mdCause r
      | none => 0
    putScalar i d (BitVec.ofNat 64 v)
  | .ter =>
    let t := if (s.sval i false a).getLsbD 0 then 1 else 0
    let v : Int := match s.myPair with
      | some p => p.getTer t
      | none => 0
    putScalar i d (BitVec.ofInt 64 v)

def execMstat (g : Guard) (kind : MstatKind) (clr : Bool) (d a : Opnd) (s : State) :
    Host.Outcome State Fault Refusal :=
  runIssue (mstatReq g kind d a) (mstatBody kind clr d a) s

end Sys2Proof.Machine
end

