-- ==== Sys2Proof/Machine/Pricking.lean ====
section
/-! DEFINITION. Pricking: virtual ranges held in rows as owner or as replica, their refresh, and round notices
(06_scratchpad.md R169, R170; 09_sharing.md R246 to R253). -/

namespace Sys2Proof.Machine

/-- How a directory operation stands: ended with a status of R247, or waiting for a page. -/
inductive Did where
  | status (n : Nat)
  | wait
  deriving DecidableEq, Repr

/-! Pricking entries (R169, R170). -/

def prickBase (w : BitVec 128) : Nat := field w 0 51 * 64
def prickFirst (w : BitVec 128) : Nat := field w 54 11
def prickLen (w : BitVec 128) : Nat := field w 65 11
def prickMode (w : BitVec 128) : Nat := field w 78 2
def prickTeam (w : BitVec 128) : Nat := field w 80 16

/-- An entry's word. -/
def prickWord (mode vbase rows first : Nat) (rights : BitVec 2) (tag : BitVec 16) (round : Nat) : BitVec 128 :=
  BitVec.ofNat 128 (round % 2 ^ 32 * 2 ^ 96 + tag.toNat * 2 ^ 80 + mode * 2 ^ 78 + rights.toNat * 2 ^ 76 +
    rows * 2 ^ 65 + first * 2 ^ 54 + vbase / 64)

/-- The valid entries of a core with their numbers. -/
def Core.validPricks (c : Core) : List (Nat × Prick) := c.pricks.filter fun p => prickMode p.2.word ≠ 0

/-- The first free entry. -/
def Core.freePrick (c : Core) : Option Nat :=
  (List.range 32).find? fun i => prickMode (Store.get Prick.reset c.pricks i).word = 0

/-- The rows break R170: not held by the team as team rows, or out of range. -/
def Core.prickRowsBad (c : Core) (p : PrickReq) : Bool :=
  p.first < 128 || 1536 < p.first + p.rows || p.rows = 0 || 1408 < p.rows || 2 ^ 57 < p.vbase + 64 * p.rows ||
  (List.range p.rows).any fun j => let t := c.tag (p.first + j); tagClass t ≠ 4 || tagOwner t ≠ p.tag.toNat

/-- An entry of the core overlaps the request's virtual range or its rows. -/
def Core.prickOverlap (c : Core) (p : PrickReq) : Bool :=
  c.validPricks.any fun e =>
    let w := e.2.word
    (prickBase w < p.vbase + 64 * p.rows && p.vbase < prickBase w + 64 * prickLen w) ||
    (prickFirst w < p.first + p.rows && p.first < prickFirst w + prickLen w)

/-- The class of a run of rows. -/
def Core.classRows (c : Core) (first n cls : Nat) : Core :=
  (List.range n).foldl (fun c j => c.putTag (first + j) (setClass (c.tag (first + j)) cls)) c

/-- The domain of the team with a tag on a core. -/
def State.tagDomain (s : State) (core tag : Nat) : Option Nat := ((s.core core).team tag).map fun t => s.domainOf t.rcb

/-- What reading the pages of a range gives (R248 step 1): the physical address of each line, an end, or a wait. -/
inductive Lines where
  | lines (pas : List Nat)
  | fail (status : Nat)
  | wait
  deriving DecidableEq, Repr

/-- Translates every line of a range as reads of the pricking core. -/
def prickLines (dom core tag vbase rows : Nat) : M Lines := do
  let mut pas : List Nat := []
  let mut waits : List (Option Ev) := []
  for j in List.range ((vbase + 64 * rows - 1) / 1024 - vbase / 1024 + 1) do
    let lo := max vbase ((vbase / 1024 + j) * 1024)
    let hi := min (vbase + 64 * rows) ((vbase / 1024 + j + 1) * 1024)
    match ← translate dom core lo .read with
    | .ok pa => pas := pas ++ (List.range ((hi - lo) / 64)).map fun k => pa + 64 * k
    | .page d => return .fail (if d = 6 then 3 else 4)
    | .wait j => waits := waits ++ [j]
  for w in waits do awaitPage (.prick core tag) tag pas w
  return if waits.isEmpty then .lines pas else .wait

/-! Frame records (08_residency.md R217). -/

/-- An address lies in a sub-frame in use (R216). -/
def State.inSub (s : State) (pa : Nat) : Bool := recState (s.subRec pa) ≠ 0

/-- The pages of tier 0 that hold lines: the addresses of their frames and sub-frames. -/
def State.pagesOf (s : State) (pas : List Nat) : List Nat :=
  ((pas.filter tier0).map fun pa => if s.inSub pa then pa / 1024 * 1024 else pa / 2 ^ 21 * 2 ^ 21).dedup

/-- PIN and HELD of a carved frame's record: those of any of its sub-frames (log 94). -/
def sumCarved (pa : Nat) : M Unit := do
  let s ← get
  let x := frameOf pa
  let l := (Store.get [] (getSiteState s x.1).carved x.2).map fun j => s.subRec (frameBase x.1 x.2 + 1024 * j)
  let r := s.record x.1 x.2
  let bit (k : Nat) : Nat := if l.any fun q => q.getLsbD k then 1 else 0
  let r1 := recPut (recPut r 124 1 (bit 124)) 123 1 (bit 123)
  if r1 ≠ r then modify fun s => s.putRecord x.1 x.2 r1

def modPage (pa : Nat) (fine : Bool) (g : BitVec 128 → BitVec 128) : M Unit :=
  if fine then do
    modify (modSub pa g)
    sumCarved pa
  else modRecord (frameOf pa).1 (frameOf pa).2 g

/-- Sets HELD of the record of a page of tier 0. -/
def holdPage (pa : Nat) (b : Bool) : M Unit := do
  modPage pa ((← get).inSub pa) fun r => recPut r 123 1 (if b then 1 else 0)

/-- HELD of pages that a pricking entry covered is cleared where none does any more (R249 step 6). -/
def unholdPages (l : List Nat) : M Unit :=
  l.forM fun pa => do
    let s ← get
    if !(s.knownCores.any fun k => (s.core k).validPricks.any fun e => e.2.pages.contains pa) then holdPage pa false

/-! The forward directory (R246). -/

def fwdWord (owner : GlobalId) (state line : Nat) : BitVec 96 :=
  BitVec.ofNat 96 (owner.toNat * 2 ^ 74 + state * 2 ^ 72 + line * 64)

/-- The set of a line in its home's forward directory (log 24). -/
def fwdSet (line : Nat) : Nat := line % 1024

/-- The set of a line is full. -/
def Cluster.fwdFull (k : Cluster) (line : Nat) : Bool :=
  8 ≤ (k.fwd.filter fun e => fwdSet e.1 = fwdSet line).length

/-- Why a line cannot be taken, as a status (R247); 0: it can. -/
def State.lineCause (s : State) (pa : Nat) : Nat :=
  let k := Store.get Cluster.reset s.clusters (homeCluster pa)
  if Store.get 0 k.fwd (pa / 64) ≠ 0 then 2 else if k.fwdFull (pa / 64) then 1 else 0

/-- The forward directory's entry of a line; state 0 removes it. -/
def putFwd (core pa state : Nat) : M Unit := do
  let s ← get
  modCluster (homeCluster pa) fun k =>
    { k with fwd := Store.set 0 k.fwd (pa / 64) (if state = 0 then 0 else fwdWord (s.globalId core) state (pa / 64)) }

/-- A line sent back to its home, which holds it with state DIRTY; its entry is invalid (R249 steps 3 and 4). -/
def giveLine (core pa : Nat) (bs : List Byte) : M Unit := do
  putFwd core pa 0
  modify fun s => (s.bring pa 0).pocPutBytes pa bs

/-- The lines of a range allotted in state FILLING, in order, each written back to memory (R248 step 2); the status of the
first that fails, after which those taken are released. -/
def allotLines (core : Nat) : List Nat → List Nat → M Nat
  | [], _ => return 0
  | pa :: rest, taken => do
    let cause := (← get).lineCause pa
    if cause = 0 then
      modify fun s => s.unhome pa
      putFwd core pa 1
      allotLines core rest (taken ++ [pa])
    else
      for t in taken do giveLine core t (Store.bytes (← get).mem t 64)
      return cause

/-- A line written to its row; its entry becomes ACTIVE (R248 step 3). Poison of its atoms does not follow it (DESIGN CHOICE,
log 125). -/
def takeLine (core pa off : Nat) : M Unit := do
  let bs := Store.bytes (← get).mem pa 64
  modCore core fun c => { c.putRows off bs with owned := Store.set 0 c.owned (pa / 64) (off + 1) }
  putFwd core pa 2

/-- The team's segments, at its launch or now, give the rights that a request names over its range (R190, R247). -/
def State.prickRights (s : State) (core : Nat) (p : PrickReq) : Bool :=
  let c := s.core core
  let of_ (m : Store (BitVec 128)) : Bool := (List.range 8).any fun i =>
    let g := Store.get 0 m i
    g.getLsbD 63 && (!p.rights.getLsbD 0 || g.getLsbD 62) && (!p.rights.getLsbD 1 || g.getLsbD 61) &&
    segBase g ≤ p.vbase && p.vbase + 64 * p.rows ≤ segBase g + segLimit g
  (c.team p.tag.toNat).any (fun t => of_ t.segs) ||
  c.ctxs.any fun x => x.2.present && x.2.team = p.tag.toNat && of_ x.2.g

/-- Why a request creates nothing before any page is read (R170, R247): a status. Where several apply, RANGE, BUSY, RIGHTS
and FULL are reported in that order (DESIGN CHOICE, log 126). -/
def State.prickCause (s : State) (core : Nat) (p : PrickReq) : Nat :=
  let c := s.core core
  if c.prickRowsBad p || (s.tagDomain core p.tag.toNat).isNone then 4
  else if c.prickOverlap p then 2
  else if !s.prickRights core p then 3
  else if c.freePrick.isNone then 1
  else 0

/-- A new entry, its rows of class pricked, its pages held. -/
def enterPrick (core mode watch : Nat) (p : PrickReq) (pages : List Nat) : M Unit := do
  for pa in pages do holdPage pa true
  modCore core fun c =>
    let e : Prick := { word := prickWord mode p.vbase p.rows p.first p.rights p.tag 0, copy := 0, arrivals := 0,
                       watch := watch, pages := pages }
    let c1 : Core := { c with pricks := Store.set .reset c.pricks (c.freePrick.getD 0) e }
    c1.classRows p.first p.rows 5

/-- An operation that has ended holds no claim on a frame. -/
def endPrick (core : Nat) (p : PrickReq) (n : Nat) : M Did := do
  dropClaim (.prick core p.tag.toNat)
  return .status n

/-- PRICK as owner (R248). Its steps are one event: an access that meets a line FILLING or CLOSING waits, and so comes
before or after all of them (log 96). -/
def prickOwner (core : Nat) (p : PrickReq) : M Did := do
  let s ← get
  let cause := s.prickCause core p
  if cause ≠ 0 then endPrick core p cause
  else match ← prickLines ((s.tagDomain core p.tag.toNat).getD 0) core p.tag.toNat p.vbase p.rows with
    | .wait => return .wait
    | .fail st => endPrick core p st
    | .lines pas =>
      if pas.any fun pa => !tier0 pa then endPrick core p 4
      else
        let pages := (← get).pagesOf pas
        let full ← allotLines core pas []
        if full ≠ 0 then endPrick core p full
        else
          for x in pas.zipIdx do takeLine core x.1 (64 * (p.first + x.2))
          enterPrick core 1 0 p pages
          endPrick core p 0

/-- UNPRICK as owner (R249). -/
def unprickOwner (core i : Nat) : M Unit := do
  let c ← getCore core
  let e := Store.get Prick.reset c.pricks i
  let w := e.word
  if prickMode w = 1 then
    let lo := 64 * prickFirst w
    let hi := lo + 64 * prickLen w
    let mine := c.owned.filter fun e => lo ≤ e.2 - 1 && e.2 - 1 < hi
    for x in mine do putFwd core (64 * x.1) 3
    for x in mine do giveLine core (64 * x.1) (Store.bytes (← getCore core).rows (x.2 - 1) 64)
    modCore core fun c =>
      let c1 : Core := { c with owned := c.owned.filter fun e => !(lo ≤ e.2 - 1 && e.2 - 1 < hi),
                                pricks := Store.set .reset c.pricks i .reset }
      c1.classRows (prickFirst w) (prickLen w) 4
    unholdPages e.pages

/-! Replicas (R250 to R252). -/

/-- The watch register of a core for a counter. -/
def Core.watchOf (c : Core) (pa : Nat) : Option Nat :=
  (List.range 8).find? fun i => let w := Store.get 0 c.watch i; w.getLsbD 63 && field w 3 49 * 8 = pa

/-- The lowest watch register that is free. -/
def Core.freeWatch (c : Core) : Option Nat := (List.range 8).find? fun i => !(Store.get 0 c.watch i).getLsbD 63

def watchWord (latest refs pa : Nat) : BitVec 128 :=
  BitVec.ofNat 128 (latest * 2 ^ 64 + 2 ^ 63 + refs * 2 ^ 57 + pa / 8 * 8)

/-- Adds a core to a counter's watchers; FULL where the lists are. -/
def addWatcher (core pa : Nat) : M Bool := do
  let cl := homeCluster pa
  let k ← getCluster cl
  match k.watchers.find? (·.1 = pa) with
  | some w =>
    if w.2.contains core then return true
    if 64 ≤ w.2.length then return false
    modCluster cl fun k => { k with watchers := k.watchers.map fun x => if x.1 = pa then (pa, x.2 ++ [core]) else x }
    return true
  | none =>
    if 128 ≤ k.watchers.length then return false
    modCluster cl fun k => { k with watchers := k.watchers ++ [(pa, [core])] }
    return true

def removeWatcher (core pa : Nat) : M Unit :=
  modCluster (homeCluster pa) fun k =>
    let l := k.watchers.map fun x => if x.1 = pa then (pa, x.2.filter (· ≠ core)) else x
    { k with watchers := l.filter fun x => !x.2.isEmpty }

/-- Takes or shares a watch entry for a counter (R250 step 1): its number. -/
def takeWatch (core pa : Nat) : M (Option Nat) := do
  let c ← getCore core
  match c.watchOf pa with
  | some i =>
    let w := Store.get 0 c.watch i
    modCore core fun c =>
      { c with watch := Store.set 0 c.watch i (watchWord (field w 64 64) (field w 57 6 + 1) pa) }
    return some i
  | none =>
    match c.freeWatch with
    | none => return none
    | some i =>
      if !(← addWatcher core pa) then return none
      modCore core fun c => { c with watch := Store.set 0 c.watch i (watchWord 0 1 pa) }
      return some i

/-- Gives up a reference to a watch entry. -/
def dropWatch (core i : Nat) : M Unit := do
  let w := Store.get 0 (← getCore core).watch i
  let pa := field w 3 49 * 8
  if field w 57 6 ≤ 1 then
    modCore core fun c => { c with watch := Store.set 0 c.watch i 0 }
    removeWatcher core pa
  else
    modCore core fun c =>
      { c with watch := Store.set 0 c.watch i (watchWord (field w 64 64) (field w 57 6 - 1) pa) }

/-- Refills a replica's rows (R252); whether the pages were there. -/
def refreshRows (core i : Nat) : M Lines := do
  let s ← get
  let e := Store.get Prick.reset (s.core core).pricks i
  let w := e.word
  match s.tagDomain core (prickTeam w) with
  | none => return .fail 4
  | some dom =>
    match ← prickLines dom core (prickTeam w) (prickBase w) (prickLen w) with
    | .lines pas =>
      dropClaim (.prick core (prickTeam w))
      let s ← get
      let cpa := field (Store.get 0 (s.core core).watch e.watch) 3 49 * 8
      let r : W64 := BitVec.ofNat 64 (s.pocN cpa 8)
      let bs := pas.flatMap fun pa => s.pocBytes pa 64
      modCore core fun c =>
        let k := Store.get Prick.reset c.pricks i
        let word : BitVec 128 := (k.word &&& 0xFFFFFFFFFFFFFFFFFFFFFFFF) ||| (BitVec.ofNat 128 (r.toNat % 2 ^ 32) <<< 96)
        let e1 : Prick := { k with copy := r, word := word }
        { c.putRows (64 * prickFirst w) bs with pricks := Store.set .reset c.pricks i e1 }
      raiseLatest core cpa r
      return .lines pas
    | other => return other

/-- Removes a replica entry (R250). -/
def unprickReplica (core i : Nat) : M Unit := do
  let e := Store.get Prick.reset (← getCore core).pricks i
  if prickMode e.word = 2 then
    modCore core fun c =>
      let c1 : Core := { c with pricks := Store.set .reset c.pricks i .reset }
      c1.classRows (prickFirst e.word) (prickLen e.word) 4
    unholdPages e.pages
    dropWatch core e.watch

/-- PRICK as replica (R250). -/
def prickReplica (core : Nat) (p : PrickReq) : M Did := do
  let s ← get
  let cause := if p.rights.getLsbD 1 then 3 else s.prickCause core p
  if cause ≠ 0 then endPrick core p cause
  else match ← prickLines ((s.tagDomain core p.tag.toNat).getD 0) core p.tag.toNat p.vbase p.rows with
    | .wait => return .wait
    | .fail st => endPrick core p st
    | .lines pas =>
      match ← takeWatch core p.counter with
      | none => endPrick core p 1
      | some k =>
        let i := (← getCore core).freePrick.getD 0
        enterPrick core 2 k { p with rights := 1 } ((← get).pagesOf pas)
        let _ ← refreshRows core i
        endPrick core p 0

/-- Ends every pricked range of a team on a core (R249, R250). -/
def unprickTeam (core tag : Nat) : M Unit := do
  dropClaim (.prick core tag)
  for e in (← getCore core).validPricks do
    if prickTeam e.2.word = tag then
      if prickMode e.2.word = 1 then unprickOwner core e.1 else unprickReplica core e.1

/-! Events. -/

/-- PRICK_OWNER: tries again in the next cycle while a page is awaited. -/
def execPrickOwner (core : Nat) (p : PrickReq) (s : State) : Host.Outcome State Fault Refusal :=
  (do
    match ← prickOwner core p with
    | .wait => atCycle ((← now) + 1) (.prickOwner core p)
    | .status _ => pure () : M Unit).toOutcome s

def execUnprickOwner (core entry : Nat) (s : State) : Host.Outcome State Fault Refusal :=
  (unprickOwner core entry).toOutcome s

def execPrickReplica (core : Nat) (p : PrickReq) (s : State) : Host.Outcome State Fault Refusal :=
  (do
    match ← prickReplica core p with
    | .wait => atCycle ((← now) + 1) (.prickReplica core p)
    | .status _ => pure () : M Unit).toOutcome s

/-- REFRESH of a replica entry; a page that is awaited brings it back in the next cycle (R252). One that a page fault ends
leaves the rows as they are (DESIGN CHOICE, log 124). -/
def execRefresh (core entry : Nat) (s : State) : Host.Outcome State Fault Refusal :=
  (do
    if prickMode (Store.get Prick.reset (← getCore core).pricks entry).word = 2 then
      match ← refreshRows core entry with
      | .wait => atCycle ((← now) + 1) (.refresh core entry)
      | _ => pure () : M Unit).toOutcome s

/-- ROUND_NOTICE: LATEST takes the larger value (R253). -/
def execRoundNotice (core counter : Nat) (value : W64) (s : State) : Host.Outcome State Fault Refusal :=
  (raiseLatest core counter value).toOutcome s

end Sys2Proof.Machine
end

