-- ==== Sys2Proof/Machine/Rays.lean ====
section
/-! DEFINITION. Ray and hit queues, the treelet directory, the intersection unit in BVH mode, and the ray group, majors
0xB0 to 0xB8 (13_rays.md R349 to R376). -/

namespace Sys2Proof.Machine

/-! Exact numbers: fractions with a positive denominator. -/

structure Frac where
  n : Int
  d : Nat
  deriving DecidableEq, Repr

def Frac.ofInt (n : Int) : Frac := ⟨n, 1⟩
def Frac.add (a b : Frac) : Frac := ⟨a.n * b.d + b.n * a.d, a.d * b.d⟩
def Frac.sub (a b : Frac) : Frac := ⟨a.n * b.d - b.n * a.d, a.d * b.d⟩
def Frac.mul (a b : Frac) : Frac := ⟨a.n * b.n, a.d * b.d⟩
/-- Division by a value that is not zero. -/
def Frac.div (a b : Frac) : Frac := ⟨a.n * b.d * b.n.sign, a.d * b.n.natAbs⟩
def Frac.lt (a b : Frac) : Bool := a.n * b.d < b.n * a.d
def Frac.min2 (a b : Frac) : Frac := if b.lt a then b else a
def Frac.max2 (a b : Frac) : Frac := if a.lt b then b else a

/-- m × 2^e of a sign. -/
def Frac.pow (neg : Bool) (m : Nat) (e : Int) : Frac := ⟨signed neg (m * 2 ^ e.toNat), 2 ^ (-e).toNat⟩

/-- A datum as a fraction; an infinity lies beyond every value that the unit forms. -/
def Frac.ofNum (x : Num) : Frac :=
  match x with
  | .fin neg m e => .pow neg m e
  | .inf neg => .pow neg 1 2000
  | .nan _ _ => ⟨0, 1⟩

/-- RoundTo(binary32, RNE). -/
def Frac.toF32 (a : Frac) : Nat :=
  if a.n = 0 then 0 else (roundF f32Fmt { rm := 1, ftz := false } (decide (a.n < 0)) a.n.natAbs a.d 0).1

structure Vec3 where
  x : Frac
  y : Frac
  z : Frac
  deriving DecidableEq, Repr

def Vec3.sub (a b : Vec3) : Vec3 := ⟨a.x.sub b.x, a.y.sub b.y, a.z.sub b.z⟩
def Vec3.dot (a b : Vec3) : Frac := ((a.x.mul b.x).add (a.y.mul b.y)).add (a.z.mul b.z)
def Vec3.cross (a b : Vec3) : Vec3 :=
  ⟨(a.y.mul b.z).sub (a.z.mul b.y), (a.z.mul b.x).sub (a.x.mul b.z), (a.x.mul b.y).sub (a.y.mul b.x)⟩

def numAt (bs : List Byte) (off : Nat) : Num := unpack f32Fmt false (bytesAt bs off 4)
def Num.isFin : Num → Bool
  | .fin _ _ _ => true
  | _ => false
def vecAt (bs : List Byte) (off : Nat) : Vec3 :=
  ⟨.ofNum (numAt bs off), .ofNum (numAt bs (off + 4)), .ofNum (numAt bs (off + 8))⟩

/-! Rays and nodes (R350 to R354, R366, R367). -/

/-- A ray is malformed (R366). -/
def rayBad (r : List Byte) : Bool :=
  ((List.range 6).any fun j => !(numAt r (4 * j)).isFin) ||
  ((List.range 3).all fun j => (numAt r (12 + 4 * j)).isZero) || (numAt r 24).isNan || (numAt r 28).isNan

/-- A node is malformed (R366). -/
def nodeBad (n : List Byte) : Bool :=
  8 < bytesAt n 15 1 % 16 || bytesAt n 15 1 / 16 ≠ 0 ||
  ((List.range 3).any fun j => bytesAt n (12 + j) 1 = 0 || bytesAt n (12 + j) 1 = 255 || !(numAt n (4 * j)).isFin)

/-- One axis of a box: the interval of distances after it, and whether the ray still meets it. -/
def slabAxis (r n : List Byte) (i a : Nat) (s : Frac × Frac × Bool) : Frac × Frac × Bool :=
  let org := Frac.ofNum (numAt r (4 * a))
  let dir := Frac.ofNum (numAt r (12 + 4 * a))
  let at_ (q : Nat) : Frac :=
    (Frac.ofNum (numAt n (4 * a))).add (.pow false q ((bytesAt n (12 + a) 1 : Int) - 127))
  let lo := at_ (bytesAt n (16 + 6 * i + a) 1)
  let hi := at_ (bytesAt n (19 + 6 * i + a) 1)
  if dir.n = 0 then (s.1, s.2.1, s.2.2 && !(org.lt lo || hi.lt org))
  else
    let t1 := (lo.sub org).div dir
    let t2 := (hi.sub org).div dir
    (s.1.max2 (t1.min2 t2), s.2.1.min2 (t1.max2 t2), s.2.2)

/-- A child's box: the ray's entry distance where it is hit. -/
def boxHit (r n : List Byte) (i : Nat) : Option Frac :=
  let empty := (List.range 3).any fun a => bytesAt n (19 + 6 * i + a) 1 < bytesAt n (16 + 6 * i + a) 1
  let s0 := (Frac.ofNum (numAt r 24), Frac.ofNum (numAt r 28), !empty)
  let s := (List.range 3).foldl (fun s a => slabAxis r n i a s) s0
  if s.2.2 && !s.2.1.lt s.1 then some s.1 else none

/-- A hit put in its place by ascending key, after its equals. -/
def insertHit (l : List (Frac × Nat)) (h : Frac × Nat) : List (Frac × Nat) :=
  (l.takeWhile fun x => !h.1.lt x.1) ++ h :: l.dropWhile fun x => !h.1.lt x.1

/-- The result word of XNODE (R366). -/
def xnodeResult (r n : List Byte) : Nat :=
  if rayBad r then 2 ^ 15
  else if nodeBad n then 2 ^ 14
  else
    let hits := (List.range (bytesAt n 15 1 % 16)).filterMap fun i => (boxHit r n i).map fun k => (k, i)
    let order := hits.foldl insertHit []
    let ord := (List.range order.length).foldl (fun v j => v + (order.getD j (⟨0, 1⟩, 0)).2 * 8 ^ j) 0
    ord * 2 ^ 16 + order.length * 2 ^ 8 + hits.foldl (fun v h => v + 2 ^ h.2) 0

/-- A triangle record is malformed (R352). -/
def triBad (t : List Byte) : Bool :=
  bytesAt t 44 2 / 2 ≠ 0 || bytesAt t 46 2 ≠ 0 || (List.range 9).any fun j => !(numAt t (4 * j)).isFin

/-- Where a ray meets a triangle: t, u, v and whether it faces away (R367). -/
def triHit (r t : List Byte) : Option (Frac × Frac × Frac × Bool) :=
  let org := vecAt r 0
  let dir := vecAt r 12
  let v0 := vecAt t 0
  let e1 := (vecAt t 12).sub v0
  let e2 := (vecAt t 24).sub v0
  let nrm := e1.cross e2
  let a := dir.dot nrm
  if a.n = 0 then none else
  let w := org.sub v0
  let tt := ((v0.sub org).dot nrm).div a
  let u := (w.dot (e2.cross dir)).div a
  let v := (e1.dot (w.cross dir)).div a
  let one := Frac.ofInt 1
  if u.n < 0 || v.n < 0 || one.lt (u.add v) || tt.lt (.ofNum (numAt r 24)) then none
  else
    let back : Bool := 0 < a.n
    if back && (bytesAt r 42 2).testBit 1 && !(bytesAt t 44 2).testBit 0 then none
    else some (tt, u, v, back)

/-- A run of bytes replaced. -/
def putAt (bs : List Byte) (off : Nat) (new : List Byte) : List Byte :=
  bs.take off ++ new ++ bs.drop (off + new.length)

/-- XTRI over the triangles of a block: rows 0 and 1 after it and the result word (R367). -/
structure TriState where
  ray : List Byte
  hit : List Byte
  code : Nat
  last : Nat
  fmt : Bool
  stop : Bool
  deriving DecidableEq, Repr

def triStep (s : TriState) (j : Nat) (t : List Byte) : TriState :=
  if s.stop then s
  else if triBad t then { s with fmt := true }
  else match triHit s.ray t with
    | none => s
    | some (tt, u, v, back) =>
      let tr := tt.toF32
      let x := unpack f32Fmt false tr
      let tmax := numAt s.ray 28
      let valid := (bytesAt s.hit 24 2).testBit 0
      if numLt x tmax || (!numLt tmax x && !valid) then
        let flags := bytesAt s.hit 24 2 / 4 * 4 + (if back then 2 else 0) + 1
        let h1 := putAt s.hit 4 (natToBytes 4 tr ++ (t.drop 36).take 4 ++ natToBytes 4 u.toF32 ++ natToBytes 4 v.toF32 ++
          (t.drop 40).take 4 ++ natToBytes 2 flags)
        let h2 := putAt h1 28 ((s.ray.drop 36).take 4)
        let first := (bytesAt s.ray 42 2).testBit 0
        { ray := putAt s.ray 28 (natToBytes 4 tr), hit := h2, code := (if first then 2 else 1), last := j, fmt := s.fmt,
          stop := first }
      else s

def triLoop (s : TriState) : Nat → List Byte → Nat → TriState
  | _, _, 0 => s
  | j, bs, n + 1 => triLoop (triStep s j (bs.take 48)) (j + 1) (bs.drop 48) n

/-! Operands (R368). -/

def rayReq (g : Guard) (long : Bool) (ok : State → Bool) (srcs dsts : List Opnd) : Req :=
  { guard := g, cls := some 5, form := State.unified, ok := ok, srcs := srcs, dsts := dsts, long := long }

/-- A "result" of a long-latency member: it goes to no stream. -/
def State.lateDst (s : State) (o : Opnd) : Bool :=
  match opOf o with
  | .prim _ | .zero => s.dstOk false true o
  | .k _ => s.me.isWave && s.dstOk false true o
  | _ => false

/-- A result that lands later. -/
def putLate (la : BitVec 4) (i : Iss) (d : Opnd) (v : W64) : M Unit := do
  pendResult la.toNat true ((← get).scalarWrites i d v)

/-- The address space of the turn's context. -/
def State.myAsn (s : State) : BitVec 12 := s.domAsn s.myDomain

/-- The turn's team claims a queue. -/
def State.claims (s : State) (hits : Bool) : Bool :=
  match (if hits then s.here.hitClaim else s.here.rayClaim) with
  | some c => s.myTeam.isSome && c.team = s.me.team
  | none => false

/-! RPOP (R355, R356, R358, R369). -/

/-- The items of both queues in their rows, oldest first from rows 16 and 80 on (06_scratchpad.md R149); which row an item
has is a DESIGN CHOICE (log 103). -/
def Core.queueRows (c : Core) : Core :=
  let put (first : Nat) (q : List Item) (m : Store Byte) : Store Byte :=
    q.zipIdx.foldl (fun m x => Store.putBytes m (64 * (first + x.2)) x.1) m
  { c with rows := put 80 c.hitq (put 16 c.rayq c.rows) }

/-- Ends a claim: the queued items are discarded as late arrivals. -/
def endClaim (core : Nat) (hits : Bool) : M Unit := do
  let c ← getCore core
  let n := (if hits then c.hitq else c.rayq).length
  if hits then modCore core fun c => { c with hitClaim := none, hitq := [] }
  else modCore core fun c => { c with rayClaim := none, rayq := [] }
  lateArrival core n
  wakeParked core

/-- The rows that items are popped into, as a store of the context: their offset. -/
def popRows (rep : Nat) (a : W64) (n : Nat) : M Nat := do
  watchCheck (64 * n) .store [(rep, a)]
  kickRows a n

/-- Pops items into rows from an offset. -/
def popItems (hits : Bool) (rep : Nat) (a : W64) (n : Nat) : M Unit := do
  let off ← popRows rep a n
  let h ← getHere
  let items := (if hits then h.hitq else h.rayq).take n
  if hits then modHere fun c => { c with hitq := c.hitq.drop n }.queueRows
  else modHere fun c => { c with rayq := c.rayq.drop n }.queueRows
  for j in List.range n do
    writePlace plainLoad (.row (← get).hereId (off + 64 * j) 64) (items.getD j [])
  wakeParked (← get).hereId

/-- What `Rpop` asks of its issue. -/
def rpopReq (g : Guard) (d : Opnd) (a : Opnd) (s : State) : Req :=
  { rayReq g true (fun s => s.lateDst d && s.addrOk a) (wideSrcs s.me.isWave a) [] with regs := fun w => opRegs w d }

def rpopBody (la : BitVec 4) (hits : Bool) (wait : Bool) (gather : Bool) (d : Opnd) (a : Opnd) (i : Iss) : M Unit := do
  let row ← wval i a i.rep
  let _ ← kickRows row 1
  let s ← get
  if !s.claims hits then putLate la i d 0
  else
    let have_ := (if hits then s.here.hitq else s.here.rayq).length
    let lanes := (lanesOf i.lanes).length
    if !s.me.prog.active then
      modMe fun c => { c with prog := { c.prog with active := true, since := s.clk.toNat } }
    let since := (← getMe).prog.since
    let q := if hits then 9 else 8
    if s.popsBehind q || ((wait || gather) && have_ = 0) || (gather && have_ < lanes && s.clk.toNat < since + 256) then
      awaitPop q { agent := true }
    let n := min have_ lanes
    if n ≠ 0 then popItems hits i.rep row n
    putLate la i d (BitVec.ofNat 64 n)

def execRpop (la : BitVec 4) (g : Guard) (hits wait gather : Bool) (d a : Opnd) (s : State) :
    Host.Outcome State Fault Refusal :=
  runIssue (rpopReq g d a s) (rpopBody la hits wait gather d a) s

def claimReq (g : Guard) (d a : Opnd) : Req :=
  { rayReq g true (fun s => s.lateDst d && decide (opOf a = .zero)) [] [] with regs := fun w => opRegs w d }

/-- What `RpopClaim` asks of its issue. -/
def rpopClaimReq (g : Guard) (d : Opnd) (a : Opnd) : Req :=
  (claimReq g d a)

def rpopClaimBody (la : BitVec 4) (hits : Bool) (d : Opnd) (i : Iss) : M Unit := do
  let s ← get
  let free := (if hits then s.here.hitClaim else s.here.rayClaim).isNone
  let won := s.claims hits || (free && s.myTeam.isSome)
  if won then
    let k : Claim := { team := s.me.team, asn := s.myAsn }
    if hits then modHere fun c => { c with hitClaim := some k } else modHere fun c => { c with rayClaim := some k }
  putLate la i d (if won then 1 else 0)

def execRpopClaim (la : BitVec 4) (g : Guard) (hits : Bool) (d a : Opnd) (s : State) :
    Host.Outcome State Fault Refusal :=
  runIssue (rpopClaimReq g d a) (rpopClaimBody la hits d) s

/-- What `RpopRelease` asks of its issue. -/
def rpopReleaseReq (g : Guard) (d : Opnd) (a : Opnd) : Req :=
  (claimReq g d a)

def rpopReleaseBody (la : BitVec 4) (hits : Bool) (d : Opnd) (i : Iss) : M Unit := do
  let s ← get
  let had := s.claims hits
  if had then endClaim s.hereId hits
  putLate la i d (if had then 1 else 0)

def execRpopRelease (la : BitVec 4) (g : Guard) (hits : Bool) (d a : Opnd) (s : State) :
    Host.Outcome State Fault Refusal :=
  runIssue (rpopReleaseReq g d a) (rpopReleaseBody la hits d) s

/-! The directory (R359 to R364). -/

/-- The shard of a treelet. -/
def shardOf (asn : BitVec 12) (id : W32) : Nat :=
  Nat.xor (Nat.xor (id.toNat % 65536) (id.toNat / 65536)) asn.toNat % 3360

def treeletSet (id : W32) : Nat := Nat.xor id.toNat (id.toNat / 64) % 64

def noRep : GlobalId := 0x3FFFFF

def Members.list (m : Members) : List GlobalId := [m.owner, m.rep0, m.rep1, m.rep2].filter (· ≠ noRep)

def Members.setRep (m : Members) (old new : GlobalId) : Members :=
  if m.rep0 = old then { m with rep0 := new }
  else if m.rep1 = old then { m with rep1 := new }
  else if m.rep2 = old then { m with rep2 := new } else m

def Members.reps (m : Members) : List GlobalId := [m.rep0, m.rep1, m.rep2].filter (· ≠ noRep)

def Cluster.treelet (k : Cluster) (asn : BitVec 12) (id : W32) : Option Treelet :=
  k.treelets.find? fun t => t.asn = asn && t.id = id

def State.treelet (s : State) (asn : BitVec 12) (id : W32) : Option Treelet :=
  (Store.get Cluster.reset s.clusters (shardOf asn id)).treelet asn id

def modTreelet (asn : BitVec 12) (id : W32) (f : Treelet → Treelet) : M Unit :=
  modCluster (shardOf asn id) fun k =>
    { k with treelets := k.treelets.map fun t => if t.asn = asn ∧ t.id = id then f t else t }

/-- Enters a treelet; whether its set has room. -/
def addTreelet (t : Treelet) : M Bool := do
  let sh := shardOf t.asn t.id
  if 8 ≤ ((← getCluster sh).treelets.filter fun u => treeletSet u.id = treeletSet t.id).length then return false
  modCluster sh fun k => { k with treelets := k.treelets ++ [t] }
  return true

def dropTreelet (asn : BitVec 12) (id : W32) : M Unit :=
  modCluster (shardOf asn id) fun k => { k with treelets := k.treelets.filter fun t => !(t.asn = asn && t.id = id) }

/-- Answers a lookup of a context that still waits for it. -/
def answerCtx (c : CtxId) (asn : BitVec 12) (id : W32) (status : Nat) (m : Members) : M Unit :=
  modCtx c fun x => match x.asked with
    | some q => if q.asn = asn && q.id = id && q.answer.isNone then
        { x with asked := some { q with answer := some (status, m) } } else x
    | none => x

/-- Answers every held lookup of a treelet. -/
def answerHeld (asn : BitVec 12) (id : W32) (status : Nat) (m : Members) : M Unit := do
  let sh := shardOf asn id
  let k ← getCluster sh
  for l in k.lookups do
    if l.1 = asn && l.2.1 = id then answerCtx l.2.2 asn id status m
  modCluster sh fun k => { k with lookups := k.lookups.filter fun l => !(l.1 = asn && l.2.1 = id) }

def noMembers : Members := ⟨noRep, noRep, noRep, noRep⟩

/-- DIRECTORY_LOOKUP: a lookup arrives at its shard (R361, R362). -/
def execDirectoryLookup (cluster : Nat) (asn : BitVec 12) (id : W32) (c : CtxId) (s : State) :
    Host.Outcome State Fault Refusal :=
  (do
    let k ← getCluster cluster
    match k.treelet asn id with
    | none => answerCtx c asn id 5 noMembers
    | some t =>
      if t.state = 3 then answerCtx c asn id 0 t.to_
      else if 64 ≤ k.lookups.length then answerCtx c asn id 8 noMembers
      else
        modCluster cluster fun k => { k with lookups := k.lookups ++ [(asn, id, c)] }
        if t.state = 1 then
          modTreelet asn id fun t => { t with state := 2 }
          later (.pageIn cluster asn id) : M Unit).toOutcome s

/-- The prick request of a treelet's owner. -/
def Treelet.ownerReq (t : Treelet) (tag : Nat) : PrickReq :=
  { vbase := t.nodes, rows := 2 * (t.ncnt + 1), first := t.first, tag := BitVec.ofNat 16 tag, rights := 1, counter := 0 }

/-- TREELET_PAGE_IN: the owner prick of a FILLING treelet (R362). -/
def execTreeletPageIn (cluster : Nat) (asn : BitVec 12) (id : W32) (s : State) : Host.Outcome State Fault Refusal :=
  (do
    let s ← get
    match (Store.get Cluster.reset s.clusters cluster).treelet asn id with
    | none => answerHeld asn id 5 noMembers
    | some t =>
      if t.state = 2 then
        let r ← match s.localCore t.to_.owner with
          | none => pure (Did.status 3)
          | some core =>
            match (s.core core).rayClaim with
            | none => pure (Did.status 3)
            | some c => if c.asn = asn then prickOwner core (t.ownerReq c.team) else pure (Did.status 3)
        match r with
        | .wait => atCycle ((← now) + 1) (.pageIn cluster asn id)
        | .status 0 =>
          modTreelet asn id fun t => { t with state := 3 }
          answerHeld asn id 0 t.to_
        | .status _ =>
          modTreelet asn id fun t => { t with state := 1 }
          answerHeld asn id 6 noMembers : M Unit).toOutcome s

/-- A replication begins where an ACTIVE entry is hot, has room and an offer: one at each arrival of a report or of an offer
(R363). -/
def tryReplicate (asn : BitVec 12) (id : W32) : M Unit := do
  let sh := shardOf asn id
  let k ← getCluster sh
  match k.treelet asn id with
  | none => pure ()
  | some t =>
    if t.state = 3 && t.hot ≠ 0 && t.hot ≤ t.heat && t.to_.reps.length < 3 &&
        k.offers.any (fun o => o.asn = asn && o.id = id && !o.used) then
      later (.replicate sh asn id)

def Offer.same (a b : Offer) : Bool := a.core = b.core && a.asn = b.asn && a.id = b.id && a.team = b.team && a.first = b.first

/-- The oldest offer for a treelet becomes a replica, or is dropped (R363). -/
def replicate (sh : Nat) (asn : BitVec 12) (id : W32) : M Unit := do
  let s ← get
  let k := Store.get Cluster.reset s.clusters sh
  match k.treelet asn id, k.offers.find? fun o => o.asn = asn && o.id = id && !o.used with
  | some t, some o =>
    if t.state = 3 && t.to_.reps.length < 3 then
      let drop : M Unit := modCluster sh fun k => { k with offers := k.offers.filter fun p => !p.same o }
      match s.tagDomain o.core o.team with
      | none => drop
      | some dom =>
        match ← translate dom o.core o.counter .read with
        | .wait j =>
          awaitPage (.prick o.core o.team) o.team [] j
          atCycle (s.clk.toNat + 1) (.replicate sh asn id)
        | .page _ => drop
        | .ok cpa =>
          match ← prickReplica o.core
              { vbase := t.nodes, rows := 2 * (t.ncnt + 1), first := o.first, tag := BitVec.ofNat 16 o.team, rights := 1,
                counter := cpa } with
          | .wait => atCycle (s.clk.toNat + 1) (.replicate sh asn id)
          | .status 0 =>
            modTreelet asn id fun t => { t with to_ := t.to_.setRep noRep (s.globalId o.core) }
            modCluster sh fun k =>
              { k with offers := k.offers.map fun p => if p.same o then { p with used := true } else p }
          | .status _ => drop
  | _, _ => pure ()

/-- HEAT_REPORT: a core reports the arrival counts of its owner entries, and clears them (R363). -/
def execHeatReport (core : Nat) (s : State) : Host.Outcome State Fault Refusal :=
  (do
    let s ← get
    for e in (s.core core).validPricks do
      if prickMode e.2.word = 1 && e.2.arrivals ≠ 0 then
        match s.tagDomain core (prickTeam e.2.word) with
        | none => pure ()
        | some dom =>
          let id : W32 := BitVec.ofNat 32 (prickBase e.2.word / 128)
          let asn := s.domAsn dom
          later (.heat (shardOf asn id) asn id (e.2.arrivals.toNat))
        modCore core fun c =>
          { c with pricks := Store.set .reset c.pricks e.1 { (Store.get Prick.reset c.pricks e.1) with arrivals := 0 } }
        : M Unit).toOutcome s

/-- HEAT_REPORT_ARRIVAL: the shard sets HEAT and may begin a replication (R363). -/
def execHeatReportArrival (_cluster : Nat) (asn : BitVec 12) (id : W32) (count : Nat) (s : State) :
    Host.Outcome State Fault Refusal :=
  (do
    modTreelet asn id fun t => { t with heat := BitVec.ofNat 16 (min count 65535) }
    tryReplicate asn id : M Unit).toOutcome s

/-- ROUTE_CACHE_EXPIRY: an entry leaves 4,096 cycles after its fill (R361). -/
def execRouteCacheExpiry (core : Nat) (asn : BitVec 12) (id : W32) (s : State) : Host.Outcome State Fault Refusal :=
  (do
    let now ← now
    modCore core fun c =>
      { c with routes := c.routes.filter fun r => !(r.asn = asn && r.id = id && r.until_ ≤ now) } : M Unit).toOutcome s

/-- An entry of a core pricks a range, in a mode, for an address space. -/
def State.pricksFor (s : State) (core : Nat) (asn : BitVec 12) (mode nodes : Nat) (e : Nat × Prick) : Bool :=
  prickMode e.2.word = mode && prickBase e.2.word = nodes &&
  (s.tagDomain core (prickTeam e.2.word)).any fun dom => s.domAsn dom = asn

/-- A replica of a treelet leaves a core. -/
def dropReplicaOn (core : GlobalId) (asn : BitVec 12) (nodes : Nat) : M Unit := do
  let s ← get
  match s.localCore core with
  | none => pure ()
  | some k =>
    for e in (s.core k).validPricks do
      if s.pricksFor k asn 2 nodes e then unprickReplica k e.1

/-- The offers of a team are withdrawn. -/
def dropOffers (core tag : Nat) : M Unit := do
  for k in (← get).clusters do
    if !k.2.offers.isEmpty then
      modCluster k.1 fun k => { k with offers := k.offers.filter fun o => !(o.core = core && o.team = tag) }

/-- What a team's exit or kill does to the directory: its entries turn COLD, its replicas and offers go (R364). -/
def releaseTreelets (core tag : Nat) : M Unit := do
  let s ← get
  let gid := s.globalId core
  for e in (s.core core).validPricks do
    if prickTeam e.2.word = tag then
      let id : W32 := BitVec.ofNat 32 (prickBase e.2.word / 128)
      match s.tagDomain core tag with
      | none => pure ()
      | some dom =>
        let asn := s.domAsn dom
        if prickMode e.2.word = 1 then
          modTreelet asn id fun t => if t.to_.owner = gid && t.state = 3 then { t with state := 1 } else t
        else modTreelet asn id fun t => { t with to_ := t.to_.setRep gid noRep }
  dropOffers core tag

/-! RSEND and HSEND (R361, R370, R373). -/

/-- A route of the turn's core that has not expired. -/
def State.cachedRoute (s : State) (asn : BitVec 12) (id : W32) : Option Route :=
  s.here.routes.find? fun r => r.asn = asn && r.id = id && s.clk.toNat < r.until_

/-- Fills the route cache: 64 entries, the least recently used replaced. -/
def fillRoute (asn : BitVec 12) (id : W32) (m : Members) : M Unit := do
  let s ← get
  let r : Route := { asn := asn, id := id, to_ := m, until_ := s.clk.toNat + 4096 }
  modHere fun c =>
    let rest := c.routes.filter fun x => !(x.asn = asn && x.id = id) && s.clk.toNat < x.until_
    { c with routes := (r :: rest).take 64 }

/-- The members that a ray may go to, or a status; waits for the directory. -/
def findRoute (owner : Bool) (asn : BitVec 12) (id : W32) : M (Nat × Members) := do
  let s ← get
  match (if owner then none else s.cachedRoute asn id) with
  | some r =>
    modHere fun c => { c with routes := r :: c.routes.filter (· ≠ r) }
    modMe fun c => { c with asked := none }
    return (0, r.to_)
  | none =>
    match s.me.asked with
    | some q =>
      if q.asn = asn && q.id = id then
        match q.answer with
        | none => hold .loadOp
        | some (8, _) =>
          modMe fun c => { c with asked := none }
          backOff
          hold .poll
        | some (st, m) =>
          modMe fun c => { c with asked := none }
          if st = 0 then fillRoute asn id m
          return (st, m)
      else
        modMe fun c => { c with asked := some { asn := asn, id := id, answer := none } }
        later (.lookup (shardOf asn id) asn id (← myId))
        hold .loadOp
    | none =>
      if s.pollWaits then hold .poll
      modMe fun c => { c with asked := some { asn := asn, id := id, answer := none } }
      later (.lookup (shardOf asn id) asn id (← myId))
      hold .loadOp

/-- A frame's two rows, of which an instruction reads or writes `n` bytes: their offset. -/
def frameAt (i : Iss) (a : Opnd) (n : Nat) (need : Need) : M Nat := do
  let v ← wval i a i.rep
  watchCheck n need [(i.rep, v)]
  kickRows v 2

/-- Bytes of a row of a frame. -/
def rowBytes (off : Nat) : M (List Byte) := do
  rowCheck off 64
  readPlace plainLoad (.row (← get).hereId off 64)

def frameReq (g : Guard) (d a : Opnd) (s : State) : Req :=
  rayReq g false (fun s => s.resDst d && s.addrOk a) (wideSrcs s.me.isWave a) [d]

/-- What `Rsend` asks of its issue. -/
def rsendReq (g : Guard) (d : Opnd) (a : Opnd) (s : State) : Req :=
  (frameReq g d a s)

def rsendBody (owner : Bool) (d : Opnd) (a : Opnd) (i : Iss) : M Unit := do
  let off ← frameAt i a 52 .load
  let row ← rowBytes off
  let s ← get
  let asn := s.myAsn
  let id : W32 := BitVec.ofNat 32 (bytesAt row 36 4)
  let r ← findRoute owner asn id
  if r.1 ≠ 0 then putScalar i d (if r.1 = 5 then 1 else 2)
  else
    let flags := asn.toNat * 16 + bytesAt row 42 2 % 4
    let ray := (putAt row 42 (natToBytes 2 flags)).take 52
    let m := r.2.list
    let target := if owner then r.2.owner else m.getD (bytesAt row 32 4 % m.length) r.2.owner
    needChannel 4 target
    countEvent 0x16
    sendFlit s.hereId target 4 (.ray · ray)
    putScalar i d 0

def execRsend (g : Guard) (owner : Bool) (d a : Opnd) (s : State) : Host.Outcome State Fault Refusal :=
  runIssue (rsendReq g d a s) (rsendBody owner d a) s

/-- What `Hsend` asks of its issue. -/
def hsendReq (g : Guard) (d : Opnd) (a : Opnd) (s : State) : Req :=
  (frameReq g d a s)

def hsendBody (d : Opnd) (a : Opnd) (i : Iss) : M Unit := do
  let off ← frameAt i a 128 .load
  let ray ← rowBytes off
  let hit ← rowBytes (off + 64)
  let s ← get
  match s.target (BitVec.ofNat 64 (bytesAt ray 48 4)) with
  | none => putScalar i d 1
  | some dst =>
    let flags := s.myAsn.toNat * 16 + bytesAt hit 24 2 % 4
    let p := (ray.drop 32).take 4 ++ (hit.drop 4).take 20 ++ natToBytes 2 flags ++ (hit.drop 26).take 6 ++
      List.replicate 20 0
    needChannel 5 dst
    countEvent 0x16
    sendFlit s.hereId dst 5 (.hit · p)
    putScalar i d 0

def execHsend (g : Guard) (d a : Opnd) (s : State) : Host.Outcome State Fault Refusal :=
  runIssue (hsendReq g d a s) (hsendBody d a) s

/-! XNODE and XTRI (R365, R371, R372). -/

/-- The sampler path of the intersection unit (R365). -/
def unitVia : Via := { path := .sampler, cached := true }

/-- Where the unit reads a piece of one line: rows that the core holds as owner and memory through the sampler path, or
a replica under order 7 and the ray's bound. -/
def unitPieces (bound pa va n : Nat) : M (List Place1) := do
  let s ← get
  if (List.range n).any fun j => (s.replicaEntry s.hereId (va + j)).isSome then boundedPieces 7 bound [.phys pa va n]
  else return [.phys pa va n]

/-- A virtual range read by the unit, line by line; `addr` is the generic address of the range. -/
def unitRead (bound : Nat) (addr : W64) (ps : List (Nat × Nat × Nat)) : M (List Byte) := do
  let mut src : List Place1 := []
  for p in ps do
    for line in linesOf p.1 p.2.2 do
      let lo := max p.1 (line * 64)
      let hi := min (p.1 + p.2.2) (line * 64 + 64)
      src := src ++ (← unitPieces bound lo (p.2.1 + (lo - p.1)) (hi - lo))
  machineCheck unitVia [(0, addr)] [(0, src)]
  let mut bs : List Byte := []
  for q in src do
    bs := bs ++ (← readPlace unitVia q)
  return bs

/-- Translates a virtual range as a load of the context, sub-page by sub-page. -/
def confirmRange (va n : Nat) : M (List (Nat × Nat × Nat)) := do
  let mut ps : List (Nat × Nat × Nat) := []
  let mut waits : List (Option Ev) := []
  for j in List.range ((va + n - 1) / 1024 - va / 1024 + 1) do
    let lo := max va ((va / 1024 + j) * 1024)
    let hi := min (va + n) ((va / 1024 + j + 1) * 1024)
    match ← translateMine lo .read with
    | .ok pa => ps := ps ++ [(pa, lo, hi - lo)]
    | .page d => trapWith 11 d (BitVec.ofNat 64 lo)
    | .wait j => waits := waits ++ [j]
  if !waits.isEmpty then
    askPages (ps.map (·.1)) waits
    hold .loadOp { agent := true, alone := true }
  countEvent 0x12
  return ps

/-- A generic range checked under R190 for RD, then its alignment: its virtual address. -/
def segRead (a : W64) (n align : Nat) : M Nat := do
  if isAperture a then apertureFault a
  let s ← get
  let sn := field a 61 3
  let g := s.me.seg sn
  if !segRights g s.me.supervisor .load then trapWith 9 sn a
  if segLimit g < field a 0 61 + n then trapWith 10 sn a
  if a.toNat % align ≠ 0 then misalign a
  return segBase g + field a 0 61

/-- BOUND of a ray. -/
def rayBound (ray : List Byte) : Nat := bytesAt ray 44 4 / 2 ^ 28

/-- What `Xnode` asks of its issue. -/
def xnodeReq (g : Guard) (d : Opnd) (a : Opnd) (b : Opnd) (s : State) : Req :=
  { rayReq g true (fun s => (decide (opOf d = .zero) || s.wideDst d) && s.addrOk a && s.addrOk b)
    (wideSrcs s.me.isWave a ++ wideSrcs s.me.isWave b) [] with
    regs := fun w => if w then pairRegs w d else opRegs w d }

def xnodeBody (la : BitVec 4) (d : Opnd) (a : Opnd) (b : Opnd) (i : Iss) : M Unit := do
  let addr ← wval i b i.rep
  watchAll [(64, .load, [(i.rep, ← wval i a i.rep)]), (128, .load, [(i.rep, addr)])]
  let off ← frameAt i a 64 .load
  let va ← segRead addr 128 128
  let ray ← rowBytes off
  let node ← unitRead (rayBound ray) addr (← confirmRange va 128)
  pendResult la.toNat true ((← get).wideWrites d (BitVec.ofNat 64 (xnodeResult ray node))) 0 addr

def execXnode (la : BitVec 4) (g : Guard) (d a b : Opnd) (s : State) : Host.Outcome State Fault Refusal :=
  runIssue (xnodeReq g d a b s) (xnodeBody la d a b) s

/-- The segment of a triangle block (R372): its number. -/
def State.blockSeg (s : State) (va : Nat) : Option Nat :=
  (List.range 8).find? fun n =>
    let g := s.me.seg n
    segRights g s.me.supervisor .load && segBase g ≤ va && va < segBase g + segLimit g

/-- What XTRI reads: the frame's row, its ray and its hit record, and the leaf's triangles where the leaf and the ray are
legal. -/
def xtriReads (a : Opnd) (leaf : W64) (i : Iss) : M (Nat × List Byte × List Byte × Option (List Byte)) := do
  let off ← frameAt i a 128 .rmw
  let ray ← rowBytes off
  let hit ← rowBytes (off + 64)
  if field leaf 62 2 ≠ 3 || rayBad ray then return (off, ray, hit, none)
  let n := field leaf 0 4 + 1
  let va := field leaf 4 53 * 16
  let s ← get
  match s.blockSeg va with
  | none => trapWith 9 0xFF (BitVec.ofNat 64 va)
  | some sn =>
    let g := s.me.seg sn
    if segBase g + segLimit g < va + 48 * n then trapWith 10 sn (BitVec.ofNat 64 va)
    let bs ← unitRead (rayBound ray) (BitVec.ofNat 64 va) (← confirmRange va (48 * n))
    return (off, ray, hit, some bs)

/-- What `Xtri` asks of its issue. -/
def xtriReq (g : Guard) (d : Opnd) (a : Opnd) (b : Opnd) (s : State) : Req :=
  { rayReq g true (fun s => s.lateDst d && s.addrOk a && s.addrOk b)
    (wideSrcs s.me.isWave a ++ wideSrcs s.me.isWave b) [] with regs := fun w => opRegs w d }

/-- `Xtri`: d and the frame are written when the result lands. -/
def xtriBody (la : BitVec 4) (_g : Guard) (d : Opnd) (a : Opnd) (b : Opnd) (i : Iss) : M Unit := do
  let leaf ← wval i b i.rep
  let (off, ray, hit, leaves) ← xtriReads a leaf i
  match leaves with
  | none => putLate la i d (if field leaf 62 2 ≠ 3 then 3 else 4)
  | some bs =>
    let t := triLoop { ray := ray, hit := hit, code := 0, last := 0, fmt := false, stop := false } 0 bs (field leaf 0 4 + 1)
    let rows : List RegWrite := if t.code = 0 then [] else [.row off t.ray, .row (off + 64) t.hit]
    let v := BitVec.ofNat 64 (t.code + 16 * t.last + (if t.fmt then 256 else 0))
    pendResult la.toNat true ((← get).scalarWrites i d v ++ rows)

def execXtri (la : BitVec 4) (g : Guard) (d a b : Opnd) (s : State) : Host.Outcome State Fault Refusal :=
  runIssue (xtriReq g d a b s) (xtriBody la g d a b) s

/-! TMAP, TLPIN and TLREP (R374 to R376). -/

/-- The two words of a treelet record and the virtual address of its nodes. -/
def readRecord (i : Iss) (a : Opnd) : M (W64 × Nat) := do
  let addr ← wval i a i.rep
  let got ← access 16 { plainNeed with natural := true } [(i.rep, addr)]
  let v ← readPieces plainLoad (got.headD (0, [])).2
  let nodes : W64 := BitVec.ofNat 64 v
  let w1 : W64 := BitVec.ofNat 64 (v / 2 ^ 64)
  let s ← get
  let sn := field nodes 61 3
  let g := s.me.seg sn
  if !segRights g s.me.supervisor .load then trapWith 9 sn nodes
  if segLimit g < field nodes 0 61 + 128 * (field w1 0 9 + 1) then trapWith 10 sn nodes
  return (w1, segBase g + field nodes 0 61)

/-- The entry that a record describes. -/
def treeletOf (asn : BitVec 12) (w1 : W64) (va : Nat) : Treelet :=
  { asn := asn, id := BitVec.ofNat 32 (va / 128), state := 1,
    to_ := { noMembers with owner := w1.extractLsb' 26 22 }, heat := 0, hot := w1.extractLsb' 48 16,
    first := field w1 15 11, ncnt := field w1 0 9, nodes := va }

/-- A record that TMAP and TLPIN refuse with RANGE (R349, R374). -/
def State.recordBad (s : State) (w1 : W64) (va : Nat) : Bool :=
  let n := field w1 0 9 + 1
  field w1 9 6 ≠ 0 || va % 128 ≠ 0 || 2 ^ 39 < va + 128 * n || field w1 15 11 < 128 || 1536 < field w1 15 11 + 2 * n ||
  (match s.target (BitVec.ofNat 64 (field w1 26 22)) with
   | none => true
   | some t => match s.localCore t with
     | some k => s.sys.retired.contains k
     | none => false)

def recReq (g : Guard) (d a : Opnd) (s : State) : Req :=
  rayReq g false (fun s => s.resDst d && s.addrOk a) (wideSrcs s.me.isWave a) [d]

/-- What `TmapMap` asks of its issue. -/
def tmapMapReq (g : Guard) (d : Opnd) (a : Opnd) (s : State) : Req :=
  (recReq g d a s)

def tmapMapBody (d : Opnd) (a : Opnd) (i : Iss) : M Unit := do
  let (w1, va) ← readRecord i a
  let s ← get
  let t := treeletOf s.myAsn w1 va
  let st ← if s.recordBad w1 va then pure 4
    else if (s.treelet t.asn t.id).isSome then pure 2
    else if ← addTreelet t then pure 0 else pure 1
  putScalar i d (BitVec.ofNat 64 st)

def execTmapMap (g : Guard) (d a : Opnd) (s : State) : Host.Outcome State Fault Refusal :=
  runIssue (tmapMapReq g d a s) (tmapMapBody d a) s

/-- The owner entry of a treelet on a core. -/
def State.ownerEntry (s : State) (core : Nat) (asn : BitVec 12) (nodes : Nat) : Option Nat :=
  ((s.core core).validPricks.find? (s.pricksFor core asn 1 nodes)).map (·.1)

/-- The treelet that a record names: none where its nodes lie where none can. -/
def State.treeletAt (s : State) (va : Nat) : Option Treelet :=
  if va % 128 ≠ 0 || 2 ^ 39 ≤ va then none else s.treelet s.myAsn (BitVec.ofNat 32 (va / 128))

/-- What `TmapUnmap` asks of its issue. -/
def tmapUnmapReq (g : Guard) (d : Opnd) (a : Opnd) (s : State) : Req :=
  (recReq g d a s)

def tmapUnmapBody (d : Opnd) (a : Opnd) (i : Iss) : M Unit := do
  let (_, va) ← readRecord i a
  let s ← get
  match s.treeletAt va with
  | none => putScalar i d 5
  | some t =>
    if t.state = 3 then
      match s.localCore t.to_.owner with
      | some k =>
        match s.ownerEntry k t.asn t.nodes with
        | some e => unprickOwner k e
        | none => pure ()
      | none => pure ()
    for r in t.to_.reps do dropReplicaOn r t.asn t.nodes
    dropTreelet t.asn t.id
    answerHeld t.asn t.id 5 noMembers
    putScalar i d 0

def execTmapUnmap (g : Guard) (d a : Opnd) (s : State) : Host.Outcome State Fault Refusal :=
  runIssue (tmapUnmapReq g d a s) (tmapUnmapBody d a) s

/-- What `Tlpin` asks of its issue. -/
def tlpinReq (g : Guard) (d : Opnd) (a : Opnd) (s : State) : Req :=
  (recReq g d a s)

def tlpinBody (d : Opnd) (a : Opnd) (i : Iss) : M Unit := do
  let (w1, va) ← readRecord i a
  let s ← get
  let t := treeletOf s.myAsn w1 va
  let old := s.treelet t.asn t.id
  let free := match old with
    | none => true
    | some o => o.state = 1 && o.to_.owner = t.to_.owner
  let st ← if s.recordBad w1 va then pure 4
    else if t.to_.owner ≠ s.globalId s.hereId || !s.claims false then pure 3
    else if !free then pure 2
    else if old.isNone && 8 ≤ ((Store.get Cluster.reset s.clusters (shardOf t.asn t.id)).treelets.filter
        fun u => treeletSet u.id = treeletSet t.id).length then pure 1
    else
      match ← prickOwner s.hereId (t.ownerReq s.me.team) with
      | .wait => hold .loadOp
      | .status 0 =>
        match old with
        | none =>
          let _ ← addTreelet { t with state := 3 }
        | some _ => modTreelet t.asn t.id fun o =>
            { o with state := 3, hot := t.hot, first := t.first, ncnt := t.ncnt }
        pure 0
      | .status n => pure n
  putScalar i d (BitVec.ofNat 64 st)

def execTlpin (g : Guard) (d a : Opnd) (s : State) : Host.Outcome State Fault Refusal :=
  runIssue (tlpinReq g d a s) (tlpinBody d a) s

/-- What `TlrepOffer` asks of its issue. -/
def tlrepOfferReq (g : Guard) (d : Opnd) (a : Opnd) (b : Opnd) (c : Opnd) (s : State) : Req :=
  (rayReq g false (fun s => s.resDst d && s.valOk a && s.valOk b && s.addrOk c) (a :: b :: wideSrcs s.me.isWave c) [d])

def tlrepOfferBody (d : Opnd) (a : Opnd) (b : Opnd) (c : Opnd) (i : Iss) : M Unit := do
  let cva ← segRead (← wval i c i.rep) 8 8
  let s ← get
  let asn := s.myAsn
  let id : W32 := (s.sval i false a).setWidth 32
  let sh := shardOf asn id
  let st ← if !s.claims false then pure 3
    else if 64 ≤ (Store.get Cluster.reset s.clusters sh).offers.length then pure 1
    else do
      let o : Offer :=
        { core := s.hereId, asn := asn, id := id, first := (s.sval i false b).toNat, counter := cva, team := s.me.team,
          used := false }
      modCluster sh fun k => { k with offers := k.offers ++ [o] }
      tryReplicate asn id
      pure 0
  putScalar i d (BitVec.ofNat 64 st)

def execTlrepOffer (g : Guard) (d a b c : Opnd) (s : State) : Host.Outcome State Fault Refusal :=
  runIssue (tlrepOfferReq g d a b c s) (tlrepOfferBody d a b c) s

/-- What `TlrepWithdraw` asks of its issue. -/
def tlrepWithdrawReq (g : Guard) (d : Opnd) (a : Opnd) : Req :=
  (rayReq g false (fun s => s.resDst d && s.valOk a) [a] [d])

def tlrepWithdrawBody (d : Opnd) (a : Opnd) (i : Iss) : M Unit := do
  let s ← get
  let asn := s.myAsn
  let id : W32 := (s.sval i false a).setWidth 32
  let sh := shardOf asn id
  let mine (o : Offer) : Bool := o.core = s.hereId && o.team = s.me.team && o.asn = asn && o.id = id
  let st ← if !s.claims false then pure 3
    else match (Store.get Cluster.reset s.clusters sh).offers.find? mine with
      | none => pure 5
      | some o => do
        modCluster sh fun k => { k with offers := k.offers.filter fun p => !p.same o }
        if o.used then
          match s.treelet asn id with
          | some t =>
            dropReplicaOn (s.globalId s.hereId) asn t.nodes
            modTreelet asn id fun t => { t with to_ := t.to_.setRep (s.globalId s.hereId) noRep }
          | none => pure ()
        pure 0
  putScalar i d (BitVec.ofNat 64 st)

def execTlrepWithdraw (g : Guard) (d a : Opnd) (s : State) : Host.Outcome State Fault Refusal :=
  runIssue (tlrepWithdrawReq g d a) (tlrepWithdrawBody d a) s

/-! Arrivals (R357, R358). -/

/-- An item as its row image: payload and arrival word (R355). -/
def itemImage (h : Hdr) (payload : List Byte) (stale : Bool) : List Byte :=
  payload ++ List.replicate (52 - payload.length) 0 ++
  natToBytes 4 (h.src.toNat + (if h.reinj then 2 ^ 30 else 0) + (if stale then 2 ^ 31 else 0)) ++ List.replicate 8 0

/-- The claimant of a queue is away. -/
def Core.claimBound (c : Core) (asnField : Nat) (k : Option Claim) : Bound :=
  match k with
  | none => .nowhere
  | some k => if k.asn.toNat ≠ asnField then .nowhere
    else if (c.team k.team).isSome then .team k.team else .away

/-- A ray's arrival at the pricking entries: STALE, and the arrival count of an owner entry (R357 step 4). -/
def countArrival (core : Nat) (va : Nat) : M Bool := do
  match (← getCore core).validPricks.find? fun e =>
      prickBase e.2.word ≤ va && va < prickBase e.2.word + 64 * prickLen e.2.word with
  | none => return true
  | some e =>
    if prickMode e.2.word = 1 then
      modCore core fun c =>
        { c with pricks := Store.set .reset c.pricks e.1 { e.2 with arrivals := e.2.arrivals + 1 } }
    return false

/-- RAY: a ray arrives. -/
def execRay (h : Hdr) (payload : List Byte) (s : State) : Host.Outcome State Fault Refusal :=
  (deliver h (.ray payload) (.ray h payload) (fun c => c.claimBound (bytesAt payload 42 2 / 16) c.rayClaim)
    fun core _ => do
      if 64 ≤ (← getCore core).rayq.length then return false
      let stale ← countArrival core (bytesAt payload 36 4 * 128)
      modCore core fun c => { c with rayq := c.rayq ++ [itemImage h payload stale] }.queueRows
      return true).toOutcome s

/-- HIT: a hit arrives. -/
def execHit (h : Hdr) (payload : List Byte) (s : State) : Host.Outcome State Fault Refusal :=
  (deliver h (.hit payload) (.hit h payload) (fun c => c.claimBound (bytesAt payload 24 2 / 16) c.hitClaim)
    fun core _ => do
      if 32 ≤ (← getCore core).hitq.length then return false
      modCore core fun c => { c with hitq := c.hitq ++ [itemImage h payload false] }.queueRows
      return true).toOutcome s

/-- LOOKUP_RETRY: an RSEND whose lookup the full table refused asks again (R361). -/
def lookupAgain (c : CtxId) : M Unit := do
  match (← getCtx c).asked with
  | some q =>
    if q.answer.isNone then pure ()
    else match q.answer with
      | some (8, _) =>
        modCtx c fun x => { x with asked := some { q with answer := none } }
        later (.lookup (shardOf q.asn q.id) q.asn q.id c)
      | _ => pure ()
  | none => pure ()

def execLookupRetry (c : CtxId) (s : State) : Host.Outcome State Fault Refusal := (lookupAgain c).toOutcome s

end Sys2Proof.Machine
end

