-- ==== Sys2Proof/Machine/SaveImage.lean ====
section
/-! DEFINITION. A team's save image (16_traps.md R435): its areas, as bytes in memory and read back. The order of fields that
R435 leaves open is the model's (log 27). -/

namespace Sys2Proof.Machine

/-- `n` free bytes (log 8). -/
def freeBytes (what ticks n : Nat) : List Byte := (List.range n).map fun j => Config.freeByte (what + j) ticks

/-- Rows of a team by run: team rows, accumulator rows, frames. -/
def Team.allRuns (t : Team) : List (Nat × Nat) :=
  t.runs ++ (match t.accRow with | some a => [(a, 5)] | none => []) ++ t.frames.map fun f => (f.2, 44)

def Team.allRows (t : Team) : List Nat := (t.allRuns.flatMap fun r => (List.range r.2).map (r.1 + ·)).mergeSort

/-- The bytes of areas 2 to 11 of the image of a team with so many queued transfers. -/
def areaSizes (t : Team) (transfers : Nat) (pair : Bool) : List Nat :=
  let rows := t.allRows.length
  [4 * t.uniforms, 780, 1192, 80 * transfers, 2248, if pair then 14400 else 0, 1024 * t.threads, 544 * t.waves, 64 * rows, 4 * rows]

/-! The state of queues, the ring, bins and routes (area 4), of claims and the window (area 6) and of the pair (area 7), as
numbers of 8 bytes in the order of their fields here (log 27). -/

/-- A bit as a number. -/
def bitNum (b : Bool) : Nat := if b then 1 else 0

/-- An integer as a number of 64 bits. -/
def intNum64 (v : Int) : Nat := (BitVec.ofInt 64 v).toNat

/-- Seven numbers of an incoming queue. -/
def queueNums (q : Option InQueue) : List Nat :=
  match q with
  | some q => [1 + 2 * bitNum q.w64, q.base, q.rows, q.producer.toNat, q.head, q.count, q.owed]
  | none => List.replicate 7 0

def queueOf (n : Nat → Nat) : Option InQueue :=
  if n 0 % 2 = 1 then
    some { base := n 1, rows := n 2, producer := BitVec.ofNat 64 (n 3), w64 := decide (n 0 / 2 % 2 = 1), head := n 4,
           count := n 5, owed := n 6 }
  else none

/-- Five numbers of the receive ring. -/
def ringNums (r : Option Ring) : List Nat :=
  match r with
  | some r => [1, r.base, r.rows, r.head, r.count]
  | none => List.replicate 5 0

def ringOf (n : Nat → Nat) : Option Ring :=
  if n 0 = 1 then some { base := n 1, rows := n 2, head := n 3, count := n 4 } else none

/-- Seven numbers of a bin. -/
def binNums (b : Option Bin) : List Nat :=
  match b with
  | some b => [1 + 2 * bitNum b.w64 + 4 * bitNum b.drop + 8 * bitNum b.sat, b.base, b.rows, b.op,
               (match b.bar with
                | some o => o + 1
                | none => 0), b.count.toNat, b.flags.toNat]
  | none => List.replicate 7 0

def binOf (n : Nat → Nat) : Option Bin :=
  if n 0 % 2 = 1 then
    some { base := n 1, rows := n 2, w64 := (n 0).testBit 1, op := n 3, bar := if n 4 = 0 then none else some (n 4 - 1),
           count := BitVec.ofNat 32 (n 5), drop := (n 0).testBit 2, sat := (n 0).testBit 3, flags := BitVec.ofNat 5 (n 6) }
  else none

/-- Queues 0 to 7, the ring, bins 0 to 7 and routes 0 to 7 of a team: 133 numbers. -/
def Team.netNums (t : Team) : List Nat :=
  ((List.range 8).flatMap fun i => queueNums (Store.get none t.inq i)) ++ ringNums t.ring ++
  ((List.range 8).flatMap fun i => binNums (Store.get none t.bins i)) ++
  (List.range 8).flatMap fun i => let r := Store.get (0, 0) t.routes i; [r.1.toNat, r.2]

def Team.withNet (t : Team) (n : Nat → Nat) : Team :=
  let eight {α : Type} [DecidableEq α] (m : Store α) (d : α) (f : Nat → α) : Store α := (List.range 8).foldl (fun m i => Store.set d m i (f i)) m
  { t with inq := eight t.inq none fun i => queueOf fun j => n (7 * i + j),
           ring := ringOf fun j => n (56 + j),
           bins := eight t.bins none fun i => binOf fun j => n (61 + 7 * i + j),
           routes := eight t.routes (0, 0) fun i => (BitVec.ofNat 64 (n (117 + 2 * i)), n (118 + 2 * i)) }

/-- The claims of the ray and hit queues: a bit and the address space of each, and a bit for the window's. -/
def claimBytes (cl : Option Claim × Option Claim) (hoop : Bool) : List Byte :=
  let one (c : Option Claim) : Nat := match c with
    | some c => 1 + 2 * c.asn.toNat
    | none => 0
  numbers 8 [one cl.1, one cl.2, bitNum hoop, 0, 0, 0, 0, 0]

/-- The window: 32 slots of 64 bytes, COUNT, STATE, and the tile table, 64 first rows of 2 bytes. -/
def windowBytes (h : Option Hoop) : List Byte :=
  match h with
  | none => List.replicate 2184 0
  | some h =>
    ((h.slots.flatMap fun r => (r ++ List.replicate 64 0).take 64) ++ List.replicate 2048 0).take 2048 ++
    numbers 4 [h.slots.length, h.state.toNat] ++ numbers 2 ((h.tiles ++ List.replicate 64 0).take 64)

def windowOf (h : Hoop) (get : Nat → Nat → List Byte) : Hoop :=
  { h with slots := (List.range (min 32 (bytesToNat (get 2048 4)))).map fun i => get (64 * i) 64,
           state := BitVec.ofNat 32 (bytesToNat (get 2052 4)),
           tiles := ((List.range 64).map fun i => bytesToNat (get (2056 + 2 * i) 2)).filter (· ≠ 0) }

/-- Thirty-two numbers of a command of the pair; its pages and extents are in no image. -/
def MatCmd.nums (q : MatCmd) : List Nat :=
  let eight (l : List W64) : List Nat := (List.range 8).map fun j => (l.getD j 0).toNat
  [q.kind, q.tset, bitNum q.clr + 2 * bitNum q.unf + 4 * bitNum q.bi8, q.va.1, q.va.2, intNum64 q.er, q.mask.toNat, q.acc,
   q.level, q.team, q.core, q.order, q.step, q.cycles] ++ eight q.a ++ eight q.b ++ [0, 0]

def MatCmd.withNums (q : MatCmd) (n : Nat → Nat) : MatCmd :=
  let eight (l : List W64) (o : Nat) : List W64 :=
    if l.isEmpty then [] else (List.range 8).map fun j => BitVec.ofNat 64 (n (o + j))
  { q with kind := n 0, tset := n 1, clr := (n 2).testBit 0, unf := (n 2).testBit 1, bi8 := (n 2).testBit 2, va := (n 3, n 4),
           er := (BitVec.ofNat 64 (n 5)).toInt, mask := BitVec.ofNat 32 (n 6), acc := n 7, level := n 8, team := n 9,
           core := n 10, order := n 11, step := n 12, cycles := n 13, a := eight q.a 14, b := eight q.b 22 }

/-- The pair: both tile sets, then its state and its commands. -/
def pairBytes (m : MatPair) : List Byte :=
  ((List.range 2048).flatMap fun j => natToBytes 6 (Store.get 0 m.tiles j).toNat) ++
  numbers 8 [intNum64 m.ter.1, intNum64 m.ter.2, bitNum m.sat + 2 * bitNum m.err + 4 * bitNum m.poison.1 + 8 * bitNum m.poison.2,
    m.flags.toNat, m.queue.length, 0, 0, 0] ++
  numbers 8 (m.queue.flatMap MatCmd.nums) ++ List.replicate (256 * (8 - m.queue.length)) 0

def pairOf (m : MatPair) (get : Nat → Nat → List Byte) : MatPair :=
  let n (i : Nat) : Nat := bytesToNat (get (12288 + 8 * i) 8)
  { m with
      tiles := (List.range 2048).foldr (fun j t => Store.set 0 t j (BitVec.ofNat 48 (bytesToNat (get (6 * j) 6)))) [],
      ter := ((BitVec.ofNat 64 (n 0)).toInt, (BitVec.ofNat 64 (n 1)).toInt), sat := (n 2).testBit 0, err := (n 2).testBit 1,
      poison := ((n 2).testBit 2, (n 2).testBit 3), flags := BitVec.ofNat 5 (n 3),
      queue := (List.range m.queue.length).filterMap fun i =>
        (m.queue[i]?).map fun q => q.withNums fun j => n (8 + 32 * i + j) }

/-- Where area `a` (2 to 11) begins in its image, and with 12 the end. -/
def areaAt (sizes : List Nat) (a : Nat) : Nat := 256 + ((sizes.take (a - 2)).map fun n => (n + 63) / 64 * 64).sum

/-- The header: tag, tid, LNUM, the RCB's address, the core, T, W, N, S and the offsets of areas 2 to 11 in 8 bytes each,
then the runs (log 27). -/
def saveHeader (core : Nat) (t : Team) (sizes : List Nat) : List Byte :=
  let b := numbers 8 [t.tag, t.tag, t.lnum.toNat, t.rcb, core, t.threads, t.waves, t.uniforms, t.shuttle] ++
    numbers 8 ((List.range 10).map fun i => areaAt sizes (i + 2)) ++
    numbers 4 (t.runs.flatMap fun r => [r.1, r.2])
  (b ++ List.replicate (256 - b.length) 0).take 256

/-- A row's word: [15:0] full/empty bits, [17:16] LAYOUT, [20:18] CLASS, [23] POISON. -/
def rowWord16 (tag : W32) (fe : List Bool) : Nat :=
  (List.range 16).foldl (fun v i => v + (if fe.getD i false then 2 ^ i else 0)) 0 +
  field tag 21 2 * 2 ^ 16 + field tag 16 3 * 2 ^ 18 + (if tag.getLsbD 23 then 2 ^ 23 else 0)

/-- The tag word and full/empty bits that a row's word gives back; the owner stays. -/
def rowOfWord (tag : W32) (w : Nat) : W32 × List Bool :=
  (BitVec.ofNat 32 (field tag 0 16 + w / 2 ^ 18 % 8 * 2 ^ 16 + w / 2 ^ 16 % 4 * 2 ^ 21 + w / 2 ^ 23 % 2 * 2 ^ 23),
   (List.range 16).map w.testBit)

/-- The context that a team keeps at a seat. -/
def Preempted.at_ (p : Preempted) (q : Seat) : Option Ctx := (p.ctxs.find? fun x => x.1 = q).map (·.2)

/-- A queued transfer: its request, its entry and generation, and its batch (80 bytes). -/
def transferBytes (x : Nat × ShEntry) : List Byte :=
  numbers 8 ((List.range 8).map fun j => (x.2.words.getD j 0).toNat) ++ numbers 8 [x.1 + 32 * x.2.gen, x.2.order]

/-- Areas 2 to 11; `cl`: the team's claims of the ray and hit queues. -/
def Preempted.areas (p : Preempted) (cl : Option Claim × Option Claim) : List (List Byte) :=
  let t := p.team
  let acc := (List.range 4).flatMap fun i =>
    let st := Store.get AccStat.zero t.acc i
    numbers 8 [st.byte, st.wrap.toNat]
  [numbers 4 (p.uni.map (·.toNat)),
   numbers 8 (p.sh.map (·.toNat)) ++ numbers 8 (p.md.map (·.toNat)) ++ numbers 1 (p.shCause ++ p.mdCause),
   acc ++ numbers 8 (t.netNums ++ List.replicate 8 0),
   p.transfers.flatMap transferBytes,
   claimBytes cl p.window.isSome ++ windowBytes p.window,
   (match p.pair with
    | some m => pairBytes m
    | none => []),
   t.slots.flatMap fun n => match p.at_ (.slot n) with
     | some c => c.threadImage 0
     | none => List.replicate 1024 0,
   (List.range t.waves).flatMap fun i => match (t.frames[i]?).bind fun f => p.at_ (.frame f.1) with
     | some c => c.frameEntry 0
     | none => List.replicate 544 0,
   p.rows.flatMap fun r => r.2.1,
   numbers 4 (p.rows.map fun r => rowWord16 r.2.2.1 r.2.2.2)]

def Preempted.sizes (p : Preempted) : List Nat := areaSizes p.team p.transfers.length p.paired

/-- The image with the address at which each piece of it lies. -/
def Preempted.pieces (p : Preempted) (core : Nat) (cl : Option Claim × Option Claim) : List (Nat × List Byte) :=
  (p.image, saveHeader core p.team p.sizes) ::
    (List.range 10).map fun i => (p.image + areaAt p.sizes (i + 2), (p.areas cl).getD i [])

/-- A thread as its image gives it back, with the comparison of its clause's class. -/
def Ctx.fromThread (c : Ctx) (bs : List Byte) : Ctx :=
  let q (off : Nat) : W64 := BitVec.ofNat 64 (bytesAt bs off 8)
  let n := c.withThreadImage bs 0 0
  let p : PcSlot := { n.slots.1 with refetch := c.slots.1.refetch || n.slots.1.refetch }
  let n1 : Ctx := { n with slots := (p, n.slots.2) }
  if c.handler then
    { n1 with tpc0 := q 712 &&& pcBits, taddr := q 728, tspare := q 736,
              tcause := putTmode (q 720 &&& 0x00003FFFFFFEFFFF) ((q 720).extractLsb' 32 14 |>.setWidth 32) }
  else n1

/-- A status byte with its WRAP as an accumulator's status (R139): the inverse of `AccStat.byte`. -/
def AccStat.ofByte (b : Nat) (wrap : W64) : AccStat :=
  { nv := b.testBit 4, pinf := b.testBit 3, ninf := b.testBit 2, nx := b.testBit 0, big := b.testBit 5, wrap := wrap }

/-- A pre-empted team as its image in memory gives it back: uniforms, shadow and descriptor registers, accumulator
statuses, queues, ring, bins and routes, the window, the pair, thread images, frame-table entries, rows and their words. `get a off n`: bytes of
area a. -/
def Preempted.reload (p : Preempted) (get : Nat → Nat → Nat → List Byte) : Preempted :=
  let t := p.team
  let word (a i n : Nat) : Nat := bytesToNat (get a (n * i) n)
  let ctxs := p.ctxs.map fun x => match x.1 with
    | .slot n => (x.1, x.2.fromThread (get 8 (1024 * t.slots.idxOf n) 1024))
    | .frame n => (x.1, x.2.withFrameEntry (get 9 (544 * (t.frames.map (·.1)).idxOf n) 544) 0 0)
  let rows := (List.range p.rows.length).map fun i =>
    match p.rows[i]? with
    | some r =>
      let w := rowOfWord r.2.2.1 (word 11 i 4)
      (r.1, get 10 (64 * i) 64, w.1, w.2)
    | none => (0, [], 0, [])
  let acc := (List.range 4).foldl (fun m i =>
    Store.set AccStat.zero m i (AccStat.ofByte (word 4 (2 * i) 8) (BitVec.ofNat 64 (word 4 (2 * i + 1) 8)))) t.acc
  { p with
      team := ({ t with acc := acc } : Team).withNet fun i => word 4 (8 + i) 8, pair := p.pair.map fun m => pairOf m (get 7),
      window := p.window.map fun h => windowOf h fun off n => get 6 (64 + off) n,
      uni := (List.range p.uni.length).map fun i => BitVec.ofNat 32 (word 2 i 4),
      sh := (List.range p.sh.length).map fun i => BitVec.ofNat 64 (word 3 i 8),
      md := (List.range p.md.length).map fun i => BitVec.ofNat 64 (word 3 (p.sh.length + i) 8),
      transfers := (List.range p.transfers.length).filterMap fun i =>
        (p.transfers[i]?).map fun x => (x.1, { x.2 with words := (List.range 8).map fun j => BitVec.ofNat 64 (word 5 (10 * i + j) 8) }),
      ctxs := ctxs, rows := rows }

end Sys2Proof.Machine
end

