-- ==== Sys2Proof/Machine/Raster.lean ====
section
/-! DEFINITION. The intersection unit in raster mode and the Hoop window: majors 0xB4, 0xB9 and 0xBA (14_raster.md R377 to
R388). -/

namespace Sys2Proof.Machine

/-! Primitives (R378, R379). -/

/-- A point of the screen. -/
abbrev Pt := Frac × Frac

/-- The edge function. -/
def edgeFn (a b p : Pt) : Frac :=
  ((b.1.sub a.1).mul (p.2.sub a.2)).sub ((b.2.sub a.2).mul (p.1.sub a.1))

/-- A primitive with its corners put in the order that makes its area positive. -/
structure Prim where
  v0 : Pt
  v1 : Pt
  v2 : Pt
  z0 : Frac
  z1 : Frac
  z2 : Frac
  area : Frac
  deriving DecidableEq, Repr

/-- A record is malformed. -/
def primBad (r : List Byte) : Bool :=
  ((List.range 9).any fun j => !(numAt r (4 * j)).isFin) || ((r.drop 40).take 24).any (· ≠ 0)

def ptAt (r : List Byte) (j : Nat) : Pt := (.ofNum (numAt r (8 * j)), .ofNum (numAt r (8 * j + 4)))

/-- The area before any exchange of corners, which culling looks at (R382). -/
def rawArea (r : List Byte) : Frac := edgeFn (ptAt r 0) (ptAt r 1) (ptAt r 2)

def primOf (r : List Byte) : Prim :=
  let z (j : Nat) : Frac := .ofNum (numAt r (24 + 4 * j))
  let a := rawArea r
  if a.n < 0 then
    { v0 := ptAt r 0, v1 := ptAt r 2, v2 := ptAt r 1, z0 := z 0, z1 := z 2, z2 := z 1, area := ⟨-a.n, a.d⟩ }
  else { v0 := ptAt r 0, v1 := ptAt r 1, v2 := ptAt r 2, z0 := z 0, z1 := z 1, z2 := z 2, area := a }

def Prim.edges (t : Prim) : List (Pt × Pt) := [(t.v0, t.v1), (t.v1, t.v2), (t.v2, t.v0)]

def topLeft (a b : Pt) : Bool :=
  let dy := b.2.sub a.2
  0 < dy.n || (dy.n = 0 && (b.1.sub a.1).n < 0)

/-- A point is covered. -/
def Prim.covers (t : Prim) (p : Pt) : Bool :=
  t.area.n ≠ 0 && t.edges.all fun e =>
    let v := (edgeFn e.1 e.2 p).n
    0 < v || (v = 0 && topLeft e.1 e.2)

/-- The depth at a point, with exact barycentric weights, rounded to binary32 (R385). -/
def Prim.depth (t : Prim) (p : Pt) : Nat :=
  let s := (((edgeFn t.v1 t.v2 p).mul t.z0).add ((edgeFn t.v2 t.v0 p).mul t.z1)).add ((edgeFn t.v0 t.v1 p).mul t.z2)
  (s.div t.area).toF32

/-! XTILE (R377, R380). -/

/-- A block descriptor whose reserved bits are zero and whose L is at most 4. -/
def blockOk (b : W64) : Bool := field b 36 28 = 0 && field b 32 4 ≤ 4

/-- The corners of cell (cx, cy) of a block. -/
def cellCorners (b : W64) (cx cy : Nat) : List Pt :=
  let side := 4 * 2 ^ field b 32 4
  let x := 16 * field b 0 16 + cx * side
  let y := 16 * field b 16 16 + cy * side
  let pt (x y : Nat) : Pt := (.ofInt x, .ofInt y)
  [pt x y, pt (x + side) y, pt x (y + side), pt (x + side) (y + side)]

/-- The bounding box of a triangle meets the closed rectangle between two corners. -/
def Prim.boxMeets (t : Prim) (lo hi : Pt) : Bool :=
  let apart (f : Pt → Frac) : Bool :=
    let top := ((f t.v0).max2 (f t.v1)).max2 (f t.v2)
    let bot := ((f t.v0).min2 (f t.v1)).min2 (f t.v2)
    top.lt (f lo) || (f hi).lt bot
  !apart (·.1) && !apart (·.2)

/-- The result word of XTILE. -/
def xtileResult (r : List Byte) (b : W64) : Nat :=
  if primBad r then 0 else
  let t := primOf r
  if t.area.n = 0 then 0 else
  (List.range 16).foldl (fun v c =>
    let cs := cellCorners b (c % 4) (c / 4)
    let meets := t.boxMeets (cs.getD 0 (⟨0, 1⟩, ⟨0, 1⟩)) (cs.getD 3 (⟨0, 1⟩, ⟨0, 1⟩)) &&
      t.edges.all fun e => cs.any fun p => 0 ≤ (edgeFn e.1 e.2 p).n
    let full := t.edges.all fun e => cs.all fun p => 0 < (edgeFn e.1 e.2 p).n
    v + (if meets then 2 ^ c else 0) + (if full then 2 ^ (16 + c) else 0)) 0

/-- The 64 bytes of a primitive record, read as a plain load (R387). -/
def primAt (i : Iss) (a : Opnd) : M (List Byte) := do
  let addr ← wval i a i.rep
  let got ← access 64 { plainNeed with natural := true } [(i.rep, addr)]
  return natToBytes 64 (← readPieces plainLoad (got.headD (0, [])).2)

/-- A block descriptor as an operand. -/
def blockVal (i : Iss) (b : Opnd) : M W64 := do
  let v := ((← get).addrZero i b).getD 0
  needOperand (blockOk v)
  return v

/-- What `Xtile` asks of its issue. -/
def xtileReq (g : Guard) (d : Opnd) (a : Opnd) (b : Opnd) (s : State) : Req :=
  (rayReq g false (fun s => s.resDst d && s.addrOk a && s.addrZeroOk b)
    (wideSrcs s.me.isWave a ++ addrZeroSrcs s.me.isWave b) [d])

def xtileBody (d : Opnd) (a : Opnd) (b : Opnd) (i : Iss) : M Unit := do
  let b ← blockVal i b
  let r ← primAt i a
  putScalar i d (BitVec.ofNat 64 (xtileResult r b))

def execXtile (g : Guard) (d a b : Opnd) (s : State) : Host.Outcome State Fault Refusal :=
  runIssue (xtileReq g d a b s) (xtileBody d a b) s

/-! The window (R381 to R384, R388). -/

/-- The turn's team is the claimant. -/
def State.holdsHoop (s : State) : Bool := s.myTeam.isSome && s.here.hoop.claimant = some s.me.team

/-- Closes the sub-pass of a core: COUNT and the tile table are cleared, tile rows are team rows again, and a deferred
pre-emption lands (R384, R386). -/
def closeSubPass (core : Nat) : M Unit := do
  let h := (← getCore core).hoop
  for r in h.tiles do
    modCore core fun c =>
      (List.range 32).foldl (fun c j => if tagClass (c.tag (r + j)) = 6 then c.putTag (r + j) (setClass (c.tag (r + j)) 4) else c) c
  modCore core fun c => { c with hoop := { c.hoop with slots := [], tiles := [] } }
  match h.deferred, h.claimant with
  | some _, some tag => laterOnce (.preemption core (BitVec.ofNat 16 tag) false)
  | _, _ => pure ()

/-- Ends the claim of the window (R381). -/
def endHoop (core : Nat) : M Unit := do
  closeSubPass core
  modCore core fun c => { c with hoop := .reset }

/-- The result of HOOPW: the status, with COUNT for the claimant (R388). -/
def putHoop (i : Iss) (d : Opnd) (status : Nat) (mine : Bool) : M Unit := do
  let n := (← getHere).hoop.slots.length
  putScalar i d (BitVec.ofNat 64 (status * 2 ^ 24 + (if mine then n else 0)))

def hoopReq (g : Guard) (d : Opnd) (ok : State → Bool) (srcs : List Opnd) : Req :=
  rayReq g false (fun s => s.resDst d && ok s) srcs [d]

/-- What `HoopwClaim` asks of its issue. -/
def hoopwClaimReq (g : Guard) (d : Opnd) : Req :=
  (hoopReq g d (fun _ => true) [])

def hoopwClaimBody (d : Opnd) (i : Iss) : M Unit := do
  let s ← get
  if s.myTeam.isSome && s.here.hoop.claimant.isNone then
    modHere fun c => { c with hoop := { c.hoop with claimant := some s.me.team } }
  let mine := (← get).holdsHoop
  putHoop i d (if mine then 0 else 4) mine

def execHoopwClaim (g : Guard) (d : Opnd) (s : State) : Host.Outcome State Fault Refusal :=
  runIssue (hoopwClaimReq g d) (hoopwClaimBody d) s

/-- What `HoopwRelease` asks of its issue. -/
def hoopwReleaseReq (g : Guard) (d : Opnd) : Req :=
  (hoopReq g d (fun _ => true) [])

def hoopwReleaseBody (d : Opnd) (i : Iss) : M Unit := do
  let s ← get
  if s.holdsHoop then
    endHoop s.hereId
    putHoop i d 0 true
  else putHoop i d 4 false

def execHoopwRelease (g : Guard) (d : Opnd) (s : State) : Host.Outcome State Fault Refusal :=
  runIssue (hoopwReleaseReq g d) (hoopwReleaseBody d) s

/-- A STATE value with nothing reserved in it (R382). -/
def hoopStateOk (v : W64) : Bool := field v 4 60 = 0 && field v 2 2 ≠ 3 && field v 0 2 ≠ 3

/-- What `HoopwState` asks of its issue. -/
def hoopwStateReq (g : Guard) (d : Opnd) (a : Opnd) : Req :=
  (hoopReq g d (fun s => s.valOk a) [a])

def hoopwStateBody (d : Opnd) (a : Opnd) (i : Iss) : M Unit := do
  let v ← sval i a
  needOperand (hoopStateOk v)
  let s ← get
  if !s.holdsHoop then putHoop i d 4 false
  else if !s.here.hoop.slots.isEmpty && v.setWidth 32 ≠ s.here.hoop.state then putHoop i d 2 true
  else
    modHere fun c => { c with hoop := { c.hoop with state := v.setWidth 32 } }
    putHoop i d 0 true

def execHoopwState (g : Guard) (d a : Opnd) (s : State) : Host.Outcome State Fault Refusal :=
  runIssue (hoopwStateReq g d a) (hoopwStateBody d a) s

/-- What `HoopwAdd` asks of its issue. -/
def hoopwAddReq (g : Guard) (d : Opnd) (a : Opnd) (s : State) : Req :=
  (hoopReq g d (fun s => s.addrOk a) (wideSrcs s.me.isWave a))

def hoopwAddBody (d : Opnd) (a : Opnd) (i : Iss) : M Unit := do
  let r ← primAt i a
  let s ← get
  if !s.holdsHoop then putHoop i d 4 false
  else if primBad r then putHoop i d 3 true
  else if 32 ≤ s.here.hoop.slots.length then putHoop i d 1 true
  else
    modHere fun c => { c with hoop := { c.hoop with slots := c.hoop.slots ++ [r] } }
    putHoop i d 0 true

def execHoopwAdd (g : Guard) (d a : Opnd) (s : State) : Host.Outcome State Fault Refusal :=
  runIssue (hoopwAddReq g d a s) (hoopwAddBody d a) s

/-- What `HoopwClear` asks of its issue. -/
def hoopwClearReq (g : Guard) (d : Opnd) : Req :=
  (hoopReq g d (fun _ => true) [])

def hoopwClearBody (d : Opnd) (i : Iss) : M Unit := do
  let s ← get
  if s.holdsHoop then
    closeSubPass s.hereId
    putHoop i d 0 true
  else putHoop i d 4 false

def execHoopwClear (g : Guard) (d : Opnd) (s : State) : Host.Outcome State Fault Refusal :=
  runIssue (hoopwClearReq g d) (hoopwClearBody d) s

/-! HOOPR (R384, R385). -/

/-- A primitive is culled (R382). -/
def culled (st : W32) (r : List Byte) : Bool :=
  let a := (rawArea r).n
  (field st 2 2 = 1 && a < 0) || (field st 2 2 = 2 && 0 < a)

/-- The depth test. -/
def depthPasses (st : W32) (z old : Nat) : Bool :=
  let nz := unpack f32Fmt false z
  let no := unpack f32Fmt false old
  match field st 0 2 with
  | 0 => numLt nz no
  | 1 => !nz.isNan && !no.isNan && !numLt no nz
  | _ => true

/-- The pixels of a tile that a primitive covers: number and depth. -/
def coveredPixels (b : W64) (t : Prim) : List (Nat × Nat) :=
  (List.range 256).filterMap fun k =>
    let p : Pt := (⟨2 * (16 * field b 0 16 + k % 16 : Nat) + 1, 2⟩, ⟨2 * (16 * field b 16 16 + k / 16 : Nat) + 1, 2⟩)
    if t.covers p then some (k, t.depth p) else none

/-- A depth in the range 0 to 1. -/
def depthInRange (z : Nat) : Bool :=
  let n := unpack f32Fmt false z
  !numLt n (.fin false 0 0) && !numLt (.fin false 1 0) n

/-- One pixel that a replay touches: its number, and the depth and the primitive that it writes where its test passes. -/
structure Touch where
  px : Nat
  put : Option (Nat × List Byte)
  deriving DecidableEq, Repr

/-- A slot replayed over a tile's depths: the depths after it, and the pixels touched so far. -/
def replaySlot (b : W64) (st : W32) (r : List Byte) (acc : List Nat × List Touch) : List Nat × List Touch :=
  if culled st r then acc
  else (coveredPixels b (primOf r)).foldl (fun a px =>
    if !depthInRange px.2 then a
    else if depthPasses st px.2 (a.1.getD px.1 0) then
      (a.1.set px.1 px.2, ⟨px.1, some (px.2, (r.drop 36).take 4)⟩ :: a.2)
    else (a.1, ⟨px.1, none⟩ :: a.2)) acc

/-- The pixels that the slots touch on a tile of given depths, in slot and pixel order (R385). -/
def replay (b : W64) (st : W32) (slots : List (List Byte)) (depths : List Nat) : List Touch :=
  (slots.foldl (fun a r => replaySlot b st r a) (depths, [])).2.reverse

/-- The pixels that HOOPR touches on a tile at an offset of the turn's core. -/
def State.hooprTouches (s : State) (off : Nat) (b : W64) : List Touch :=
  let h := s.here.hoop
  replay b h.state h.slots ((List.range 256).map fun k => bytesToNat (s.rowBytes s.hereId (off + 4 * k) 4))

/-- The accesses of one touched pixel of a tile at a generic address: its depth read, and both its words written. -/
def Touch.accesses (addr : W64) (rep : Nat) (t : Touch) : List (Nat × Need × List LaneAddr) :=
  let d : LaneAddr := (rep, addr + BitVec.ofNat 64 (4 * t.px))
  let p : LaneAddr := (rep, addr + BitVec.ofNat 64 (1024 + 4 * t.px))
  (4, Need.load, [d]) :: (if t.put.isSome then [(4, Need.store, [d]), (4, Need.store, [p])] else [])

/-- Performs the writes of a replay. -/
def replayWrites (off : Nat) (ts : List Touch) : M Unit := do
  for t in ts do
    match t.put with
    | some (z, prim) =>
      let here := (← get).hereId
      writePlace plainLoad (.row here (off + 4 * t.px) 4) (natToBytes 4 z)
      writePlace plainLoad (.row here (off + 1024 + 4 * t.px) 4) prim
    | none => pure ()

/-- A run of rows may be a tile of the claimant's sub-pass. -/
def Core.tileRows (c : Core) (tag first : Nat) : Bool :=
  (List.range 32).all fun j =>
    let t := c.tag (first + j)
    tagOwner t = tag && (tagClass t = 4 || (tagClass t = 6 && c.hoop.tiles.any fun r => r ≤ first + j && first + j < r + 32))

/-- The status of HOOPR on a tile at an offset (R384, R388). -/
def State.hooprStatus (s : State) (off : Nat) : Nat :=
  let h := s.here.hoop
  if !s.holdsHoop then 4
  else if h.slots.isEmpty then 0
  else if !s.here.tileRows s.me.team (off / 64) || (!h.tiles.contains (off / 64) && 16 ≤ h.tiles.length) then 5
  else 0

/-- What `Hoopr` asks of its issue. -/
def hooprReq (g : Guard) (d : Opnd) (a : Opnd) (b : Opnd) (s : State) : Req :=
  (rayReq g false (fun s => s.resDst d && s.addrOk a && s.addrZeroOk b)
    (wideSrcs s.me.isWave a ++ addrZeroSrcs s.me.isWave b) [d])

/-- The tile that HOOPR names, its status, and the pixels that it touches there: none where it answers a status. The
depth rows that it reads hold no poison. A tile that is none takes its aperture fault before a watchpoint could match, since
no pixel of it has a depth (DESIGN CHOICE: log 114). -/
def hooprAt (i : Iss) (a b : Opnd) : M (Nat × Nat × List Touch) := do
  let v ← blockVal i b
  needOperand (field v 32 4 = 0)
  let addr ← wval i a i.rep
  let off ← localRows addr 2048 64
  let s ← get
  if s.hooprStatus off ≠ 0 then return (off, s.hooprStatus off, [])
  let ts := s.hooprTouches off v
  watchAll (ts.flatMap (Touch.accesses addr i.rep))
  for y in (ts.map (·.px / 16)).dedup do rowCheck (off + 64 * y) 64
  return (off, 0, ts)

def hooprBody (d : Opnd) (a : Opnd) (b : Opnd) (i : Iss) : M Unit := do
  let (off, status, ts) ← hooprAt i a b
  let h := (← get).here.hoop
  if status ≠ 0 then putScalar i d (BitVec.ofNat 64 (status * 2 ^ 24))
  else if h.slots.isEmpty then putScalar i d 0
  else
    if !h.tiles.contains (off / 64) then
      modHere fun c => { (c.classRows (off / 64) 32 6) with hoop := { c.hoop with tiles := c.hoop.tiles ++ [off / 64] } }
    replayWrites off ts
    putScalar i d (BitVec.ofNat 64 ((ts.filter (·.put.isSome)).length % 65536))

def execHoopr (g : Guard) (d a b : Opnd) (s : State) : Host.Outcome State Fault Refusal :=
  runIssue (hooprReq g d a b s) (hooprBody d a b) s

/-- HOOP_URGENT: a pre-emption that has waited 65,536 cycles for the sub-pass becomes urgent (R386). -/
def execHoopUrgent (core : Nat) (s : State) : Host.Outcome State Fault Refusal :=
  (do
    let now ← now
    let h := (← getCore core).hoop
    match h.deferred, h.claimant with
    | some due, some tag =>
      if due ≤ now then
        laterOnce (.preemption core (BitVec.ofNat 16 tag) true)
    | _, _ => pure () : M Unit).toOutcome s

end Sys2Proof.Machine
end

