-- ==== Sys2Proof/Machine/Work.lean ====
section
/-! DEFINITION. Launch descriptors, the launch form of SPAWN, the Pleater, the start of teams and of threads
(15_work.md R394 to R406; 06_scratchpad.md R150; 12_mesh.md R336 to R338; 03_contexts.md R87). -/

namespace Sys2Proof.Machine

/-! Launch descriptors (R399). -/

/-- Word i of a descriptor. -/
def dW (w : List W64) (i : Nat) : W64 := w.getD i 0

def dRegion (w : List W64) : Nat := field (dW w 1) 8 44 * 256
def dLnum (w : List W64) : W32 := (dW w 2).extractLsb' 32 32
def dMerge (w : List W64) : Bool := (dW w 2).getLsbD 15
def dMaxm (w : List W64) : Nat := field (dW w 2) 8 6
def dTabrun (w : List W64) : Nat := field (dW w 2) 4 4
def dMode (w : List W64) : BitVec 14 := (dW w 3).setWidth 14
def dNokacc (w : List W64) : Bool := (dW w 5).getLsbD 32
def dNrun (w : List W64) : Nat := field (dW w 5) 27 5
def dShuttle (w : List W64) : Nat := field (dW w 5) 21 6
def dUniforms (w : List W64) : Nat := field (dW w 5) 11 10
def dWaves (w : List W64) : Nat := field (dW w 5) 5 6
def dThreads (w : List W64) : Nat := field (dW w 5) 0 5
def dDecl (w : List W64) : BitVec 6 := (dW w 6).extractLsb' 24 6
def dFmt (w : List W64) (b : Nat) : Nat := field (dW w 6) (4 * b) 4

/-- Word of run i. -/
def dRunWord (w : List W64) (i : Nat) : W32 := (dW w (8 + i / 2)).extractLsb' (32 * (i % 2)) 32

/-- Bank and count of each run. -/
def dRuns (w : List W64) : List (Nat × Nat) :=
  (List.range (dNrun w)).map fun i => (field (dRunWord w i) 11 3, field (dRunWord w i) 0 11)

def dSeg (w : List W64) (i : Nat) : BitVec 128 := dW w (17 + 2 * i) ++ dW w (16 + 2 * i)

/-- A segment value that R191 allows. -/
def segValueOk (g : BitVec 128) : Bool :=
  field g 64 2 = 0 && field g 57 2 = 0 && !(g.getLsbD 63 && 2 ^ 57 < segBase g + segLimit g)

/-- BADDESC. -/
def descBad (w : List W64) : Bool :=
  field (dW w 0) 57 7 ≠ 0 || field (dW w 0) 0 3 ≠ 0 ||
  field (dW w 1) 52 12 ≠ 0 || field (dW w 1) 0 8 ≠ 0 || dRegion w = 0 ||
  field (dW w 2) 16 16 ≠ 0 || field (dW w 2) 0 4 ≠ 0 || (!dMerge w && (dMaxm w ≠ 0 || dTabrun w ≠ 0)) ||
  field (dW w 3) 14 50 ≠ 0 || field (dW w 3) 0 8 ≠ 0 || (dW w 3).getLsbD 11 || !rmLegal (field (dW w 3) 8 3) ||
  field (dW w 4) 0 3 ≠ 0 ||
  field (dW w 5) 33 31 ≠ 0 || 16 < dNrun w || 32 < dShuttle w || 512 < dUniforms w || 32 < dWaves w || 16 < dThreads w ||
  dThreads w + dWaves w = 0 ||
  field (dW w 6) 30 34 ≠ 0 || ((List.range 6).any fun b => 8 ≤ dFmt w b || (!(dDecl w).getLsbD b && dFmt w b ≠ 0)) ||
  dW w 7 ≠ 0 ||
  ((List.range 16).any fun i =>
    let r := dRunWord w i
    if i < dNrun w then field r 14 18 ≠ 0 || 5 < field r 11 3 || field r 0 11 = 0 else r ≠ 0) ||
  ((List.range 8).any fun i => !segValueOk (dSeg w i)) ||
  (dMerge w &&
    (dUniforms w = 0 || dNrun w ≤ dTabrun w ||
     (dRuns w |>.getD (dTabrun w) (0, 0)).2 < ((dMaxm w + 1) * 16 + 63) / 64))

/-! Allotment of rows (06_scratchpad.md R150). -/

/-- The free rows of the pool as bits of a number. -/
def poolMask : Nat := 2 ^ 1536 - 2 ^ 128

def Core.freeMask (c : Core) : Nat :=
  c.tags.foldl (fun m x => if 128 ≤ x.1 && x.1 < 1536 && tagClass x.2 ≠ 0 && m.testBit x.1 then m - 2 ^ x.1 else m) poolMask

/-- The rows from `r` on are free. -/
def runFree (m r n : Nat) : Bool := m / 2 ^ r % 2 ^ n = 2 ^ n - 1

def takeRun (m r n : Nat) : Nat := m - (2 ^ n - 1) * 2 ^ r

/-- The lowest free run within [lo, hi). -/
def lowRun (m lo hi n : Nat) : Option Nat :=
  (List.range (hi + 1 - (lo + n))).findSome? fun j => if runFree m (lo + j) n then some (lo + j) else none

/-- The highest free run of the pool. -/
def highRun (m n : Nat) : Option Nat :=
  (List.range (1409 - n)).findSome? fun j => if runFree m (1536 - n - j) n then some (1536 - n - j) else none

/-- Team rows, one run for each declaration. -/
def allotRuns : Nat → List (Nat × Nat) → Option (Nat × List (Nat × Nat))
  | m, [] => some (m, [])
  | m, (bank, n) :: rest =>
    match lowRun m (256 * bank) (256 * bank + 256) n with
    | none => none
    | some r => (allotRuns (takeRun m r n) rest).map fun x => (x.1, (r, n) :: x.2)

/-- Wave frames. -/
def allotFrames : Nat → Nat → Option (List Nat)
  | _, 0 => some []
  | m, k + 1 =>
    match highRun m 44 with
    | none => none
    | some r => (allotFrames (takeRun m r 44) k).map (r :: ·)

/-- What R150 allots: runs, the first accumulator row, and the first row of each frame. -/
structure Allotment where
  runs : List (Nat × Nat)
  acc : Option Nat
  frames : List Nat
  deriving DecidableEq, Repr

def allot (m : Nat) (runs : List (Nat × Nat)) (nokacc : Bool) (waves : Nat) : Option Allotment :=
  match allotRuns m runs with
  | none => none
  | some (m1, rs) =>
    if nokacc then (allotFrames m1 waves).map fun f => { runs := rs, acc := none, frames := f }
    else match lowRun m1 128 1536 5 with
      | none => none
      | some a => (allotFrames (takeRun m1 a 5) waves).map fun f => { runs := rs, acc := some a, frames := f }

/-- SHAPE: R150 fails on an empty pool. -/
def descTooLarge (w : List W64) : Bool := (allot poolMask (dRuns w) (dNokacc w) (dWaves w)).isNone

/-! Events of dropped records (R405, R416). -/

/-- Adds one to a 32-bit half of an RCB word. -/
def bumpRcb (rcb i : Nat) (high : Bool) : M Unit := do
  let v ← rcbWord rcb i
  putRcbWord rcb i (if high then v % 2 ^ 32 + (v / 2 ^ 32 + 1) % 2 ^ 32 * 2 ^ 32 else v / 2 ^ 32 * 2 ^ 32 + (v % 2 ^ 32 + 1) % 2 ^ 32)

/-- A record is dropped with a status: counted and posted to the target region's domain. -/
def dropRecord (core rcb status : Nat) (lnum : W32) : M Unit := do
  bumpRcb rcb 16 false
  let s ← get
  postEvent (s.domainOf rcb) 3 core 0 (BitVec.ofNat 64 (status * 2 ^ 32 + lnum.toNat))

/-! The launch form of SPAWN (R402 to R404). -/

/-- Depth of the turn's team. -/
def State.myDepth (s : State) : Nat :=
  match s.myTeam with
  | some t => t.depth
  | none => 0

/-- The status of a launch on one lane (R403). -/
def State.launchStatus (s : State) (w : List W64) (w19 : Nat) (target : Option GlobalId) : Nat :=
  if descBad w then 1
  else if target.isNone then 2
  else if descTooLarge w then 3
  else if w19 % 4 ≠ 1 then 4
  else if w19 / 2 ^ 12 % 16 ≤ s.myDepth then 5
  else 0

/-- A target operand: x, uniform, small immediate, or a v register of a wave (R402). -/
def State.launchTargetOk (s : State) (o : Opnd) : Bool :=
  match opOf o with
  | .prim _ | .k _ | .imm _ => s.laneSrcOk o
  | _ => false

/-- An argument operand: one that a target may be, or `zero`. -/
def State.launchArgOk (s : State) (o : Opnd) : Bool := s.launchTargetOk o || (decide (opOf o = .zero) && s.laneSrcOk o)

/-- The descriptor of a launch: its physical address, its words, and word 19 of its region's RCB. -/
def launchDesc (a : Opnd) (i : Iss) : M (Nat × List W64 × Nat) := do
  landUniform
  let addr ← wval i a i.rep
  watchCheck 256 .load [(i.rep, addr)]
  let va ← segRead addr 256 64
  let ps ← confirmRange va 256
  machineCheck plainLoad [(i.rep, addr)] [(i.rep, ps.map fun p => .phys p.1 p.2.1 p.2.2)]
  let mut bs : List Byte := []
  for p in ps do
    bs := bs ++ (← readPlace plainLoad (.phys p.1 p.2.1 p.2.2))
  let w := (List.range 32).map fun j => (BitVec.ofNat 64 (bytesAt bs (8 * j) 8) : W64)
  return ((ps.headD (0, 0, 0)).1, w, ← readPhys (dRegion w + 152) 8)

/-- What `SpawnLaunch` asks of its issue. -/
def spawnLaunchReq (g : Guard) (d : Opnd) (a : Opnd) (b : Opnd) (c : Opnd) (s : State) : Req :=
  { guard := g, form := State.unified,
    ok := fun s => s.predOk d && s.addrOk a && s.launchTargetOk b && s.launchArgOk c,
    srcs := wideSrcs s.me.isWave a ++ [b, c], dsts := [d], vec := true }

def spawnLaunchBody (d : Opnd) (a : Opnd) (b : Opnd) (c : Opnd) (i : Iss) : M Unit := do
  let (pa, w, w19) ← launchDesc a i
  let wide (s : State) (o : Opnd) (l : Nat) : W64 :=
    if s.me.isWave then ext32 false ((s.val i false o l).setWidth 32) else s.val i false o l
  let mut sent : BitVec 16 := 0
  let s0 ← get
  (lanesOf i.lanes).forM fun l =>
    match s0.target (wide s0 b l) with
    | some dst => if s0.launchStatus w w19 (some dst) = 0 then needChannel 6 dst else pure ()
    | none => pure ()
  for l in lanesOf i.lanes do
    let s ← get
    let to_ := s.target (wide s b l)
    match s.launchStatus w w19 to_, to_ with
    | 0, some dst =>
      sent := sent ||| laneBit l
      countEvent 0x16
      sendTask s.hereId dst
        { entry := BitVec.ofNat 64 pa, arg0 := wide s c l,
          arg1 := BitVec.ofNat 64 (s.myDepth + 1 + 16 * s.me.team), sender := s.globalId s.hereId,
          launch := dLnum w, kind := 3 }
      modMyTeam fun t => { t with children := t.children + 1 }
    | 5, _ => bumpRcb (dRegion w) 16 true
    | _, _ => pure ()
  applyAll (maskWrites i d sent)

def execSpawnLaunch (g : Guard) (d a b c : Opnd) (s : State) : Host.Outcome State Fault Refusal :=
  runIssue (spawnLaunchReq g d a b c s) (spawnLaunchBody d a b c) s

/-! Budgets (R394, R395). -/

/-- What a team is charged for TSLOT, WFRAME, ROWS, UNIF, SHUT and MEM. -/
def chargeOf (t w rows : Nat) (nokacc : Bool) (n s : Nat) : List Nat :=
  [t, w, rows + (if nokacc then 0 else 5) + 44 * w, n, s, 0]

def descCharge (w : List W64) : List Nat :=
  chargeOf (dThreads w) (dWaves w) ((dRuns w).foldl (fun v r => v + r.2) 0) (dNokacc w) (dUniforms w) (dShuttle w)

def Team.charge (t : Team) : List Nat :=
  chargeOf t.threads t.waves (t.runs.foldl (fun v r => v + r.2) 0) t.nokacc t.uniforms t.shuttle

/-- USED and LIMIT of budget i of a region. -/
def State.budget (s : State) (rcb i : Nat) : Nat × Nat := (s.rcbField rcb (10 + i) 32 32, s.rcbField rcb (10 + i) 0 32)

/-- A charge exceeds some limit outright. -/
def State.chargeExcluded (s : State) (rcb : Nat) (ch : List Nat) : Bool :=
  (s.ancestors rcb).any fun r => (List.range ch.length).any fun i =>
    let b := s.budget r i
    b.2 ≠ 0xFFFFFFFF && b.2 < ch.getD i 0

/-- A charge fits every region of the chain now. -/
def State.chargeFits (s : State) (rcb : Nat) (ch : List Nat) : Bool :=
  (s.ancestors rcb).all fun r => (List.range ch.length).all fun i =>
    let b := s.budget r i
    b.2 = 0xFFFFFFFF || b.1 + ch.getD i 0 ≤ b.2

/-- Adds to, or takes from, USED of budget i on a chain. -/
def addUsed (rcb i : Nat) (n : Int) : M Unit := do
  for r in (← get).ancestors rcb do
    let v ← rcbWord r (10 + i)
    putRcbWord r (10 + i) (v % 2 ^ 32 + ((v / 2 ^ 32 : Nat) + n).toNat % 2 ^ 32 * 2 ^ 32)

def makeCharge (rcb : Nat) (ch : List Nat) (credit : Bool) : M Unit := do
  for i in List.range ch.length do
    addUsed rcb i (if credit then -(ch.getD i 0 : Int) else (ch.getD i 0 : Int))

/-! Regions. -/

/-- STATE of a region: 0 closed, 1 open, 2 closing, 3 held. -/
def State.regionState (s : State) (rcb : Nat) : Nat := s.rcbField rcb 19 0 2

/-- Effective priority (R396). -/
def State.ep (s : State) (rcb : Nat) : Nat := s.rcbField rcb 19 4 4

def putRcbField (rcb i lo len v : Nat) : M Unit := do
  let w ← rcbWord rcb i
  putRcbWord rcb i (w - w / 2 ^ lo % 2 ^ len * 2 ^ lo + v % 2 ^ len * 2 ^ lo)

/-- A region, or an ancestor of it, is held by PREEMPT (R393, R405, R413). -/
def State.regionHeld (s : State) (rcb : Nat) : Bool := (s.ancestors rcb).any fun r => s.regionState r = 3

/-- The region of the team with a tag on a core, resident or pre-empted. -/
def State.teamRegion (s : State) (core : GlobalId) (tag : Nat) : Option Nat :=
  match s.localCore core with
  | none => none
  | some k =>
    let c := s.core k
    match c.team tag, c.preempted.find? (·.team.tag = tag), c.leaving.find? (·.tag = tag) with
    | some t, _, _ => some t.rcb
    | none, some p, _ => some p.team.rcb
    | none, none, some t => some t.rcb
    | none, none, none => none

/-- Whether work for a region is waiting or resident anywhere in the module. -/
def State.regionBusy (s : State) (rcb : Nat) : Bool :=
  s.knownCores.any fun k =>
    let c := s.core k
    (c.teams.any (·.rcb = rcb)) || (c.preempted.any (·.team.rcb = rcb)) || (c.leaving.any (·.rcb = rcb)) ||
    (c.placements.any (·.rcb = rcb)) ||
    (c.taskq.any fun r => r.kind = 3 && s.rcbField r.entry.toNat 1 8 44 * 256 = rcb)

/-- A team of a region or of a descendant of it is in the module. -/
def State.teamsUnder (s : State) (rcb : Nat) : Bool :=
  s.knownCores.any fun k =>
    let c := s.core k
    (c.teams.any (s.under ·.rcb rcb)) || (c.preempted.any (s.under ·.team.rcb rcb)) || (c.leaving.any (s.under ·.rcb rcb))

/-- A closing region is closed when nothing of it, and no team of a descendant, is left (R393). -/
def settleClosing : M Unit := do
  for r in (← get).sys.regions do
    let s ← get
    if s.regionState r = 2 && !s.regionBusy r && !s.teamsUnder r then
      putRcbField r 19 0 2 0
      modSys fun y => { y with regions := y.regions.filter (· ≠ r) }

/-! The start of contexts (R87, R338, R401). -/

/-- A barrel thread at its start. -/
def threadCtx (tag : Nat) (sup : Bool) (entry : W64) (xs : List (Nat × W64)) (g : Store (BitVec 128)) (mode : BitVec 32) :
    Ctx :=
  { Ctx.blank with
      present := true, team := tag, sup := sup, g := g, mode := mode,
      slots := ({ PcSlot.reset with live := true, mask := 1, pc := mkPc entry 0 }, .reset),
      x := xs.foldl (fun m p => Store.set 0 m p.1 p.2) [] }

/-- A wave at its start. -/
def waveCtx (tag : Nat) (entry : W64) (g : Store (BitVec 128)) (mode : BitVec 32) (place : Place) : Ctx :=
  { Ctx.blank with
      present := true, kind := .wave, place := place, team := tag, g := g, mode := mode,
      slots := ({ PcSlot.reset with live := true, mask := 0xFFFF, pc := mkPc entry 0 }, .reset) }

/-- A context put on a core. -/
def putCtx (id : CtxId) (c : Ctx) : M Unit := modCtx id fun _ => c

/-- The context of a seat. -/
def Core.ctx (c : Core) (q : Seat) : Ctx := Store.get .blank c.ctxs (seatIndex q)

/-- Barrel slots that no team holds and no thread fills. -/
def Core.freeSlots (c : Core) : List Nat :=
  (List.range 16).filter fun n => !(c.teams.any fun t => t.slots.contains n) && !(c.ctx (.slot n)).present

/-- Wave frames in active positions. -/
def Core.activeWaves (c : Core) : Nat :=
  (c.ctxs.filter fun x => x.2.present && x.2.kind = .wave && x.2.place = .active).length

/-! Records leave the task queue (R336, R87, R338, R405). -/

/-- A record of a launch has an issuer whose region is neither the target region nor an ancestor of it. -/
def State.recBad (s : State) (rcb : Nat) (r : Rec) : Bool := r.issuer.any fun i => !(s.ancestors rcb).contains i

/-- The status with which a record of a launch is dropped at the Pleater; 0 where it goes on (R405). -/
def State.pleaterStatus (s : State) (rcb : Nat) (words : List W64) (r : Rec) : Nat :=
  let st := s.regionState rcb
  if st ≠ 1 && st ≠ 3 then 4
  else if s.recBad rcb r then 6
  else if s.chargeExcluded rcb (descCharge words) then 7
  else 0

/-- A launch record enters the placement queue; false while it must wait (R405, R406). -/
def enterPleater (core : Nat) (r : TaskRec) : M Bool := do
  let c ← getCore core
  if 16 ≤ c.placements.length then return false
  let bs ← readPhysBytes r.entry.toNat 256
  let w := (List.range 32).map fun j => (BitVec.ofNat 64 (bytesAt bs (8 * j) 8) : W64)
  let s ← get
  let tag : BitVec 16 := r.arg1.extractLsb' 4 16
  let rec_ : Rec :=
    { arg := r.arg0, sender := r.sender, tag := tag, depth := field r.arg1 0 4,
      issuer := if tag = 0 then none else s.teamRegion r.sender tag.toNat }
  let rcb := dRegion w
  let st := s.pleaterStatus rcb w rec_
  if st ≠ 0 then
    dropRecord core rcb st r.launch
    settleClosing
  else
    -- the oldest entry of the same descriptor, where it has room (R406)
    let oldest := if dMerge w then c.placements.findIdx? fun p => p.desc = r.entry.toNat else none
    let room := oldest.filter fun j => (c.placements[j]?).any fun p => p.recs.length < dMaxm w + 1
    match room with
    | some j =>
      modCore core fun c =>
        { c with placements := c.placements.mapIdx fun i p => if i = j then { p with recs := p.recs ++ [rec_] } else p }
    | none =>
      modCore core fun c =>
        { c with placements := c.placements ++ [{ desc := r.entry.toNat, words := w, recs := [rec_], rcb := rcb }] }
    laterOnce (.placement core)
  return true

/-- The start of a thread or of a team is the acquire that matches its record's release (R86, R404; 09_sharing.md R245). -/
def startAcquire (core : Nat) : M Unit := modCore core fun c => { c with lsCache := [] }

/-- A SPAWN or CALL record starts a thread; false while its team has no free slot. A record for no team of the core is a
late arrival. -/
def startThread (core : Nat) (r : TaskRec) : M Bool := do
  let c ← getCore core
  match c.teams.find? (·.lnum = r.launch) with
  | none =>
    if c.preempted.any (·.team.lnum = r.launch) then return false
    lateArrival core
    return true
  | some t =>
    if t.exiting then
      lateArrival core
      return true
    if !t.started || t.held then return false
    match t.slots.find? fun n => !(c.ctx (.slot n)).present with
    | none => return false
    | some n =>
      let xs : List (Nat × W64) := [(1, r.arg0), (2, r.sender.setWidth 64)] ++ (if r.kind = 1 then [(3, r.arg1)] else [])
      putCtx ⟨core, .slot n⟩ (threadCtx t.tag false r.entry xs t.segs (t.mode0.setWidth 32))
      if r.sender ≠ (← get).globalId core then startAcquire core
      return true

/-- An active message starts a supervisor thread; false while no slot is free. -/
def startMessage (core : Nat) (r : TaskRec) : M Bool := do
  match (← getCore core).freeSlots.getLast? with
  | none => return false
  | some n =>
    putCtx ⟨core, .slot n⟩ (threadCtx 0 true r.entry [(1, r.arg0), (2, r.arg1), (3, r.sender.setWidth 64)] [] 0x100)
    startAcquire core
    return true

/-- An earlier record, still waiting, holds a record back. -/
def heldBack (q : List TaskRec) (r : TaskRec) : Bool :=
  let team (k : Byte) : Bool := k = 0 || k = 1
  q.any fun p => if team r.kind then team p.kind && p.launch = r.launch else p.kind = r.kind

/-- The records beyond the first 32 in the task spill rows, one to a row (R336). -/
def Core.spilled (c : Core) : Core :=
  { c with rows := ((c.taskq.drop 32).zipIdx).foldl (fun m x => Store.putBytes m (64 * (112 + x.2)) (taskBytes x.1)) c.rows }

/-- Dispatches a core's task queue. -/
def dispatchTasks (core : Nat) : M Unit := do
  let q := (← getCore core).taskq
  modCore core fun c => { c with taskq := [] }
  for r in q do
    let gone ←
      if heldBack (← getCore core).taskq r then pure false
      else if r.kind = 0 || r.kind = 1 then startThread core r
      else if r.kind = 2 then startMessage core r
      else enterPleater core r
    if !gone then modCore core fun c => { c with taskq := c.taskq ++ [r] }
  if 32 < (← getCore core).taskq.length then modCore core Core.spilled
  if (← getCore core).taskq.length < q.length then wakeParked core

/-! Placement (R405). -/

/-- The next tag of a core (R156). -/
def Core.nextTag (c : Core) : Nat :=
  let used (n : Nat) : Bool :=
    n = 0 || 0xFFF0 ≤ n || c.teams.any (·.tag = n) || c.preempted.any (·.team.tag = n)
  let all := (List.range (20 + c.teams.length + c.preempted.length)).map fun j => (c.tids + j) % 65536
  (all.find? fun n => !used n).getD 1

/-- A free uniform half (04_registers.md R90). -/
def Core.freeHalf (c : Core) : Nat := if c.teams.any (·.half = 0) then 1 else 0

/-- Bank formats allow a team (06_scratchpad.md R167). -/
def Core.formatsFit (c : Core) (decl : BitVec 6) (fmts : BitVec 24) : Bool :=
  (List.range 6).all fun b =>
    let r : W64 := Store.get 0 c.bfmt b
    !decl.getLsbD b || field r 4 2 = 0 || field r 0 4 = field fmts (4 * b) 4

/-- Writes the formats of a team's banks and counts it in HOLD. -/
def Core.holdFormats (c : Core) (decl : BitVec 6) (fmts : BitVec 24) : Core :=
  let put (m : Store W64) (b : Nat) : Store W64 :=
    if decl.getLsbD b then
      Store.set 0 m b (BitVec.ofNat 64 (16 * (field (Store.get 0 m b) 4 2 + 1) + field fmts (4 * b) 4))
    else m
  { c with bfmt := (List.range 6).foldl put c.bfmt }

/-- A team's exit or pre-emption leaves HOLD. -/
def Core.dropFormats (c : Core) (decl : BitVec 6) : Core :=
  let put (m : Store W64) (b : Nat) : Store W64 :=
    if decl.getLsbD b then Store.set 0 m b (Store.get 0 m b - 16) else m
  { c with bfmt := (List.range 6).foldl put c.bfmt }

/-- Resources but for rows and formats that T threads, W waves and S entries need (R54, R264). -/
def Core.seatsFit (c : Core) (t w s : Nat) : Bool :=
  c.teams.length < 2 && t ≤ c.freeSlots.length && (c.teams.foldl (fun n u => n + u.frames.length) 0) + w ≤ 32 &&
  (c.teams.foldl (fun n u => n + u.shuttle) 0) + s ≤ 32

/-- Wave-frame numbers that no team holds. -/
def Core.freeFrames (c : Core) : List Nat :=
  (List.range 32).filter fun n => !(c.teams.any fun t => t.frames.any (·.1 = n))

/-- Bytes of the indirection table of a merged entry (R406). -/
def mergeTable (recs : List Rec) : List Byte :=
  recs.flatMap fun r =>
    natToBytes 8 r.arg.toNat ++ natToBytes 4 r.sender.toNat ++ natToBytes 2 r.tag.toNat ++ natToBytes 1 r.depth ++ [0]

/-- Clears what belongs to a uniform half: its registers, its shadow and descriptor registers and their latches (R90,
R267, R296). -/
def Core.clearHalf (c : Core) (h : Nat) : Core :=
  let rng {α : Type} (lo n : Nat) (m : Store α) : Store α := m.filter fun x => !(lo ≤ x.1 && x.1 < lo + n)
  { c with uni := rng (512 * h) 512 c.uni, uniDue := c.uniDue.filter fun w => w.reg / 512 ≠ h, sh := rng (64 * h) 64 c.sh, shCause := rng (8 * h) 8 c.shCause,
           md := rng (32 * h) 32 c.md, mdCause := rng (4 * h) 4 c.mdCause }

/-- Places an entry with its rows: the team, charged and counted; its contexts start at TEAM_START. -/
def placeTeam (core : Nat) (p : Placement) (al : Allotment) : M Unit := do
  let w := p.words
  let c ← getCore core
  let tag := c.nextTag
  let half := c.freeHalf
  let frames := c.freeFrames.zip al.frames
  let t : Team :=
    { tag := tag, lnum := dLnum w, rcb := p.rcb, threads := dThreads w, waves := dWaves w, uniforms := dUniforms w,
      shuttle := dShuttle w, nokacc := dNokacc w, half := half, slots := c.freeSlots.take (dThreads w), runs := al.runs,
      accRow := al.acc, frames := frames, entry := dW w 0, desc := p.desc, mode0 := dMode w,
      segs := (List.range 8).foldl (fun m i => Store.set 0 m i (dSeg w i)) [], done := dW w 4,
      waitch := (dW w 2).getLsbD 14, records := p.recs, depth := p.recs.foldl (fun n r => max n r.depth) 0, children := 0,
      acc := [], inq := [], ring := none, bins := [], routes := [], decl := dDecl w, fmts := (dW w 6).setWidth 24,
      merge := dMerge w, started := false, exiting := false, held := false, returning := none, batches := [] }
  modCore core fun c =>
    let c1 := al.runs.foldl (fun c r => c.clearRows 4 tag r.1 r.2) c
    let c2 := match al.acc with
      | some a => c1.clearRows 7 tag a 5
      | none => c1
    let c3 := al.frames.foldl (fun c r => c.clearRows 3 0xFFF2 r 44) c2
    let c4 := (c3.clearHalf half).holdFormats (dDecl w) ((dW w 6).setWidth 24)
    { c4 with teams := c4.teams ++ [t], tids := (tag + 1) % 65536, placements := c4.placements.erase p }
  if dMerge w then
    let first := (al.runs.getD (dTabrun w) (0, 0)).1
    modCore core fun c => { c with rows := Store.putBytes c.rows (64 * first) (mergeTable p.recs) }
  makeCharge p.rcb (descCharge w) false
  let n ← rcbWord p.rcb 18
  putRcbWord p.rcb 18 (n + 1)
  markRecord core (dLnum w) 12 (· + 1)
  laterOnce (.teamStart core (BitVec.ofNat 16 tag))

/-- TEAM_START: every context of a placed team starts in the same cycle (R401). -/
def execTeamStart (core : Nat) (tag : BitVec 16) (s : State) : Host.Outcome State Fault Refusal :=
  (do
    match (← getCore core).team tag.toNat with
    | none => pure ()
    | some t =>
      if !t.started && !t.exiting then
        let r := t.records.headD { arg := 0, sender := 0, tag := 0, depth := 0, issuer := none }
        let arg : W64 := if t.merge then BitVec.ofNat 64 t.records.length else r.arg
        if 1 ≤ t.uniforms then
          modCore core fun c => { c with uni := Store.set 0 c.uni (512 * t.half) (arg.setWidth 32) }
        if 2 ≤ t.uniforms && !t.merge then
          modCore core fun c => { c with uni := Store.set 0 c.uni (512 * t.half + 1) (arg.extractLsb' 32 32) }
        modTeam core t.tag fun t => { t with started := true }
        for i in List.range t.slots.length do
          putCtx ⟨core, .slot (t.slots.getD i 0)⟩
            (threadCtx t.tag false t.entry [(1, arg), (2, BitVec.ofNat 64 i), (3, r.sender.setWidth 64)] t.segs
              (t.mode0.setWidth 32))
        startAcquire core
        for f in t.frames do
          let k ← getCore core
          -- waves that are ready already go first (R68)
          let place := if k.activeWaves < 8 && k.readyq.isEmpty then Place.active else .ready
          if place = .ready then modCore core fun c => { c with readyq := c.readyq ++ [(s.clk.toNat, f.1)] }
          putCtx ⟨core, .frame f.1⟩ (waveCtx t.tag t.entry t.segs (t.mode0.setWidth 32) place)
          swapSync ⟨core, .frame f.1⟩
        dispatchTasks core : M Unit).toOutcome s

end Sys2Proof.Machine
end

