-- ==== Sys2Proof/Machine/Teams.lean ====
section
/-! DEFINITION. The placement scan, exit and its signals, the arrival of task records, pre-emption and resumption
(15_work.md R404 to R414; 10_shuttle.md R282; 11_matrix.md R310; 16_traps.md R435). -/

namespace Sys2Proof.Machine

/-! The host message ring (19_system.md R470). -/

/-- The mask bit of a vector's entry in the MSI-X table (PRESUMED: log 117). -/
def System.masked (y : System) (n : Nat) : Bool := (Store.get 0 y.msixTable (16 * n + 12)).getLsbD 0

/-- A vector is raised; it is pending while its entry masks it. -/
def System.vector (y : System) (n : Nat) : System :=
  { y with msix := n :: y.msix, msixPend := if y.masked n then y.msixPend ||| BitVec.ofNat 8 (2 ^ n) else y.msixPend }

/-- Raises an MSI-X vector of the host link. -/
def raiseVector (n : Nat) : M Unit := modSys (·.vector n)

/-- A record for the host enters the ring, in arrival order, or waits while the ring is full (R470). -/
def hostArrive (r : TaskRec) : M Unit := do
  let y := (← get).sys
  if y.ring.length < 64 && y.hostWait.isEmpty then
    modSys fun y => { y with ring := y.ring ++ [r] }
    raiseVector 1
  else modSys fun y => { y with hostWait := y.hostWait ++ [r] }

/-! Child completions and task records at their core (R409; 12_mesh.md R336). -/

/-- A child of a team has completed. -/
def childDone (core tag : Nat) : M Unit := do
  modTeam core tag fun t => { t with children := t.children - 1 }
  match (← getCore core).team tag with
  | some t => if t.exiting then laterOnce (.exit core (BitVec.ofNat 16 tag))
  | none => pure ()

/-- Where a task record's team stands. -/
def State.taskBound (s : State) (core : Nat) (r : TaskRec) (c : Core) : Bound :=
  if s.sys.retired.contains core then .nowhere
  else if r.kind = 0 || r.kind = 1 then c.boundLaunch r.launch
  else if r.kind = 2 || r.kind = 3 then .team 0
  else if r.kind = 4 then c.boundTag (field r.arg0 0 16)
  else .nowhere

/-- TASK: a record enters the task queue of 48 places, or is performed on arrival (R336, R409). -/
def execTask (h : Hdr) (r : TaskRec) (s : State) : Host.Outcome State Fault Refusal :=
  (do
    if h.dst = hostId then
      if ← hostAccept h (.task h r) then hostArrive r
    else
      let s ← get
      deliver h (.task r) (.task h r) (s.taskBound ((s.localCore h.dst).getD 0) r) fun core tag => do
        if r.kind = 4 then
          childDone core tag
          return true
        if 48 ≤ (← getCore core).taskq.length then return false
        modCore core fun c => { c with taskq := c.taskq ++ [r] }
        dispatchTasks core
        return true : M Unit).toOutcome s

/-- CHILD_COMPLETION: a child-completion record reaches the core of its parent (R409). -/
def execChildCompletion (core : Nat) (tag : BitVec 16) (s : State) : Host.Outcome State Fault Refusal :=
  (do
    let gid := (← get).globalId core
    let r : TaskRec := { entry := 0, arg0 := tag.setWidth 64, arg1 := 0, sender := gid, launch := 0, kind := 4 }
    let h : Hdr := { src := gid, dst := gid, seq := 0, good := true, reinj := false }
    match (← getCore core).boundTag tag.toNat with
    | .team t => childDone core t
    | .nowhere => lateArrival core
    | .away => parkFlit core h (.task r) (.task h r) : M Unit).toOutcome s

/-! The placement scan (R405, R411). -/

/-- What a scan may place. -/
inductive Cand where
  | resume (p : Preempted)
  | entry (p : Placement)
  deriving DecidableEq, Repr

/-- Order of a scan: descending EP, resumptions before new teams; then age, by place in the list. -/
def State.candKey (s : State) : Cand → Nat
  | .resume p => 2 * (15 - s.ep p.team.rcb)
  | .entry p => 2 * (15 - s.ep p.rcb) + 1

/-- Puts a candidate after its equals. -/
def insertCand (key : Cand → Nat) (l : List Cand) (c : Cand) : List Cand :=
  (l.takeWhile fun x => key x ≤ key c) ++ c :: l.dropWhile fun x => key x ≤ key c

def State.candidates (s : State) (core : Nat) : List Cand :=
  let c := s.core core
  let all := (c.preempted.filter fun p => !s.regionHeld p.team.rcb).map Cand.resume ++
    (c.placements.filter fun p => !s.regionHeld p.rcb).map Cand.entry
  all.foldl (insertCand s.candKey) []

/-- A pre-empted team can come back to its core now (R413). -/
def Core.canReturn (c : Core) (p : Preempted) : Bool :=
  c.seatsFit p.team.threads p.team.frames.length p.team.shuttle && c.formatsFit p.team.decl p.team.fmts &&
  (let m := c.freeMask; p.team.allRuns.all fun r => runFree m r.1 r.2) &&
  p.transfers.all fun x => match Store.get none c.shuttle x.1 with
    | some e => e.state = .free || e.state = .done
    | none => true

/-- The other half of a pair that was pre-empted as one. -/
def State.partnerOf (s : State) (core : Nat) (p : Preempted) : Option Preempted :=
  p.partner.bind fun tag => (s.core (buddy core)).preempted.find? (·.team.tag = tag)

def State.canReturn (s : State) (core : Nat) (p : Preempted) : Bool :=
  !s.sys.retired.contains core && (s.core core).canReturn p && match s.partnerOf core p with
    | some q => !s.sys.retired.contains (buddy core) && (s.core (buddy core)).canReturn q && !s.regionHeld q.team.rcb
    | none => true

/-- Chooses a team to pre-empt for the head of a scan that found no room (R411): the lowest EP, and among equals the
most recently placed. -/
def askPreempt (core rcb : Nat) : M Unit := do
  let s ← get
  let c := s.core core
  if c.teams.any fun t => t.held then return ()
  let may := c.teams.filter fun t => s.rcbField t.rcb 1 58 1 = 1 && s.ep t.rcb < s.ep rcb && t.started && !t.exiting
  let best := may.foldl (fun (b : Option Team) t => match b with
    | none => some t
    | some u => if s.ep u.rcb < s.ep t.rcb then some u else some t) none
  match best with
  | some t => laterOnce (.preemption core (BitVec.ofNat 16 t.tag) false)
  | none => pure ()

/-- Drops the records of an entry that a scan finds unfit, each with its status, and the entry with its last record: the
records left (R405). -/
def keepRecords (core : Nat) (p : Placement) : M (List Rec) := do
  let s ← get
  let good := p.recs.filter fun r => s.pleaterStatus p.rcb p.words r = 0
  for r in p.recs do
    let st := s.pleaterStatus p.rcb p.words r
    if st ≠ 0 then dropRecord core p.rcb st (dLnum p.words)
  modCore core fun c =>
    { c with placements := if good.isEmpty then c.placements.erase p
                           else c.placements.map fun q => if q = p then { p with recs := good } else q }
  return good

/-- Tries one candidate after another: the first that fits is placed. -/
def scan (core : Nat) : List Cand → M Unit
  | [] => pure ()
  | .resume p :: _ => do
    if (← get).canReturn core p then laterOnce (.resumption core (BitVec.ofNat 16 p.team.tag))
    else askPreempt core p.team.rcb
  | .entry p0 :: rest => do
    let good ← keepRecords core p0
    let p : Placement := { p0 with recs := good }
    let s ← get
    let c := s.core core
    if good.isEmpty then
      settleClosing
      dispatchTasks core
      scan core rest
    else if c.teams.any (·.lnum = dLnum p.words) || !s.chargeFits p.rcb (descCharge p.words) then scan core rest
    else
      let fits := c.seatsFit (dThreads p.words) (dWaves p.words) (dShuttle p.words) &&
        c.formatsFit (dDecl p.words) ((dW p.words 6).setWidth 24)
      match (if fits then allot c.freeMask (dRuns p.words) (dNokacc p.words) (dWaves p.words) else none) with
      | some al =>
        placeTeam core p al
        dispatchTasks core
        laterOnce (.placement core)
      | none => askPreempt core p.rcb

/-- PLACEMENT: records leave the task queue, and the placement queue is scanned once. -/
def execPlacement (core : Nat) (s : State) : Host.Outcome State Fault Refusal :=
  (do
    dispatchTasks core
    let s ← get
    if !s.sys.retired.contains core then scan core (s.candidates core) : M Unit).toOutcome s

/-! Exit (R408, R409). -/

/-- A send of a team of a core that is still on its way. Of a flit that does not name the team that sent it, its core tells. -/
def Ev.fromTeam (gid : GlobalId) (t : Team) : Ev → Bool
  | .msg h n _ _ => h.src = gid && n = t.lnum
  | .qdata h n _ _ _ => h.src = gid && n = t.lnum
  | .key h n _ _ _ _ => h.src = gid && n = t.lnum
  | .task h r => h.src = gid && 
    ((r.kind.toNat ≤ 1 && r.launch = t.lnum) || r.kind = 2 || (r.kind = 3 && field r.arg1 4 16 = t.tag))
  | .ret h _ _ _ => h.src = gid
  | .ray h _ => h.src = gid
  | .hit h _ => h.src = gid
  | _ => false

/-- The work of an exiting team is done (R408 step 1). -/
def State.exitReady (s : State) (core : Nat) (t : Team) : Bool :=
  let c := s.core core
  let gid := s.globalId core
  !(s.pending.any (·.fromTeam gid t)) && !(s.timers.any (·.2.fromTeam gid t)) &&
  !(s.knownCores.any fun k => (s.core k).recov.any (·.ev.fromTeam gid t)) && !(s.sys.hostRecov.any (·.ev.fromTeam gid t)) &&
  !(c.shuttle.any fun x => match x.2 with
    | some e => e.team = t.tag && (e.state = .queued || e.state = .running)
    | none => false) &&
  !(decide (c.half.map (·.team) = some t.tag) && !(s.core (leaderOf core)).matQueue.isEmpty) &&
  (!t.waitch || t.children = 0)

/-- A parked flit that a team will not take. -/
def parkedFor (t : Team) (p : Parkable) : Bool :=
  match p with
  | .ray _ | .hit _ => false
  | .task r => if r.kind.toNat ≤ 1 then r.launch = t.lnum else r.kind = 4 && field r.arg0 0 16 = t.tag
  | .ret tok _ _ => field tok 20 16 = t.tag
  | .msg n _ _ => n = t.lnum
  | .qdata n _ _ _ => n = t.lnum
  | .key n _ _ _ _ => n = t.lnum

/-- The parked rays and hits of a team's claims. -/
def dropClaimed (core tag : Nat) : M Unit := do
  let c ← getCore core
  if c.rayClaim.any (·.team = tag) then dropParked core fun p => match p with | .ray _ => true | _ => false
  if c.hitClaim.any (·.team = tag) then dropParked core fun p => match p with | .hit _ => true | _ => false

/-- Ends the claims of a team on a core (R356, R381). -/
def endClaims (core tag : Nat) : M Unit := do
  dropClaimed core tag
  let c ← getCore core
  if c.rayClaim.any (·.team = tag) then endClaim core false
  if c.hitClaim.any (·.team = tag) then endClaim core true
  if c.hoop.claimant = some tag then endHoop core

/-- Records and flits that wait for a team that is going are late arrivals (R327). -/
def dropWaiting (core : Nat) (t : Team) : M Unit := do
  let gone := (← getCore core).taskq.filter fun r => r.kind.toNat ≤ 1 && r.launch = t.lnum
  if !gone.isEmpty then
    modCore core fun c => { c with taskq := c.taskq.filter fun r => !(r.kind.toNat ≤ 1 && r.launch = t.lnum) }
    lateArrival core gone.length
  dropParked core (parkedFor t)

/-- Frees what a team holds on its core: rows, half, entries, seats, HOLD. -/
def Core.release (c : Core) (t : Team) : Core :=
  let c1 := t.allRows.foldl (fun c r => c.putTag r (freeTag (c.tag r))) c
  (c1.clearHalf t.half |>.dropFormats t.decl) |> fun c => { c with teams := c.teams.filter (·.tag ≠ t.tag) }

/-- Steps 2 and 3 of an exit: release and credit. -/
def leave (core : Nat) (t : Team) : M Unit := do
  releaseTreelets core t.tag
  unprickTeam core t.tag
  endClaims core t.tag
  dropHalf core t.tag
  dropWaiting core t
  match (← getCore core).team t.tag with
  | none => pure ()
  | some t =>
    modCore core fun c =>
      let c1 := c.release t
      { c1 with leaving := c1.leaving ++ [t] }
    makeCharge t.rcb t.charge true

/-- Adds to the completion word; false while its page is awaited (R409). -/
def signalDone (core : Nat) (t : Team) : M Bool := do
  if t.done = 0 then return true
  let dom := (← get).domainOf t.rcb
  let fail : M Bool := do
    postEvent dom 5 core t.tag t.done
    return true
  if 2 ^ 57 ≤ t.done.toNat then fail
  else
    match ← translate dom core t.done.toNat .write, ← translate dom core t.done.toNat .read with
    | .ok pa, .ok _ =>
      dropClaim (.done core t.tag)
      modify fun s =>
        (s.pocPutBytes pa (natToBytes 8 (s.pocN pa 8 + (if t.merge then t.records.length else 1)))).homedAll pa 8 0 true true
      return true
    | .wait j, _ =>
      awaitPage (.done core t.tag) t.tag [] j
      return false
    | _, .wait j =>
      awaitPage (.done core t.tag) t.tag [] j
      return false
    | _, _ => fail

/-- Step 4 of an exit: the completion word, then the parent signals. -/
def signal (core : Nat) (t : Team) : M Unit := do
  if ← signalDone core t then
    for r in t.records do
      if r.tag ≠ 0 then
        sendTask core r.sender
          { entry := 0, arg0 := r.tag.setWidth 64, arg1 := 0, sender := (← get).globalId core, launch := 0, kind := 4 }
    modCore core fun c => { c with leaving := c.leaving.filter (·.tag ≠ t.tag) }
    markRecord core t.lnum 13 (· + 1)
    settleClosing
    laterOnce (.placement core)
  else atCycle ((← now) + 1) (.exit core (BitVec.ofNat 16 t.tag))

/-- EXIT: a team's exit goes on: it waits, releases, credits and signals. -/
def execExit (core : Nat) (tag : BitVec 16) (s : State) : Host.Outcome State Fault Refusal :=
  (do
    let s ← get
    let c := s.core core
    match c.team tag.toNat, c.leaving.find? (·.tag = tag.toNat) with
    | some t, _ =>
      if t.exiting then
        if s.exitReady core t then
          leave core t
          signal core t
        else atCycle (s.clk.toNat + 1) (.exit core tag)
    | none, some t => signal core t
    | none, none => pure () : M Unit).toOutcome s

/-- Kills a pre-empted team: its claims and charges go, and it signals (R410, R414). -/
def killPreempted (core tag cause : Nat) : M Unit := do
  match (← getCore core).preempted.find? (·.team.tag = tag) with
  | none => pure ()
  | some p =>
    let s ← get
    let dom := s.domainOf p.team.rcb
    for r in p.ranges do
      let id : W32 := BitVec.ofNat 32 (r.2.vbase / 128)
      let gid := s.globalId core
      if r.1 then modTreelet (s.domAsn dom) id fun t => { t with to_ := t.to_.setRep gid noRep }
      else modTreelet (s.domAsn dom) id fun t => if t.to_.owner = gid && t.state = 3 then { t with state := 1 } else t
    dropOffers core tag
    endClaims core tag
    dropWaiting core p.team
    dropHalf core tag
    modCore core fun c =>
      { c with preempted := c.preempted.filter (·.team.tag ≠ tag), leaving := c.leaving ++ [p.team] }
    makeCharge p.team.rcb p.team.charge true
    postEvent dom 2 core tag (BitVec.ofNat 64 cause)
    laterOnce (.exit core (BitVec.ofNat 16 tag))

/-! Pre-emption (R411, R412). -/

/-- Bytes of a team's save image. -/
def imageBytes (t : Team) (transfers : Nat) (pair : Bool) : Nat := areaAt (areaSizes t transfers pair) 12

/-- The region whose save slots a team uses: its own or its nearest ancestor's (R391). -/
def State.saveRegion (s : State) (rcb : Nat) : Option Nat := (s.ancestors rcb).find? fun r => s.rcbField r 9 0 16 ≠ 0

/-- The address of the lowest `n` free save slots in a row. -/
def State.saveSlot (s : State) (rcb n : Nat) : Option Nat :=
  match s.saveRegion rcb with
  | none => none
  | some r =>
    let base := s.rcbField r 8 17 35 * 131072
    let count := s.rcbField r 9 0 16
    let used := s.knownCores.flatMap fun k => (s.core k).preempted.map fun p => (p.image, p.slots)
    let free (i : Nat) : Bool := used.all fun u => base + 131072 * (i + n) ≤ u.1 || u.1 + 131072 * u.2 ≤ base + 131072 * i
    (List.range (count + 1 - n)).findSome? fun i => if free i then some (base + 131072 * i) else none

/-- Queued transfers of a team. -/
def Core.queuedOf (c : Core) (tag : Nat) : List (Nat × ShEntry) :=
  c.shuttle.filterMap fun x => match x.2 with
    | some e => if e.team = tag && e.state = .queued then some (x.1, e) else none
    | none => none

def Core.runningOf (c : Core) (tag : Nat) : Bool :=
  c.shuttle.any fun x => match x.2 with
    | some e => e.team = tag && e.state = .running
    | none => false

/-- A context as a save keeps it: buffers discarded, waits abandoned, park limits as cycles left, frame starvation as the
cycles that it has lasted (08_residency.md R229), its counter bank
clear (R412; 18_debug.md R464). -/
def savedCtx (now : Nat) (c : Ctx) : Ctx :=
  let pk := c.parked.map fun p => { p with limit := p.limit.map (· - now) }
  { c.discard with
      parked := pk, prog := c.prog.leave, prog2 := c.prog2.pause, stacked := pauseStacked c.stacked, moved := none,
      moved2 := none, asked := none, starved := c.starved.map (now - ·), grant := false, yielded := false,
      place := (if !c.isWave then .active else if c.parked.isSome then .pending else .ready), stall := .issued,
      cnt := [], cbctl := 0, lav := 0, cbst := 0x100, mkval := 0, mkclk := 0 }

/-- Words of a store from `lo` on. -/
def wordsOf (m : Store W64) (lo n : Nat) : List W64 := (List.range n).map fun j => Store.get 0 m (lo + j)
def numsOf (m : Store Nat) (lo n : Nat) : List Nat := (List.range n).map fun j => Store.get 0 m (lo + j)

/-- One row as a save keeps it. -/
def Core.rowImage (c : Core) (r : Nat) : Nat × List Byte × W32 × List Bool :=
  (r, Store.bytes c.rows (64 * r) 64, c.tag r, (List.range 16).map fun i => Store.get false c.fe (16 * r + i))

/-- A pricked range as a save keeps it. -/
def Core.rangeOf (c : Core) (e : Prick) : Bool × PrickReq :=
  let w := e.word
  (prickMode w = 2,
   { vbase := prickBase w, rows := prickLen w, first := prickFirst w, tag := BitVec.ofNat 16 (prickTeam w),
     rights := w.extractLsb' 76 2,
     counter := field (Store.get 0 c.watch e.watch) 3 49 * 8 })

/-- Results of a team's contexts, or writes of its uniform registers, have not landed (R412). -/
def State.owesResults (s : State) (core tag : Nat) : Bool :=
  let c := s.core core
  (c.ctxs.any fun x => x.2.present && x.2.team = tag && !x.2.pend.isEmpty) ||
  match c.team tag with
  | some t => c.uniDue.any fun w => w.reg / 512 = t.half
  | none => false

/-- A request that waits for the sub-pass may go on waiting: its 65,536 cycles have not passed (R386). -/
def Hoop.mayDefer (h : Hoop) (now : Nat) : Bool := h.deferred.all fun due => now < due

/-- A request waits for the sub-pass to close, and nothing else is tried before that or its limit (R386). -/
def Hoop.defers (h : Hoop) (now : Nat) : Bool := h.deferred.isSome && !h.slots.isEmpty && h.mayDefer now

/-- Whether a team may be pre-empted now; what it must wait for is set going (R386, R411, R412): the address of its save
slots and their number. -/
def preemptReady (core tag : Nat) (urgent pair : Bool) : M (Option (Nat × Nat)) := do
  let s ← get
  let c := s.core core
  match c.team tag with
  | none => return none
  | some t =>
    if !t.started || t.exiting || t.returning.isSome then return none
    -- while a context is in trap entry (R411)
    let entering (x : Ctx) : Bool := x.present && x.team = tag && x.trapping.isSome
    if (s.hereId = core && entering s.me) || c.ctxs.any (fun x => entering x.2) then return none
    if c.hoop.claimant = some tag && !c.hoop.slots.isEmpty && !urgent && c.hoop.mayDefer s.clk.toNat then
      if c.hoop.deferred.isNone then
        let due := s.clk.toNat + 65536
        modCore core fun c => { c with hoop := { c.hoop with deferred := some due } }
        atCycle due (.hoopUrgent core)
      return none
    let n := (imageBytes t (c.queuedOf tag).length pair + 131071) / 131072
    match s.saveSlot t.rcb n with
    | none => return none
    | some a =>
      modTeam core tag fun t => { t with held := true }
      if c.runningOf tag || s.owesResults core tag then return none
      return some (a, n)

/-- Moves a team off its core into its save image. `pr`: the state of the pair that is saved with it. It keeps its half, which
only MREL and exit give up (11_matrix.md R293). -/
def saveTeam (core tag image slots : Nat) (pr : Option MatPair) (partner : Option Nat) : M Unit := do
  let now ← now
  for x in (← getCore core).ctxs do
    if x.2.present && x.2.team = tag then
      let id : CtxId := ⟨core, seatOf x.1⟩
      dropWaiters id
      dropGrant id (← getCtx id)
      modCtx id (savedCtx now)
      swapStore id
  let c0 ← getCore core
  let ranges := (c0.validPricks.filter fun e => prickTeam e.2.word = tag).map fun e => c0.rangeOf e.2
  unprickTeam core tag
  let s ← get
  let c := s.core core
  match c.team tag with
  | none => pure ()
  | some t =>
    let mine := c.ctxs.filter fun x => x.2.present && x.2.team = tag
    let p : Preempted :=
      { team := t, image := image, slots := slots, since := now, ctxs := mine.map fun x => (seatOf x.1, x.2),
        uni := (List.range t.uniforms).map fun n => Store.get 0 c.uni (512 * t.half + n),
        sh := wordsOf c.sh (64 * t.half) 64, shCause := numsOf c.shCause (8 * t.half) 8,
        md := wordsOf c.md (32 * t.half) 32, mdCause := numsOf c.mdCause (4 * t.half) 4,
        transfers := c.queuedOf tag, rows := t.allRows.map c.rowImage, ranges := ranges,
        half := if c.half.any (·.team = tag) then c.half else none, pair := pr, partner := partner, paired := pr.isSome,
        window := if c.hoop.claimant = some tag && !c.hoop.slots.isEmpty then some c.hoop else none }
    writePhysBytes image (freeBytes 0 s.ticks (131072 * slots))
    for x in p.pieces core (c.rayClaim.filter (·.team = tag), c.hitClaim.filter (·.team = tag)) do writePhysBytes x.1 x.2
    modCore core fun c =>
      let sh := c.shuttle.map fun (x : Nat × Option ShEntry) =>
        (x.1, x.2.map fun e => if e.team = tag && e.state = .queued then { e with state := .free } else e)
      let ctxs := c.ctxs.filter fun x => !(x.2.present && x.2.team = tag)
      let c1 := c.release t
      let hoop := if c1.hoop.claimant = some tag then { c1.hoop with deferred := none } else c1.hoop
      { c1 with shuttle := sh, ctxs := ctxs, preempted := c1.preempted ++ [p], hoop := hoop }
    if (s.hereId = core) && s.me.present && s.me.team = tag then setMe .blank
    bumpRcb t.rcb 17 false
    laterOnce (.placement core)

/-- The formed pair that a team's half belongs to, if it does. -/
def State.pairOf (s : State) (core tag : Nat) : Option MatPair :=
  if (s.core core).half.any (·.team = tag) then (s.core (leaderOf core)).pair else none

/-- PREEMPTION: a team, with its pair's other team, moves off its core when nothing holds it there. The pair stops at the
end of its K-block and is saved with the leader's team; where one of its teams is away already, with the other (R310). -/
def execPreemption (core : Nat) (tag : BitVec 16) (urgent : Bool) (s : State) : Host.Outcome State Fault Refusal :=
  (do
    let s ← get
    let tag := tag.toNat
    let again : M Unit := do
      match (← getCore core).team tag with
      | some t =>
        if t.exiting then
          -- the pair goes on for what its team has had accepted (R310)
          if (s.pairOf core tag).isSome then
            modPair (leaderOf core) fun p => { p with stopping := false }
            stepSoon (leaderOf core)
            laterOnce (.drainComplete (leaderOf core))
        else if urgent || !((← getCore core).hoop.defers (← now)) then
          atCycle ((← now) + 1) (.preemption core (BitVec.ofNat 16 tag) urgent)
      | none => pure ()
    let other := (s.core (buddy core)).half.bind fun h => ((s.core (buddy core)).team h.team).map (·.tag)
    match s.pairOf core tag with
    | none =>
      match ← preemptReady core tag urgent false with
      | some a => saveTeam core tag a.1 a.2 none none
      | none => again
    | some q =>
      let pr : Option MatPair := some { q with stopping := false }
      let lead := core % 2 = 0
      let stopped (m : M Unit) : M Unit := do
        if q.queue.any fun c => c.cycles ≠ 0 then
          modPair (leaderOf core) fun p => { p with stopping := true }
          again
        else
          m
          modCore (leaderOf core) fun c => { c with pair := none }
      match other with
      | some tag2 =>
        match ← preemptReady core tag urgent lead, ← preemptReady (buddy core) tag2 urgent !lead with
        | some a, some b => stopped do
          saveTeam core tag a.1 a.2 (if lead then pr else none) (some tag2)
          let b' := (← preemptReady (buddy core) tag2 urgent !lead).getD b
          saveTeam (buddy core) tag2 b'.1 b'.2 (if lead then none else pr) (some tag)
        | _, _ => again
      | none =>
        match ← preemptReady core tag urgent true with
        | some a => stopped do
          -- the other team is away with its half: the two return as one
          let away := (s.core (buddy core)).half.map (·.team)
          saveTeam core tag a.1 a.2 pr away
          modCore (buddy core) fun c =>
            { c with preempted := c.preempted.map fun p => if some p.team.tag = away then { p with partner := some tag } else p }
        | none => again : M Unit).toOutcome s

/-! Resumption (R413). -/

/-- A seat after resumption: the i-th slot or frame of the team, by its new number. -/
def movedSeat (old new : Team) (q : Seat) : Seat :=
  match q with
  | .slot n => .slot (new.slots.getD (old.slots.idxOf n) n)
  | .frame n => .frame ((new.frames.getD ((old.frames.map (·.1)).idxOf n) (n, 0)).1)

def putWords (m : Store W64) (lo : Nat) (l : List W64) : Store W64 :=
  (List.range l.length).foldl (fun m j => Store.set 0 m (lo + j) (l.getD j 0)) m
def putNums (m : Store Nat) (lo : Nat) (l : List Nat) : Store Nat :=
  (List.range l.length).foldl (fun m j => Store.set 0 m (lo + j) (l.getD j 0)) m

/-- A row restored. -/
def Core.putRow (c : Core) (x : Nat × List Byte × W32 × List Bool) : Core :=
  let fe := (List.range 16).foldl (fun f i => Store.set false f (16 * x.1 + i) (x.2.2.2.getD i false)) c.fe
  ({ c with rows := Store.putBytes c.rows (64 * x.1) x.2.1, fe := fe }).putTag x.1 x.2.2.1

/-- A context that was starved goes on starving: the time away does not count (08_residency.md R229). -/
def starveOn (id : CtxId) (rcb : Nat) : M Unit := do
  let now ← now
  match (← getCtx id).starved with
  | none => pure ()
  | some n =>
    modCtx id fun c => { c with starved := some (now - n), grant := true }
    modSite (siteOfCore id.core) fun t =>
      { t with starving := t.starving ++ [{ who := .ctx id, since := now - n, bound := [], full := false }] }
    let p := (← get).rcbField ((← get).domainOf rcb) 1 40 8
    if p ≠ 0 then atCycle (now - n + p * 65536 + 1) (.frameTimeout (.ctx id))

/-- Puts a pre-empted team back on its core from its save image, stopped until its ranges and transfers are back. -/
def restoreTeam (core : Nat) (p0 : Preempted) : M Unit := do
  let now ← now
  let c ← getCore core
  let s ← get
  let p := p0.reload fun a off n => s.pocBytes (p0.image + areaAt p0.sizes a + off) n
  let half := c.freeHalf
  let frames := c.freeFrames.zip (p.team.frames.map (·.2))
  let t : Team :=
    { p.team with half := half, slots := c.freeSlots.take p.team.threads, frames := frames, held := true,
                  returning := some ⟨p.ranges, p.transfers, false⟩ }
  let mv := movedSeat p.team t
  modCore core fun c =>
    let c1 := p.rows.foldl Core.putRow c
    let c2 := (c1.clearHalf half).holdFormats p.team.decl p.team.fmts
    let uni := (List.range p.uni.length).foldl (fun m n => Store.set 0 m (512 * half + n) (p.uni.getD n 0)) c2.uni
    let ctxs := p.ctxs.foldl (fun m x =>
      let pk := x.2.parked.map fun k => { k with limit := k.limit.map (· + now) }
      Store.set .blank m (seatIndex (mv x.1)) { x.2 with parked := pk }) c2.ctxs
    let h := if p.half.isSome then c2.half.map fun h => { h with driver := h.driver.map mv } else c2.half
    { c2 with uni := uni, sh := putWords c2.sh (64 * half) p.sh, shCause := putNums c2.shCause (8 * half) p.shCause,
              md := putWords c2.md (32 * half) p.md, mdCause := putNums c2.mdCause (4 * half) p.mdCause, ctxs := ctxs,
              half := h, teams := c2.teams ++ [t], preempted := c2.preempted.erase p0 }
  match p.pair with
  | some q => modCore (leaderOf core) fun c => { c with pair := some q }
  | none => pure ()
  match p.window with
  | some h => modCore core fun c => if c.hoop.claimant = some t.tag then { c with hoop := h } else c
  | none => pure ()
  for x in p.ctxs do starveOn ⟨core, mv x.1⟩ p.team.rcb

/-- Pricks a resuming team's ranges again, one after another; false while a page is awaited (R249, R250). A prick that is
refused leaves its range unpricked (DESIGN CHOICE: log 115). -/
def reprickRanges (core tag : Nat) : List (Bool × PrickReq) → M Bool
  | [] => pure true
  | r :: rest => do
    match ← (if r.1 then prickReplica core r.2 else prickOwner core r.2) with
    | .wait => return false
    | .status _ =>
      modTeam core tag fun t => { t with returning := t.returning.map fun x => { x with ranges := rest } }
      reprickRanges core tag rest

/-- Relaunches the saved transfers of a resuming team under their old ids (10_shuttle.md R282). -/
def relaunch (core : Nat) (l : List (Nat × ShEntry)) : M Unit := do
  for x in l do
    modCore core fun c =>
      let e : ShEntry := { x.2 with state := .queued, order := c.shOrder }
      { c with shuttle := Store.set none c.shuttle x.1 (some e), shOrder := c.shOrder + 1 }
    laterOnce (.transferStart core x.1)

/-- The last step of a resumption: the contexts are eligible. -/
def endResume (core tag : Nat) : M Unit := do
  modTeam core tag fun t => { t with held := false, returning := none }
  dispatchTasks core
  stepSoon (leaderOf core)
  laterOnce (.drainComplete (leaderOf core))
  laterOnce (.placement core)

/-- Goes on with a resumption: its ranges, then its transfers, then the parked flits; when these have been offered to the
core, its contexts (R413). -/
def resumeOn (core tag : Nat) : M Unit := do
  match ((← getCore core).team tag).bind (·.returning) with
  | none => pure ()
  | some r =>
    if r.back then endResume core tag
    else if ← reprickRanges core tag r.ranges then
      modTeam core tag fun t => { t with returning := some ⟨[], [], true⟩ }
      relaunch core r.transfers
      wakeParked core
      later (.resumption core (BitVec.ofNat 16 tag))
    else atCycle ((← now) + 1) (.resumption core (BitVec.ofNat 16 tag))

/-- RESUMPTION: a pre-empted team, with its pair's other team, comes back to its core. -/
def execResumption (core : Nat) (tag : BitVec 16) (s : State) : Host.Outcome State Fault Refusal :=
  (do
    let s ← get
    match (s.core core).preempted.find? (·.team.tag = tag.toNat) with
    | none => resumeOn core tag.toNat
    | some p =>
      if s.canReturn core p && !s.regionHeld p.team.rcb then
        restoreTeam core p
        match s.partnerOf core p with
        | some q =>
          restoreTeam (buddy core) q
          resumeOn (buddy core) q.team.tag
        | none => pure ()
        resumeOn core tag.toNat : M Unit).toOutcome s

end Sys2Proof.Machine
end

