-- ==== Sys2Proof/Machine/Regions.lean ====
section
/-! DEFINITION. The region commands and the epoch (15_work.md R390 to R397; the command slots of 19_system.md R472). -/

namespace Sys2Proof.Machine

/-! Command slots (19_system.md R472): COMMAND, OP0, OP1, OP2, STATUS. -/

/-- A command has been performed: its slot's STATUS and, for the host, vector 0. -/
def answerCommand (s : CmdSlot) (status : Nat) : M Unit := do
  let put (l : List W64) : List W64 :=
    let l5 := l ++ List.replicate (5 - l.length) 0
    l5.set 4 ((l5.getD 4 0 &&& 0x200) ||| BitVec.ofNat 64 (256 + status))
  match s with
  | .host =>
    modSys fun y => { y with cmdHost := put y.cmdHost }
    raiseVector 0
  | .sup => modSys fun y => { y with cmdSup := put y.cmdSup }

/-- The package takes region commands: bring-up has finished, and the module is usable, which only KILL does not ask
(R393; 01_package.md R23). -/
def State.commandsReady (s : State) (kill : Bool) : Bool := s.sys.up && (kill || !s.sys.fault.getLsbD 63)

/-- Runs a command that answers a status. `zero`: every bit that must be zero is. -/
def regionCommand (s : CmdSlot) (zero : Bool) (m : M Nat) (kill : Bool := false) : M Unit := do
  let st ← if !(← get).commandsReady kill then pure 6 else if !zero then pure 7 else m
  answerCommand s st

/-- A region that is open, closing or held. -/
def State.regionKnown (s : State) (rcb : Nat) : Bool := s.sys.regions.contains rcb

/-- A command on a region that must be open; a held one is, a closing one is not (R393; DEDUCED, log 77). -/
def onRegion (rcb : W64) (m : Nat → M Nat) : M Nat := do
  let s ← get
  if s.regionKnown rcb.toNat && s.regionState rcb.toNat ≠ 2 then m rcb.toNat else return 3

/-! OPEN (R390, R391, R393). -/

/-- Bits of a word of an RCB. -/
def State.rcbBits (s : State) (rcb i lo len : Nat) : Nat := s.rcbField rcb i lo len

/-- Ring sizes that are not allowed. -/
def ringSizeBad (n : Nat) : Bool := (1 ≤ n && n ≤ 3) || 20 < n

/-- Reserved fields of an RCB are zero. -/
def State.rcbReservedOk (s : State) (rcb : Nat) : Bool :=
  let z (i lo len : Nat) : Bool := s.rcbBits rcb i lo len = 0
  z 0 52 12 && z 0 0 8 && z 1 48 4 && z 1 32 4 && z 1 0 20 && z 2 52 12 && z 2 0 12 && z 3 57 7 && z 3 0 6 &&
  z 4 57 7 && z 4 0 6 && z 5 54 10 && z 5 0 32 && z 8 52 12 && z 8 0 17 && z 9 16 48 &&
  (List.range 12).all fun i => z (20 + i) 0 64

/-- Fields of a fault domain are zero where the region begins none. -/
def State.rcbOwnZero (s : State) (rcb : Nat) : Bool :=
  let z (i lo len : Nat) : Bool := s.rcbBits rcb i lo len = 0
  z 1 20 12 && z 1 36 3 && z 1 40 8 && z 1 57 1 && z 2 0 64 && z 3 0 64 && z 4 0 64 && z 5 0 64 && z 6 0 64

/-- EMAXD after inheritance. -/
def State.emaxdOf (s : State) (rcb : Nat) : Nat :=
  let own := s.rcbField rcb 1 52 4
  if own = 0 then s.rcbField (s.parentOf rcb) 19 12 4 else own

/-- BADRCB. -/
def State.rcbBad (s : State) (rcb : Nat) : Bool :=
  rcb % 256 ≠ 0 || !s.populated rcb || !s.rcbReservedOk rcb ||
  (if s.rcbField rcb 1 56 1 = 0 then !s.rcbOwnZero rcb else s.rcbField rcb 2 12 40 = 0) ||
  s.emaxdOf rcb = 0 || ringSizeBad (s.rcbField rcb 3 52 5) || ringSizeBad (s.rcbField rcb 4 52 5)

/-- The ASN is 0 or that of an open domain. -/
def State.asnTaken (s : State) (rcb : Nat) : Bool :=
  let a := s.rcbField rcb 1 20 12
  s.rcbField rcb 1 56 1 = 1 &&
    (a = 0 || s.sys.regions.any fun r => s.rcbField r 1 56 1 = 1 && s.rcbField r 1 20 12 = a)

/-- Writes what OPEN fixes: the device's words at their reset values, then LEVEL, EMAXD and STATE. -/
def openRegion (rcb level emaxd : Nat) : M Unit := do
  for i in List.range 6 do putRcbField rcb (10 + i) 32 32 0
  for i in List.range 3 do putRcbWord rcb (16 + i) 0
  putRcbWord rcb 19 (level * 2 ^ 16 + emaxd * 2 ^ 12 + 1)
  modSys fun y => { y with regions := y.regions ++ [rcb] }

/-- OPEN. -/
def execRegionOpen (s : CmdSlot) (op0 op1 op2 : W64) (st : State) : Host.Outcome State Fault Refusal :=
  (regionCommand s (op1 = 0 && op2 = 0) (do
    let s ← get
    let rcb := op0.toNat
    if s.regionKnown rcb then return 1
    if s.rcbBad rcb then return 2
    let parent := s.parentOf rcb
    let level := s.rcbField parent 19 16 4 + 1
    if !(s.regionKnown parent && s.regionState parent = 1) || 15 < level then return 4
    if s.asnTaken rcb then return 5
    openRegion rcb level (s.emaxdOf rcb)
    return 0)).toOutcome st

/-- CLOSE. -/
def execRegionClose (s : CmdSlot) (op0 op1 op2 : W64) (st : State) : Host.Outcome State Fault Refusal :=
  (regionCommand s (op1 = 0 && op2 = 0) (onRegion op0 fun rcb => do
    let s ← get
    if s.regionBusy rcb || s.sys.regions.any (fun r => s.parentOf r = rcb) then return 1
    putRcbField rcb 19 0 2 0
    modSys fun y => { y with regions := y.regions.filter (· ≠ rcb) }
    return 0)).toOutcome st

/-- PRIO. -/
def execRegionPrio (s : CmdSlot) (op0 op1 op2 : W64) (st : State) : Host.Outcome State Fault Refusal :=
  (regionCommand s (field op1 4 60 = 0 && op2 = 0) (onRegion op0 fun rcb => do
    putRcbField rcb 1 60 4 (field op1 0 4)
    return 0)).toOutcome st

/-- DEADLINE. -/
def execRegionDeadline (s : CmdSlot) (op0 op1 op2 : W64) (st : State) : Host.Outcome State Fault Refusal :=
  (regionCommand s (op2 = 0) (onRegion op0 fun rcb => do
    putRcbWord rcb 7 op1.toNat
    putRcbField rcb 19 2 1 0
    return 0)).toOutcome st

/-- Placement is tried again on every core that has records or pre-empted teams. -/
def rescanAll : M Unit := do
  let s ← get
  for k in s.knownCores do
    let c := s.core k
    if !c.placements.isEmpty || !c.preempted.isEmpty then laterOnce (.placement k)

/-- BUDGET. -/
def execRegionBudget (s : CmdSlot) (op0 op1 op2 : W64) (st : State) : Host.Outcome State Fault Refusal :=
  (regionCommand s (field op1 3 61 = 0 && field op1 0 3 < 6 && field op2 32 32 = 0) (onRegion op0 fun rcb => do
    putRcbField rcb (10 + field op1 0 3) 0 32 (field op2 0 32)
    rescanAll
    return 0)).toOutcome st

/-- PREEMPT. -/
def execRegionPreempt (s : CmdSlot) (op0 op1 op2 : W64) (st : State) : Host.Outcome State Fault Refusal :=
  (regionCommand s (field op1 1 63 = 0 && op2 = 0) (onRegion op0 fun rcb => do
    putRcbField rcb 19 0 2 3
    let s ← get
    for k in s.knownCores do
      for t in (s.core k).teams do
        if s.under t.rcb rcb then laterOnce (.preemption k (BitVec.ofNat 16 t.tag) (op1.getLsbD 0))
    return 0)).toOutcome st

/-- RESUME. -/
def execRegionResume (s : CmdSlot) (op0 op1 op2 : W64) (st : State) : Host.Outcome State Fault Refusal :=
  (regionCommand s (op1 = 0 && op2 = 0) (onRegion op0 fun rcb => do
    putRcbField rcb 19 0 2 1
    rescanAll
    return 0)).toOutcome st

/-- KILL. -/
def execRegionKill (s : CmdSlot) (op0 op1 op2 : W64) (st : State) : Host.Outcome State Fault Refusal :=
  (regionCommand s (op1 = 0 && op2 = 0) (onRegion op0 fun rcb => do
    putRcbField rcb 19 0 2 2
    let s ← get
    for k in s.knownCores do
      for t in (s.core k).teams do
        if s.under t.rcb rcb && (!t.exiting || t.waitch) then killTeam k t.tag 34
      for p in (s.core k).preempted do
        if s.under p.team.rcb rcb then killPreempted k p.team.tag 34
    rescanAll
    settleClosing
    return 0) true).toOutcome st

/-! The epoch (R396, R397). -/

/-- Open regions that take part in the deadline rule. -/
def State.ranked (s : State) : List Nat :=
  let l := s.sys.regions.filter fun r =>
    s.regionState r = 1 && s.rcbField r 1 39 1 = 1 && s.rcbField r 1 59 1 = 1 && s.rcbWord r 7 ≠ 0
  let before (a b : Nat) : Bool := s.rcbWord a 7 < s.rcbWord b 7 || (s.rcbWord a 7 = s.rcbWord b 7 && a ≤ b)
  l.foldl (fun l r => (l.takeWhile fun x => before x r) ++ r :: l.dropWhile fun x => before x r) []

/-- EP of a region whose parent's EP stands already. -/
def State.epOf (s : State) (ranked : List Nat) (rcb : Nat) : Nat :=
  let prio := s.rcbField rcb 1 60 4
  if s.rcbField rcb 1 39 1 = 0 then s.ep (s.parentOf rcb)
  else if ranked.contains rcb then max prio (15 - ranked.idxOf rcb)
  else prio

/-- EPOCH. -/
def execEpoch (s : State) : Host.Outcome State Fault Refusal :=
  (do
    let s ← get
    let ranked := s.ranked
    for level in List.range 16 do
      for r in s.sys.regions do
        if s.rcbField r 19 16 4 = level then putRcbField r 19 4 4 ((← get).epOf ranked r)
    for r in ranked do
      if s.rcbWord r 7 < s.clk.toNat && s.rcbField r 19 2 1 = 0 then
        putRcbField r 19 2 1 1
        bumpRcb r 17 true
        postEvent (s.domainOf r) 4 0 0 (BitVec.ofNat 64 (s.rcbWord r 7))
    rescanAll : M Unit).toOutcome s

end Sys2Proof.Machine
end

