-- ==== Sys2Proof/Machine/Residency.lean ====
section
/-! DEFINITION. The residency engines: frames, fills, first touches, demotions, starvation, heat and the Picot filter
(08_residency.md R216 to R229, R236, R488), and the agents that serve walks and memory requests (07_addresses.md R200;
09_sharing.md R246). -/

namespace Sys2Proof.Machine

/-! Pages in memory. -/

/-- Bytes of a page. -/
def pageSize (fine : Bool) : Nat := if fine then 1024 else 2 ^ 21

/-- A store with `n` keys from `k` on emptied. -/
def clearRange {α : Type} (m : Store α) (k n : Nat) : Store α := m.filter fun x => !(k ≤ x.1 && x.1 < k + n)

/-- Every line of a page written back and out of its home slice (R226 step 6). -/
def State.flushPage (s : State) (pa n : Nat) : State :=
  s.unhomeAll fun l => pa ≤ 64 * l.line && 64 * l.line < pa + n

/-- A page holds poison, which an engine that copies it reports (16_traps.md R429). -/
def State.poisonIn (s : State) (pa n : Nat) : Bool := s.poison.any fun a => pa ≤ 32 * a && 32 * a < pa + n

/-- A page of zeros; no home slice keeps a line of it. -/
def zeroPage (pa n : Nat) : M Unit :=
  modify fun s =>
    let s := s.flushPage pa n
    { s with mem := clearRange s.mem pa n,
             poison := s.poison.filter fun a => !(pa ≤ 32 * a && 32 * a < pa + n) }

/-- Copies a page; poison goes with it (R243). -/
def copyPage (src dst n : Nat) : M Unit := do
  zeroPage dst n
  modify fun s =>
    let s := s.flushPage src n
    let from_ := s.mem.filter fun x => src ≤ x.1 && x.1 < src + n
    let bad := s.poison.filter fun a => src ≤ 32 * a && 32 * a < src + n
    { s with mem := from_.foldl (fun m x => Store.set 0 m (x.1 - src + dst) x.2) s.mem,
             poison := s.poison ++ bad.map fun a => a - src / 32 + dst / 32 }

/-! Tier 0 (R216, R217, R228, R488). -/

def lowestOf (l : List Nat) : Option Nat :=
  l.foldl (fun m x => match m with
    | none => some x
    | some y => some (min x y)) none

/-- Watermarks LOW and HIGH of a tier. -/
def State.wmLow (s : State) (site tier : Nat) : Nat := field (Store.get 0 (getSiteState s site).wm tier) 0 32
def State.wmHigh (s : State) (site tier : Nat) : Nat := field (Store.get 0 (getSiteState s site).wm tier) 32 32

/-- Takes a frame of a die: from its free list, or from the reserve for the one who holds its grant (R228). -/
def takeFrame (who : Asker) (site : Nat) : M (Option Nat) := do
  let s ← get
  let t := getSiteState s site
  match s.freeFrame site with
  | some f => return some f
  | none =>
    if t.granted ≠ some who then return none
    match lowestOf t.reserve with
    | none => return none
    | some f =>
      modSite site fun t => { t with reserve := t.reserve.filter (· ≠ f) }
      return some f

/-- A demotion round of tier 0 starts when FREE falls below LOW (R220). -/
def checkLow (site : Nat) : M Unit := do
  let s ← get
  if s.freeCount site < s.wmLow site 0 then
    modSite site fun t => { t with rounds := (true, t.rounds.2) }
    laterOnce (.demotion site)

def putState (site f st : Nat) : M Unit := modify fun s => s.putRecord site f (BitVec.ofNat 128 (st * 2 ^ 125))

/-- Takes a sub-frame: of a carved frame, or of a frame carved for it. -/
def takeSub (who : Asker) (site : Nat) : M (Option (Nat × Nat)) := do
  let put (f j : Nat) : M Unit :=
    modSite site fun t => { t with carved := Store.set [] t.carved f (j :: Store.get [] t.carved f) }
  match freeSub (getSiteState (← get) site).carved with
  | some (f, j) =>
    put f j
    return some (f, j)
  | none =>
    match ← takeFrame who site with
    | none => return none
    | some f =>
      putState site f 5
      put f 0
      return some (f, 0)

/-- A frame that is free again joins the reserve while that has fewer than 64, and the free list otherwise (R226). -/
def releaseFrame (site f : Nat) : M Unit := do
  let t := getSiteState (← get) site
  if t.reserve.length < 64 then
    putState site f 6
    modSite site fun t => { t with reserve := t.reserve ++ [f] }
  else putState site f 0

/-! The page of a frame or of a sub-frame: what the engine records of it (R216, R217). -/

def State.pageRec (s : State) (pa : Nat) (fine : Bool) : BitVec 128 :=
  if fine then s.subRec pa else s.record (frameOf pa).1 (frameOf pa).2

/-- The record of a page at `va` of an address space. -/
def pageWord (st : Nat) (pin : Bool) (asn : BitVec 12) (va : Nat) (fine : Bool) : BitVec 128 :=
  BitVec.ofNat 128 (st * 2 ^ 125 + (if pin then 2 ^ 124 else 0) + asn.toNat * 2 ^ 107 + va / pageSize fine * pageSize fine)

def recBack (r : BitVec 128) (fine : Bool) : Nat := if fine then field r 64 42 * 1024 else field r 64 31 * 2 ^ 21
def recVa (r : BitVec 128) (fine : Bool) : Nat := if fine then field r 10 47 * 1024 else field r 21 36 * 2 ^ 21
def recAsn (r : BitVec 128) : BitVec 12 := BitVec.ofNat 12 (field r 107 12)

/-- BACK replaced. -/
def recPutBack (r : BitVec 128) (fine : Bool) (pa : Nat) : BitVec 128 :=
  if fine then recPut r 64 42 (pa / 1024) else recPut r 64 31 (pa / 2 ^ 21)

/-- Takes the physical page for a translation, with its record in a state. -/
def takePage (who : Asker) (site : Nat) (fine : Bool) (asn : BitVec 12) (va st : Nat) : M (Option Nat) := do
  let pa ← if fine then do
      match ← takeSub who site with
      | none => pure none
      | some (f, j) => pure (some (frameBase site f + 1024 * j))
    else do
      match ← takeFrame who site with
      | none => pure none
      | some f => pure (some (frameBase site f))
  match pa with
  | none => pure ()
  | some pa => modPage pa fine fun _ => pageWord st false asn va fine
  checkLow site
  return pa

/-! Tiers 1 and 2 (R216, R220, R488). -/

def tier1Base (site f : Nat) : Nat := 0x400000000000 + site * 0x4000000000 + f * 2 ^ 21
def tier1Of (pa : Nat) : Nat × Nat := ((pa - 0x400000000000) / 0x4000000000, (pa - 0x400000000000) % 0x4000000000 / 2 ^ 21)

/-- FREE of tier 1. -/
def State.free1 (s : State) (site : Nat) : Nat := Config.tier1Frames - (getSiteState s site).used1.length

/-- A page of tier 1 is that of a leaf entry; 0 for a clean copy. -/
def setLeaf1 (pa : Nat) (fine : Bool) (leaf : Nat) : M Unit :=
  let x := tier1Of pa
  modSite x.1 fun t =>
    if fine then { t with leaf1 := Store.set 0 t.leaf1 (pa / 1024) leaf }
    else { t with used1 := Store.set none t.used1 x.2 (some leaf) }

/-- A page parked in tier 1, its leaf entry and its size, that a demotion may take: the pages of frame `f` (R222). -/
def State.units1 (s : State) (site f : Nat) : List (Nat × Nat × Bool) :=
  let t := getSiteState s site
  let fits (leaf pa : Nat) (fine : Bool) : Bool :=
    let e : W64 := BitVec.ofNat 64 (s.pocN leaf 8)
    leaf ≠ 0 && !e.getLsbD 63 && field e 60 3 = 1 && field e 10 42 * 1024 = pa && !(t.starving.any fun x => x.bound.contains pa) &&
      !(t.closing1.any fun c => c.src = pa && c.fine = fine)
  match Store.get none t.used1 f with
  | none => []
  | some leaf =>
    let pa := tier1Base site f
    if leaf ≠ 0 then (if fits leaf pa false then [(pa, leaf, false)] else [])
    else
      let subs := Store.get [] t.carved1 f
      ((List.range 2048).filter fun j => subs.contains j).filterMap fun j =>
        let p := pa + 1024 * j
        let l := Store.get 0 t.leaf1 (p / 1024)
        if fits l p true then some (p, l, true) else none

/-- The victim of tier 1: the first eligible page from the hand on (R222; HEAT is kept of tier 0 only). -/
def State.victim1 (s : State) (site : Nat) : Option (Nat × Nat × Bool) :=
  let t := getSiteState s site
  let all := (t.used1.filter fun x => x.2.isSome).flatMap fun x => s.units1 site x.1
  let at_ (p : Nat) : Nat := (p - tier1Base site 0) / 1024
  match all.find? fun x => t.hand.2 ≤ at_ x.1 with
  | some x => some x
  | none => all.head?

/-- A demotion that waits for a tier with no free frame is tried again when this timer fires (R223). -/
def State.retryDue (s : State) (site tier : Nat) : Bool := s.timers.any fun t => t.2 = .tierRetry site tier

/-- A tier below is full: the demotion is not begun, the host is told, and it is retried after 65,536 cycles (R223). -/
def tierFull (site tier : Nat) : M Unit := do
  let s ← get
  if !s.retryDue site tier then
    raiseVector 2
    atCycle (s.clk.toNat + 65536) (.tierRetry site tier)

/-- The next demotion of a tier-1 round: while FREE is below HIGH and fewer than four run (R220, R222, R223). -/
def goTier1 (site : Nat) : M Unit := do
  let s ← get
  let t := getSiteState s site
  if t.rounds.2 then
    if s.wmHigh site 1 ≤ s.free1 site then modSite site fun t => { t with rounds := (t.rounds.1, false) }
    else if t.closing1.length < 4 && !s.retryDue site 1 && !(s.pending.any fun e => match e with | .tier1Demotion n _ _ => n = site | _ => false) then
      match s.victim1 site with
      | none =>
        modSite site fun t => { t with rounds := (t.rounds.1, false) }
        raiseVector 2
      | some (pa, leaf, fine) =>
        modSite site fun t => { t with hand := (t.hand.1, (pa - tier1Base site 0 + pageSize fine) / 1024) }
        later (.tier1Demotion site leaf fine)

/-- A demotion round of tier 1 starts when FREE falls below LOW. -/
def checkLow1 (site : Nat) : M Unit := do
  let s ← get
  if s.free1 site < s.wmLow site 1 then
    modSite site fun t => { t with rounds := (t.rounds.1, true) }
    goTier1 site

/-- Takes a page of tier 1 for a leaf entry, or none. -/
def takeTier1 (site : Nat) (fine : Bool) (leaf : Nat) : M (Option Nat) := do
  let t := getSiteState (← get) site
  let fresh := firstNat (fun k => (Store.get none t.used1 k).isNone) 0 Config.tier1Frames
  let x := if fine then (match freeSub t.carved1 with
      | some x => some x
      | none => fresh.map fun f => (f, 0))
    else fresh.map fun f => (f, 0)
  match x with
  | none => return none
  | some (f, j) =>
    let pa := tier1Base site f + 1024 * j
    if fine then
      modSite site fun t =>
        { t with used1 := Store.set none t.used1 f (some 0), carved1 := Store.set [] t.carved1 f (j :: Store.get [] t.carved1 f) }
    setLeaf1 pa fine leaf
    checkLow1 site
    return some pa

def freeTier1 (pa : Nat) (fine : Bool) : M Unit := do
  let x := tier1Of pa
  if !fine then modSite x.1 fun t => { t with used1 := Store.set none t.used1 x.2 none } else
    setLeaf1 pa true 0
    let left := (Store.get [] (getSiteState (← get) x.1).carved1 x.2).filter (· ≠ pa % 2 ^ 21 / 1024)
    modSite x.1 fun t =>
      { t with carved1 := Store.set [] t.carved1 x.2 left,
               used1 := if left.isEmpty then Store.set none t.used1 x.2 none else t.used1 }

/-- Frees a page's physical memory of tier 0, and its clean copy (log 94): a frame, or a sub-frame and its carved frame
with the last (R216). -/
def freePage (pa : Nat) (fine : Bool) : M Unit := do
  let x := frameOf pa
  let back := recBack ((← get).pageRec pa fine) fine
  if back ≠ 0 then freeTier1 back fine
  if !fine then releaseFrame x.1 x.2 else
    modify (modSub pa fun _ => 0)
    let left := (Store.get [] (getSiteState (← get) x.1).carved x.2).filter (· ≠ pa % 2 ^ 21 / 1024)
    modSite x.1 fun t => { t with carved := Store.set [] t.carved x.2 left }
    if left.isEmpty then releaseFrame x.1 x.2 else sumCarved pa

/-- The CXL port of a site and the site at which the model keeps its frames. -/
def portSite (site : Nat) : Nat := if site < 6 then 0 else 6

/-- Frames, as physical page numbers, that a port serves. -/
def State.portSpans (s : State) (site : Nat) : List (Nat × Nat) :=
  (s.sys.cxl.filter fun d => decide (d.1 < 0x8000000000000) = decide (site < 6)).map fun d => (d.1 / 2 ^ 21, d.2.1 / 2 ^ 21)

def State.fresh2 (s : State) (site : Nat) : Option Nat :=
  let used := (getSiteState s (portSite site)).used2
  (s.portSpans site).findSome? fun d => firstNat (fun k => !used.contains k) d.1 d.2

/-- FREE of tier 2. -/
def State.free2 (s : State) (site : Nat) : Nat :=
  (s.portSpans site).foldl (fun n d => n + d.2) 0 - (getSiteState s (portSite site)).used2.length

def takeTier2 (site : Nat) (fine : Bool) : M (Option Nat) := do
  let s ← get
  let p := portSite site
  let x := match (if fine then freeSub (getSiteState s p).carved2 else none) with
    | some x => some x
    | none => (s.fresh2 site).map fun f => (f, 0)
  match x with
  | none => return none
  | some (f, j) =>
    modSite p fun t =>
      { t with used2 := if t.used2.contains f then t.used2 else t.used2 ++ [f],
               carved2 := if fine then Store.set [] t.carved2 f (j :: Store.get [] t.carved2 f) else t.carved2 }
    return some (f * 2 ^ 21 + 1024 * j)

def freeTier2 (pa : Nat) (fine : Bool) : M Unit := do
  let p := if pa < 0x8000000000000 then 0 else 6
  let f := pa / 2 ^ 21
  let c2 := (getSiteState (← get) p).carved2
  let left := if fine then (Store.get [] c2 f).filter (· ≠ pa % 2 ^ 21 / 1024) else []
  modSite p fun t =>
    { t with carved2 := Store.set [] t.carved2 f left, used2 := if left.isEmpty then t.used2.filter (· ≠ f) else t.used2 }

/-! Tables (R217, R225). -/

/-- Takes a table of a die's TABLE frames, zeroed: its address, or none where no frame can be had (log 33). -/
def takeTable (who : Asker) (site : Nat) (fine : Bool) : M (Option Nat) := do
  let kind := if fine then 2 else 1
  let cap := if fine then 128 else 512
  let size := if fine then 16384 else 4096
  let t := getSiteState (← get) site
  match t.tables.find? fun x => x.2.1 = kind && x.2.2 < cap with
  | some (f, _, n) =>
    modSite site fun t => { t with tables := Store.set (0, 0) t.tables f (kind, n + 1) }
    return some (frameBase site f + size * n)
  | none =>
    match ← takeFrame who site with
    | none => return none
    | some f =>
      putState site f 4
      zeroPage (frameBase site f) (2 ^ 21)
      modSite site fun t => { t with tables := Store.set (0, 0) t.tables f (kind, 1) }
      return some (frameBase site f)

def entryAt (pa : Nat) : M W64 := do return BitVec.ofNat 64 ((← get).pocN pa 8)
def putEntry (pa v : Nat) : M Unit := modify fun s => s.pocPutBytes pa (natToBytes 8 v)

/-- What looking for the entry of a page gives. -/
inductive Found where
  | at_ (pa : Nat)
  | noFrame
  | badFormat
  deriving DecidableEq, Repr

/-- The level-0 entry, or the fine entry, of a page below a level-0 table, with the fine table made if it is missing. -/
def makeLeaf (who : Asker) (site : Nat) (fine : Bool) (va tab : Nat) : M Found := do
  let p0 := tab + 8 * (va / 2 ^ 21 % 512)
  if !fine then
    let e ← entryAt p0
    return if e.getLsbD 63 && e.getLsbD 59 then .badFormat else .at_ p0
  let e ← entryAt p0
  let leaf (t : Nat) : Found := .at_ (t + 8 * (va / 1024 % 2048))
  if e.getLsbD 63 then return if e.getLsbD 59 then leaf (field e 14 38 * 16384) else .badFormat
  if parkedState e 0 ≠ .unmapped then return .badFormat
  match ← takeTable who site true with
  | none => return .noFrame
  | some t =>
    putEntry p0 (2 ^ 63 + 2 ^ 59 + t)
    return leaf t

/-- The same below the root, with every missing table made. -/
def makeTables (who : Asker) (site : Nat) (fine : Bool) (va : Nat) : Nat → Nat → M Found
  | 0, tab => makeLeaf who site fine va tab
  | lvl + 1, tab => do
    let p := tab + 8 * (va / 2 ^ (21 + 9 * (lvl + 1)) % 512)
    let e ← entryAt p
    if e.getLsbD 63 then makeTables who site fine va lvl (field e 12 40 * 4096)
    else
      match ← takeTable who site false with
      | none => return .noFrame
      | some t =>
        putEntry p (2 ^ 63 + t)
        makeTables who site fine va lvl t

/-- A valid leaf entry: RD, WR and EX as bits 2, 1, 0; ACC; DTY clear. -/
def leafEntry (pa rights : Nat) (acc : Bool) : Nat := 2 ^ 63 + rights * 2 ^ 60 + (if acc then 2 ^ 57 else 0) + pa

/-- The domain that runs under an ASN. -/
def State.domainOfAsn (s : State) (asn : BitVec 12) : Option Nat :=
  s.sys.regions.find? fun r => s.rcbField r 1 56 1 = 1 && s.domAsn r = asn

/-- The entry of a page as its tables stand: the entry's address, the entry. -/
def State.entryOf (s : State) (dom va : Nat) (fine : Bool) : Option (Nat × W64) :=
  match s.walkFrom fine va 3 (s.domRoot dom) with
  | .leaf a e _ => some (a, e)
  | .miss a e l => if l = 0 || l = 4 then some (a, e) else none
  | .fail _ => none

/-! Fill and first touch (R224, R225). -/

/-- Steps 1 and 2 of a fill: the entry MOVING, a frame taken. Where another has begun the page, or no frame can be had,
nothing happens, and the waiting access walks again. -/
def beginFill (j : PageJob) : M Unit := do
  let s ← get
  match s.walk j.rcb j.core j.va with
  | .miss at_ e level =>
    let st := parkedState e level
    if st = .tier1 || st = .tier2 then
      let fine := level = 4
      match ← takePage j.who (siteOfCore j.core) fine (s.domAsn j.rcb) j.va 3 with
      | none => pure ()
      | some pa =>
        putEntry at_ (3 * 2 ^ 60 + pa)
        later (.fill { j with fine := fine, begun := true, src := field e 10 42 * 1024, dst := pa })
  | _ => pure ()

/-- Steps 3 to 5: the copy, the leaf, the record LIVE; the source is the record's BACK or is freed. -/
def endFill (j : PageJob) : M Unit := do
  let s ← get
  match s.entryOf j.rcb j.va j.fine with
  | none => pure ()
  | some (at_, e) =>
    if !e.getLsbD 63 && field e 60 3 = 3 && field e 10 42 * 1024 = j.dst then
      let n := pageSize j.fine
      if s.poisonIn j.src n then supInterrupt (clusterOf j.core) 2
      copyPage j.src j.dst n
      putEntry at_ (leafEntry j.dst (s.domRights j.rcb) true)
      let keeps := tier1 j.src && s.wmLow (tier1Of j.src).1 1 ≤ s.free1 (tier1Of j.src).1
      modPage j.dst j.fine fun r => recPutBack (recPut r 125 3 1) j.fine (if keeps then j.src else 0)
      if keeps then setLeaf1 j.src j.fine 0
      else if tier1 j.src then freeTier1 j.src j.fine
      else freeTier2 j.src j.fine

/-- FILL: its beginning, and then its end (R224). -/
def execFill (j : PageJob) (s : State) : Host.Outcome State Fault Refusal :=
  (if j.begun then endFill j else beginFill j).toOutcome s

/-- FIRST_TOUCH: missing tables, a zeroed page, its leaf, and the charge to MEM. -/
def execFirstTouch (j : PageJob) (s : State) : Host.Outcome State Fault Refusal :=
  (do
    let s ← get
    let site := siteOfCore j.core
    match s.walk j.rcb j.core j.va with
    | .miss _ e level =>
      if parkedState e level = .unmapped && s.domFirstTouch j.rcb && s.memFits j.region j.fine then
        match ← makeTables j.who site j.fine j.va 3 (s.domRoot j.rcb) with
        | .at_ leaf =>
          match ← takePage j.who site j.fine (s.domAsn j.rcb) j.va 1 with
          | none => pure ()
          | some pa =>
            zeroPage pa (pageSize j.fine)
            putEntry leaf (leafEntry pa (s.domRights j.rcb) false)
            addUsed j.region 5 (if j.fine then 1 else 2048)
            let n := pageSize j.fine
            modSys fun y =>
              { y with touched := { root := s.domRoot j.rcb, va := j.va / n * n, fine := j.fine, region := j.region } ::
                  y.touched }
        | _ => pure ()
    | _ => pure () : M Unit).toOutcome s

/-! Demotion (R222, R223, R226). -/

/-- A page of some domain's Picot ring (R222). -/
def State.picotPage (s : State) (lo n : Nat) : Bool :=
  s.sys.regions.any fun r =>
    let k := s.rcbField r 3 52 5
    let base := s.rcbField r 3 6 46 * 64
    k ≠ 0 && base < lo + n && lo < base + 64 + 16 * 2 ^ k

/-- An access that waits for a frame is bound to the page (R222, R228). -/
def State.boundPage (s : State) (lo n : Nat) : Bool :=
  s.sites.any fun t => t.2.starving.any fun x => x.bound.any fun p => lo ≤ p && p < lo + n

/-- The page of a frame or sub-frame is eligible as a victim (R222). -/
def State.eligible (s : State) (pa : Nat) (fine : Bool) : Bool :=
  let r := s.pageRec pa fine
  recState r = 1 && !r.getLsbD 124 && !r.getLsbD 123 && !s.picotPage pa (pageSize fine) && !s.boundPage pa (pageSize fine)

/-- The pages of a frame, ascending: its own, or those of its sub-frames in use. -/
def State.unitsOf (s : State) (site f : Nat) : List (Nat × Bool) :=
  let base := frameBase site f
  let subs := Store.get [] (getSiteState s site).carved f
  if subs.isEmpty then [(base, false)]
  else ((List.range 2048).filter fun j => subs.contains j).map fun j => (base + 1024 * j, true)

/-- The first `want` eligible pages of a circuit from frame `k` on, `fuel` frames to go. -/
def State.eligibles (s : State) (site : Nat) : Nat → Nat → Nat → List (Nat × Bool)
  | _, _, 0 => []
  | _, 0, _ => []
  | k, want + 1, fuel + 1 =>
    let l := ((s.unitsOf site (k % Config.tier0Frames)).filter fun u => s.eligible u.1 u.2).take (want + 1)
    l ++ s.eligibles site (k + 1) (want + 1 - l.length) fuel

/-- The victim: the lowest HEAT, the first scanned among equals, of the first 64 eligible pages from the hand on. -/
def State.victim (s : State) (site : Nat) : Option (Nat × Bool) :=
  let hand := (getSiteState s site).hand.1
  let f := hand / 2048
  let mine := (s.unitsOf site f).filter fun u => s.eligible u.1 u.2
  let at_ (u : Nat × Bool) : Bool := hand ≤ (u.1 - frameBase site 0) / 1024
  let l := (mine.filter at_ ++ s.eligibles site (f + 1) 64 (Config.tier0Frames - 1) ++ mine.filter fun u => !at_ u).take 64
  l.foldl (fun (b : Option (Nat × Bool)) u => match b with
    | none => some u
    | some g => if field (s.pageRec u.1 u.2) 119 4 < field (s.pageRec g.1 g.2) 119 4 then some u else some g) none

/-- Removes a page's translation from every cluster: TLB entries and path-cache lines (R226 step 4, R245). -/
def removePage (asn : BitVec 12) (va pa : Nat) (fine : Bool) : M Unit := do
  let page := va / pageSize fine
  for x in (← get).clusters do
    modCluster x.1 fun c => { c with tlb := c.tlb.filter fun t => !(t.asn = asn && t.fine = fine && t.page = page) }
  for cl in ((← get).clusters.map (·.1) ++ (← get).knownCores.map clusterOf).dedup do
    dropLines cl fun l => pa ≤ 64 * l.line && 64 * l.line < pa + pageSize fine

/-- A memory request that has not been performed at its home names an address (R241, R246). -/
def Ev.reqAt : Ev → Option Nat
  | .mreq _ r => some r.pa
  | .forwarded _ _ r => some r.pa
  | _ => none

/-- Accesses that were confirmed on a physical page and have not been performed: commands of matrix pairs, also of those
that are pre-empted, and memory requests on their way (R226 step 5, R302). -/
def State.pageBusy (s : State) (pa n : Nat) : Bool :=
  let names (p : MatPair) : Bool := p.queue.any fun q => q.pages.any fun g =>
    let len := if g.1 then 1024 else 2 ^ 21
    pa < g.2.2 + len && g.2.2 < pa + n
  (s.knownCores.any fun k => (s.core k).pair.any names || (s.core k).preempted.any fun p => p.pair.any names) ||
  (s.pending ++ s.timers.map (·.2)).any fun e => e.reqAt.any fun a => pa ≤ a && a < pa + n

/-- Steps 1 to 4 for a page of tier 0: its record CLOSING, a destination, its leaf MOVING, the translation removed. False
where no destination can be had. -/
def beginDemotion (pa : Nat) (fine : Bool) (leaf : Nat) (e : W64) : M Bool := do
  let s ← get
  let r := s.pageRec pa fine
  let back := recBack r fine
  let clean := back ≠ 0 && !e.getLsbD 56
  let dest ← if clean then do
      setLeaf1 back fine leaf
      pure (some back)
    else takeTier1 (frameOf pa).1 fine leaf
  match dest with
  | none => return false
  | some d =>
    modPage pa fine fun r => if clean then recPutBack (recPut r 125 3 2) fine 0 else recPut r 125 3 2
    if clean then modSite (frameOf pa).1 fun t => { t with vacating := pa :: t.vacating }
    putEntry leaf (3 * 2 ^ 60 + d)
    removePage (recAsn r) (recVa r fine) pa fine
    later (.drain pa fine)
    return true

/-- Demotions of tier 0 of a die that run. -/
def State.closing0 (s : State) (site : Nat) : Nat :=
  countNat (fun f => recState (s.record site f) = 2) 0 Config.tier0Frames +
  ((getSiteState s site).subs.filter fun x => recState x.2 = 2).length

/-- DEMOTION: one demotion of a tier-0 engine. -/
def execDemotion (site : Nat) (s : State) : Host.Outcome State Fault Refusal :=
  (do
    let s ← get
    if s.wmHigh site 0 ≤ s.freeCount site then modSite site fun t => { t with rounds := (false, t.rounds.2) }
    else if (getSiteState s site).rounds.1 && s.closing0 site < 8 then
      if s.retryDue site 0 then pure ()
      else if s.free1 site = 0 then tierFull site 0
      else
        match s.victim site with
        | none =>
          modSite site fun t => { t with rounds := (false, t.rounds.2) }
          raiseVector 2
        | some (pa, fine) =>
          let n := 2048 * Config.tier0Frames
          modSite site fun t => { t with hand := ((pa - frameBase site 0 + pageSize fine) / 1024 % n, t.hand.2) }
          let r := s.pageRec pa fine
          match (s.domainOfAsn (recAsn r)).bind fun dom => s.entryOf dom (recVa r fine) fine with
          | some (leaf, e) =>
            if e.getLsbD 63 then
              let _ ← beginDemotion pa fine leaf e
          | none => pure ()
          laterOnce (.demotion site) : M Unit).toOutcome s

/-- Steps 6 to 9 for a page of tier 0. -/
def endDemotion (pa : Nat) (fine : Bool) : M Unit := do
  let s ← get
  let site := (frameOf pa).1
  let r := s.pageRec pa fine
  match (s.domainOfAsn (recAsn r)).bind fun dom => s.entryOf dom (recVa r fine) fine with
  | some (leaf, e) =>
    let dest := field e 10 42 * 1024
    if (getSiteState s site).vacating.contains pa then modify fun s => s.flushPage pa (pageSize fine)
    else
      if s.poisonIn pa (pageSize fine) then supInterrupt (homeCluster leaf) 2
      copyPage pa dest (pageSize fine)
    putEntry leaf (2 ^ 60 + dest)
  | none => pure ()
  modSite site fun t => { t with vacating := t.vacating.filter (· ≠ pa) }
  freePage pa fine
  if (getSiteState (← get) site).rounds.1 then laterOnce (.demotion site) else checkLow site
  goTier1 site

/-- The same for a page of tier 1, which goes to tier 2. -/
def endDemotion1 (c : Closing) : M Unit := do
  let site := (tier1Of c.src).1
  modSite site fun t => { t with closing1 := t.closing1.filter (· ≠ c) }
  if (← get).poisonIn c.src (pageSize c.fine) then supInterrupt (homeCluster c.leaf) 2
  copyPage c.src c.dst (pageSize c.fine)
  putEntry c.leaf (2 * 2 ^ 60 + c.dst)
  freeTier1 c.src c.fine
  goTier1 site

/-- DRAIN: once every access confirmed on the page has been performed, the demotion ends (R226). -/
def execDrain (pa : Nat) (fine : Bool) (s : State) : Host.Outcome State Fault Refusal :=
  (do
    let s ← get
    if tier0 pa then
      if recState (s.pageRec pa fine) = 2 then
        if s.pageBusy pa (pageSize fine) then atCycle (s.clk.toNat + 1) (.drain pa fine)
        else endDemotion pa fine
    else match (getSiteState s (tier1Of pa).1).closing1.find? fun c => c.src = pa && c.fine = fine with
      | some c => endDemotion1 c
      | none => pure () : M Unit).toOutcome s

/-- TIER1_DEMOTION: a page parked in tier 1 begins to move to tier 2, with its leaf entry at `leaf` (R223, R226). Tier 2 is
exhausted when nothing is free, whatever its watermarks (DESIGN CHOICE, log 122). -/
def execTier1Demotion (site leaf : Nat) (fine : Bool) (s : State) : Host.Outcome State Fault Refusal :=
  (do
    let e ← entryAt leaf
    if parkedState e (if fine then 4 else 0) = .tier1 then
      match ← takeTier2 site fine with
      | none =>
        tierFull site 1
      | some dst =>
        let src := field e 10 42 * 1024
        putEntry leaf (3 * 2 ^ 60 + dst)
        modSite site fun t => { t with closing1 := t.closing1 ++ [{ leaf := leaf, src := src, dst := dst, fine := fine }] }
        later (.drain src fine)
        goTier1 site
    else goTier1 site : M Unit).toOutcome s

/-- TIER_EXHAUSTED_RETRY (R223). -/
def execTierExhaustedRetry (site tier : Nat) (s : State) : Host.Outcome State Fault Refusal :=
  (if tier = 0 then laterOnce (.demotion site) else goTier1 site).toOutcome s

/-! Starvation, heat, the Picot filter (R221, R229, R236). -/

/-- The tag of an asker's team. -/
def State.askerTag (s : State) : Asker → Option Nat
  | .ctx id => ((s.core id.core).team (Store.get .blank (s.core id.core).ctxs (seatIndex id.seat)).team).map (·.tag)
  | .transfer k e => (Store.get none (s.core k).shuttle e).map (·.team)
  | .prick _ t => some t
  | _ => none

/-- FRAME_STARVATION_TIMEOUT: the team of who is starved for longer than PATIENCE is killed with cause FRAMES. -/
def execFrameStarvationTimeout (who : Asker) (s : State) : Host.Outcome State Fault Refusal :=
  (do
    let s ← get
    match (getSiteState s (siteOfCore who.core)).starving.find? (fun x => x.who = who),
        (s.askerTag who).bind fun g => (s.core who.core).team g with
    | some x, some t =>
      let p := s.rcbField (s.domainOf t.rcb) 1 40 8
      if p ≠ 0 then
        if x.since + p * 65536 < s.clk.toNat then
          dropClaim who
          killTeam who.core t.tag 32
        else atCycle (x.since + p * 65536 + 1) (.frameTimeout who)
    | _, _ => pure () : M Unit).toOutcome s

/-- HEAT_HALVING: every HEAT of a die is halved. -/
def execHeatHalving (site : Nat) (s : State) : Host.Outcome State Fault Refusal :=
  (do
    -- only records that memory or a home slice lists can hold heat
    let s ← get
    let lo := recordAddr site 0
    let inside (a : Nat) : Bool := lo ≤ a && a < lo + 16 * Config.tier0Frames
    let homes := s.homes.flatMap fun h => h.2.filterMap fun x => x.2.map fun l => 64 * l.line
    let fs := ((s.mem.filter fun x => inside x.1).map (fun x => (x.1 - lo) / 16) ++
      (homes.filter inside).flatMap fun a => (List.range 4).map fun j => (a - lo) / 16 + j).dedup
    for f in fs do
      modRecord site f fun r => recPut r 119 4 (field r 119 4 / 2)
    modSite site fun t =>
      { t with subs := t.subs.map fun x => (x.1, recPut x.2 119 4 (field x.2 119 4 / 2)) } : M Unit).toOutcome s

/-- PICOT_FILTER_EXPIRY: entries taken 4,096 cycles ago are written to their rings. -/
def execPicotFilterExpiry (cluster _index : Nat) (s : State) : Host.Outcome State Fault Refusal :=
  (do
    let now := (← get).clk.toNat
    let old := (← getCluster cluster).picots.filter fun p => p.since + 4096 ≤ now
    modCluster cluster fun k => { k with picots := k.picots.filter fun p => !(p.since + 4096 ≤ now) }
    for p in old do writePicot cluster p : M Unit).toOutcome s

/-! Memory requests and walks of other agents (R200, R241, R246; log 34). -/

/-- The accessing context of a request gets its data. -/
def answerReq (r : MemReq) (data : List Byte) : M Unit := do
  let g := (← get).globalId
  sendFlit (homeCluster r.pa * 48) (g r.ctx.core) 2 (.mresp · r.ctx r.tok data)

/-- A home forwards a request to the core that owns its line (R246). -/
def forwardReq (core : Nat) (r : MemReq) : M Unit := do
  sendFlit (clusterCore0 (homeCluster r.pa)) ((← get).globalId core) 3 (.forwarded · core r)

/-- A request performed at its point of coherence: its answer. -/
def serveReq (r : MemReq) : M (List Byte) := do
  match r.kind with
  | .read n => readPhysBytes r.pa n
  | .write bs =>
    writePhysBytes r.pa bs
    return []
  | .atom op w64 v =>
    let n := if w64 then 8 else 4
    let old ← readPhys r.pa n
    modify fun s => s.homedAll r.pa n 0 true true
    let c := { Ctx.blank with mode := 0x100 }
    writePhys r.pa n (atomValue op.toNat (8 * n) c old v.toNat).1
    return natToBytes n old
  | .cas w64 want new =>
    let n := if w64 then 8 else 4
    let old ← readPhys r.pa n
    modify fun s => s.homedAll r.pa n 0 true true
    if old = want.toNat % 2 ^ (8 * n) then writePhys r.pa n (new.toNat % 2 ^ (8 * n))
    return natToBytes n old
  | .rbump =>
    let old ← readPhys r.pa 8
    modify fun s => s.homedAll r.pa 8 0 true true
    if old = 2 ^ 64 - 1 then return natToBytes 8 old
    writePhys r.pa 8 (old + 1)
    sendNotices r.pa (BitVec.ofNat 64 (old + 1))
    return natToBytes 8 (old + 1)

/-- The forward entry of a request's line is FILLING or CLOSING: the request waits at the home (R246). -/
def State.reqWaits (s : State) (r : MemReq) : Bool :=
  let st := field (s.fwdEntry r.pa) 72 2
  st = 1 || st = 3

/-- MREQ: a memory request at its home: performed there, forwarded to the owner's core, or waiting while the line is
changing hands. -/
def execMreq (h : Hdr) (r : MemReq) (s : State) : Host.Outcome State Fault Refusal :=
  (do
    if ← acceptFlit (homeCluster r.pa * 48) h (.mreq h r) then
      let s ← get
      if s.reqWaits r then atCycle (s.clk.toNat + 1) (.mreq { h with reinj := true } r)
      else match s.forwarded r.pa with
      | some (core, _) => forwardReq core r
      | none => answerReq r (← serveReq r) : M Unit).toOutcome s

/-- FORWARDED_ACCESS: the owner performs a request on its rows and answers (R246). -/
def execForwardedAccess (core : Nat) (r : MemReq) (s : State) : Host.Outcome State Fault Refusal :=
  (do
    let s ← get
    match s.forwarded r.pa with
    | some (k, _) => if k = core then answerReq r (← serveReq r) else forwardReq k r
    | none => answerReq r (← serveReq r) : M Unit).toOutcome s

/-- MRESP: an answer reaches the waiting context: the result with that number lands (R198). -/
def execMresp (h : Hdr) (c : CtxId) (tok : Nat) (data : List Byte) (s : State) : Host.Outcome State Fault Refusal :=
  (do
    if ← acceptFlit c.core h (.mresp h c tok data) then
      asCtx c (landIf fun p => p.tok = tok)
      swapSync c : M Unit).toOutcome s

/-- A walk asked for by a cluster, put in its queue of 32 misses, or merged into the miss to its page (R200). -/
def queueMiss (cluster : Nat) (q : MissReq) : M Bool := do
  let s ← get
  let k ← getCluster cluster
  if k.missq.any (s.oneMiss q) then
    modCluster cluster fun k => { k with missq := k.missq.map fun r => if s.oneMiss q r then { r with write := r.write || q.write } else r }
    return true
  if 32 ≤ k.missq.length then return false
  modCluster cluster fun k => { k with missq := k.missq ++ [q] }
  return true

/-- WALK_COMPLETE: a walk ends, for every miss merged into it: its leaf's ACC and DTY, and the cluster's TLB entry (R195,
R199, R200). -/
def execWalkComplete (cluster : Nat) (q : MissReq) (s : State) : Host.Outcome State Fault Refusal :=
  (do
    let s ← get
    let write := q.write || (Store.get Cluster.reset s.clusters cluster).missq.any fun r => s.oneMiss q r && r.write
    modCluster cluster fun k => { k with missq := k.missq.filter fun r => !s.oneMiss q r }
    match s.domainOfAsn q.asn with
    | none => pure ()
    | some dom =>
      if s.domRoot dom = q.root then
        let _ ← translate dom q.core q.va (if write then .write else .read) false : M Unit).toOutcome s

/-- MISS_QUEUE_RETRY: a miss that the full queue refused is offered again after 16 cycles (R200). -/
def execMissQueueRetry (cluster : Nat) (q : MissReq) (s : State) : Host.Outcome State Fault Refusal :=
  (do
    if ← queueMiss cluster q then later (.walk cluster q)
    else atCycle ((← get).clk.toNat + 16) (.missRetry cluster q) : M Unit).toOutcome s

end Sys2Proof.Machine
end

