-- ==== Sys2Proof/Machine/Sched.lean ====
section
/-! DEFINITION. Clause fetch, header waits, the pending set, the retries of waiting contexts and the power window
(02_clauses.md R24 to R33; 03_contexts.md R66 to R72; 01_package.md R19). -/

namespace Sys2Proof.Machine

/-! Clause fetch (R24, R26, R29, R31 to R33; 07_addresses.md R211, R212). -/

/-- A trap at the header, or at the index of a refetch. -/
def fetchTrap {α : Type} (cause detail : Nat) (addr : W64) : M α := do
  let p := (← getMe).curSlot
  throw (.trap { cause := cause, detail := detail, addr := addr, header := decide (pcIndex p.pc = 0), lanes := some p.mask })

/-- A line that a fetch brings into a cache, at position 0 (R33). -/
def State.fetchedLine (s : State) (line va : Nat) (bs : List Byte) : CLine :=
  { line := line, rrv := 0, dirty := 0, asn := s.domAsn s.myDomain, page := va / 1024, fine := s.inFine s.hereId (s.domAsn s.myDomain) va,
    bytes := bs }

/-- A fetch's line through the two caches, each filled from the next (R33), and the line's home. -/
def fetchLine (line va : Nat) : M Unit := do
  let cl ← myCluster
  let k ← getCluster cl
  let s ← get
  match cacheFind s.here.cclause clauseGeo line with
  | some _ => modHere fun c => { c with cclause := cacheHit c.cclause clauseGeo line }
  | none =>
    let bs ← match cacheFind k.iCache iGeo line with
      | some (_, l) => do
        modCluster cl fun k => { k with iCache := cacheHit k.iCache iGeo line }
        pure l.bytes
      | none => do
        let bs := s.pocBytes (64 * line) 64
        modify fun s => s.homed (64 * line) 0 true false
        modCluster cl fun k => { k with iCache := cachePut k.iCache iGeo (s.fetchedLine line va bs) }
        pure bs
    modHere fun c => { c with cclause := cachePut c.cclause clauseGeo (s.fetchedLine line va bs) }

/-- One word at a physical address through the clause cache and the cluster's instruction cache, each of which may still
hold old words (R32, log 9). -/
def fetchWord (pa va : Nat) : M W64 := do
  let s ← get
  let cur := s.pocBytes pa 8
  let part (l : Option (Nat × CLine)) : List Byte := match l with
    | some (_, l) => (l.bytes.drop (pa % 64)).take 8
    | none => []
  let old1 := part (cacheFind s.here.cclause clauseGeo (pa / 64))
  let old2 := part (cacheFind (← getCluster (← myCluster)).iCache iGeo (pa / 64))
  let pick (old : List Byte) (n : Nat) : Bool := old ≠ [] && old ≠ cur && Config.fetchStale s.ticks n
  if Place1.poisoned s (.phys pa 0 8) then fetchTrap 15 0 (BitVec.ofNat 64 va)
  fetchLine (pa / 64) va
  let bs := if pick old1 (2 * (pa / 8)) then old1 else if pick old2 (2 * (pa / 8) + 1) then old2 else cur
  return BitVec.ofNat 64 (bytesToNat bs)

/-- The word at CP × 8 + 8 i: from the core's own scratchpad in split mode, else through its translation. -/
def fetchAt (cp : W64) (i : Nat) : M W64 := do
  let s ← get
  let va := field cp 0 57 + 8 * i
  if !s.unified then
    if 0x18000 < va + 8 then fetchTrap 8 0 (BitVec.ofNat 64 va)
    if Place1.poisoned s (.row s.hereId va 8) then fetchTrap 15 0 (BitVec.ofNat 64 va)
    return BitVec.ofNat 64 (bytesToNat (s.rowBytes s.hereId va 8))
  else
    match ← translateMine (va % 2 ^ 57) .fetch true .fetch with
    | .ok pa => fetchWord pa va
    | .page d => fetchTrap 11 d (BitVec.ofNat 64 (va % 2 ^ 57))
    | .wait j =>
      match j with
      | some ev => askPage [] ev
      | none => pure ()
      hold .fetch

/-- A header that R26 refuses. -/
def headerBad (h : W64) (wave : Bool) : Bool :=
  field h 56 8 ≠ 0xF0 || 8 ≤ field h 52 4 || field h 0 40 ≠ 0 || (h.getLsbD 41 && field h 44 4 = 15) ||
  (field h 52 4 = 1 && !wave)

/-- Fetches the clause of the slot that issues into its buffer. -/
def fetchClause : M Unit := do
  let c ← getMe
  let p := c.curSlot
  let cp := pcAddr p.pc
  let h ← fetchAt cp 0
  if headerBad h c.isWave then fetchTrap 1 0 0
  let n := headerCount h
  if p.refetch && (n < pcIndex p.pc || p.cclass.toNat ≠ headerClass h) then fetchTrap 1 0 0
  let mut ws : List W64 := []
  for i in List.range (n + 1) do
    ws := ws ++ [← fetchAt cp (i + 1)]
  modSlot fun p =>
    { p with buf := some { header := h, words := ws, ready := decide (pcIndex p.pc ≠ 0) }, refetch := false }

/-- CLAUSE_FETCH, for the turn's context: until its next turn it waits on fetch (R33). -/
def execClauseFetch (s : State) : Host.Outcome State Fault Refusal :=
  settle { guard := 0 }
    (do
      fetchClause
      modMe fun c => { c with stall := .fetch }) s

/-! Header waits (R27). -/

/-- The first reason of R72's order for which a header's waits fail. -/
def State.headerFails (s : State) (h : W64) : Option Stall :=
  let t := field h 44 4
  if h.getLsbD 43 && s.loadsOpen then some .loadOp
  else if t ≠ 15 && t < (if h.getLsbD 41 then s.teamBatches else s.here.openBatches s.me) then some .shBatch
  else if h.getLsbD 40 && s.matrixOpen then some .matrixBusy
  else if h.getLsbD 42 && !s.messageHere then some .poll
  else none

/-- The turn's context evaluates the waits of its header; a wait for a message checks under the back-off of R71. -/
def headerWait : M Unit := do
  match (← getMe).curSlot.buf with
  | none => pure ()
  | some b =>
    if !b.ready then
      match (← get).headerFails b.header with
      | some .poll =>
        if !(← get).pollWaits then backOff
        hold .poll
      | some r => hold r
      | none =>
        if b.header.getLsbD 42 && (← get).pollWaits then hold .poll
        modMe fun c => { c with prog := { c.prog with backoff := 16, nextCheck := 0 } }
        modSlot fun p => { p with buf := p.buf.map fun b => { b with ready := true } }

/-- HEADER_WAIT. -/
def execHeaderWait (s : State) : Host.Outcome State Fault Refusal :=
  settle { guard := 0 } headerWait s

/-! The pending set (R66 to R68). -/

/-- What a slot's last turn reported. -/
def Ctx.stallOf (c : Ctx) (n : Nat) : Stall := if n = c.cur then c.stall else c.stall2

/-- The progress of a slot's instruction. -/
def Ctx.progOf (c : Ctx) (n : Nat) : Progress := if n = c.cur then c.prog else c.prog2

/-- Changes the progress of a slot's instruction. -/
def Ctx.modProgOf (c : Ctx) (n : Nat) (f : Progress → Progress) : Ctx :=
  if n = c.cur then { c with prog := f c.prog } else { c with prog2 := f c.prog2 }

/-- The header at which a slot of a pending wave waited. -/
def Ctx.movedAt (c : Ctx) (n : Nat) : Option W64 := if n = c.cur then c.moved else c.moved2

/-- The next check of a slot's poll is not due (R71). -/
def State.slotPollWaits (s : State) (n : Nat) : Bool := decide (s.clk.toNat < (s.me.progOf n).nextCheck)

/-- The wait of slot `n` of the turn's wave, moved to the pending set, is over: its results have landed, its word or
barrier requests are performed, its next check is due, or its header's waits hold. -/
def State.slotWakes (s : State) (n : Nat) : Bool :=
  let c := s.me
  let p := c.progOf n
  (c.slot n).live && !(c.slot n).waiting && !(c.pend.any fun q => p.met.contains q.tok) &&
  (match c.movedAt n with
   | some h => (s.headerFails h).isNone && !(h.getLsbD 42 && s.slotPollWaits n)
   | none =>
     if p.active then
       p.reqs.isEmpty && !s.slotPollWaits n &&
       !(s.knownCores.any fun k => (s.core k).waiters.any fun w =>
           some w.ctx.seat = s.seat && w.ctx.core = s.hereId && (c.slot n).mask.getLsbD w.lane)
     else true)

/-- Whether what moved a wave to the pending set is over. -/
def State.waveWakes (s : State) (id : CtxId) : Bool :=
  let t := s.switchTo id
  let c := t.me
  if c.halted.isSome then false
  else if c.yielded then true
  else match c.parked with
    | some p => t.parkWakes p.events || (match p.limit with | some n => decide (n ≤ t.clk.toNat) | none => false)
    | none => !(c.pend.any fun q => q.window = 0) && (t.slotWakes 0 || t.slotWakes 1)

/-- A pending wave whose header's wait for a message has been checked in vain backs off, slot by slot (R71). -/
def State.pollFailed (s : State) : Ctx :=
  (List.range 2).foldl
    (fun c n => match s.me.movedAt n with
      | some h =>
        if (s.me.slot n).live && s.headerFails h = some .poll && !s.slotPollWaits n then
          c.modProgOf n (·.failed s.clk.toNat)
        else c
      | none => c) s.me

/-- The ready waves of a core in the order in which they became ready, lower frame first in one cycle (R68). -/
def Core.readyOrder (k : Core) (now : Nat) : List (Nat × Nat) :=
  let ok (f : Nat) : Bool := let c := k.ctx (.frame f); c.present && c.place = .ready
  let old := k.readyq.filter fun e => ok e.2 && e.1 ≠ now
  old ++ ((List.range 32).filter fun f => ok f && !(old.any fun e => e.2 = f)).map fun f => (now, f)

/-- Pending waves whose wait is over become ready (R67, R68). -/
def settleReady (core : Nat) : M Unit := do
  for x in (← getCore core).ctxs do
    let s ← get
    if x.2.present && x.2.place = .pending then
      let id : CtxId := ⟨core, seatOf x.1⟩
      if s.waveWakes id then modCtx id fun c => { c with place := .ready }
      else modCtx id fun _ => (s.switchTo id).pollFailed
  let t := (← get).clk.toNat
  modCore core fun k => { k with readyq := k.readyOrder t }

/-- Slot `n` is free, at a join, or could not issue at its last turn for a reason of R67. -/
def Ctx.slotStuck (c : Ctx) (n : Nat) : Bool :=
  let w := c.stallOf n
  !(c.slot n).live || (c.slot n).waiting || w = .fullEmpty || w = .barrier ||
  (w = .poll && (c.progOf n).active) ||
  (match (c.slot n).buf with
   | some b => !b.ready && w ≠ .issued && w ≠ .fetch
   | none => false)

/-- An active wave that may be moved to the pending set: halted (R456), yielding or parked, with a result outstanding
after its lookahead has run out (R42), or with no slot that can issue (R67). -/
def Ctx.canLeave (c : Ctx) : Bool :=
  c.present && c.isWave && c.place = .active &&
  (c.halted.isSome || c.yielded || c.parked.isSome || (c.pend.any fun q => q.window = 0) ||
   (c.slotStuck 0 && c.slotStuck 1))

/-- The header at which a slot waits. -/
def PcSlot.waitHeader (p : PcSlot) : Option W64 :=
  match p.buf with
  | some b => if b.ready then none else some b.header
  | none => none

/-- The wave as it would stand in the pending set. -/
def Ctx.setAside (c : Ctx) : Ctx :=
  { c.discard with place := (if c.yielded then .ready else .pending), moved := c.curSlot.waitHeader,
                   moved2 := c.otherSlot.waitHeader }

/-- An active wave leaves its position: it may, and what holds it is not over (R67). -/
def State.leaves (s : State) (id : CtxId) : Bool :=
  let t := s.switchTo id
  t.me.canLeave && (t.me.yielded || !State.waveWakes { t with me := t.me.setAside } id)

/-- Moves an active wave to the pending set (R67); a yielding one is ready at once, behind the others (R83). -/
def swapOut (id : CtxId) (frame : Nat) : M Unit := do
  modCtx id Ctx.setAside
  swapStore id
  modCore id.core fun k =>
    { k with port := (if k.port = some frame then none else k.port), elig := Store.set none k.elig frame none }
  settleReady id.core
  laterOnce (.promotion id.core)

/-- SWAP_OUT: an active wave that waits is moved to the pending set while a pending wave is ready. -/
def execSwapOut (core frame : Nat) (s : State) : Host.Outcome State Fault Refusal :=
  (do
    settleReady core
    let id : CtxId := ⟨core, .frame frame⟩
    if (← get).leaves id && !(← getCore core).readyq.isEmpty then swapOut id frame : M Unit).toOutcome s

/-- PROMOTION: the oldest ready wave takes a free active position. One that became ready in this cycle waits for the next,
since others may still become ready in this one and go before it (R68). -/
def execPromotion (core : Nat) (s : State) : Host.Outcome State Fault Refusal :=
  (do
    settleReady core
    let k ← getCore core
    match k.readyq with
    | [] => pure ()
    | (since, f) :: rest =>
      if k.activeWaves < 8 then
        let now := (← get).clk.toNat
        if since < now then
          swapLoad ⟨core, .frame f⟩
          modCtx ⟨core, .frame f⟩ fun c => { c with place := .active, moved := none, moved2 := none, yielded := false, stall := .issued }
          modCore core fun k => { k with readyq := rest, ages := Store.set 0 k.ages f now }
          if !rest.isEmpty then laterOnce (.promotion core)
        else laterOnce (.promotion core) : M Unit).toOutcome s

/-! The power window (01_package.md R19). -/

/-- POWER_WINDOW: a window of 256 cycles begins. -/
def execPowerWindow (core : Nat) (s : State) : Host.Outcome State Fault Refusal :=
  (modCore core fun k => { k with nv := 0, nm := 0 }).toOutcome s

/-! Waiting contexts are tried again (R71, R84; 11_matrix.md R293; 13_rays.md R369). -/

/-- One thing after another, where the first goes on. -/
def andThen (o : Host.Outcome State Fault Refusal) (f : State → Host.Outcome State Fault Refusal) :
    Host.Outcome State Fault Refusal :=
  match o with
  | .next t => f t
  | o => o

/-- What a meaning does as another context, with the turn handed back. -/
def asTurn (c : CtxId) (f : State → Host.Outcome State Fault Refusal) (s : State) : Host.Outcome State Fault Refusal :=
  if s.seat = some c.seat ∧ s.hereId = c.core then f s else
  match f (s.switchTo c) with
  | .next t => .next (match s.seat with
    | some q => t.switchTo ⟨s.hereId, q⟩
    | none => t)
  | .fault e => .fault e
  | .refused e => .refused e

/-- The word that a slot's buffer holds at its index. -/
def PcSlot.word (p : PcSlot) : Option W64 :=
  match p.buf with
  | some b => if b.ready then b.words[pcIndex p.pc]? else none
  | none => none

/-- The team of the turn's context runs. -/
def State.teamRuns (s : State) : Bool :=
  match s.myTeam with
  | some t => t.started && !t.held && !t.exiting
  | none => s.me.team = 0

/-- The turn's context runs: active, not halted, of a team that runs, in a cluster that runs. -/
def State.mayIssue (s : State) : Bool :=
  s.me.present && s.me.place = .active && s.me.halted.isNone && s.teamRuns && s.sys.power = 0 &&
  !(Store.get Cluster.reset s.clusters (clusterOf s.hereId)).gated

/-- What a waiting slot tries again outside its turn (R71, R84; 11_matrix.md R293; 13_rays.md R369). -/
inductive Again where
  | word (i : Instr)
  | header
  deriving DecidableEq, Repr

/-- Slot n can issue: live and at no join. -/
def Ctx.runs (c : Ctx) (n : Nat) : Bool := (c.slot n).live && !(c.slot n).waiting

/-- What slot `n` of the turn's context waits with: the instruction at its pc, or its header. -/
def State.waitsWith (s : State) (n : Nat) : Option Again :=
  if s.me.runs n then
    match (s.me.slot n).buf with
    | none => none
    | some b =>
      if b.ready then ((s.me.slot n).word.bind fun w => decodeTableWord 64 w.toNat).map Again.word else some .header
  else none

/-- A slot of a context that may issue, no word supplied and no trap waiting, of which a test holds. -/
def State.waitingSlot (s : State) (p : Nat → Again → Bool) : Option (Nat × Again) :=
  if s.mayIssue && s.me.stepping.isNone && s.me.stepWord.isNone && s.me.trapping.isNone && s.me.latch.isEmpty then
    [s.me.cur, 1 - s.me.cur].findSome? fun n => (s.waitsWith n).bind fun a => if p n a then some (n, a) else none
  else none

/-- A context tries again, in the slot that waits, and the issue stays with the slot that had it. -/
def tryAgain (c : CtxId) (p : State → Nat → Again → Bool) (f : Again → State → Host.Outcome State Fault Refusal)
    (s : State) : Host.Outcome State Fault Refusal :=
  asTurn c (fun t =>
    match t.waitingSlot (p t) with
    | none => .next t
    | some (n, a) =>
      match f a { t with me := t.me.turnTo n } with
      | .next u => .next (if u.me.handler && !t.me.handler then u else { u with me := u.me.turnTo t.me.cur })
      | o => o) s

/-- A slot whose next check is due polls: a POLL, a wait for a message at WAITC or at a header. -/
def State.polls (s : State) (n : Nat) (a : Again) : Bool :=
  !s.slotPollWaits n &&
  match a with
  | .word (.poll _) | .word (.waitc _ _) | .header => true
  | _ => false

/-- POLL_RETRY: a POLL checks again, or a wait for a message (R71). -/
def execPollRetry (c : CtxId) (s : State) : Host.Outcome State Fault Refusal :=
  tryAgain c State.polls
    (fun a => match a with
     | .word (.poll m) => execPoll m
     | .word (.waitc g flags) => execWaitc g flags
     | _ => execHeaderWait) s

/-- PARK_LIMIT_EXPIRY: a parked context tests its limit (R84). -/
def execParkLimitExpiry (c : CtxId) (s : State) : Host.Outcome State Fault Refusal :=
  andThen
    (tryAgain c (fun _ _ a => match a with
       | .word (.park _ _ _) => true
       | _ => false)
      (fun a => match a with
       | .word (.park g a b) => execPark g a b
       | _ => .next) s)
    (settleReady c.core).toOutcome

/-- GATHER_TIMEOUT: an RPOP that gathers looks at its queue again (R369). -/
def execGatherTimeout (c : CtxId) (s : State) : Host.Outcome State Fault Refusal :=
  tryAgain c (fun _ _ a => match a with
      | .word (.rpop _ _ _ _ _ _ _) => true
      | _ => false)
    (fun a => match a with
     | .word (.rpop la g hits wait gather d a) => execRpop la g hits wait gather d a
     | _ => .next) s

/-- MPAIR_LIMIT_EXPIRY: an MPAIR lead looks at its pair and its limit again (R293). -/
def execMpairLimitExpiry (c : CtxId) (s : State) : Host.Outcome State Fault Refusal :=
  tryAgain c (fun _ _ a => match a with
      | .word (.mpairLead _ _ _) => true
      | _ => false)
    (fun a => match a with
     | .word (.mpairLead g d b) => execMpairLead g d b
     | _ => .next) s

/-- A result may land: no context of its core holds an older one of the same unit; of two of one cycle the wave's was
accepted first (R116). -/
def State.mayLand (s : State) (c : CtxId) (tok : Nat) : Bool :=
  let me := Store.get Ctx.blank (s.core c.core).ctxs (seatIndex c.seat)
  let mine := me.pend
  match mine.find? (·.tok = tok) with
  | none => false
  | some p =>
    p.unit = 0 ||
    (!(mine.any fun q => q.unit = p.unit && q.tok < p.tok) &&
     (s.core c.core).ctxs.all fun x => x.2.pend.all fun q =>
       q.unit ≠ p.unit || p.since < q.since || (p.since = q.since && (me.isWave || !x.2.isWave)))

/-- LOAD_RESULT: one long-latency result of a context lands (R91, R198); in the swap rows of a wave that is not active
(R67). -/
def execLoadResult (c : CtxId) (tok : Nat) (s : State) : Host.Outcome State Fault Refusal :=
  (if s.mayLand c tok then do
    asCtx c (landIf fun p => p.tok = tok)
    swapSync c
   else pure () : M Unit).toOutcome s

/-- A word that is no instruction (R36). -/
def rejectWord (w : W64) (s : State) : Host.Outcome State Fault Refusal :=
  settle { guard := w.extractLsb' 48 4, paired := decide (0x70 ≤ field w 56 8 ∧ field w 56 8 ≤ 0x72) }
    (do
      checkBreakpoints
      illegalInstruction) s

end Sys2Proof.Machine
end

