-- ==== Sys2Proof/Machine/System.lean ====
section
/-! DEFINITION. The system group but for LDPHY and STPHY: TRAP, TRET, system registers, segments, PGMAP, TLBI, ICINV,
CTXSV and CTXLD, with trap entry and the timer interrupt as events (16_traps.md R417 to R444; 07_addresses.md R191,
R196, R211; 08_residency.md R220; 12_mesh.md R328). -/

namespace Sys2Proof.Machine

/-! Operands: a wave's 64-bit operands are even uniform pairs (R437). -/

def State.sysSrc (s : State) (o : Opnd) : Bool :=
  match opOf o with
  | .k _ => if s.me.isWave then s.kPairOk o else s.srcOk false o
  | _ => s.srcOk false o

def sysSrcs (wave : Bool) (o : Opnd) : List Opnd :=
  match opOf o with
  | .k _ => if wave then [o, nextOpnd o] else [o]
  | _ => [o]

def State.sysVal (s : State) (i : Iss) (o : Opnd) : W64 :=
  match opOf o with
  | .k _ => if s.me.isWave then s.wide i o i.rep else s.val i false o i.rep
  | _ => s.val i false o i.rep

def State.sysDst (s : State) (o : Opnd) : Bool :=
  match opOf o with
  | .k _ => s.me.isWave && s.kPairOk o
  | _ => s.dstOk true false o

/-- Writes a 64-bit result. -/
def putWide (i : Iss) (d : Opnd) (v : W64) : M Unit := do
  match opOf d with
  | .k _ => applyAll ((← get).wideWrites d v)
  | _ => putScalar i d v

def dstRegs (wave : Bool) (d : Opnd) : List Nat := if wave then pairRegs wave d else opRegs wave d

/-- What an instruction of the group asks of its issue. -/
def sysReq (g : Guard) (srcs : List Opnd) (dsts : List Opnd) (wave : Bool) (form : State → Bool := fun _ => true) : Req :=
  { guard := g, cls := some 6, priv := some { cause := 3 }, form := form,
    ok := fun s => srcs.all s.sysSrc && dsts.all s.sysDst, srcs := srcs.flatMap (sysSrcs wave), dsts := dsts,
    regs := fun w => dsts.flatMap (dstRegs w) }

/-! TRAP and TRET (R427, R438). -/

/-- What TRAP asks of its issue. -/
def trapReq (g : Guard) (code : BitVec 16) : Req :=
  { guard := g, cls := some 6, priv := some { cause := 3, detail := 1, addr := code.setWidth 64 } }

/-- TRAP: PRIVILEGE with DETAIL 1 at user privilege, TRAP at supervisor privilege, TADDR the code. -/
def execTrap (g : Guard) (code : BitVec 16) (s : State) : Host.Outcome State Fault Refusal :=
  runIssue (trapReq g code)
    (fun _ => trapWith 16 0 (code.setWidth 64)) s

/-- The context as TRET restores it, at a program counter, with the lanes done and the token that its instruction keeps.
`refetch`: the clause there is compared with the discarded one (R31, log 16). -/
def Ctx.leaveTrap (c : Ctx) (k : Kept) (pc : W64) (done : BitVec 16) (tok : Option Bool := none) : Ctx :=
  let p := c.slot k.slot
  let rsd := field c.tcause 19 4
  let same := k.cls.isSome && (pcAddr pc = pcAddr k.pc || pcIndex pc ≠ 0)
  let q : PcSlot :=
    { p with pc := pc, mask := k.mask, depth := k.depth, waiting := k.waiting, rstk := p.rstk.drop (p.rstk.length - rsd),
             buf := none, refetch := same, cclass := k.cls.getD p.cclass, ccount := c.tcause.extractLsb' 27 4 }
  { (c.putSlot k.slot q) with
      cur := k.slot, mode := (c.tcause.extractLsb' 32 14).setWidth 32, handler := false, kept := none,
      prog := { Progress.none with done := done, tok := tok } }

/-- Leaves the handler: to the word after tpc0 with `skip`, else to tpc0. Operands latched by the trapping instruction serve
the next one that pops, also where the handler has changed tpc0 (R100; DESIGN CHOICE, log 99). -/
def leaveHandler (skip : Bool) : M Unit := do
  let c ← getMe
  match c.kept with
  | none => pure ()
  | some k =>
    if skip then
      let n := field c.tcause 27 4
      if pcIndex c.tpc0 < n then
        setMe { (c.leaveTrap k (mkPc c.tpc0 (pcIndex c.tpc0 + 1)) 0) with latch := [] }
      else
        setMe { (c.leaveTrap k c.tpc0 0) with latch := [] }
        arrive (wordsFrom c.tpc0 (BitVec.ofNat 64 (n + 2)))
    else
      setMe (if c.tpc0 = k.pc then c.leaveTrap k c.tpc0 k.done k.tok else c.leaveTrap k c.tpc0 0)
      if k.check && c.tpc0 = k.pc then arrive (pcAddr c.tpc0)

/-- TRET: 0 retry, 1 skip, 2 kill. -/
def tret (outcome : Nat) (g : Guard) (s : State) : Host.Outcome State Fault Refusal :=
  runCtl (sysReq g [] [] s.me.isWave)
    (fun _ => do
      let c ← getMe
      if !c.handler then illegalInstruction
      awaitAll .trapEntry
      if outcome = 2 || (outcome = 1 && c.tcause.getLsbD 31) then return killMine (field c.tcause 0 8)
      return leaveHandler (outcome = 1)) s

def execTretRetry (g : Guard) (s : State) : Host.Outcome State Fault Refusal := tret 0 g s
def execTretSkip (g : Guard) (s : State) : Host.Outcome State Fault Refusal := tret 1 g s
def execTretKill (g : Guard) (s : State) : Host.Outcome State Fault Refusal := tret 2 g s

/-! System registers (R436, R439). -/

/-- A trap register of a context. -/
def Ctx.trapReg (c : Ctx) (n : Nat) : W64 :=
  match n with
  | 0 => c.tpc0
  | 1 => c.tpc1
  | 2 => c.tcause
  | 3 => c.taddr
  | 4 => c.tmask
  | _ => c.tspare

/-- LIVE of CL_FLAGS (05_lanes.md R127): the flags of every context of a cluster. -/
def State.liveFlags (s : State) (cl : Nat) : BitVec 5 :=
  (s.knownCores.filter fun k => clusterOf k = cl).foldl (fun f k =>
    (s.core k).ctxs.foldl (fun f x => if x.2.present then f ||| x.2.mode.setWidth 5 else f) f) 0

/-- SITE_TOPO (01_package.md R15). -/
def State.siteTopo (s : State) (site : Nat) : W64 :=
  BitVec.ofNat 64
    ((getSiteState s site).topoMesh.toNat * 2 ^ 40 + Config.spareRow * 2 ^ 35 + site % 3 * 2 ^ 26 + site / 3 * 2 ^ 24 +
     site % 3 * 14 * 2 ^ 8 + site / 3 * 20)

/-- Pinned tier-0 frames of a die. -/
def State.pinnedFrames (s : State) (site : Nat) : Nat :=
  countNat (fun f => (s.record site f).getLsbD 124) 0 Config.tier0Frames

/-- TIERn_STAT (08_residency.md R220). -/
def State.tierStat (s : State) (site tier : Nat) : W64 :=
  let t := getSiteState s site
  match tier with
  | 0 => BitVec.ofNat 64
      (t.reserve.length % 256 * 2 ^ 56 + (if t.granted.isSome then 2 ^ 55 else 0) + s.pinnedFrames site * 2 ^ 32 + s.freeCount site)
  | 1 => BitVec.ofNat 64 (s.free1 site)
  | _ => BitVec.ofNat 64 (s.free2 site % 2 ^ 32)

/-- The site whose register of a tier a core names: its own, or its port's. -/
def tierSite (core tier : Nat) : Nat := if tier = 2 then portSite (siteOfCore core) else siteOfCore core

/-- A half of a 128-bit entry. -/
def halfOf (v : BitVec 128) (n : Nat) : W64 := v.extractLsb' (64 * (n % 2)) 64

/-- The registers of the map as MFS reads them; none for an index not listed. -/
def State.sysRead (s : State) (grp index : Nat) : Option W64 :=
  let h := s.here
  let k := Store.get Cluster.reset s.clusters (clusterOf s.hereId)
  match grp with
  | 0 => if index < 6 then some (s.me.trapReg index) else none
  | 1 => if index < 4 then some (h.sysReg index) else none
  | 2 => if index < 6 then some (Store.get 0 h.bfmt index) else none
  | 3 => if index < 8 then some (Store.get 0 h.pgsel index) else none
  | 4 => if index < 64 then some (halfOf (Store.get Prick.reset h.pricks (index / 2)).word index) else none
  | 5 => if index < 16 then some (halfOf (Store.get 0 h.watch (index / 2)) index) else none
  | 6 =>
    if index = 0 then some (BitVec.ofNat 64 (k.hist.toNat * 256 + (s.liveFlags (clusterOf s.hereId)).toNat))
    else if index = 1 then some (if k.split then 1 else 0)
    else if index = 2 then some k.ovf
    else if index = 4 then some k.irq
    else if index = 5 then some k.irqe
    else none
  | 7 =>
    if index = 0 then some (s.siteTopo (siteOfCore s.hereId))
    else if index < 4 then some (Store.get 0 (getSiteState s (tierSite s.hereId (index - 1))).wm (index - 1))
    else if index < 7 then some (s.tierStat (tierSite s.hereId (index - 4)) (index - 4))
    else none
  | _ => none

/-- MFS. -/
def execMfs (g : Guard) (grp : Byte) (index : BitVec 10) (d : Opnd) (s : State) : Host.Outcome State Fault Refusal :=
  runIssue (sysReq g [] [d] s.me.isWave (fun s => (s.sysRead grp.toNat index.toNat).isSome))
    (fun i => do putWide i d (((← get).sysRead grp.toNat index.toNat).getD 0)) s

/-- What `ClOvfsRead` asks of its issue. -/
def clOvfsReadReq (g : Guard) (d : Opnd) (s : State) : Req :=
  (sysReq g [] [d] s.me.isWave)

/-- CL_OVFS: USED, and PARKED, which the read clears (12_mesh.md R328). -/
def clOvfsReadBody (d : Opnd) (i : Iss) : M Unit := do
  let cl ← myCluster
  let k ← getCluster cl
  modCluster cl fun k => { k with ovfParked := 0 }
  putWide i d (BitVec.ofNat 64 (k.parked.length % 2 ^ 21 * 2 ^ 32 + k.ovfParked.toNat))

def execClOvfsRead (g : Guard) (d : Opnd) (s : State) : Host.Outcome State Fault Refusal :=
  runIssue (clOvfsReadReq g d s) (clOvfsReadBody d) s

/-- Registers that MTS writes with no row of their own; CL_OVFS, whose fields software does not write, ignores it
(00_scope.md R7). -/
def mtsWritable (grp index : Nat) : Bool :=
  (grp = 0 && (index = 0 || index = 2 || index = 5)) || (grp = 1 && 1 ≤ index && index < 4) ||
  (grp = 6 && (index = 0 || index = 3 || index = 4 || index = 5))

/-- A value that such a register may be given: TMODE's rounding mode exists, and ITGT names a slot. -/
def sysValueOk (grp index : Nat) (v : W64) : Bool :=
  match grp, index with
  | 0, 2 => rmLegal (field v 40 3)
  | 1, 1 | 1, 2 => true
  | 1, _ => field v 0 5 < 16
  | _, _ => true

/-- The write of such a register. -/
def sysWrite (grp index : Nat) (v : W64) : M Unit := do
  needOperand (sysValueOk grp index v)
  let cl ← myCluster
  match grp, index with
  | 0, 0 => modMe fun c => { c with tpc0 := v &&& pcBits }
  | 0, 2 => modMe fun c => { c with tcause := putTmode c.tcause ((v.extractLsb' 32 14).setWidth 32) }
  | 0, _ => modMe fun c => { c with tspare := v }
  | 1, 1 => modHere fun c => { c with tvec := v &&& 0x81FFFFFFFFFFFFF8 }
  | 1, 2 => modHere fun c => { c with tcmp := v }
  | 1, _ => modHere fun c => { c with itgt := v &&& 0x3F }
  | _, 0 => modCluster cl fun k => { k with hist := k.hist &&& ~~~(v.extractLsb' 8 5) }
  | _, 3 => pure ()
  | _, 4 => modCluster cl fun k => { k with irq := v &&& 0x80000000003FFFFF }
  | _, _ => modCluster cl fun k => { k with irqe := v }

/-- An MTS: its operand read, then the register's own rules. -/
def mtsWith (g : Guard) (a : Opnd) (form : State → Bool) (f : W64 → M Unit) (s : State) : Host.Outcome State Fault Refusal :=
  runIssue (sysReq g [a] [] s.me.isWave form) (fun i => do f ((← get).sysVal i a)) s

/-- MTS to a register with no behaviour of its own. -/
def execMts (g : Guard) (grp : Byte) (index : BitVec 10) (a : Opnd) (s : State) : Host.Outcome State Fault Refusal :=
  mtsWith g a (fun _ => mtsWritable grp.toNat index.toNat) (sysWrite grp.toNat index.toNat) s

/-- CCTL (03_contexts.md R57). -/
def execCctlWrite (g : Guard) (a : Opnd) (s : State) : Host.Outcome State Fault Refusal :=
  mtsWith g a (fun _ => true) (fun v => modHere fun c => { c with cctl := v &&& 1 }) s

/-- BFMT (06_scratchpad.md R165 to R167); indexes 6 and 7 are not listed. -/
def execBfmtWrite (g : Guard) (n : BitVec 3) (a : Opnd) (s : State) : Host.Outcome State Fault Refusal :=
  mtsWith g a (fun _ => decide (n.toNat < 6)) (fun v => do
    needOperand (field v 0 4 < 8)
    modHere fun c =>
      { c with bfmt := Store.set 0 c.bfmt n.toNat ((Store.get 0 c.bfmt n.toNat &&& 0x30) ||| (v &&& 0xF)) }) s

/-- Two enabled page-size regions overlap (07_addresses.md R196). -/
def pgselOverlap (a b : W64) : Bool :=
  a.getLsbD 63 && b.getLsbD 63 && field a 51 12 = field b 51 12 &&
  field a 0 36 ≤ field b 0 36 + field b 36 15 && field b 0 36 ≤ field a 0 36 + field a 36 15

/-- PGSEL (07_addresses.md R196). A value with EN = 0 names no range in use and is not checked (DESIGN CHOICE, log
102). -/
def execPgselWrite (g : Guard) (n : BitVec 3) (a : Opnd) (s : State) : Host.Outcome State Fault Refusal :=
  mtsWith g a (fun _ => true) (fun v => do
    let h ← getHere
    let others := (List.range 8).filter (· ≠ n.toNat)
    needOperand (!(others.any fun j => pgselOverlap v (Store.get 0 h.pgsel j)) &&
      !(v.getLsbD 63 && 2 ^ 36 ≤ field v 0 36 + field v 36 15))
    modHere fun c => { c with pgsel := Store.set 0 c.pgsel n.toNat v }) s

/-- A team is placed in a cluster. -/
def State.clusterTeams (s : State) (cl : Nat) : Bool :=
  s.knownCores.any fun k => clusterOf k = cl && !(s.core k).teams.isEmpty

/-- Empties the TLB and the clause caches of a cluster. -/
def flushCluster (cl : Nat) : M Unit := do
  modCluster cl fun k => { k with tlb := [], iCache := [] }
  for k in (← get).knownCores do
    if clusterOf k = cl then modCore k fun c => { c with cclause := [] }

/-- CL_AMODE (R211). -/
def execClAmodeWrite (g : Guard) (a : Opnd) (s : State) : Host.Outcome State Fault Refusal :=
  mtsWith g a (fun _ => true) (fun v => do
    let cl ← myCluster
    if (← getCluster cl).split ≠ v.getLsbD 0 then
      needOperand !((← get).clusterTeams cl)
      modCluster cl fun k => { k with split := v.getLsbD 0 }
      flushCluster cl) s

/-- TIERn_WM (R220). -/
def execTierWmWrite (g : Guard) (tier : BitVec 2) (a : Opnd) (s : State) : Host.Outcome State Fault Refusal :=
  mtsWith g a (fun _ => decide (tier.toNat < 3)) (fun v => do
    needOperand (field v 0 32 ≤ field v 32 32)
    let site := tierSite (← get).hereId tier.toNat
    modSite site fun t => { t with wm := Store.set 0 t.wm tier.toNat v }
    if tier = 0 then checkLow site else if tier = 1 then checkLow1 site) s

/-- CL_OVF (R328). -/
def execClOvfWrite (g : Guard) (a : Opnd) (s : State) : Host.Outcome State Fault Refusal :=
  mtsWith g a (fun _ => true) (fun v => do
    let cl ← myCluster
    let n := field v 52 6
    needOperand ((n = 0 || (6 ≤ n && n ≤ 20)) && (← getCluster cl).parked.isEmpty)
    modCluster cl fun k => { k with ovf := v &&& 0x03FFFFFFFFFFFFC0, ovfRaised := false }) s

/-! Segments (R440, R191). -/

/-- What `Segw` asks of its issue. -/
def segwReq (g : Guard) (a : Opnd) (b : Opnd) (s : State) : Req :=
  (sysReq g [a, b] [] s.me.isWave)

def segwBody (_g : Guard) (n : BitVec 3) (a : Opnd) (b : Opnd) (i : Iss) : M Unit := do
  let s ← get
  let v : BitVec 128 := s.sysVal i b ++ s.sysVal i a
  needOperand (segValueOk v)
  modMe fun c => { c with g := Store.set 0 c.g n.toNat v }

def execSegw (g : Guard) (n : BitVec 3) (a b : Opnd) (s : State) : Host.Outcome State Fault Refusal :=
  runIssue (segwReq g a b s) (segwBody g n a b) s

/-- What `Segr` asks of its issue. -/
def segrReq (g : Guard) (d : Opnd) (s : State) : Req :=
  (sysReq g [] [d] s.me.isWave)

def segrBody (n : BitVec 3) (hi : Bool) (d : Opnd) (i : Iss) : M Unit := do
  putWide i d (halfOf ((← getMe).seg n.toNat) (if hi then 1 else 0))

def execSegr (g : Guard) (n : BitVec 3) (hi : Bool) (d : Opnd) (s : State) : Host.Outcome State Fault Refusal :=
  runIssue (segrReq g d s) (segrBody n hi d) s

/-! PGMAP (R441). The order of its statuses where several apply is the model's (log 35). -/

/-- The entry of a page as its tables stand, with whether it is a fine one. -/
def State.leafAny (s : State) (dom va : Nat) : Walk :=
  match s.walkFrom false va 3 (s.domRoot dom) with
  | .fail d => if d = 2 then s.walkFrom true va 3 (s.domRoot dom) else .fail d
  | w => w

/-- Runs an op of PGMAP on the domain that c names. -/
def pgmap (g : Guard) (d : Opnd) (srcs : List Opnd) (a c : Opnd) (op : Iss → Nat → Nat → M Nat) (s : State) :
    Host.Outcome State Fault Refusal :=
  runIssue (sysReq g srcs [d] s.me.isWave)
    (fun i => do
      let s ← get
      let va := field (s.sysVal i a) 0 57
      match s.domainOfAsn ((s.sysVal i c).setWidth 12) with
      | none => putWide i d 2
      | some dom => putWide i d (BitVec.ofNat 64 (← op i dom va))) s

/-- Pinning a page that is not pinned would pass the limit of its die (08_residency.md R228); one more sub-frame of a frame
that has PIN pins no more. -/
def State.pinFull (s : State) (pa : Nat) (fine : Bool) : Bool :=
  let x := frameOf pa
  let tables := countNat (fun f => recState (s.record x.1 f) = 4) 0 Config.tier0Frames
  !(fine && (s.record x.1 x.2).getLsbD 124) && 49152 - 64 - tables - 64 < s.pinnedFrames x.1 + 1

/-- The physical page that PGMAP map names is free. -/
def State.pageFree (s : State) (pa : Nat) (fine : Bool) : Bool :=
  let x := frameOf pa
  let st := recState (s.record x.1 x.2)
  st = 0 && !(getSiteState s x.1).reserve.contains x.2 ||
  (fine && st = 5 && !(Store.get [] (getSiteState s x.1).carved x.2).contains (pa % 2 ^ 21 / 1024))

/-- A table that PGMAP map must make finds no frame: the context has the grant of the reserve, or is starved (R228). -/
def askTable (dom va : Nat) (fine : Bool) : M Unit := do
  let s ← get
  let st := siteOfCore s.hereId
  let who : Asker := .ctx (← myId)
  let t := getSiteState s st
  let j : PageJob :=
    { core := s.hereId, rcb := dom, va := va, fine := fine, who := who, region := dom, begun := false, src := 0, dst := 0 }
  let first := ((t.starving.find? fun x => !x.full).map (·.who)).all (· = who)
  if t.granted.isNone && first then
    modMe fun c => { c with grant := true, starved := none }
    modSite st fun t => { t with granted := some who, starving := t.starving.filter fun x => x.who ≠ who }
  else starve who s.me.team [] false j

/-- A frame or a sub-frame is in use, with its record. -/
def usePage (pa : Nat) (fine : Bool) (r : BitVec 128) : M Unit := do
  let x := frameOf pa
  if fine then
    if recState ((← get).record x.1 x.2) ≠ 5 then putState x.1 x.2 5
    modSite x.1 fun t =>
      { t with carved := Store.set [] t.carved x.2 (pa % 2 ^ 21 / 1024 :: Store.get [] t.carved x.2) }
  modPage pa fine fun _ => r

/-- The op map: what it answers. -/
def pgmapMapOp (b : Opnd) (i : Iss) (dom va : Nat) : M Nat := do
  let s ← get
  let v := s.sysVal i b
  let fine := v.getLsbD 4
  let pin := v.getLsbD 3
  let pa := field v 10 42 * 1024
  if v &&& 0xFFF00000000003E0 ≠ 0 || !tier0 pa || pa % pageSize fine ≠ 0 then return 4
  let x := frameOf pa
  match ← makeTables (.ctx (← myId)) (siteOfCore s.hereId) fine va 3 (s.domRoot dom) with
  | .badFormat => return 4
  | .noFrame =>
    askTable dom va fine
    hold .loadOp { agent := true, alone := true }
  | .at_ leaf =>
    let e ← entryAt leaf
    if e.getLsbD 63 || parkedState e (if fine then 4 else 0) ≠ .unmapped || !(← get).pageFree pa fine then return 1
    if pin && (← get).pinFull pa fine then return 3
    usePage pa fine (pageWord 1 pin (s.domAsn dom) va fine)
    zeroPage pa (pageSize fine)
    putEntry leaf (leafEntry pa (field v 0 3) false + (if pin then 2 ^ 58 else 0))
    checkLow x.1
    return 0

def execPgmapMap (g : Guard) (d a b c : Opnd) (s : State) : Host.Outcome State Fault Refusal :=
  pgmap g d [a, b, c] a c (fun i dom va => pgmapMapOp b i dom va) s

/-- Ops on a page that must be LIVE. -/
def onLeaf (dom va : Nat) (f : Nat → W64 → Bool → Nat → M Nat) : M Nat := do
  match (← get).leafAny dom va with
  | .leaf at_ e fine => f at_ e fine (if fine then field e 10 42 * 1024 else field e 21 31 * 2 ^ 21)
  | .miss .. => return 1
  | .fail _ => return 4

/-- What a leaf and its frame hold of a bit PIN. -/
def setPin (at_ pa : Nat) (e : W64) (fine b : Bool) : M Unit := do
  putEntry at_ (if b then e ||| 0x0400000000000000 else e &&& 0xFBFFFFFFFFFFFFFF).toNat
  if tier0 pa then modPage pa fine fun r => recPut r 124 1 (if b then 1 else 0)

/-- MEM is credited for a mapping that a first touch charged (15_work.md R394). -/
def creditTouch (root va : Nat) (fine : Bool) : M Unit := do
  let page := va / pageSize fine * pageSize fine
  let mine (x : Touched) : Bool := x.root = root && x.va = page && x.fine = fine
  match (← get).sys.touched.find? mine with
  | some x =>
    addUsed x.region 5 (if fine then -1 else -2048)
    modSys fun y => { y with touched := y.touched.filter fun x => !mine x }
  | none => pure ()

/-- The op unmap on a leaf: what it answers. A page with HELD waits until no pricking entry covers it, since its rows would
go back to a freed frame (R227; DEDUCED, log 111). -/
def pgmapUnmapOp (dom va : Nat) (at_ : Nat) (_ : W64) (fine : Bool) (pa : Nat) : M Nat := do
  let s ← get
  let n := pageSize fine
  if tier0 pa && recState (s.pageRec pa fine) ≠ 1 then return 1
  if s.pageBusy pa n || (tier0 pa && (s.pageRec pa fine).getLsbD 123) then hold .loadOp { agent := true, alone := true }
  putEntry at_ 0
  removePage (s.domAsn dom) va pa fine
  if tier0 pa then
    modify fun s => s.discardHome fun l => pa ≤ 64 * l.line && 64 * l.line < pa + n
    freePage pa fine
  creditTouch (s.domRoot dom) va fine
  return 0

def execPgmapUnmap (g : Guard) (d a b c : Opnd) (s : State) : Host.Outcome State Fault Refusal :=
  pgmap g d [a, b, c] a c (fun _ dom va => onLeaf dom va (pgmapUnmapOp dom va)) s

/-- The op pin on a leaf: what it answers. -/
def pgmapPinOp (_dom _va : Nat) (at_ : Nat) (e : W64) (fine : Bool) (pa : Nat) : M Nat := do
  if !e.getLsbD 58 && tier0 pa && (← get).pinFull pa fine then return 3
  setPin at_ pa e fine true
  return 0

def execPgmapPin (g : Guard) (d a b c : Opnd) (s : State) : Host.Outcome State Fault Refusal :=
  pgmap g d [a, b, c] a c (fun _ dom va => onLeaf dom va (pgmapPinOp dom va)) s

/-- The op unpin on a leaf: what it answers. -/
def pgmapUnpinOp (_dom _va : Nat) (at_ : Nat) (e : W64) (fine : Bool) (pa : Nat) : M Nat := do
  setPin at_ pa e fine false
  return 0

def execPgmapUnpin (g : Guard) (d a b c : Opnd) (s : State) : Host.Outcome State Fault Refusal :=
  pgmap g d [a, b, c] a c (fun _ dom va => onLeaf dom va (pgmapUnpinOp dom va)) s

/-- The op demote on a leaf: what it answers. It waits while the engine runs its 8 demotions (R222). -/
def pgmapDemoteOp (_dom _va : Nat) (at_ : Nat) (e : W64) (fine : Bool) (pa : Nat) : M Nat := do
  let r := (← get).pageRec pa fine
  if !tier0 pa || e.getLsbD 58 || r.getLsbD 123 || recState r ≠ 1 || r.getLsbD 124 then return 1
  if 8 ≤ (← get).closing0 (frameOf pa).1 then hold .loadOp { agent := true, alone := true }
  return if ← beginDemotion pa fine at_ e then 0 else 1

def execPgmapDemote (g : Guard) (d a b c : Opnd) (s : State) : Host.Outcome State Fault Refusal :=
  pgmap g d [a, b, c] a c (fun _ dom va => onLeaf dom va (pgmapDemoteOp dom va)) s

/-! TLBI and ICINV (R442, R443). -/

/-- The known clusters of a scope: 2 own cluster, 3 die, 4 and 5 the package. -/
def State.scopeClusters (s : State) (scope : Nat) : List Nat :=
  let me := clusterOf s.hereId
  let all := (me :: (s.clusters.map (·.1) ++ s.knownCores.map clusterOf)).dedup
  if scope ≤ 2 then [me] else if scope = 3 then all.filter fun c => siteOfCluster c = siteOfCluster me else all

def tlbMatches (kind : Nat) (asn : BitVec 12) (va : Nat) (t : Tlb) : Bool :=
  kind = 0 || (t.asn = asn && (kind = 1 || t.page = va / pageSize t.fine))

/-- A path-cache line's tags match; kind 2 takes the page of the translation that filled it. -/
def lineMatches (kind : Nat) (asn : BitVec 12) (va : Nat) (l : CLine) : Bool :=
  kind = 0 || (l.asn = asn && (kind = 1 || (if l.fine then l.page = va / 1024 else l.page / 2048 = va / 2 ^ 21)))

/-- What `Tlbi` asks of its issue. -/
def tlbiReq (g : Guard) (kind : BitVec 2) (scope : BitVec 3) (a : Opnd) (b : Opnd) (s : State) : Req :=
  (sysReq g [a, b] [] s.me.isWave (fun _ => decide (kind.toNat < 3 ∧ 2 ≤ scope.toNat ∧ scope.toNat ≤ 5)))

def tlbiBody (kind : BitVec 2) (scope : BitVec 3) (a : Opnd) (b : Opnd) (i : Iss) : M Unit := do
  landUniform
  let s ← get
  let va := field (s.sysVal i a) 0 57
  let asn : BitVec 12 := (s.sysVal i b).setWidth 12
  let cls := s.scopeClusters scope.toNat
  let out := cls.flatMap fun cl =>
    (Store.get Cluster.reset s.clusters cl).tlb.filter (tlbMatches kind.toNat asn va)
  if out.any fun t => s.pageBusy t.frame (pageSize t.fine) then hold .loadOp
  for cl in cls do
    modCluster cl fun k => { k with tlb := k.tlb.filter fun t => !tlbMatches kind.toNat asn va t }
    dropLines cl (lineMatches kind.toNat asn va)

def execTlbi (g : Guard) (kind : BitVec 2) (scope : BitVec 3) (a b : Opnd) (s : State) :
    Host.Outcome State Fault Refusal :=
  runIssue (tlbiReq g kind scope a b s) (tlbiBody kind scope a b) s

/-- A clause-cache line overlaps a virtual range. -/
def lineOverlaps (lo n : Nat) (l : CLine) : Bool :=
  let va := l.page * 1024 + 64 * l.line % 1024
  va < lo + n && lo < va + 64

/-- What `Icinv` asks of its issue. -/
def icinvReq (g : Guard) (scope : BitVec 3) (all : Bool) (a : Opnd) (b : Opnd) (s : State) : Req :=
  (sysReq g (if all then [] else [a, b]) [] s.me.isWave
    (fun _ => decide (1 ≤ scope.toNat ∧ scope.toNat ≤ 5) && (!all || (zeroOpnd a && zeroOpnd b))))

def icinvBody (scope : BitVec 3) (all : Bool) (a : Opnd) (b : Opnd) (i : Iss) : M Unit := do
  let s ← get
  let va := field (s.sysVal i a) 0 57
  let n := (s.sysVal i b).toNat
  if !all then needOperand (1 ≤ n && n ≤ 2097152)
  landUniform
  let dom := s.myDomain
  let pages := if all then [] else
    (List.range ((va + n - 1) / 1024 - va / 1024 + 1)).filterMap fun j =>
      match s.walk dom s.hereId ((va / 1024 + j) * 1024) with
      | .leaf _ e fine =>
        some (if fine then field e 10 42 else (field e 21 31 * 2048 + (va / 1024 + j) % 2048))
      | _ => none
  let keep (m : Cache) : Cache :=
    cacheDrop m fun l => all || lineOverlaps va n l || pages.contains (64 * l.line / 1024)
  if scope = 1 then modHere fun c => { c with cclause := keep c.cclause }
  for cl in s.scopeClusters scope.toNat do
    modCluster cl fun k => { k with iCache := keep k.iCache }
    if scope ≠ 1 then
      for k in s.knownCores do
        if clusterOf k = cl then modCore k fun c => { c with cclause := keep c.cclause }

def execIcinv (g : Guard) (scope : BitVec 3) (all : Bool) (a b : Opnd) (s : State) :
    Host.Outcome State Fault Refusal :=
  runIssue (icinvReq g scope all a b s) (icinvBody scope all a b) s

/-! CTXSV and CTXLD (R444). -/

/-- The trapped context: as TRET retry would restore it. -/
def Ctx.trapped (c : Ctx) : Ctx :=
  match c.kept with
  | some k => c.leaveTrap k c.tpc0 k.done k.tok
  | none => c

/-- Bytes of the divergence stack of the turn's wave. -/
def State.stackBytes (s : State) : List Byte := Store.bytes s.here.rows (s.stackOff 0) 512

/-- The 64-byte pieces of an image at an address. -/
def imagePieces (wave : Bool) (lane : Nat) (a : W64) : List LaneAddr :=
  (List.range (if wave then 64 else 16)).map fun j => (lane, a + BitVec.ofNat 64 (64 * j))

/-- What `Ctxsv` asks of its issue. -/
def ctxsvReq (g : Guard) (a : Opnd) (s : State) : Req :=
  sysReq g [a] [] s.me.isWave State.unified

def ctxsvBody (a : Opnd) (i : Iss) : M Unit := do
  if !(← getMe).handler then illegalInstruction
  awaitAll .loadOp
  let s ← get
  let addr := s.sysVal i a
  if field addr 0 6 ≠ 0 then misalign addr
  let got ← access 64 .store (imagePieces s.me.isWave i.rep addr)
  let t := s.me.trapped
  let img := if s.me.isWave then t.waveImage s.stackBytes s.clk.toNat else t.threadImage s.clk.toNat
  for j in List.range got.length do
    writePieces plainLoad (got.getD j (0, [])).2 64 (bytesToNat ((img.drop (64 * j)).take 64))

def execCtxsv (g : Guard) (a : Opnd) (s : State) : Host.Outcome State Fault Refusal :=
  runCtl (ctxsvReq g a s) (fun i => do
    ctxsvBody a i
    -- the buffers' contents are discarded (02_clauses.md R31)
    return do
      advance
      modMe Ctx.discard) s

/-- Lanes that have not quit: those of the slots and of the divergence stack. -/
def lanesLeft (c : Ctx) (stack : List Byte) : BitVec 16 :=
  let m (n : Nat) : BitVec 16 := if (c.slot n).live then (c.slot n).mask else 0
  (List.range c.dsp).foldl (fun v i => v ||| BitVec.ofNat 16 (bytesAt stack (128 * i + 16) 2)) (m 0 ||| m 1)

/-- Reserved bytes of an image are zero. -/
def imageReserved (wave : Bool) (bs : List Byte) : Bool :=
  let z (lo n : Nat) : Bool := ((bs.drop lo).take n).all (· = 0)
  if wave then
    z 2236 4 && z 2288 16 && ((List.range 4).all fun i => z (2328 + 128 * i) 40) && z 3154 2 && z 3164 3 && z 3360 736 &&
    !(bytesAt bs 2217 1).testBit 5
  else z 271 1 && z 674 2 && z 684 3 && z 744 280

/-- What `Ctxld` asks of its issue. -/
def ctxldReq (g : Guard) (a : Opnd) (s : State) : Req :=
  sysReq g [a] [] s.me.isWave State.unified

/-- The bytes that CTXLD loads. -/
def ctxldImage (a : Opnd) (i : Iss) : M (List Byte) := do
  if !(← getMe).handler then illegalInstruction
  awaitAll .loadOp
  let s ← get
  let addr := s.sysVal i a
  if field addr 0 6 ≠ 0 then misalign addr
  let got ← access 64 plainNeed (imagePieces s.me.isWave i.rep addr)
  let mut bs : List Byte := []
  for p in got do
    bs := bs ++ natToBytes 64 (← readPieces plainLoad p.2)
  return bs

/-- The image that a handler loads is legal: no reserved bit set, a rounding mode and segments that exist, and in a wave no lane
that has quit (R442). -/
def State.imageOk (s : State) (bs : List Byte) : Bool :=
  let old := s.me.trapped
  let new := if s.me.isWave then old.withWaveImage bs s.clk.toNat s.ticks else old.withThreadImage bs s.clk.toNat s.ticks
  imageReserved s.me.isWave bs && rmLegal (field new.mode 8 3) && ((List.range 8).all fun n => segValueOk (new.seg n)) &&
    (!s.me.isWave || (lanesLeft new ((bs.drop 2304).take 512)) &&& ~~~(lanesLeft old s.stackBytes) = 0)

def ctxldBody (a : Opnd) (i : Iss) : M Unit := do
  let bs ← ctxldImage a i
  let s ← get
  let c := s.me
  match c.kept with
  | none => pure ()
  | some k =>
    let old := c.trapped
    let new := if c.isWave then old.withWaveImage bs s.clk.toNat s.ticks else old.withThreadImage bs s.clk.toNat s.ticks
    let stack := (bs.drop 2304).take 512
    let p := new.slot k.slot
    let o := new.slot (1 - k.slot)
    needOperand (s.imageOk bs)
    let over_ := c.curSlot.rstk.take (c.curSlot.rstk.length - field c.tcause 19 4)
    -- the handler's own slot goes on; what it keeps of the trapped one is the image's
    let mine : PcSlot := { c.curSlot with rstk := over_ ++ p.rstk }
    -- a trap at a header whose clause had not been fetched leaves no class to compare at that index (R31)
    let k1 : Kept := { k with cls := if k.cls.isNone && pcIndex p.pc = 0 then none else some p.cclass, tok := none, mask := (if c.isWave then p.mask else k.mask), depth := p.depth,
                              waiting := p.waiting, pc := p.pc, done := 0, check := false }
    let tc := (c.tcause &&& 0xFFFFC000FF87FFFF) ||| ((new.mode &&& modeBits).setWidth 64 <<< 32) |||
      BitVec.ofNat 64 (p.rstk.length % 16 * 2 ^ 19)
    let base : Ctx := { new with mode := c.mode, handler := true, kept := some k1, tpc0 := p.pc, tcause := tc,
                                 tpc1 := (if c.isWave && o.live then o.pc else 0), cur := c.cur, prog := c.prog,
                                 parked := none }
    setMe (base.putSlot k.slot mine)
    if c.isWave then modHere fun h => { h with rows := Store.putBytes h.rows (s.stackOff 0) stack }

def execCtxld (g : Guard) (a : Opnd) (s : State) : Host.Outcome State Fault Refusal :=
  runIssue (ctxldReq g a s) (ctxldBody a) s

/-! Trap entry and the timer interrupt as events (R421, R422, R426). -/

/-- TRAP_ENTRY: a trap that waited for the context's other slot, or for its results, enters once that wait has ended. -/
def execTrapEntry (c : CtxId) (s : State) : Host.Outcome State Fault Refusal :=
  (asCtx c (do
    let x ← getMe
    match x.trapping with
    | none => pure ()
    | some d =>
      if !(x.progOf (1 - d.slot)).kind.agent && x.pend.isEmpty then
        modMe fun c => { (c.turnTo d.slot) with trapping := none }
        takeTrap d.trap d.paired d.lanes)).toOutcome s

/-- A timer interrupt is pending on a core (R426). -/
def State.timerPending (s : State) (core : Nat) : Bool :=
  let k := s.core core
  k.tcmp ≠ 0 && k.tcmp.toNat ≤ s.clk.toNat && k.itgt.getLsbD 5

/-- A thread can take an interrupt, which abandons its wait (R421): it is in no handler, and in no SHKICK, which is no wait
but an instruction part of which is done (R287). -/
def Ctx.interruptible (c : Ctx) : Bool :=
  c.present && !c.isWave && !c.handler && c.halted.isNone && !(c.prog.kind.alone && c.prog.tok = some true) &&
  c.trapping.isNone

/-- INTERRUPT: the thread of the slot that ITGT names takes the timer interrupt. -/
def execInterrupt (core : Nat) (s : State) : Host.Outcome State Fault Refusal :=
  (do
    let s ← get
    if s.timerPending core then
      let id : CtxId := ⟨core, .slot (field (s.core core).itgt 0 5)⟩
      if (← getCtx id).interruptible then
        modCore core fun k => { k with tcmp := 0 }
        asCtx id (raiseTrap { cause := 17, detail := 1, imprecise := true } false 1) : M Unit).toOutcome s

end Sys2Proof.Machine
end

