-- ==== Sys2Proof/Machine/LocalSpace.lean ====
section
/-! DEFINITION. The local space of a core: its rows, tag words and full/empty bits, as LDPHY, STPHY and Tchios see them
(07_addresses.md R214; 06_scratchpad.md R146, R155). -/

namespace Sys2Proof.Machine

/-- Eight full/empty bits of a core, from word `w` on. -/
def Core.feByte (c : Core) (w : Nat) : Byte :=
  BitVec.ofNat 8 ((List.range 8).foldl (fun v i => v + (if Store.get false c.fe (w + i) then 2 ^ i else 0)) 0)

def Core.putFeByte (c : Core) (w : Nat) (b : Byte) : Core :=
  { c with fe := (List.range 8).foldl (fun f i => Store.set false f (w + i) (b.getLsbD i)) c.fe }

/-- Windows of the local space: rows, tag words, full/empty bits. -/
def localRow (off : Nat) : Bool := off < 0x18000
def localTag (off : Nat) : Bool := 0x20000 ≤ off && off < 0x21800
def localFe (off : Nat) : Bool := 0x30000 ≤ off && off < 0x30C00

def localAddr (off : Nat) : Bool := localRow off || localTag off || localFe off

/-- A byte of the local space of a core. -/
def State.localByte (s : State) (core off : Nat) : Byte :=
  if localRow off then s.rowByte core off
  else if localTag off then ((s.core core).tag ((off - 0x20000) / 4)).extractLsb' (8 * (off % 4)) 8
  else if localFe off then (s.core core).feByte (8 * (off - 0x30000))
  else 0

def State.localBytes (s : State) (core off : Nat) : Nat → List Byte
  | 0 => []
  | n + 1 => s.localByte core off :: s.localBytes core (off + 1) n

/-- A tag word with one byte replaced; its reserved bits stay 0. -/
def tagPutByte (t : W32) (i : Nat) (b : Byte) : W32 :=
  BitVec.ofNat 32 (t.toNat - field t (8 * i) 8 * 2 ^ (8 * i) + b.toNat * 2 ^ (8 * i)) &&& 0x00E7FFFF

def State.putLocalByte (s : State) (core off : Nat) (b : Byte) : State :=
  if localRow off then s.putRowBytes core off [b]
  else
    let c := s.core core
    if localTag off then
      let row := (off - 0x20000) / 4
      s.putCore core (c.putTag row (tagPutByte (c.tag row) (off % 4) b))
    else if localFe off then s.putCore core (c.putFeByte (8 * (off - 0x30000)) b)
    else s

def State.putLocalBytes (s : State) (core off : Nat) : List Byte → State
  | [] => s
  | b :: rest => (s.putLocalByte core off b).putLocalBytes core (off + 1) rest

end Sys2Proof.Machine
end

