-- ==== Sys2Proof/Machine/Debug.lean ====
section
/-! DEFINITION. Debug and measurement: the commands of Tchios, launch records, the link grid, and the debug group
(18_debug.md; the access levels of 19_system.md R480 and R484). -/

namespace Sys2Proof.Machine

/-! Answers and access (R452, R453; 19_system.md R480, R484). -/

/-- The answer of a command: its status (0 OK, 1 BUSY, 2 LOCKED, 3 NOTARGET, 4 BADARG) and its data. -/
abbrev Answer := Nat × List Byte

/-- The payload of an answer (R452). -/
def crespOf (q : Dbg) (a : Answer) : List Byte :=
  natToBytes 8 (a.1 + 256 * q.tag.toNat) ++ a.2 ++ List.replicate (44 - a.2.length) 0

/-- The CRESP flit of an answer goes to the command's source, the host interface, which keeps the Tchios slot (R452;
19_system.md R471; log 113). -/
def dbgSend (cluster : Nat) (q : Dbg) (a : Answer) : M Unit :=
  sendFlit (clusterCore0 cluster) hostId 2 (.cresp · (crespOf q a))

def dbgReply (q : Dbg) (a : Answer) : M Unit :=
  dbgSend (if q.ctx.core < Config.coreCount then clusterOf q.ctx.core else 0) q a

/-- A reply reaches the Tchios slot. -/
def takeCresp (h : Hdr) (payload : List Byte) : M Unit := do
  if ← hostAccept h (.cresp h payload) then modSys fun y => { y with tchReply := payload }

/-- LIFE as MG_STATUS reads it (19_system.md R482). -/
def System.lifeNow (y : System) : Nat := if y.life = 2 && y.token.isSome then 3 else y.life.toNat

/-- What a command acts on: contexts, a row's team, or neither. -/
inductive DbgKind where
  | ctx
  | row
  | other
  deriving DecidableEq, Repr

/-- The fault domains that the active token names hold a context. -/
def State.named (s : State) (dom : Nat) : Bool :=
  match s.sys.token with
  | some t => t.asns.contains (s.domAsn dom)
  | none => false

def State.ctxNamed (s : State) (c : CtxId) : Bool :=
  let x := Store.get .blank (s.core c.core).ctxs (seatIndex c.seat)
  x.team ≠ 0 && s.named (s.ctxDomain c.core x)

/-- The owning team of a row of the local space lies in a named domain. -/
def State.rowNamed (s : State) (core off : Nat) : Bool :=
  let row := if localRow off then off / 64 else if localTag off then (off - 0x20000) / 4 else (off - 0x30000) / 2
  match (s.core core).team (tagOwner ((s.core core).tag row)) with
  | some t => s.named (s.domainOf t.rcb)
  | none => false

/-- The refusal of a command by power state and lifecycle. `named`: its target lies in a domain of the token; `open_`: a
command that level O allows. -/
def State.dbgLevel (s : State) (kind : DbgKind) (named open_ : Bool) : Option Nat :=
  let life := s.sys.lifeNow
  if s.sys.power = 3 then (if life = 4 then some (if kind = .ctx then 3 else 2) else some 3)
  else if s.sys.power = 2 then
    if kind = .ctx then some 3
    else if life = 2 || life = 4 then some 2
    else if kind = .other then some 3
    else if life = 3 && !named then some 2 else none
  else if life ≤ 1 then none
  else if life = 2 then (if open_ then none else some 2)
  else if life = 3 then (if named then none else some 2)
  else some 2

/-- The level refuses a command whatever its target is: every command at N, and at O all but those it allows (R480). -/
def State.dbgLocked (s : State) (open_ : Bool) : Bool :=
  s.sys.power ≠ 2 && s.sys.power ≠ 3 && (s.sys.lifeNow = 4 || (s.sys.lifeNow = 2 && !open_))

/-- A Tchios command: its level, then its target, then its arguments; it ungates its cluster, but at level O. -/
def dbgRun (q : Dbg) (kind : DbgKind) (needCtx : Bool) (named open_ : State → Bool) (args : Bool) (act : M Answer) :
    M Unit := do
  let s ← get
  let c := Store.get .blank (s.core q.ctx.core).ctxs (seatIndex q.ctx.seat)
  if s.dbgLocked (open_ s) then dbgReply q (2, [])
  else if Config.coreCount ≤ q.ctx.core || s.sys.retired.contains q.ctx.core || (needCtx && !c.present) then dbgReply q (3, [])
  else match s.dbgLevel kind (named s) (open_ s) with
    | some st => dbgReply q (st, [])
    | none =>
      if s.sys.lifeNow ≠ 2 then modCluster (clusterOf q.ctx.core) fun k => { k with gated := false }
      if args then dbgReply q (← act) else dbgReply q (4, [])

/-! Halts (R456, R457). -/

/-- Contexts that a scope around a command's target reaches. -/
def State.scopeCtxs (s : State) (q : CtxId) (scope : HaltScope) : List CtxId :=
  let tag := (Store.get Ctx.blank (s.core q.core).ctxs (seatIndex q.seat)).team
  let ofCore (k : Nat) (p : Ctx → Bool) : List CtxId :=
    ((s.core k).ctxs.filter fun x => x.2.present && p x.2).map fun x => ⟨k, seatOf x.1⟩
  match scope with
  | .context => [q]
  | .team => if tag = 0 then [q] else ofCore q.core fun x => x.team = tag
  | .core => ofCore q.core fun _ => true
  | .cluster => (s.knownCores.filter fun k => clusterOf k = clusterOf q.core).flatMap fun k => ofCore k fun _ => true
  | .package => s.knownCores.flatMap fun k => ofCore k fun _ => true

def scopeNeedsCtx : HaltScope → Bool
  | .context | .team => true
  | _ => false

def scopeWide : HaltScope → Bool
  | .cluster | .package => true
  | _ => false

/-- Freezes or unfreezes the Shuttles and pairs of a wide scope (R456, R457). -/
def freezeScope (q : CtxId) (scope : HaltScope) (b : Bool) : M Unit := do
  if scopeWide scope then
    for k in (← get).knownCores do
      if scope = .package || clusterOf k = clusterOf q.core then
        freezeCore k b
        if !b then
          wakeQueued k
          if (← getCore k).pair.isSome then
            stepSoon k
            laterOnce (.drainComplete k)

def execHalt (q : Dbg) (scope : HaltScope) (s : State) : Host.Outcome State Fault Refusal :=
  (dbgRun q .ctx (scopeNeedsCtx scope) (fun s => (s.scopeCtxs q.ctx scope).all s.ctxNamed) (fun _ => false) true (do
    for c in (← get).scopeCtxs q.ctx scope do haltCtx c (if scope = .package then 4 else 1)
    freezeScope q.ctx scope true
    return (0, []))).toOutcome s

/-- A halt ends; the comparator that stopped the context does not stop it again at once (R455). -/
def Ctx.unhalt (c : Ctx) : Ctx := { c with halted := none, stepping := none, stepWord := none, stall := .issued }

def execDebugResume (q : Dbg) (scope : HaltScope) (s : State) : Host.Outcome State Fault Refusal :=
  (dbgRun q .ctx (scopeNeedsCtx scope) (fun s => (s.scopeCtxs q.ctx scope).all s.ctxNamed) (fun _ => false) true (do
    for c in (← get).scopeCtxs q.ctx scope do
      if (← getCtx c).halted.isSome then modCtx c Ctx.unhalt
    freezeScope q.ctx scope false
    return (0, []))).toOutcome s

/-! Steps (R458, R459). -/

/-- Every context of a context's team is halted. -/
def State.teamHalted (s : State) (c : CtxId) : Bool :=
  (s.scopeCtxs c .team).all fun x => (Store.get Ctx.blank (s.core x.core).ctxs (seatIndex x.seat)).halted.isSome

/-- A slot at index 0 whose header waits are evaluated again (R458). -/
def PcSlot.atHeader (p : PcSlot) : PcSlot :=
  { p with buf := p.buf.map fun b => { b with ready := b.ready && decide (pcIndex p.pc ≠ 0) } }

/-- STEP, with the word of STEPX. -/
def dbgStep (q : Dbg) (slot : Bool) (limit : BitVec 16) (word : Option W64) (s : State) :
    Host.Outcome State Fault Refusal :=
  (dbgRun q .ctx true (fun s => s.ctxNamed q.ctx) (fun _ => false) (limit ≠ 0) (do
    let s ← get
    if !s.teamHalted q.ctx then return (1, [])
    let due := s.clk.toNat + limit.toNat
    modCtx q.ctx fun c =>
      let c1 := if c.isWave && c.live = 2 then c.turnTo (if slot then 1 else 0) else c
      { (c1.unhalt.modCur PcSlot.atHeader) with stepping := some due, stepWord := word, yielded := false }
    atCycle due (.stepLimit q.ctx)
    return (0, []))).toOutcome s

def execStep (q : Dbg) (slot : Bool) (limit : BitVec 16) (s : State) : Host.Outcome State Fault Refusal :=
  dbgStep q slot limit none s

def execStepx (q : Dbg) (slot : Bool) (limit : BitVec 16) (word : W64) (s : State) : Host.Outcome State Fault Refusal :=
  dbgStep q slot limit (some word) s

/-- STEP_LIMIT_EXPIRY: a step whose instruction has not issued ends with cause WAITED. -/
def execStepLimitExpiry (c : CtxId) (s : State) : Host.Outcome State Fault Refusal :=
  (do
    match (← getCtx c).stepping with
    | none => pure ()
    | some due =>
      if due ≤ (← now) then
        haltCtx c 7
        modCtx c fun x => { x with stepping := none, stepWord := none } : M Unit).toOutcome s

/-! The context space (R460, R461). -/

/-- Scoreboard bits of a context: x or v registers, then p registers. -/
def Ctx.scoreboard (c : Ctx) : Nat :=
  let regs := c.pend.flatMap fun p => p.writes.map RegWrite.reg
  (List.range 32).foldl (fun v n =>
    v + (if regs.contains (if c.isWave then vReg n else xReg n) then 2 ^ n else 0) +
        (if n < 8 && regs.contains (pReg n) then 2 ^ (32 + n) else 0)) 0

/-- The words from 0x1000 on: scoreboard, halt word, zeros, comparators, counter bank. -/
def Ctx.debugBlock (c : Ctx) : List Byte :=
  numbers 8 [c.scoreboard,
    (c.halted.getD 0).toNat % 16 + 16 * stallCode c.stall + (if c.bkhalt then 256 else 0)] ++ List.replicate 48 0 ++
  numbers 8 ((List.range 4).map fun n => (Store.get 0 c.bp n).toNat) ++
  numbers 16 ((List.range 4).map fun n => (Store.get 0 c.wp n).toNat) ++
  numbers 8 ([c.cbctl.toNat] ++ ((List.range 8).map fun n => (Store.get 0 c.cnt n).toNat) ++
    [c.lav.toNat, c.cbst.toNat, c.mkval.toNat, c.mkclk.toNat])

/-- Sections of the context space. -/
inductive DbgPart where
  | image
  | block
  | window
  deriving DecidableEq, Repr

/-- The section that a range of the context space lies in. -/
def dbgPart (wave team : Bool) (off n : Nat) : Option DbgPart :=
  if off + n ≤ (if wave then 4096 else 1024) then some .image
  else if 0x1000 ≤ off && off + n ≤ 0x1108 then some .block
  else if 0x2000 ≤ off && off + n ≤ 0x2800 && team then some .window
  else none

/-- The image of the turn's context as a save would make it now. -/
def State.imageNow (s : State) : List Byte :=
  if s.me.isWave then s.me.waveImage s.stackBytes s.clk.toNat else s.me.threadImage s.clk.toNat

/-- The uniform registers of the turn's team. -/
def State.windowBytes (s : State) : List Byte :=
  match s.myTeam with
  | some t => numbers 4 ((List.range 512).map fun n => (Store.get 0 s.here.uni (512 * t.half + n)).toNat)
  | none => []

def State.partBytes (s : State) : DbgPart → List Byte
  | .image => s.imageNow
  | .block => s.me.debugBlock
  | .window => s.windowBytes

def partBase : DbgPart → Nat
  | .image => 0
  | .block => 0x1000
  | .window => 0x2000

def dbgArgs (off n : Nat) : Bool := 1 ≤ n && n ≤ 32 && n % 4 = 0 && off < 0x2800

/-- RDCTX of the counter bank alone. -/
def bankRange (off n : Nat) : Bool := 0x10A0 ≤ off && off + n ≤ 0x1108

/-- RDCTX. -/
def execRdctx (q : Dbg) (off len : Nat) (s : State) : Host.Outcome State Fault Refusal :=
  (dbgRun q .ctx true (fun s => s.ctxNamed q.ctx) (fun _ => bankRange off len) (dbgArgs off len)
    (asCtx q.ctx (do
      let s ← get
      match dbgPart s.me.isWave s.myTeam.isSome off len with
      | none => return (4, [])
      | some p =>
        if p ≠ .window && s.me.halted.isNone then return (1, [])
        return (0, ((s.partBytes p).drop (off - partBase p)).take len)))).toOutcome s

/-- Bytes of the context space that a pending result will write. -/
def pendRange (wave : Bool) : RegWrite → Nat × Nat
  | .x n _ => (8 * n, 8)
  | .v n _ _ => (64 * n, 64)
  | .p n _ _ => if wave then (2216 + 2 * n, 2) else (268, 1)
  | .k _ n _ _ => (0x2000 + 4 * n, 4)
  | .flags _ | .latest _ _ | .row _ _ => (0, 0)

def Ctx.pendingAt (c : Ctx) (off n : Nat) : Bool :=
  c.pend.any fun p => p.writes.any fun w => let r := pendRange c.isWave w; r.1 < off + n && off < r.1 + r.2

/-- A list of bytes with others put over it from a place on. -/
def splice (bs : List Byte) (at_ : Nat) (new : List Byte) : List Byte :=
  bs.take at_ ++ new ++ bs.drop (at_ + new.length)

/-- The buffer and the class comparison of a slot whose PC an image leaves as it was stay. -/
def PcSlot.keepBuf (new old : PcSlot) : PcSlot :=
  if new.pc = old.pc && new.live = old.live then { new with buf := old.buf, refetch := old.refetch, cclass := old.cclass }
  else { new with refetch := decide (pcIndex new.pc ≠ 0) }

/-- Writes an image into the turn's context: false where CTXLD would refuse it. -/
def putImage (bs : List Byte) : M Bool := do
  let s ← get
  let c := s.me
  let wave := c.isWave
  let now := s.clk.toNat
  let hOff := if wave then 2217 else 271
  let hBit := if wave then 32 else 1
  let live := (if c.handler then hBit else 0)
  let plain := splice bs hOff [BitVec.ofNat 8 (bytesAt bs hOff 1 - live)]
  let new : Ctx := if wave then c.withWaveImage plain now s.ticks else c.withThreadImage plain now s.ticks
  let stack := (plain.drop 2304).take 512
  let ok := decide (bytesAt bs hOff 1 / hBit % 2 * hBit = live) && imageReserved wave plain &&
    rmLegal (field new.mode 8 3) && ((List.range 8).all fun n => segValueOk (new.seg n)) &&
    (!wave || (lanesLeft new stack) &&& ~~~(lanesLeft c s.stackBytes) = 0)
  if ok then
    let q (off : Nat) : W64 := BitVec.ofNat 64 (bytesAt bs off 8)
    -- of the trap registers those that MTS writes (16_traps.md R424)
    let t (o1 o2 o3 : Nat) : Ctx := ((new.putBlockWord 0 (q o1)).putBlockWord 1 (q o2)).putBlockWord 3 (q o3)
    let c1 : Ctx := if !c.handler then new else if wave then t 2240 2256 2280 else t 712 720 736
    let same := decide (c1.curSlot.pc = c.curSlot.pc)
    setMe { c1 with slots := (c1.slots.1.keepBuf c.slots.1, c1.slots.2.keepBuf c.slots.2),
                    prog := if same then c.prog else .none }
    if wave then modHere fun h => { h with rows := Store.putBytes h.rows (s.stackOff 0) stack }
  return ok

/-- Comparator and counter-bank values that are not reserved. -/
def bpOk (b : W64) : Bool := field b 61 3 ≠ 7
def wpOk (w : BitVec 128) : Bool :=
  field w 125 3 ≠ 7 && field w 118 5 ≤ 21 && field w 0 64 % 2 ^ field w 118 5 = 0

/-- An event code of R465. -/
def eventCode (n : Nat) : Bool := n ≤ 0x0D || (0x10 ≤ n && n ≤ 0x1A)

/-- Writes the block from 0x1000 on; `w`: the bytes written, 0 elsewhere. -/
def putBlock (bs w : List Byte) : M Bool := do
  let q (off : Nat) : W64 := BitVec.ofNat 64 (bytesAt bs off 8)
  let bps := (List.range 4).map fun n => q (64 + 8 * n)
  let wps := (List.range 4).map fun n => (BitVec.ofNat 128 (bytesAt bs (96 + 16 * n) 16) : BitVec 128)
  let cbctl := q 160 &&& 0x00FFFFFFFFFFFFFF
  let ok := bps.all bpOk && wps.all wpOk && (List.range 8).all fun i => eventCode (field cbctl (6 * i) 6)
  if ok then
    modMe fun c =>
      let bp := (List.range 4).foldl (fun m n => Store.set 0 m n (bps.getD n 0 &&& 0xFFFFFFFFFFFFFFF8)) []
      let wp := (List.range 4).foldl (fun m n =>
        Store.set 0 m n (wps.getD n 0 &&& 0xFFC0000000000000FFFFFFFFFFFFFFFF)) []
      let cnt := (List.range 8).foldl (fun m n => Store.set 0 m n (q (168 + 8 * n) &&& 0x0000FFFFFFFFFFFF)) []
      { c with bkhalt := (q 8).getLsbD 8, bp := bp, wp := wp, cbctl := cbctl, cnt := cnt, lav := q 232,
               cbst := c.cbst &&& ~~~(BitVec.ofNat 64 (bytesAt w 240 8)),
               mkval := BitVec.ofNat 32 (bytesAt bs 248 4), mkclk := q 256 }
  return ok

/-- Writes uniform registers of the turn's team. -/
def putWindow (bs : List Byte) : M Unit := do
  match (← getTeam) with
  | none => pure ()
  | some t =>
    modHere fun h => { h with uni := (List.range 512).foldl (fun m n =>
      Store.set 0 m (512 * t.half + n) (BitVec.ofNat 32 (bytesAt bs (4 * n) 4))) h.uni }

/-- WRCTX. -/
def execWrctx (q : Dbg) (off : Nat) (bytes : List Byte) (s : State) : Host.Outcome State Fault Refusal :=
  (dbgRun q .ctx true (fun s => s.ctxNamed q.ctx) (fun _ => false) (dbgArgs off bytes.length) (do
    let halted := (← get).teamHalted q.ctx
    let a ← asCtx q.ctx (do
      let s ← get
      match dbgPart s.me.isWave s.myTeam.isSome off bytes.length with
      | none => return (4, [])
      | some p =>
        if !halted || s.me.pendingAt off bytes.length then return (1, [])
        let old := s.partBytes p
        let bs := splice old (off - partBase p) bytes
        match p with
        | .image => return (if ← putImage bs then 0 else 4, [])
        | .block => return (if ← putBlock bs (splice (List.replicate 264 0) (off - 0x1000) bytes) then 0 else 4, [])
        | .window => do
          putWindow bs
          return (0, []))
    swapSync q.ctx
    return a)).toOutcome s

/-! Rows and patches (R453, R463). -/

def rowArgs (off : Nat) : Bool := localAddr off && localAddr (off + 31) && off % 32 = 0

def execRdrow (q : Dbg) (off : Nat) (s : State) : Host.Outcome State Fault Refusal :=
  (dbgRun q .row false (fun s => s.rowNamed q.ctx.core off) (fun _ => false) (rowArgs off) (do
    return (0, (← get).localBytes q.ctx.core off 32))).toOutcome s

def execWrrow (q : Dbg) (off : Nat) (bytes : List Byte) (s : State) : Host.Outcome State Fault Refusal :=
  (dbgRun q .row false (fun s => s.rowNamed q.ctx.core off) (fun _ => false) (rowArgs off && decide (bytes.length = 32)) (do
    let s ← get
    if !localRow off && !(Store.get Cluster.reset s.clusters (clusterOf q.ctx.core)).split then return (4, [])
    set (s.putLocalBytes q.ctx.core off bytes)
    return (0, []))).toOutcome s

/-- Drops from every clause cache of the module the lines that hold a virtual word or a physical line. -/
def dropClause (va pa : Nat) : M Unit := do
  let keep (m : Cache) : Cache := cacheDrop m fun l => lineOverlaps va 8 l || l.line = pa / 64
  let s ← get
  for cl in s.clusters.map (·.1) do modCluster cl fun k => { k with iCache := keep k.iCache }
  for k in s.knownCores do modCore k fun c => { c with cclause := keep c.cclause }

/-- PATCH: the word is stored at its PoC, its clause invalidated at package scope, then answered. -/
def execPatch (q : Dbg) (asn : BitVec 16) (va word : W64) (s : State) : Host.Outcome State Fault Refusal :=
  (dbgRun q .other false
    (fun s => match s.domainOfAsn (asn.setWidth 12) with
      | some dom => s.named dom
      | none => false)
    (fun _ => false) (asn.toNat < 4096 && va.toNat < 2 ^ 57 && va.toNat % 8 = 0) (do
    let s ← get
    match s.domainOfAsn (asn.setWidth 12) with
    | none => return (4, [])
    | some dom =>
      match s.leafAny dom va.toNat with
      | .leaf at_ e fine =>
        if !e.getLsbD 62 then return (4, [])
        let pa := (if fine then field e 10 42 * 1024 + va.toNat % 1024 else field e 21 31 * 2 ^ 21 + va.toNat % 2 ^ 21)
        putEntry at_ (e ||| 0x0300000000000000).toNat
        modify fun s => s.pocPutBytes pa (natToBytes 8 word.toNat)
        dropClause va.toNat pa
        return (0, [])
      | _ => return (4, []))).toOutcome s

/-! Launch records (R467). -/

/-- START. -/
def execStart (q : Dbg) (n : Nat) (lnum : W32) (codes : List Byte) (at_ dest : W64) (s : State) :
    Host.Outcome State Fault Refusal :=
  (dbgRun q .other false (fun _ => false) (fun _ => true)
    (decide (n < 8) && decide (codes.length = 8) && codes.all (fun c => eventCode c.toNat) &&
     tier0 dest.toNat && decide (dest.toNat % 128 = 0)) (do
    let cl := clusterOf q.ctx.core
    if (Store.get [] (← getCluster cl).launchRec n) ≠ [] then return (1, [])
    let clk := (← get).clk
    let late := at_.toNat < clk.toNat
    let flags : Nat := if late then 2 ^ 32 else if at_ = clk then 0 else 2 ^ 33
    let r : List W64 :=
      [BitVec.ofNat 64 (lnum.toNat + flags), BitVec.ofNat 64 (bytesToNat codes), dest, clk] ++ List.replicate 11 0
    modCluster cl fun k => { k with launchRec := Store.set [] k.launchRec n r }
    if clk.toNat < at_.toNat then atCycle at_.toNat (.recordArm cl n)
    return (0, []))).toOutcome s

/-- LAUNCH_RECORD_ARM: a record whose clk has come begins to count. -/
def execLaunchRecordArm (cluster n : Nat) (s : State) : Host.Outcome State Fault Refusal :=
  (do
    let clk := (← get).clk
    modCluster cluster fun k =>
      let r := Store.get [] k.launchRec n
      if (r.getD 0 0).getLsbD 33 then
        { k with launchRec := Store.set [] k.launchRec n ((r.set 0 (r.getD 0 0 &&& 0xFFFFFFFF)).set 3 clk) }
      else k : M Unit).toOutcome s

/-- An event that was to come does not. -/
def cancel (e : Ev) : M Unit :=
  modify fun s => { s with timers := s.timers.filter fun t => t.2 ≠ e, pending := s.pending.filter (· ≠ e) }

/-- The 128 bytes that STOP writes. -/
def recordBytes (cluster : Nat) (clk : W64) (r : List W64) : List Byte :=
  let w (i : Nat) : Nat := (r.getD i 0).toNat
  numbers 8 ([w 0 % 2 ^ 32 + cluster % 4096 * 2 ^ 32 + w 0 / 2 ^ 32 % 2 * 2 ^ 48, w 3, clk.toNat] ++
    (List.range 8).map (fun i => w (4 + i)) ++ [w 12, w 13, w 14, 0, 0])

/-- STOP. -/
def execStop (q : Dbg) (n : Nat) (s : State) : Host.Outcome State Fault Refusal :=
  (dbgRun q .other false (fun _ => false) (fun _ => true) (decide (n < 8)) (do
    let s ← get
    let cl := clusterOf q.ctx.core
    let r := Store.get [] (Store.get Cluster.reset s.clusters cl).launchRec n
    if r ≠ [] then
      modify fun s => s.pocPutBytes (r.getD 2 0).toNat (recordBytes cl s.clk r)
      modCluster cl fun k => { k with launchRec := Store.set [] k.launchRec n [] }
      cancel (.recordArm cl n)
    return (0, []))).toOutcome s

/-! The link grid (R468). -/

/-- A cluster has a neighbour on link d: 0 +X, 1 −X, 2 +Y, 3 −Y of its module or the next. -/
def State.hasLink (s : State) (cl d : Nat) : Bool :=
  let t := s.topo
  let cx := cl % 42
  let cy := cl / 42
  match d with
  | 0 => cx < 41 || field t 2 2 < field t 6 2
  | 1 => 0 < cx || 0 < field t 2 2
  | 2 => cy < 79 || field t 0 2 < field t 4 2
  | _ => 0 < cy || 0 < field t 0 2

/-- The router's counts at a boundary: each has grown by a free number, since the model does not carry the traffic of the
links (log 38); they saturate, and those of a link with no neighbour are zero. -/
def State.linksNow (s : State) (cl : Nat) (k : Cluster) : Store Nat :=
  (List.range 64).foldl (fun m n =>
    if s.hasLink cl (n / 16) then
      Store.set 0 m n (min (2 ^ 32 - 1) (Store.get 0 k.links n + bytesToNat (freeBytes (2 ^ 22 + 4 * n) s.ticks 4)))
    else m) []

/-- The 320 bytes of a snapshot. -/
def Cluster.gridRecord (k : Cluster) (cl boundary : Nat) : List Byte :=
  natToBytes 8 boundary ++ natToBytes 8 (cl % 4096 + k.gridSkip.toNat * 2 ^ 16) ++ List.replicate 48 0 ++
  (List.range 64).flatMap fun n => natToBytes 4 (Store.get 0 k.links n)

/-- Schedules the next snapshot of a cluster. -/
def gridNext (cl : Nat) : M Unit := do
  modify fun s => { s with timers := s.timers.filter fun t => t.2 ≠ .linkGrid cl }
  let s ← get
  let v := (Store.get Cluster.reset s.clusters cl).lgrid
  let n := field v 58 5
  if v.getLsbD 63 && 10 ≤ n && n ≤ 30 then
    atCycle ((s.clk.toNat / 2 ^ n + 1) * 2 ^ n) (.linkGrid cl)

/-- LINK_GRID_SNAPSHOT: a record at the last boundary, and the counts begin anew; or, where the record before it is still on
its way (a free choice), they go on. -/
def execLinkGridSnapshot (cluster : Nat) (s : State) : Host.Outcome State Fault Refusal :=
  (do
    let s ← get
    let k0 := Store.get Cluster.reset s.clusters cluster
    let k := { k0 with links := s.linksNow cluster k0 }
    if k.lgrid.getLsbD 63 then
      let n := 2 ^ field k.lgrid 58 5
      if (Config.freeByte (2 ^ 22 + 256) s.ticks).getLsbD 0 then
        modCluster cluster fun _ => { k with gridSkip := k.gridSkip + 1 }
      else
        writePhysBytes (field k.lgrid 6 46 * 64 + 320 * cluster) (k.gridRecord cluster (s.clk.toNat / n * n))
        modCluster cluster fun k => { k with gridSkip := 0, links := [] }
    gridNext cluster : M Unit).toOutcome s

/-! CTRL: a command flit at its cluster (R452, R453). -/

def scopeOf (n : Nat) : Option HaltScope :=
  match n with
  | 0 => some .context
  | 1 => some .team
  | 2 => some .core
  | 3 => some .cluster
  | 4 => some .package
  | _ => none

/-- A command whose opcode, scope or slot is no legal one: after its level and its target, BADARG. -/
def dbgBad (q : Dbg) : M Unit := dbgRun q .other false (fun _ => true) (fun _ => false) false (return (0, []))

/-- A command that names a core of another cluster. -/
def dbgElsewhere (cluster : Nat) (q : Dbg) (open_ : Bool) : M Unit := do
  dbgSend cluster q (if (← get).dbgLocked open_ then 2 else 3, [])

/-- The command that a CTRL flit carries is performed. Where its arguments lie is the model's (log 37). -/
def runCtrl (cluster : Nat) (cmd : CtrlCmd) (s : State) : Host.Outcome State Fault Refusal :=
  let q := cmd.dbg
  let a (off n : Nat) : Nat := bytesAt cmd.args off n
  let word (off : Nat) : W64 := BitVec.ofNat 64 (a off 8)
  let open_ := (cmd.opcode = 5 && bankRange (a 0 2) (a 2 2)) || cmd.opcode = 10 || cmd.opcode = 11
  if clusterOf q.ctx.core ≠ cluster then (dbgElsewhere cluster q open_).toOutcome s else
  match cmd.opcode.toNat with
  | 1 => match scopeOf (a 0 1) with
    | some sc => execHalt q sc s
    | none => (dbgBad q).toOutcome s
  | 2 => match scopeOf (a 0 1) with
    | some sc => execDebugResume q sc s
    | none => (dbgBad q).toOutcome s
  | 3 => if a 0 1 ≤ 1 then execStep q (a 0 1 = 1) (BitVec.ofNat 16 (a 2 2)) s else (dbgBad q).toOutcome s
  | 4 => if a 0 1 ≤ 1 then execStepx q (a 0 1 = 1) (BitVec.ofNat 16 (a 2 2)) (word 4) s else (dbgBad q).toOutcome s
  | 5 => execRdctx q (a 0 2) (a 2 2) s
  | 6 => execWrctx q (a 0 2) ((List.range (a 2 2)).map fun j => cmd.args.getD (4 + j) 0) s
  | 7 => execRdrow q (a 0 4) s
  | 8 => execWrrow q (a 0 4) ((cmd.args.drop 4).take 32) s
  | 9 => execPatch q (BitVec.ofNat 16 (min (a 0 4) 0xFFFF)) (word 4) (word 12) s
  | 10 => execStart q (a 0 4) (BitVec.ofNat 32 (a 4 4)) ((cmd.args.drop 8).take 8) (word 16) (word 24) s
  | 11 => execStop q (a 0 4) s
  | _ => (dbgBad q).toOutcome s

/-- CTRL: a flit with a command arrives at its cluster, and is checked (12_mesh.md R321). -/
def execCtrl (cluster : Nat) (cmd : CtrlCmd) (s : State) : Host.Outcome State Fault Refusal :=
  match (acceptFlit (clusterCore0 cluster) cmd.hdr (.ctrl cluster cmd)).run s with
  | .ok true t => runCtrl cluster cmd t
  | .ok false t => .next t
  | .error _ t => .next t

/-! The debug group (R462, R469). -/

/-- The context halts at the word at its pc, with nothing done; the waits of both slots are abandoned (R456). -/
def haltHere {α : Type} (cause : BitVec 8) : M α := do
  haltCtx (← myId) cause
  modMe fun c => { c with stepping := none, stepWord := none }
  hold .halt

/-- BKPT. -/
def execBkpt (g : Guard) (code : Byte) (s : State) : Host.Outcome State Fault Refusal :=
  if s.me.bkhalt && s.me.curSlot.cls ≠ 7 then
    settle { guard := g } (do
      checkBreakpoints
      haltHere 3) s
  else
    runIssue { guard := g, cls := some 7 }
      (fun _ => do
        let c ← getMe
        if c.bkhalt then haltHere 3
        if !c.handler then trapWith 18 4 (code.setWidth 64)) s

/-- A value operand of the group: an x register, a uniform register or a small immediate. -/
def State.debugSrc (s : State) (o : Opnd) : Bool :=
  s.srcOk false o && match opOf o with
    | .prim _ | .k _ | .imm _ => true
    | _ => false

/-- CNTR's destination: an x register, or a wave's even uniform pair. -/
def State.debugDst (s : State) (o : Opnd) : Bool :=
  s.sysDst o && match opOf o with
    | .prim _ | .k _ => true
    | _ => false

/-- What an instruction of the group asks of its issue. -/
def debugReq (g : Guard) (priv : Bool) (srcs dsts : List Opnd) (wave : Bool) : Req :=
  { guard := g, cls := some 7, priv := if priv then some { cause := 3 } else none,
    ok := fun s => srcs.all s.debugSrc && dsts.all s.debugDst, srcs := srcs, dsts := dsts,
    regs := fun _ => dsts.flatMap (dstRegs wave) }

/-- The registers that CNTR reads. -/
def State.counter (s : State) (unit : Bool) (n : Nat) : Option W64 :=
  if unit then
    if n < 4 then some (Store.get 0 s.here.unitCnt n)
    else if n < 8 then some (Store.get 0 (Store.get Cluster.reset s.clusters (clusterOf s.hereId)).unitCnt n)
    else none
  else
    match n with
    | 8 => some s.me.lav
    | 9 => some s.me.cbst
    | 10 => some (s.me.mkval.setWidth 64)
    | 11 => some s.me.mkclk
    | _ => if n < 8 then some (Store.get 0 s.me.cnt n) else none

def execCntr (g : Guard) (unit : Bool) (d a : Opnd) (s : State) : Host.Outcome State Fault Refusal :=
  runIssue (debugReq g unit [a] [d] s.me.isWave)
    (fun i => do
      let s ← get
      match s.counter unit (s.val i false a i.rep).toNat with
      | some v => putWide i d v
      | none => illegalOperand) s

/-- CNTCTL sel: counter a[2:0] counts event b[5:0] and is cleared. -/
def execCntctlSel (g : Guard) (a b : Opnd) (s : State) : Host.Outcome State Fault Refusal :=
  runIssue (debugReq g false [a, b] [] s.me.isWave)
    (fun i => do
      let s ← get
      let n := field (s.val i false a i.rep) 0 3
      let e := field (s.val i false b i.rep) 0 6
      needOperand (eventCode e)
      modMe fun c =>
        { c with cnt := Store.set 0 c.cnt n 0,
                 cbctl := BitVec.ofNat 64 (c.cbctl.toNat - field c.cbctl (6 * n) 6 * 2 ^ (6 * n) + e * 2 ^ (6 * n)) }) s

def execCntctlEn (g : Guard) (a : Opnd) (s : State) : Host.Outcome State Fault Refusal :=
  runIssue (debugReq g false [a] [] s.me.isWave)
    (fun i => do
      let s ← get
      let en := field (s.val i false a i.rep) 0 8
      modMe fun c => { c with cbctl := (c.cbctl &&& 0x0000FFFFFFFFFFFF) ||| BitVec.ofNat 64 (en * 2 ^ 48) }) s

def execCntctlClr (g : Guard) (a : Opnd) (s : State) : Host.Outcome State Fault Refusal :=
  runIssue (debugReq g false [a] [] s.me.isWave)
    (fun i => do
      let s ← get
      let m : W64 := BitVec.ofNat 64 (field (s.val i false a i.rep) 0 8)
      modMe fun c =>
        { c with cnt := (List.range 8).foldl (fun t n => if m.getLsbD n then Store.set 0 t n 0 else t) c.cnt,
                 cbst := c.cbst &&& ~~~m }) s

/-- CNTCTL uclr: unit counter a is cleared. -/
def execCntctlUclr (g : Guard) (a : Opnd) (s : State) : Host.Outcome State Fault Refusal :=
  runIssue (debugReq g true [a] [] s.me.isWave)
    (fun i => do
      let s ← get
      let n := (s.val i false a i.rep).toNat
      needOperand (n < 8)
      if n < 4 then modHere fun c => { c with unitCnt := Store.set 0 c.unitCnt n 0 }
      else modCluster (clusterOf s.hereId) fun k => { k with unitCnt := Store.set 0 k.unitCnt n 0 }) s

/-- MARK. -/
def execMark (g : Guard) (a : Opnd) (s : State) : Host.Outcome State Fault Refusal :=
  runIssue (debugReq g false [a] [] s.me.isWave)
    (fun i => do
      let s ← get
      let v : W32 := (s.val i false a i.rep).setWidth 32
      modMe fun c => { c with mkval := v, mkclk := s.clk }
      countEvent 0x1A
      match s.myTeam with
      | some t =>
        markRecord s.hereId t.lnum 14 fun _ =>
          BitVec.ofNat 64 (v.toNat + (s.globalId s.hereId).toNat * 2 ^ 32)
      | none => pure ()) s

end Sys2Proof.Machine
end

