-- ==== Sys2Proof/Machine/Host.lean ====
section
/-! DEFINITION. The host link, management, trust, power and bring-up (19_system.md; 01_package.md R22, R23). -/

namespace Sys2Proof.Machine

/-! Power and reset (R479; 06_scratchpad.md R154). -/

/-- The module before bring-up, with all that a reset keeps: fuses, the retired-core map and the flash (log 42). -/
def State.coldStart (s : State) : State :=
  let y := s.sys
  let fw : Firmware := { Firmware.reset with flash := y.fw.flash, flashLen := y.fw.flashLen, valid := y.fw.valid }
  let sys : System :=
    { System.reset with
        life := y.fuse, fuse := y.fuse, ownerKey := y.ownerKey, secret := y.secret, vendorKey := y.vendorKey,
        minVersion := y.minVersion, retiredMap := y.retiredMap, fw := fw }
  { State.reset with agenda := s.agenda, ticks := s.ticks, sys := sys }

/-- A core in retention: rows, tag words and full/empty bits, the register and trap blocks of the system rows among
them. -/
def Core.retained (c : Core) : Core :=
  let block (x : Ctx) : Ctx :=
    { Ctx.blank with tpc0 := x.tpc0, tcause := x.tcause, taddr := x.taddr, tspare := x.tspare }
  let ctxs := (List.range 16).foldl (fun m k => Store.set Ctx.blank m k (block (Store.get Ctx.blank c.ctxs k))) []
  { Core.reset with rows := c.rows, fe := c.fe, tags := c.tags, cctl := c.cctl, tvec := c.tvec, tcmp := c.tcmp, itgt := c.itgt,
                    tids := c.tids, ctxs := ctxs }

/-- A cluster in retention: what its home slice and its cores' caches held is gone. -/
def Cluster.retained (c : Cluster) : Cluster :=
  { c with tlb := [], missq := [], constCache := [], iCache := [], picots := [], treelets := [], offers := [], lookups := [],
           fwd := [], watchers := [], launchRec := [], gated := false }

/-- An event of the management controller, which runs in every power state. -/
def Ev.managed : Ev → Bool
  | .powerStateReached | .fwctlComplete | .tokenExpiry | .linkGrid _ => true
  | _ => false

/-- Retention entered. -/
def State.retain (s0 : State) : State :=
  let s := s0.unhomeAll fun _ => true
  let here := (s.core s.hereId).retained
  let cores := s.cores.foldl (fun m k => Store.set Core.reset m k.1 k.2.retained) []
  let clusters := s.clusters.foldl (fun m k => Store.set Cluster.reset m k.1 k.2.retained) []
  { s with pending := s.pending.filter Ev.managed, timers := s.timers.filter (·.2.managed), me := .blank, seat := none,
           here := here, cores := cores, clusters := clusters, sram := [] }

/-- The debug token lapses (R481). -/
def System.lapse (y : System) : System := { y with token := none, tstat := 5 }

/-- Off entered: the management controller and the host link go on. -/
def State.powerOff (s : State) : State :=
  let y := if s.sys.token.isSome then s.sys.lapse else s.sys
  let sys : System := { y with up := false, power := 3, regions := [], supRcb := 0, fwLaunch := 0, cxl := [], doorbell := [],
                               linkFail := false, links := [], fault := 0 }
  { s.coldStart with sys := sys, pending := s.pending.filter (· = .fwctlComplete) }

/-- A team is resident or pre-empted on some core. -/
def State.anyTeam (s : State) : Bool :=
  s.knownCores.any fun k => !(s.core k).teams.isEmpty || !(s.core k).preempted.isEmpty

/-- A power state is requested: 0 run, 2 retention, 3 off. -/
def powerRequest (n : Nat) : M Unit := do
  let s ← get
  let p := s.sys.power
  let ok := (n = 0) || (n = 3) || (n = 2 && p = 0 && !s.anyTeam)
  if ok then
    modSys fun y => { y with wanted := some n }
    if n = 0 && p = 2 then atCycle (s.clk.toNat + 3800000) .powerStateReached
    else if n = 0 && p = 3 then pure ()
    else laterOnce .powerStateReached

def execPowerReqRun (s : State) : Host.Outcome State Fault Refusal := (powerRequest 0).toOutcome s
def execPowerReqRetention (s : State) : Host.Outcome State Fault Refusal := (powerRequest 2).toOutcome s
def execPowerReqOff (s : State) : Host.Outcome State Fault Refusal := (powerRequest 3).toOutcome s

/-- POWER_STATE_REACHED: vector 6. -/
def execPowerStateReached (s : State) : Host.Outcome State Fault Refusal :=
  (do
    let s ← get
    match s.sys.wanted with
    | none => pure ()
    | some n =>
      if n = 2 then set s.retain
      if n = 3 then set s.powerOff
      modSys fun y => { y with power := n, wanted := none }
      raiseVector 6 : M Unit).toOutcome s

/-- A cluster holds no team, and no flit has arrived for 4,096 cycles. A thread outside any team keeps no cluster from it
(log 45). -/
def State.idle (s : State) (cl : Nat) : Bool :=
  s.sys.power = 0 && (Store.get Cluster.reset s.clusters cl).lastFlit + 4096 ≤ s.clk.toNat &&
  !(s.knownCores.any fun k => clusterOf k = cl && !(s.core k).teams.isEmpty)

/-- IDLE_GATE. -/
def execIdleGate (cluster : Nat) (s : State) : Host.Outcome State Fault Refusal :=
  (do
    if (← get).idle cluster then modCluster cluster fun k => { k with gated := true } : M Unit).toOutcome s

/-- POWER_LOSS. -/
def execPowerLoss (duringFlash : Bool) (s : State) : Host.Outcome State Fault Refusal :=
  (do
    modify State.coldStart
    if duringFlash then modSys fun y => { y with fw := { y.fw with valid := false } } : M Unit).toOutcome s

/-! Retirement and failed units (01_package.md R22, R23). -/

/-- A core holds a team or is named by a pricking entry (R473). -/
def Core.busy (c : Core) : Bool := !c.teams.isEmpty || c.pricks.any fun e => field e.2.word 78 2 ≠ 0

def retireCore (core : GlobalId) : M Unit := do
  let s ← get
  match s.localCore core with
  | none => pure ()
  | some k =>
    if !(s.core k).busy then
      modSys fun y => { y with retired := y.retired.filter (· ≠ k) ++ [k], retiredMap := y.retiredMap.filter (· ≠ k) ++ [k] }

def undoRetire (core : GlobalId) : M Unit := do
  let s ← get
  match s.localCore core with
  | none => pure ()
  | some k => if s.sys.life = 0 then modSys fun y => { y with retiredMap := y.retiredMap.filter (· ≠ k) }

def execRetire (core : GlobalId) (s : State) : Host.Outcome State Fault Refusal := (retireCore core).toOutcome s
def execRetireUndo (core : GlobalId) (s : State) : Host.Outcome State Fault Refusal := (undoRetire core).toOutcome s

/-- MG_FAULT names the first failed unit. -/
def noteFailure (cluster : Nat) (slice : Bool) : M Unit := do
  modSys fun y =>
    if y.fault.getLsbD 63 then y
    else { y with fault := BitVec.ofNat 64 (2 ^ 63 + cluster % 4096 * 4 + (if slice then 2 else 1)) }
  raiseVector 3

/-- UNIT_FAILURE. -/
def execUnitFailure (cluster : Nat) (slice : Bool) (s : State) : Host.Outcome State Fault Refusal :=
  (noteFailure cluster slice).toOutcome s

/-! Lifecycle and tokens (R481 to R483). -/

def attestBytes (y : System) (off n : Nat) : List Byte := Store.bytes y.attest off n

/-- A move that R482 allows. -/
def lifeMove (from_ to_ : Nat) : Bool :=
  (from_ = 0 && to_ = 1) || (from_ = 1 && to_ = 2) || (from_ ≤ 2 && to_ = 4)

def lifeAdvance (target : BitVec 3) : M Unit := do
  let y := (← get).sys
  let key := attestBytes y 0xF000 64
  if lifeMove y.fuse.toNat target.toNat && !(target = 2 && key.all (· = 0)) then
    modSys fun y => { y with fuse := target, ownerKey := if target = 2 then key else y.ownerKey }
    raiseVector 5
  else modSys fun y => { y with lifeErr := true }

def execLifecycleAdvance (target : BitVec 3) (s : State) : Host.Outcome State Fault Refusal := (lifeAdvance target).toOutcome s

def issueNonce (nonce : List Byte) : M Unit := do
  let n := (nonce ++ List.replicate 32 0).take 32
  modSys fun y => { y with nonce := some n, tstat := 1, attest := Store.putBytes y.attest 0x8000 n }
  raiseVector 5

def execTokenNonce (nonce : List Byte) (s : State) : Host.Outcome State Fault Refusal := (issueNonce nonce).toOutcome s

/-- The fields of a submitted token that are zero, and its count. -/
def tokenForm (t : List Byte) : Bool :=
  let n := bytesAt t 96 1
  1 ≤ n && n ≤ 8 && bytesAt t 97 1 = 0 && bytesAt t 114 6 = 0 &&
  (List.range 8).all fun i => if i < n then bytesAt t (98 + 2 * i) 2 < 4096 else bytesAt t (98 + 2 * i) 2 = 0

/-- The 64 bytes of SHAKE256 that a rule uses. -/
def hash64 (bs : List Byte) : List Byte := (Config.shake256 bs ++ List.replicate 64 0).take 64

/-- A submitted token names this module's identity key and is signed by the owner's key (R483). -/
def System.tokenKeys (y : System) : Bool :=
  (match y.identity with
   | some d => decide (attestBytes y 0x9000 64 = hash64 d.idPublic)
   | none => false) &&
  decide (hash64 (attestBytes y 0x9080 1952) = y.ownerKey)

/-- A debug token is submitted (R483); `signed`: its signature verifies. -/
def submitToken (signed : Bool) : M Unit := do
  let s ← get
  if s.sys.life ≠ 2 then modSys fun y => { y with tstat := 4 }
  else
    let t := attestBytes s.sys 0x9000 128
    let expiry : W64 := BitVec.ofNat 64 (bytesAt t 120 8)
    let ok := tokenForm t && s.sys.tokenKeys && signed && s.sys.nonce = some ((t.drop 64).take 32) &&
      s.clk.toNat < expiry.toNat
    modSys fun y => { y with nonce := none, tstat := if ok then 2 else 3 }
    if ok then
      let asns := (List.range (bytesAt t 96 1)).map fun i => BitVec.ofNat 12 (bytesAt t (98 + 2 * i) 2)
      modSys fun y => { y with token := some { asns := asns, expiry := expiry } }
      atCycle expiry.toNat .tokenExpiry
    raiseVector 5

/-- TOKEN_SUBMIT: of its parameters, whether the signature verifies is taken; the keys' hashes are compared. -/
def execTokenSubmit (_identityOk _ownerKeyOk signatureOk : Bool) (s : State) : Host.Outcome State Fault Refusal :=
  (submitToken signatureOk).toOutcome s

def execTokenRevoke (s : State) : Host.Outcome State Fault Refusal := (modSys System.lapse).toOutcome s

def execTokenExpiry (s : State) : Host.Outcome State Fault Refusal :=
  (do
    let s ← get
    match s.sys.token with
    | some t => if t.expiry.toNat ≤ s.clk.toNat then modSys System.lapse
    | none => pure () : M Unit).toOutcome s

/-! Firmware pushes (R476, R477). -/

/-- Runs a command of MG_FWCTL, which answers FWST; a command written while BUSY is ignored. -/
def fwCommand (m : M (BitVec 4)) : M Unit := do
  if !(← get).sys.fw.busy then
    let r ← m
    modSys fun y => { y with fw := { y.fw with busy := true, result := r } }
    laterOnce .fwctlComplete

def modFw (f : Firmware → Firmware) : M Unit := modSys fun y => { y with fw := f y.fw }

def fwBegin (arg len : Nat) : M Unit := fwCommand do
  let n := 1024 * arg + len
  if n = 0 || 67108864 < n || 1023 < len then return 2
  modFw fun f => { f with staged := [], stagedLen := 0, begun := some n }
  return 0

def fwChunk (arg len : Nat) : M Unit := fwCommand do
  let f := (← get).sys.fw
  match f.begun with
  | none => return 1
  | some n =>
    if 1024 * arg ≠ f.stagedLen then return 1
    let to_ := f.stagedLen + len
    if len = 0 || 1048576 < len || n < to_ || (to_ ≠ n && len % 1024 ≠ 0) then return 2
    modFw fun f => { f with staged := Store.putBytes f.staged f.stagedLen (Store.bytes f.window 0 len), stagedLen := to_ }
    return 0

/-- What verifying the staged image gives, in the order key, signature, version (R476; DESIGN CHOICE: log 41). -/
def System.verdict (y : System) (signed : Bool) : FwVerdict :=
  let image := Store.bytes y.fw.staged 0 y.fw.stagedLen
  if Config.imageKeyHash (image.take 4096) ≠ y.vendorKey then .key
  else if !signed then .signature
  else if Config.imageVersion (image.take 4096) < y.minVersion then .version
  else .ok

/-- COMMIT. `signed`: the staged image's signature verifies. -/
def fwCommit (signed flashOk : Bool) : M Unit := fwCommand do
  let f := (← get).sys.fw
  if f.begun ≠ some f.stagedLen then return 1
  match (← get).sys.verdict signed with
  | .key => return 3
  | .signature => return 4
  | .version => return 5
  | .ok =>
    if flashOk then
      let wait := (← get).sys.fwwait
      modFw fun f => { f with flash := f.staged, flashLen := f.stagedLen, valid := true, reboot := wait }
      return 0
    else
      modFw fun f => { f with valid := false }
      return 6

def fwAbort : M Unit := fwCommand (do
  modFw fun f => { f with staged := [], stagedLen := 0, begun := none }
  return 0)

def execFwBegin (arg : BitVec 24) (len : BitVec 21) (s : State) : Host.Outcome State Fault Refusal :=
  (fwBegin arg.toNat len.toNat).toOutcome s
def execFwChunk (arg : BitVec 24) (len : BitVec 21) (s : State) : Host.Outcome State Fault Refusal :=
  (fwChunk arg.toNat len.toNat).toOutcome s
/-- COMMIT by the host; of `verdict`, whether the signature verifies is taken, and the rest is compared. -/
def execFwCommit (verdict : FwVerdict) (flashOk : Bool) (s : State) : Host.Outcome State Fault Refusal :=
  (fwCommit (decide (verdict ≠ .signature)) flashOk).toOutcome s
def execFwAbort (s : State) : Host.Outcome State Fault Refusal := M.toOutcome fwAbort s

/-- FWCTL_COMPLETE: FWST and vector 5; an image committed while the boot ROM waits is followed by a reset. -/
def execFwctlComplete (s : State) : Host.Outcome State Fault Refusal :=
  (do
    let f := (← get).sys.fw
    if f.busy then
      if f.reboot then modify State.coldStart
      modFw fun g => { g with busy := false, fwst := f.result }
      raiseVector 5 : M Unit).toOutcome s

/-! Attestation (R475, R476, R478). -/

/-- The measurement of the image in flash: the 64-byte hash of its header and body. -/
def Firmware.measurement (f : Firmware) : List Byte := hash64 (Store.bytes f.flash 0 (f.flashLen - 3309))

/-- What the boot ROM derives at a boot from the device secret and the image that it accepts (R475). The random draw of its
signature is a free value. -/
def State.derive (s : State) : Identity :=
  let secret := natToBytes 32 s.sys.secret.toNat
  let m := s.sys.fw.measurement
  let idSeed := Config.shake256 (secret ++ [0x58, 0x5A, 0x2D, 0x49, 0x44])
  let aliasSeed := Config.shake256 (secret ++ m)
  { idPublic := Config.mldsaPublic idSeed, idPrivate := Config.mldsaPrivate idSeed, measured := m,
    aliasPublic := Config.mldsaPublic aliasSeed, aliasPrivate := Config.mldsaPrivate aliasSeed,
    cert := Config.mldsaSign (Config.mldsaPrivate idSeed) (Config.mldsaPublic aliasSeed) (freeBytes (2 ^ 23 + 64) s.ticks 32) }

/-- The evidence as bytes, in the order of R478; their layout is the model's (DESIGN CHOICE: log 41). -/
def Evidence.message (e : Evidence) : List Byte :=
  e.nonce ++ e.measurement ++ natToBytes 1 e.life.toNat ++ e.topo.flatMap (fun t => natToBytes 8 t.toNat) ++
  e.retired.flatMap (natToBytes 4) ++ natToBytes 8 e.fault.toNat ++ natToBytes 1 (if e.token then 1 else 0) ++ e.cert

/-- The attestation buffer with the answer to a request: the evidence and its signature. -/
def Evidence.answer (e : Evidence) (buf : Store Byte) : Store Byte :=
  Store.putBytes buf 0 ((e.message ++ e.signature).take 65536)

/-- ATTESTATION_REQUEST: the evidence of the firmware that runs, signed with the alias key, and vector 5. `drawn`: what its
signer draws at random. -/
def execAttestationRequest (nonce drawn : List Byte) (s : State) : Host.Outcome State Fault Refusal :=
  (do
    let s ← get
    match s.sys.identity with
    | none => pure ()
    | some d =>
      let e : Evidence :=
        { nonce := (nonce ++ List.replicate 32 0).take 32, measurement := d.measured, life := BitVec.ofNat 3 s.sys.lifeNow,
          topo := (List.range Config.siteCount).map s.siteTopo, retired := s.sys.retiredMap, fault := s.sys.fault,
          token := s.sys.token.isSome, cert := d.cert, signature := [] }
      let signed : Evidence := { e with signature := Config.mldsaSign d.aliasPrivate e.message drawn }
      modSys fun y => { y with evidence := some signed, attest := signed.answer y.attest }
      raiseVector 5 : M Unit).toOutcome s

/-! Soft errors (R485). -/

/-- A corrected error counts, saturating; an uncorrectable one counts and raises vector 4. -/
def softError (uncorrectable : Bool) : M Unit := do
  if uncorrectable then
    modSys fun y => { y with uncorr := y.uncorr + 1 }
    raiseVector 4
  else modSys fun y => { y with corr := if y.corr = 0xFFFFFFFF then y.corr else y.corr + 1 }

/-- An error found in a 32-byte atom; true: uncorrectable. -/
def atomError (e : Nat × Bool) : M Unit := do
  if e.2 then
    modify fun s =>
      let p := if s.poison.contains e.1 then s.poison else e.1 :: s.poison
      { s with poison := p }
  softError e.2

/-- PATROL_SCRUB: errors found, by atom. -/
def execPatrolScrub (found : List (Nat × Bool)) (s : State) : Host.Outcome State Fault Refusal :=
  (found.forM atomError : M Unit).toOutcome s

/-- ROW_SCRUB: `bad`: an error found in the row; true: uncorrectable. -/
def execRowScrub (core row : Nat) (bad : Option Bool) (s : State) : Host.Outcome State Fault Refusal :=
  (match bad with
   | none => pure ()
   | some u => do
     if u then modCore core fun c => c.putTag row (c.tag row ||| 0x00800000)
     softError u : M Unit).toOutcome s

/-! Host messages (R470, R486). -/

/-- A host message enters the mesh at the host interface. -/
def hostSend (core : GlobalId) (r : TaskRec) : M Unit := do
  let s ← get
  if (s.target (core.setWidth 64)).isSome then
    hostFlit core 6 (.task · r)

/-- HOST_ACTIVE_MESSAGE: a doorbell write; until READY it is held, one of at most 64. -/
def execHostActiveMessage (core : GlobalId) (entry arg0 arg1 : W64) (s : State) : Host.Outcome State Fault Refusal :=
  (do
    let r : TaskRec := { entry := entry, arg0 := arg0, arg1 := arg1, sender := hostId, launch := 0, kind := 2 }
    let y := (← get).sys
    if y.up then hostSend core r
    else if y.power ≠ 3 && y.doorbell.length < 64 then modSys fun y => { y with doorbell := y.doorbell ++ [(core, r)] } : M Unit).toOutcome s

/-- HOST_MESSAGE_RING: a record for the host reaches the ring. -/
def execHostMessageRing (r : TaskRec) (s : State) : Host.Outcome State Fault Refusal :=
  (hostArrive r).toOutcome s

/-! Bring-up (R474, R486). -/

/-- The decoders of a port from its window's base on, within the window: one for each of the first eight ranges of at least
256 MiB. -/
def packDecoders (time end_ : Nat) : Nat → List Nat → List (Nat × Nat × Nat)
  | _, [] => []
  | base, n :: rest =>
    let size := min (n / 2 ^ 28 * 2 ^ 28) (end_ - base)
    if size = 0 then packDecoders time end_ base rest else (base, size, time) :: packDecoders time end_ (base + size) rest

def portBase (port : Nat) : Nat := if port = 0 then 0x1000000000000 else 0x8000000000000

/-- The decoders of both ports: for each, its largest response time and its devices' ranges. -/
def portDecoders (cxl : List (Nat × List Nat)) : List (Nat × Nat × Nat) :=
  (List.range 2).flatMap fun p =>
    let x := cxl.getD p (0, [])
    packDecoders x.1 (portBase p + 0x7000000000000) (portBase p) (x.2.take 8)

/-- Where firmware puts the supervisor region's RCB and translation root: behind the records of site 0 (log 39). -/
def supervisorRcb : Nat := frameBase 0 49151 + 0x100000
def supervisorRoot : Nat := frameBase 0 49151 + 0x101000

/-- CL_OVF as firmware sets it: LOG2S a legal one. -/
def firmwareOvf (cl : Nat) : W64 :=
  let v := Config.ovfArea cl &&& 0x03FFFFFFFFFFFFC0
  let n := field v 52 6
  if n = 0 || (6 ≤ n && n ≤ 20) then v else (v &&& 0x000FFFFFFFFFFFC0) ||| 0x00A0000000000000

/-- The records of a site's frame table and reserve. -/
def State.frameTable (s : State) (site : Nat) : State :=
  let s1 := s.putRecord site 49151 (BitVec.ofNat 128 (4 * 2 ^ 125 + 2 ^ 124))
  (getSiteState s site).reserve.foldl (fun s f => s.putRecord site f (BitVec.ofNat 128 (6 * 2 ^ 125))) s1

/-- The supervisor region's RCB: PRIO and MAXD 15, FT, NEWFD, OPRIO, all rights, no limits. -/
def supervisorWords : List Nat :=
  [0, 15 * 2 ^ 60 + 2 ^ 57 + 2 ^ 56 + 15 * 2 ^ 52 + 2 ^ 39 + 7 * 2 ^ 36, supervisorRoot, 0, 0, 0, 0, 0, 0, 0] ++
  List.replicate 6 0xFFFFFFFF

/-- Steps 3 to 7 for a module whose units are whole. -/
def finishBringUp : M Unit := do
  modify fun s =>
    let cores := s.cores.foldl (fun m k =>
      Store.set Core.reset m k.1 { k.2 with rows := [], fe := [], tags := [] }) []
    { s with cores := cores, here := { s.here with rows := [], fe := [], tags := [] } }
  for site in List.range Config.siteCount do modify fun s => s.frameTable site
  modify fun s =>
    let made (n : Nat) : Cluster := { Store.get Cluster.reset s.clusters n with split := false, ovf := firmwareOvf n }
    { s with clusters := (List.range Config.clusterCount).map fun n => (n, made n) }
  for i in List.range supervisorWords.length do putRcbWord supervisorRcb i (supervisorWords.getD i 0)
  openRegion supervisorRcb 0 15
  let held := (← get).sys.doorbell
  modSys fun y => { y with supRcb := supervisorRcb, fwLaunch := Config.fwLaunch &&& 0x01FFFFFFFFFFFFF8, up := true,
                           doorbell := [] }
  raiseVector 7
  for m in held do hostSend m.1 m.2
  if (← get).sys.wanted = some 0 then
    modSys fun y => { y with wanted := none }
    raiseVector 6

/-- BRING_UP: `failed`: a failed unit that the test of step 3 finds; `found`: what firmware finds around the
module (01_package.md R15; R474). -/
def execBringUp (failed : Option (Nat × Bool)) (found : Surroundings) (s : State) : Host.Outcome State Fault Refusal :=
  (do
    let y := (← get).sys
    if !y.up && !y.fault.getLsbD 63 && (y.power = 0 || (y.power = 3 && y.wanted = some 0)) then
      modSys fun y => { y with life := y.fuse, power := 0, retired := y.retiredMap, fwwait := !y.fw.valid }
      if y.fw.valid then
        modify fun s => { s with sys := { s.sys with identity := some s.derive } }
        if y.fuse = 4 then
          -- retired: firmware only zeroises
          modify fun s =>
            let cores := s.cores.foldl (fun m k => Store.set Core.reset m k.1 { k.2 with rows := [] }) []
            { s with mem := s.mem.filter (fun e => tier2 e.1), homes := [], sram := [], cores := cores, here := { s.here with rows := [] } }
        else
          modSys fun y => { y with cxl := portDecoders found.cxl }
          for n in List.range 12 do modSite n fun t => { t with topoMesh := found.mods }
          match failed with
          | some u => noteFailure u.1 u.2
          | none => finishBringUp : M Unit).toOutcome s

/-! The ctrl space (R471 to R473). -/

/-- What an address of the ctrl space, cut to 8 bytes, names. -/
inductive CtrlReg where
  | mg (k : Nat)
  | topo (site : Nat)
  | slot (s : CmdSlot) (word : Nat)
  | select
  | entry (word : Nat)
  | tchCmd (word : Nat)
  | tchReply (word : Nat)
  | grid (cluster : Nat)
  | counter (cluster n : Nat)
  deriving DecidableEq, Repr

/-- The register at an address of the ctrl space (R471), none where it is unpopulated: the rest of the management range
names no register and counts as unpopulated (DEDUCED, log 48). -/
def ctrlReg (a : Nat) : Option CtrlReg :=
  let w := a / 8
  if a < 0x58 then some (.mg w)
  else if 0x1000 ≤ a && a < 0x1060 then some (.topo ((a - 0x1000) / 8))
  else if 0x10000 ≤ a && a < 0x10040 then some (.slot .host (w % 8))
  else if 0x10100 ≤ a && a < 0x10140 then some (.slot .sup (w % 8))
  else if 0x20000 ≤ a && a < 0x20008 then some .select
  else if 0x20010 ≤ a && a < 0x20030 then some (.entry ((a - 0x20010) / 8))
  else if 0x30000 ≤ a && a < 0x30038 then some (.tchCmd ((a - 0x30000) / 8))
  else if 0x30040 ≤ a && a < 0x30078 then some (.tchReply ((a - 0x30040) / 8))
  else if 0x100000 ≤ a && a < 0x100000 + 0x1000 * Config.clusterCount then
    let off := a % 0x1000
    if off < 8 then some (.grid ((a - 0x100000) / 0x1000))
    else if 0x100 ≤ off && off < 0x120 then some (.counter ((a - 0x100000) / 0x1000) ((off - 0x100) / 8))
    else none
  else none

/-- MG_STATUS. -/
def State.mgStatus (s : State) : Nat :=
  let y := s.sys
  let p := if y.power = 0 && s.clusters.any (·.2.gated) then 1 else y.power
  (if y.lifeErr then 2 ^ 8 else 0) + y.lifeNow * 2 ^ 5 + p * 2 ^ 3 + (if y.fwwait then 4 else 0) +
  (if y.linkFail then 2 else 0) + (if y.up then 1 else 0)

/-- Half of MG_CXLLAT: the largest response time of a port's enabled devices, saturating. -/
def cxlTime (y : System) (port : Nat) : Nat :=
  y.cxl.foldl (fun m d => if decide (portBase 1 ≤ d.1) = decide (port = 1) then max m (min d.2.2 0xFFFFFFFF) else m) 0

/-- A management register as it reads. -/
def State.mgRead (s : State) (k : Nat) : W64 :=
  let y := s.sys
  match k with
  | 0 => BitVec.ofNat 64 s.mgStatus
  | 3 => BitVec.ofNat 64 (y.supRcb / 256 % 2 ^ 44 * 256)
  | 4 => y.fwLaunch
  | 6 => BitVec.ofNat 64 (y.tstat * 2 ^ 32)
  | 7 => BitVec.ofNat 64 ((if y.fw.busy then 2 ^ 60 else 0) + y.fw.fwst.toNat * 2 ^ 56)
  | 8 => y.uncorr ++ y.corr
  | 9 => BitVec.ofNat 64 (cxlTime y 1 * 2 ^ 32 + cxlTime y 0)
  | 10 => y.fault
  | _ => 0

/-- A shard entry (13_rays.md R359). -/
def Treelet.word (t : Treelet) : BitVec 256 :=
  BitVec.ofNat 256
    (t.state * 2 ^ 254 + t.asn.toNat * 2 ^ 242 + t.id.toNat * 2 ^ 210 + t.to_.owner.toNat * 2 ^ 188 +
     t.to_.rep0.toNat * 2 ^ 166 + t.to_.rep1.toNat * 2 ^ 144 + t.to_.rep2.toNat * 2 ^ 122 + t.heat.toNat * 2 ^ 106 +
     t.hot.toNat * 2 ^ 90 + t.first % 2 ^ 11 * 2 ^ 79 + t.ncnt % 2 ^ 9 * 2 ^ 70 + t.nodes % 2 ^ 57)

/-- The directory entry that SELECT names, 0 where it names none. Ways are taken in order of age or address (log 24). -/
def State.dirEntry (s : State) (v : W64) : BitVec 256 :=
  let way := field v 0 3
  if field v 62 2 = 0 then
    let site := field v 40 4
    let slice := field v 31 9
    if v &&& 0xFFFFF0007FFFE000 ≠ 0 || 12 ≤ site || 280 ≤ slice then 0 else
    let cl := ((site / 3) * 20 + slice / 14) * 42 + (site % 3) * 14 + slice % 14
    let l := (Store.get Cluster.reset s.clusters cl).fwd.filter fun e => fwdSet e.1 = field v 3 10
    match l[way]? with
    | some e => e.2.setWidth 256
    | none => 0
  else if field v 62 2 = 1 then
    let cl := field v 32 12
    if v &&& 0x3FFFF000FFFFFE00 ≠ 0 || Config.clusterCount ≤ cl then 0 else
    let l := (Store.get Cluster.reset s.clusters cl).treelets.filter fun t => treeletSet t.id = field v 3 6
    match l[way]? with
    | some t => t.word
    | none => BitVec.ofNat 256 (0x3FFFFF * (2 ^ 166 + 2 ^ 144 + 2 ^ 122))
  else 0

/-- DIRECTORY_WINDOW_READ: a read of +16 latches the selected entry. -/
def execDirectoryWindowRead (s : State) : Host.Outcome State Fault Refusal :=
  (modify fun s => { s with sys := { s.sys with dirLatch := s.dirEntry s.sys.dirSel } } : M Unit).toOutcome s

def slotWords (y : System) : CmdSlot → List W64
  | .host => y.cmdHost
  | .sup => y.cmdSup

def putSlotWords (s : CmdSlot) (l : List W64) : M Unit :=
  modSys fun y => match s with
    | .host => { y with cmdHost := l }
    | .sup => { y with cmdSup := l }

/-- A read of a register of the ctrl space. -/
def ctrlRead (r : CtrlReg) : M W64 := do
  let s ← get
  match r with
  | .mg k => return s.mgRead k
  | .topo n => return s.siteTopo n
  | .slot c w => return (slotWords s.sys c).getD w 0
  | .select => return s.sys.dirSel
  | .entry w =>
    if w = 0 then modify fun s => { s with sys := { s.sys with dirLatch := s.dirEntry s.sys.dirSel } }
    return (← get).sys.dirLatch.extractLsb' (64 * w) 64
  | .tchCmd w => return BitVec.ofNat 64 (bytesToNat (Store.bytes s.sys.tchCmd (8 * w) 8))
  | .tchReply w => return BitVec.ofNat 64 (bytesAt s.sys.tchReply (8 * w) 8)
  | .grid c => return (Store.get Cluster.reset s.clusters c).lgrid
  | .counter c n => return Store.get 0 (Store.get Cluster.reset s.clusters c).unitCnt (4 + n)

/-- A slot's previous command has not yet set DONE. -/
def State.slotBusy (s : State) (c : CmdSlot) : Bool :=
  s.pending.any fun e => match e with
    | .command d _ _ _ _ => decide (d = c)
    | _ => false

/-- COMMAND written (R472). -/
def writeCommand (c : CmdSlot) (v : W64) : M Unit := do
  let s ← get
  let l := slotWords s.sys c
  let l5 := l ++ List.replicate (5 - l.length) 0
  if s.slotBusy c then putSlotWords c (l5.set 4 (l5.getD 4 0 ||| 0x200))
  else
    putSlotWords c ((l5.set 0 v).set 4 0)
    later (.command c v.toNat (l5.getD 1 0) (l5.getD 2 0) (l5.getD 3 0))

/-- The command that the Tchios slot holds goes to its cluster (R452). -/
def sendCtrl (host : Bool) : M Unit := do
  let s ← get
  let bs := Store.bytes s.sys.tchCmd 0 52
  let w1 := bytesAt bs 8 8
  let gid : GlobalId := BitVec.ofNat 22 w1
  let core := match s.localCore gid with
    | some k => k
    | none => Config.coreCount + gid.toNat
  let q : Dbg := { viaHost := host, tag := BitVec.ofNat 8 (bytesAt bs 1 1), ctx := ⟨core, seatOf (w1 / 2 ^ 22 % 64)⟩ }
  hostFlit (s.globalId (if core < Config.coreCount then clusterCore0 (clusterOf core) else 0)) 0
    fun h => .ctrl (clusterOf core) { hdr := h, opcode := BitVec.ofNat 8 (bytesAt bs 0 1), dbg := q, args := bs.drop 16 }

/-- A write of a management register: `m` has a bit for every byte written, `v` is 0 elsewhere (log 43). -/
def mgWrite (k : Nat) (m : BitVec 8) (v : W64) : M Unit := do
  let s ← get
  match k with
  | 0 => modSys fun y => { y with lifeErr := y.lifeErr && !v.getLsbD 8, linkFail := y.linkFail && !v.getLsbD 1 }
  | 1 => if m.getLsbD 0 && field v 0 2 ≠ 1 then powerRequest (field v 0 2)
  | 2 =>
    if m.getLsbD 0 then
      if v.getLsbD 63 then undoRetire (v.setWidth 22) else retireCore (v.setWidth 22)
  | 5 => if m.getLsbD 0 then lifeAdvance (v.setWidth 3)
  | 6 =>
    if m.getLsbD 0 then
      match field v 0 2 with
      | 1 => issueNonce (freeBytes (2 ^ 23) s.ticks 32)
      | 2 =>
        submitToken (Config.tokenSigned (attestBytes s.sys 0x9080 1952) (attestBytes s.sys 0x9000 2080)
          (attestBytes s.sys 0x9820 3309))
      | 3 => modSys System.lapse
      | _ => pure ()
  | 7 =>
    if m.getLsbD 7 then
      match field v 61 3 with
      | 1 => fwBegin (field v 32 24) (field v 0 21)
      | 2 => fwChunk (field v 32 24) (field v 0 21)
      | 3 =>
        let signed := Config.imageSigned s.sys.vendorKey (Store.bytes s.sys.fw.staged 0 s.sys.fw.stagedLen)
        fwCommit signed ((Config.freeByte (2 ^ 23 + 32) s.ticks).getLsbD 0)
      | 4 => fwAbort
      | _ => pure ()
  | 8 => modSys fun y => { y with uncorr := y.uncorr &&& ~~~(v.extractLsb' 32 32), corr := y.corr &&& ~~~(v.setWidth 32) }
  | _ => pure ()

/-- The bits of the bytes written. -/
def laneMask (m : BitVec 8) : W64 :=
  (List.range 8).foldl (fun w i => if m.getLsbD i then w ||| BitVec.ofNat 64 (255 * 2 ^ (8 * i)) else w) 0

/-- A write of a register of the ctrl space: the bytes of `v` that `m` names. -/
def ctrlWrite (host : Bool) (r : CtrlReg) (m : BitVec 8) (v : W64) : M Unit := do
  let s ← get
  let mask := laneMask m
  let merge (old : W64) : W64 := (old &&& ~~~mask) ||| (v &&& mask)
  match r with
  | .mg k => mgWrite k m (v &&& mask)
  | .slot c w =>
    let l := slotWords s.sys c
    let l5 := l ++ List.replicate (5 - l.length) 0
    if w = 0 then writeCommand c (v &&& mask)
    else if w < 4 then putSlotWords c (l5.set w (merge (l5.getD w 0)))
  | .select => modSys fun y => { y with dirSel := merge y.dirSel }
  | .tchCmd w =>
    let old : W64 := BitVec.ofNat 64 (bytesToNat (Store.bytes s.sys.tchCmd (8 * w) 8))
    let new := natToBytes 8 (merge old).toNat
    modSys fun y => { y with tchCmd := Store.putBytes y.tchCmd (8 * w) (if w = 6 then new.take 4 else new) }
    if w = 0 && m.getLsbD 0 then sendCtrl host
  | .grid c =>
    if !host then
      modCluster c fun k => { k with lgrid := merge k.lgrid &&& 0xFC0FFFFFFFFFFFC0 }
      gridNext c
  | _ => pure ()

/-- A write of 8 bytes at an offset of BAR2 but for the doorbell (R470): the message ring, whose oldest entry it releases
(log 44), the staging window, the attestation buffer and the MSI-X table. -/
def bar2Write (off : Nat) (v : W64) : M Unit := do
  if 0x1000 ≤ off && off < 0x2000 then
    modSys fun y => { y with ring := y.ring.drop 1 }
    let y := (← get).sys
    match y.hostWait with
    | r :: rest =>
      if y.ring.length < 64 then
        modSys fun y => { y with ring := y.ring ++ [r], hostWait := rest }
        raiseVector 1
    | [] => pure ()
  else if 0x10000 ≤ off && off < 0x110000 then
    modFw fun f => { f with window := Store.putBytes f.window (off - 0x10000) (natToBytes 8 v.toNat) }
  else if 0x200000 ≤ off && off < 0x210000 then
    modSys fun y => { y with attest := Store.putBytes y.attest (off - 0x200000) (natToBytes 8 v.toNat) }
  else if 0x3F0000 ≤ off && off < 0x3F0080 then
    -- a vector that its entry no longer masks is pending no more
    modSys fun y =>
      let y1 := { y with msixTable := Store.putBytes y.msixTable (off - 0x3F0000) (natToBytes 8 v.toNat) }
      { y1 with msixPend := y.msixPend &&& (List.range 8).foldl (fun m n => if y1.masked n then m ||| BitVec.ofNat 8 (2 ^ n) else m) 0 }

/-- REGISTER_WRITE: the host or the supervisor writes 8 bytes of the ctrl space; the host's addresses from 16 MiB on are
those of BAR2. -/
def execRegisterWrite (host : Bool) (addr : Nat) (v : W64) (s : State) : Host.Outcome State Fault Refusal :=
  (if addr < 2 ^ 24 then
     match ctrlReg (addr / 8 * 8) with
     | some r => ctrlWrite host r 0xFF v
     | none => pure ()
   else if host then bar2Write ((addr - 2 ^ 24) / 8 * 8) v else pure () : M Unit).toOutcome s

end Sys2Proof.Machine
end

