-- ==== Sys2Proof/Machine/MeshEvents.lean ====
section
/-! DEFINITION. The recovery of failed flits and the reinjection of parked ones (12_mesh.md R322, R325, R327). -/

namespace Sys2Proof.Machine

/-- A parked flit on its way again. -/
def unpark (h : Hdr) (p : Parkable) : Ev :=
  let h1 : Hdr := { h with reinj := true }
  match p with
  | .ray b => .ray h1 b
  | .hit b => .hit h1 b
  | .task r => .task h1 r
  | .ret t v w => .ret h1 t v w
  | .msg n len b => .msg h1 n len b
  | .qdata n q w es => .qdata h1 n q w es
  | .key n b sl w v => .key h1 n b sl w v

/-- The oldest parked flit of each place, from a list in age order. -/
def oldestParked : List (Nat × Hdr × Parkable) → List (Nat × Hdr × Parkable) → List (Nat × Hdr × Parkable)
  | _, [] => []
  | seen, q :: rest =>
    let again := seen.any fun o => o.2.1.dst = q.2.1.dst && parkPlace o.2.2 = parkPlace q.2.2
    if again then oldestParked seen rest else q :: oldestParked (q :: seen) rest

/-- A flit read back from its slot, and checked again (R321). -/
def readBack (cluster : Nat) (q : Nat × Hdr × Parkable) : M Ev := do
  let k ← getCluster cluster
  let bs ← readPhysBytes (field k.ovf 6 46 * 64 + 64 * q.1) 64
  -- a header that the slot no longer holds fails with the flit that was parked there
  let h := hdrOfImage bs true
  let same := h.src = q.2.1.src && h.dst = q.2.1.dst && h.seq = q.2.1.seq && imageTy bs = some (parkTy q.2.2)
  return unpark { q.2.1 with good := imageGood bs && same } (parkOfImage q.2.2 bs)

/-- A parked flit has been read back and is on its way to its core. -/
def State.onItsWay (s : State) (q : Nat × Hdr × Parkable) : Bool :=
  s.pending.any fun e => e.ty = parkTy q.2.2 && e.hdr.any fun h =>
    h.reinj && h.src = q.2.1.src && h.dst = q.2.1.dst && h.seq = q.2.1.seq

/-- REINJECT: the oldest flit of each queue, ring or bin, among those parked from `index` on, is read back and offered to
its core; it keeps its slot until it finds room. -/
def execReinject (cluster index : Nat) (s : State) : Host.Outcome State Fault Refusal :=
  (do
    let k ← getCluster cluster
    let out := (oldestParked [] k.parked).filter fun q => (k.parked.drop index).contains q && !s.onItsWay q
    let evs ← out.mapM (readBack cluster)
    modify fun s => { s with pending := evs ++ s.pending } : M Unit).toOutcome s

/-- An event is the flit of a header and a type. -/
def Ev.isFlit (e : Ev) (ty : FlitTy) (h : Hdr) : Bool :=
  match e.hdr with
  | some g => e.ty = ty && g.src = h.src && g.dst = h.dst && g.seq = h.seq
  | none => false

/-- A flit that arrives corrupted. -/
def Ev.spoil (e : Ev) : Ev :=
  let bad (h : Hdr) : Hdr := { h with good := false }
  match e with
  | .ack h a b c d f => .ack (bad h) a b c d f
  | .copy h l => .copy (bad h) l
  | .red h l => .red (bad h) l
  | .qdata h a b c d => .qdata (bad h) a b c d
  | .credit h a b => .credit (bad h) a b
  | .msg h a b c => .msg (bad h) a b c
  | .key h a b c d f => .key (bad h) a b c d f
  | .task h r => .task (bad h) r
  | .ret h a b c => .ret (bad h) a b c
  | .ray h b => .ray (bad h) b
  | .hit h b => .hit (bad h) b
  | .nack h a b => .nack (bad h) a b
  | .mreq h r => .mreq (bad h) r
  | .mresp h a b c => .mresp (bad h) a b c
  | .ctrl a c => .ctrl a { c with hdr := bad c.hdr }
  | .cresp h b => .cresp (bad h) b
  | .forwarded h a b => .forwarded (bad h) a b
  | .roundNotice h a b c => .roundNotice (bad h) a b c
  | e => e

/-- SELVEDGE_REPLAY: a link replays a flit that failed its check, up to 3 times and 24 cycles each; a fourth failure marks
the link failed, reported to the host (19_system.md R470), and the flit arrives as failed. -/
def execSelvedgeReplay (link : Nat) (ty : FlitTy) (h : Hdr) (tries : Nat) (s : State) :
    Host.Outcome State Fault Refusal :=
  (do
    if tries ≤ 3 then
      match (← get).pending.find? (·.isFlit ty h) with
      | some e =>
        modify fun s => { s with pending := s.pending.erase e }
        atCycle ((← now) + 24) e
      | none => pure ()
    else
      modSys fun y => { y with linkFail := true, links := if y.links.contains link then y.links else y.links ++ [link] }
      raiseVector 3
      modify fun s => { s with pending := s.pending.map fun e => if e.isFlit ty h then e.spoil else e } : M Unit).toOutcome s

/-- The entry of a recovery table that awaits a flit. -/
def awaited (l : List Recov) (src : GlobalId) (vc : Nat) (seq : BitVec 12) : Option Recov :=
  l.find? fun r => r.src = src && r.vc = vc && r.seq = seq && !r.final

/-- That entry's flit has failed for good. -/
def markFinal (l : List Recov) (r : Recov) : List Recov := l.map fun x => if x = r then { x with final := true } else x

/-- A flit that a NACK names, at its destination, fails for good. -/
def failNamed (dest src : GlobalId) (vc : Nat) (seq : BitVec 12) : M Unit := do
  let s ← get
  match s.localCore dest with
  | some d =>
    match awaited (s.core d).recov src vc seq with
    | some r =>
      modCore d fun c => { c with recov := markFinal c.recov r }
      finalFailure d r.ev
    | none => pure ()
  | none =>
    if dest = hostId then
      match awaited s.sys.hostRecov src vc seq with
      | some r =>
        modSys fun y => { y with hostRecov := markFinal y.hostRecov r }
        finalFailure ((s.localCore src).getD 0) r.ev
      | none => pure ()

/-- NACK: its sender resends the flit that it names and every later one to the same destination on the same channel that it
still holds; a flit no longer held fails for good, and so does one whose NACK fails. A NACK behind a flit that its
receiver awaits is discarded with the rest. -/
def execNack (h : Hdr) (ty : FlitTy) (seq : BitVec 12) (s : State) : Host.Outcome State Fault Refusal :=
  (do
    let s ← get
    let core := s.localCore h.dst
    let vc := tyVc ty
    let table := match core with
      | some k => (s.core k).recov
      | none => s.sys.hostRecov
    let kept := match core with
      | some k => (s.core k).held
      | none => s.sys.hostHeld
    if (core.isNone && h.dst ≠ hostId) || table.any fun r => r.src = h.src && r.vc = 2 then pure ()
    else
      let mine := kept.filter fun x => x.dst = h.src && x.vc = vc && s.clk.toNat < x.until_
      let again := mine.dropWhile fun x => (x.ev.hdr.map (·.seq)) ≠ some seq
      if !h.good then
        match core with
        | some k => bumpUnit k 1
        | none => pure ()
      if !h.good || again.isEmpty then failNamed h.src h.dst vc seq
      else for x in again do later x.ev : M Unit).toOutcome s

/-- RECOVERY_EXPIRY: 2,048 cycles after it was made, a recovery entry ends, and its flit fails for good. -/
def execRecoveryExpiry (core : Nat) (src : GlobalId) (vc : BitVec 3) (s : State) : Host.Outcome State Fault Refusal :=
  (do
    let s ← get
    let ended (r : Recov) : Bool := r.src = src && r.vc = vc.toNat && r.until_ ≤ s.clk.toNat
    if core = hostCore then
      match s.sys.hostRecov.find? ended with
      | none => pure ()
      | some r =>
        modSys fun y => { y with hostRecov := y.hostRecov.erase r }
        if !r.final then finalFailure ((s.localCore src).getD 0) r.ev
    else
      match (s.core core).recov.find? ended with
      | none => pure ()
      | some r =>
        modCore core fun c => { c with recov := c.recov.erase r }
        if !r.final then finalFailure core r.ev : M Unit).toOutcome s

/-- FLIT_HOLD_EXPIRY: a core, or the host, gives up a flit that it has kept for 1,024 cycles. -/
def execFlitHoldExpiry (core index : Nat) (s : State) : Host.Outcome State Fault Refusal :=
  (do
    let now ← now
    let given (l : List Held) : List Held := match l[index]? with
      | some x => if x.until_ ≤ now then l.eraseIdx index else l
      | none => l
    if core = hostCore then modSys fun y => { y with hostHeld := given y.hostHeld }
    else modCore core fun c => { c with held := given c.held } : M Unit).toOutcome s

end Sys2Proof.Machine
end

