-- ==== Sys2Proof/Machine/Pair.lean ====
section
/-! DEFINITION. Paired words (02_clauses.md R43 to R45; 04_registers.md R113, R114). -/

namespace Sys2Proof.Machine

/-- A register field of a half as an operand; 32 to 63 name nothing (R43). -/
def halfOpnd (f : BitVec 6) : Opnd := f.setWidth 10

/-- The integer entries (R113). -/
def intHalf (op m : Nat) (a b d : W32) : W32 :=
  let signed := 2 ≤ m % 4
  let low := m % 2 = 1
  match op with
  | 0x00 => addLane signed low a b
  | 0x01 => subLane signed low a b
  | 0x02 => mulLane false .lo a b
  | 0x03 => mulLane signed .hi a b
  | 0x04 => a * b + d
  | 0x05 => minmaxLane signed false a b
  | 0x06 => minmaxLane signed true a b
  | 0x07 => a &&& b
  | 0x08 => a ||| b
  | 0x09 => a ^^^ b
  | 0x0A => a &&& ~~~b
  | 0x0B => shLane false .shl a b
  | 0x0C => shLane signed .shr a b
  | 0x0D => shLane false (if low then .rotl else .rotr) a b
  | 0x0E => a
  | 0x0F => BitVec.ofNat 32 (popcount a.toNat 32)
  | 0x10 => BitVec.ofNat 32 (leadingZeros a.toNat 32)
  | 0x11 => BitVec.ofNat 32 (reverseBits a.toNat 32)
  | 0x12 => if low then clampInt true (a.toInt.natAbs : Int) else BitVec.ofInt 32 (a.toInt.natAbs : Int)
  | 0x13 => if low then clampInt true (-a.toInt) else BitVec.ofInt 32 (-a.toInt)
  | 0x14 => BitVec.ofInt 32 ((laneInt signed a + laneInt signed b + 1) / 2)
  | _ => d + BitVec.ofInt 32 (laneInt signed a - laneInt signed b).natAbs

/-- Rounding of a half's modifier [2:0] (R113). -/
def halfRnd (m : Nat) : Rnd :=
  match m with
  | 1 => .rne
  | 2 => .rtz
  | 3 => .rup
  | 4 => .rdn
  | 5 => .rna
  | 7 => .rto
  | _ => .dyn

/-- The floating-point entries (R113), all on binary32. -/
def floatHalf (op : Nat) (c : Env) (a b d : W32) : W32 × FlagSet :=
  let n (v : W32) : Num := unpack f32Fmt (c.flush f32Fmt) v.toNat
  let x := n a
  let y := n b
  let z := n d
  match op with
  | 0x20 => natBits (addNum f32Fmt c x y)
  | 0x21 => natBits (subNum f32Fmt c x y)
  | 0x22 => natBits (mulNum f32Fmt c x y)
  | 0x23 => natBits (fmaOp f32Fmt c .fma x y z)
  | 0x24 => natBits (fmaOp f32Fmt c .fnma x y z)
  | 0x25 => natBits (minmaxNum f32Fmt .min x y)
  | 0x26 => natBits (minmaxNum f32Fmt .max x y)
  | 0x27 => (a &&& 0x7FFFFFFF, 0)
  | 0x28 => (a ^^^ 0x80000000, 0)
  | 0x29 => natBits (rcpNum f32Fmt c x)
  | 0x2A => natBits (rsqNum f32Fmt c x)
  | 0x2B => natBits (exp2Num f32Fmt c x)
  | 0x2C => natBits (log2Num f32Fmt c x)
  | 0x2D => natBits (sinNum f32Fmt c x)
  | 0x2E => natBits (cosNum f32Fmt c x)
  | 0x2F => natBits (divNum f32Fmt c x y)
  | 0x30 => natBits (sqrtNum f32Fmt c x)
  | 0x31 => natBits (ofInt f32Fmt c a.toInt)
  | 0x32 => natBits (ofInt f32Fmt c a.toNat)
  | 0x33 => intBits (toIntNum c (-2147483648) 2147483647 x)
  | _ => intBits (toIntNum c 0 4294967295 x)

/-- One half in one lane. -/
def halfLane (isFloat : Bool) (h : Half) (c : Ctx) (a b d : W32) : W32 × FlagSet :=
  if isFloat then floatHalf h.op.toNat (c.env (halfRnd h.mod.toNat)) a b d
  else (intHalf h.op.toNat h.mod.toNat a b d, 0)

/-- The registers that a half reads, as operands. -/
def halfSrcs (isFloat : Bool) (h : Half) : List Opnd := (h.reads isFloat).map fun n => BitVec.ofNat 10 n

/-- The check of a half's destination: long-latency halves write to no stream, and one that reads it reads no bound
register. -/
def State.halfDst (s : State) (isFloat : Bool) (h : Half) : Bool :=
  s.vdstOk (h.special isFloat) (lanesOf s.me.curSlot.mask).length (halfOpnd h.d)

/-- What a paired word asks of its issue. -/
def pairReq (fa fb : Bool) (x y : Half) : Req :=
  { guard := 0, cls := some 1, vec := true, counted := true, paired := true,
    long := x.special fa || y.special fb,
    ok := fun s => (halfSrcs fa x ++ halfSrcs fb y).all (s.srcOk true) && s.srcOk true (halfOpnd x.b) &&
      s.srcOk true (halfOpnd y.b) && s.halfDst fa x && s.halfDst fb y,
    srcs := (halfSrcs fa x ++ halfSrcs fb y).dedup, dsts := [halfOpnd x.d, halfOpnd y.d] }

/-- Each half reads what the other writes, one way or the other (R45). -/
def halvesMeet (fa fb : Bool) (x y : Half) : Bool :=
  (x.reads fa).contains y.d.toNat || (y.reads fb).contains x.d.toNat

/-- What half A gives in a lane. -/
def pairFirst (fa : Bool) (x : Half) (s : State) (i : Iss) (l : Nat) : W32 × FlagSet :=
  let v (f : BitVec 6) : W32 := (s.val i false (halfOpnd f) l).setWidth 32
  halfLane fa x s.me (v x.a) (v x.b) (v x.d)

/-- What half B gives in a lane, on half A's result (R45). -/
def pairSecond (fa fb : Bool) (x y : Half) (s : State) (i : Iss) (l : Nat) : W32 × FlagSet :=
  let v (f : BitVec 6) : W32 := if f = x.d then (pairFirst fa x s i l).1 else (s.val i false (halfOpnd f) l).setWidth 32
  halfLane fb y s.me (v y.a) (v y.b) (v y.d)

/-- The flags that a paired word raises. -/
def pairFlags (fa fb : Bool) (x y : Half) (s : State) (i : Iss) : List RegWrite :=
  let flags := (lanesOf i.lanes).foldl
    (fun f l => f ||| (pairFirst fa x s i l).2 ||| (pairSecond fa fb x y s i l).2) (0 : FlagSet)
  if flags = 0 then [] else [.flags flags]

/-- A half's result written, or recorded to land later. -/
def putHalf (long : Bool) (i : Iss) (h : Half) (rs : List W32) : M Unit := do
  if long then putLater 0 false i (halfOpnd h.d) ((← get).vectorWrites i (halfOpnd h.d) fun l => rs.getD l 0) [] 1
  else putVector i (halfOpnd h.d) fun l => rs.getD l 0

/-- A paired word: half A first, then half B on A's result (R45). Flags are raised when the word completes (R114). -/
def runPair (fa fb : Bool) (x y : Half) (s : State) : Host.Outcome State Fault Refusal :=
  let r := pairReq fa fb x y
  settle r
    (do
      checkBreakpoints
      if ((← get).checkTrap r).isNone && halvesMeet fa fb x y && (← getMe).mode.getLsbD 13 then trapWith 4 1
      issueCtl r fun i => do
        let s ← get
        let ra := (List.range 16).map fun l => (pairFirst fa x s i l).1
        let rb := (List.range 16).map fun l => (pairSecond fa fb x y s i l).1
        let fl := pairFlags fa fb x y s i
        putHalf (x.special fa) i x ra
        putHalf (y.special fb) i y rb
        if x.special fa || y.special fb then
          (if fl.isEmpty then pure () else pendResult 0 false fl 1)
        else applyAll fl
        return advance) s

def execPairI (x y : Half) (s : State) : Host.Outcome State Fault Refusal := runPair false false x y s

def execPairF (x y : Half) (s : State) : Host.Outcome State Fault Refusal := runPair true true x y s

def execPairIF (x y : Half) (s : State) : Host.Outcome State Fault Refusal := runPair false true x y s

end Sys2Proof.Machine
end

