-- ==== Sys2Proof/Machine/Phys.lean ====
section
/-! DEFINITION. LDPHY and STPHY (07_addresses.md R213 to R215). -/

namespace Sys2Proof.Machine

/-- Where a physical access goes. -/
inductive PhysTgt where
  | row (core off : Nat)
  | side (core off : Nat)      -- a tag word or full/empty bits
  | sram (key : Nat)
  | mem (pas : List Nat)       -- the bytes' addresses
  | ctrl (r : CtrlReg) (byte : Nat)
  deriving DecidableEq, Repr

/-- The target in the local space of a core, none outside its windows. -/
def localTgt (core off : Nat) : Option PhysTgt :=
  if localRow off then some (.row core off) else if localAddr off then some (.side core off) else none

/-- The target of an access of `n` bytes; none takes the aperture fault. -/
def State.physTgt (s : State) (space n : Nat) (a : W64) : Option PhysTgt :=
  let site := siteOfCore s.hereId
  match space with
  | 0 => localTgt s.hereId (field a 0 18)
  | 1 =>
    let core := s.hereId / 48 * 48 + field a 18 6
    if 48 ≤ field a 18 6 || s.sys.retired.contains core then none else localTgt core (field a 0 18)
  | 2 => if 280 ≤ field a 19 9 then none else some (.sram ((site * 280 + field a 19 9) * 2 ^ 19 + field a 0 19))
  | 3 =>
    let ch := field a 31 6
    let off := field a 0 31
    if 0x60000000 ≤ off then none
    else some (.mem ((List.range n).map fun i => frameBase site 0 + Config.hbmOffset ch (off + i) % 0x1800000000))
  | 4 =>
    let off := field a 0 38
    if 0x4000000000 ≤ off then none
    else some (.mem ((List.range n).map fun i => 0x400000000000 + site * 0x4000000000 + off + i))
  | _ => (ctrlReg (field a 0 24 / 8 * 8)).map fun r => .ctrl r (field a 0 3)

/-- The split-only spaces, and the spaces that exist (R214). -/
def State.spaceOk (s : State) (space : Nat) : Bool :=
  decide (space ≤ 5) &&
  (space < 2 || space = 5 || (Store.get Cluster.reset s.clusters (clusterOf s.hereId)).split)

/-- An operand of either instruction: an x register of a thread, a uniform register of a wave (R213). -/
def State.physOpnd (s : State) (o : Opnd) : Bool :=
  match opOf o with
  | .prim _ => !s.me.isWave
  | .k _ => s.me.isWave
  | _ => false

/-- What both instructions ask of their issue. -/
def physReq (g : Guard) (space : BitVec 3) (width : BitVec 2) (srcs dsts : List Opnd) (wave : Bool) : Req :=
  { guard := g, cls := some 6, priv := some { cause := 3 }, form := fun s => s.spaceOk space.toNat,
    ok := fun s => (srcs ++ dsts).all s.physOpnd && srcs.all (s.srcOk false) && dsts.all (s.dstOk false false) &&
      !(s.me.isWave && width = 3),
    srcs := srcs, dsts := dsts, regs := fun _ => dsts.flatMap (opRegs wave) }

/-- The address a + Sext(OFFSET). -/
def State.physAddr (s : State) (i : Iss) (a : Opnd) (off : BitVec 26) : W64 := s.val i false a i.rep + off.signExtend 64

/-- The faults of an access: the target, where there are none. -/
def physTarget (space n : Nat) (a : W64) : M PhysTgt := do
  match (← get).physTgt space n a with
  | none => apertureFault a
  | some t =>
    if a.toNat % n ≠ 0 then misalign a
    return t

/-- A poisoned atom of raw memory is a machine check (09_sharing.md R243). -/
def rawCheck (a : W64) (pas : List Nat) : M Unit := do
  let s ← get
  if pas.any fun p => s.poison.contains (p / 32) then
    throw (.trap { cause := 15, detail := 1, addr := a, imprecise := true })

/-- The number at a target. -/
def physRead (lane : Nat) (t : PhysTgt) (addr : W64) (n : Nat) : M Nat := do
  match t with
  | .row core o =>
    machineCheck plainLoad [(lane, addr)] [(lane, [.row core o n])] return bytesToNat (← readPlace plainLoad (.row core o n))
  | .side core o => return bytesToNat ((← get).localBytes core o n)
  | .sram k => return bytesToNat (Store.bytes (← get).sram k n)
  | .mem pas =>
    rawCheck addr pas
    let m := (← get).mem
    return bytesToNat (pas.map fun p => Store.get 0 m p)
  | .ctrl r b =>
    let w ← ctrlRead r
    return w.toNat / 2 ^ (8 * b) % 2 ^ (8 * n)

/-- What `Ldphy` asks of its issue. -/
def ldphyReq (g : Guard) (space : BitVec 3) (width : BitVec 2) (d : Opnd) (a : Opnd) (s : State) : Req :=
  (physReq g space width [a] [d] s.me.isWave)

/-- LDPHY: performed as a sequentially consistent access at package scope (R215). -/
def ldphyBody (space : BitVec 3) (width : BitVec 2) (d : Opnd) (a : Opnd) (off : BitVec 26) (i : Iss) : M Unit := do
  landUniform
  let n := 2 ^ width.toNat
  let addr := (← get).physAddr i a off
  let v ← physRead i.rep (← physTarget space.toNat n addr) addr n
  acquired 5 4
  putScalar i d (BitVec.ofNat 64 v)

def execLdphy (g : Guard) (space : BitVec 3) (width : BitVec 2) (d a : Opnd) (off : BitVec 26) (s : State) :
    Host.Outcome State Fault Refusal :=
  runIssue (ldphyReq g space width d a s) (ldphyBody space width d a off) s

/-- LOG2INT of CL_LGRID is 10 to 30 (18_debug.md R468). -/
def gridValueOk (v : W64) : Bool := 10 ≤ field v 58 5 && field v 58 5 ≤ 30

/-- A tag word or full/empty bits are written in split mode only. -/
def sideAllowed (space : Nat) (addr : W64) : M Unit := do
  let s ← get
  let side := space ≤ 1 && (localTag (field addr 0 18) || localFe (field addr 0 18))
  needOperand (!side || (Store.get Cluster.reset s.clusters (clusterOf s.hereId)).split)

/-- What `Stphy` asks of its issue. -/
def stphyReq (g : Guard) (space : BitVec 3) (width : BitVec 2) (d : Opnd) (a : Opnd) (s : State) : Req :=
  (physReq g space width [d, a] [] s.me.isWave)

/-- Where STPHY stores, with its checks and the release before it. -/
def stphyTarget (space : BitVec 3) (width : BitVec 2) (d : Opnd) (a : Opnd) (off : BitVec 26) (i : Iss) : M PhysTgt := do
  landUniform
  let n := 2 ^ width.toNat
  let s ← get
  let addr := s.physAddr i a off
  let v := (s.val i false d i.rep).toNat
  sideAllowed space.toNat addr
  let t ← physTarget space.toNat n addr
  match t with
  | .ctrl (.grid c) b =>
    let mask := laneMask (BitVec.ofNat 8 ((2 ^ n - 1) * 2 ^ b))
    let w : W64 := BitVec.ofNat 64 (v % 2 ^ (8 * n) * 2 ^ (8 * b))
    needOperand (gridValueOk (((← getCluster c).lgrid &&& ~~~mask) ||| (w &&& mask)))
  | _ => pure ()
  return t

/-- STPHY, ordered as LDPHY is. -/
def stphyBody (space : BitVec 3) (width : BitVec 2) (d : Opnd) (a : Opnd) (off : BitVec 26) (i : Iss) : M Unit := do
  let n := 2 ^ width.toNat
  let v := ((← get).val i false d i.rep).toNat
  match ← stphyTarget space width d a off i with
  | .row core o => writePlace plainLoad (.row core o n) (natToBytes n v)
  | .side core o => modify fun s => s.putLocalBytes core o (natToBytes n v)
  | .sram k => modify fun s => { s with sram := Store.putBytes s.sram k (natToBytes n v) }
  | .mem pas =>
    let bs := natToBytes n v
    modify fun s =>
      let m := (List.range n).foldl (fun m j => Store.set 0 m (pas.getD j 0) (bs.getD j 0)) s.mem
      { s with mem := m }
  | .ctrl r b => ctrlWrite false r (BitVec.ofNat 8 ((2 ^ n - 1) * 2 ^ b)) (BitVec.ofNat 64 (v % 2 ^ (8 * n) * 2 ^ (8 * b)))
  acquired 5 4

def execStphy (g : Guard) (space : BitVec 3) (width : BitVec 2) (d a : Opnd) (off : BitVec 26) (s : State) :
    Host.Outcome State Fault Refusal :=
  runIssue (stphyReq g space width d a s) (stphyBody space width d a off) s

end Sys2Proof.Machine
end

