-- ==== Sys2Proof/Machine/Dispatch.lean ====
section
/-! DEFINITION. The meaning of every instruction: one arm per constructor. -/

namespace Sys2Proof.Machine

def exec (i : Instr) (s : State) : Host.Outcome State Fault Refusal :=
  match i with
  | .add g t d a b => Sys2Proof.Machine.execAdd g t d a b s
  | .sub g t d a b => Sys2Proof.Machine.execSub g t d a b s
  | .addi g t d a imm => Sys2Proof.Machine.execAddi g t d a imm s
  | .mul g t d a b => Sys2Proof.Machine.execMul g t d a b s
  | .mulh g t d a b => Sys2Proof.Machine.execMulh g t d a b s
  | .div la g t d a b => Sys2Proof.Machine.execDiv la g t d a b s
  | .rem la g t d a b => Sys2Proof.Machine.execRem la g t d a b s
  | .minmax g t max d a b => Sys2Proof.Machine.execMinmax g t max d a b s
  | .and g w64 d a b => Sys2Proof.Machine.execAnd g w64 d a b s
  | .or g w64 d a b => Sys2Proof.Machine.execOr g w64 d a b s
  | .xor g w64 d a b => Sys2Proof.Machine.execXor g w64 d a b s
  | .andn g w64 d a b => Sys2Proof.Machine.execAndn g w64 d a b s
  | .shl g w64 d a b => Sys2Proof.Machine.execShl g w64 d a b s
  | .shr g t d a b => Sys2Proof.Machine.execShr g t d a b s
  | .rot g w64 left d a b => Sys2Proof.Machine.execRot g w64 left d a b s
  | .bfx g t d a b c => Sys2Proof.Machine.execBfx g t d a b c s
  | .bfi g w64 d a b c => Sys2Proof.Machine.execBfi g w64 d a b c s
  | .popc g w64 d a => Sys2Proof.Machine.execPopc g w64 d a s
  | .clz g w64 d a => Sys2Proof.Machine.execClz g w64 d a s
  | .ctz g w64 d a => Sys2Proof.Machine.execCtz g w64 d a s
  | .brev g w64 d a => Sys2Proof.Machine.execBrev g w64 d a s
  | .cmp g t k d a b => Sys2Proof.Machine.execCmp g t k d a b s
  | .sel g w64 d a b c => Sys2Proof.Machine.execSel g w64 d a b c s
  | .mov g t d a => Sys2Proof.Machine.execMov g t d a s
  | .sbind g d a => Sys2Proof.Machine.execSbind g d a s
  | .sunb g d => Sys2Proof.Machine.execSunb g d s
  | .movi g signed d imm => Sys2Proof.Machine.execMovi g signed d imm s
  | .movh g d imm => Sys2Proof.Machine.execMovh g d imm s
  | .lea g t sc d a b => Sys2Proof.Machine.execLea g t sc d a b s
  | .addc g w64 d a b c => Sys2Proof.Machine.execAddc g w64 d a b c s
  | .mad g t d a b c => Sys2Proof.Machine.execMad g t d a b c s
  | .sxt g t d a b => Sys2Proof.Machine.execSxt g t d a b s
  | .hash g op d a b => Sys2Proof.Machine.execHash g op d a b s
  | .cvta g m d a => Sys2Proof.Machine.execCvta g m d a s
  | .iswin g w d a => Sys2Proof.Machine.execIswin g w d a s
  | .bra g off => Sys2Proof.Machine.execBra g off s
  | .bri g a => Sys2Proof.Machine.execBri g a s
  | .call g off => Sys2Proof.Machine.execCall g off s
  | .ret g => Sys2Proof.Machine.execRet g s
  | .loop g level a imm => Sys2Proof.Machine.execLoop g level a imm s
  | .lbrk g level => Sys2Proof.Machine.execLbrk g level s
  | .join g off => Sys2Proof.Machine.execJoin g off s
  | .waitb g team t => Sys2Proof.Machine.execWaitb g team t s
  | .waitc g flags => Sys2Proof.Machine.execWaitc g flags s
  | .yield g => Sys2Proof.Machine.execYield g s
  | .poll m => Sys2Proof.Machine.execPoll m s
  | .park g a b => Sys2Proof.Machine.execPark g a b s
  | .spawn g d a b c => Sys2Proof.Machine.execSpawn g d a b c s
  | .spawnLaunch g d a b c => Sys2Proof.Machine.execSpawnLaunch g d a b c s
  | .quit g => Sys2Proof.Machine.execQuit g s
  | .nop g => Sys2Proof.Machine.execNop g s
  | .ld m => Sys2Proof.Machine.execLd m s
  | .st m => Sys2Proof.Machine.execSt m s
  | .ldc m => Sys2Proof.Machine.execLdc m s
  | .atom m => Sys2Proof.Machine.execAtom m s
  | .cas m => Sys2Proof.Machine.execCas m s
  | .ldlod m => Sys2Proof.Machine.execLdlod m s
  | .pref m => Sys2Proof.Machine.execPref m s
  | .rbump m => Sys2Proof.Machine.execRbump m s
  | .rsnap m => Sys2Proof.Machine.execRsnap m s
  | .vadd g signed sat d a b => Sys2Proof.Machine.execVadd g signed sat d a b s
  | .vsub g signed sat d a b => Sys2Proof.Machine.execVsub g signed sat d a b s
  | .vmul g signed m d a b => Sys2Proof.Machine.execVmul g signed m d a b s
  | .vmad g signed d a b c => Sys2Proof.Machine.execVmad g signed d a b c s
  | .vminmax g signed max d a b => Sys2Proof.Machine.execVminmax g signed max d a b s
  | .vlog g tt d a b c => Sys2Proof.Machine.execVlog g tt d a b c s
  | .vsh g signed op d a b => Sys2Proof.Machine.execVsh g signed op d a b s
  | .vcmp g signed k d a b => Sys2Proof.Machine.execVcmp g signed k d a b s
  | .vsel g d a b c => Sys2Proof.Machine.execVsel g d a b c s
  | .vmov g d a => Sys2Proof.Machine.execVmov g d a s
  | .vbcast g d a b => Sys2Proof.Machine.execVbcast g d a b s
  | .vshuf g op d a b => Sys2Proof.Machine.execVshuf g op d a b s
  | .vred g signed op d a => Sys2Proof.Machine.execVred g signed op d a s
  | .vballot g d a => Sys2Proof.Machine.execVballot g d a s
  | .vpopc g below d a => Sys2Proof.Machine.execVpopc g below d a s
  | .vfadd g r t d a b => Sys2Proof.Machine.execVfadd g r t d a b s
  | .vfsub g r t d a b => Sys2Proof.Machine.execVfsub g r t d a b s
  | .vfmul g r t d a b => Sys2Proof.Machine.execVfmul g r t d a b s
  | .vfma g r op t d a b c => Sys2Proof.Machine.execVfma g r op t d a b c s
  | .vfminmax g op t d a b => Sys2Proof.Machine.execVfminmax g op t d a b s
  | .vfdiv la g r t d a b => Sys2Proof.Machine.execVfdiv la g r t d a b s
  | .vfsqrt la g r t d a => Sys2Proof.Machine.execVfsqrt la g r t d a s
  | .vfrcp la g r t d a => Sys2Proof.Machine.execVfrcp la g r t d a s
  | .vfrsq la g r t d a => Sys2Proof.Machine.execVfrsq la g r t d a s
  | .vfexp2 la g r t d a => Sys2Proof.Machine.execVfexp2 la g r t d a s
  | .vflog2 la g r t d a => Sys2Proof.Machine.execVflog2 la g r t d a s
  | .vfsin la g r t d a => Sys2Proof.Machine.execVfsin la g r t d a s
  | .vfcos la g r t d a => Sys2Proof.Machine.execVfcos la g r t d a s
  | .vfcmp g hi k t d a b => Sys2Proof.Machine.execVfcmp g hi k t d a b s
  | .vfclass g t d a => Sys2Proof.Machine.execVfclass g t d a s
  | .vcvt g r code d a b => Sys2Proof.Machine.execVcvt g r code d a b s
  | .fadd g r sub t d a b => Sys2Proof.Machine.execFadd g r sub t d a b s
  | .fmul g r t d a b => Sys2Proof.Machine.execFmul g r t d a b s
  | .ffma g r op t d a b c => Sys2Proof.Machine.execFfma g r op t d a b c s
  | .fminmax g op t d a b => Sys2Proof.Machine.execFminmax g op t d a b s
  | .fcmp g k t d a b => Sys2Proof.Machine.execFcmp g k t d a b s
  | .fdiv la g r t d a b => Sys2Proof.Machine.execFdiv la g r t d a b s
  | .fsqrt la g r t d a => Sys2Proof.Machine.execFsqrt la g r t d a s
  | .fcvt g r code d a => Sys2Proof.Machine.execFcvt g r code d a s
  | .rdmode g d => Sys2Proof.Machine.execRdmode g d s
  | .wrmode g a b => Sys2Proof.Machine.execWrmode g a b s
  | .vld m => Sys2Proof.Machine.execVld m s
  | .vst m => Sys2Proof.Machine.execVst m s
  | .vlds m => Sys2Proof.Machine.execVlds m s
  | .vsts m => Sys2Proof.Machine.execVsts m s
  | .vatom m => Sys2Proof.Machine.execVatom m s
  | .scfgBind g d a => Sys2Proof.Machine.execScfgBind g d a s
  | .scfgUnbind g d => Sys2Proof.Machine.execScfgUnbind g d s
  | .scfgRtag g a b c => Sys2Proof.Machine.execScfgRtag g a b c s
  | .vpack g kind d a b => Sys2Proof.Machine.execVpack g kind d a b s
  | .vunpk g kind d a b => Sys2Proof.Machine.execVunpk g kind d a b s
  | .pairI x y => Sys2Proof.Machine.execPairI x y s
  | .pairF x y => Sys2Proof.Machine.execPairF x y s
  | .pairIF x y => Sys2Proof.Machine.execPairIF x y s
  | .mpairLead g d b => Sys2Proof.Machine.execMpairLead g d b s
  | .mpairFollow g d => Sys2Proof.Machine.execMpairFollow g d s
  | .mrel g => Sys2Proof.Machine.execMrel g s
  | .mcfg g word pair d a b => Sys2Proof.Machine.execMcfg g word pair d a b s
  | .mma g clr t unf bi8 d a b c => Sys2Proof.Machine.execMma g clr t unf bi8 d a b c s
  | .mdrain g f32 t clr d a b => Sys2Proof.Machine.execMdrain g f32 t clr d a b s
  | .mdrainKacc g t clr n d b => Sys2Proof.Machine.execMdrainKacc g t clr n d b s
  | .mstat g kind clr d a => Sys2Proof.Machine.execMstat g kind clr d a s
  | .kBlockStep leader => Sys2Proof.Machine.execKBlockStep leader s
  | .drainComplete leader => Sys2Proof.Machine.execDrainComplete leader s
  | .kacc g n kind a b => Sys2Proof.Machine.execKacc g n kind a b s
  | .kclr g n => Sys2Proof.Machine.execKclr g n s
  | .krnd g n r f64 clr d => Sys2Proof.Machine.execKrnd g n r f64 clr d s
  | .kstat g n clr d => Sys2Proof.Machine.execKstat g n clr d s
  | .cpyw g word pair d a b => Sys2Proof.Machine.execCpyw g word pair d a b s
  | .cpygo g d a => Sys2Proof.Machine.execCpygo g d a s
  | .shkick g d a b => Sys2Proof.Machine.execShkick g d a b s
  | .seal g => Sys2Proof.Machine.execSeal g s
  | .cpyq g kind d a => Sys2Proof.Machine.execCpyq g kind d a s
  | .bari g d a b c => Sys2Proof.Machine.execBari g d a b c s
  | .bara g a b => Sys2Proof.Machine.execBara g a b s
  | .barw g d a => Sys2Proof.Machine.execBarw g d a s
  | .cpyx g d a => Sys2Proof.Machine.execCpyx g d a s
  | .transferStart core entry => Sys2Proof.Machine.execTransferStart core entry s
  | .ack h entry gen line bytes how => Sys2Proof.Machine.execAck h entry gen line bytes how s
  | .copy h l => Sys2Proof.Machine.execCopy h l s
  | .red h l => Sys2Proof.Machine.execRed h l s
  | .msend g rel scope d a b c => Sys2Proof.Machine.execMsend g rel scope d a b c s
  | .mrecv la g acq scope d a => Sys2Proof.Machine.execMrecv la g acq scope d a s
  | .ksend g rel scope w64 d a b c => Sys2Proof.Machine.execKsend g rel scope w64 d a b c s
  | .racfgBin g d a b c => Sys2Proof.Machine.execRacfgBin g d a b c s
  | .racfgUnbin g d b => Sys2Proof.Machine.execRacfgUnbin g d b s
  | .racfgRoute g d a b c => Sys2Proof.Machine.execRacfgRoute g d a b c s
  | .racfgQuery g d b => Sys2Proof.Machine.execRacfgQuery g d b s
  | .qcfgIn g w64 n d a b c => Sys2Proof.Machine.execQcfgIn g w64 n d a b c s
  | .qcfgOut g w64 n d a b => Sys2Proof.Machine.execQcfgOut g w64 n d a b s
  | .qcfgRx g d a b => Sys2Proof.Machine.execQcfgRx g d a b s
  | .qcfgUnin g n d => Sys2Proof.Machine.execQcfgUnin g n d s
  | .qcfgUnout g n d => Sys2Proof.Machine.execQcfgUnout g n d s
  | .qcfgUnrx g d => Sys2Proof.Machine.execQcfgUnrx g d s
  | .callat g d a b c => Sys2Proof.Machine.execCallat g d a b c s
  | .retm g w64 d a b => Sys2Proof.Machine.execRetm g w64 d a b s
  | .amsg g d a b c => Sys2Proof.Machine.execAmsg g d a b c s
  | .qdata h lnum n w64 elems => Sys2Proof.Machine.execQdata h lnum n w64 elems s
  | .credit h n amount => Sys2Proof.Machine.execCredit h n amount s
  | .msg h lnum len payload => Sys2Proof.Machine.execMsg h lnum len payload s
  | .key h lnum bin slot w64 v => Sys2Proof.Machine.execKey h lnum bin slot w64 v s
  | .task h r => Sys2Proof.Machine.execTask h r s
  | .rpop la g hits wait gather d a => Sys2Proof.Machine.execRpop la g hits wait gather d a s
  | .rpopClaim la g hits d a => Sys2Proof.Machine.execRpopClaim la g hits d a s
  | .rpopRelease la g hits d a => Sys2Proof.Machine.execRpopRelease la g hits d a s
  | .rsend g owner d a => Sys2Proof.Machine.execRsend g owner d a s
  | .xnode la g d a b => Sys2Proof.Machine.execXnode la g d a b s
  | .xtri la g d a b => Sys2Proof.Machine.execXtri la g d a b s
  | .hsend g d a => Sys2Proof.Machine.execHsend g d a s
  | .tmapMap g d a => Sys2Proof.Machine.execTmapMap g d a s
  | .tmapUnmap g d a => Sys2Proof.Machine.execTmapUnmap g d a s
  | .tlpin g d a => Sys2Proof.Machine.execTlpin g d a s
  | .tlrepOffer g d a b c => Sys2Proof.Machine.execTlrepOffer g d a b c s
  | .tlrepWithdraw g d a => Sys2Proof.Machine.execTlrepWithdraw g d a s
  | .ray h payload => Sys2Proof.Machine.execRay h payload s
  | .hit h payload => Sys2Proof.Machine.execHit h payload s
  | .directoryLookup cluster asn id c => Sys2Proof.Machine.execDirectoryLookup cluster asn id c s
  | .treeletPageIn cluster asn id => Sys2Proof.Machine.execTreeletPageIn cluster asn id s
  | .heatReport core => Sys2Proof.Machine.execHeatReport core s
  | .heatReportArrival cluster asn id count => Sys2Proof.Machine.execHeatReportArrival cluster asn id count s
  | .routeCacheExpiry core asn id => Sys2Proof.Machine.execRouteCacheExpiry core asn id s
  | .xtile g d a b => Sys2Proof.Machine.execXtile g d a b s
  | .hoopwClaim g d => Sys2Proof.Machine.execHoopwClaim g d s
  | .hoopwRelease g d => Sys2Proof.Machine.execHoopwRelease g d s
  | .hoopwState g d a => Sys2Proof.Machine.execHoopwState g d a s
  | .hoopwAdd g d a => Sys2Proof.Machine.execHoopwAdd g d a s
  | .hoopwClear g d => Sys2Proof.Machine.execHoopwClear g d s
  | .hoopr g d a b => Sys2Proof.Machine.execHoopr g d a b s
  | .hoopUrgent core => Sys2Proof.Machine.execHoopUrgent core s
  | .ldfe m => Sys2Proof.Machine.execLdfe m s
  | .stfe m => Sys2Proof.Machine.execStfe m s
  | .waiterRetry c => Sys2Proof.Machine.execWaiterRetry c s
  | .feqTest g b64 d a => Sys2Proof.Machine.execFeqTest g b64 d a s
  | .feqFill g b64 a => Sys2Proof.Machine.execFeqFill g b64 a s
  | .feqDrain g b64 a => Sys2Proof.Machine.execFeqDrain g b64 a s
  | .barsInit g scope d a b => Sys2Proof.Machine.execBarsInit g scope d a b s
  | .barsArrive g scope d a b => Sys2Proof.Machine.execBarsArrive g scope d a b s
  | .barsWait g scope d a b => Sys2Proof.Machine.execBarsWait g scope d a b s
  | .barsSync g scope d a => Sys2Proof.Machine.execBarsSync g scope d a s
  | .fence g ord scope => Sys2Proof.Machine.execFence g ord scope s
  | .pfence g paths => Sys2Proof.Machine.execPfence g paths s
  | .trap g code => Sys2Proof.Machine.execTrap g code s
  | .tretRetry g => Sys2Proof.Machine.execTretRetry g s
  | .tretSkip g => Sys2Proof.Machine.execTretSkip g s
  | .tretKill g => Sys2Proof.Machine.execTretKill g s
  | .mfs g sel index d => Sys2Proof.Machine.execMfs g sel index d s
  | .mts g sel index a => Sys2Proof.Machine.execMts g sel index a s
  | .cctlWrite g a => Sys2Proof.Machine.execCctlWrite g a s
  | .bfmtWrite g n a => Sys2Proof.Machine.execBfmtWrite g n a s
  | .pgselWrite g n a => Sys2Proof.Machine.execPgselWrite g n a s
  | .clAmodeWrite g a => Sys2Proof.Machine.execClAmodeWrite g a s
  | .tierWmWrite g tier a => Sys2Proof.Machine.execTierWmWrite g tier a s
  | .clOvfWrite g a => Sys2Proof.Machine.execClOvfWrite g a s
  | .clOvfsRead g d => Sys2Proof.Machine.execClOvfsRead g d s
  | .segw g n a b => Sys2Proof.Machine.execSegw g n a b s
  | .segr g n hi d => Sys2Proof.Machine.execSegr g n hi d s
  | .pgmapMap g d a b c => Sys2Proof.Machine.execPgmapMap g d a b c s
  | .pgmapUnmap g d a b c => Sys2Proof.Machine.execPgmapUnmap g d a b c s
  | .pgmapPin g d a b c => Sys2Proof.Machine.execPgmapPin g d a b c s
  | .pgmapUnpin g d a b c => Sys2Proof.Machine.execPgmapUnpin g d a b c s
  | .pgmapDemote g d a b c => Sys2Proof.Machine.execPgmapDemote g d a b c s
  | .tlbi g kind scope a b => Sys2Proof.Machine.execTlbi g kind scope a b s
  | .icinv g scope all a b => Sys2Proof.Machine.execIcinv g scope all a b s
  | .ctxsv g a => Sys2Proof.Machine.execCtxsv g a s
  | .ctxld g a => Sys2Proof.Machine.execCtxld g a s
  | .ldphy g space width d a off => Sys2Proof.Machine.execLdphy g space width d a off s
  | .stphy g space width d a off => Sys2Proof.Machine.execStphy g space width d a off s
  | .bkpt g code => Sys2Proof.Machine.execBkpt g code s
  | .cntr g unit d a => Sys2Proof.Machine.execCntr g unit d a s
  | .cntctlSel g a b => Sys2Proof.Machine.execCntctlSel g a b s
  | .cntctlEn g a => Sys2Proof.Machine.execCntctlEn g a s
  | .cntctlClr g a => Sys2Proof.Machine.execCntctlClr g a s
  | .cntctlUclr g a => Sys2Proof.Machine.execCntctlUclr g a s
  | .mark g a => Sys2Proof.Machine.execMark g a s
  | .clauseFetch => Sys2Proof.Machine.execClauseFetch s
  | .headerWait => Sys2Proof.Machine.execHeaderWait s
  | .swapOut core frame => Sys2Proof.Machine.execSwapOut core frame s
  | .promotion core => Sys2Proof.Machine.execPromotion core s
  | .powerWindow core => Sys2Proof.Machine.execPowerWindow core s
  | .pollRetry c => Sys2Proof.Machine.execPollRetry c s
  | .parkLimitExpiry c => Sys2Proof.Machine.execParkLimitExpiry c s
  | .gatherTimeout c => Sys2Proof.Machine.execGatherTimeout c s
  | .mpairLimitExpiry c => Sys2Proof.Machine.execMpairLimitExpiry c s
  | .loadResult c tok => Sys2Proof.Machine.execLoadResult c tok s
  | .mreq h r => Sys2Proof.Machine.execMreq h r s
  | .mresp h c tok data => Sys2Proof.Machine.execMresp h c tok data s
  | .forwardedAccess core r => Sys2Proof.Machine.execForwardedAccess core r s
  | .roundNotice core counter value => Sys2Proof.Machine.execRoundNotice core counter value s
  | .refresh core entry => Sys2Proof.Machine.execRefresh core entry s
  | .prickOwner core p => Sys2Proof.Machine.execPrickOwner core p s
  | .unprickOwner core entry => Sys2Proof.Machine.execUnprickOwner core entry s
  | .prickReplica core p => Sys2Proof.Machine.execPrickReplica core p s
  | .walkComplete cluster q => Sys2Proof.Machine.execWalkComplete cluster q s
  | .missQueueRetry cluster q => Sys2Proof.Machine.execMissQueueRetry cluster q s
  | .fill j => Sys2Proof.Machine.execFill j s
  | .firstTouch j => Sys2Proof.Machine.execFirstTouch j s
  | .demotion site => Sys2Proof.Machine.execDemotion site s
  | .drain pa fine => Sys2Proof.Machine.execDrain pa fine s
  | .tier1Demotion site leaf fine => Sys2Proof.Machine.execTier1Demotion site leaf fine s
  | .tierExhaustedRetry site tier => Sys2Proof.Machine.execTierExhaustedRetry site tier s
  | .frameStarvationTimeout who => Sys2Proof.Machine.execFrameStarvationTimeout who s
  | .heatHalving site => Sys2Proof.Machine.execHeatHalving site s
  | .picotFilterExpiry cluster index => Sys2Proof.Machine.execPicotFilterExpiry cluster index s
  | .reinject cluster index => Sys2Proof.Machine.execReinject cluster index s
  | .selvedgeReplay link ty h tries => Sys2Proof.Machine.execSelvedgeReplay link ty h tries s
  | .nack h ty seq => Sys2Proof.Machine.execNack h ty seq s
  | .recoveryExpiry core src vc => Sys2Proof.Machine.execRecoveryExpiry core src vc s
  | .flitHoldExpiry core index => Sys2Proof.Machine.execFlitHoldExpiry core index s
  | .ctrl cluster cmd => Sys2Proof.Machine.execCtrl cluster cmd s
  | .halt q scope => Sys2Proof.Machine.execHalt q scope s
  | .debugResume q scope => Sys2Proof.Machine.execDebugResume q scope s
  | .step q slot limit => Sys2Proof.Machine.execStep q slot limit s
  | .stepx q slot limit word => Sys2Proof.Machine.execStepx q slot limit word s
  | .stepLimitExpiry c => Sys2Proof.Machine.execStepLimitExpiry c s
  | .rdctx q off len => Sys2Proof.Machine.execRdctx q off len s
  | .wrctx q off bytes => Sys2Proof.Machine.execWrctx q off bytes s
  | .rdrow q off => Sys2Proof.Machine.execRdrow q off s
  | .wrrow q off bytes => Sys2Proof.Machine.execWrrow q off bytes s
  | .patch q asn va word => Sys2Proof.Machine.execPatch q asn va word s
  | .start q sc lnum codes at_ dest => Sys2Proof.Machine.execStart q sc lnum codes at_ dest s
  | .launchRecordArm cluster sc => Sys2Proof.Machine.execLaunchRecordArm cluster sc s
  | .stop q sc => Sys2Proof.Machine.execStop q sc s
  | .linkGridSnapshot cluster => Sys2Proof.Machine.execLinkGridSnapshot cluster s
  | .trapEntry c => Sys2Proof.Machine.execTrapEntry c s
  | .interrupt core => Sys2Proof.Machine.execInterrupt core s
  | .regionOpen sc op0 op1 op2 => Sys2Proof.Machine.execRegionOpen sc op0 op1 op2 s
  | .regionClose sc op0 op1 op2 => Sys2Proof.Machine.execRegionClose sc op0 op1 op2 s
  | .regionPrio sc op0 op1 op2 => Sys2Proof.Machine.execRegionPrio sc op0 op1 op2 s
  | .regionDeadline sc op0 op1 op2 => Sys2Proof.Machine.execRegionDeadline sc op0 op1 op2 s
  | .regionBudget sc op0 op1 op2 => Sys2Proof.Machine.execRegionBudget sc op0 op1 op2 s
  | .regionPreempt sc op0 op1 op2 => Sys2Proof.Machine.execRegionPreempt sc op0 op1 op2 s
  | .regionResume sc op0 op1 op2 => Sys2Proof.Machine.execRegionResume sc op0 op1 op2 s
  | .regionKill sc op0 op1 op2 => Sys2Proof.Machine.execRegionKill sc op0 op1 op2 s
  | .epoch => Sys2Proof.Machine.execEpoch s
  | .placement core => Sys2Proof.Machine.execPlacement core s
  | .teamStart core tag => Sys2Proof.Machine.execTeamStart core tag s
  | .exit core tag => Sys2Proof.Machine.execExit core tag s
  | .childCompletion core tag => Sys2Proof.Machine.execChildCompletion core tag s
  | .preemption core tag urgent => Sys2Proof.Machine.execPreemption core tag urgent s
  | .resumption core tag => Sys2Proof.Machine.execResumption core tag s
  | .hostActiveMessage core entry arg0 arg1 => Sys2Proof.Machine.execHostActiveMessage core entry arg0 arg1 s
  | .hostMessageRing r => Sys2Proof.Machine.execHostMessageRing r s
  | .directoryWindowRead => Sys2Proof.Machine.execDirectoryWindowRead s
  | .registerWrite host addr v => Sys2Proof.Machine.execRegisterWrite host addr v s
  | .powerReqRun => Sys2Proof.Machine.execPowerReqRun s
  | .powerReqRetention => Sys2Proof.Machine.execPowerReqRetention s
  | .powerReqOff => Sys2Proof.Machine.execPowerReqOff s
  | .powerStateReached => Sys2Proof.Machine.execPowerStateReached s
  | .idleGate cluster => Sys2Proof.Machine.execIdleGate cluster s
  | .retire core => Sys2Proof.Machine.execRetire core s
  | .retireUndo core => Sys2Proof.Machine.execRetireUndo core s
  | .unitFailure cluster slice => Sys2Proof.Machine.execUnitFailure cluster slice s
  | .lifecycleAdvance target => Sys2Proof.Machine.execLifecycleAdvance target s
  | .tokenNonce nonce => Sys2Proof.Machine.execTokenNonce nonce s
  | .tokenSubmit identityOk ownerKeyOk signatureOk => Sys2Proof.Machine.execTokenSubmit identityOk ownerKeyOk signatureOk s
  | .tokenRevoke => Sys2Proof.Machine.execTokenRevoke s
  | .tokenExpiry => Sys2Proof.Machine.execTokenExpiry s
  | .fwBegin arg len => Sys2Proof.Machine.execFwBegin arg len s
  | .fwChunk arg len => Sys2Proof.Machine.execFwChunk arg len s
  | .fwCommit verdict flashOk => Sys2Proof.Machine.execFwCommit verdict flashOk s
  | .fwAbort => Sys2Proof.Machine.execFwAbort s
  | .fwctlComplete => Sys2Proof.Machine.execFwctlComplete s
  | .attestationRequest nonce signature => Sys2Proof.Machine.execAttestationRequest nonce signature s
  | .patrolScrub found => Sys2Proof.Machine.execPatrolScrub found s
  | .rowScrub core row bad => Sys2Proof.Machine.execRowScrub core row bad s
  | .bringUp failed found => Sys2Proof.Machine.execBringUp failed found s
  | .retArrival h token value w64 => Sys2Proof.Machine.execRetArrival h token value w64 s
  | .lookupRetry c => Sys2Proof.Machine.execLookupRetry c s
  | .powerLoss duringFlash => Sys2Proof.Machine.execPowerLoss duringFlash s

end Sys2Proof.Machine
end

