-- ==== Sys2Proof/Machine/Fire.lean ====
section
/-! DEFINITION. What has been caused and not yet happened, performed: each event by the meaning of its row, in an order
that the channels allow (12_mesh.md R325; 15_work.md R393; 18_debug.md R452). -/

namespace Sys2Proof.Machine

/-- A region command by its code (19_system.md R472). -/
def runCommand (c : CmdSlot) (code : Nat) (op0 op1 op2 : W64) (s : State) : Host.Outcome State Fault Refusal :=
  match code with
  | 1 => execRegionOpen c op0 op1 op2 s
  | 2 => execRegionClose c op0 op1 op2 s
  | 3 => execRegionPrio c op0 op1 op2 s
  | 4 => execRegionDeadline c op0 op1 op2 s
  | 5 => execRegionBudget c op0 op1 op2 s
  | 6 => execRegionPreempt c op0 op1 op2 s
  | 7 => execRegionResume c op0 op1 op2 s
  | 8 => execRegionKill c op0 op1 op2 s
  | _ => (regionCommand c false (pure 0)).toOutcome s

/-- What follows the arrival of a flit at a core that takes it in (12_mesh.md R321, R322). -/
def whenTaken (core : Nat) (h : Hdr) (e : Ev) (f : State → Host.Outcome State Fault Refusal) (s : State) :
    Host.Outcome State Fault Refusal :=
  match (acceptFlit core h e).run s with
  | .ok true t => f t
  | .ok false t => .next t
  | .error _ t => .next t

/-- Performs an event by the meaning of its row. -/
def Ev.perform (e : Ev) (s : State) : Host.Outcome State Fault Refusal :=
  match e with
  | .transferStart core entry => execTransferStart core entry s
  | .ack h entry gen line bytes how => execAck h entry gen line bytes how s
  | .copy h l => execCopy h l s
  | .red h l => execRed h l s
  | .qdata h lnum n w64 elems => execQdata h lnum n w64 elems s
  | .credit h n amount => execCredit h n amount s
  | .msg h lnum len payload => execMsg h lnum len payload s
  | .key h lnum bin slot w64 v => execKey h lnum bin slot w64 v s
  | .task h r => execTask h r s
  | .ret h token value w64 => execRetArrival h token value w64 s
  | .ray h payload => execRay h payload s
  | .hit h payload => execHit h payload s
  | .lookup cluster asn id c => execDirectoryLookup cluster asn id c s
  | .pageIn cluster asn id => execTreeletPageIn cluster asn id s
  | .replicate cluster asn id => (Sys2Proof.Machine.replicate cluster asn id).toOutcome s
  | .heat cluster asn id count => execHeatReportArrival cluster asn id count s
  | .kBlockStep leader => execKBlockStep leader s
  | .drainComplete leader => execDrainComplete leader s
  | .roundNotice h core counter value => whenTaken core h e (execRoundNotice core counter value) s
  | .refresh core entry => execRefresh core entry s
  | .prickOwner core p => execPrickOwner core p s
  | .prickReplica core p => execPrickReplica core p s
  | .fill j => execFill j s
  | .firstTouch j => execFirstTouch j s
  | .demotion site => execDemotion site s
  | .drain site frame => execDrain site frame s
  | .tier1Demotion site leaf fine => execTier1Demotion site leaf fine s
  | .tierRetry site tier => execTierExhaustedRetry site tier s
  | .reinject cluster index => execReinject cluster index s
  | .nack h ty seq => execNack h ty seq s
  | .interrupt core => execInterrupt core s
  | .placement core => execPlacement core s
  | .teamStart core tag => execTeamStart core tag s
  | .exit core tag => execExit core tag s
  | .childCompletion core tag => execChildCompletion core tag s
  | .hoopUrgent core => execHoopUrgent core s
  | .preemption core tag urgent => execPreemption core tag urgent s
  | .resumption core tag => execResumption core tag s
  | .ctrl cluster cmd => execCtrl cluster cmd s
  | .cresp h payload => (takeCresp h payload).toOutcome s
  | .command c code op0 op1 op2 => runCommand c code op0 op1 op2 s
  | .stepLimit c => execStepLimitExpiry c s
  | .frameTimeout c => execFrameStarvationTimeout c s
  | .swapOut core frame => execSwapOut core frame s
  | .promotion core => execPromotion core s
  | .pollRetry c => execPollRetry c s
  | .recoveryExpiry core src vc => execRecoveryExpiry core src vc s
  | .mreq h r => execMreq h r s
  | .mresp h c tok data => execMresp h c tok data s
  | .forwarded h core r => whenTaken core h e (execForwardedAccess core r) s
  | .walk cluster q => execWalkComplete cluster q s
  | .missRetry cluster q => execMissQueueRetry cluster q s
  | .picotExpiry cluster index => execPicotFilterExpiry cluster index s
  | .powerStateReached => execPowerStateReached s
  | .fwctlComplete => execFwctlComplete s
  | .tokenExpiry => execTokenExpiry s
  | .epoch => execEpoch s
  | .heatHalving site => execHeatHalving site s
  | .heatReport core => execHeatReport core s
  | .idleGate cluster => execIdleGate cluster s
  | .recordArm cluster n => execLaunchRecordArm cluster n s
  | .linkGrid cluster => execLinkGridSnapshot cluster s

/-- The place of the first event that may happen now. -/
def State.firstFree (s : State) : List Ev → List Ev → Nat → Option Nat
  | _, [], _ => none
  | before, e :: rest, n => if s.blocked before e then s.firstFree (e :: before) rest (n + 1) else some n

/-- Performs the pending event at a place, unless it must wait. -/
def State.fire (s : State) (n : Nat) : Host.Outcome State Fault Refusal :=
  match s.pending[n]? with
  | none => .next s
  | some e =>
    if s.blocked (s.pending.take n) e then .next s
    else e.perform { s with pending := s.pending.eraseIdx n }

/-- The place of the first event whose cycle has come. -/
def State.dueTimer (s : State) : Option Nat := s.timers.findIdx? fun t => t.1 ≤ s.clk.toNat

/-- Performs the event at a place among those due at a cycle. -/
def State.fireTimer (s : State) (n : Nat) : Host.Outcome State Fault Refusal :=
  match s.timers[n]? with
  | none => .next s
  | some t => t.2.perform { s with timers := s.timers.eraseIdx n }

/-! What the clock brings (01_package.md R19; 08_residency.md R221; 13_rays.md R363; 15_work.md R396; 19_system.md
R479). -/

/-- The windows of every core begin again. -/
def State.windows (s : State) : State :=
  let f (c : Core) : Core := { c with nv := 0, nm := 0 }
  { s with here := f s.here, cores := s.cores.map fun k => (k.1, f k.2) }

/-- The events of a 4,096-cycle boundary. -/
def State.epochEvents (s : State) : List Ev :=
  [.epoch] ++ (s.knownCores.filter fun k => !(s.core k).pricks.isEmpty).map Ev.heatReport ++
  ((s.knownCores.map clusterOf).dedup.filter fun c =>
    s.idle c && !(Store.get Cluster.reset s.clusters c).gated).map Ev.idleGate

/-- The clock moves on by `n` cycles, with what falls due at the boundaries that it passes. -/
def State.clock (s : State) (n : Nat) : State :=
  let t0 := s.clk.toNat
  let t1 := t0 + n
  let s1 := { s with clk := BitVec.ofNat 64 t1, ticks := s.ticks + 1, here := s.here.landUni t1,
                     cores := s.cores.map fun k => (k.1, k.2.landUni t1) }
  let s2 := if t0 / 256 = t1 / 256 then s1 else s1.windows
  let s3 := if t0 / 4096 = t1 / 4096 then s2 else { s2 with pending := s2.pending ++ s2.epochEvents }
  if t0 / 2 ^ 20 = t1 / 2 ^ 20 then s3
  else { s3 with pending := s3.pending ++ (List.range Config.siteCount).map Ev.heatHalving }

end Sys2Proof.Machine
end

