-- ==== Sys2Proof/Machine/Turn.lean ====
section
/-! DEFINITION. A turn of a context, and which context's turn it is (02_clauses.md R27 to R31; 03_contexts.md R58 to R69;
16_traps.md R421, R426). -/

namespace Sys2Proof.Machine

/-! The word that issues. -/

/-- The word that the turn's context issues: that of a STEPX, or that of its clause buffer. -/
def Ctx.nextWord (c : Ctx) : Option W64 :=
  match c.stepWord with
  | some w => some w
  | none => c.curSlot.word

/-- Issues a word: the instruction that it decodes to, or its rejection. -/
def issueWord (w : W64) (s : State) : Host.Outcome State Fault Refusal :=
  match decodeTableWord 64 w.toNat with
  | some i => exec i s
  | none => rejectWord w s

/-- The context issues from its buffer; nothing where the buffer is not ready. -/
def State.issueReady (s : State) : Host.Outcome State Fault Refusal :=
  match s.me.curSlot.buf with
  | none => .next s
  | some b =>
    if b.ready then
      match s.me.nextWord with
      | some w => issueWord w s
      | none => rejectWord 0 s
    else .next s

/-- The context fetches its clause, waits at its header, or issues. -/
def State.issueHere (s : State) : Host.Outcome State Fault Refusal :=
  match s.me.curSlot.buf with
  | none => execClauseFetch s
  | some b =>
    if b.ready then s.issueReady
    else match execHeaderWait s with
      | .next t => t.issueReady
      | o => o

/-! A context's turn. -/

/-- The wave that holds the wave port: it is inside its clause and did not stall (R28). -/
def Core.portHolder (c : Core) : Option Nat :=
  match c.port with
  | none => none
  | some n =>
    let x := Store.get Ctx.blank c.ctxs (16 + n)
    if x.present && x.place = .active && x.halted.isNone && x.stall = .issued && x.curSlot.buf.isSome then some n else none

/-- No other wave holds the wave port, if the turn's context is a wave. -/
def State.portFree (s : State) : Bool :=
  match s.seat with
  | some (.frame n) =>
    match s.here.portHolder with
    | some m => m = n
    | none => true
  | _ => true

/-- The turn's context may use its turn. -/
def State.mayTurn (s : State) : Bool := s.mayIssue && s.portFree

/-- A wave's issue may pass to its other slot: not while the instruction that waits lets nothing else of its context issue
(R82, R183, R198, R287, R300). -/
def Ctx.mayFlip (c : Ctx) : Bool :=
  c.isWave && c.runs (1 - c.cur) && !c.handler && c.stepping.isNone && c.latch.isEmpty && c.parked.isNone && c.asked.isNone &&
  !c.prog.kind.alone &&
  (!c.runs c.cur || c.stall ≠ .issued || pcIndex c.curSlot.pc = 0)

/-- The timer interrupt is due in the turn's context (16_traps.md R426). -/
def State.interruptDue (s : State) : Bool :=
  s.timerPending s.hereId && s.me.interruptible &&
  decide (s.seat = some (.slot (field (s.core s.hereId).itgt 0 5)))

/-- A trap that waits for the other slot or for results: that slot's wait goes on, or the trap enters. -/
def State.trapTurn (s : State) (d : TrapDue) : Host.Outcome State Fault Refusal :=
  let c := s.me.turnTo (1 - d.slot)
  if c.prog.kind.agent then State.issueReady { s with me := c }
  else if !c.pend.isEmpty then .next s
  else
    (do
      modMe fun c => { (c.turnTo d.slot) with trapping := none }
      takeTrap d.trap d.paired d.lanes : M Unit).toOutcome s

/-- A wave with a result outstanding after its lookahead has run out issues nothing, and reports the operand (R42, R67). -/
def Ctx.lookaheadOut (c : Ctx) : Option Stall :=
  let late := c.pend.filter fun q => q.window = 0
  if c.isWave && !late.isEmpty then some (if late.any Pend.load then .loadOp else .arithOp) else none

/-- The context issues in the slot that issues, unless it waits at a join, where a step may leave it, or its lookahead has
run out. -/
def State.issueOrStall (s : State) : Host.Outcome State Fault Refusal :=
  if s.me.curSlot.waiting then .next { s with me := { s.me with stall := .barrier } } else
  match s.me.lookaheadOut with
  | some w => .next { s with me := { s.me with stall := w } }
  | none => s.issueHere

/-- The context goes on in the slot that issues. -/
def State.goOnHere (s : State) : Host.Outcome State Fault Refusal :=
  match s.me.trapping with
  | some d => s.trapTurn d
  | none => if s.interruptDue then execInterrupt s.hereId s else s.issueOrStall

/-- The turn's context did something with its turn: it issued, took a trap or an interrupt, halted, or began a wait that
follows its instruction's issue. -/
def State.acted (s t : State) : Bool :=
  t.me.stall = .issued || t.me.halted.isSome || (t.me.parked.isSome && s.me.parked.isNone) || (t.me.trapping.isSome && s.me.trapping.isNone) ||
  (t.me.prog.active && !s.me.prog.active)

/-- Whether the context would act in the slot that issues, if it had its port. -/
def State.wouldAct (s : State) : Bool :=
  match s.goOnHere with
  | .next t => s.acted t
  | _ => true

/-- The slot with which a wave competes: between clauses and after a stall the one that did not run its last clause, where
that one can issue, else the other (R69). -/
def State.withSlot (s : State) : State :=
  if s.me.mayFlip then
    let next := 1 - s.me.ran
    let t := { s with me := s.me.turnTo next }
    if s.me.runs next && (t.wouldAct || !s.me.runs (1 - next)) then t else { s with me := s.me.turnTo (1 - next) }
  else s

/-- What the context does with its turn. -/
def State.useTurn (s : State) : Host.Outcome State Fault Refusal :=
  if !s.mayTurn then .next s
  else if s.me.yielded then .next { s with me := { s.me with yielded := false } }
  else if s.me.trapping.isSome then s.goOnHere
  else s.withSlot.goOnHere

/-- After a wave's turn: it holds the wave port inside its clause, or gives it up (R28, R69). -/
def State.passPort (s : State) : State :=
  match s.seat with
  | some (.frame n) =>
    let c := s.me
    let inside := c.present && c.stall = .issued && c.curSlot.buf.isSome && pcIndex c.curSlot.pc ≠ 0
    { s with here :=
        if inside then { s.here with port := some n }
        else { s.here with port := none, ages := Store.set 0 s.here.ages n s.clk.toNat } }
  | _ => s

/-- Frames of the active waves of a core. -/
def Core.activeFrames (c : Core) : List Nat :=
  (List.range 32).filter fun n =>
    let x := Store.get Ctx.blank c.ctxs (16 + n)
    x.present && x.place = .active

/-- Moves every active wave that leaves its position, while a pending wave is ready (R67): all of them, in ascending order of
frame, which R67 leaves open (DESIGN CHOICE, log 118). -/
def callOut (core : Nat) : M Unit := do
  let s ← get
  for n in (s.core core).activeFrames.filter fun n => s.leaves ⟨core, .frame n⟩ do
    swapOut ⟨core, .frame n⟩ n

/-- A core's pending waves are seen to: those whose wait is over become ready, a ready one takes a free position, or an
active wave makes room (R67, R68). -/
def callWaves (core : Nat) : M Unit := do
  settleReady core
  let k ← getCore core
  if !k.readyq.isEmpty then
    if k.activeWaves < 8 then laterOnce (.promotion core)
    callOut core

/-- A core has waves that are not active. -/
def Core.hasPending (c : Core) : Bool := c.ctxs.any fun x => x.2.present && x.2.place ≠ .active

/-- What follows a turn: the wave port passes on, and the core's pending waves are seen to. -/
def State.afterTurn (s : State) : Host.Outcome State Fault Refusal :=
  let t := s.passPort
  if t.here.hasPending then (callWaves t.hereId).toOutcome t else .next t

/-- The turn of the context that holds it. -/
def State.takeTurn (s : State) : Host.Outcome State Fault Refusal :=
  match s.useTurn with
  | .next t => t.afterTurn
  | o => o

/-! A cycle of the module where no input says whose turn it is (R57 to R60, R69). Every core gives its barrel port a turn
and its wave port a turn in each cycle. -/

/-- BSTRICT of CCTL (R57). -/
def Core.strict (c : Core) : Bool := c.cctl.getLsbD 0

/-- Parts of a cycle, one after another. -/
def inTurn {α : Type} (f : α → State → Host.Outcome State Fault Refusal) :
    List α → State → Host.Outcome State Fault Refusal
  | [], s => .next s
  | a :: l, s => andThen (f a s) (inTurn f l)

/-- The turn of a context. -/
def State.turnOf (s : State) (c : CtxId) : Host.Outcome State Fault Refusal := (s.switchTo c).takeTurn

/-- The turn's thread is eligible: it runs, and its next instruction would issue if it had the port; that of a parked one
issues when it wakes (R59). -/
def State.threadReady (s : State) : Bool := s.mayIssue && !s.me.yielded && s.wouldAct

/-- A thread that waits tries its instruction again outside the rotation: what it waits for may be over, or must be
asked for (R59, R219). -/
def State.retry (s : State) : Host.Outcome State Fault Refusal :=
  if s.mayIssue && !s.me.yielded then
    match s.goOnHere with
    | .next t => if s.acted t then .next s else .next t
    | o => o
  else .next s

/-- Forms a rotation list from slot `n` on: the slots of eligible threads, ascending; a thread that yielded is left out
once (R59, R83). -/
def State.formList (core : Nat) : List Nat → State → List Nat × Host.Outcome State Fault Refusal
  | [], s => ([], .next s)
  | n :: rest, s =>
    if (Store.get Ctx.blank (s.core core).ctxs n).present then
      let t := s.switchTo ⟨core, .slot n⟩
      if t.threadReady then
        let r := State.formList core rest t
        (n :: r.1, r.2)
      else if t.me.yielded then State.formList core rest { t with me := { t.me with yielded := false } }
      else match t.retry with
        | .next u => State.formList core rest u
        | o => ([], o)
    else State.formList core rest s

/-- Puts a rotation in place. -/
def State.rotate (s : State) (core : Nat) (l : List Nat) (mode : Nat) : State :=
  s.putCore core { s.core core with rotation := l, rotMode := mode }

/-- A rotation boundary: the list is formed and its first slot has its turn (R59). -/
def boundary (core : Nat) (s : State) : Host.Outcome State Fault Refusal :=
  let r := State.formList core (List.range 16) s
  andThen r.2 fun t =>
    match r.1 with
    | [] => .next (t.rotate core [] 0)
    | n :: rest => (t.rotate core rest 0).turnOf ⟨core, .slot n⟩

/-- The strict turn of a cycle: slot clk[3:0], with or without a thread (R58). -/
def strictTurn (core : Nat) (s : State) : Host.Outcome State Fault Refusal :=
  let n := s.clk.toNat % 16
  let t := s.rotate core [] 1
  if (Store.get Ctx.blank (t.core core).ctxs n).present then t.turnOf ⟨core, .slot n⟩ else .next t

/-- The barrel port's cycle (R58 to R60). -/
def barrelPort (core : Nat) (s : State) : Host.Outcome State Fault Refusal :=
  let c := s.core core
  let first := s.clk.toNat % 16 = 0
  match c.rotMode with
  | 1 => if !c.strict && first then boundary core s else strictTurn core s
  | 2 => if first then (if c.strict then strictTurn core s else boundary core s) else .next s
  | _ =>
    match c.rotation with
    | n :: rest => (s.rotate core rest 0).turnOf ⟨core, .slot n⟩
    | [] =>
      if c.strict then (if first then strictTurn core s else .next (s.rotate core [] 2))
      else boundary core s

/-- A wave has an eligible slot. -/
def State.waveEligible (s : State) (core n : Nat) : Bool :=
  let t := s.switchTo ⟨core, .frame n⟩
  t.mayIssue && !t.me.yielded && (if t.me.trapping.isSome then t.wouldAct else t.withSlot.wouldAct)

/-- Since when each active wave has had an eligible slot; a wave that yielded gives its place up (R69, R83). -/
def State.sinceEligible (s : State) (core : Nat) : State :=
  let k := s.core core
  let now := s.clk.toNat
  let l := k.activeFrames
  let step (m : Store (Option Nat)) (n : Nat) : Store (Option Nat) :=
    if s.waveEligible core n then
      (match Store.get none m n with
       | some _ => m
       | none => Store.set none m n (some now))
    else Store.set none m n none
  if l.isEmpty then s else s.putCore core { k with elig := l.foldl step k.elig }

/-- Cycles since the later of the wave's last release of the port and its becoming eligible (R69). -/
def Core.age (c : Core) (now n : Nat) : Nat := now - max (Store.get 0 c.ages n) ((Store.get none c.elig n).getD now)

/-- A wave that has had an eligible slot in each of the last 64 cycles without issuing (R69). -/
def Core.starving (c : Core) (now n : Nat) : Bool :=
  match Store.get none c.elig n with
  | some t => decide (64 ≤ now - max t (Store.get Ctx.blank c.ctxs (16 + n)).lastIssue)
  | none => false

/-- Effective priority of a wave. -/
def State.waveEp (s : State) (c : Core) (n : Nat) : Nat :=
  match c.team (Store.get Ctx.blank c.ctxs (16 + n)).team with
  | some t => s.ep t.rcb
  | none => 15

/-- The better of two waves: starving ones first, oldest first; then the highest priority; then the oldest; the lower
frame where nothing tells them apart (R69; log 89). -/
def State.betterWave (s : State) (c : Core) (a b : Nat) : Nat :=
  let now := s.clk.toNat
  let older := if c.age now a < c.age now b then b else a
  match c.starving now a, c.starving now b with
  | true, true => older
  | true, false => a
  | false, true => b
  | false, false =>
    if s.waveEp c a < s.waveEp c b then b else if s.waveEp c b < s.waveEp c a then a else older

/-- The wave that takes the wave port in this cycle: the one that holds it, unless it stalls; else the best of those with
an eligible slot (R28, R69). -/
def State.portWave (s : State) (core : Nat) : Option Nat :=
  let c := s.core core
  let l := c.activeFrames.filter fun n => (Store.get none c.elig n).isSome
  match c.portHolder with
  | some n => if l.contains n then some n else none
  | none => match l with
    | [] => none
    | n :: rest => some (rest.foldl (s.betterWave c) n)

/-- The holder of the wave port has stalled: it gives the port up (R28). -/
def State.dropPort (s : State) (core : Nat) : State :=
  let c := s.core core
  match c.portHolder with
  | some n =>
    if (Store.get none c.elig n).isSome then s
    else s.putCore core { c with port := none, ages := Store.set 0 c.ages n s.clk.toNat }
  | none => s

/-- An active wave that does not act tries its instruction again, as a thread does. -/
def retryWave (core n : Nat) (s : State) : Host.Outcome State Fault Refusal :=
  if (Store.get none (s.core core).elig n).isSome then .next s else (s.switchTo ⟨core, .frame n⟩).retry

/-- A wave that yielded and stays active takes the newest age (R83). -/
def State.newestAge (s : State) (core : Nat) : State :=
  let now := s.clk.toNat
  (s.core core).activeFrames.foldl
    (fun t n =>
      let c := t.core core
      let x := Store.get Ctx.blank c.ctxs (16 + n)
      if x.yielded then
        t.putCore core { c with ctxs := Store.set .blank c.ctxs (16 + n) { x with yielded := false },
                                ages := Store.set 0 c.ages n now, elig := Store.set none c.elig n none }
      else t) s

/-- The wave port's cycle (R69). -/
def wavePort (core : Nat) (s : State) : Host.Outcome State Fault Refusal :=
  if (s.core core).activeFrames.isEmpty then .next s else
  let t := (s.sinceEligible core).dropPort core
  andThen (match t.portWave core with
    | some n => t.turnOf ⟨core, .frame n⟩
    | none => .next t) fun u => inTurn (retryWave core) (u.core core).activeFrames (u.newestAge core)

/-- The places of a core's contexts that can hold a clause buffer. -/
def Core.issuers (c : Core) : List (Seat × Nat) :=
  c.ctxs.flatMap fun x =>
    if x.2.present && x.2.place = .active then [(seatOf x.1, 0), (seatOf x.1, 1)] else []

/-- The core's fetch unit: a slot whose clause is not in its buffer fetches it (R33). -/
def fetchFor (core : Nat) (q : Seat × Nat) (s : State) : Host.Outcome State Fault Refusal :=
  let t := s.switchTo ⟨core, q.1⟩
  let c := t.me
  if t.mayIssue && c.runs q.2 && (c.slot q.2).buf.isNone && c.trapping.isNone && !t.interruptDue &&
      !(c.handler && q.2 ≠ c.cur) then
    andThen (execClauseFetch { t with me := c.turnTo q.2 }) fun u =>
      .next (if u.me.handler && !c.handler then u else { u with me := u.me.turnTo c.cur })
  else .next s

/-- A cycle of a core: the waiters that the state of its words and barriers satisfies (06_scratchpad.md R172), its ports,
its fetches, its pending waves. -/
def coreCycle (core : Nat) (s : State) : Host.Outcome State Fault Refusal :=
  andThen (if (s.core core).waiters.isEmpty then .next s else (serveAll core).toOutcome s) fun s =>
  if (s.core core).ctxs.all fun x => !x.2.present then .next s else
  andThen (barrelPort core s) fun t =>
  andThen (wavePort core t) fun u =>
  andThen (inTurn (fetchFor core) (u.core core).issuers u) fun v =>
  if (v.core core).hasPending then (callWaves core).toOutcome v else .next v

/-- The oldest result of a context that is outstanding lands (R91). -/
def landOldest (c : CtxId) (s : State) : Host.Outcome State Fault Refusal :=
  match (Store.get Ctx.blank (s.core c.core).ctxs (seatIndex c.seat)).pend with
  | p :: _ => if p.since < s.clk.toNat then execLoadResult c p.tok s else .next s
  | [] => .next s

/-- The contexts of the module. -/
def State.everyone (s : State) : List CtxId :=
  s.knownCores.flatMap fun k => (s.core k).ctxs.filterMap fun x =>
    if x.2.present then some ⟨k, seatOf x.1⟩ else none

/-- Events whose cycle has come, at most `n`. -/
def dueEvents : Nat → State → Host.Outcome State Fault Refusal
  | 0, s => .next s
  | n + 1, s => match s.dueTimer with
    | some k => andThen (s.fireTimer k) (dueEvents n)
    | none => .next s

/-- Events that wait, oldest first, at most `n`. -/
def waitingEvents : Nat → State → Host.Outcome State Fault Refusal
  | 0, s => .next s
  | n + 1, s => match s.firstFree [] s.pending 0 with
    | some k => andThen (s.fire k) (waitingEvents n)
    | none => .next s

/-- A number among ascending ones. -/
def insertNat (n : Nat) : List Nat → List Nat
  | [] => [n]
  | m :: l => if n ≤ m then n :: m :: l else m :: insertNat n l

/-- Numbers in ascending order. -/
def ascending (l : List Nat) : List Nat := l.foldr insertNat []

/-- What happens in a cycle where no input says: events, results, and the cores' ports, the leader of a
pair before its follower (11_matrix.md R312; log 3). -/
def State.onItsOwn (s : State) : Host.Outcome State Fault Refusal :=
  andThen (dueEvents s.timers.length s) fun t =>
  andThen (waitingEvents t.pending.length t) fun u =>
  andThen (inTurn landOldest u.everyone u) fun v =>
  inTurn coreCycle (ascending v.knownCores) v

/-- What an input of the run asks for. -/
def State.perform (p : Pick) (s : State) : Host.Outcome State Fault Refusal :=
  match p with
  | .go => s.takeTurn
  | .turn c => (s.switchTo c).takeTurn
  | .event i => exec i s
  | .fire n => s.fire n
  | .elapse _ => .next s

/-- Cycles from a cycle to the next boundary of 4,096 cycles. -/
def toBoundary (now : Nat) : Nat := 4096 - now % 4096

/-- Cycles that pass before an input takes effect; a longer time stops at each boundary of 4,096 cycles. -/
def Pick.cycles (now : Nat) : Pick → Nat
  | .elapse n => min n (toBoundary now)
  | _ => 1

/-- What is left of an input after its cycles. -/
def Pick.left (now : Nat) : Pick → List Pick
  | .elapse n => if toBoundary now < n then [.elapse (n - toBoundary now)] else []
  | _ => []

/-! The stall reasons of a cycle (R72; 18_debug.md R465). -/

/-- The first of two reasons in R72's order. -/
def firstReason (a b : Stall) : Stall := if stallCode b < stallCode a then b else a

/-- The reason of a slot that did not issue: a join, what its instruction would report, or no turn. -/
def State.slotReason (s : State) (n : Nat) : Stall :=
  if (s.me.slot n).waiting then .barrier else
  match State.issueOrStall { s with me := s.me.turnTo n } with
  | .next t => if t.me.stall = .issued || t.me.halted.isSome then .lostArb else t.me.stall
  | _ => .lostArb

/-- A step of the pair that the turn's context drives waits at the power cap (01_package.md R20; log 108). -/
def State.stepHeld (s : State) : Bool :=
  s.isDriver &&
  match s.here.pair with
  | none => false
  | some p =>
    (match s.nextCmd s.hereId true p.queue with
     | none => false
     | some (_, q) => !((s.here.frozen || p.stopping) && q.cycles = 0)) &&
    !(s.here.credit && (s.core (s.hereId + 1)).credit)

/-- The stall reason of a context in a cycle in which it does not issue. -/
def State.reason (s : State) (id : CtxId) : Stall :=
  let t := s.switchTo id
  let c := t.me
  if c.halted.isSome then .halt
  else if c.trapping.isSome then .trapEntry
  else if c.place ≠ .active then
    (match ((List.range 2).filter fun n => (c.slot n).live).map fun n => if (c.slot n).waiting then .barrier else c.stallOf n with
     | [] => .pendingSet
     | l => if s.waveWakes id then .pendingSet
            else l.foldl (fun a b => if b = .issued then a else firstReason a b) .pendingSet)
  else match ((List.range 2).filter fun n => (c.slot n).live).map t.slotReason with
    | [] => .lostArb
    | r :: l => if t.stepHeld then firstReason .matrixBusy (l.foldl firstReason r) else l.foldl firstReason r

/-- Something counts the stall reasons of a context: its bank, or an armed launch record of its cluster. -/
def State.counting (s : State) (id : CtxId) : Bool :=
  field (Store.get Ctx.blank (s.core id.core).ctxs (seatIndex id.seat)).cbctl 48 8 ≠ 0 ||
  !(Store.get Cluster.reset s.clusters (clusterOf id.core)).launchRec.isEmpty

/-- Counts the stall reasons of the `n` cycles that end, of every context that did not issue in them. -/
def State.report (s : State) (n : Nat) : State :=
  (s.everyone.filter s.counting).foldl
    (fun t id =>
      let c := Store.get Ctx.blank (t.core id.core).ctxs (seatIndex id.seat)
      let cycles := if c.lastIssue = t.clk.toNat then n - 1 else n
      if cycles = 0 then t else
      match (asCtx id (countEvent (stallCode (s.reason id)) cycles)).run t with
      | .ok _ u => u
      | .error _ u => u) s

/-- One step: the clock moves on, and what the next input asks for happens, or a cycle of the module on its own. -/
def State.advanceOne (s : State) : Host.Outcome State Fault Refusal :=
  match s.agenda with
  | [] => ((s.report 1).clock 1).onItsOwn
  | p :: rest =>
    let now := s.clk.toNat
    State.perform p (State.clock { s.report (p.cycles now) with agenda := p.left now ++ rest } (p.cycles now))

/-! A word placed for the turn's context. -/

/-- The home class of a word's group, U for the groups of every class (02_clauses.md R47, R48). -/
def homeClass (w : W64) : Nat :=
  let m := field w 56 8
  if 0x40 ≤ m && m < 0x60 then 1
  else if 0x68 ≤ m && m < 0x73 then 1
  else if 0x80 ≤ m && m < 0x90 then 2
  else if 0x90 ≤ m && m < 0xA0 then 3
  else if 0xA0 ≤ m && m < 0xB0 then 4
  else if 0xB0 ≤ m && m < 0xC0 then 5
  else if 0xD0 ≤ m && m < 0xE0 then 6
  else if 0xE0 ≤ m && m < 0xF0 then 7
  else 0

/-- A header with a class and COUNT 0, without waits (R24). -/
def bareHeader (cls : Nat) : W64 := BitVec.ofNat 64 (0xF0 * 2 ^ 56 + cls * 2 ^ 52 + 15 * 2 ^ 44)

/-- A clause that holds one word. -/
def oneWord (w : W64) : Buf := { header := bareHeader (homeClass w), words := [w], ready := true }

/-- A slot at the first word of a clause in its buffer. -/
def PcSlot.holding (p : PcSlot) (b : Buf) (mask : BitVec 16) : PcSlot :=
  { p with live := true, pc := mkPc p.pc 0, mask := mask, waiting := false, refetch := false, buf := some b }

/-- The context present, at a clause that holds one word, with nothing that keeps it from issuing it: a wave with all its
lanes for a word of class V, a barrel thread else. -/
def Ctx.holdingWord (c : Ctx) (w : W64) : Ctx :=
  let wave := homeClass w = 1
  let slot := PcSlot.holding c.slots.1 (oneWord w) (if wave then 0xFFFF else 1)
  { c with present := true, kind := if wave then .wave else .thread, place := .active,
           slots := (slot, { c.slots.2 with live := false }), cur := 0, parked := none, halted := none, stepping := none,
           stepWord := none, trapping := none, yielded := false, prog := .none, prog2 := .none, stall := .issued }

/-- The state in which the next step issues a word in the context that holds the turn. -/
def State.withWord (s : State) (w : W64) : State :=
  { s with agenda := .go :: s.agenda, me := s.me.holdingWord w }

end Sys2Proof.Machine
end

