-- ==== Sys2Proof/Machine/Step.lean ====
section
/-! DEFINITION. The step of the machine, and a state that issues a given word next. -/

namespace Sys2Proof.Machine

/-- One step. -/
def step (s : State) : Host.Outcome State Fault Refusal := s.advanceOne

/-- The machine about to issue the word whose bits are `w`: the context that holds the turn takes it next, with a clause
of the word's home class in its buffer and the word at index 0 (log 2). -/
def State.withFetchWord (s : State) (_nbits w : Nat) : State := s.withWord (BitVec.ofNat 64 w)

end Sys2Proof.Machine
end

