-- ==== Sys2Proof/Safety.lean ====
section
/-! DEFINITION. What counts as a safe state and a safe run, and the terms in which claims speak of an issue: what it
needs of the state, and what it leaves. -/

namespace Sys2Proof.Machine

/-- Memory and the raw slices are in canonical form. -/
def State.MemoryInv (s : State) : Prop := Memory.wf s.mem = true ∧ Store.wf 0 s.sram = true

/-- A run of `n` steps goes on. -/
def State.runs (s : State) : Nat → Prop
  | 0 => True
  | n + 1 => ∃ t, step s = .next t ∧ t.runs n

/-- A part of a meaning does its work: it answers `a` and leaves `t`. -/
def Does {α : Type} (m : M α) (s : State) (a : α) (t : State) : Prop := m.run s = .ok a t

/-! An issue (02_clauses.md R35, R40 to R42, R46; 01_package.md R19). -/

/-- The operand is no queue and no bound stream register (04_registers.md R97, R99). -/
def State.plainOpnd (s : State) (o : Opnd) : Bool :=
  match opOf o with
  | .qi | .qo => false
  | .prim n => (s.me.streamOf n).isNone
  | _ => true

/-- Nothing keeps the turn's context from issuing an instruction: no comparator matches (R455), the checks of R46 pass,
it acts on some lane (R35), no outstanding result and no uniform write that has not landed meets its registers (R41, R91), the power window has room (R20), and it
holds no grant of a reserve (R228). -/
structure Ready (r : Req) (s : State) : Prop where
  comparator : s.me.breakMatch = none
  checks : s.checkTrap r = none
  lanes : s.actLanes r ≠ 0
  landed : (s.me.pend.filter (Pend.meets (r.allRegs s.me.isWave))).isEmpty = true
  uniform : s.uniOwed (r.allRegs s.me.isWave) = false
  power : r.counted = true → s.here.nv + s.here.nm < 320
  grant : s.me.grant = false

/-- Its operands are registers, immediates and specials: no queue and no stream. -/
def Plain (r : Req) (s : State) : Prop := ∀ o ∈ r.srcs ++ r.dsts, s.plainOpnd o = true

/-- The issue as its body sees it. -/
def issOf (r : Req) (s : State) : Iss := { lanes := s.actLanes r, vec := r.vec, srcs := r.srcs, lat := r.lat }

/-- The pc may go on: no loop end of a wave that has diverged (R78). -/
def State.flows (s : State) : Prop := s.me.stepped.2 = false

/-- Outside the turn's context nothing changes but the uniform writes that have not landed, the power window, and the launch records and HIST of
its cluster. -/
structure Elsewhere (s t : State) : Prop where
  mem : t.mem = s.mem
  sram : t.sram = s.sram
  poison : t.poison = s.poison
  cores : t.cores = s.cores
  sites : t.sites = s.sites
  sys : t.sys = s.sys
  events : t.pending = s.pending ∧ t.timers = s.timers ∧ t.agenda = s.agenda
  clock : t.clk = s.clk ∧ t.ticks = s.ticks
  turn : t.seat = s.seat ∧ t.hereId = s.hereId
  here : t.here = { s.here with uniDue := t.here.uniDue, nv := t.here.nv }
  clusters : ∀ n, Store.get Cluster.reset t.clusters n =
    { Store.get Cluster.reset s.clusters n with
        launchRec := (Store.get Cluster.reset t.clusters n).launchRec,
        hist := (Store.get Cluster.reset t.clusters n).hist }

/-- Of the turn's context nothing changes but data and predicate registers, MODE, the pc and the loop counts, and the books
of an issue. -/
def SameContext (s t : State) : Prop :=
  t.me = { s.me with
    x := t.me.x, v := t.me.v, p := t.me.p, mode := t.me.mode, slots := t.me.slots, lc := t.me.lc, pend := t.me.pend,
    tok := t.me.tok, latch := t.me.latch, prog := t.me.prog, stall := t.me.stall, yielded := t.me.yielded, lastIssue := t.me.lastIssue, ran := t.me.ran,
    halted := t.me.halted, stepping := t.me.stepping, stepWord := t.me.stepWord, cnt := t.me.cnt, cbst := t.me.cbst }

/-- The outstanding results of a context, without their windows. -/
def Ctx.owes (c : Ctx) : List (Nat × List RegWrite) := c.pend.map fun q => (q.tok, q.writes)

/-- The context goes on at the next index, or where the loop ends that it meets send it (R49, R78). -/
def GoesOn (s t : State) : Prop := t.me.slots = s.me.stepped.1.slots ∧ t.me.lc = s.me.stepped.1.lc

/-- The registers of `t` are those of `s` after the register writes `ws`, and HIST is. -/
structure Registers (s t : State) (ws : List RegWrite) : Prop where
  x : t.me.x = (s.writes ws).me.x
  v : t.me.v = (s.writes ws).me.v
  p : t.me.p = (s.writes ws).me.p
  mode : t.me.mode = (s.writes ws).me.mode
  uni : t.here.uni = (s.writes ws).here.uni ∧ t.here.uniDue = (s.writes ws).here.uniDue
  hist : ∀ n, (Store.get Cluster.reset t.clusters n).hist = (Store.get Cluster.reset (s.writes ws).clusters n).hist

/-- The register writes `ws`, the advance of the pc, and nothing else. -/
structure Writes (s t : State) (ws : List RegWrite) : Prop where
  registers : Registers s t ws
  pc : GoesOn s t
  outstanding : t.me.owes = s.me.owes
  context : SameContext s t
  elsewhere : Elsewhere s t

/-- The register writes `ws` recorded to land later (R41, R91), from a unit that keeps the order of its results or from none
(R116), the advance of the pc, and nothing else. -/
structure Defers (s t : State) (la : Nat) (load : Bool) (ws : List RegWrite) (unit : Nat) : Prop where
  registers : Registers s t []
  pc : GoesOn s t
  pending : ∃ older,
    t.me.pend = older ++ [{ tok := s.me.tok, writes := ws, window := la, load := load, addr := 0, since := s.clk.toNat, unit := unit }] ∧
    older.map (fun q => (q.tok, q.writes)) = s.me.owes
  context : SameContext s t
  elsewhere : Elsewhere s t

/-- A long-latency result: nothing to land is nothing recorded. -/
def WritesLater (s t : State) (la : Nat) (load : Bool) (ws : List RegWrite) (unit : Nat) : Prop :=
  if ws = [] then Writes s t [] else Defers s t la load ws unit

/-! What is left when an issue ends: its effect `u`, the books of the issue, and where control goes. -/

/-- The books of an issue (R24, R41, 18_debug.md R464). -/
def State.booked (s : State) (r : Req) (before : Nat) : State :=
  let t := s.countedIssue r
  { t with me := t.me.booked before t.clk.toNat }

/-- The state after the body of an instruction that goes on at the next index. -/
def State.after (s : State) (r : Req) (n : Nat) : State :=
  let t := s.booked r n
  { t with me := t.me.stepped.1 }

/-- The state after the body of an instruction that transfers control to the header at `a`. -/
def State.sentTo (s : State) (r : Req) (n : Nat) (a : W64) : State :=
  let t := s.booked r n
  { t with me := (t.me.arrived a).1 }

/-- No loop-end check traps at the header at `a` (R78). -/
def State.reaches (s : State) (a : W64) : Prop := (s.me.arrived a).2 = false

/-- The state that a shared operation leaves. -/
def State.did {α : Type} (s : State) (m : M α) : State :=
  match m.run s with
  | .ok _ t => t
  | .error _ t => t

/-- What a shared operation answers, where it goes on. -/
def State.gives {α : Type} (s : State) (m : M α) : Option α :=
  match m.run s with
  | .ok a _ => some a
  | .error _ _ => none

/-- The outstanding results that a test selects, landed in issue order (R41, R91). -/
def State.landed (s : State) (p : Pend → Bool) : State :=
  (s.me.pend.filter p).foldl (fun t q => t.writes (q.writes.map RegWrite.late))
    { s with me := { s.me with pend := s.me.pend.filter fun q => !p q } }

/-- The context waits and reports a reason, and everything else stays as it was (R72). `k`: what the wait is. -/
def State.waitsFor (s : State) (w : Stall) (k : WaitKind := {}) : State :=
  { s with me := { s.me with stall := w, prog := { s.me.prog with kind := k } } }

/-- The instruction answers a next state of which `P` holds. -/
def Completes (i : Instr) (s : State) (P : State → Prop) : Prop := ∃ t, exec i s = .next t ∧ P t

end Sys2Proof.Machine
end

