-- ==== Sys2Proof/Effects.lean ====
section
/-! DEFINITION. What the register instructions compute and where the transfers go, one line each, written from the rules
of 03_contexts.md, 04_registers.md and 05_lanes.md, for the statements about them. -/

namespace Sys2Proof.Machine

/-- One result of an instruction, as its rule names it (R89, R94, R95, R125). -/
inductive Put where
  /-- one value for the destination -/
  | scalar (d : Opnd) (v : W64)
  /-- a value for every lane acted on -/
  | vector (d : Opnd) (f : Nat → W32)
  /-- a predicate destination as a mask -/
  | mask (d : Opnd) (bits : BitVec 16)
  /-- floating-point flags raised -/
  | flags (f : FlagSet)
  /-- register writes as they are -/
  | regs (ws : List RegWrite)

/-- The register writes of a result. -/
def Put.writes (s : State) (i : Iss) : Put → List RegWrite
  | .scalar d v => s.scalarWrites i d v
  | .vector d f => s.vectorWrites i d f
  | .mask d bits => maskWrites i d bits
  | .flags f => if f = 0 then [] else [.flags f]
  | .regs ws => ws

/-- A result performed, pushes to a queue or a stream among its destinations. -/
def Put.perform (i : Iss) : Put → M Unit
  | .scalar d v => putScalar i d v
  | .vector d f => putVector i d f
  | .mask d bits => applyAll (maskWrites i d bits)
  | .flags f => raiseFlags f
  | .regs ws => applyAll ws

/-- The effect of an instruction on registers: what it asks of its issue, and the results that follow from the state and
the lanes of the issue. -/
structure RegEffect where
  req : Req
  puts : State → Iss → List Put

/-- The register writes of an effect. -/
def RegEffect.writes (e : RegEffect) (s : State) : List RegWrite :=
  (e.puts s (issOf e.req s)).flatMap (Put.writes s (issOf e.req s))

/-- A scalar result of one source (R89, R95, R101). -/
def scalar1 (g : Guard) (t : IntTy) (d a : Opnd) (f : W64 → W64) : Option RegEffect :=
  some ⟨intReq g t d [a], fun s i => [.scalar d (f (s.sval i (tySigned t) a))]⟩

/-- A scalar result of two sources. -/
def scalar2 (g : Guard) (t : IntTy) (d a b : Opnd) (f : W64 → W64 → W64) (lat : Nat := 1) : Option RegEffect :=
  some ⟨intReq g t d [a, b] lat, fun s i => [.scalar d (f (s.sval i (tySigned t) a) (s.sval i (tySigned t) b))]⟩

/-- A scalar result of three sources. -/
def scalar3 (g : Guard) (t : IntTy) (d a b c : Opnd) (f : W64 → W64 → W64 → W64) (lat : Nat := 1) : Option RegEffect :=
  some ⟨intReq g t d [a, b, c] lat, fun s i =>
    [.scalar d (f (s.sval i (tySigned t) a) (s.sval i (tySigned t) b) (s.sval i (tySigned t) c))]⟩

/-- The scalar and uniform integer group (04_registers.md R101 to R106), but for DIV, REM, SBIND and SUNB. -/
def intEffect (i : Instr) : Option RegEffect :=
  match i with
  | .add g t d a b => scalar2 g t d a b fun x y => writeTy t (x + y)
  | .sub g t d a b => scalar2 g t d a b fun x y => writeTy t (x - y)
  | .addi g t d a imm => scalar1 g t d a fun x => writeTy t (x + imm.signExtend 64)
  | .mul g t d a b => scalar2 g t d a b (fun x y => writeTy t (x * y)) 3
  | .mulh g t d a b => scalar2 g t d a b (fun x y => wrapTy t (readInt t x * readInt t y / 2 ^ tyBits t)) 3
  | .minmax g t max d a b =>
    scalar2 g t d a b fun x y =>
      wrapTy t (if max then Max.max (readInt t x) (readInt t y) else Min.min (readInt t x) (readInt t y))
  | .and g w d a b => scalar2 g (zTy w) d a b fun x y => writeTy (zTy w) (x &&& y)
  | .or g w d a b => scalar2 g (zTy w) d a b fun x y => writeTy (zTy w) (x ||| y)
  | .xor g w d a b => scalar2 g (zTy w) d a b fun x y => writeTy (zTy w) (x ^^^ y)
  | .andn g w d a b => scalar2 g (zTy w) d a b fun x y => writeTy (zTy w) (x &&& ~~~y)
  | .shl g w d a b => scalar2 g (zTy w) d a b fun x y => writeTy (zTy w) (x <<< (y.toNat % tyBits (zTy w)))
  | .shr g t d a b => scalar2 g t d a b fun x y => wrapTy t (readInt t x / 2 ^ (y.toNat % tyBits t))
  | .rot g w left d a b => scalar2 g (zTy w) d a b (rotResult w left)
  | .bfx g t d a b c => scalar3 g t d a b c (bfxResult t)
  | .bfi g w d a b c => scalar3 g (zTy w) d a b c (bfiResult w)
  | .popc g w d a => scalar1 g (zTy w) d a fun x => BitVec.ofNat 64 (popcount (readTy (zTy w) x) (tyBits (zTy w)))
  | .clz g w d a => scalar1 g (zTy w) d a fun x => BitVec.ofNat 64 (leadingZeros (readTy (zTy w) x) (tyBits (zTy w)))
  | .ctz g w d a => scalar1 g (zTy w) d a fun x => BitVec.ofNat 64 (trailingZeros (readTy (zTy w) x) (tyBits (zTy w)))
  | .brev g w d a => scalar1 g (zTy w) d a fun x => BitVec.ofNat 64 (reverseBits (readTy (zTy w) x) (tyBits (zTy w)))
  | .lea g t sc d a b => scalar2 g t d a b fun x y => writeTy t (x + y * BitVec.ofNat 64 (2 ^ sc.toNat))
  | .mad g t d a b c => scalar3 g t d a b c (fun x y z => writeTy t (x * y + z)) 3
  | .sxt g t d a b => scalar2 g t d a b (sxtResult t)
  | .hash g op d a b => scalar2 g (zTy (op = .crc64)) d a b (hashResult op) 2
  | .movi g signed d imm =>
    some ⟨intReq g (if signed then .s32 else .z32) d [], fun _ _ => [.scalar d (ext32 signed imm)]⟩
  | .movh g d imm =>
    some ⟨{ guard := g, dsts := [d],
            ok := fun s => match opOf d with
              | .prim n => !s.me.isWave && (s.me.streamOf n).isNone
              | .zero => true
              | _ => false },
      fun s _ => [.scalar d (imm ++ (match opOf d with
        | .prim n => s.me.xreg n
        | _ => 0).setWidth 32)]⟩
  | .mov g t d a =>
    some ⟨intReq g t d [a], fun s i =>
      let v := writeTy t (s.sval i (tySigned t) a)
      match opOf d with
      | .pred _ => [.mask d (v.setWidth 16)]
      | _ => [.scalar d v]⟩
  | .cmp g t k d a b =>
    some ⟨intPredReq g d [a, b], fun s i =>
      [.scalar d (if cmpInts k (readInt t (s.sval i (tySigned t) a)) (readInt t (s.sval i (tySigned t) b)) then 1 else 0)]⟩
  | .iswin g w d a =>
    some ⟨intPredReq g d [a], fun s i => [.scalar d (if s.inWindow w (s.sval i false a) then 1 else 0)]⟩
  | .sel g w d a b c =>
    some ⟨{ guard := g, ok := fun s => s.srcOk false a && s.srcOk false b && s.predOk c && s.dstOk w false d,
            srcs := [a, b, c], dsts := [d] },
      fun s i => [.scalar d (writeTy (zTy w) (if s.cond c i.rep then s.sval i false a else s.sval i false b))]⟩
  | .addc g w d a b c =>
    some ⟨{ guard := g, ok := fun s => s.srcOk false a && s.srcOk false b && s.predOk c && s.dstOk w false d,
            srcs := [a, b, c], dsts := [d] },
      fun s i =>
        let t := zTy w
        let sum := readTy t (s.sval i false a) + readTy t (s.sval i false b) + (if s.cond c i.rep then 1 else 0)
        [.scalar d (BitVec.ofNat 64 (sum % 2 ^ tyBits t)), .scalar c (if 2 ^ tyBits t ≤ sum then 1 else 0)]⟩
  | .cvta g m d a =>
    some ⟨{ guard := g, ok := fun s => !s.me.isWave && s.srcOk false a && s.dstOk true false d, srcs := [a], dsts := [d] },
      fun s i => [.scalar d (cvtaResult s.hereId s.me m (s.sval i false a))]⟩
  | _ => none

/-- The operand values for which an instruction of the group takes no trap of its own: CVTA.tovirt outside its segment takes
the ADDRESS trap (R105). -/
def intRuns (i : Instr) (s : State) (iss : Iss) : Bool :=
  match i with
  | .cvta _ .tovirt _ a => isAperture (s.sval iss false a) || s.me.inLimit (s.sval iss false a)
  | _ => true

/-- A vector result of one source in each lane acted on (R94, R109). -/
def vector1 (g : Guard) (d a : Opnd) (f : W32 → W32) : Option RegEffect :=
  some ⟨vecReq g d [a], fun s i => [.vector d (fun l => f ((s.val i false a l).setWidth 32))]⟩

/-- A vector result of two sources. -/
def vector2 (g : Guard) (d a b : Opnd) (f : W32 → W32 → W32) : Option RegEffect :=
  some ⟨vecReq g d [a, b], fun s i =>
    [.vector d (fun l => f ((s.val i false a l).setWidth 32) ((s.val i false b l).setWidth 32))]⟩

/-- A vector result of three sources. -/
def vector3 (g : Guard) (d a b c : Opnd) (f : W32 → W32 → W32 → W32) : Option RegEffect :=
  some ⟨vecReq g d [a, b, c], fun s i =>
    [.vector d (fun l =>
      f ((s.val i false a l).setWidth 32) ((s.val i false b l).setWidth 32) ((s.val i false c l).setWidth 32))]⟩

/-- A cross-lane result: one uniform register, or every lane acted on (R111). -/
def crossPuts (d : Opnd) (v : W32) : List Put :=
  match opOf d with
  | .k _ => [.scalar d (v.setWidth 64)]
  | _ => [.vector d (fun _ => v)]

/-- The vector integer group (04_registers.md R109 to R111), with VPACK and VUNPK (R181). -/
def vecEffect (i : Instr) : Option RegEffect :=
  match i with
  | .vadd g signed sat d a b => vector2 g d a b (addLane signed sat)
  | .vsub g signed sat d a b => vector2 g d a b (subLane signed sat)
  | .vmul g signed m d a b => vector2 g d a b (mulLane signed m)
  | .vmad g signed d a b c =>
    vector3 g d a b c fun x y z => BitVec.ofInt 32 (laneInt signed x * laneInt signed y + laneInt signed z)
  | .vminmax g signed max d a b =>
    vector2 g d a b fun x y =>
      BitVec.ofInt 32 (if max then Max.max (laneInt signed x) (laneInt signed y)
        else Min.min (laneInt signed x) (laneInt signed y))
  | .vlog g tt d a b c => vector3 g d a b c (logLane tt)
  | .vsh g signed op d a b => vector2 g d a b (shLane signed op)
  | .vmov g d a => vector1 g d a fun x => x
  | .vcmp g signed k d a b =>
    some ⟨{ guard := g, cls := some 1, ok := fun s => s.srcOk true a && s.srcOk true b && s.predOk d, srcs := [a, b],
            dsts := [d], vec := true, counted := true },
      fun s i => [.mask d (lanesWith (lanesOf i.lanes) fun l =>
        cmpInts k (laneInt signed ((s.val i false a l).setWidth 32)) (laneInt signed ((s.val i false b l).setWidth 32)))]⟩
  | .vsel g d a b c =>
    some ⟨{ guard := g, cls := some 1, srcs := [a, b, c], dsts := [d], vec := true, counted := true,
            ok := fun s => s.srcOk true a && s.srcOk true b && s.predOk c && s.vdstOk false (s.laneCount g) d },
      fun s i => [.vector d (fun l => (s.val i false (if s.cond c l then a else b) l).setWidth 32)]⟩
  | .vbcast g d a b =>
    some ⟨{ guard := g, cls := some 1, srcs := [a, b], dsts := [d], vec := true, counted := true,
            ok := fun s => s.srcOk true a && s.uniSrcOk b && s.vdstOk false (s.laneCount g) d },
      fun s i => [.vector d (fun _ => (s.val i false a ((s.val i false b i.rep).toNat % 16)).setWidth 32)]⟩
  | .vshuf g op d a b =>
    some ⟨{ guard := g, cls := some 1, srcs := [a, b], dsts := [d], vec := true, counted := true,
            ok := fun s => s.srcOk true a && (if op = .idx then s.srcOk true b else s.uniSrcOk b) &&
              s.vdstOk false (s.laneCount g) d },
      fun s i => [.vector d (fun l => (s.val i false a (shufLane op l (s.val i false b l).toNat)).setWidth 32)]⟩
  | .vred g signed op d a =>
    some ⟨crossReq g d a fun s => s.srcOk true a, fun s i =>
      let vals := (lanesOf i.lanes).map fun l => ((s.val i false a l).setWidth 32 : W32)
      crossPuts d (vals.tail.foldl (combine signed op) (vals.headD 0))⟩
  | .vballot g d a =>
    some ⟨crossReq g d a fun s => s.predOk a, fun s i =>
      crossPuts d ((lanesWith (lanesOf i.lanes) fun l => s.cond a l).setWidth 32)⟩
  | .vpopc g below d a =>
    some ⟨{ guard := g, cls := some 1, srcs := [a], dsts := [d], vec := true, counted := true,
            ok := fun s => (if below then s.predOk a else s.srcOk true a) && s.vdstOk false (s.laneCount g) d },
      fun s i => [.vector d (fun l =>
        BitVec.ofNat 32
          (if below then ((lanesOf i.lanes).filter fun m => m < l && s.cond a m).length
           else popcount ((s.val i false a l).setWidth 32 : W32).toNat 32))]⟩
  | .vpack g kind d a b =>
    some ⟨{ guard := g, cls := some 1, form := State.unified, vec := true, dsts := [d],
            srcs := [a, b] ++ (if packReadsD kind.toNat then [d] else []),
            ok := fun s => s.srcOk true a && s.srcOk true b && s.vdstOk false (s.laneCount g) d &&
              (!packReadsD kind.toNat || s.srcOk true d) },
      fun s i =>
        let v (o : Opnd) (l : Nat) : W32 := (s.val i false o l).setWidth 32
        [.vector d (fun l => packLane kind.toNat (v a l) (v b l) (v d l))]⟩
  | .vunpk g kind d a b =>
    some ⟨{ guard := g, cls := some 1, form := State.unified, vec := true, srcs := [a, b], dsts := [d],
            ok := fun s => s.srcOk true a && s.vdstOk false (s.laneCount g) d &&
              (match opOf b with
               | .prim _ => s.srcOk true b
               | _ => s.kImmOk b) },
      fun s i => [.vector d (fun l =>
        unpackLane kind.toNat ((s.val i false a l).setWidth 32) ((s.val i false b l).setWidth 32))]⟩
  | _ => none

/-- A vector floating-point result of fixed or long latency (R125, R128). -/
def vfp (g : Guard) (r : Rnd) (t : FTy) (long : Bool) (d : Opnd) (srcs : List Opnd)
    (f : Fmt → Env → List Num → Nat × FlagSet) : Option RegEffect :=
  some ⟨vfpReq g d srcs long, fun s i =>
    let v := fpLanes s i t (s.me.env r) (f (fmtOf t) (s.me.env r)) srcs
    [.vector d v.1, .flags (v.2)]⟩

/-- A scalar floating-point result of fixed or long latency (R125, R135). -/
def sfp (lat : Nat) (g : Guard) (r : Rnd) (t : FTy) (long : Bool) (d : Opnd) (srcs : List Opnd)
    (f : Fmt → Env → List Num → Nat × FlagSet) : Option RegEffect :=
  some ⟨sfpReq g t d srcs long lat, fun s i =>
    let v := f (fmtOf t) (s.me.env r) (srcs.map (s.sfpNum i (fmtOf t) (s.me.env r)))
    [.scalar d (BitVec.ofNat 64 v.1), .flags (v.2)]⟩

/-- The floating-point groups' members of fixed latency (05_lanes.md R128 to R137). -/
def fpEffect (i : Instr) : Option RegEffect :=
  match i with
  | .vfadd g r t d a b => vfp g r t false d [a, b] (onTwo addNum)
  | .vfsub g r t d a b => vfp g r t false d [a, b] (onTwo subNum)
  | .vfmul g r t d a b => vfp g r t false d [a, b] (onTwo mulNum)
  | .vfma g r op t d a b c => vfp g r t false d [a, b, c] (onThree fun f e => fmaOp f e op)
  | .vfminmax g op t d a b => vfp g .dyn t false d [a, b] (onTwo fun f _ => minmaxNum f op)
  | .vfcmp g hi k t d a b =>
    some ⟨{ guard := g, cls := some 1, ok := fun s => s.fpSrcOk true a && s.fpSrcOk true b && s.predOk d, srcs := [a, b],
            dsts := [d], vec := true, counted := true },
      fun s i =>
        let z := (s.me.env .dyn).flush (fmtOf t)
        let el (o : Opnd) (l : Nat) : Num :=
          unpack (fmtOf t) z ((laneElems t (s.fpLane i t o l)).getD (if hi then 1 else 0) 0)
        let rs := (lanesOf i.lanes).map fun l => (l, cmpNum (fmtOf t) k (el a l) (el b l))
        [.mask d (lanesWith (lanesOf i.lanes) fun l => rs.any fun r => r.1 = l && r.2.1)] ++
          [.flags (rs.foldl (fun fl r => fl ||| r.2.2) 0)]⟩
  | .vfclass g t d a => some ⟨vfpReq g d [a] false, fun s i => [.vector d (fun l => classLane t (s.fpLane i t a l))]⟩
  | .vcvt g r code d a b =>
    let k := code.toNat
    some ⟨{ guard := g, cls := some 1, srcs := if cvtUsesB k then [a, b] else [a], dsts := [d], vec := true, counted := true,
            ok := fun s => s.cvtSrcOk true (cvtKind k false) a && (!cvtUsesB k || s.cvtSrcOk true (cvtKind k true) b) &&
              s.vfdstOk false d },
      fun s i =>
        let rs := (lanesOf i.lanes).map fun l =>
          (l, cvtLane (s.me.env r) k (s.cvtVal i (cvtKind k false) a l) (s.cvtVal i (cvtKind k true) b l))
        [.vector d (fun l => match rs.find? (·.1 = l) with
          | some q => q.2.1
          | none => 0), .flags (rs.foldl (fun fl q => fl ||| q.2.2) 0)]⟩
  | .fadd g r sub t d a b => sfp (sfpLat t) g r t false d [a, b] (onTwo (if sub then subNum else addNum))
  | .fmul g r t d a b => sfp (sfpLat t) g r t false d [a, b] (onTwo mulNum)
  | .ffma g r op t d a b c => sfp (sfpLat t) g r t false d [a, b, c] (onThree fun f e => fmaOp f e op)
  | .fminmax g op t d a b => sfp 1 g .dyn t false d [a, b] (onTwo fun f _ => minmaxNum f op)
  | .fcmp g k t d a b =>
    some ⟨{ guard := g, ok := fun s => s.sfpSrcOk (isF64 t) a && s.sfpSrcOk (isF64 t) b && s.predOk d, srcs := [a, b],
            dsts := [d], cls := some 0 },
      fun s i =>
        let r := cmpNum (fmtOf t) k (s.sfpNum i (fmtOf t) (s.me.env .dyn) a) (s.sfpNum i (fmtOf t) (s.me.env .dyn) b)
        [.scalar d (if r.1 then 1 else 0), .flags (r.2)]⟩
  | .fcvt g r code d a =>
    let k := code.toNat
    some ⟨{ guard := g, ok := fun s => s.sideOk (fcvtSrc k) a && s.sfpDstOk (fcvtDst k).wide false d, srcs := [a],
            dsts := [d], cls := some 0, lat := 3 },
      fun s i =>
        let v := s.fcvtResult i k (s.me.env r) a
        [.scalar d v.1, .flags (v.2)]⟩
  | _ => none

/-- The results that land later (02_clauses.md R40, R41): the lookahead count of the word, and the effect. -/
def longEffect (i : Instr) : Option (BitVec 4 × RegEffect) :=
  let div (la : BitVec 4) (g : Guard) (t : IntTy) (d a b : Opnd) (f : W64 → W64 → W64) : Option (BitVec 4 × RegEffect) :=
    some (la, ⟨{ guard := g, ok := fun s => s.srcOk false a && s.srcOk false b && s.dstOk (tyW64 t) true d, srcs := [a, b],
                 dsts := [d], long := true },
      fun s i => [.scalar d (f (s.sval i (tySigned t) a) (s.sval i (tySigned t) b))]⟩)
  let fp (la : BitVec 4) (e : Option RegEffect) : Option (BitVec 4 × RegEffect) := e.map fun e => (la, e)
  match i with
  | .div la g t d a b => div la g t d a b fun x y =>
      if readInt t y = 0 then wrapTy t (-1) else wrapTy t ((readInt t x).tdiv (readInt t y))
  | .rem la g t d a b => div la g t d a b fun x y =>
      if readInt t y = 0 then writeTy t x else wrapTy t ((readInt t x).tmod (readInt t y))
  | .fdiv la g r t d a b => fp la (sfp 1 g r t true d [a, b] (onTwo divNum))
  | .fsqrt la g r t d a => fp la (sfp 1 g r t true d [a] (onOne sqrtNum))
  | .vfdiv la g r t d a b => fp la (vfp g r t true d [a, b] (onTwo divNum))
  | .vfsqrt la g r t d a => fp la (vfp g r t true d [a] (onOne sqrtNum))
  | .vfrcp la g r t d a => fp la (vfp g r t true d [a] (onOne rcpNum))
  | .vfrsq la g r t d a => fp la (vfp g r t true d [a] (onOne rsqNum))
  | .vfexp2 la g r t d a => fp la (vfp g r t true d [a] (onOne exp2Num))
  | .vflog2 la g r t d a => fp la (vfp g r t true d [a] (onOne log2Num))
  | .vfsin la g r t d a => fp la (vfp g r t true d [a] (onOne sinNum))
  | .vfcos la g r t d a => fp la (vfp g r t true d [a] (onOne cosNum))
  | _ => none

/-- The unit that keeps the order of an instruction's late results (R116): 1 special functions, 2 the core's divider. -/
def lateUnit (i : Instr) : Nat :=
  match i with
  | .fdiv .. | .fsqrt .. => 2
  | .vfdiv .. | .vfsqrt .. | .vfrcp .. | .vfrsq .. | .vfexp2 .. | .vflog2 .. | .vfsin .. | .vfcos .. => 1
  | _ => 0

/-! Transfers of control (03_contexts.md R75, R76). -/

/-- A transfer: what it asks of its issue, the values for which it takes no trap of its own, the header it goes to, and
the return stack that the lanes that transfer take. -/
structure Jump where
  req : Req
  runs : State → Iss → Bool
  target : State → Iss → W64
  stack : State → Iss → List W64

/-- BRI's target in a lane: CP × 8 + 8 × the lane's 32-bit value, or the thread's 64-bit value (R75). -/
def briTarget (s : State) (i : Iss) (a : Opnd) (l : Nat) : W64 :=
  pcAddr s.me.curSlot.pc + 8 * (if s.me.isWave then ((s.val i true a l).setWidth 32 : W32).signExtend 64 else s.val i true a l)

def jumpOf (i : Instr) : Option Jump :=
  match i with
  | .bra g off =>
    some { req := { guard := g }, runs := fun _ _ => true,
           target := fun s _ => pcAddr s.me.curSlot.pc + 8 * off.signExtend 64, stack := fun s _ => s.me.curSlot.rstk }
  | .bri g a =>
    some { req := { guard := g, ok := fun s => s.laneSrcOk a, srcs := [a], vec := true },
           runs := fun s i => (lanesOf i.lanes).all fun l =>
             briTarget s i a l = briTarget s i a i.rep && field (briTarget s i a l) 57 7 = 0,
           target := fun s i => briTarget s i a i.rep, stack := fun s _ => s.me.curSlot.rstk }
  | .call g off =>
    some { req := { guard := g }, runs := fun s _ => decide (s.me.curSlot.rstk.length < 8),
           target := fun s _ => pcAddr s.me.curSlot.pc + 8 * off.signExtend 64,
           stack := fun s _ =>
             mkPc (wordsFrom s.me.curSlot.pc (BitVec.ofNat 64 (s.me.curSlot.count + 2))) 0 :: s.me.curSlot.rstk }
  | .ret g =>
    some { req := { guard := g },
           runs := fun s _ =>
             decide ((if s.me.handler then field s.me.tcause 19 4 else 0) < s.me.curSlot.rstk.length),
           target := fun s _ => pcAddr (s.me.curSlot.rstk.headD 0), stack := fun s _ => s.me.curSlot.rstk.tail }
  | _ => none

/-- No active loop level ends at the header at `a` (R78). -/
def Ctx.noLoopEnd (c : Ctx) (a : W64) : Prop :=
  (c.lc.1 = 0 ∨ pcAddr c.le.1 ≠ pcAddr a) ∧ (c.lc.2 = 0 ∨ pcAddr c.le.2 ≠ pcAddr a)

/-- The header that the pc comes to after the last instruction of its clause (R24, R28). -/
def Ctx.nextHeader (c : Ctx) : W64 := wordsFrom c.curSlot.pc (BitVec.ofNat 64 (c.curSlot.count + 2))

/-- A slot past the instruction at its pc, where no loop ends. -/
def PcSlot.past (p : PcSlot) : PcSlot :=
  if pcIndex p.pc < p.count then { p with pc := mkPc p.pc (pcIndex p.pc + 1) }
  else p.at_ (wordsFrom p.pc (BitVec.ofNat 64 (p.count + 2)))

/-- The slots of a context, its issuing slot `p` and its other slot `q`. -/
def Ctx.pairOf (c : Ctx) (p q : PcSlot) : PcSlot × PcSlot := if c.cur = 0 then (p, q) else (q, p)

end Sys2Proof.Machine
end

