-- ==== Sys2Proof/OpEffects.lean ====
section
/-! DEFINITION. What the instructions that act on memory, on units and on the system do, one table for each group, for the
statements about them: what each asks of the state and of its operands, what it changes there, and what it writes. -/

namespace Sys2Proof.Machine

/-- The effect of an instruction: what it asks of its issue; the further conditions, on the state and the values of its
operands, under which it neither traps nor waits; what it changes besides its results; its results; and the register writes
that land later, each with its window and whether it is a load's, and the address of the access that they come from. -/
structure Effect where
  req : Req
  asks : State → Iss → Bool := fun _ _ => true
  change : State → Iss → State := fun s _ => s
  puts : State → Iss → List Put := fun _ _ => []
  later : State → Iss → List (Nat × Bool × List RegWrite) := fun _ _ => []
  addr : State → Iss → W64 := fun _ _ => 0

/-- A result recorded to land later (R41): a load's, or one of the special-function units, which keep their order (R116). -/
def State.owing (addr : W64) (s : State) (q : Nat × Bool × List RegWrite) : State :=
  { s with me := { s.me with
      pend := s.me.pend ++ [{ tok := s.me.tok, writes := q.2.2, window := q.1, load := q.2.1, addr := addr, since := s.clk.toNat,
                              unit := if q.2.1 then 0 else 1 }],
      tok := s.me.tok + 1 } }

/-- The state that an effect leaves, before the books of the issue. -/
def Effect.leaves (e : Effect) (s : State) : State :=
  let i := issOf e.req s
  (e.later s i).foldl (State.owing (e.addr s i)) ((e.change s i).writes ((e.puts s i).flatMap (Put.writes s i)))

/-- Its conditions hold. -/
def Effect.runs (e : Effect) (s : State) : Bool := e.asks s (issOf e.req s)

/-- One and zero. -/
def bit (b : Bool) : W64 := if b then 1 else 0

/-! When an access is performed at once: conditions on the state and the addresses alone (06_scratchpad.md R157 to R162;
07_addresses.md R190 to R200; 09_sharing.md R246, R254; 18_debug.md R455). -/

/-- No watchpoint matches one of an instruction's accesses. -/
def State.unwatched (s : State) (gs : List (Nat × Need × List LaneAddr)) : Bool := (s.me.watchMatch gs).isNone

/-- The entries of the cluster's TLB that translate an address for the turn's context. -/
def State.tlbFor (s : State) (va : Nat) (write : Bool) : List Tlb :=
  let asn := s.domAsn s.myDomain
  (Store.get Cluster.reset s.clusters (clusterOf s.hereId)).tlb.filter
    (tlbHit asn (s.inFine s.hereId asn va) va write)

/-- The TLB holds a translation of an address, with a right. -/
def State.tlbGrants (s : State) (va : Nat) (write : Bool) (right : Tlb → Bool) : Bool :=
  !(s.tlbFor va write).isEmpty && (s.tlbFor va write).all right

/-- Bytes of one page: the TLB grants the reads and writes that the access makes, no forwarded access comes first, and what
is read has no poison. -/
def State.pieceGranted (s : State) (need : Need) (q : Nat × Nat) : Bool :=
  (!need.wr || s.tlbGrants q.1 true (·.wr)) && (!need.rd || s.tlbGrants q.1 false (·.rd)) &&
  (s.tlbFor q.1 false).all fun e =>
    let pa := tlbAddr e q.1
    (linesOf pa q.2).all (fun line => !s.forwardsFirst (64 * line)) &&
    (!need.rd || !(Place1.phys pa q.1 q.2).poisoned s)

/-- The checks of an address pass, and what it reaches is there: rows, without poison where they are read, or pages granted. -/
def State.addrGranted (s : State) (n : Nat) (need : Need) (a : W64) : Bool :=
  match s.precheck a n need with
  | .ok (.row core off) => !need.rd || !(Place1.row core off n).poisoned s
  | .ok (.glob va) => (pieceSplit va n).all (s.pieceGranted need)
  | .error _ => false

/-- An access is granted: no watchpoint matches, and the address of every lane is granted. -/
def State.granted (s : State) (n : Nat) (need : Need) (lanes : List LaneAddr) : Bool :=
  s.unwatched [(n, need, lanes)] && lanes.all fun l => s.addrGranted n need l.2

/-- Every address is in the data rows or the system rows of a core of an aperture. -/
def State.rowAt (s : State) (n : Nat) (need : Need) (a : W64) : Option (Nat × Nat) :=
  match s.precheck a n need with
  | .ok (.row core off) => some (core, off)
  | _ => none

/-- The uniform writes of a releasing access have landed (04_registers.md R92). -/
def State.mayRelease (s : State) : Bool :=
  !s.drainsInto none && !s.me.pend.any Pend.uniform && !s.here.uniDue.any fun w => w.by_ = s.seat

/-- An access of an order that releases does not wait. -/
def State.releases (s : State) (order : Nat) : Bool := !(order = 3 || order = 4 || order = 5) || s.mayRelease

/-- A bounded load waits for no refresh: the replicas of the core are recent enough, and their rows hold no poison
(09_sharing.md R254). -/
def State.replicasServe (s : State) (order bound : Nat) : Bool :=
  order < 6 || (List.range 32).all fun i =>
    let k := Store.get Prick.reset s.here.pricks i
    field k.word 78 2 ≠ 2 ||
    ((bound = 15 || order = 7 || field (Store.get 0 s.here.watch k.watch) 64 64 - k.copy.toNat ≤ bound) &&
     (List.range (field k.word 65 11)).all fun r => !tagPoison ((s.core s.hereId).tag (field k.word 54 11 + r)))

/-- No walk of another agent is under way in the cluster, and no offer to its miss queue was refused (07_addresses.md R200). -/
def State.walksFree (s : State) : Bool :=
  (Store.get Cluster.reset s.clusters (clusterOf s.hereId)).missq.isEmpty && s.me.prog.nextCheck ≤ s.clk.toNat

/-- No atom of memory and no row that an owner holds of it is poisoned. -/
def State.soundMemory (s : State) : Bool :=
  s.poison.isEmpty && s.knownCores.all fun k =>
    (s.core k).owned.all fun x => x.2 = 0 || !tagPoison ((s.core k).tag ((x.2 - 1) / 64))

/-- A generic range passes R190 for RD and is aligned. -/
def State.segReady (s : State) (a : W64) (n align : Nat) : Bool :=
  !isAperture a && segRights (s.me.seg (field a 61 3)) s.me.supervisor .load &&
  field a 0 61 + n ≤ segLimit (s.me.seg (field a 61 3)) && a.toNat % align = 0

/-- A virtual range is granted to a load of the context, sub-page by sub-page. -/
def State.rangeGranted (s : State) (va n : Nat) : Bool :=
  (List.range ((va + n - 1) / 1024 - va / 1024 + 1)).all fun j =>
    let lo := max va ((va / 1024 + j) * 1024)
    let hi := min (va + n) ((va / 1024 + j + 1) * 1024)
    s.tlbGrants lo false (·.rd) &&
    (s.tlbFor lo false).all fun e => !(Place1.phys (tlbAddr e lo) lo (hi - lo)).poisoned s

/-- Rows of the core that a store of the context may reach, by local-aperture address (R157). -/
def State.storeRows (s : State) (a : W64) (n align : Nat) : Bool :=
  validLocal a && field a 0 17 + n ≤ 0x18000 &&
  s.rowsAllowed s.myDomain s.me.supervisor s.hereId (field a 0 17) n true && field a 0 17 % align = 0

/-- Team rows of the context's own team, by local-aperture address (R287). -/
def State.teamRows (s : State) (a : W64) (n : Nat) : Bool :=
  validLocal a && field a 0 17 + 64 * n ≤ 0x18000 && field a 0 17 % 64 = 0 && s.myTeam.isSome &&
  (List.range n).all fun j =>
    tagClass (s.here.tag (field a 0 17 / 64 + j)) = 4 && tagOwner (s.here.tag (field a 0 17 / 64 + j)) = s.me.team

/-- A row of the core holds no poison. -/
def State.soundRow (s : State) (off : Nat) : Bool := !(Place1.row s.hereId off 64).poisoned s

/-! Accumulators and MODE (05_lanes.md R121, R137 to R145). -/

/-- A result of the accumulator unit (R144). -/
def accPuts (s : State) (w64 : Bool) (d : Opnd) (v : W64) : List Put :=
  match opOf d with
  | .prim _ =>
    if s.me.isWave then
      .vector d (fun _ => v.setWidth 32) :: (if w64 then [.vector (nextOpnd d) (fun _ => (v >>> 32).setWidth 32)] else [])
    else [.scalar d v]
  | _ => [.scalar d v]

/-- MODE as WRMODE writes it. -/
def modeAfter (old v m : BitVec 32) : BitVec 32 := ((old &&& ~~~m) ||| (v &&& m)) &&& modeBits

def arithOps (i : Instr) (s : State) : Option Effect :=
  match i with
  | .kacc g n kind a b =>
    some { req := kaccReq g kind a b s, asks := fun s _ => !s.drainsInto (some n.toNat),
           change := fun s q => (lanesOf q.lanes).foldl
             (fun t l => t.did (modAcc s.hereId s.me.team n.toNat fun v st => accAddNum v st (s.kaccVal q kind a b l))) s }
  | .kclr g n =>
    some { req := kclrReq g, asks := fun s _ => !s.drainsInto (some n.toNat),
           change := fun s _ => s.did (clearAcc s.hereId s.me.team n.toNat) }
  | .krnd g n r f64 clr d =>
    let value (s : State) : Nat × FlagSet :=
      krndResult (if f64 then f64Fmt else f32Fmt) (s.me.env r) (s.acc n.toNat).1 (s.acc n.toNat).2
    some { req := krndReq g f64 d s, asks := fun s _ => !s.drainsInto (some n.toNat),
           change := fun s _ => if clr then s.did (clearAcc s.hereId s.me.team n.toNat) else s,
           puts := fun s _ => accPuts s f64 d (BitVec.ofNat 64 (value s).1) ++ [.flags (value s).2] }
  | .kstat g n clr d =>
    some { req := kstatReq g d s, asks := fun s _ => !s.drainsInto (some n.toNat),
           change := fun s _ =>
             if clr then s.did (modAcc s.hereId s.me.team n.toNat fun v st => (v, { AccStat.zero with wrap := st.wrap }))
             else s,
           puts := fun s _ => accPuts s false d (BitVec.ofNat 64 (s.acc n.toNat).2.byte) }
  | .rdmode g d =>
    some { req := rdmodeReq g d, asks := fun s _ => !s.fpOwed, puts := fun s _ => [.scalar d (s.me.mode.setWidth 64)] }
  | .wrmode g a b =>
    let new (s : State) (q : Iss) : BitVec 32 :=
      modeAfter s.me.mode ((s.sval q false a).setWidth 32) ((s.sval q false b).setWidth 32)
    some { req := wrmodeReq g a b,
           asks := fun s q => !s.fpOwed && (new s q).extractLsb' 8 3 ≠ 0 && (new s q).extractLsb' 8 3 ≠ 6,
           change := fun s q => { s with me := { s.me with mode := new s q } } }
  | .pairI x y => pairOps false false x y
  | .pairF x y => pairOps true true x y
  | .pairIF x y => pairOps false true x y
  | _ => none
where
  /-- A paired word: half B on half A's result; a long half's result lands later, and so do flags with it (R45, R114). -/
  pairOps (fa fb : Bool) (x y : Half) : Option Effect :=
    let wa (s : State) (q : Iss) : Put := .vector (halfOpnd x.d) fun l => (pairFirst fa x s q l).1
    let wb (s : State) (q : Iss) : Put := .vector (halfOpnd y.d) fun l => (pairSecond fa fb x y s q l).1
    some { req := pairReq fa fb x y, asks := fun s _ => !(halvesMeet fa fb x y && s.me.mode.getLsbD 13),
           puts := fun s q =>
             (if x.special fa then [] else [wa s q]) ++ (if y.special fb then [] else [wb s q]) ++
             (if x.special fa || y.special fb then [] else [.regs (pairFlags fa fb x y s q)]),
           later := fun s q =>
             (if x.special fa then [(wa s q).writes s q] else []) ++ (if y.special fb then [(wb s q).writes s q] else []) ++
             (if x.special fa || y.special fb then [pairFlags fa fb x y s q] else []) |>.filter (· ≠ []) |>.map
               fun w => (0, false, w) }

/-! Memory (07_addresses.md, 09_sharing.md). -/

/-- The address of a scalar memory instruction, as its lane's. -/
def State.memAt (s : State) (q : Iss) (m : MemF) (off : BitVec 13) (size : Nat) : List LaneAddr :=
  [(q.rep, memAddr (s.wide q m.base q.rep) off size)]

/-- The lanes of VLD, VST and their kin are granted: a row access as 64 bytes, of which each lane's own four are watched
(06_scratchpad.md R177). -/
def State.vmemGranted (s : State) (q : Iss) (m : MemF) (need : Need) : Bool :=
  let lanes := s.vmemLanes q m
  if m.width = 5 then
    s.unwatched [(4, need, lanes.map fun l => (l.1, l.2 + BitVec.ofNat 64 (4 * l.1)))] &&
    lanes.all fun l => s.addrGranted 64 need l.2
  else s.granted (widthSize m.width) need lanes

/-- The lanes of VLDS and VSTS are granted in rows whose bank's format has the width (R178). -/
def State.fmtGranted (s : State) (q : Iss) (m : MemF) (need : Need) : Bool :=
  s.vmemGranted q m need && (s.vmemLanes q m).all fun l =>
    match s.rowAt (vmemSize m) need l.2 with
    | some (core, off) => fmtWidth ((s.core core).fmtAt off) = some m.width
    | none => false

/-- What the lanes of a POLL that have seen no change read. -/
def pollRead (m : MemF) (q : Iss) (todo : List Nat) : M (List (Nat × Nat)) := do
  let s ← get
  let lanes : List LaneAddr := todo.map fun l => (l, memAddr (s.wide q m.base l) m.off (widthSize m.width))
  let got ← access (widthSize m.width) { loadNeed (viaOf .ls m) m.order.toNat with natural := true } lanes
  loadLanesAt (viaOf .ls m) m.order.toNat 0 lanes got

/-- Every lane of a POLL has seen a change, or sees one now: its word differs from what its register held when the POLL
began (R82). -/
def State.pollEnds (s : State) (m : MemF) (q : Iss) : Bool :=
  let todo := (lanesOf q.lanes).filter fun l => !s.me.prog.done.getLsbD l
  let old (l : Nat) : W64 := if s.me.prog.active then s.me.prog.old.getD l 0 else s.primVal m.data l
  let read := (s.gives (pollRead m q todo)).getD []
  todo.all fun l => match read.find? (·.1 = l) with
    | some g => if m.width = 3 then BitVec.ofNat 64 g.2 ≠ old l else (BitVec.ofNat 64 g.2).setWidth 32 ≠ ((old l).setWidth 32 : W32)
    | none => false

/-- LDLOD's descriptor, address and level (08_residency.md R231 to R233). -/
def State.lodAsk (s : State) (q : Iss) (m : MemF) : Chain × W64 × Nat :=
  let ch := 4 * field m.off 9 4
  ({ b0 := s.uni (ch + 1) ++ s.uni ch, shape := s.uni (ch + 2), blk := s.uni (ch + 3) },
   memAddr (s.wide q m.base q.rep) ((m.off.extractLsb' 0 6).signExtend 13) (widthSize m.width), field m.off 6 3)

/-- LDLOD takes no trap and does not wait: its descriptor or its address is bad, which it answers, or its span lies in its
segment and nothing keeps its walk or its reads (R233, R235). -/
def State.lodRuns (s : State) (q : Iss) (m : MemF) : Bool :=
  let (d, a, lvl) := s.lodAsk q m
  isAperture a || isAperture d.b0 || d.bad m.width.toNat || d.nlev < lvl || d.outside a ||
  (s.unwatched [(widthSize m.width, .load, [(q.rep, a)])] && segRights (s.me.seg (field a 61 3)) s.me.supervisor .load &&
   field d.b0 61 3 = field a 61 3 && field d.b0 0 61 + d.span ≤ segLimit (s.me.seg (field a 61 3)) && s.walksFree &&
   s.soundMemory && s.replicasServe m.order.toNat m.bound.toNat)

def memoryOps (i : Instr) (s : State) : Option Effect :=
  match i with
  | .ld m => some (load .ls m)
  | .ldc m => some (load .const m)
  | .st m =>
    some { req := stReq m s,
           asks := fun s q => s.releases m.order.toNat &&
             s.granted (widthSize m.width) .store (s.memAt q m m.off (widthSize m.width)),
           change := fun s q => s.did (stBody m q) }
  | .atom m =>
    some { req := atomReq m s,
           asks := fun s q => s.releases m.order.toNat &&
             s.granted (widthSize m.width) .rmw (s.memAt q m (atomOff m) (widthSize m.width)),
           change := fun s q => s.did (do
             let _ ← atomValueAt m q
             acquired m.order.toNat m.scope.toNat),
           later := fun s q =>
             let r := (s.gives (atomValueAt m q)).getD (0, 0)
             [(m.la.toNat, true, s.loadWrites m.width m.data r.1 ++ (if r.2 = 0 then [] else [.flags r.2]))],
           addr := fun s q => memAddr (s.wide q m.base q.rep) (atomOff m) (widthSize m.width) }
  | .cas m =>
    some { req := casReq m s,
           asks := fun s q => s.releases m.order.toNat &&
             s.granted (widthSize m.width) .rmw (s.memAt q m m.off (widthSize m.width)),
           change := fun s q => s.did (do
             let _ ← casValueAt m q
             acquired m.order.toNat m.scope.toNat),
           later := fun s q => [(m.la.toNat, true, s.casWrites m.width m.data ((s.gives (casValueAt m q)).getD 0))],
           addr := fun s q => memAddr (s.wide q m.base q.rep) m.off (widthSize m.width) }
  | .ldlod m =>
    let code (s : State) (q : Iss) : Nat := ((s.gives (lodValue m q)).getD (0, 0, false)).2.1 % 16
    some { req := ldlodReq m s, asks := fun s q => s.lodRuns q m,
           change := fun s q => (s.did (lodValue m q)).did (do
             if 1 ≤ code s q && code s q ≤ 2 then countEvent 0x18
             acquired m.order.toNat m.scope.toNat),
           later := fun s q =>
             let r := (s.gives (lodValue m q)).getD (0, 0, false)
             [(m.la.toNat, true, s.twoWrites m.data r.1 r.2.1 ++ (if r.2.2 then [.flags flagNV] else []))],
           addr := fun s q => (s.lodAsk q m).2.1 }
  | .pref m => some { req := prefReq m s, asks := fun s _ => s.walksFree, change := fun s q => s.did (prefBody m q) }
  | .rbump m =>
    some { req := rbumpReq m s,
           asks := fun s q => s.mayRelease && !isAperture (memAddr (s.wide q m.base q.rep) m.off 8) &&
             s.granted 8 .rmw (s.memAt q m m.off 8),
           change := fun s q => s.did (do
             let _ ← bumpCounter (atPoc m) (← roundAccess q m .rmw)
             acquired m.order.toNat m.scope.toNat),
           later := fun s q =>
             let v := (s.gives (do bumpCounter (atPoc m) (← roundAccess q m .rmw))).getD 0
             [(m.la.toNat, true, s.loadWrites 3 m.data v.toNat)], addr := fun s q => memAddr (s.wide q m.base q.rep) m.off 8 }
  | .rsnap m =>
    let need : Need := { Need.load with natural := true }
    let word (q : Iss) : M (Nat × Nat) := do
      let ps ← roundAccess q m need
      return (placeAddr ps, ← readPieces (atPoc m) ps)
    some { req := rsnapReq m s,
           asks := fun s q => !isAperture (memAddr (s.wide q m.base q.rep) m.off 8) && s.granted 8 need (s.memAt q m m.off 8),
           change := fun s q => s.did (do
             let r ← word q
             if m.order ≠ 1 then raiseLatest s.hereId r.1 (BitVec.ofNat 64 r.2)
             acquired m.order.toNat m.scope.toNat),
           later := fun s q =>
             let r := (s.gives (word q)).getD (0, 0)
             let v : W64 := BitVec.ofNat 64 r.2
             [(m.la.toNat, true, s.loadWrites 3 m.data v.toNat ++ (if m.order = 1 then [.latest r.1 v] else []))],
           addr := fun s q => memAddr (s.wide q m.base q.rep) m.off 8 }
  | .fence g ord scope =>
    some { req := fenceReq g, asks := fun s _ => (ord = .acq || s.mayRelease) && (ord = .rel || !s.loadsOpen),
           change := fun s q => s.did (fenceBody ord scope q) }
  | .pfence g paths => some { req := pfenceReq g, asks := fun s _ => !s.loadsOpen, change := fun s q => s.did (pfenceBody paths q) }
  | .poll m =>
    let need : Need := { loadNeed (viaOf .ls m) m.order.toNat with natural := true }
    let todo (s : State) (q : Iss) : List LaneAddr :=
      ((lanesOf q.lanes).filter fun l => !s.me.prog.done.getLsbD l).map fun l =>
        (l, memAddr (s.wide q m.base l) m.off (widthSize m.width))
    some { req := pollReq m s,
           asks := fun s q => !(s.me.prog.active && s.pollWaits) && s.granted (widthSize m.width) need (todo s q) &&
             s.replicasServe m.order.toNat 0 && s.pollEnds m q,
           change := fun s q => s.did (do
             beginPoll m
             pollLanes m q) }
  | .vld m =>
    let value (q : Iss) : M (List (Nat × W32)) := do loadLanes q m (← vmemAccess q m (vloadNeed m))
    some { req := vldReq m s,
           asks := fun s q => s.vmemGranted q m (vloadNeed m) && s.replicasServe m.order.toNat m.bound.toNat,
           change := fun s q => (s.did (value q)).did (acquired m.order.toNat m.scope.toNat),
           later := fun s q => [(m.la.toNat, true, laneWrites m.data ((s.gives (value q)).getD []))],
           addr := fun s q => ((s.vmemLanes q m).headD (0, 0)).2 }
  | .vst m =>
    some { req := vstReq m s, asks := fun s q => s.releases m.order.toNat && s.vmemGranted q m .store,
           change := fun s q => s.did (vstBody m q) }
  | .vlds m =>
    let value (q : Iss) : M (List ((Nat × W32) × FlagSet)) := do
      let got ← fmtAccess q m .load
      loadFmtLanes m ((← getMe).env .dyn) got
    some { req := vldsReq m s, asks := fun s q => s.fmtGranted q m .load,
           change := fun s q => (s.did (value q)).did (acquired m.order.toNat m.scope.toNat),
           later := fun s q =>
             let rs := (s.gives (value q)).getD []
             let flags := allFlags (rs.map (·.2))
             [(m.la.toNat, true, laneWrites m.data (rs.map (·.1)) ++ (if flags = 0 then [] else [.flags flags]))],
           addr := fun s q => ((s.vmemLanes q m).headD (0, 0)).2 }
  | .vsts m =>
    some { req := vstsReq m s, asks := fun s q => s.releases m.order.toNat && s.fmtGranted q m .store,
           change := fun s q => s.did (vstsBody m q) }
  | .vatom m =>
    let value (q : Iss) : M (List ((Nat × W32) × FlagSet)) := do
      let got ← access 4 .rmw ((← get).laneAddrs q m 4 (atomOff m))
      atomLanes q m (← getMe) got
    some { req := vatomReq m s,
           asks := fun s q => s.releases m.order.toNat && s.granted 4 .rmw (s.laneAddrs q m 4 (atomOff m)),
           change := fun s q => (s.did (value q)).did (acquired m.order.toNat m.scope.toNat),
           later := fun s q =>
             let rs := (s.gives (value q)).getD []
             let flags := allFlags (rs.map (·.2))
             [(m.la.toNat, true, laneWrites m.data (rs.map (·.1)) ++ (if flags = 0 then [] else [.flags flags]))],
           addr := fun s q => ((s.laneAddrs q m 4 (atomOff m)).headD (0, 0)).2 }
  | _ => none
where
  load (p : Path) (m : MemF) : Effect :=
    { req := { memReq m (fun s => s.loadDst m.width m.data) true with srcs := wideSrcs s.me.isWave m.base },
      asks := fun s q => s.granted (widthSize m.width) (loadNeed (viaOf p m) m.order.toNat) (s.memAt q m m.off (widthSize m.width)) &&
        s.replicasServe m.order.toNat m.bound.toNat,
      change := fun s q => (s.did (loadValue p m q)).did (acquired m.order.toNat m.scope.toNat),
      later := fun s q => [(m.la.toNat, true, s.loadWrites m.width m.data ((s.gives (loadValue p m q)).getD 0))],
      addr := fun s q => memAddr (s.wide q m.base q.rep) m.off (widthSize m.width) }


/-! Streams (04_registers.md R96, R97, R107; 06_scratchpad.md R180). -/

/-- The descriptor of 32 bytes at an address, read as a binding reads it. -/
def descAt (lane : Nat) (addr : W64) : M (BitVec 256) := do
  let got ← access 32 { plainNeed with natural := true } [(lane, addr)]
  return BitVec.ofNat 256 (← readPieces plainLoad ((got.headD (0, [])).2))

/-- A binding completes: its access is granted, the descriptor is legal and its array aligned (R96). -/
def State.bindRuns (s : State) (lane : Nat) (addr : W64) : Bool :=
  let desc := (s.gives (descAt lane addr)).getD 0
  s.granted 32 { plainNeed with natural := true } [(lane, addr)] && descOk s.me.isWave s.hereId desc && descAligned desc

/-- A stream register bound to a descriptor, at its first element, or unbound. -/
def State.bound (s : State) (k : Nat) (d : Option (BitVec 256)) : State :=
  { s with me := { s.me with streams := Store.set none s.me.streams k (d.map fun v => { desc := v, next := 0 }) } }

def streamOps (i : Instr) (s : State) : Option Effect :=
  match i with
  | .sbind g d a => some (bind (sbindReq g d a) false d fun s q => s.sval q false a)
  | .scfgBind g d a => some (bind (scfgBindReq g d a s) true d fun s q => s.wide q a q.rep)
  | .sunb g d => some { req := sunbReq g d, change := fun s _ => s.bound ((s.streamDst false d).getD 0) none }
  | .scfgUnbind g d => some { req := scfgUnbindReq g d, change := fun s _ => s.bound ((s.streamDst true d).getD 0) none }
  | .scfgRtag g a b c =>
    let n (s : State) (q : Iss) : Nat := (s.sval q false b).toNat
    some { req := scfgRtagReq g a b c s,
           asks := fun s q => 1 ≤ n s q && n s q ≤ 64 && (List.range (n s q)).all fun j =>
             let at_ := s.wide q a q.rep + BitVec.ofNat 64 (64 * j)
             s.unwatched [(64, .store, [(q.rep, at_)])] && (s.rowAt 64 .store at_).isSome,
           change := fun s q => s.did (scfgRtagBody a b c q) }
  | _ => none
where
  bind (r : Req) (wave : Bool) (d : Opnd) (addr : State → Iss → W64) : Effect :=
    { req := r, asks := fun s q => s.bindRuns q.rep (addr s q),
      change := fun s q =>
        State.bound (s.did (descAt q.rep (addr s q))) ((s.streamDst wave d).getD 0) (s.gives (descAt q.rep (addr s q))) }

/-! The matrix pair (11_matrix.md). -/

/-- The half array of a core is the team's to take: free, or its own (R293). -/
def State.halfOpen (s : State) : Bool :=
  s.myTeam.isSome && (match s.here.half with
    | some h => h.team = s.me.team
    | none => true)

/-- The pair's queue has room for a command, and no earlier command or transfer writes what it reads or writes (R300,
R302). -/
def State.gateOpen (s : State) (reads writes : List (List W64)) : Bool :=
  let r := reads.map s.mdExtent
  let w := writes.map s.mdExtent
  s.here.matQueue.length < 8 && !(s.here.matQueue.any fun c => s.footsMeet [] c.writes (r ++ w) []) &&
  !(s.here.shuttle.any fun x => match x.2 with
    | some e => (e.state = .queued || e.state = .running) && s.footsMeet [] [s.writeExtent s.hereId e] (r ++ w) []
    | none => false)

/-- A page of a matrix command is granted. -/
def State.mdPageGranted (s : State) (u : Use) (p : Bool × Nat) : Bool :=
  s.tlbGrants (if p.1 then p.2 * 1024 else p.2 * 2 ^ 21) (u = .write) fun e => u.allowed e.rd e.wr e.ex

/-- A matrix command ends: no earlier work keeps it waiting, and it names more than 34 pages, or its images pass their checks,
its pages are granted and, where it looks for planes that are there, no walk keeps it (R300). -/
def State.mayAccept (s : State) (reads writes : List (List W64)) (imgs : List (List W64 × Bool)) (f32 : Bool)
    (all pages : List (Bool × Nat)) (u : Use) (probes : Bool) : Bool :=
  s.gateOpen reads writes && (34 < all.length ||
    ((imgs.all fun i => (s.mdRangeTrap i.2 (mdRange i.1)).isNone && (s.mdRowTrap (mdSwz i.1) (mdFormats i.1 f32) (mdRange i.1)).isNone) &&
     pages.all (s.mdPageGranted u) && (!probes || s.walksFree)))

def matrixOps (i : Instr) (s : State) : Option Effect :=
  match i with
  | .mpairLead g d b =>
    let takes (s : State) : Bool := s.me.prog.active || (s.hereId % 2 = 0 && s.halfOpen)
    let lead : M Unit := do
      takeHalf s.hereId s.me.team
      modHere fun (c : Core) =>
        let h := c.half.map fun h => { h with driver := s.seat }
        { c with half := h }
    let begun (s : State) : State :=
      if s.me.prog.active then s
      else
        let t := s.did lead
        { t with me := { t.me with prog := { t.me.prog with active := true, since := s.clk.toNat } } }
    let formed (s : State) : Bool := (begun s).holdsHalf && (begun s).myPair.isSome
    let since (s : State) : Nat := if s.me.prog.active then s.me.prog.since else s.clk.toNat
    let limit (s : State) (q : Iss) : Nat := (s.sval q false b).toNat
    some { req := mpairLeadReq g d b,
           asks := fun s q => !takes s || formed s || (limit s q ≠ 0 && since s + limit s q ≤ s.clk.toNat),
           change := fun s _ => if takes s then begun s else s,
           puts := fun s _ => [.scalar d (bit (takes s && formed s))] }
  | .mpairFollow g d =>
    let takes (s : State) : Bool := s.hereId % 2 = 1 && s.halfOpen && (match s.halfDomain (leaderOf s.hereId) with
      | some dom => dom = s.myDomain
      | none => true)
    some { req := mpairFollowReq g d,
           change := fun s _ => if takes s then s.did (takeHalf s.hereId s.me.team) else s,
           puts := fun s _ => [.scalar d (bit (takes s))] }
  | .mrel g =>
    some { req := mrelReq g, asks := fun s _ => !s.holdsHalf || (s.core (leaderOf s.hereId)).matQueue.isEmpty,
           change := fun s _ => if s.holdsHalf then s.did (dropHalf s.hereId s.me.team) else s }
  | .mcfg g word pair d a b =>
    let words (s : State) (q : Iss) (r : Nat) : Store W64 :=
      Store.set 0 s.here.md (8 * r + word.toNat) (s.cfgVal q pair b)
    let cause (s : State) (q : Iss) (r : Nat) : Nat := mdCauseOf ({ s.here with md := words s q r }.mdWords r)
    some { req := mcfgReq g pair d a b, asks := fun s _ => (s.mdReg a).isSome,
           change := fun s q =>
             let r := (s.mdReg a).getD 0
             { s with here := { s.here with md := words s q r, mdCause := Store.set 0 s.here.mdCause r (cause s q r) } },
           puts := fun s q => [.scalar d (bit (cause s q ((s.mdReg a).getD 0) = 0))] }
  | .mma g clr t unf bi8 d a b c =>
    let wa (s : State) : List W64 := s.here.mdWords ((s.mdReg a).getD 0)
    let wb (s : State) : List W64 := s.here.mdWords ((s.mdReg b).getD 0)
    let cause (s : State) : Nat := s.matCause [(s.mdReg a).getD 0, (s.mdReg b).getD 0]
      (mdKind (wa s) ≠ (if bi8 then 2 else 1) || mdKind (wb s) ≠ (if unf then 4 else 3) || mdK (wa s) ≠ mdK (wb s))
    let accept (s : State) (q : Iss) : M W64 := acceptMma clr t unf bi8 (wa s) (wb s) (signed10 (s.sval q false c))
    some { req := mmaReq g d a b c,
           asks := fun s _ => (s.mdReg a).isSome && (s.mdReg b).isSome && (cause s ≠ 0 ||
             s.mayAccept [wa s, wb s] [] [(wa s, false), (wb s, false)] false (s.mdPages (wa s) ++ s.mdPages (wb s)).dedup
               (s.mdPages (wb s) ++ (if bi8 then s.mdPages (wa s) else [])) .read (!bi8 && !isAperture (rqW (wa s) 0))),
           change := fun s q => if cause s = 0 then s.did (accept s q) else s,
           puts := fun s q => [.scalar d (if cause s = 0 then (s.gives (accept s q)).getD 0
             else mmaResult (cause s) false (if bi8 then 0 else mdLvl (wa s)) 0 0)] }
  | .mdrain g f32 t clr d a b =>
    let w (s : State) : List W64 := s.here.mdWords ((s.mdReg a).getD 0)
    let cause (s : State) : Nat := s.matCause [(s.mdReg a).getD 0] (mdKind (w s) ≠ 5)
    let accept (s : State) (q : Iss) : M Nat :=
      acceptDrain f32 t clr (w s) (if f32 then 0 else signed10 (s.sval q false b))
    some { req := mdrainReq g f32 d a b,
           asks := fun s _ => (s.mdReg a).isSome && (cause s ≠ 0 ||
             s.mayAccept [] [w s] [(w s, true)] f32 (s.mdPages (w s)) (s.mdPages (w s)) .write false),
           change := fun s q => if cause s = 0 then s.did (accept s q) else s,
           puts := fun s q =>
             [.scalar d (mmaResult (if cause s = 0 then (s.gives (accept s q)).getD 0 else cause s) false 0 0 0)] }
  | .mdrainKacc g t clr n d b =>
    some { req := mdrainKaccReq g d b, asks := fun s _ => s.matCause [] false ≠ 0 || s.gateOpen [] [],
           change := fun s q =>
             if s.matCause [] false = 0 then
               s.did (enqueue { drainCmd s 3 t clr with mask := (s.sval q false b).setWidth 32, acc := n.toNat })
             else s,
           puts := fun s _ => [.scalar d (mmaResult (s.matCause [] false) false 0 0 0)] }
  | .mstat g kind clr d a =>
    some { req := mstatReq g kind d a,
           change := fun s _ =>
             if kind = .pair && clr && s.holdsHalf then
               s.did (modPair (leaderOf s.hereId) fun p => { p with flags := 0, sat := false, err := false })
             else s,
           puts := fun s q => [.scalar d (match kind with
             | .pair => BitVec.ofNat 64 s.pairWord
             | .latch => BitVec.ofNat 64 (match s.mdReg a with
               | some r => Store.get 0 s.here.mdCause r
               | none => 0)
             | .ter => BitVec.ofInt 64 (match s.myPair with
               | some p => p.getTer (if (s.sval q false a).getLsbD 0 then 1 else 0)
               | none => 0))] }
  | _ => none

/-! The Shuttle, words with full/empty bits, and barrier objects (06_scratchpad.md; 10_shuttle.md). -/

/-- The team has `n` more transfers to launch (10_shuttle.md R268). -/
def State.entriesLeft (s : State) (n : Nat) : Bool :=
  match s.myTeam with
  | some t => decide (s.here.shInUse t.tag + n ≤ t.shuttle)
  | none => false

/-- The addresses of the words of LDFE, STFE and FEQ in the lanes that a wait has not performed. -/
def State.feAddrs (s : State) (q : Iss) (m : MemF) : List LaneAddr :=
  ((lanesOf q.lanes).filter fun l => !s.me.prog.done.getLsbD l).map fun l =>
    (l, memAddr (s.wide q m.base l) m.off (widthSize m.width))

/-- Words in rows of an aperture are granted, and hold no poison (06_scratchpad.md R148, R182). -/
def State.feGranted (s : State) (n : Nat) (need : Need) (lanes : List LaneAddr) : Bool :=
  s.unwatched [(n, need, lanes)] && lanes.all fun l =>
    match s.rowAt n need l.2 with
    | some (core, off) => !(Place1.row core off n).poisoned s
    | none => false

/-- The row of a barrier object is granted. -/
def State.barGranted (s : State) (q : Iss) (a : Opnd) (need : Need) : Bool := s.feGranted 16 need [(q.rep, s.wide q a q.rep)]

/-- A count of 1 to 65,535. -/
def countOk (v : W64) : Bool := 1 ≤ v.toNat && v.toNat ≤ 65535

/-- The requests of a wait that are in no waiter table meet no poison. -/
def State.reqsSound (s : State) : Bool :=
  s.me.prog.reqs.all fun r => !(Place1.row r.1 r.2.off r.2.size).poisoned s

def shuttleOps (i : Instr) (s : State) : Option Effect :=
  match i with
  | .cpyw g word pair d a b =>
    let words (s : State) (q : Iss) (r : Nat) : Store W64 :=
      Store.set 0 s.here.sh (8 * r + word.toNat) (s.cfgVal q pair b)
    let cause (s : State) (q : Iss) (r : Nat) : Nat := rqStatic ({ s.here with sh := words s q r }.shWords r)
    some { req := cpywReq g pair d a b, asks := fun s _ => (s.shReg a).isSome,
           change := fun s q =>
             let r := (s.shReg a).getD 0
             { s with here := { s.here with sh := words s q r, shCause := Store.set 0 s.here.shCause r (cause s q r) } },
           puts := fun s q => [.scalar d (bit (cause s q ((s.shReg a).getD 0) = 0))] }
  | .cpygo g d a =>
    let w (s : State) : List W64 := s.here.shWords ((s.shReg a).getD 0)
    some { req := cpygoReq g d a, asks := fun s _ => (s.shReg a).isSome && (s.launchCause (w s) ≠ 0 || s.entriesLeft 1),
           change := fun s _ => if s.launchCause (w s) = 0 then s.did (launch (w s)) else s,
           puts := fun s _ => [.scalar d (BitVec.ofNat 64
             (if s.launchCause (w s) = 0 then (s.gives (launch (w s))).getD 0 else s.launchCause (w s) * 65536))] }
  | .shkick g d a b =>
    let n (s : State) (q : Iss) : Nat := (s.sval q false b).toNat
    let begun (s : State) : State :=
      let p := s.me.prog
      { s with me := { s.me with prog :=
          { (if p.tok = some true then p else { p with since := 0, old := [0], tok := some true }) with active := true } } }
    let row (s : State) (q : Iss) (k : Nat) : W64 := s.wide q a q.rep + BitVec.ofNat 64 (64 * k)
    let kicks (s : State) (q : Iss) : M Nat := kickFrom (s.wide q a q.rep) q.rep (n s q) 33
    some { req := shkickReq g d a b s,
           asks := fun s q => 1 ≤ n s q && n s q ≤ 32 && s.teamRows (s.wide q a q.rep) (n s q) &&
             s.unwatched ((List.range (n s q)).map fun k => (64, plainNeed, [(q.rep, row s q k)])) &&
             (List.range (n s q)).all (fun k => s.addrGranted 64 plainNeed (row s q k)) && s.entriesLeft (n s q),
           change := fun s q => (begun s).did (kicks s q),
           puts := fun s q => [.scalar d (BitVec.ofNat 64 (((begun s).gives (kicks s q)).getD 0))] }
  | .seal g =>
    let left (s : State) : List (List (Nat × Nat)) := s.me.sealed.filter fun b => b.any s.here.transferOpen
    some { req := sealReq g, asks := fun s _ => s.me.openBatch.isEmpty || (left s).length < 15,
           change := fun s _ =>
             if s.me.openBatch.isEmpty then s
             else { s with me := { s.me with openBatch := [], sealed := left s ++ [s.me.openBatch] } } }
  | .cpyq g kind d a =>
    some { req := cpyqReq g kind d a,
           puts := fun s q => [.scalar d (BitVec.ofNat 64 (match kind with
             | .id => s.transferStatus (field (s.sval q false a) 0 16)
             | .shadow => match s.shReg a with
               | some r => Store.get 0 s.here.shCause r
               | none => 0
             | .free => match s.myTeam with
               | some t => t.shuttle - s.here.shInUse t.tag
               | none => 0))] }
  | .cpyx g d a =>
    let id (s : State) (q : Iss) : Nat := field (s.sval q false a) 0 16
    let mine (s : State) (q : Iss) (e : ShEntry) : Bool :=
      e.gen = id s q / 32 && s.myTeam.isSome && e.team = s.me.team && (e.state = .queued || e.state = .running) &&
        e.sent < e.lines
    some { req := cpyxReq g d a,
           change := fun s q => match Store.get none s.here.shuttle (id s q % 32) with
             | some e => if mine s q e then s.did (endUnsent s.hereId (id s q % 32) e .done true) else s
             | none => s,
           puts := fun s q => [.scalar d (bit (match Store.get none s.here.shuttle (id s q % 32) with
             | some e => mine s q e
             | none => false))] }
  | .bari g d a b c =>
    let n (s : State) (q : Iss) : Nat := (s.sval q false b).toNat
    let p (s : State) (q : Iss) : Nat := (s.wideVal q c).toNat
    let at_ (s : State) (q : Iss) : Nat × Nat := (s.gives (barsRow q a .bars)).getD (0, 0)
    let idle (s : State) (x : Nat × Nat) : Bool :=
      let k := s.core x.1
      barArrived (k.barrier x.2) = 0 && barPend (k.barrier x.2) = 0 && !k.waiters.any fun w => 2 ≤ w.kind && w.off = x.2
    some { req := bariReq g d a b c s,
           asks := fun s q => countOk (s.sval q false b) && p s q < 2 ^ 36 && s.barGranted q a .bars,
           change := fun s q =>
             let t := s.did (barsRow q a .bars)
             if idle t (at_ s q) then
               t.did (barOp (at_ s q).1 (at_ s q).2 fun o =>
                 barPut (barPut (barPut (barPut (barPut o 64 16 (n s q)) 48 16 0) 36 4 0) 40 4 0) 0 36 (p s q))
             else t,
           puts := fun s q => [.scalar d (bit (idle (s.did (barsRow q a .bars)) (at_ s q)))] }
  | .bara g a b =>
    let n (s : State) (q : Iss) : Nat := (s.wideVal q b).toNat
    let at_ (s : State) (q : Iss) : Nat × Nat := (s.gives (barsRow q a .bars)).getD (0, 0)
    some { req := baraReq g a b s, asks := fun s q => 1 ≤ n s q && n s q < 2 ^ 36 && s.barGranted q a .bars,
           change := fun s q => (s.did (barsRow q a .bars)).did (barOp (at_ s q).1 (at_ s q).2 fun o =>
             if 2 ^ 36 ≤ barPend o + n s q then barPut o 38 1 1 else barPut o 0 36 (barPend o + n s q)) }
  | .barsInit g _ d a b =>
    let n (s : State) (q : Iss) : Nat := (s.sval q false b).toNat
    let at_ (s : State) (q : Iss) : Nat × Nat := (s.gives (barsRow q a .bars)).getD (0, 0)
    let idle (s : State) (x : Nat × Nat) : Bool :=
      let k := s.core x.1
      barArrived (k.barrier x.2) = 0 && barPend (k.barrier x.2) = 0 && !k.waiters.any fun w => w.kind = 2 && w.off = x.2
    some { req := barsInitReq g d a b s, asks := fun s q => countOk (s.sval q false b) && s.barGranted q a .bars,
           change := fun s q =>
             let t := s.did (barsRow q a .bars)
             if idle t (at_ s q) then
               t.did (barOp (at_ s q).1 (at_ s q).2 fun o =>
                 barPut (barPut (barPut (barPut o 64 16 (n s q)) 48 16 0) 36 4 0) 40 4 0)
             else t,
           puts := fun s q => [.scalar d (bit (idle (s.did (barsRow q a .bars)) (at_ s q)))] }
  | .barsArrive g _ d a b =>
    let n (s : State) (q : Iss) : Nat := (s.sval q false b).toNat
    let t (s : State) (q : Iss) : State := s.did (barsRow q a .bars)
    let at_ (s : State) (q : Iss) : Nat × Nat := (s.gives (barsRow q a .bars)).getD (0, 0)
    some { req := barsArriveReq g d a b s,
           asks := fun s q => s.mayRelease && countOk (s.sval q false b) && s.barGranted q a .bars,
           change := fun s q => (t s q).did (barOp (at_ s q).1 (at_ s q).2 (barArrive (n s q))),
           puts := fun s q =>
             [.scalar d (bit (barPhase (((t s q).core (at_ s q).1).barrier (at_ s q).2)))] }
  | .barsWait g scope d a b =>
    some (wait (barsWaitReq g d a b s) (fun _ => 1) (fun s q => s.barGranted q a .barsWait) (barsWaitAsks a b) (barsWaitBody scope d a b))
  | .barsSync g scope d a =>
    some (wait (barsSyncReq g d a s) (fun _ => 1) (fun s q => s.barGranted q a .bars && (s.me.prog.tok.isSome || s.mayRelease))
      (barsSyncAsks a) (barsSyncBody scope d a))
  | .barw g d a => some (wait (barwReq g d a s) (fun _ => 1) (fun s q => s.barGranted q a .barsWait) (barwAsks a) (barwBody d a))
  | .ldfe m =>
    some (wait (ldfeReq m s) Iss.lanes (fun s q => s.feGranted (widthSize m.width) .ldfe (s.feAddrs q m)) (ldfeAsks m) (ldfeBody m))
  | .stfe m =>
    some (wait (stfeReq m s) Iss.lanes (fun s q => s.mayRelease && s.feGranted (widthSize m.width) .stfe (s.feAddrs q m))
      (stfeAsks m) (stfeBody m))
  | .feqTest g b64 d a =>
    let rows (q : Iss) : M (List (Nat × Nat × Nat)) := feqRows q b64 a false
    some { req := feqTestReq g b64 d a s, asks := fun s q => granted s q b64 a false, change := fun s q => s.did (rows q),
           puts := fun s q => [.mask d (((s.gives (rows q)).getD []).foldl (fun (m : BitVec 16) r =>
             if (feWords b64 r.2.2).all ((s.did (rows q)).core r.2.1).full then m ||| laneBit r.1 else m) 0)] }
  | .feqFill g b64 a => some (setWords g b64 true a)
  | .feqDrain g b64 a => some (setWords g b64 false a)
  | _ => none
where
  /-- An instruction that waits: at its first turn its words are granted, and it completes at the turn at which every lane
  has been performed. -/
  wait (r : Req) (lanes : Iss → BitVec 16) (granted : State → Iss → Bool) (asked body : Iss → M Unit) : Effect :=
    { req := r,
      asks := fun s q => (if s.me.prog.active then s.reqsSound else granted s q) &&
        ((s.did (asked q)).me.prog.done &&& lanes q) = lanes q,
      change := fun s q => s.did (body q) }
  /-- The words of FEQ are granted. -/
  granted (s : State) (q : Iss) (b64 : Bool) (a : Opnd) (write : Bool) : Bool :=
    s.feGranted (if b64 then 8 else 4) { rd := !write, wr := write, at_ := false, natural := true, rowStore := true }
      ((lanesOf q.lanes).map fun l => (l, s.wide q a l))
  /-- FEQ fill or drain: the bits of the words, and what waits for them. -/
  setWords (g : Guard) (b64 full : Bool) (a : Opnd) : Effect :=
    { req := feqReq g b64 a s.me.isWave [], asks := fun s q => granted s q b64 a true,
      change := fun s q => ((s.gives (feqRows q b64 a true)).getD []).foldl (fun t r => t.did (do
        modCore r.2.1 fun c => (feWords b64 r.2.2).foldl (fun c o => c.setFull o full) c
        serveAll r.2.1)) (s.did (feqRows q b64 a true)) }


/-! Tasks, messages and queues (03_contexts.md R86, R87; 12_mesh.md; 15_work.md). -/

/-- A 64-bit result into an x register or a uniform pair. -/
def resultPut (s : State) (d : Opnd) (v : W64) : Put :=
  match opOf d with
  | .k _ => .regs (s.wideWrites d v)
  | _ => .scalar d v

/-- A flit to a core need not wait: the core's own queue takes a record, or its channel has room (12_mesh.md R340). -/
def State.maySend (s : State) (vc : Nat) (dst : GlobalId) : Bool := dst = s.globalId s.hereId || !s.channelFull s.hereId vc

/-- The core that KSEND names for a key: its route's first core and the key's place among the route's cores (R344). -/
def State.keyTarget (s : State) (bin key : Nat) : Option GlobalId :=
  s.myTeam.bind fun t =>
    let (first, n) := Store.get (0, 0) t.routes bin
    if n = 0 || 2 ^ 32 ≤ key / n then none else s.target (first + BitVec.ofNat 64 (key % n))

/-- A change of the turn's team. -/
def State.withTeam (s : State) (f : Team → Team) : State := s.did (modMyTeam f)

/-- The descriptor of a launch can be read: 256 bytes aligned to 64, in their segment, granted (15_work.md R398). -/
def State.launchReady (s : State) (q : Iss) (a : Opnd) : Bool :=
  let addr := s.wide q a q.rep
  s.mayRelease && s.unwatched [(256, .load, [(q.rep, addr)])] && s.segReady addr 256 64 &&
  s.rangeGranted (segBase (s.me.seg (field addr 61 3)) + field addr 0 61) 256

/-- The payload of a message can be read: rows of a core of the cluster, aligned to 4, without poison (12_mesh.md R341). -/
def State.payloadReady (s : State) (q : Iss) (a : W64) (n : Nat) : Bool :=
  s.unwatched [(n, .load, [(q.rep, a)])] &&
  match apertureTarget s.hereId a with
  | some (core, off) =>
    !s.sys.retired.contains core && off + n ≤ 0x18000 && s.rowsAllowed s.myDomain s.me.supervisor core off n false &&
    off % 4 = 0 && !(Place1.row core off n).poisoned s
  | none => false

/-- The return word of a CALLAT: none, or a row of the core that a store may reach (12_mesh.md R346). -/
def State.returnReady (s : State) (q : Iss) (c : Opnd) : Bool :=
  let v := s.nextVal q c
  if s.me.isWave then v = 0x1FFFF || s.storeRows (0xFFFFFF0000000000 ||| v) 8 8 else v = 0 || s.storeRows v 8 8

def networkOps (i : Instr) (s : State) : Option Effect :=
  match i with
  | .spawn g d a b c =>
    some { req := spawnReq g d a b c,
           asks := fun s q => s.mayRelease && (lanesOf q.lanes).all fun l =>
             (s.target (s.spawnVal q false a l)).all (s.maySend 6),
           change := fun s q => s.did (sendSpawns a b c q),
           puts := fun s q => [.mask d ((s.gives (sendSpawns a b c q)).getD 0)] }
  | .spawnLaunch g d a b c =>
    some { req := spawnLaunchReq g d a b c s,
           asks := fun s q => s.launchReady q a && (lanesOf q.lanes).all fun l =>
             (s.target (if s.me.isWave then ext32 false ((s.val q false b l).setWidth 32) else s.val q false b l)).all (s.maySend 6),
           change := fun s q => s.did (spawnLaunchBody d a b c q) }
  | .msend g rel _ d a b c =>
    let n (s : State) (q : Iss) : Nat := (s.sval q false c).toNat
    some { req := msendReq g d a b c s,
           asks := fun s q => (!rel || s.mayRelease) && 1 ≤ n s q && n s q ≤ 44 &&
             (s.target (s.sval q false a)).all fun dst => s.payloadReady q (s.wide q b q.rep) (n s q) && s.maySend 7 dst,
           change := fun s q => s.did (msendBody rel d a b c q) }
  | .mrecv la g acq scope d a =>
    let into (q : Iss) : M (Option Nat) := do
      match (← get).addrZero q a with
      | none => pure none
      | some v => do
        watchCheck 64 .store [(q.rep, v)]
        pure (some (← localRows v 64 64))
    let ring (s : State) (q : Iss) : Option Ring := (s.did (into q)).myTeam.bind (·.ring)
    let row (s : State) (q : Iss) : List Byte := match ring s q with
      | some r => Store.bytes (s.did (into q)).here.rows (r.base + 64 * (r.head % r.rows)) 64
      | none => []
    some { req := mrecvReq g d a s,
           asks := fun s q =>
             (s.addrZero q a).all (fun v => s.unwatched [(64, .store, [(q.rep, v)])] && s.storeRows v 64 64) &&
             (match s.myTeam.bind (·.ring) with
              | some r => decide (0 < r.count) && s.soundRow (r.base + 64 * (r.head % r.rows))
              | none => false),
           change := fun s q => (s.did (into q)).did (do
             modMyTeam fun t => { t with ring := t.ring.map fun r => { r with head := r.head + 1, count := r.count - 1 } }
             wakeParked s.hereId
             match (s.gives (into q)).getD none with
             | some off => writePlace plainLoad (.row s.hereId off 64) (row s q)
             | none => pure ()
             if acq then acquired 2 scope.toNat),
           later := fun s q => [(la.toNat, true, s.wideWrites d (BitVec.ofNat 64 (bytesAt (row s q) 48 8)))] }
  | .ksend g rel _ w64 d a b c =>
    some { req := ksendReq g w64 d a b c s,
           asks := fun s q => (!rel || s.mayRelease) && (s.sval q false c).toNat < 8 &&
             (s.keyTarget (s.sval q false c).toNat (s.wide q a q.rep).toNat).all (s.maySend 7),
           change := fun s q => s.did (ksendBody rel w64 d a b c q) }
  | .racfgBin g d a b c =>
    some { req := racfgBinReq g d a b c s,
           asks := fun s q =>
             let v := s.sval q false b
             let rows := field v 8 9
             v.toNat < 2 ^ 17 && field v 4 4 ≤ 8 && 1 ≤ rows && rows ≤ 256 && s.storeRows (s.wide q a q.rep) (64 * rows) 64 &&
             (s.addrZero q c).all fun w => s.storeRows w 16 16,
           change := fun s q => s.did (racfgBinBody d a b c q) }
  | .racfgUnbin g d b =>
    let n (s : State) (q : Iss) : Nat := (s.sval q false b).toNat
    some { req := racfgUnbinReq g d b, asks := fun s q => n s q < 8,
           change := fun s q => s.withTeam fun t => { t with bins := Store.set none t.bins (n s q) none },
           puts := fun s q => [.scalar d (bit (match s.myTeam with
             | some t => (Store.get none t.bins (n s q)).isSome
             | none => false))] }
  | .racfgRoute g d a b c =>
    let n (s : State) (q : Iss) : Nat := (s.sval q false b).toNat
    let k (s : State) (q : Iss) : Nat := (s.sval q false c).toNat
    some { req := racfgRouteReq g d a b c, asks := fun s q => n s q ≤ 65535 && k s q < 8,
           change := fun s q =>
             s.withTeam fun t => { t with routes := Store.set (0, 0) t.routes (k s q) (s.sval q false a, n s q) },
           puts := fun _ _ => [.scalar d 1] }
  | .racfgQuery g d b =>
    let n (s : State) (q : Iss) : Nat := (s.sval q false b).toNat
    some { req := racfgQueryReq g d b, asks := fun s q => n s q < 8,
           puts := fun s q => [.regs (s.wideWrites d (match s.myTeam.bind fun t => Store.get none t.bins (n s q) with
             | some b => b.query
             | none => 0))] }
  | .qcfgIn g w64 n d a b c =>
    let rows (s : State) (q : Iss) : Nat := (s.sval q false b).toNat
    some { req := qcfgInReq g d a b c s,
           asks := fun s q => 1 ≤ rows s q && rows s q ≤ 64 && s.storeRows (s.wide q a q.rep) (64 * rows s q) 64,
           change := fun s q => s.did (qcfgInBody w64 n d a b c q) }
  | .qcfgOut g w64 n d a b =>
    let k (s : State) (q : Iss) : Nat := (s.sval q false b).toNat
    let to_ (s : State) (q : Iss) : Option GlobalId :=
      (s.target (s.sval q false a)).filter fun core => !s.boundOut core n.toNat
    some { req := qcfgOutReq g d a b, asks := fun s q => 1 ≤ k s q && k s q ≤ 1024,
           change := fun s q => match to_ s q with
             | some core =>
               let bind : QoBind := { core := core, queue := n.toNat, w64 := w64, grant := k s q, credits := k s q }
               { s with me := { s.me with qo := some bind } }
             | none => s,
           puts := fun s q => [.scalar d (bit (to_ s q).isSome)] }
  | .qcfgRx g d a b =>
    let rows (s : State) (q : Iss) : Nat := (s.sval q false b).toNat
    some { req := qcfgRxReq g d a b s,
           asks := fun s q => 1 ≤ rows s q && rows s q ≤ 64 && s.storeRows (s.wide q a q.rep) (64 * rows s q) 64,
           change := fun s q => s.did (qcfgRxBody d a b q) }
  | .qcfgUnin g _ d =>
    some { req := qcfgUninReq g d, change := fun s _ => { s with me := { s.me with qi := none } },
           puts := fun s _ => [.scalar d (bit s.me.qi.isSome)] }
  | .qcfgUnout g _ d =>
    some { req := qcfgUnoutReq g d, change := fun s _ => { s with me := { s.me with qo := none } },
           puts := fun s _ => [.scalar d (bit s.me.qo.isSome)] }
  | .qcfgUnrx g d =>
    let free (s : State) : Bool := match s.myTeam.bind (·.ring) with
      | some r => r.count = 0
      | none => false
    some { req := qcfgUnrxReq g d, change := fun s _ => if free s then s.withTeam fun t => { t with ring := none } else s,
           puts := fun s _ => [.scalar d (bit (free s))] }
  | .callat g d a b c =>
    some { req := callatReq g d a b c s,
           asks := fun s q => s.mayRelease &&
             (s.target (s.sval q false a)).all fun dst => s.returnReady q c && s.maySend 6 dst,
           change := fun s q => s.did (callatBody d a b c q) }
  | .retm g w64 d a b =>
    some { req := retmReq g w64 d a b s,
           asks := fun s q => s.mayRelease && (s.target (BitVec.ofNat 64 (field (s.wide q a q.rep) 36 22))).all (s.maySend 6),
           change := fun s q => s.did (retmBody w64 d a b q) }
  | .amsg g d a b c =>
    some { req := amsgReq g d a b c s,
           asks := fun s q => s.mayRelease &&
             (if s.sval q false a = 0x3FFFFF then some hostId else s.target (s.sval q false a)).all (s.maySend 6),
           change := fun s q => s.did (amsgBody d a b c q) }
  | _ => none

/-! Rays, treelets and the raster unit (13_rays.md, 14_raster.md). -/

/-- A frame's two rows, of which an instruction reads or writes `n` bytes, and which of them it reads (13_rays.md R350). -/
def State.frameReady (s : State) (q : Iss) (a : Opnd) (n : Nat) (need : Need) (both : Bool) : Bool :=
  let v := s.wide q a q.rep
  s.unwatched [(n, need, [(q.rep, v)])] && s.teamRows v 2 && s.soundRow (field v 0 17) &&
  (!both || s.soundRow (field v 0 17 + 64))

/-- The bytes of a frame's row. -/
def State.frameRow (s : State) (q : Iss) (a : Opnd) (k : Nat) : List Byte :=
  s.rowBytes s.hereId (field (s.wide q a q.rep) 0 17 + 64 * k) 64

/-- The route of a ray without a wait: of the route cache, or the directory's answer to what the context asked
(13_rays.md R361, R370): a status and the members. -/
def State.routeKnown (s : State) (owner : Bool) (id : W32) : Option (Nat × Members) :=
  match (if owner then none else s.cachedRoute s.myAsn id) with
  | some r => some (0, r.to_)
  | none => match s.me.asked with
    | some q => if q.asn = s.myAsn && q.id = id then q.answer.filter fun x => x.1 ≠ 8 else none
    | none => none

/-- The two words of a treelet record as a number. -/
def recordNat (q : Iss) (addr : W64) : M Nat := do
  let got ← access 16 { plainNeed with natural := true } [(q.rep, addr)]
  readPieces plainLoad (got.headD (0, [])).2

/-- A treelet record is granted, and the nodes that it names lie in their segment (13_rays.md R374). -/
def State.recordReady (s : State) (q : Iss) (a : Opnd) : Bool :=
  let addr := s.wide q a q.rep
  let v := (s.gives (recordNat q addr)).getD 0
  let nodes : W64 := BitVec.ofNat 64 v
  s.granted 16 { plainNeed with natural := true } [(q.rep, addr)] &&
  segRights (s.me.seg (field nodes 61 3)) s.me.supervisor .load &&
  field nodes 0 61 + 128 * (field (BitVec.ofNat 64 (v / 2 ^ 64) : W64) 0 9 + 1) ≤ segLimit (s.me.seg (field nodes 61 3))

/-- The intersection unit can read a range for a ray: its pages are granted, and replicas that it reads hold no poison
(13_rays.md R365). -/
def State.unitReady (s : State) (va n : Nat) (ray : List Byte) : Bool :=
  s.rangeGranted va n && s.replicasServe 7 (rayBound ray)

/-- XTRI reads what it needs: a leaf or a ray that is not legal, or a block in a segment of the context, granted. -/
def State.leafReady (s : State) (leaf : W64) (ray : List Byte) : Bool :=
  let n := field leaf 0 4 + 1
  let va := field leaf 4 53 * 16
  field leaf 62 2 ≠ 3 || rayBad ray ||
  (s.blockSeg va).any fun sn =>
    va + 48 * n ≤ segBase (s.me.seg sn) + segLimit (s.me.seg sn) && s.unitReady va (48 * n) ray

/-- A prick as owner does not wait: it ends before its pages are read, or the TLB holds every page of the range. -/
def State.prickReady (s : State) (p : PrickReq) : Bool :=
  s.prickCause s.hereId p ≠ 0 ||
  (List.range ((p.vbase + 64 * p.rows - 1) / 1024 - p.vbase / 1024 + 1)).all fun j =>
    s.tlbGrants (max p.vbase ((p.vbase / 1024 + j) * 1024)) false fun _ => true

def raysOps (i : Instr) (s : State) : Option Effect :=
  match i with
  | .rpop la g hits wait gather d a =>
    let queue (s : State) : List Item := if hits then s.here.hitq else s.here.rayq
    let since (s : State) : Nat := if s.me.prog.active then s.me.prog.since else s.clk.toNat
    let n (s : State) (q : Iss) : Nat := min (queue s).length (lanesOf q.lanes).length
    some { req := rpopReq g d a s,
           asks := fun s q => s.teamRows (s.wide q a q.rep) 1 &&
             (!s.claims hits ||
              (!s.popsBehind (if hits then 9 else 8) && !((wait || gather) && (queue s).isEmpty) &&
               !(gather && (queue s).length < (lanesOf q.lanes).length && s.clk.toNat < since s + 256) &&
               (n s q = 0 || (s.unwatched [(64 * n s q, .store, [(q.rep, s.wide q a q.rep)])] &&
                 s.teamRows (s.wide q a q.rep) (n s q))))),
           change := fun s q => s.did (rpopBody la hits wait gather d a q) }
  | .rpopClaim la g hits d a =>
    let free (s : State) : Bool := (if hits then s.here.hitClaim else s.here.rayClaim).isNone
    let won (s : State) : Bool := s.claims hits || (free s && s.myTeam.isSome)
    some { req := rpopClaimReq g d a,
           change := fun s _ =>
             let k : Claim := { team := s.me.team, asn := s.myAsn }
             if !won s then s
             else if hits then { s with here := { s.here with hitClaim := some k } }
             else { s with here := { s.here with rayClaim := some k } },
           later := fun s q => [(la.toNat, true, s.scalarWrites q d (bit (won s)))] }
  | .rpopRelease la g hits d a =>
    some { req := rpopReleaseReq g d a, change := fun s _ => if s.claims hits then s.did (endClaim s.hereId hits) else s,
           later := fun s q => [(la.toNat, true, s.scalarWrites q d (bit (s.claims hits)))] }
  | .rsend g owner d a =>
    let route (s : State) (q : Iss) : Option (Nat × Members) :=
      s.routeKnown owner (BitVec.ofNat 32 (bytesAt (s.frameRow q a 0) 36 4))
    some { req := rsendReq g d a s,
           asks := fun s q => s.frameReady q a 52 .load false && (route s q).any fun r =>
             r.1 ≠ 0 || s.maySend 4 (if owner then r.2.owner
               else r.2.list.getD (bytesAt (s.frameRow q a 0) 32 4 % r.2.list.length) r.2.owner),
           change := fun s q => s.did (rsendBody owner d a q) }
  | .hsend g d a =>
    some { req := hsendReq g d a s,
           asks := fun s q => s.frameReady q a 128 .load true &&
             (s.target (BitVec.ofNat 64 (bytesAt (s.frameRow q a 0) 48 4))).all (s.maySend 5),
           change := fun s q => s.did (hsendBody d a q) }
  | .xnode la g d a b =>
    let va (s : State) (q : Iss) : Nat := segBase (s.me.seg (field (s.wide q b q.rep) 61 3)) + field (s.wide q b q.rep) 0 61
    let found (q : Iss) : M Nat := do
      let off ← frameAt q a 64 .load
      let va ← segRead (← wval q b q.rep) 128 128
      let ray ← rowBytes off
      return xnodeResult ray (← unitRead (rayBound ray) (← wval q b q.rep) (← confirmRange va 128))
    some { req := xnodeReq g d a b s,
           asks := fun s q =>
             s.unwatched [(64, .load, [(q.rep, s.wide q a q.rep)]), (128, .load, [(q.rep, s.wide q b q.rep)])] &&
             s.frameReady q a 64 .load false && s.segReady (s.wide q b q.rep) 128 128 &&
             s.unitReady (va s q) 128 (s.frameRow q a 0),
           change := fun s q => s.did (found q),
           later := fun s q => [(la.toNat, true, s.wideWrites d (BitVec.ofNat 64 ((s.gives (found q)).getD 0)))],
           addr := fun s q => s.wide q b q.rep }
  | .xtri la g d a b =>
    some { req := xtriReq g d a b s,
           asks := fun s q => s.frameReady q a 128 .rmw true && s.leafReady (s.wide q b q.rep) (s.frameRow q a 0),
           change := fun s q => s.did (xtriBody la g d a b q) }
  | .tmapMap g d a =>
    some { req := tmapMapReq g d a s, asks := fun s q => s.recordReady q a, change := fun s q => s.did (tmapMapBody d a q) }
  | .tmapUnmap g d a =>
    some { req := tmapUnmapReq g d a s, asks := fun s q => s.recordReady q a,
           change := fun s q => s.did (tmapUnmapBody d a q) }
  | .tlpin g d a =>
    let rec_ (s : State) (q : Iss) : W64 × Nat := (s.gives (readRecord q a)).getD (0, 0)
    some { req := tlpinReq g d a s,
           asks := fun s q => s.recordReady q a && (s.recordBad (rec_ s q).1 (rec_ s q).2 ||
             s.prickReady ((treeletOf s.myAsn (rec_ s q).1 (rec_ s q).2).ownerReq s.me.team)),
           change := fun s q => s.did (tlpinBody d a q) }
  | .tlrepOffer g d a b c =>
    some { req := tlrepOfferReq g d a b c s, asks := fun s q => s.segReady (s.wide q c q.rep) 8 8,
           change := fun s q => s.did (tlrepOfferBody d a b c q) }
  | .tlrepWithdraw g d a =>
    some { req := tlrepWithdrawReq g d a, change := fun s q => s.did (tlrepWithdrawBody d a q) }
  | _ => none

/-- HOOPW's result word: a status, and the slots loaded where the team is the claimant. -/
def hoopWord (s : State) (status : Nat) : W64 :=
  BitVec.ofNat 64 (status * 2 ^ 24 + (if s.holdsHoop then s.here.hoop.slots.length else 0))

/-- A change of the raster unit of the turn's core. -/
def State.withHoop (s : State) (f : Hoop → Hoop) : State := { s with here := { s.here with hoop := f s.here.hoop } }

/-- A primitive record of 64 bytes is granted (14_raster.md R387). -/
def State.primReady (s : State) (q : Iss) (a : Opnd) : Bool :=
  s.granted 64 { plainNeed with natural := true } [(q.rep, s.wide q a q.rep)]

/-- The tile that HOOPR names is legal, and either it answers a status or no watchpoint is on a pixel that it touches and
their depths hold no poison (14_raster.md R384, R385). -/
def State.tileReady (s : State) (q : Iss) (a b : Opnd) : Bool :=
  let v := (s.addrZero q b).getD 0
  let addr := s.wide q a q.rep
  let off := field addr 0 17
  let ts := s.hooprTouches off v
  blockOk v && field v 32 4 = 0 && s.storeRows addr 2048 64 && (s.hooprStatus off ≠ 0 ||
    (s.unwatched (ts.flatMap (Touch.accesses addr q.rep)) && ts.all fun t => s.soundRow (off + 64 * (t.px / 16))))

def rasterOps (i : Instr) (s : State) : Option Effect :=
  match i with
  | .xtile g d a b =>
    let found (q : Iss) : M Nat := do
      let v ← blockVal q b
      return xtileResult (← primAt q a) v
    some { req := xtileReq g d a b s, asks := fun s q => blockOk ((s.addrZero q b).getD 0) && s.primReady q a,
           change := fun s q => s.did (found q),
           puts := fun s q => [.scalar d (BitVec.ofNat 64 ((s.gives (found q)).getD 0))] }
  | .hoopwClaim g d =>
    let after (s : State) : State :=
      if s.myTeam.isSome && s.here.hoop.claimant.isNone then s.withHoop fun h => { h with claimant := some s.me.team } else s
    some { req := hoopwClaimReq g d, change := fun s _ => after s,
           puts := fun s _ => [.scalar d (hoopWord (after s) (if (after s).holdsHoop then 0 else 4))] }
  | .hoopwRelease g d =>
    let after (s : State) : State := if s.holdsHoop then s.did (endHoop s.hereId) else s
    some { req := hoopwReleaseReq g d, change := fun s _ => after s,
           puts := fun s _ =>
             [.scalar d (if s.holdsHoop then BitVec.ofNat 64 (after s).here.hoop.slots.length else hoopWord s 4)] }
  | .hoopwState g d a =>
    let v (s : State) (q : Iss) : W64 := s.sval q false a
    let busy (s : State) (q : Iss) : Bool :=
      !s.here.hoop.slots.isEmpty && (v s q).setWidth 32 ≠ s.here.hoop.state
    some { req := hoopwStateReq g d a, asks := fun s q => hoopStateOk (v s q),
           change := fun s q => if s.holdsHoop && !busy s q then s.withHoop fun h => { h with state := (v s q).setWidth 32 } else s,
           puts := fun s q => [.scalar d (hoopWord s (if !s.holdsHoop then 4 else if busy s q then 2 else 0))] }
  | .hoopwAdd g d a =>
    let prim (s : State) (q : Iss) : List Byte := (s.gives (primAt q a)).getD []
    let status (s : State) (q : Iss) : Nat :=
      let t := s.did (primAt q a)
      if !t.holdsHoop then 4 else if primBad (prim s q) then 3 else if 32 ≤ t.here.hoop.slots.length then 1 else 0
    let after (s : State) (q : Iss) : State :=
      let t := s.did (primAt q a)
      if status s q = 0 then t.withHoop fun h => { h with slots := h.slots ++ [prim s q] } else t
    some { req := hoopwAddReq g d a s, asks := fun s q => s.primReady q a, change := after,
           puts := fun s q => [.scalar d (hoopWord (after s q) (status s q))] }
  | .hoopwClear g d =>
    let after (s : State) : State := if s.holdsHoop then s.did (closeSubPass s.hereId) else s
    some { req := hoopwClearReq g d, change := fun s _ => after s,
           puts := fun s _ =>
             [.scalar d (if s.holdsHoop then BitVec.ofNat 64 (after s).here.hoop.slots.length else hoopWord s 4)] }
  | .hoopr g d a b =>
    some { req := hooprReq g d a b s, asks := fun s q => s.tileReady q a b,
           change := fun s q => s.did (hooprBody d a b q) }
  | _ => none

/-! The system and debug groups (16_traps.md, 17_local.md, 18_debug.md). -/

/-- A write of a system register: its checks, and what it does with the value. -/
def mtsEffect (g : Guard) (a : Opnd) (form : State → Bool) (ok : State → W64 → Bool) (f : State → W64 → State) (s : State) :
    Effect :=
  { req := sysReq g [a] [] s.me.isWave form, asks := fun s q => ok s (s.sysVal q a), change := fun s q => f s (s.sysVal q a) }

/-- PGMAP: status 2 where no domain has the identifier, else what the operation answers; `free`: it waits for no frame and for
no access in flight. -/
def pgmapEffect (g : Guard) (d a b c : Opnd) (free : State → Iss → Nat → Nat → Bool) (op : Iss → Nat → Nat → M Nat)
    (s : State) : Effect :=
  let dom (s : State) (q : Iss) : Option Nat := s.domainOfAsn ((s.sysVal q c).setWidth 12)
  let va (s : State) (q : Iss) : Nat := field (s.sysVal q a) 0 57
  { req := sysReq g [a, b, c] [d] s.me.isWave,
    asks := fun s q => match dom s q with
      | some r => free s q r (va s q)
      | none => true,
    change := fun s q => match dom s q with
      | some r => s.did (op q r (va s q))
      | none => s,
    puts := fun s q => match dom s q with
      | some r => [resultPut s d (BitVec.ofNat 64 ((s.gives (op q r (va s q))).getD 0))]
      | none => [resultPut s d 2] }

/-- An operation that never waits. -/
def always (_ : State) (_ : Iss) (_ _ : Nat) : Bool := true

/-- The tables that map a page are there, or TABLE frames have room for those that are missing (08_residency.md R217,
R225). -/
def State.tablesHad (s : State) (dom va : Nat) (fine : Bool) : Bool :=
  (s.tableRoom (siteOfCore s.hereId) 1 3 && (!fine || s.tableRoom (siteOfCore s.hereId) 2 1)) ||
  match s.walkFrom fine va 3 (s.domRoot dom) with
  | .leaf .. => true
  | .miss _ _ level => (level = 0 && !fine) || level = 4
  | .fail _ => false

/-- What a target of LDPHY holds can be read: no poison in a row or in raw memory. -/
def PhysTgt.sound (s : State) (n : Nat) : PhysTgt → Bool
  | .row core o => !(Place1.row core o n).poisoned s
  | .mem pas => pas.all fun p => !s.poison.contains (p / 32)
  | _ => true

/-- The target of an LDPHY or STPHY is there, and its address is aligned (07_addresses.md R213, R215). -/
def State.physAt (s : State) (space n : Nat) (addr : W64) : Option PhysTgt :=
  if addr.toNat % n = 0 then s.physTgt space n addr else none

/-- STPHY may write a target: tag words and full/empty bits in split mode only, CL_LGRID a legal value (18_debug.md R468). -/
def State.physStores (s : State) (space n : Nat) (addr : W64) (v : Nat) : PhysTgt → Bool
  | .ctrl (.grid c) b =>
    let mask := laneMask (BitVec.ofNat 8 ((2 ^ n - 1) * 2 ^ b))
    let w : W64 := BitVec.ofNat 64 (v % 2 ^ (8 * n) * 2 ^ (8 * b))
    gridValueOk (((Store.get Cluster.reset s.clusters c).lgrid &&& ~~~mask) ||| (w &&& mask))
  | _ => !(space ≤ 1 && (localTag (field addr 0 18) || localFe (field addr 0 18))) ||
    (Store.get Cluster.reset s.clusters (clusterOf s.hereId)).split

def systemOps (i : Instr) (s : State) : Option Effect :=
  match i with
  | .mfs g grp index d =>
    some { req := sysReq g [] [d] s.me.isWave (fun s => (s.sysRead grp.toNat index.toNat).isSome),
           puts := fun s _ => [resultPut s d ((s.sysRead grp.toNat index.toNat).getD 0)] }
  | .mts g grp index a =>
    some (mtsEffect g a (fun _ => mtsWritable grp.toNat index.toNat)
      (fun _ v => sysValueOk grp.toNat index.toNat v) (fun s v => s.did (sysWrite grp.toNat index.toNat v)) s)
  | .cctlWrite g a =>
    some (mtsEffect g a (fun _ => true) (fun _ _ => true) (fun s v => { s with here := { s.here with cctl := v &&& 1 } }) s)
  | .bfmtWrite g n a =>
    some (mtsEffect g a (fun _ => decide (n.toNat < 6)) (fun _ v => field v 0 4 < 8)
      (fun s v =>
        let old := Store.get 0 s.here.bfmt n.toNat
        { s with here := { s.here with bfmt := Store.set 0 s.here.bfmt n.toNat ((old &&& 0x30) ||| (v &&& 0xF)) } }) s)
  | .pgselWrite g n a =>
    some (mtsEffect g a (fun _ => true)
      (fun s v => ((List.range 8).filter (· ≠ n.toNat)).all (fun j => !pgselOverlap v (Store.get 0 s.here.pgsel j)) &&
        !(v.getLsbD 63 && 2 ^ 36 ≤ field v 0 36 + field v 36 15))
      (fun s v => { s with here := { s.here with pgsel := Store.set 0 s.here.pgsel n.toNat v } }) s)
  | .clAmodeWrite g a =>
    let same (s : State) (v : W64) : Bool :=
      (Store.get Cluster.reset s.clusters (clusterOf s.hereId)).split = v.getLsbD 0
    some (mtsEffect g a (fun _ => true) (fun s v => same s v || !s.clusterTeams (clusterOf s.hereId))
      (fun s v => if same s v then s else s.did (do
        modCluster (clusterOf s.hereId) fun k => { k with split := v.getLsbD 0 }
        flushCluster (clusterOf s.hereId))) s)
  | .tierWmWrite g tier a =>
    some (mtsEffect g a (fun _ => decide (tier.toNat < 3)) (fun _ v => field v 0 32 ≤ field v 32 32)
      (fun s v => s.did (do
        modSite (tierSite s.hereId tier.toNat) fun t => { t with wm := Store.set 0 t.wm tier.toNat v }
        if tier = 0 then checkLow (tierSite s.hereId tier.toNat)
        else if tier = 1 then checkLow1 (tierSite s.hereId tier.toNat))) s)
  | .clOvfWrite g a =>
    some (mtsEffect g a (fun _ => true)
      (fun s v => (field v 52 6 = 0 || (6 ≤ field v 52 6 && field v 52 6 ≤ 20)) &&
        (Store.get Cluster.reset s.clusters (clusterOf s.hereId)).parked.isEmpty)
      (fun s v => s.did (modCluster (clusterOf s.hereId) fun k =>
        { k with ovf := v &&& 0x03FFFFFFFFFFFFC0, ovfRaised := false })) s)
  | .clOvfsRead g d =>
    some { req := clOvfsReadReq g d s,
           change := fun s _ => s.did (modCluster (clusterOf s.hereId) fun k => { k with ovfParked := 0 }),
           puts := fun s _ =>
             let k := Store.get Cluster.reset s.clusters (clusterOf s.hereId)
             [resultPut s d (BitVec.ofNat 64 (k.parked.length % 2 ^ 21 * 2 ^ 32 + k.ovfParked.toNat))] }
  | .segw g n a b =>
    let v (s : State) (q : Iss) : BitVec 128 := s.sysVal q b ++ s.sysVal q a
    some { req := segwReq g a b s, asks := fun s q => segValueOk (v s q),
           change := fun s q => { s with me := { s.me with g := Store.set 0 s.me.g n.toNat (v s q) } } }
  | .segr g n hi d =>
    some { req := segrReq g d s,
           puts := fun s _ => [resultPut s d (if hi then (s.me.seg n.toNat).extractLsb' 64 64 else (s.me.seg n.toNat).setWidth 64)] }
  | .pgmapMap g d a b c =>
    some (pgmapEffect g d a b c (fun s q dom va =>
      let v := s.sysVal q b
      let fine := v.getLsbD 4
      let pa := field v 10 42 * 1024
      (v &&& 0xFFF00000000003E0 ≠ 0 || !tier0 pa || pa % pageSize fine ≠ 0) || s.tablesHad dom va fine)
      (pgmapMapOp b) s)
  | .pgmapUnmap g d a b c =>
    some (pgmapEffect g d a b c (fun s _ dom va => match s.leafAny dom va with
      | .leaf _ e fine =>
        let pa := if fine then field e 10 42 * 1024 else field e 21 31 * 2 ^ 21
        (tier0 pa && recState (s.pageRec pa fine) ≠ 1) ||
          (!s.pageBusy pa (pageSize fine) && !(tier0 pa && (s.pageRec pa fine).getLsbD 123))
      | _ => true) (fun _ dom va => onLeaf dom va (pgmapUnmapOp dom va)) s)
  | .pgmapPin g d a b c => some (pgmapEffect g d a b c always (fun _ dom va => onLeaf dom va (pgmapPinOp dom va)) s)
  | .pgmapUnpin g d a b c => some (pgmapEffect g d a b c always (fun _ dom va => onLeaf dom va (pgmapUnpinOp dom va)) s)
  | .pgmapDemote g d a b c => some (pgmapEffect g d a b c (fun s _ dom va => match s.leafAny dom va with
      | .leaf _ e fine => s.closing0 (frameOf (if fine then field e 10 42 * 1024 else field e 21 31 * 2 ^ 21)).1 < 8
      | _ => true) (fun _ dom va => onLeaf dom va (pgmapDemoteOp dom va)) s)
  | .tlbi g kind scope a b =>
    let out (s : State) (q : Iss) : List Tlb := (s.scopeClusters scope.toNat).flatMap fun cl =>
      (Store.get Cluster.reset s.clusters cl).tlb.filter
        (tlbMatches kind.toNat ((s.sysVal q b).setWidth 12) (field (s.sysVal q a) 0 57))
    some { req := tlbiReq g kind scope a b s,
           asks := fun s q => s.mayRelease &&
             !(out s q).any fun t => s.pageBusy t.frame (pageSize t.fine),
           change := fun s q => s.did (tlbiBody kind scope a b q) }
  | .icinv g scope all a b =>
    some { req := icinvReq g scope all a b s,
           asks := fun s q => (all || (1 ≤ (s.sysVal q b).toNat && (s.sysVal q b).toNat ≤ 2097152)) && s.mayRelease,
           change := fun s q => s.did (icinvBody scope all a b q) }
  | .ctxsv g a =>
    some { req := ctxsvReq g a s,
           asks := fun s q => s.me.handler && s.me.pend.isEmpty && field (s.sysVal q a) 0 6 = 0 &&
             s.granted 64 .store (imagePieces s.me.isWave q.rep (s.sysVal q a)),
           change := fun s q => let t := s.did (ctxsvBody a q); { t with me := t.me.discard } }
  | .ctxld g a =>
    some { req := ctxldReq g a s,
           asks := fun s q => s.me.handler && s.me.pend.isEmpty && field (s.sysVal q a) 0 6 = 0 &&
             s.granted 64 plainNeed (imagePieces s.me.isWave q.rep (s.sysVal q a)) &&
             ((s.did (ctxldImage a q)).me.kept.isNone || (s.did (ctxldImage a q)).imageOk ((s.gives (ctxldImage a q)).getD [])),
           change := fun s q => s.did (ctxldBody a q) }
  | .ldphy g space width d a off =>
    let n := 2 ^ width.toNat
    let value (q : Iss) : M Nat := do
      let addr := (← get).physAddr q a off
      physRead q.rep (← physTarget space.toNat n addr) addr n
    some { req := ldphyReq g space width d a s,
           asks := fun s q => s.mayRelease && (s.physAt space.toNat n (s.physAddr q a off)).any (PhysTgt.sound s n),
           change := fun s q => (s.did (value q)).did (acquired 5 4),
           puts := fun s q => [.scalar d (BitVec.ofNat 64 ((s.gives (value q)).getD 0))] }
  | .stphy g space width d a off =>
    some { req := stphyReq g space width d a s, 
           asks := fun s q =>
             let n := 2 ^ width.toNat
             let addr := s.physAddr q a off
             s.mayRelease && (s.physAt space.toNat n addr).any (s.physStores space.toNat n addr (s.val q false d q.rep).toNat),
           change := fun s q => s.did (stphyBody space width d a off q) }
  | .cntr g unit d a =>
    let v (s : State) (q : Iss) : Option W64 := s.counter unit (s.val q false a q.rep).toNat
    some { req := debugReq g unit [a] [d] s.me.isWave, asks := fun s q => (v s q).isSome,
           puts := fun s q => [resultPut s d ((v s q).getD 0)] }
  | .cntctlSel g a b =>
    let n (s : State) (q : Iss) : Nat := field (s.val q false a q.rep) 0 3
    let e (s : State) (q : Iss) : Nat := field (s.val q false b q.rep) 0 6
    some { req := debugReq g false [a, b] [] s.me.isWave, asks := fun s q => eventCode (e s q),
           change := fun s q =>
             let old := s.me.cbctl
             let new := old.toNat - field old (6 * n s q) 6 * 2 ^ (6 * n s q) + e s q * 2 ^ (6 * n s q)
             { s with me := { s.me with cnt := Store.set 0 s.me.cnt (n s q) 0, cbctl := BitVec.ofNat 64 new } } }
  | .cntctlEn g a =>
    some { req := debugReq g false [a] [] s.me.isWave,
           change := fun s q =>
             let en : W64 := BitVec.ofNat 64 (field (s.val q false a q.rep) 0 8 * 2 ^ 48)
             { s with me := { s.me with cbctl := (s.me.cbctl &&& 0x0000FFFFFFFFFFFF) ||| en } } }
  | .cntctlClr g a =>
    let m (s : State) (q : Iss) : W64 := BitVec.ofNat 64 (field (s.val q false a q.rep) 0 8)
    some { req := debugReq g false [a] [] s.me.isWave,
           change := fun s q =>
             let left := (List.range 8).foldl (fun t n => if (m s q).getLsbD n then Store.set 0 t n 0 else t) s.me.cnt
             { s with me := { s.me with cnt := left, cbst := s.me.cbst &&& ~~~(m s q) } } }
  | .cntctlUclr g a =>
    let n (s : State) (q : Iss) : Nat := (s.val q false a q.rep).toNat
    some { req := debugReq g true [a] [] s.me.isWave, asks := fun s q => n s q < 8,
           change := fun s q =>
             if n s q < 4 then { s with here := { s.here with unitCnt := Store.set 0 s.here.unitCnt (n s q) 0 } }
             else s.did (modCluster (clusterOf s.hereId) fun k => { k with unitCnt := Store.set 0 k.unitCnt (n s q) 0 }) }
  | .mark g a =>
    let v (s : State) (q : Iss) : W32 := (s.val q false a q.rep).setWidth 32
    some { req := debugReq g false [a] [] s.me.isWave,
           change := fun s q =>
             let t := State.counted { s with me := { s.me with mkval := v s q, mkclk := s.clk } } 0x1A
             match s.myTeam with
             | some m => t.did (markRecord s.hereId m.lnum 14 fun _ =>
                 BitVec.ofNat 64 ((v s q).toNat + (s.globalId s.hereId).toNat * 2 ^ 32))
             | none => t }
  | _ => none


/-! Traps (16_traps.md R417 to R428; 02_clauses.md R46). -/

/-- The tables of this file. -/
def opTables : List (Instr → State → Option Effect) :=
  [arithOps, memoryOps, streamOps, matrixOps, shuttleOps, networkOps, raysOps, rasterOps, systemOps]

/-- What an instruction asks of its issue; of BKPT, which has a check of its own (R462), and of events nothing. -/
def reqOf (i : Instr) (s : State) : Option Req :=
  match i with
  | .loop g _ a _ => some { guard := g, form := notInHandler, ok := fun s => s.ctlSrcOk a, srcs := [a] }
  | .lbrk g _ => some { guard := g, form := notInHandler }
  | .park g a b => some { guard := g, ok := fun s => s.ctlSrcOk a && s.ctlSrcOk b, srcs := [a, b] }
  | .join g _ | .waitb g _ _ | .waitc g _ | .yield g | .quit g | .nop g => some { guard := g }
  | .trap g code => some (trapReq g code)
  | .tretRetry g | .tretSkip g | .tretKill g => some (sysReq g [] [] s.me.isWave)
  | _ =>
    match intEffect i, vecEffect i, fpEffect i, longEffect i, jumpOf i with
    | some e, _, _, _, _ | _, some e, _, _, _ | _, _, some e, _, _ | _, _, _, some (_, e), _ => some e.req
    | _, _, _, _, some j => some j.req
    | _, _, _, _, _ => (opTables.findSome? fun table => table i s).map (·.req)

/-- Nothing comes before an instruction's checks: no comparator matches. -/
def State.unhindered (s : State) : Prop := s.me.breakMatch = none

/-- A paired word whose halves meet under MODE.STRICT (R45). -/
def strictPair (i : Instr) (s : State) : Bool :=
  s.me.mode.getLsbD 13 &&
  match i with
  | .pairI x y => halvesMeet false false x y
  | .pairF x y => halvesMeet true true x y
  | .pairIF x y => halvesMeet false true x y
  | _ => false

/-- The outstanding results that the instruction would read or overwrite (R41). -/
def State.met (s : State) (r : Req) : List Pend := s.me.pend.filter (Pend.meets (r.allRegs s.me.isWave))

/-- A trap need not wait: the other slot waits for no other agent, and no result is outstanding (R421). -/
def State.settled (s : State) : Prop := s.me.prog2.kind.agent = false ∧ s.me.pend = []

/-- A trap goes to the handler: the context is in none, and its core has one (R422, R425). -/
def State.vectored (s : State) : Prop := s.me.handler = false ∧ s.here.tvec.getLsbD 63 = true

/-! Accesses to the scratchpad and through a translation (06_scratchpad.md R160 to R164; 07_addresses.md R188 to R207). -/

/-- The generic address of a memory instruction: its base and its scaled offset (R188, R203); ATOM's offset has nine bits. -/
def State.addrOf (s : State) (r : Req) (m : MemF) (atom : Bool) : W64 :=
  memAddr (s.wide (issOf r s) m.base (issOf r s).rep) (if atom then (atomOff m) else m.off)
    (widthSize m.width)

/-- The number that the data operand of a store or an atomic gives (R203), cut to its width. -/
def State.storeValue (s : State) (r : Req) (m : MemF) : Nat :=
  (s.gives (storeData (issOf r s) m.width m.data)).getD 0 % 2 ^ (8 * widthSize m.width)

/-- What every access of a ready context asks: plain operands, no watchpoint on it, and nothing to wait for before it. -/
structure Accesses (m : MemF) (r : Req) (need : Need) (a : W64) (s : State) : Prop where
  ready : Ready r s
  plain : Plain r s
  flows : s.flows
  uncounted : r.counted = false
  watch : s.me.watchMatch [(widthSize m.width, need, [((issOf r s).rep, a)])] = none
  released : Does (releasing m.order.toNat) s () s

/-- The access goes to the data rows of a core, at an offset, and the rows are sound. -/
structure RowAccess (m : MemF) (r : Req) (need : Need) (a : W64) (s : State) (core off : Nat) : Prop where
  accesses : Accesses m r need a s
  target : s.precheck a (widthSize m.width) need = .ok (.row core off)
  data : 8192 ≤ off
  sound : (Place1.row core off (widthSize m.width)).poisoned s = false

/-- A byte of an address that exists, which its home slice, where that holds its line CLEAN, holds as memory has it (R242). -/
def State.coherent (s : State) (a : Nat) : Bool :=
  s.populated a &&
  match s.homeFind a with
  | some (k, l) => l.dirty.getLsbD (a % 64 / 32) || Store.get 0 s.sram (sramKey (homeNumber a) k + a % 64) = Store.get 0 s.mem a
  | none => true

/-- `a` is a byte of the record of the tier-0 frame that holds `pa`, which an access may heat (R221). -/
def heatByte (pa a : Nat) : Prop :=
  tier0 pa = true ∧ recordAddr (frameOf pa).1 (frameOf pa).2 ≤ a ∧ a < recordAddr (frameOf pa).1 (frameOf pa).2 + 16

/-- The access lies in one sub-page, whose translation the TLB holds with the rights it needs; its bytes are at home, no row
of an owner holds them or the frame's record, and no replica of the core covers them. -/
structure GlobalAccess (m : MemF) (r : Req) (need : Need) (a : W64) (s : State) (va : Nat) (e : Tlb) : Prop where
  accesses : Accesses m r need a s
  target : s.precheck a (widthSize m.width) need = .ok (.glob va)
  whole : va / 1024 = (va + widthSize m.width - 1) / 1024
  hit : (Store.get Cluster.reset s.clusters (clusterOf s.hereId)).tlb.find?
    (tlbHit (s.domAsn s.myDomain) (s.inFine s.hereId (s.domAsn s.myDomain) va) va need.wr) = some e
  rights : (need.rd = true → e.rd = true) ∧ (need.wr = true → e.wr = true)
  home : ∀ j, j < widthSize m.width →
    s.forwarded (tlbAddr e va + j) = none ∧ s.coherent (tlbAddr e va + j) = true ∧ ¬ heatByte (tlbAddr e va) (tlbAddr e va + j)
  record : ∀ b, heatByte (tlbAddr e va) b → s.forwarded b = none
  unpricked : ∀ j, j < widthSize m.width → s.replicaEntry s.hereId (va + j) = none
  sound : (Place1.phys (tlbAddr e va) va (widthSize m.width)).poisoned s = false

/-- A byte at the point of coherence of a memory instruction's accesses: of system scope to a line behind a CXL port, in
memory itself (R240). -/
def viaByte (m : MemF) (pa : Nat) (s : State) (a : Nat) : Byte :=
  if (atPoc m).direct pa then Store.get 0 s.mem a else s.pocByte a

/-- Those bytes before and after: the `n` at `pa` hold the number `v`, lowest byte first, and every other is as before, but
for the heat of the page's frame. -/
def Puts (m : MemF) (pa v n : Nat) (s t : State) : Prop :=
  ∀ a, ¬ heatByte pa a → ((atPoc m).direct pa = true ∨ s.coherent a = true) →
    viaByte m pa t a = if pa ≤ a ∧ a < pa + n then BitVec.ofNat 8 (v / 256 ^ (a - pa)) else viaByte m pa s a

/-- Bytes before and after: the `n` at `base` hold the number `v`, lowest byte first, and every other is as before. -/
def Holds (v n base : Nat) (old new : Nat → Byte) : Prop :=
  ∀ a, new a = if base ≤ a ∧ a < base + n then BitVec.ofNat 8 (v / 256 ^ (a - base)) else old a

/-- The data rows of every core, the bytes of one core's changed. -/
def RowsHold (s t : State) (core : Nat) (v n off : Nat) : Prop :=
  ∀ c, Holds v (if c = core then n else 0) off (Store.get 0 (s.core c).rows) (Store.get 0 (t.core c).rows)

/-- Data, predicate and uniform registers and MODE are as before. -/
def SameRegisters (s t : State) : Prop :=
  (t.me.x, t.me.v, t.me.p, t.me.mode) = (s.me.x, s.me.v, s.me.p, s.me.mode) ∧ t.here.uni = s.here.uni

/-- A load's register writes are outstanding in a window of `la`, behind the older results. -/
def AddsResult (s t : State) (la : Nat) (a : W64) (ws : List RegWrite) : Prop :=
  ∃ older, t.me.pend = older ++ [{ tok := s.me.tok, writes := ws, window := la, load := true, addr := a, since := s.clk.toNat, unit := 0 }] ∧
    older.map (fun q => (q.tok, q.writes)) = s.me.owes

/-- What a row access reads. -/
def State.rowNat (s : State) (core off n : Nat) : Nat := bytesToNat (Store.bytes (s.core core).rows off n)

/-- The requirements of LD and LDC. -/
def ldReq (m : MemF) (s : State) : Req :=
  { memReq m (fun s => s.loadDst m.width m.data) true with srcs := wideSrcs s.me.isWave m.base }

/-! What the statements say of a table. -/

/-- Every instruction of a table, issued by a ready context on operands that are no queue and no stream, with its conditions
met, answers the state that its effect leaves, with the books of the issue and the pc gone on. -/
def Performs (table : Instr → State → Option Effect) : Prop :=
  ∀ i s e, table i s = some e → Ready e.req s → Plain e.req s → e.runs s = true →
    (e.leaves s).me.grant = false → (e.leaves s).flows → exec i s = .next ((e.leaves s).after e.req s.me.tok)

/-- The same for operands of any kind: the pushes of its destinations are allowed, its pops leave `u`, its conditions hold
there, and performing its results, pushes included, leaves `v`. -/
def PerformsAny (table : Instr → State → Option Effect) : Prop :=
  ∀ i s e u v, table i s = some e → Ready e.req s → s.me.watchMatch (s.streamTouches (issOf e.req s) e.req.dsts) = none →
    (∀ d ∈ e.req.dsts, Does (pushChecks (issOf e.req s) d) s () s) →
    Does (popSources (issOf e.req s)) s () u → e.asks u (issOf e.req s) = true →
    Does ((e.puts u (issOf e.req s)).forM (Put.perform (issOf e.req s))) (e.change u (issOf e.req s)) () v →
    let w := (e.later u (issOf e.req s)).foldl (State.owing (e.addr u (issOf e.req s))) v
    w.me.grant = false → w.flows → exec i s = .next (w.after e.req s.me.tok)

end Sys2Proof.Machine
end

