-- ==== Sys2Proof/EventEffects.lean ====
section
/-! DEFINITION. What the events do, one table for each group, for the statements about them: the conditions under which an
event has its own effect, and the state that it leaves. -/

namespace Sys2Proof.Machine

/-- An event that happens: its conditions, and the state that it leaves. -/
structure Happening where
  when : State → Bool := fun _ => true
  leaves : State → State

/-! Changes of a part of the machine. -/

def State.onCore (s : State) (core : Nat) (f : Core → Core) : State := s.putCore core (f (s.core core))

def State.onCluster (s : State) (n : Nat) (f : Cluster → Cluster) : State :=
  { s with clusters := Store.set .reset s.clusters n (f (Store.get .reset s.clusters n)) }

def State.onSite (s : State) (n : Nat) (f : Site → Site) : State :=
  { s with sites := Store.set .reset s.sites n (f (Store.get .reset s.sites n)) }

def State.onSys (s : State) (f : System → System) : State := { s with sys := f s.sys }

def State.onTeam (s : State) (core tag : Nat) (f : Team → Team) : State :=
  s.onCore core fun c => match c.team tag with
    | some t => c.putTeam (f t)
    | none => c

def State.ctx (s : State) (c : CtxId) : Ctx := Store.get .blank (s.core c.core).ctxs (seatIndex c.seat)

def State.onCtx (s : State) (c : CtxId) (f : Ctx → Ctx) : State :=
  s.onCore c.core fun k => { k with ctxs := Store.set .blank k.ctxs (seatIndex c.seat) (f (Store.get .blank k.ctxs (seatIndex c.seat))) }

def State.cluster (s : State) (n : Nat) : Cluster := Store.get .reset s.clusters n

/-- An event to come, and one that comes once however often it is caused. -/
def State.pends (s : State) (e : Ev) : State := { s with pending := s.pending ++ [e] }
def State.pendsOnce (s : State) (e : Ev) : State := if s.pending.contains e then s else s.pends e

/-- An event due at a cycle. -/
def State.dueAt (s : State) (n : Nat) (e : Ev) : State := { s with timers := s.timers ++ [(n, e)] }

/-- A host vector raised: recorded as raised, its table entry's message sent, or its pending bit set (19_system.md R470). -/
def State.vector (s : State) (n : Nat) : State := s.onSys fun y => y.vector n

/-- The state with the turn given to a context, and the turn given back. -/
def State.asContext (s : State) (c : CtxId) : State := if s.seat = some c.seat ∧ s.hereId = c.core then s else s.switchTo c
def State.handedBack (s : State) (c : CtxId) (t : State) : State :=
  if s.seat = some c.seat ∧ s.hereId = c.core then t else
  match s.seat with
  | some q => t.switchTo ⟨s.hereId, q⟩
  | none => t

/-! Clauses, waves and results (02_clauses.md R26 to R33; 03_contexts.md R66 to R69; 01_package.md R19). -/

/-- The header is legal for the context, and the one that a refetch must find again. -/
def Ctx.acceptsHeader (c : Ctx) (h : W64) : Bool :=
  !headerBad h c.isWave &&
  !(c.curSlot.refetch && (headerCount h < pcIndex c.curSlot.pc || c.curSlot.cclass.toNat ≠ headerClass h))

/-- The virtual address of the clause of the slot that issues. -/
def Ctx.clauseAt (c : Ctx) : Nat := field (pcAddr c.curSlot.pc) 0 57

/-- A word of a clause can be read: in split mode it is in the scratchpad, else the TLB permits its execution; it has no
poison (R26; 07_addresses.md R211, R212). -/
def State.fetchable (s : State) (va : Nat) : Bool :=
  if s.unified then
    s.tlbGrants (va % 2 ^ 57) false (·.ex) &&
    (s.tlbFor (va % 2 ^ 57) false).all fun e => !(Place1.phys (tlbAddr e (va % 2 ^ 57)) 0 8).poisoned s
  else va + 8 ≤ 0x18000 && !(Place1.row s.hereId va 8).poisoned s

/-- The clause at the pc can be fetched: its header is read and accepted, and the words that it counts are read. -/
def State.clauseReady (s : State) : Bool :=
  let h := (s.gives (fetchAt (pcAddr s.me.curSlot.pc) 0)).getD 0
  s.me.acceptsHeader h && (List.range (headerCount h + 2)).all fun i => s.fetchable (s.me.clauseAt + 8 * i)

def issueEvents (i : Instr) : Option Happening :=
  match i with
  | .clauseFetch =>
    some { when := State.clauseReady,
           leaves := fun s => let t := s.did fetchClause; { t with me := { t.me with stall := .fetch } } }
  | .headerWait =>
    some {
      when := fun s => match s.me.curSlot.buf with
        | some b => !b.ready && (s.headerFails b.header).isNone && !(b.header.getLsbD 42 && s.pollWaits)
        | none => false,
      leaves := fun s =>
        let me : Ctx := { s.me with prog := { s.me.prog with backoff := 16, nextCheck := 0 } }
        { s with me := me.modCur fun p => { p with buf := p.buf.map fun b => { b with ready := true } } } }
  | .powerWindow core => some { leaves := fun s => s.onCore core fun k => { k with nv := 0, nm := 0 } }
  | .loadResult c tok =>
    some { leaves := fun s =>
      if s.mayLand c tok then (s.handedBack c ((s.asContext c).landed fun p => p.tok = tok)).did (swapSync c) else s }
  | .promotion core =>
    some { leaves := fun s =>
      let t := s.did (settleReady core)
      let (since, f) := (t.core core).readyq.headD (0, 0)
      let rest := (t.core core).readyq.tail
      if (t.core core).readyq.isEmpty ∨ 8 ≤ (t.core core).activeWaves then t
      else if t.clk.toNat ≤ since then t.pendsOnce (.promotion core) else
      let u := (t.did (swapLoad ⟨core, .frame f⟩)).onCtx ⟨core, .frame f⟩ fun c =>
        { c with place := .active, moved := none, moved2 := none, yielded := false, stall := .issued }
      let v := u.onCore core fun k => { k with readyq := rest, ages := Store.set 0 k.ages f t.clk.toNat }
      if rest.isEmpty then v else v.pendsOnce (.promotion core) }
  | .swapOut core frame =>
    let id : CtxId := ⟨core, .frame frame⟩
    some { leaves := fun s =>
      let t := s.did (settleReady core)
      if !t.leaves id || (t.core core).readyq.isEmpty then t else
      let u := ((t.onCtx id Ctx.setAside).did (swapStore id)).onCore core fun k =>
        { k with port := if k.port = some frame then none else k.port, elig := Store.set none k.elig frame none }
      (u.did (settleReady core)).pendsOnce (.promotion core) }
  | .trapEntry c =>
    some { leaves := fun s =>
        let u := s.asContext c
        match u.me.trapping with
        | some d =>
          if (u.me.progOf (1 - d.slot)).kind.agent ∨ u.me.pend ≠ [] then s.handedBack c u else
          let v : State := { u with me := { u.me.turnTo d.slot with trapping := none } }
          s.handedBack c (v.did (takeTrap d.trap d.paired d.lanes))
        | none => s.handedBack c u }
  | .interrupt core =>
    let c (s : State) : CtxId := ⟨core, .slot (field (s.core core).itgt 0 5)⟩
    some { leaves := fun s =>
        if !s.timerPending core || !(s.ctx (c s)).interruptible then s else
        let t := s.onCore core fun k => { k with tcmp := 0 }
        t.handedBack (c s) (((t.asContext (c s)).did
          (raiseTrap { cause := 17, detail := 1, imprecise := true } false 1))) }
  | _ => none

/-- A slot waits with an instruction of which a test holds. -/
def Again.word? (p : Instr → Bool) : Again → Bool
  | .word i => p i
  | .header => false

def isPark : Instr → Bool | .park .. => true | _ => false
def isRpop : Instr → Bool | .rpop .. => true | _ => false
def isLead : Instr → Bool | .mpairLead .. => true | _ => false

/-- What a retry event makes its context do again: the context, the slot that waits, and what it waits with. -/
def retryOf (i : Instr) (s : State) : Option (CtxId × Nat × Again) :=
  let of (c : CtxId) (p : State → Nat → Again → Bool) : Option (CtxId × Nat × Again) :=
    let u := s.asContext c
    (u.waitingSlot (p u)).map fun x => (c, x)
  match i with
  | .pollRetry c => of c State.polls
  | .gatherTimeout c => of c fun _ _ => Again.word? isRpop
  | .mpairLimitExpiry c => of c fun _ _ => Again.word? isLead
  | _ => none

/-- The context with its waiting slot at the issue, and the state after it: the slot that had the issue has it again. -/
def State.atSlot (s : State) (c : CtxId) (n : Nat) : State :=
  let u := s.asContext c
  { u with me := u.me.turnTo n }
def State.slotBack (s : State) (c : CtxId) (t : State) : State :=
  s.handedBack c { t with me := t.me.turnTo (s.asContext c).me.cur }

/-! Transfers, the matrix pair and the raster window (10_shuttle.md R266, R273 to R277; 11_matrix.md R306, R307;
14_raster.md R386). -/

/-- A recovery table lets a flit in: it has no entry for its source and channel, or the one that waits for this flit
(12_mesh.md R322). -/
def letsIn (l : List Recov) (h : Hdr) (ev : Ev) : Bool :=
  (l.find? fun r => r.src = h.src && r.vc = ev.vc).all fun r => h.seq = r.seq

/-- The table once it has let a flit in. -/
def letIn (l : List Recov) (h : Hdr) (ev : Ev) : List Recov :=
  l.filter fun r => !(r.src = h.src && r.vc = ev.vc && r.seq = h.seq)

/-- A flit that the check at a core takes in (12_mesh.md R321, R322): good, and read back from an overflow area, or with no
recovery entry for its source and channel, or the one that the entry waits for. -/
def State.takesAt (s : State) (core : Nat) (h : Hdr) (ev : Ev) : Bool :=
  h.good && (h.reinj || letsIn (s.core core).recov h ev)

/-- A flit that its destination's check takes in. -/
def State.takes (s : State) (h : Hdr) (ev : Ev) : Bool :=
  match s.localCore h.dst with
  | some core => s.takesAt core h ev
  | none => false

/-- The destination of a flit. -/
def State.dest (s : State) (h : Hdr) : Nat := (s.localCore h.dst).getD 0

/-- The state once a flit has passed its check: one from the mesh finds its cluster not gated, begins its idle time again, and
ends the recovery that waited for it. -/
def State.took (s : State) (h : Hdr) (core : Nat) (ev : Ev) : State :=
  if h.reinj then s else
  let t := s.onCluster (clusterOf core) fun k => { k with gated := false, lastFlit := s.clk.toNat }
  if (s.core core).recov.isEmpty then t else t.onCore core fun c => { c with recov := letIn c.recov h ev }

/-- What a flit that the check does not take in leaves: the check's own work, where its destination is of this module. -/
def State.turnedAway (s : State) (h : Hdr) (ev : Ev) : State :=
  match s.localCore h.dst with
  | some core => s.did (acceptFlit core h ev)
  | none => s

/-- A flit that arrives: what it does once it is taken in, or the check's work. -/
def State.arrival (s : State) (h : Hdr) (ev : Ev) (does : State → State) : State :=
  if s.takes h ev then does (s.took h (s.dest h) ev) else s.turnedAway h ev

/-- A line that arrives: how it ends, told to its sender. -/
def State.lineTaken (s : State) (h : Hdr) (take : M LineEnd) (ack : LineEnd → Hdr → Ev) : State :=
  (s.did take).did (sendFlit (s.dest h) h.src 2 (ack ((s.gives take).getD .done)))

def transferEvents (i : Instr) : Option Happening :=
  match i with
  | .transferStart core entry =>
    some { leaves := fun s =>
      match (Store.get none (s.core core).shuttle entry).bind fun e => ((s.core core).team e.team).map fun t => (e, t) with
      | none => s
      | some (e, t) =>
        if (s.core core).frozen then s
        else if e.state = .queued then
          match s.nextStart core with
          | none => s
          | some (k, f) =>
            if 4 ≤ (s.core core).running then s else
            let u := (s.onCore core fun c =>
              { c with shuttle := Store.set none c.shuttle k (some { f with state := .running }) }).pendsOnce (.transferStart core k)
            if k = entry then u else u.pendsOnce (.transferStart core entry)
        else if e.state = .running ∧ e.sent < e.lines then s.did (moveLine core entry e t) else s }
  | .ack h entry gen line bytes how =>
    some { leaves := fun s => s.arrival h (.ack h entry gen line bytes how) fun t =>
      t.did (lineAcked (s.dest h) entry gen bytes how) }
  | .copy h l =>
    some { leaves := fun s => s.arrival h (.copy h l) fun t =>
      t.lineTaken h (takeCopy (s.dest h) l) fun how h' => .ack h' l.entry l.gen l.line l.bytes.length how }
  | .red h l =>
    some { leaves := fun s => s.arrival h (.red h l) fun t =>
      t.lineTaken h (takeRed (s.dest h) l) fun how h' => .ack h' l.entry l.gen l.line l.bytes.length how }
  | .kBlockStep leader =>
    let both (s : State) (f : State → Nat → State) : State := f (f s leader) (leader + 1)
    some { leaves := fun s =>
      match (s.core leader).pair.bind fun p => (s.nextCmd leader true p.queue).map fun x => (p, x) with
      | none => s
      | some (p, idx, q) =>
        let later (t : State) : State :=
          if t.timers.any fun e => e.2 == .kBlockStep leader then t else t.dueAt (t.clk.toNat + 1) (.kBlockStep leader)
        if ((s.core leader).frozen ∨ p.stopping) ∧ q.cycles = 0 then s
        else if (s.core leader).credit && (s.core (leader + 1)).credit then
          let t := both s fun u k => (u.onCore k fun c => { c with nm := c.nm + 1 }).did (bumpUnit k 2)
          if q.cycles + 1 < 32 * (8 - q.level) then
            later (t.did (modPair leader fun p => { p with queue := p.queue.set idx { q with cycles := q.cycles + 1 } }))
          else t.did (blockStep leader idx q)
        else later (both s fun u k => u.did (bumpUnit k 3)) }
  | .drainComplete leader =>
    some { leaves := fun s =>
      match (s.core leader).pair.bind fun p => (s.nextCmd leader false p.queue).map fun x => (p, x) with
      | none => s
      | some (p, idx, q) =>
        if (s.core leader).frozen ∨ p.stopping then s else
        let t := if p.getPoison q.tset then s.did (modPair leader fun p => { p with err := true }) else s.did (drainTile leader q p)
        (if q.clr then t.did (modPair leader fun p => p.clearTile q.tset) else t).did (finishCmd leader idx) }
  | .hoopUrgent core =>
    some {
      leaves := fun s =>
        if !(match (s.core core).hoop.deferred, (s.core core).hoop.claimant with
          | some due, some _ => decide (due ≤ s.clk.toNat)
          | _, _ => false) then s else
        s.pendsOnce (.preemption core (BitVec.ofNat 16 ((s.core core).hoop.claimant.getD 0)) true) }
  | _ => none

/-! Arrivals (12_mesh.md R325 to R337; 13_rays.md R350 to R357; 15_work.md R404, R409). -/

/-- An arriving flit that can be parked: its header, itself, what of it is parked, whom it is for, whether there is room, and
what it leaves at its core. -/
structure Arriving where
  hdr : Hdr
  ev : Ev
  parks : Parkable
  bound : State → Core → Bound
  room : State → Nat → Nat → Bool
  put : State → Nat → Nat → State

def arrivingOf (i : Instr) : Option Arriving :=
  match i with
  | .qdata h lnum n w64 elems =>
    some { hdr := h, ev := .qdata h lnum n w64 elems, parks := .qdata lnum n w64 elems,
           bound := fun _ c => c.boundLaunch lnum,
           room := fun s core tag => match (s.core core).team tag with
             | some t => (Store.get none t.inq n.toNat).isSome
             | none => false,
           put := fun s core tag => elems.foldl (fun t v => t.did (appendElem core tag n.toNat h.src w64 v)) s }
  | .msg h lnum len payload =>
    let ring (s : State) (core tag : Nat) : Option Ring := ((s.core core).team tag).bind (·.ring)
    some { hdr := h, ev := .msg h lnum len payload, parks := .msg lnum len payload,
           bound := fun _ c => c.boundLaunch lnum,
           room := fun s core tag => match ring s core tag with
             | some r => r.count < r.rows
             | none => false,
           put := fun s core tag => match ring s core tag with
             | some r =>
               let row := r.base + 64 * ((r.head + r.count) % r.rows)
               if !(s.core core).expected row 64 tag then s.did (lateArrival core) else
               (s.onCore core fun c =>
                 { c with rows := Store.putBytes c.rows row (messageRow h.src len payload) }.cleanRows [row / 64]).onTeam core tag
                   fun t => { t with ring := some { r with count := r.count + 1 } }
             | none => s }
  | .key h lnum bin slot w64 v =>
    some { hdr := h, ev := .key h lnum bin slot w64 v, parks := .key lnum bin slot w64 v,
           bound := fun _ c => c.boundLaunch lnum,
           room := fun s core tag => match (s.core core).team tag with
             | some t => (Store.get none t.bins bin.toNat).isSome
             | none => false,
           put := fun s core tag => s.did (combineElem core tag bin.toNat slot w64 v.toNat) }
  | .retArrival h token value w64 =>
    some { hdr := h, ev := .ret h token value w64, parks := .ret token value w64,
           bound := fun _ c => c.boundTag (field token 20 16), room := fun _ _ _ => true,
           put := fun s core tag =>
             let off := field token 0 17
             let t := (s.core core).tag (off / 64)
             if off < 0x18000 ∧ tagClass t = 4 ∧ tagOwner t = tag then
               (s.onCore core fun c =>
                 (feWords w64 off).foldl (fun c o => c.setFull o true)
                   { c with rows := Store.writeN c.rows off (if w64 then 8 else 4) value.toNat }).did (serveAll core)
             else s.did (lateArrival core) }
  | .ray h payload =>
    some { hdr := h, ev := .ray h payload, parks := .ray payload,
           bound := fun _ c => c.claimBound (bytesAt payload 42 2 / 16) c.rayClaim,
           room := fun s core _ => decide ((s.core core).rayq.length < 64),
           put := fun s core _ =>
             let stale := (s.gives (countArrival core (bytesAt payload 36 4 * 128))).getD false
             (s.did (countArrival core (bytesAt payload 36 4 * 128))).onCore core fun c =>
               { c with rayq := c.rayq ++ [itemImage h payload stale] }.queueRows }
  | .hit h payload =>
    some { hdr := h, ev := .hit h payload, parks := .hit payload,
           bound := fun _ c => c.claimBound (bytesAt payload 24 2 / 16) c.hitClaim,
           room := fun s core _ => decide ((s.core core).hitq.length < 32),
           put := fun s core _ => s.onCore core fun c => { c with hitq := c.hitq ++ [itemImage h payload false] }.queueRows }
  | .task h r =>
    if h.dst = hostId then none else
    some { hdr := h, ev := .task h r, parks := .task r, bound := fun s c => s.taskBound (s.dest h) r c,
           room := fun s core _ => r.kind = 4 || decide ((s.core core).taskq.length < 48),
           put := fun s core tag =>
             if r.kind = 4 then s.did (childDone core tag)
             else (s.onCore core fun c => { c with taskq := c.taskq ++ [r] }).did (dispatchTasks core) }
  | _ => none

/-- What becomes of an arrival that the check takes in: for nobody, or at a retired core, it is counted as late; for a team
that is away, behind an earlier flit of its place, or without room, it is parked; else it is delivered. One read back from an
overflow area leaves its slot there but where it found no room, and once delivered makes the next parked flits try again; one
that has no slot any more is gone. -/
def Arriving.leaves (a : Arriving) (s : State) : State :=
  match s.localCore a.hdr.dst with
  | none => s
  | some core =>
    let k := s.cluster (clusterOf core)
    let left (t : State) : State := t.did (leaveSlot core a.hdr a.parks)
    if a.hdr.reinj && (k.slotOf a.hdr a.parks).isNone then s
    else if !s.takes a.hdr a.ev then left (s.turnedAway a.hdr a.ev) else
    let t := s.took a.hdr core a.ev
    let park : State := t.did (parkFlit core a.hdr a.parks a.ev)
    if s.sys.retired.contains core then left (t.did (lateArrival core))
    else match a.bound s (s.core core) with
    | .nowhere => left (t.did (lateArrival core))
    | .away => park
    | .team tag =>
      if !a.hdr.reinj && k.parkedBefore a.hdr a.parks then park
      else if !a.room t core tag then park
      else
        let u := left (a.put t core tag)
        if a.hdr.reinj then u.did (wakeParked core) else u

def creditEvents (i : Instr) : Option Happening :=
  match i with
  | .credit h n amount =>
    some { leaves := fun s => s.arrival h (.credit h n amount) fun t => t.onCore (s.dest h) fun c =>
      { c with ctxs := c.ctxs.map fun x => (x.1, x.2.credited h.src n.toNat amount) } }
  | .waiterRetry c => some { leaves := fun s => s.handedBack c ((s.asContext c).did tryRequests) }
  | .parkLimitExpiry c =>
    some { when := fun s => ((s.asContext c).waitingSlot fun _ => Again.word? isPark).isNone,
           leaves := fun s => (s.handedBack c (s.asContext c)).did (settleReady c.core) }
  | .lookupRetry c =>
    some { leaves := fun s => match (s.ctx c).asked with
      | some q =>
        (match q.answer with
         | some (8, _) =>
           (s.onCtx c fun x => { x with asked := some { q with answer := none } }).pends (.lookup (shardOf q.asn q.id) q.asn q.id c)
         | _ => s)
      | none => s }
  | _ => none

/-! Treelets (13_rays.md R359 to R363). -/

def treeletEvents (i : Instr) : Option Happening :=
  match i with
  | .directoryLookup cluster asn id c =>
    some { leaves := fun s => match (s.cluster cluster).treelet asn id with
      | none => s.did (answerCtx c asn id 5 noMembers)
      | some t =>
        if t.state = 3 then s.did (answerCtx c asn id 0 t.to_)
        else if 64 ≤ (s.cluster cluster).lookups.length then s.did (answerCtx c asn id 8 noMembers)
        else
          let u := s.onCluster cluster fun k => { k with lookups := k.lookups ++ [(asn, id, c)] }
          if t.state = 1 then (u.did (modTreelet asn id fun t => { t with state := 2 })).pends (.pageIn cluster asn id) else u }
  | .treeletPageIn cluster asn id =>
    let owner (s : State) (t : Treelet) : Option (Nat × Nat) :=
      (s.localCore t.to_.owner).bind fun core => match (s.core core).rayClaim with
        | some c => if c.asn = asn then some (core, c.team) else none
        | none => none
    some { leaves := fun s => match (s.cluster cluster).treelet asn id with
        | none => s.did (answerHeld asn id 5 noMembers)
        | some t =>
          if t.state ≠ 2 then s else
          let r : Did := match owner s t with
            | some (core, team) => (s.gives (prickOwner core (t.ownerReq team))).getD .wait
            | none => .status 3
          let u := match owner s t with
            | some (core, team) => s.did (prickOwner core (t.ownerReq team))
            | none => s
          match r with
          | .wait => u.dueAt (s.clk.toNat + 1) (.pageIn cluster asn id)
          | .status 0 => (u.did (modTreelet asn id fun t => { t with state := 3 })).did (answerHeld asn id 0 t.to_)
          | .status _ => (u.did (modTreelet asn id fun t => { t with state := 1 })).did (answerHeld asn id 6 noMembers) }
  | .heatReport core =>
    some { leaves := fun s =>
      ((s.core core).validPricks.filter fun e => prickMode e.2.word = 1 && e.2.arrivals ≠ 0).foldl (fun t e =>
        let u := match s.tagDomain core (prickTeam e.2.word) with
          | some dom =>
            let id : W32 := BitVec.ofNat 32 (prickBase e.2.word / 128)
            t.pends (.heat (shardOf (s.domAsn dom) id) (s.domAsn dom) id e.2.arrivals.toNat)
          | none => t
        u.onCore core fun c =>
          { c with pricks := Store.set .reset c.pricks e.1 { (Store.get Prick.reset c.pricks e.1) with arrivals := 0 } }) s }
  | .heatReportArrival _ asn id count =>
    some { leaves := fun s =>
        (s.did (modTreelet asn id fun t => { t with heat := BitVec.ofNat 16 (min count 65535) })).did (tryReplicate asn id) }
  | .routeCacheExpiry core asn id =>
    some { leaves := fun s => s.onCore core fun c =>
      { c with routes := c.routes.filter fun r => !(r.asn = asn && r.id = id && r.until_ ≤ s.clk.toNat) } }
  | _ => none

/-! Homes, walks and pricked ranges (07_addresses.md R199, R200; 09_sharing.md R241, R246 to R253). -/

def homeEvents (i : Instr) : Option Happening :=
  let served (s : State) (r : MemReq) : State := (s.did (serveReq r)).did (answerReq r ((s.gives (serveReq r)).getD []))
  let sendsOn (s : State) (k : Nat) (r : MemReq) : State :=
    s.did (sendFlit (clusterCore0 (homeCluster r.pa)) (s.globalId k) 3 (.forwarded · k r))
  let retries (s : State) (m : M Did) (e : Ev) : State :=
    match s.gives m with
    | some .wait => (s.did m).dueAt ((s.did m).clk.toNat + 1) e
    | _ => s.did m
  match i with
  | .mreq h r =>
    let core := homeCluster r.pa * 48
    some { leaves := fun s =>
      if !s.takesAt core h (.mreq h r) then s.did (acceptFlit core h (.mreq h r)) else
      let t := s.took h core (.mreq h r)
      if t.reqWaits r then t.dueAt (t.clk.toNat + 1) (.mreq { h with reinj := true } r)
      else match t.forwarded r.pa with
        | some (k, _) => sendsOn t k r
        | none => served t r }
  | .forwardedAccess core r =>
    some { leaves := fun s => match s.forwarded r.pa with
      | some (k, _) => if k = core then served s r else sendsOn s k r
      | none => served s r }
  | .mresp h c tok data =>
    some { leaves := fun s =>
      if !s.takesAt c.core h (.mresp h c tok data) then s.did (acceptFlit c.core h (.mresp h c tok data)) else
      let t := s.took h c.core (.mresp h c tok data)
      (t.handedBack c ((t.asContext c).landed fun p => p.tok = tok)).did (swapSync c) }
  | .walkComplete cluster q =>
    some { leaves := fun s =>
      let write := q.write || (s.cluster cluster).missq.any fun r => s.oneMiss q r && r.write
      let t := s.onCluster cluster fun k => { k with missq := k.missq.filter fun r => !s.oneMiss q r }
      match t.domainOfAsn q.asn with
      | some dom => if t.domRoot dom = q.root then t.did (translate dom q.core q.va (if write then .write else .read) false) else t
      | none => t }
  | .missQueueRetry cluster q =>
    some { leaves := fun s =>
      if (s.cluster cluster).missq.any (s.oneMiss q) then
        (s.onCluster cluster fun k =>
          { k with missq := k.missq.map fun r => if s.oneMiss q r then { r with write := r.write || q.write } else r }).pends
            (.walk cluster q)
      else if 32 ≤ (s.cluster cluster).missq.length then s.dueAt (s.clk.toNat + 16) (.missRetry cluster q)
      else (s.onCluster cluster fun k => { k with missq := k.missq ++ [q] }).pends (.walk cluster q) }
  | .roundNotice core counter value =>
    some { leaves := fun s => s.onCore core fun c =>
      { c with watch := c.watch.map fun x =>
          if x.2.getLsbD 63 && field x.2 3 49 * 8 = counter && field x.2 64 64 < value.toNat then (x.1, value ++ x.2.setWidth 64)
          else x } }
  | .refresh core entry =>
    some { leaves := fun s =>
      if prickMode (Store.get Prick.reset (s.core core).pricks entry).word ≠ 2 then s else
      let t := s.did (refreshRows core entry)
      match s.gives (refreshRows core entry) with
      | some .wait => t.dueAt (t.clk.toNat + 1) (.refresh core entry)
      | _ => t }
  | .prickOwner core p => some { leaves := fun s => retries s (prickOwner core p) (.prickOwner core p) }
  | .prickReplica core p => some { leaves := fun s => retries s (prickReplica core p) (.prickReplica core p) }
  | .unprickOwner core entry => some { leaves := fun s => s.did (unprickOwner core entry) }
  | _ => none

/-! Sequences of shared operations. -/

/-- The state after a sequence of operations. -/
def State.didAll (s : State) (ms : List (M Unit)) : State := ms.foldl (fun t m => t.did m) s

/-! Residency (08_residency.md R216 to R229, R236, R488). -/

def residencyEvents (i : Instr) : Option Happening :=
  match i with
  | .fill j =>
    some { leaves := fun s =>
      if !j.begun then
        match s.walk j.rcb j.core j.va with
        | .miss at_ e level =>
          let page := takePage j.who (siteOfCore j.core) (level = 4) (s.domAsn j.rcb) j.va 3
          if parkedState e level = .tier1 ∨ parkedState e level = .tier2 then
            match (s.gives page).getD none with
            | none => s.did page
            | some pa =>
              ((s.did page).did (putEntry at_ (3 * 2 ^ 60 + pa))).pends
                (.fill { j with fine := level = 4, begun := true, src := field e 10 42 * 1024, dst := pa })
          else s
        | _ => s
      else
        match s.entryOf j.rcb j.va j.fine with
        | none => s
        | some (at_, e) =>
          let n := pageSize j.fine
          if e.getLsbD 63 || field e 60 3 ≠ 3 || field e 10 42 * 1024 ≠ j.dst then s else
          let t := (if s.poisonIn j.src n then s.did (supInterrupt (clusterOf j.core) 2) else s).didAll
            [copyPage j.src j.dst n, putEntry at_ (leafEntry j.dst (s.domRights j.rcb) true)]
          let keeps := tier1 j.src && decide (s.wmLow (tier1Of j.src).1 1 ≤ s.free1 (tier1Of j.src).1)
          t.didAll
            [modPage j.dst j.fine fun r => recPutBack (recPut r 125 3 1) j.fine (if keeps then j.src else 0),
             if keeps then setLeaf1 j.src j.fine 0
             else if tier1 j.src then freeTier1 j.src j.fine else freeTier2 j.src j.fine] }
  | .firstTouch j =>
    let site := siteOfCore j.core
    let n := pageSize j.fine
    some { leaves := fun s =>
      let tables := makeTables j.who site j.fine j.va 3 (s.domRoot j.rcb)
      let page := takePage j.who site j.fine (s.domAsn j.rcb) j.va 1
      match s.walk j.rcb j.core j.va with
      | .miss _ e level =>
        if parkedState e level = .unmapped ∧ s.domFirstTouch j.rcb ∧ s.memFits j.region j.fine then
          match s.gives tables, ((s.did tables).gives page).getD none with
          | some (.at_ leaf), some pa =>
            (((s.did tables).did page).didAll
              [zeroPage pa n, putEntry leaf (leafEntry pa (s.domRights j.rcb) false),
               addUsed j.region 5 (if j.fine then 1 else 2048)]).onSys fun y =>
                 { y with touched :=
                     { root := s.domRoot j.rcb, va := j.va / n * n, fine := j.fine, region := j.region } :: y.touched }
          | some (.at_ _), none => (s.did tables).did page
          | _, _ => s.did tables
        else s
      | _ => s }
  | .demotion site =>
    some { leaves := fun s =>
      let stop : State := s.onSite site fun t => { t with rounds := (false, t.rounds.2) }
      if s.wmHigh site 0 ≤ s.freeCount site then stop
      else if !(getSiteState s site).rounds.1 || 8 ≤ s.closing0 site || s.retryDue site 0 then s
      else if s.free1 site = 0 then s.did (tierFull site 0)
      else match s.victim site with
        | none => stop.vector 2
        | some (pa, fine) =>
          let t := s.onSite site fun t =>
            { t with hand := ((pa - frameBase site 0 + pageSize fine) / 1024 % (2048 * Config.tier0Frames), t.hand.2) }
          let r := s.pageRec pa fine
          match (s.domainOfAsn (recAsn r)).bind fun dom => s.entryOf dom (recVa r fine) fine with
          | some (leaf, e) =>
            (if e.getLsbD 63 then t.did (beginDemotion pa fine leaf e) else t).pendsOnce (.demotion site)
          | none => t.pendsOnce (.demotion site) }
  | .drain pa fine =>
    some { leaves := fun s =>
      if tier0 pa then
        if recState (s.pageRec pa fine) ≠ 2 then s
        else if s.pageBusy pa (pageSize fine) then s.dueAt (s.clk.toNat + 1) (.drain pa fine)
        else
          let site := (frameOf pa).1
          let r := s.pageRec pa fine
          let n := pageSize fine
          let t := match (s.domainOfAsn (recAsn r)).bind fun dom => s.entryOf dom (recVa r fine) fine with
            | some (leaf, e) =>
              let dest := field e 10 42 * 1024
              (if (getSiteState s site).vacating.contains pa then s.flushPage pa n
               else (if s.poisonIn pa n then s.did (supInterrupt (homeCluster leaf) 2) else s).did (copyPage pa dest n)).did
                (putEntry leaf (2 ^ 60 + dest))
            | none => s
          let u := (t.onSite site fun t => { t with vacating := t.vacating.filter (· ≠ pa) }).did (freePage pa fine)
          (if (getSiteState u site).rounds.1 then u.pendsOnce (.demotion site) else u.did (checkLow site)).did (goTier1 site)
      else
        let site := (tier1Of pa).1
        match (getSiteState s site).closing1.find? fun c => c.src = pa && c.fine = fine with
        | some c =>
          let t := s.onSite (tier1Of c.src).1 fun t => { t with closing1 := t.closing1.filter (· ≠ c) }
          (if t.poisonIn c.src (pageSize c.fine) then t.did (supInterrupt (homeCluster c.leaf) 2) else t).didAll
            [copyPage c.src c.dst (pageSize c.fine), putEntry c.leaf (2 * 2 ^ 60 + c.dst), freeTier1 c.src c.fine,
             goTier1 (tier1Of c.src).1]
        | none => s }
  | .tier1Demotion site leaf fine =>
    some { leaves := fun s =>
      let e := (s.gives (entryAt leaf)).getD 0
      let src := field e 10 42 * 1024
      let u := s.did (entryAt leaf)
      if parkedState e (if fine then 4 else 0) = .tier1 then
        let t := u.did (takeTier2 site fine)
        match (u.gives (takeTier2 site fine)).getD none with
        | none => t.did (tierFull site 1)
        | some dst =>
          (((t.did (putEntry leaf (3 * 2 ^ 60 + dst))).onSite site fun t =>
            { t with closing1 := t.closing1 ++ [{ leaf := leaf, src := src, dst := dst, fine := fine }] }).pends
              (.drain src fine)).did (goTier1 site)
      else u.did (goTier1 site) }
  | .tierExhaustedRetry site tier =>
    some { leaves := fun s => if tier = 0 then s.pendsOnce (.demotion site) else s.did (goTier1 site) }
  | .frameStarvationTimeout who =>
    some { leaves := fun s =>
      match (getSiteState s (siteOfCore who.core)).starving.find? (fun x => x.who = who),
          (s.askerTag who).bind fun g => (s.core who.core).team g with
      | some x, some t =>
        let p := s.rcbField (s.domainOf t.rcb) 1 40 8
        if p = 0 then s
        else if x.since + p * 65536 < s.clk.toNat then s.didAll [dropClaim who, killTeam who.core t.tag 32]
        else s.dueAt (x.since + p * 65536 + 1) (.frameTimeout who)
      | _, _ => s }
  | .heatHalving site =>
    let lo := recordAddr site 0
    let inside (a : Nat) : Bool := lo ≤ a && a < lo + 16 * Config.tier0Frames
    some { leaves := fun s =>
      let homes := s.homes.flatMap fun h => h.2.filterMap fun x => x.2.map fun l => 64 * l.line
      let fs := ((s.mem.filter fun x => inside x.1).map (fun x => (x.1 - lo) / 16) ++
        (homes.filter inside).flatMap fun a => (List.range 4).map fun j => (a - lo) / 16 + j).dedup
      (fs.foldl (fun t f => t.did (modRecord site f fun r => recPut r 119 4 (field r 119 4 / 2))) s).onSite site fun t =>
        { t with subs := t.subs.map fun x => (x.1, recPut x.2 119 4 (field x.2 119 4 / 2)) } }
  | .picotFilterExpiry cluster _ =>
    some {
      leaves := fun s =>
      (s.onCluster cluster fun k => { k with picots := k.picots.filter fun p => !(p.since + 4096 ≤ s.clk.toNat) }).didAll
        (((s.cluster cluster).picots.filter fun p => p.since + 4096 ≤ s.clk.toNat).map (writePicot cluster)) }
  | _ => none

/-! Failed and parked flits (12_mesh.md R322, R325, R327). -/

def recoveryEvents (i : Instr) : Option Happening :=
  match i with
  | .reinject cluster index =>
    some { leaves := fun s =>
      let parked := (s.cluster cluster).parked
      let out := (oldestParked [] parked).filter fun q => (parked.drop index).contains q && !s.onItsWay q
      let back := out.mapM (readBack cluster)
      let t := s.did back
      { t with pending := (s.gives back).getD [] ++ t.pending } }
  | .selvedgeReplay link ty h tries =>
    some { leaves := fun s =>
      if tries ≤ 3 then match s.pending.find? (·.isFlit ty h) with
        | some e => { s with pending := s.pending.erase e, timers := s.timers ++ [(s.clk.toNat + 24, e)] }
        | none => s
      else
        let links := if s.sys.links.contains link then s.sys.links else s.sys.links ++ [link]
        { (s.onSys fun y => { y with linkFail := true, links := links }).vector 3 with
          pending := s.pending.map fun e => if e.isFlit ty h then e.spoil else e } }
  | .nack h ty seq =>
    let core (s : State) : Option Nat := s.localCore h.dst
    let table (s : State) : List Recov := match core s with
      | some k => (s.core k).recov
      | none => s.sys.hostRecov
    let kept (s : State) : List Held := match core s with
      | some k => (s.core k).held
      | none => s.sys.hostHeld
    let again (s : State) : List Held :=
      ((kept s).filter fun x => x.dst = h.src && x.vc = tyVc ty && decide (s.clk.toNat < x.until_)).dropWhile
        fun x => x.ev.hdr.map (·.seq) ≠ some seq
    some { leaves := fun s =>
      if ((core s).isNone && h.dst ≠ hostId) || (table s).any fun r => r.src = h.src && r.vc = 2 then s else
      let t := match core s with
        | some k => if h.good then s else s.did (bumpUnit k 1)
        | none => s
      if !h.good || (again s).isEmpty then t.did (failNamed h.src h.dst (tyVc ty) seq)
      else { t with pending := t.pending ++ (again s).map (·.ev) } }
  | .recoveryExpiry core src vc =>
    let ended (s : State) (l : List Recov) : Option Recov :=
      l.find? fun r => r.src = src && r.vc = vc.toNat && decide (r.until_ ≤ s.clk.toNat)
    let fails (t : State) (r : Recov) (k : Nat) : State := if r.final then t else t.did (finalFailure k r.ev)
    some { leaves := fun s =>
      if core = hostCore then match ended s s.sys.hostRecov with
        | some r => fails (s.onSys fun y => { y with hostRecov := y.hostRecov.erase r }) r ((s.localCore src).getD 0)
        | none => s
      else match ended s (s.core core).recov with
        | some r => fails (s.onCore core fun c => { c with recov := c.recov.erase r }) r core
        | none => s }
  | .flitHoldExpiry core index =>
    let given (s : State) (l : List Held) : List Held := match l[index]? with
      | some x => if x.until_ ≤ s.clk.toNat then l.eraseIdx index else l
      | none => l
    some { leaves := fun s =>
      if core = hostCore then s.onSys fun y => { y with hostHeld := given s y.hostHeld }
      else s.onCore core fun c => { c with held := given s c.held } }
  | _ => none

/-! Debug commands (18_debug.md R452 to R463; 19_system.md R480). -/

/-- A debug command: its request, what kind of target its access level names, whether its context must be there, the
conditions of its level and of its arguments, and what it does once they hold. -/
structure DbgDoes where
  q : Dbg
  kind : DbgKind
  needCtx : Bool := false
  named : State → Bool := fun _ => false
  open_ : State → Bool := fun _ => false
  args : Bool := true
  act : State → State × Answer

/-- The answer of a command, sent to the host from a cluster: its status and tag, and its data padded with zeros (R452). -/
def State.repliedFrom (s : State) (cluster : Nat) (q : Dbg) (a : Answer) : State :=
  let payload := natToBytes 8 (a.1 + 256 * q.tag.toNat) ++ a.2 ++ List.replicate (44 - a.2.length) 0
  s.did (sendFlit (clusterCore0 cluster) hostId 2 (.cresp · payload))

def State.replied (s : State) (q : Dbg) (a : Answer) : State :=
  s.repliedFrom (if q.ctx.core < Config.coreCount then clusterOf q.ctx.core else 0) q a

/-- What a command leaves: a level that refuses it whatever it names, its target, its access level, and its arguments are
looked at in this order. -/
def DbgDoes.leaves (d : DbgDoes) (s : State) : State :=
  let q := d.q
  if s.dbgLocked (d.open_ s) then s.replied q (2, [])
  else if Config.coreCount ≤ q.ctx.core ∨ s.sys.retired.contains q.ctx.core ∨ (d.needCtx && !(s.ctx q.ctx).present) then
    s.replied q (3, [])
  else match s.dbgLevel d.kind (d.named s) (d.open_ s) with
    | some st => s.replied q (st, [])
    | none =>
      let t := if s.sys.lifeNow = 2 then s else s.onCluster (clusterOf q.ctx.core) fun k => { k with gated := false }
      if d.args then (d.act t).1.replied q (d.act t).2 else t.replied q (4, [])

/-- STEP of a halted team's context, one instruction of one slot within a limit (R458, R459). -/
def stepDoes (q : Dbg) (slot : Bool) (limit : BitVec 16) (word : Option W64) : DbgDoes :=
  { q := q, kind := .ctx, needCtx := true, named := fun s => s.ctxNamed q.ctx, args := limit ≠ 0,
    act := fun s =>
      if !s.teamHalted q.ctx then (s, (1, [])) else
      let due := s.clk.toNat + limit.toNat
      ((s.onCtx q.ctx fun c =>
        let c1 := if c.isWave && c.live = 2 then c.turnTo (if slot then 1 else 0) else c
        { (c1.unhalt.modCur PcSlot.atHeader) with stepping := some due, stepWord := word, yielded := false }).dueAt due (.stepLimit q.ctx), (0, [])) }

/-- HALT (R456). -/
def haltDoes (q : Dbg) (scope : HaltScope) : DbgDoes :=
  { q := q, kind := .ctx, needCtx := scopeNeedsCtx scope, named := fun s => (s.scopeCtxs q.ctx scope).all s.ctxNamed,
         act := fun s =>
           ((s.didAll ((s.scopeCtxs q.ctx scope).map (haltCtx · (if scope = .package then 4 else 1)))).did (freezeScope q.ctx scope true), (0, [])) }

/-- RESUME (R457). -/
def resumeDoes (q : Dbg) (scope : HaltScope) : DbgDoes :=
  { q := q, kind := .ctx, needCtx := scopeNeedsCtx scope, named := fun s => (s.scopeCtxs q.ctx scope).all s.ctxNamed,
         act := fun s =>
           (((s.scopeCtxs q.ctx scope).foldl (fun t c => if (t.ctx c).halted.isSome then t.onCtx c Ctx.unhalt else t) s).did
             (freezeScope q.ctx scope false), (0, [])) }

/-- RDCTX (R460). -/
def rdctxDoes (q : Dbg) (off len : Nat) : DbgDoes :=
  { q := q, kind := .ctx, needCtx := true, named := fun s => s.ctxNamed q.ctx,
         open_ := fun _ => bankRange off len, args := dbgArgs off len,
         act := fun s =>
           let u := s.asContext q.ctx
           (s.handedBack q.ctx u, match dbgPart u.me.isWave u.myTeam.isSome off len with
             | none => (4, [])
             | some p =>
               if p ≠ .window && u.me.halted.isNone then (1, [])
               else (0, ((u.partBytes p).drop (off - partBase p)).take len)) }

/-- WRCTX (R461). -/
def wrctxDoes (q : Dbg) (off : Nat) (bytes : List Byte) : DbgDoes :=
  { q := q, kind := .ctx, needCtx := true, named := fun s => s.ctxNamed q.ctx, args := dbgArgs off bytes.length,
         act := fun s =>
           let u := s.asContext q.ctx
           let put (p : DbgPart) : M Bool :=
             let bs := splice (u.partBytes p) (off - partBase p) bytes
             match p with
             | .image => putImage bs
             | .block => putBlock bs (splice (List.replicate 264 0) (off - 0x1000) bytes)
             | .window => do
               putWindow bs
               return true
           let back (t : State) : State := (s.handedBack q.ctx t).did (swapSync q.ctx)
           match dbgPart u.me.isWave u.myTeam.isSome off bytes.length with
           | none => (back u, (4, []))
           | some p =>
             if !s.teamHalted q.ctx || u.me.pendingAt off bytes.length then (back u, (1, []))
             else (back (u.did (put p)), (if (u.gives (put p)).getD false then 0 else 4, [])) }

/-- RDROW (R453). -/
def rdrowDoes (q : Dbg) (off : Nat) : DbgDoes :=
  { q := q, kind := .row, named := fun s => s.rowNamed q.ctx.core off, args := rowArgs off,
         act := fun s => (s, (0, s.localBytes q.ctx.core off 32)) }

/-- WRROW (R453). -/
def wrrowDoes (q : Dbg) (off : Nat) (bytes : List Byte) : DbgDoes :=
  { q := q, kind := .row, named := fun s => s.rowNamed q.ctx.core off,
         args := rowArgs off && decide (bytes.length = 32),
         act := fun s =>
           if !localRow off && !(s.cluster (clusterOf q.ctx.core)).split then (s, (4, []))
           else (s.putLocalBytes q.ctx.core off bytes, (0, [])) }

/-- PATCH (R463). -/
def patchDoes (q : Dbg) (asn : BitVec 16) (va word : W64) : DbgDoes :=
  { q := q, kind := .other,
         named := fun s => match s.domainOfAsn (asn.setWidth 12) with
           | some dom => s.named dom
           | none => false,
         args := asn.toNat < 4096 && va.toNat < 2 ^ 57 && va.toNat % 8 = 0,
         act := fun s => match (s.domainOfAsn (asn.setWidth 12)).map fun dom => s.leafAny dom va.toNat with
           | some (.leaf at_ e fine) =>
             let pa := if fine then field e 10 42 * 1024 + va.toNat % 1024 else field e 21 31 * 2 ^ 21 + va.toNat % 2 ^ 21
             if !e.getLsbD 62 then (s, (4, []))
             else (((s.did (putEntry at_ (e ||| 0x0300000000000000).toNat)).pocPutBytes pa (natToBytes 8 word.toNat)).did
               (dropClause va.toNat pa), (0, []))
           | _ => (s, (4, [])) }

/-- START (R467). -/
def startDoes (q : Dbg) (n : Nat) (lnum : W32) (codes : List Byte) (at_ dest : W64) : DbgDoes :=
  { q := q, kind := .other, open_ := fun _ => true,
         args := decide (n < 8) && decide (codes.length = 8) && codes.all (fun c => eventCode c.toNat) &&
           tier0 dest.toNat && decide (dest.toNat % 128 = 0),
         act := fun s =>
           let cl := clusterOf q.ctx.core
           let flags : Nat := if at_.toNat < s.clk.toNat then 2 ^ 32 else if at_ = s.clk then 0 else 2 ^ 33
           let r : List W64 :=
             [BitVec.ofNat 64 (lnum.toNat + flags), BitVec.ofNat 64 (bytesToNat codes), dest, s.clk] ++ List.replicate 11 0
           if Store.get [] (s.cluster cl).launchRec n ≠ [] then (s, (1, [])) else
           let t := s.onCluster cl fun k => { k with launchRec := Store.set [] k.launchRec n r }
           (if s.clk.toNat < at_.toNat then t.dueAt at_.toNat (.recordArm cl n) else t, (0, [])) }

/-- STOP (R467). -/
def stopDoes (q : Dbg) (n : Nat) : DbgDoes :=
  { q := q, kind := .other, open_ := fun _ => true, args := decide (n < 8),
         act := fun s =>
           let cl := clusterOf q.ctx.core
           let r := Store.get [] (s.cluster cl).launchRec n
           if r = [] then (s, (0, [])) else
           let t := (s.pocPutBytes (r.getD 2 0).toNat (recordBytes cl s.clk r)).onCluster cl fun k =>
             { k with launchRec := Store.set [] k.launchRec n [] }
           ({ t with timers := t.timers.filter fun x => x.2 ≠ .recordArm cl n, pending := t.pending.filter (· ≠ .recordArm cl n) },
            (0, [])) }

def dbgOf (i : Instr) : Option DbgDoes :=
  match i with
  | .halt q scope => some (haltDoes q scope)
  | .debugResume q scope => some (resumeDoes q scope)
  | .step q slot limit => some (stepDoes q slot limit none)
  | .stepx q slot limit word => some (stepDoes q slot limit (some word))
  | .rdctx q off len => some (rdctxDoes q off len)
  | .wrctx q off bytes => some (wrctxDoes q off bytes)
  | .rdrow q off => some (rdrowDoes q off)
  | .wrrow q off bytes => some (wrrowDoes q off bytes)
  | .patch q asn va word => some (patchDoes q asn va word)
  | .start q n lnum codes at_ dest => some (startDoes q n lnum codes at_ dest)
  | .stop q n => some (stopDoes q n)
  | _ => none

/-- The command that a flit to a cluster carries: by its opcode, its arguments from the flit's bytes (R453; log 37). -/
def ctrlCommand (c : CtrlCmd) : Option DbgDoes :=
  let a (off n : Nat) : Nat := bytesAt c.args off n
  let word (off : Nat) : W64 := BitVec.ofNat 64 (a off 8)
  match c.opcode.toNat with
  | 1 => (scopeOf (a 0 1)).map (haltDoes c.dbg)
  | 2 => (scopeOf (a 0 1)).map (resumeDoes c.dbg)
  | 3 => if a 0 1 ≤ 1 then some (stepDoes c.dbg (a 0 1 = 1) (BitVec.ofNat 16 (a 2 2)) none) else none
  | 4 => if a 0 1 ≤ 1 then some (stepDoes c.dbg (a 0 1 = 1) (BitVec.ofNat 16 (a 2 2)) (some (word 4))) else none
  | 5 => some (rdctxDoes c.dbg (a 0 2) (a 2 2))
  | 6 => some (wrctxDoes c.dbg (a 0 2) ((List.range (a 2 2)).map fun j => c.args.getD (4 + j) 0))
  | 7 => some (rdrowDoes c.dbg (a 0 4))
  | 8 => some (wrrowDoes c.dbg (a 0 4) ((c.args.drop 4).take 32))
  | 9 => some (patchDoes c.dbg (BitVec.ofNat 16 (min (a 0 4) 0xFFFF)) (word 4) (word 12))
  | 10 => some (startDoes c.dbg (a 0 4) (BitVec.ofNat 32 (a 4 4)) ((c.args.drop 8).take 8) (word 16) (word 24))
  | 11 => some (stopDoes c.dbg (a 0 4))
  | _ => none

/-- A command that is no legal one: its level and its target are looked at, then it is refused. -/
def badCommand (q : Dbg) : DbgDoes :=
  { q := q, kind := .other, named := fun _ => true, args := false, act := fun s => (s, (0, [])) }

def measureEvents (i : Instr) : Option Happening :=
  match i with
  | .ctrl cluster cmd =>
    let core := clusterCore0 cluster
    let does := (ctrlCommand cmd).getD (badCommand cmd.dbg)
    some { leaves := fun s =>
      if !s.takesAt core cmd.hdr (.ctrl cluster cmd) then s.did (acceptFlit core cmd.hdr (.ctrl cluster cmd)) else
      let t := s.took cmd.hdr core (.ctrl cluster cmd)
      if clusterOf cmd.dbg.ctx.core ≠ cluster then
        t.repliedFrom cluster cmd.dbg (if t.dbgLocked (does.open_ t) then 2 else 3, [])
      else does.leaves t }
  | .stepLimitExpiry c =>
    some { leaves := fun s => match (s.ctx c).stepping with
      | some due =>
        if due ≤ s.clk.toNat then (s.did (haltCtx c 7)).onCtx c fun x => { x with stepping := none, stepWord := none } else s
      | none => s }
  | .launchRecordArm cluster n =>
    some { leaves := fun s => s.onCluster cluster fun k =>
      let r := Store.get [] k.launchRec n
      if (r.getD 0 0).getLsbD 33 then
        { k with launchRec := Store.set [] k.launchRec n ((r.set 0 (r.getD 0 0 &&& 0xFFFFFFFF)).set 3 s.clk) }
      else k }
  | .linkGridSnapshot cluster =>
    some { leaves := fun s =>
        let k : Cluster := { s.cluster cluster with links := s.linksNow cluster (s.cluster cluster) }
        let n := 2 ^ field k.lgrid 58 5
        (if !k.lgrid.getLsbD 63 then s
         else if (Config.freeByte (2 ^ 22 + 256) s.ticks).getLsbD 0 then
           s.onCluster cluster fun _ => { k with gridSkip := k.gridSkip + 1 }
         else
           (s.did (writePhysBytes (field k.lgrid 6 46 * 64 + 320 * cluster) (k.gridRecord cluster (s.clk.toNat / n * n)))).onCluster
             cluster fun k => { k with gridSkip := 0, links := [] }).did (gridNext cluster) }
  | _ => none

/-! Region commands and the epoch (15_work.md R390 to R397; 19_system.md R472). -/

/-- The status of a performed command in its slot, DONE set, and vector 0 for the host. -/
def State.answered (s : State) (c : CmdSlot) (status : Nat) : State :=
  let put (l : List W64) : List W64 :=
    let l5 := l ++ List.replicate (5 - l.length) 0
    l5.set 4 ((l5.getD 4 0 &&& 0x200) ||| BitVec.ofNat 64 (256 + status))
  match c with
  | .host => (s.onSys fun y => { y with cmdHost := put y.cmdHost }).vector 0
  | .sup => s.onSys fun y => { y with cmdSup := put y.cmdSup }

/-- A region command: its slot, whether its reserved bits are zero, whether it runs on a failed module, the region that
must be known and not closing, where one must, and the operations and status of what it does. -/
structure RegionDoes where
  slot : CmdSlot
  zero : Bool
  kill : Bool := false
  rcb : Option Nat
  does : State → List (M Unit) × Nat

/-- What a command does in a state: nothing and status 6, 7 or 3, or its own. -/
def RegionDoes.work (d : RegionDoes) (s : State) : List (M Unit) × Nat :=
  if !s.commandsReady d.kill then ([], 6)
  else if !d.zero then ([], 7)
  else if (match d.rcb with
    | some r => !s.regionKnown r || s.regionState r = 2
    | none => false) then ([], 3)
  else d.does s

def regionOf (i : Instr) : Option RegionDoes :=
  match i with
  | .regionOpen c op0 op1 op2 =>
    some { slot := c, zero := op1 = 0 && op2 = 0, rcb := none, does := fun s =>
      let rcb := op0.toNat
      let parent := s.parentOf rcb
      let level := s.rcbField parent 19 16 4 + 1
      if s.regionKnown rcb then ([], 1)
      else if s.rcbBad rcb then ([], 2)
      else if !(s.regionKnown parent && s.regionState parent = 1) || 15 < level then ([], 4)
      else if s.asnTaken rcb then ([], 5)
      else ([openRegion rcb level (s.emaxdOf rcb)], 0) }
  | .regionClose c op0 op1 op2 =>
    some { slot := c, zero := op1 = 0 && op2 = 0, rcb := some op0.toNat, does := fun s =>
      let rcb := op0.toNat
      if s.regionBusy rcb || s.sys.regions.any (fun r => s.parentOf r = rcb) then ([], 1)
      else ([putRcbField rcb 19 0 2 0, modSys fun y => { y with regions := y.regions.filter (· ≠ rcb) }], 0) }
  | .regionPrio c op0 op1 op2 =>
    some { slot := c, zero := field op1 4 60 = 0 && op2 = 0, rcb := some op0.toNat,
           does := fun _ => ([putRcbField op0.toNat 1 60 4 (field op1 0 4)], 0) }
  | .regionDeadline c op0 op1 op2 =>
    some { slot := c, zero := op2 = 0, rcb := some op0.toNat,
           does := fun _ => ([putRcbWord op0.toNat 7 op1.toNat, putRcbField op0.toNat 19 2 1 0], 0) }
  | .regionBudget c op0 op1 op2 =>
    some { slot := c, zero := field op1 3 61 = 0 && field op1 0 3 < 6 && field op2 32 32 = 0, rcb := some op0.toNat,
           does := fun _ => ([putRcbField op0.toNat (10 + field op1 0 3) 0 32 (field op2 0 32), rescanAll], 0) }
  | .regionPreempt c op0 op1 op2 =>
    some { slot := c, zero := field op1 1 63 = 0 && op2 = 0, rcb := some op0.toNat, does := fun s =>
      let t := s.did (putRcbField op0.toNat 19 0 2 3)
      (putRcbField op0.toNat 19 0 2 3 :: t.knownCores.flatMap fun k =>
        ((t.core k).teams.filter fun u => t.under u.rcb op0.toNat).map fun u =>
          laterOnce (.preemption k (BitVec.ofNat 16 u.tag) (op1.getLsbD 0)), 0) }
  | .regionResume c op0 op1 op2 =>
    some { slot := c, zero := op1 = 0 && op2 = 0, rcb := some op0.toNat,
           does := fun _ => ([putRcbField op0.toNat 19 0 2 1, rescanAll], 0) }
  | .regionKill c op0 op1 op2 =>
    some { slot := c, zero := op1 = 0 && op2 = 0, kill := true, rcb := some op0.toNat, does := fun s =>
      let t := s.did (putRcbField op0.toNat 19 0 2 2)
      (putRcbField op0.toNat 19 0 2 2 :: (t.knownCores.flatMap fun k =>
        ((t.core k).teams.filter fun u => t.under u.rcb op0.toNat && (!u.exiting || u.waitch)).map (fun u => killTeam k u.tag 34) ++
        ((t.core k).preempted.filter fun p => t.under p.team.rcb op0.toNat).map (fun p => killPreempted k p.team.tag 34)) ++
        [rescanAll, settleClosing], 0) }
  | _ => none

/-- The operations of an epoch: the effective priorities, level by level, then the missed deadlines (R396, R397). -/
def State.epochWork (s : State) : List (M Unit) :=
  ((List.range 16).flatMap fun level =>
    (s.sys.regions.filter fun r => s.rcbField r 19 16 4 = level).map fun r => do
      let t ← get
      putRcbField r 19 4 4 (t.epOf s.ranked r)) ++
  ((s.ranked.filter fun r => s.rcbWord r 7 < s.clk.toNat && s.rcbField r 19 2 1 = 0).flatMap fun r =>
    [putRcbField r 19 2 1 1, bumpRcb r 17 true, postEvent (s.domainOf r) 4 0 0 (BitVec.ofNat 64 (s.rcbWord r 7))]) ++
  [rescanAll]

/-! Teams (15_work.md R401 to R414). -/

def teamEvents (i : Instr) : Option Happening :=
  match i with
  | .epoch => some { leaves := fun s => s.didAll s.epochWork }
  | .placement core =>
    some { leaves := fun s =>
      let t := s.did (dispatchTasks core)
      if t.sys.retired.contains core then t else t.did (scan core (t.candidates core)) }
  | .teamStart core tag =>
    let starting (s : State) : Option Team :=
      ((s.core core).team tag.toNat).bind fun t => if !t.started && !t.exiting then some t else none
    let first (t : Team) : Rec := t.records.headD { arg := 0, sender := 0, tag := 0, depth := 0, issuer := none }
    let arg (t : Team) : W64 := if t.merge then BitVec.ofNat 64 t.records.length else (first t).arg
    let uniforms (s : State) (t : Team) : State :=
      s.onCore core fun c =>
        let u1 := if 1 ≤ t.uniforms then Store.set 0 c.uni (512 * t.half) ((arg t).setWidth 32) else c.uni
        { c with uni := if 2 ≤ t.uniforms && !t.merge then Store.set 0 u1 (512 * t.half + 1) ((arg t).extractLsb' 32 32) else u1 }
    let threads (s : State) (t : Team) : State :=
      (List.range t.slots.length).foldl (fun u i => u.onCtx ⟨core, .slot (t.slots.getD i 0)⟩ fun _ =>
        threadCtx t.tag false t.entry [(1, arg t), (2, BitVec.ofNat 64 i), (3, (first t).sender.setWidth 64)] t.segs
          (t.mode0.setWidth 32)) s
    let waves (s : State) (t : Team) : State :=
      t.frames.foldl (fun u f =>
        let active := decide ((u.core core).activeWaves < 8) && (u.core core).readyq.isEmpty
        let place := if active then Place.active else .ready
        let v := if active then u else u.onCore core fun c => { c with readyq := c.readyq ++ [(s.clk.toNat, f.1)] }
        (v.onCtx ⟨core, .frame f.1⟩ fun _ => waveCtx t.tag t.entry t.segs (t.mode0.setWidth 32) place).did
          (swapSync ⟨core, .frame f.1⟩)) s
    let begun (s : State) (t : Team) : State :=
      waves ((threads ((uniforms s t).onTeam core t.tag fun t => { t with started := true }) t).did (startAcquire core)) t
    some {
      leaves := fun s => match starting s with
        | some t => (begun s t).did (dispatchTasks core)
        | none => s }
  | .exit core tag =>
    let work (s : State) : List (M Unit) :=
      match (s.core core).team tag.toNat, (s.core core).leaving.find? (·.tag = tag.toNat) with
      | some t, _ => if t.exiting && s.exitReady core t then [leave core t, signal core t] else []
      | none, some t => [signal core t]
      | none, none => []
    some {
      leaves := fun s => match (s.core core).team tag.toNat with
        | some t => if t.exiting && !s.exitReady core t then s.dueAt (s.clk.toNat + 1) (.exit core tag) else s.didAll (work s)
        | none => s.didAll (work s) }
  | .childCompletion core tag =>
    some { leaves := fun s =>
      let gid := s.globalId core
      let r : TaskRec := { entry := 0, arg0 := tag.setWidth 64, arg1 := 0, sender := gid, launch := 0, kind := 4 }
      let h : Hdr := { src := gid, dst := gid, seq := 0, good := true, reinj := false }
      match (s.core core).boundTag tag.toNat with
      | .team t =>
        let u := s.onTeam core t fun t => { t with children := t.children - 1 }
        match (u.core core).team t with
        | some x => if x.exiting then u.pendsOnce (.exit core (BitVec.ofNat 16 t)) else u
        | none => u
      | .nowhere => s.did (lateArrival core)
      | .away => s.did (parkFlit core h (.task r) (.task h r)) }
  | .preemption core tag urgent =>
    let n := tag.toNat
    let lead : Bool := core % 2 = 0
    let here := leaderOf core
    let mine (pair : Bool) : M (Option (Nat × Nat)) := preemptReady core n urgent pair
    let its (tag2 : Nat) : M (Option (Nat × Nat)) := preemptReady (buddy core) tag2 urgent (!lead)
    let got (s : State) (m : M (Option (Nat × Nat))) : Option (Nat × Nat) := (s.gives m).getD none
    let stopping (s : State) (b : Bool) : State := s.did (modPair here fun p => { p with stopping := b })
    -- tried again, but for a team that exits, whose pair goes on
    let again (s : State) : State :=
      match (s.core core).team n with
      | none => s
      | some t =>
        if t.exiting then
          if (s.pairOf core n).isSome then ((stopping s false).did (stepSoon here)).pendsOnce (.drainComplete here) else s
        else if urgent || !((s.core core).hoop.defers s.clk.toNat) then
          s.dueAt (s.clk.toNat + 1) (.preemption core (BitVec.ofNat 16 n) urgent)
        else s
    -- a pair within a K-block stops at its end first
    let stopped (q : MatPair) (s : State) (save : State → State) : State :=
      if q.queue.any fun c => c.cycles ≠ 0 then again (stopping s true)
      else (save s).onCore here fun c => { c with pair := none }
    some { leaves := fun s =>
      match s.pairOf core n with
      | none =>
        match got s (mine false) with
        | some a => (s.did (mine false)).did (saveTeam core n a.1 a.2 none none)
        | none => again (s.did (mine false))
      | some q =>
        let pr : Option MatPair := some { q with stopping := false }
        match (s.core (buddy core)).half.bind fun h => ((s.core (buddy core)).team h.team).map (·.tag) with
        | some tag2 =>
          let t := s.did (mine lead)
          let u := t.did (its tag2)
          match got s (mine lead), got t (its tag2) with
          | some a, some b => stopped q u fun u =>
              let v := u.did (saveTeam core n a.1 a.2 (if lead then pr else none) (some tag2))
              let b' := (got v (its tag2)).getD b
              (v.did (its tag2)).did (saveTeam (buddy core) tag2 b'.1 b'.2 (if lead then none else pr) (some n))
          | _, _ => again u
        | none =>
          let t := s.did (mine true)
          match got s (mine true) with
          | some a => stopped q t fun t =>
              let away := (t.core (buddy core)).half.map (·.team)
              (t.did (saveTeam core n a.1 a.2 pr away)).onCore (buddy core) fun c =>
                { c with preempted := c.preempted.map fun p =>
                    if some p.team.tag = away then { p with partner := some n } else p }
          | none => again t }
  | .resumption core tag =>
    let work (s : State) : List (M Unit) :=
      match (s.core core).preempted.find? (·.team.tag = tag.toNat) with
      | none => [resumeOn core tag.toNat]
      | some p =>
        if !s.canReturn core p || s.regionHeld p.team.rcb then []
        else match s.partnerOf core p with
          | some q =>
            [restoreTeam core p, restoreTeam (buddy core) q, resumeOn (buddy core) q.team.tag, resumeOn core tag.toNat]
          | none => [restoreTeam core p, resumeOn core tag.toNat]
    some { leaves := fun s => s.didAll (work s) }
  | _ => none

/-! The host link, management, trust, power and bring-up (19_system.md; 01_package.md R22, R23). -/

/-- A firmware command, unless one is running: its result is set, and its completion comes (R477). -/
def State.firmware (s : State) (f : Firmware → Firmware × BitVec 4) : State :=
  if s.sys.fw.busy then s
  else (s.onSys fun y => { y with fw := { (f y.fw).1 with busy := true, result := (f y.fw).2 } }).pendsOnce .fwctlComplete

/-- The alternatives of a power request: accepted for run, for off, and for retention of an empty running module (R479). -/
def State.requestsPower (s : State) (n : Nat) : State :=
  if n = 2 ∧ ¬(s.sys.power = 0 ∧ !s.anyTeam) then s else
  let t := s.onSys fun y => { y with wanted := some n }
  if n = 0 ∧ s.sys.power = 2 then t.dueAt (s.clk.toNat + 3800000) .powerStateReached
  else if n = 0 ∧ s.sys.power = 3 then t
  else t.pendsOnce .powerStateReached

def managementEvents (i : Instr) : Option Happening :=
  match i with
  | .powerReqRun => some { leaves := fun s => s.requestsPower 0 }
  | .powerReqRetention => some { leaves := fun s => s.requestsPower 2 }
  | .powerReqOff => some { leaves := fun s => s.requestsPower 3 }
  | .powerStateReached =>
    some { leaves := fun s => match s.sys.wanted with
      | none => s
      | some n =>
        let t := if n = 2 then s.retain else if n = 3 then s.powerOff else s
        (t.onSys fun y => { y with power := n, wanted := none }).vector 6 }
  | .powerLoss duringFlash =>
    some { leaves := fun s =>
      if duringFlash then s.coldStart.onSys fun y => { y with fw := { y.fw with valid := false } } else s.coldStart }
  | .idleGate cluster =>
    some { leaves := fun s => if s.idle cluster then s.onCluster cluster fun k => { k with gated := true } else s }
  | .retire g =>
    some { leaves := fun s => match s.localCore g with
      | some k =>
        if (s.core k).busy then s
        else s.onSys fun y => { y with retired := y.retired.filter (· ≠ k) ++ [k], retiredMap := y.retiredMap.filter (· ≠ k) ++ [k] }
      | none => s }
  | .retireUndo g =>
    some { leaves := fun s => match s.localCore g with
      | some k => if s.sys.life = 0 then s.onSys fun y => { y with retiredMap := y.retiredMap.filter (· ≠ k) } else s
      | none => s }
  | .unitFailure cluster slice =>
    some { leaves := fun s => (s.onSys fun y =>
      if y.fault.getLsbD 63 then y
      else { y with fault := BitVec.ofNat 64 (2 ^ 63 + cluster % 4096 * 4 + (if slice then 2 else 1)) }).vector 3 }
  | .lifecycleAdvance target =>
    some { leaves := fun s =>
      let key := Store.bytes s.sys.attest 0xF000 64
      if lifeMove s.sys.fuse.toNat target.toNat ∧ ¬(target = 2 ∧ key.all (· = 0)) then
        (s.onSys fun y => { y with fuse := target, ownerKey := if target = 2 then key else y.ownerKey }).vector 5
      else s.onSys fun y => { y with lifeErr := true } }
  | .tokenNonce nonce =>
    let n := (nonce ++ List.replicate 32 0).take 32
    some { leaves := fun s =>
      (s.onSys fun y => { y with nonce := some n, tstat := 1, attest := Store.putBytes y.attest 0x8000 n }).vector 5 }
  | .tokenSubmit _ _ signatureOk =>
    some { leaves := fun s =>
      let t := Store.bytes s.sys.attest 0x9000 128
      let expiry : W64 := BitVec.ofNat 64 (bytesAt t 120 8)
      let ok := tokenForm t && s.sys.tokenKeys && signatureOk && s.sys.nonce = some ((t.drop 64).take 32) &&
        decide (s.clk.toNat < expiry.toNat)
      let asns := (List.range (bytesAt t 96 1)).map fun i => BitVec.ofNat 12 (bytesAt t (98 + 2 * i) 2)
      if s.sys.life ≠ 2 then s.onSys fun y => { y with tstat := 4 }
      else if ok then
        ((s.onSys fun y => { y with nonce := none, tstat := 2, token := some { asns := asns, expiry := expiry } }).dueAt
          expiry.toNat .tokenExpiry).vector 5
      else (s.onSys fun y => { y with nonce := none, tstat := 3 }).vector 5 }
  | .tokenRevoke => some { leaves := fun s => s.onSys System.lapse }
  | .tokenExpiry =>
    some { leaves := fun s => match s.sys.token with
      | some t => if t.expiry.toNat ≤ s.clk.toNat then s.onSys System.lapse else s
      | none => s }
  | .fwBegin arg len =>
    let n := 1024 * arg.toNat + len.toNat
    some { leaves := fun s => s.firmware fun f =>
      if n = 0 || 67108864 < n || 1023 < len.toNat then (f, 2)
      else ({ f with staged := [], stagedLen := 0, begun := some n }, 0) }
  | .fwChunk arg len =>
    some { leaves := fun s => s.firmware fun f => match f.begun with
      | none => (f, 1)
      | some n =>
        let to_ := f.stagedLen + len.toNat
        if 1024 * arg.toNat ≠ f.stagedLen then (f, 1)
        else if len = 0 || 1048576 < len.toNat || n < to_ || (to_ ≠ n && len.toNat % 1024 ≠ 0) then (f, 2)
        else ({ f with staged := Store.putBytes f.staged f.stagedLen (Store.bytes f.window 0 len.toNat), stagedLen := to_ }, 0) }
  | .fwCommit verdict flashOk =>
    some { leaves := fun s => s.firmware fun f =>
      if f.begun ≠ some f.stagedLen then (f, 1)
      else match s.sys.verdict (decide (verdict ≠ .signature)) with
        | .key => (f, 3)
        | .signature => (f, 4)
        | .version => (f, 5)
        | .ok =>
          if flashOk then
            ({ f with flash := f.staged, flashLen := f.stagedLen, valid := true, reboot := s.sys.fwwait }, 0)
          else ({ f with valid := false }, 6) }
  | .fwAbort => some { leaves := fun s => s.firmware fun f => ({ f with staged := [], stagedLen := 0, begun := none }, 0) }
  | .fwctlComplete =>
    some { leaves := fun s =>
      if s.sys.fw.busy then
        ((if s.sys.fw.reboot then s.coldStart else s).onSys fun y =>
          { y with fw := { y.fw with busy := false, fwst := s.sys.fw.result } }).vector 5
      else s }
  | .attestationRequest nonce drawn =>
    let n := (nonce ++ List.replicate 32 0).take 32
    some { leaves := fun s =>
      match s.sys.identity with
      | none => s
      | some d =>
        let e : Evidence :=
          { nonce := n, measurement := d.measured, life := BitVec.ofNat 3 s.sys.lifeNow,
            topo := (List.range Config.siteCount).map s.siteTopo, retired := s.sys.retiredMap, fault := s.sys.fault,
            token := s.sys.token.isSome, cert := d.cert, signature := [] }
        let signed : Evidence := { e with signature := Config.mldsaSign d.aliasPrivate e.message drawn }
        (s.onSys fun y => { y with evidence := some signed, attest := signed.answer y.attest }).vector 5 }
  | _ => none

/-- An error of memory or rows, counted; an uncorrectable one raises vector 4 (R485). -/
def State.softErrs (s : State) (uncorrectable : Bool) : State :=
  if uncorrectable then (s.onSys fun y => { y with uncorr := y.uncorr + 1 }).vector 4
  else s.onSys fun y => { y with corr := if y.corr = 0xFFFFFFFF then y.corr else y.corr + 1 }

/-- A host message to a core that exists enters the mesh at the host interface (R470, 12_mesh.md R319). -/
def State.hostSends (s : State) (core : GlobalId) (r : TaskRec) : State :=
  if (s.target (core.setWidth 64)).isNone then s else s.did (hostFlit core 6 (.task · r))

/-- A record for the host enters the ring, in arrival order, or waits while the ring is full (R470). -/
def State.hostGets (s : State) (r : TaskRec) : State :=
  if s.sys.ring.length < 64 ∧ s.sys.hostWait = [] then (s.onSys fun y => { y with ring := y.ring ++ [r] }).vector 1
  else s.onSys fun y => { y with hostWait := y.hostWait ++ [r] }

/-- What a write of the host's window leaves (R470, R476): the oldest record of the ring released, and the oldest that waits
in its place; bytes staged, or of the attestation buffer; an entry of the MSI-X table, a vector that is masked no more
pending no more. -/
def State.bar2Written (s : State) (off : Nat) (v : W64) : State :=
  if 0x1000 ≤ off && off < 0x2000 then
    let t := s.onSys fun y => { y with ring := y.ring.drop 1 }
    match t.sys.hostWait with
    | r :: rest =>
      if t.sys.ring.length < 64 then (t.onSys fun y => { y with ring := y.ring ++ [r], hostWait := rest }).vector 1 else t
    | [] => t
  else if 0x10000 ≤ off && off < 0x110000 then
    s.onSys fun y => { y with fw := { y.fw with window := Store.putBytes y.fw.window (off - 0x10000) (natToBytes 8 v.toNat) } }
  else if 0x200000 ≤ off && off < 0x210000 then
    s.onSys fun y => { y with attest := Store.putBytes y.attest (off - 0x200000) (natToBytes 8 v.toNat) }
  else if 0x3F0000 ≤ off && off < 0x3F0080 then
    s.onSys fun y =>
      let y1 := { y with msixTable := Store.putBytes y.msixTable (off - 0x3F0000) (natToBytes 8 v.toNat) }
      { y1 with msixPend := y.msixPend &&& (List.range 8).foldl (fun m n => if y1.masked n then m ||| BitVec.ofNat 8 (2 ^ n) else m) 0 }
  else s

def linkEvents (i : Instr) : Option Happening :=
  match i with
  | .hostActiveMessage core entry arg0 arg1 =>
    let r : TaskRec := { entry := entry, arg0 := arg0, arg1 := arg1, sender := hostId, launch := 0, kind := 2 }
    some { leaves := fun s =>
      if s.sys.up then s.hostSends core r
      else if s.sys.power ≠ 3 && s.sys.doorbell.length < 64 then s.onSys fun y => { y with doorbell := y.doorbell ++ [(core, r)] }
      else s }
  | .hostMessageRing r =>
    some { leaves := fun s => s.hostGets r }
  | .task h r =>
    some {
      when := fun _ => h.dst = hostId,
      leaves := fun s =>
        if h.good && letsIn s.sys.hostRecov h (.task h r) then
          (if s.sys.hostRecov.isEmpty then s else s.onSys fun y => { y with hostRecov := letIn y.hostRecov h (.task h r) }).hostGets r
        else s.did (hostAccept h (.task h r)) }
  | .directoryWindowRead => some { leaves := fun s => s.onSys fun y => { y with dirLatch := s.dirEntry y.dirSel } }
  | .registerWrite host addr v =>
    some { leaves := fun s =>
      if addr < 2 ^ 24 then match ctrlReg (addr / 8 * 8) with
        | some r => s.did (ctrlWrite host r 0xFF v)
        | none => s
      else if host then s.bar2Written ((addr - 2 ^ 24) / 8 * 8) v else s }
  | .patrolScrub found =>
    some { leaves := fun s => found.foldl (fun t e =>
      (if e.2 && !t.poison.contains e.1 then { t with poison := e.1 :: t.poison } else t).softErrs e.2) s }
  | .rowScrub core row bad =>
    some { leaves := fun s => match bad with
      | none => s
      | some u => (if u then s.onCore core fun c => c.putTag row (c.tag row ||| 0x00800000) else s).softErrs u }
  | .bringUp failed found =>
    let ready (s : State) : Bool :=
      !s.sys.up && !s.sys.fault.getLsbD 63 && (s.sys.power = 0 || (s.sys.power = 3 && s.sys.wanted = some 0))
    some { leaves := fun s =>
      let t := s.onSys fun y => { y with life := y.fuse, power := 0, retired := y.retiredMap, fwwait := !y.fw.valid }
      if !ready s then s
      else if !s.sys.fw.valid then t
      else
      let t : State := { t with sys := { t.sys with identity := some t.derive } }
      if s.sys.fuse = 4 then
        { t with mem := t.mem.filter (fun e => tier2 e.1), homes := [], sram := [], here := { t.here with rows := [] },
                 cores := t.cores.foldl (fun m k => Store.set Core.reset m k.1 { k.2 with rows := [] }) [] }
      else
        let u := (List.range 12).foldl (fun v n => v.onSite n fun t => { t with topoMesh := found.mods })
          (t.onSys fun y => { y with cxl := portDecoders found.cxl })
        match failed with
        | some x => u.did (noteFailure x.1 x.2)
        | none => u.did finishBringUp }
  | _ => none

/-! A clause and its words (02_clauses.md R24, R26, R29). -/

/-- The buffer of a clause whose word at index i after the header is `word (i + 1)`, and the header `word 0`. -/
def bufOf (word : Nat → W64) (ready : Bool) : Buf :=
  { header := word 0, words := (List.range (headerCount (word 0) + 1)).map fun i => word (i + 1), ready := ready }

/-- A context that takes a clause into its buffer. -/
def Ctx.fetched (c : Ctx) (word : Nat → W64) : Ctx :=
  c.modCur fun p => { p with buf := some (bufOf word (pcIndex p.pc ≠ 0)), refetch := false }

/-- A word of a clause is read through the TLB's one entry for it, which permits execution, from memory at home, unpoisoned,
past caches that hold nothing of its line; no owner's row holds it or its frame's record. -/
structure FetchesAt (s : State) (e : Tlb) (va : Nat) : Prop where
  bound : va + 8 ≤ 2 ^ 57
  hit : e ∈ (s.cluster (clusterOf s.hereId)).tlb
  only : ∀ x ∈ (s.cluster (clusterOf s.hereId)).tlb,
    tlbHit (s.domAsn s.myDomain) (s.inFine s.hereId (s.domAsn s.myDomain) va) va false x = true ↔ x = e
  ex : e.ex = true
  home : ∀ j, j < 8 → s.forwarded (tlbAddr e va + j) = none ∧ s.coherent (tlbAddr e va + j) = true
  record : ∀ b, heatByte (tlbAddr e va) b → s.forwarded b = none
  good : Place1.poisoned s (.phys (tlbAddr e va) 0 8) = false
  uncached : cacheFind s.here.cclause clauseGeo (tlbAddr e va / 64) = none ∧
    cacheFind (s.cluster (clusterOf s.hereId)).iCache iGeo (tlbAddr e va / 64) = none

/-! What statements say of the tables. -/

/-- Every event of a table has its effect. -/
def Happens (table : Instr → Option Happening) : Prop :=
  ∀ i s h, table i = some h → h.when s = true → exec i s = .next (h.leaves s)

/-- A step by the instruction `i` of the context that holds the turn in `q`: nothing keeps it from its turn, and its clause
is in its buffer with that instruction's word next. -/
structure Issues (q : State) (w : W64) (i : Instr) : Prop where
  may : q.mayTurn = true
  awake : q.me.yielded = false
  trapping : q.me.trapping = none
  quiet : q.withSlot.interruptDue = false
  joined : q.withSlot.me.curSlot.waiting = false
  inWindow : q.withSlot.me.lookaheadOut = none
  buffer : ∃ b, q.withSlot.me.curSlot.buf = some b ∧ b.ready = true
  word : q.withSlot.me.nextWord = some w
  decoded : decodeTableWord 64 w.toNat = some i

/-- What follows an outcome of a turn. -/
def thenTurn (o : Host.Outcome State Fault Refusal) : Host.Outcome State Fault Refusal :=
  match o with
  | .next t => t.afterTurn
  | .fault f => .fault f
  | .refused r => .refused r

end Sys2Proof.Machine
end

