-- ==== Sys2Proof/Certificates/Slice0/Obligations.lean ====
section
/-! DEFINITION. The statements about the model, from the numbered rules of the specification. -/

open Sys2Proof Sys2Proof.Machine

/-- Each instruction of the scalar and uniform integer group with an immediate result (ADD, SUB, ADDI, MUL, MULH,
MINMAX, AND, OR, XOR, ANDN, SHL, SHR, ROT, BFX, BFI, POPC, CLZ, CTZ, BREV, LEA, MAD, SXT, HASH, MOVI, MOVH, MOV,
CMP, ISWIN, SEL, ADDC, CVTA), issued by a ready context on operands that are registers, immediates and specials,
answers a next state in which the destination holds the result that its rule gives, extended by its type, and the pc
has gone on. Every other register, every special register, all of memory, and every other context, core, cluster
record, site and pending event is as before (but for the counters of the issue). CVTA.tovirt is taken inside its
segment's limit. Constructors: add, sub, addi, mul, mulh, minmax, and, or, xor, andn, shl, shr, rot, bfx, bfi, popc,
clz, ctz, brev, lea, mad, sxt, hash, movi, movh, mov, cmp, iswin, sel, addc, cvta. (04_registers.md R89,
04_registers.md R95, 04_registers.md R101, 04_registers.md R102, 04_registers.md R103, 04_registers.md R104,
04_registers.md R105, 04_registers.md R106) -/
def Obligations.ScalarIntegerResults : Prop :=
  ∀ i e s, intEffect i = some e → Ready e.req s → Plain e.req s → s.flows → intRuns i s (issOf e.req s) = true →
    Completes i s fun t => Writes s t (e.writes s)

/-- Each instruction of the vector integer group (VADD, VSUB, VMUL, VMAD, VMINMAX, VLOG, VSH, VMOV, VCMP, VSEL, VBCAST,
VSHUF, VRED, VBALLOT, VPOPC) and VPACK and VUNPK, issued by a ready context on operands that are registers,
immediates and specials, answers a next state in which the lanes acted on hold the results of their rules, lanes not
acted on keep their values, and the pc has gone on. Nothing else changes but the counters of the issue and the power
window. Constructors: vadd, vsub, vmul, vmad, vminmax, vlog, vsh, vmov, vcmp, vsel, vbcast, vshuf, vred, vballot,
vpopc, vpack, vunpk. (04_registers.md R94, 04_registers.md R109, 04_registers.md R110, 04_registers.md R111,
06_scratchpad.md R181, 01_package.md R19) -/
def Obligations.VectorIntegerResults : Prop :=
  ∀ i e s, vecEffect i = some e → Ready e.req s → Plain e.req s → s.flows → Completes i s fun t => Writes s t (e.writes s)

/-- VFADD, VFSUB, VFMUL, VFMA, VFMINMAX, VFCMP, VFCLASS, VCVT, FADD, FMUL, FFMA, FMINMAX, FCMP and FCVT, issued by a
ready context on operands that are registers, immediates and specials, answer a next state in which the destination
holds the rounded results of the lanes acted on, the flags that these raised are added to MODE and to the cluster's
HIST, and the pc has gone on. Nothing else changes but the counters of the issue and the power window. Constructors:
vfadd, vfsub, vfmul, vfma, vfminmax, vfcmp, vfclass, vcvt, fadd, fmul, ffma, fminmax, fcmp, fcvt. (05_lanes.md R118,
05_lanes.md R125, 05_lanes.md R128, 05_lanes.md R131, 05_lanes.md R132, 05_lanes.md R133, 05_lanes.md R135,
05_lanes.md R137) -/
def Obligations.FloatingPointResults : Prop :=
  ∀ i e s, fpEffect i = some e → Ready e.req s → Plain e.req s → s.flows → Completes i s fun t => Writes s t (e.writes s)

/-- DIV, REM, FDIV, FSQRT, VFDIV, VFSQRT, VFRCP, VFRSQ, VFEXP2, VFLOG2, VFSIN and VFCOS, issued by a ready context on
operands that are registers, immediates and specials, answer a next state in which no register has changed, the
results are outstanding under a lookahead window of the word's count, with the unit whose order they keep, older
outstanding results are still owed, and the pc has gone on. A division by zero is no trap: DIV gives all ones and
REM the dividend. Nothing else changes but the counters of the issue and the power window. Constructors: div, rem,
fdiv, fsqrt, vfdiv, vfsqrt, vfrcp, vfrsq, vfexp2, vflog2, vfsin, vfcos. (02_clauses.md R40, 02_clauses.md R41,
04_registers.md R103, 05_lanes.md R128, 05_lanes.md R136) -/
def Obligations.LongLatencyResults : Prop :=
  ∀ i la e s, longEffect i = some (la, e) → Ready e.req s → Plain e.req s → s.flows →
    Completes i s fun t => WritesLater s t la.toNat false (e.writes s) (lateUnit i)

/-- For every instruction of the four groups above and any operands it may name: when no watchpoint matches what its
streams touch, its push checks pass and its pops leave state u (the popped elements in the operand latch, each name
popped once), the instruction computes its results in u, a popped operand reading as the element popped; performing
them, pushes included, leaves w; and the answer is w with the books of the issue and the pc gone on. For operands
that are no queue and no stream u is the state before and w differs from it in registers alone. (04_registers.md
R97, 04_registers.md R99, 04_registers.md R100) -/
def Obligations.QueueAndStreamForms : Prop :=
  ∀ i e s u w, (intEffect i = some e ∨ vecEffect i = some e ∨ fpEffect i = some e) → Ready e.req s →
    s.me.watchMatch (s.streamTouches (issOf e.req s) e.req.dsts) = none → (∀ d ∈ e.req.dsts, Does (pushChecks (issOf e.req s) d) s () s) →
    Does (popSources (issOf e.req s)) s () u → intRuns i u (issOf e.req s) = true →
    Does ((e.puts u (issOf e.req s)).forM (Put.perform (issOf e.req s))) u () w →
    w.me.grant = false → w.flows → exec i s = .next (w.after e.req s.me.tok)

/-- BRA, BRI, CALL and RET, issued by a ready barrel thread, or by a ready wave with a guard uniform in its slot and its
other slot free, answer the next state in which the issuing slot stands at index 0 of its target header (after the
loop-end check there), with the return stack that the rule gives: unchanged for BRA and BRI, the clause after the
CALL's own pushed by CALL, the top entry popped by RET. BRI's lanes agree on a target below 2^57, CALL has fewer
than 8 entries on its stack and RET has an entry to pop (in a handler, one above the depth saved in TCAUSE).
Constructors: bra, bri, call, ret. (03_contexts.md R75, 03_contexts.md R76, 03_contexts.md R61, 03_contexts.md R56,
16_traps.md R423) -/
def Obligations.TransfersOfControl : Prop :=
  ∀ i j s, jumpOf i = some j → Ready j.req s → Plain j.req s → j.runs s (issOf j.req s) = true →
    (s.me.isWave = false ∨ (s.actLanes j.req = s.me.curSlot.mask ∧ s.me.otherSlot.live = false)) →
    let u : State := { s with me := s.me.modCur fun p => { p with rstk := j.stack s (issOf j.req s) } }
    u.reaches (j.target s (issOf j.req s)) →
    exec i s = .next (u.sentTo j.req s.me.tok (j.target s (issOf j.req s)))

/-- BRA, BRI, CALL and RET, issued outside a handler by a ready wave for some but not all lanes of its slot, with no
loop end at either place: where the other slot is live its state is pushed as the top stack entry and dsp grows by 1
(dsp is below 4). The lanes acted on are then in the other slot, at index 0 of the target, with the copied return
stack pushed or popped; the other lanes stay in the issuing slot, past the instruction; both have DEPTH + 1. No
register and no byte of memory changes. A wait of the other slot goes with it. In a handler, and where the other
slot is live and dsp is already 4, the transfer takes the DIVERGE trap, cause 5, from the state before it, with no
effect of its own. (03_contexts.md R61, 03_contexts.md R64, 03_contexts.md R75, 03_contexts.md R76, 16_traps.md
R423, 16_traps.md R418) -/
def Obligations.SplitOfWave : Prop :=
  (∀ i j s, jumpOf i = some j → Ready j.req s → Plain j.req s → j.runs s (issOf j.req s) = true → s.me.isWave = true →
    s.me.handler = false → s.actLanes j.req ≠ s.me.curSlot.mask → s.me.cur ≤ 1 →
    (s.me.otherSlot.live = true → s.me.dsp < 4) →
    (s.me.lc.1 = 0 ∧ s.me.lc.2 = 0) →
    Completes i s fun t =>
      let p := s.me.curSlot
      t.me.slots = s.me.pairOf
        ({ p with mask := p.mask &&& ~~~(s.actLanes j.req), depth := p.depth + 1 } : PcSlot).past
        { (p.at_ (j.target s (issOf j.req s))) with
          live := true, mask := s.actLanes j.req, depth := p.depth + 1, rstk := j.stack s (issOf j.req s) } ∧
      t.me.cur = s.me.cur ∧ t.me.dsp = s.me.dsp + (if s.me.otherSlot.live then 1 else 0) ∧
      t.here.rows = (if s.me.otherSlot.live then
        Store.putBytes s.here.rows (s.stackOff s.me.dsp + 0) s.me.otherSlot.discard.packEntry else s.here.rows) ∧
      (t.me.x, t.me.v, t.me.p, t.me.mode, t.here.uni) = (s.me.x, s.me.v, s.me.p, s.me.mode, s.here.uni) ∧ t.mem = s.mem) ∧
  (∀ i j s, jumpOf i = some j → Ready j.req s → Plain j.req s → j.runs s (issOf j.req s) = true → s.me.isWave = true →
    s.actLanes j.req ≠ s.me.curSlot.mask →
    (s.me.handler = true ∨ (s.me.otherSlot.live = true ∧ 4 ≤ s.me.dsp)) →
    exec i s = (raiseTrap { cause := 5 } false (s.actLanes j.req)).toOutcome s)

/-- LOOP of a ready context outside a handler, in a clause of n instructions. With an end not more than n + 1 words on
it takes ILLEGAL-INSTRUCTION; with a longer one, in a wave that has two slots in use or a stack that is not empty
(its guard uniform) it takes DIVERGE. Else its level's start becomes the next sequential clause, its end CP + imm
words, its count a[31:0], whatever the level held, and the context goes on at the next index, or at the end header
where the count is 0. Nothing else changes. (03_contexts.md R77) -/
def Obligations.LoopSetsItsLevel : Prop :=
  ∀ (g : Guard) (level : Bool) (a : Opnd) (imm : BitVec 28) (s : State),
    let r : Req := { guard := g, form := notInHandler, ok := fun s => s.ctlSrcOk a, srcs := [a] }
    let n := s.me.curSlot.count + 1
    let count : W32 := (s.sval (issOf r s) false a).setWidth 32
    let fin := wordsFrom s.me.curSlot.pc (imm.signExtend 64)
    let u : State := { s with me := putLoop level (wordsFrom s.me.curSlot.pc (BitVec.ofNat 64 (n + 1))) fin count s.me }
    Ready r s → Plain r s → (s.me.isWave = true → s.actLanes r = s.me.curSlot.mask) →
    (imm.toInt ≤ (n : Int) + 1 →
      exec (.loop g level a imm) s = (raiseTrap { cause := 1 } false (s.actLanes r)).toOutcome s) ∧
    ((n : Int) + 1 < imm.toInt → s.me.isWave = true → (1 < s.me.live ∨ s.me.dsp ≠ 0) →
      exec (.loop g level a imm) s = (raiseTrap { cause := 5 } false (s.actLanes r)).toOutcome s) ∧
    ((n : Int) + 1 < imm.toInt → (s.me.isWave = true → s.me.live ≤ 1 ∧ s.me.dsp = 0) →
      (if count = 0 then u.reaches fin else u.flows) →
      exec (.loop g level a imm) s = .next (if count = 0 then u.sentTo r s.me.tok fin else u.after r s.me.tok))

/-- For a context that is not in a handler and not diverged, arriving at a header where level 1 is active and ends: the
count falls by 1, and where it is not then 0 the context stands at the level's start. Where level 1 does not end
there or has run out, the same is done for level 0. Where neither level ends there, the context stands at the header
with both counts as before. LBRK at an active level, outside a handler, and in a wave with a uniform guard and one
slot in use, sets the level's count to 0 and goes to the level's end with index 0. At a level that is not active it
takes ILLEGAL-INSTRUCTION, cause 1. (03_contexts.md R78, 03_contexts.md R79, 03_contexts.md R62, 16_traps.md R423) -/
def Obligations.LoopEndsAndBreaks : Prop :=
  (∀ (c : Ctx) (a : W64), c.handler = false → c.diverged = false →
    (c.lc.2 ≠ 0 → pcAddr c.le.2 = pcAddr a → c.lc.2 ≠ 1 →
      c.arrived a = (({ c with lc := (c.lc.1, c.lc.2 - 1) } : Ctx).modCur fun p => (p.at_ a).at_ c.ls.2, false)) ∧
    (c.lc.2 ≠ 0 → pcAddr c.le.2 = pcAddr a → c.lc.2 = 1 → (c.lc.1 = 0 ∨ pcAddr c.le.1 ≠ pcAddr a) →
      c.arrived a = (({ c with lc := (c.lc.1, 0) } : Ctx).modCur fun p => p.at_ a, false)) ∧
    ((c.lc.2 = 0 ∨ pcAddr c.le.2 ≠ pcAddr a) → c.lc.1 ≠ 0 → pcAddr c.le.1 = pcAddr a → c.lc.1 ≠ 1 →
      c.arrived a = (({ c with lc := (c.lc.1 - 1, c.lc.2) } : Ctx).modCur fun p => (p.at_ a).at_ c.ls.1, false)) ∧
    (c.lc.2 ≠ 0 → pcAddr c.le.2 = pcAddr a → c.lc.2 = 1 → c.lc.1 ≠ 0 → pcAddr c.le.1 = pcAddr a → c.lc.1 ≠ 1 →
      c.arrived a = (({ c with lc := (c.lc.1 - 1, 0) } : Ctx).modCur fun p => (p.at_ a).at_ c.ls.1, false)) ∧
    (c.noLoopEnd a → c.arrived a = (c.modCur fun p => p.at_ a, false))) ∧
  ∀ g level s,
    let r : Req := { guard := g, form := notInHandler }
    let fin := if level then s.me.le.2 else s.me.le.1
    let u : State := { s with me := if level then { s.me with lc := (s.me.lc.1, 0) } else { s.me with lc := (0, s.me.lc.2) } }
    Ready r s →
    ((if level then s.me.lc.2 else s.me.lc.1) ≠ 0 →
      (s.me.isWave = true → s.actLanes r = s.me.curSlot.mask ∧ s.me.live ≤ 1 ∧ s.me.dsp = 0) → u.reaches fin →
      exec (.lbrk g level) s = .next (u.sentTo r s.me.tok fin)) ∧
    ((if level then s.me.lc.2 else s.me.lc.1) = 0 →
      exec (.lbrk g level) s = (raiseTrap { cause := 1 } false (s.actLanes r)).toOutcome s)

/-- JOIN of a ready barrel thread, or of a ready wave with a uniform guard whose issuing slot has DEPTH 0, goes to its
target. Where the other slot is its partner (live, of its DEPTH, not 0), waits at the same target with an equal
return stack, and the stack is empty, slot 0 stands at the target with the union of the masks and DEPTH - 1 and slot
1 is free. Where the partner in the other slot does not wait, the issuing slot waits with that target and the turn
passes to the other slot. (03_contexts.md R62, 03_contexts.md R63) -/
def Obligations.JoinGoesOnWaitsOrMerges : Prop :=
  ∀ g off s,
    let r : Req := { guard := g }
    let p := s.me.curSlot
    let o := s.me.otherSlot
    let a := pcAddr p.pc + 8 * off.signExtend 64
    Ready r s → s.me.cur ≤ 1 → (s.me.isWave = true → s.actLanes r = p.mask) →
    ((s.me.isWave = false ∨ p.depth = 0) → s.reaches a → exec (.join g off) s = .next (s.sentTo r s.me.tok a)) ∧
    (s.me.isWave = true → p.depth ≠ 0 → o.live = true → o.depth = p.depth → o.waiting = true → pcAddr o.jpc = pcAddr a →
      o.rstk = p.rstk → s.me.dsp = 0 →
      let merged : PcSlot := { (p.at_ a) with mask := p.mask ||| o.mask, depth := p.depth - 1 }
      let u : State := { s with me := ((((s.me.putSlot 0 merged).turnTo 0).putSlot 1 .reset).putProg 1 Progress.none) }
      u.reaches a → exec (.join g off) s = .next (u.sentTo r s.me.tok a)) ∧
    (s.me.isWave = true → p.depth ≠ 0 → o.live = true → o.depth = p.depth → o.waiting = false →
      Completes (.join g off) s fun t =>
        t.me.slots = s.me.pairOf { p with waiting := true, jpc := a } o ∧ t.me.cur = 1 - s.me.cur ∧
        (t.me.x, t.me.v, t.me.p, t.me.mode, t.me.lc) = (s.me.x, s.me.v, s.me.p, s.me.mode, s.me.lc) ∧
        t.here.rows = s.here.rows ∧ t.mem = s.mem)

/-- NOP only goes on. WAITB goes on where no more sealed batches than t are open, of the context or of its team, and
else waits for the Shuttle. WAITC goes on where no matrix operation of its team is open (flag 0), a message is in
the team's ring and the next check is due (flag 1), and no load of the context is outstanding (flag 2); it waits for
an outstanding load, then for a matrix operation, then for the cycle of its next check; each of these is a wait on
another agent. YIELD ends the clause and gives up the context's next turn. PARK ends the clause where one of its
wake conditions holds or its limit has passed. (02_clauses.md R27, 03_contexts.md R71, 03_contexts.md R81,
03_contexts.md R83, 03_contexts.md R84, 10_shuttle.md R280) -/
def Obligations.WaitsAndHints : Prop :=
  (∀ g s, Ready { guard := g } s → s.flows → exec (.nop g) s = .next (s.after { guard := g } s.me.tok)) ∧
  (∀ g team t s, Ready { guard := g } s → s.flows →
    exec (.waitb g team t) s =
      if (if team then s.teamBatches else s.here.openBatches s.me) ≤ t.toNat then .next (s.after { guard := g } s.me.tok)
      else .next (s.waitsFor .shBatch { agent := true })) ∧
  (∀ (g : Guard) (flags : BitVec 4) (s : State), Ready { guard := g } s → s.flows →
    (flags.getLsbD 2 = true → s.loadsOpen = false) → (flags.getLsbD 0 = true → s.matrixOpen = false) →
    (flags.getLsbD 1 = true → s.pollWaits = false ∧ s.messageHere = true) →
    exec (.waitc g flags) s = .next (s.after { guard := g } s.me.tok)) ∧
  (∀ (g : Guard) (flags : BitVec 4) (s : State), Ready { guard := g } s →
    (flags.getLsbD 2 = true → s.loadsOpen = true → exec (.waitc g flags) s = .next (s.waitsFor .loadOp { agent := true })) ∧
    ((flags.getLsbD 2 = true → s.loadsOpen = false) → flags.getLsbD 0 = true → s.matrixOpen = true →
      exec (.waitc g flags) s = .next (s.waitsFor .matrixBusy { agent := true })) ∧
    ((flags.getLsbD 2 = true → s.loadsOpen = false) → (flags.getLsbD 0 = true → s.matrixOpen = false) →
      flags.getLsbD 1 = true → s.pollWaits = true → exec (.waitc g flags) s = .next (s.waitsFor .poll { agent := true }))) ∧
  (∀ g s, Ready { guard := g } s → s.reaches s.me.nextHeader →
    let t := s.sentTo { guard := g } s.me.tok s.me.nextHeader
    exec (.yield g) s = .next { t with me := { t.me with yielded := true } }) ∧
  (∀ g a b s,
    let r : Req := { guard := g, ok := fun s => s.ctlSrcOk a && s.ctlSrcOk b, srcs := [a, b] }
    let u : State := { s with me := { s.me with parked := none } }
    Ready r s → Plain r s → (s.me.isWave = true → s.actLanes r = s.me.curSlot.mask) →
    (s.parkWakes (match s.me.parked with
      | some k => k.events
      | none => (s.sval (issOf r s) false a).setWidth 4) = true ∨
     (∃ k n, s.me.parked = some k ∧ k.limit = some n ∧ n ≤ s.clk.toNat)) → u.reaches s.me.nextHeader →
    exec (.park g a b) s = .next (u.sentTo r s.me.tok s.me.nextHeader))

/-- Each of NOP, WAITB, WAITC, YIELD, PARK and LBRK, ready to issue, answers a next state in which its context has gone
on and only the books of the issue have changed beside what is named: NOP always; WAITB with no more than t sealed
batches open, WAITC with flags whose matrix operations, messages and loads are not awaited or are there, both past
the instruction; YIELD at the next clause, with its next turn given up; PARK, awake by its events, at the next
clause, no longer parked; LBRK at an active level, outside a handler and undiverged, at the level's end with its
count 0. Constructors: nop, waitb, waitc, yield, park, lbrk. (02_clauses.md R27, 03_contexts.md R79, 03_contexts.md
R80, 03_contexts.md R81, 03_contexts.md R83, 03_contexts.md R84, 10_shuttle.md R280) -/
def Obligations.ControlInstructionsComplete : Prop :=
  ∀ (g : Guard) (s : State), let r : Req := { guard := g }
    Ready r s → (s.me.isWave = true → s.actLanes r = s.me.curSlot.mask) →
    (s.flows → exec (.nop g) s = .next (s.after r s.me.tok)) ∧
    (∀ team (n : BitVec 4), s.flows → (if team then s.teamBatches else s.here.openBatches s.me) ≤ n.toNat →
      exec (.waitb g team n) s = .next (s.after r s.me.tok)) ∧
    (∀ flags : BitVec 4, s.flows → (flags.getLsbD 2 = true → s.loadsOpen = false) →
      (flags.getLsbD 0 = true → s.matrixOpen = false) →
      (flags.getLsbD 1 = true → s.pollWaits = false ∧ s.messageHere = true) →
      exec (.waitc g flags) s = .next (s.after r s.me.tok)) ∧
    (s.reaches s.me.nextHeader → ∃ t, exec (.yield g) s = .next t ∧ t.me.yielded = true ∧
      t.me.curSlot.pc = (s.sentTo r s.me.tok s.me.nextHeader).me.curSlot.pc) ∧
    (∀ a b, let q : Req := { guard := g, ok := fun s => s.ctlSrcOk a && s.ctlSrcOk b, srcs := [a, b] }
      let u : State := { s with me := { s.me with parked := none } }
      Ready q s → Plain q s → s.me.parked = none → s.parkWakes ((s.sval (issOf q s) false a).setWidth 4) = true →
      u.reaches s.me.nextHeader → exec (.park g a b) s = .next (u.sentTo q s.me.tok s.me.nextHeader)) ∧
    (∀ level, let q : Req := { guard := g, form := notInHandler }
      let u : State := { s with me := { s.me with
        lc := if level then (s.me.lc.1, 0) else (0, s.me.lc.2) } }
      Ready q s → s.me.handler = false → (if level then s.me.lc.2 else s.me.lc.1) ≠ 0 →
      (s.me.isWave = true → s.me.live ≤ 1 ∧ s.me.dsp = 0) → u.reaches (if level then s.me.le.2 else s.me.le.1) →
      exec (.lbrk g level) s = .next (u.sentTo q s.me.tok (if level then s.me.le.2 else s.me.le.1)))

/-- QUIT of a ready wave for some of the lanes of its slot removes them from the mask and goes on with the others. QUIT
of a ready barrel thread, or of every lane of a ready wave that has one slot in use and an empty stack, ends the
context after the issue is booked: its slot or frame is left free. (03_contexts.md R85, 15_work.md R408) -/
def Obligations.QuitEndsLanesAndContexts : Prop :=
  (∀ g s, Ready { guard := g } s → s.me.isWave = true → s.me.curSlot.mask &&& ~~~(s.actLanes { guard := g }) ≠ 0 →
    let u : State := { s with me := s.me.modCur fun p => { p with mask := p.mask &&& ~~~(s.actLanes { guard := g }) } }
    u.flows → exec (.quit g) s = .next (u.after { guard := g } s.me.tok)) ∧
  (∀ g s q, Ready { guard := g } s → s.seat = some q →
    (s.me.isWave = false ∨ (s.actLanes { guard := g } = s.me.curSlot.mask ∧ s.me.otherSlot.live = false ∧ s.me.dsp = 0)) →
    Completes (.quit g) s fun t =>
      t.me.present = false ∧ t.mem = s.mem ∧ t.here.uni = s.here.uni ∧
      ∀ k, k ≠ seatIndex q → Store.get .blank t.here.ctxs k = Store.get .blank s.here.ctxs k)

/-- KACC, KCLR, KRND, KSTAT (on an accumulator that no drain is bound for), RDMODE, WRMODE (of a value whose SBW code is
valid) and the paired words (whose halves do not meet under MODE.STRICT), issued by a ready context on operands that
are registers, immediates and specials, with the conditions met that its rule puts on the state and the values,
answer the next state in which the accumulator and its status bits are as the rule says (each lane's product or
value added exactly, cleared, read with or without clearing), MODE has changed in the bits of WRMODE's mask, half B
of a paired word has taken half A's result, a long half's result is outstanding, flags raised are added, and the pc
has gone on. Nothing else changes but the books of the issue. Constructors: kacc, kclr, krnd, kstat, rdmode, wrmode,
pairI, pairF, pairIF. (05_lanes.md R126, 05_lanes.md R137, 05_lanes.md R139, 05_lanes.md R140, 05_lanes.md R144,
05_lanes.md R145, 02_clauses.md R45, 04_registers.md R113, 04_registers.md R114) -/
def Obligations.AccumulatorsModeAndPairedWords : Prop :=
  Performs arithOps

/-- LD, LDC, LDLOD, VLD, VLDS, ST, VST, VSTS, ATOM, CAS, VATOM, PREF, RBUMP, RSNAP, FENCE, PFENCE and POLL (of a word
that no longer holds the value), issued by a ready context on operands that are registers, immediates and specials,
with the conditions met that its rule puts on the state and the values (their accesses granted, every address
translating or forwarded, the levels of a release or an acquire going through), answer the next state in which the
bytes stored are stored, the loaded value, extended by its type, is outstanding in the destination under the word's
lookahead with LDLOD's status, an atomic has replaced the word by its operation's result and returned what it held,
and the pc has gone on. Nothing else changes but the books of the issue. Constructors: ld, ldc, st, atom, cas,
ldlod, pref, rbump, rsnap, fence, pfence, poll, vld, vst, vlds, vsts, vatom. (07_addresses.md R203, 07_addresses.md
R202, 08_residency.md R232, 06_scratchpad.md R176, 06_scratchpad.md R177, 06_scratchpad.md R178, 06_scratchpad.md
R179, 07_addresses.md R208, 09_sharing.md R255, 09_sharing.md R256, 03_contexts.md R82, 03_contexts.md R81) -/
def Obligations.LoadsStoresAndAtomics : Prop :=
  Performs memoryOps

/-- SBIND, SUNB and SCFG in its three forms, issued by a ready context on operands that are registers, immediates and
specials, with the conditions met that its rule puts on the state and the values (the descriptor's 32 bytes granted
and legal, its array aligned), answer the next state in which the register is bound to the descriptor with its
position at the first element, or unbound with its elements discarded, or in which the route tag is as given; the
register's own value is untouched and the pc has gone on. Nothing else changes but the books of the issue.
Constructors: sbind, scfgBind, sunb, scfgUnbind, scfgRtag. (04_registers.md R97, 04_registers.md R107,
06_scratchpad.md R180) -/
def Obligations.StreamBinding : Prop :=
  Performs streamOps

/-- MPAIR of the leader and of the follower, MREL, MCFG, MMA, MDRAIN into rows and into accumulators, and MSTAT in its
kinds, issued by a ready context on operands that are registers, immediates and specials, with the conditions met
that its rule puts on the state and the values (the half arrays held, the blocks reachable, accumulators not full),
answer the next state in which the pair is joined or left, the configuration word is set, the k-blocks and drains
asked for are queued, or the status asked for is in the destination, and the pc has gone on. Nothing else changes
but the books of the issue. Constructors: mpairLead, mpairFollow, mrel, mcfg, mma, mdrain, mdrainKacc, mstat.
(11_matrix.md R311, 11_matrix.md R312, 11_matrix.md R313, 11_matrix.md R314, 11_matrix.md R306, 11_matrix.md R307,
11_matrix.md R309, 11_matrix.md R317) -/
def Obligations.MatrixUnit : Prop :=
  Performs matrixOps

/-- CPYW, CPYGO, SHKICK, SEAL, CPYQ, CPYX, BARI, BARA, BARW, BARS in its four forms, LDFE, STFE and FEQ in its three
forms, issued by a ready context on operands that are registers, immediates and specials, with the conditions met
that its rule puts on the state and the values (a barrier complete, a word full or empty as the instruction needs
it: else the thread waits), answer the next state in which the descriptor words and commands of the Shuttle, the
barrier object or the word with its full/empty bit are as the rule says, the answer is in the destination, and the
pc has gone on. Nothing else changes but the books of the issue. Constructors: cpyw, cpygo, shkick, seal, cpyq,
cpyx, bari, bara, barsInit, barsArrive, barsWait, barsSync, barw, ldfe, stfe, feqTest, feqFill, feqDrain.
(10_shuttle.md R272, 10_shuttle.md R280, 10_shuttle.md R283, 10_shuttle.md R284, 10_shuttle.md R289, 10_shuttle.md
R290, 10_shuttle.md R291, 06_scratchpad.md R182, 06_scratchpad.md R183, 06_scratchpad.md R184) -/
def Obligations.ShuttleAndSynchronisation : Prop :=
  Performs shuttleOps

/-- SPAWN in its task and launch forms, MSEND, MRECV, KSEND, RACFG in its four forms, QCFG in its six forms, CALLAT,
RETM and AMSG, issued by a ready context on operands that are registers, immediates and specials, with the
conditions met that its rule puts on the state and the values (rights held, credits to be had, targets that exist),
answer the next state in which the task or the message is on its way with its arguments, the message received is in
the destinations, the routes and the queue registers are configured as the rule says, the answer is in the
destination, and the pc has gone on. Nothing else changes but the books of the issue. Constructors: spawn,
spawnLaunch, msend, mrecv, ksend, racfgBin, racfgUnbin, racfgRoute, racfgQuery, qcfgIn, qcfgOut, qcfgRx, qcfgUnin,
qcfgUnout, qcfgUnrx, callat, retm, amsg. (12_mesh.md R336, 03_contexts.md R86, 12_mesh.md R339, 12_mesh.md R340,
12_mesh.md R342, 12_mesh.md R343, 12_mesh.md R344, 12_mesh.md R345, 12_mesh.md R346, 12_mesh.md R347, 12_mesh.md
R348, 15_work.md R410) -/
def Obligations.TasksMessagesAndQueues : Prop :=
  Performs networkOps

/-- RPOP in its three forms, RSEND, HSEND, XNODE, XTRI, TMAP, TLPIN and TLREP, issued by a ready context on operands
that are registers, immediates and specials, with the conditions met that its rule puts on the state and the values,
answer the next state in which the rays popped are in the destinations (outstanding under the word's lookahead), the
ray or hit record is on its way, the box and triangle tests' results are outstanding, the treelet's mapping, pin or
replica is as the rule says, and the pc has gone on. Nothing else changes but the books of the issue. Constructors:
rpop, rpopClaim, rpopRelease, rsend, hsend, xnode, xtri, tmapMap, tmapUnmap, tlpin, tlrepOffer, tlrepWithdraw.
(13_rays.md R365, 13_rays.md R367, 13_rays.md R368, 13_rays.md R369, 13_rays.md R370, 13_rays.md R373, 13_rays.md
R374, 13_rays.md R375, 13_rays.md R376) -/
def Obligations.RaysAndTreelets : Prop :=
  Performs raysOps

/-- XTILE, HOOPW in its five forms and HOOPR, issued by a ready context on operands that are registers, immediates and
specials, with the conditions met that its rule puts on the state and the values, answer the next state in which the
tile's pixels are tested and written as the rule says, the Hoop window is claimed, added to, cleared, released or
its state read, and the pc has gone on. Nothing else changes but the books of the issue. Constructors: xtile,
hoopwClaim, hoopwRelease, hoopwState, hoopwAdd, hoopwClear, hoopr. (14_raster.md R384, 14_raster.md R387,
14_raster.md R388) -/
def Obligations.RasterAndHoopWindow : Prop :=
  Performs rasterOps

/-- MFS, MTS, CCTL, BFMT, PGSEL, CLAMODE, TIERWM, CLOVF, CLOVFS, SEGW, SEGR, PGMAP in its five forms, TLBI, ICINV,
CTXSV, CTXLD, LDPHY, STPHY, CNTR, CNTCTL in its four forms and MARK, issued at the privilege that the instruction
needs, issued by a ready context on operands that are registers, immediates and specials, with the conditions met
that its rule puts on the state and the values, answer the next state in which the register, the segment, the frame
or table, the image, the counter or the mark is as the rule says, the value asked for is in the destination, and the
pc has gone on. Nothing else changes but the books of the issue. Constructors: mfs, mts, cctlWrite, bfmtWrite,
pgselWrite, clAmodeWrite, tierWmWrite, clOvfWrite, clOvfsRead, segw, segr, pgmapMap, pgmapUnmap, pgmapPin,
pgmapUnpin, pgmapDemote, tlbi, icinv, ctxsv, ctxld, ldphy, stphy, cntr, cntctlSel, cntctlEn, cntctlClr, cntctlUclr,
mark. (16_traps.md R436, 16_traps.md R439, 16_traps.md R440, 16_traps.md R441, 16_traps.md R442, 16_traps.md R443,
16_traps.md R444, 07_addresses.md R213, 07_addresses.md R211, 08_residency.md R220, 12_mesh.md R328, 18_debug.md
R469) -/
def Obligations.SystemAndDebugGroups : Prop :=
  Performs systemOps

/-- For every instruction of the nine tables above and any operands it may name: when its push checks pass, its pops
leave state u (the popped elements in the operand latch, each name popped once), no watchpoint matches what the
streams touch, and its conditions hold in u, the instruction takes its effect on u, a popped operand reading as the
element popped; performing its results, pushes included, leaves v; results that land later are outstanding; and the
answer is that state with the books of the issue and the pc gone on. (04_registers.md R97, 04_registers.md R99,
04_registers.md R100) -/
def Obligations.UnitQueueAndStreamForms : Prop :=
  PerformsAny arithOps ∧ PerformsAny memoryOps ∧ PerformsAny streamOps ∧ PerformsAny matrixOps ∧ PerformsAny shuttleOps ∧
    PerformsAny networkOps ∧ PerformsAny raysOps ∧ PerformsAny rasterOps ∧ PerformsAny systemOps

/-- An instruction that no comparator holds and that fails a check of R46 takes the trap of the first one that fails, in
the order ILLEGAL-INSTRUCTION (cause 1), PRIVILEGE (the trap of its group), ILLEGAL-OPERAND (cause 2), also when its
guard is false in every lane: the trap is taken from the state before the instruction, which has no other effect.
(02_clauses.md R46, 16_traps.md R420, 16_traps.md R437) -/
def Obligations.ChecksTakeTheirTrap : Prop :=
  (∀ i r s t, reqOf i s = some r → s.unhindered → s.checkTrap r = some t →
    exec i s = (raiseTrap t r.paired (s.trapLanes r)).toOutcome s) ∧
  (∀ (s : State) (r : Req), s.checkTrap r =
    if s.classOk r = false ∨ r.form s = false then some { cause := 1 }
    else if s.me.supervisor = false ∧ r.priv.isSome then r.priv
    else if r.ok s = false then some { cause := 2 } else none)

/-- Any instruction word of an opcode group (BKPT has a statement of its own) whose guard register is not outstanding
(nor a uniform write to it) and false in every lane of the issuing slot, and which passes the checks of R46 and, if
it counts there, the power window, answers the next state in which its context has gone on past it: registers,
memory, units and the mesh are as before, no lookahead window is opened, no outstanding result is landed, and only
the books of an issue are kept. (02_clauses.md R35, 02_clauses.md R41) -/
def Obligations.GuardFalseIsNoOp : Prop :=
  ∀ i r s, reqOf i s = some r → s.me.breakMatch = none → strictPair i s = false → s.checkTrap r = none →
    s.metBy r.guardRegs = [] → s.uniOwed r.guardRegs = false → (r.counted = true → s.here.nv + s.here.nm < 320) →
    s.actLanes r = 0 → s.me.grant = false → s.flows → exec i s = .next (s.after r s.me.tok)

/-- An instruction whose guard register is outstanding, or that acts on some lane and would read or overwrite an
outstanding result, takes the STRICT trap, cause 4, detail 0, from the state before it, where one of the results
that it meets is in its lookahead window, MODE.STRICT is set, and the instruction has counted no violation yet. Else
it waits, for a load operand where a load's result is among them and for an arithmetic operand otherwise: nothing
changes but the results that it waits for, and the context's lookahead-violation counter, which is one higher where
a result was in its window and the instruction had counted none. With no such result, it waits for an arithmetic
operand while a uniform write of its context to one of its registers has not landed. A paired word in which a half
reads the destination of the other takes the STRICT trap, cause 4, with the pair-dependence detail, 1, where
MODE.STRICT is set, from the state before it: no half has written a register or a flag. (02_clauses.md R41,
02_clauses.md R45, 03_contexts.md R72) -/
def Obligations.OutstandingResultsInterlock : Prop :=
  (∀ i r s, reqOf i s = some r → s.unhindered → strictPair i s = false → s.checkTrap r = none → s.met r ≠ [] →
    (s.metBy r.guardRegs = [] → s.actLanes r ≠ 0) →
    let m := if s.metBy r.guardRegs = [] then s.met r else s.metBy r.guardRegs
    let violates := (m.any fun q => decide (0 < q.window)) && !s.me.prog.violated
    ((violates = true ∧ s.me.mode.getLsbD 13 = true →
      exec i s = (raiseTrap { cause := 4 } r.paired (s.trapLanes r)).toOutcome s) ∧
    (violates = false ∨ s.me.mode.getLsbD 13 = false →
      let u : State := { s with me := { s.me with
        lav := s.me.lav + (if violates then 1 else 0),
        prog := { s.me.prog with met := m.map Pend.tok, violated := s.me.prog.violated || violates } } }
      exec i s = .next (u.waitsFor (if m.any Pend.load then .loadOp else .arithOp))))) ∧
  (∀ i r s, reqOf i s = some r → s.unhindered → strictPair i s = false → s.checkTrap r = none → s.met r = [] →
    s.uniOwed (r.allRegs s.me.isWave) = true → (s.uniOwed r.guardRegs = true ∨ s.actLanes r ≠ 0) →
    exec i s = .next (s.waitsFor .arithOp)) ∧
  (∀ i r s, reqOf i s = some r → s.unhindered → s.checkTrap r = none → strictPair i s = true →
    exec i s = (raiseTrap { cause := 4, detail := 1 } true s.me.curSlot.mask).toOutcome s)

/-- An instruction that counts in the power window, issued on a core whose window has counted 320 vector issues and
matrix steps or more, waits: nothing changes but the core's counter of such cycles, and lost arbitration is
reported. (01_package.md R19, 01_package.md R20) -/
def Obligations.PowerCapHoldsVectorIssues : Prop :=
  ∀ i r s, reqOf i s = some r → s.unhindered → strictPair i s = false → s.checkTrap r = none → s.actLanes r ≠ 0 →
    s.met r = [] → s.uniOwed (r.allRegs s.me.isWave) = false → r.counted = true → 320 ≤ s.here.nv + s.here.nm →
    exec i s = .next ((s.did (bumpUnit s.hereId 3)).waitsFor .lostArb)

/-- A trap is taken at once where the other slot has no wait on another agent and no result is outstanding; else it
waits, the context reporting trap entry. Taking a trap in a handler kills with cause DOUBLE (33), and where TVEC.EN
= 0 with the trap's cause, the entry counted. Else the next state has tpc0 the trapping slot's PC, tpc1 the PC of
the other live slot, else 0, tcause the R424 word, whose TMODE is MODE[13:0], taddr the address, and tmask the
faulting lanes and the masks; the clause buffers of both slots are discarded, stream and queue bindings stand but
are suspended, MODE is 100H, and the trapping slot runs the faulting lanes at DEPTH 0 from TVEC.CP, INDEX 0, at
supervisor privilege. The other slot, the divergence stack, loop registers, return stacks, predicates, data
registers and memory are left as they are. (16_traps.md R421, 16_traps.md R422, 16_traps.md R423, 16_traps.md R424,
16_traps.md R428) -/
def Obligations.TrapEntry : Prop :=
  ∀ (t : Trap) (paired : Bool) (lanes : BitVec 16) (s : State), t.lanes = none → s.me.cur ≤ 1 →
    (s.settled → (raiseTrap t paired lanes).toOutcome s = (takeTrap t paired lanes).toOutcome s) ∧
    (¬ s.settled → (raiseTrap t paired lanes).toOutcome s = .next { s with me := { s.me with
      trapping := some { trap := t, paired := paired, lanes := lanes, slot := s.me.cur }, stall := .trapEntry } }) ∧
    (s.me.handler = true → (takeTrap t paired lanes).toOutcome s = (killMine 33).toOutcome (s.counted 0x17)) ∧
    (s.me.handler = false → s.here.tvec.getLsbD 63 = false →
      (takeTrap t paired lanes).toOutcome s = (killMine t.cause).toOutcome (s.counted 0x17)) ∧
    (s.vectored → s.me.stepping = none → s.me.halted = none →
      ∃ u, (takeTrap t paired lanes).toOutcome s = .next u ∧
        let c := u.me
        let fault : BitVec 16 := if s.me.isWave then lanes else 1
        let m0 : BitVec 16 := if s.me.slots.1.live then s.me.slots.1.mask else 0
        let m1 : BitVec 16 := if s.me.slots.2.live then s.me.slots.2.mask else 0
        c.tpc0 = s.me.curSlot.pc ∧ c.tpc1 = (if s.me.isWave ∧ s.me.otherSlot.live then s.me.otherSlot.pc else 0) ∧
        c.tcause = tcauseWord s.me t paired ∧ c.tcause.extractLsb' 32 14 = s.me.mode.extractLsb' 0 14 ∧
        c.taddr = t.addr ∧ c.tmask.extractLsb' 0 16 = fault ∧
        (s.me.isWave = true → c.tmask.extractLsb' 16 16 = m0 ∧ c.tmask.extractLsb' 32 16 = m1) ∧
        c.pend = s.me.pend ∧ c.slots.1.buf = none ∧ c.slots.2.buf = none ∧ c.mode = 0x100 ∧ c.handler = true ∧
        c.supervisor = true ∧ c.cur = s.me.cur ∧
        c.curSlot.mask = fault ∧ c.curSlot.depth = 0 ∧ c.curSlot.waiting = false ∧
        c.curSlot.pc = mkPc s.here.tvec 0 ∧ c.curSlot.rstk = s.me.curSlot.rstk ∧
        c.kept.map (fun k => (k.mask, k.depth, k.waiting)) =
          some (s.me.curSlot.mask, s.me.curSlot.depth, s.me.curSlot.waiting) ∧
        { c.otherSlot with buf := none, cclass := 0, ccount := 0, refetch := false } =
          { s.me.otherSlot with buf := none, cclass := 0, ccount := 0, refetch := false } ∧
        (∀ n, c.streamOf n = none) ∧ c.streams = s.me.streams ∧ (c.qi, c.qo) = (s.me.qi, s.me.qo) ∧
        (c.dsp, c.ls, c.le, c.lc) = (s.me.dsp, s.me.ls, s.me.le, s.me.lc) ∧
        (c.x, c.v, c.p) = (s.me.x, s.me.v, s.me.p) ∧ u.here.uni = s.here.uni ∧
        u.here.rows = s.here.rows ∧ u.mem = s.mem ∧ u.sram = s.sram)

/-- For a context whose slot number, return-stack depth and clause fields are in range, the word that trap entry puts
into tcause has CAUSE in bits 7:0, DETAIL in 15:8, zero in 16, IMPRECISE in 17, the trapping slot in 18, its return-
stack depth in 22:19, PAIRED in 23, the class and the COUNT of the trapped clause in 26:24 and 30:27 (zero at a
header), HEADER in 31, MODE[13:0] in 45:32 and zero in 63:46. (16_traps.md R424) -/
def Obligations.TrapCauseWord : Prop :=
  ∀ (c : Ctx) (t : Trap) (paired : Bool), c.cur ≤ 1 → c.curSlot.rstk.length ≤ 8 →
    let w := tcauseWord c t paired
    field w 0 8 = t.cause % 256 ∧ field w 8 8 = t.detail % 256 ∧ field w 16 1 = 0 ∧
    field w 17 1 = (if t.imprecise then 1 else 0) ∧ field w 18 1 = c.cur ∧ field w 19 4 = c.curSlot.rstk.length ∧
    field w 23 1 = (if paired then 1 else 0) ∧ field w 31 1 = (if t.header then 1 else 0) ∧
    (∀ b, c.curSlot.buf = some b → t.header = false →
      field w 24 3 = headerClass b.header % 8 ∧ field w 27 4 = headerCount b.header) ∧
    (t.header = true → field w 24 3 = 0 ∧ field w 27 4 = 0) ∧
    field w 32 14 = field c.mode 0 14 ∧ field w 46 18 = 0

/-- BKPT in a class D clause, its guard true, halts the context before it with cause 3 where BKHALT is set (its waits
abandoned, all else as it was), takes BREAKPOINT (cause 18) with DETAIL 4 and TADDR the code where it is not and the
context is in no handler, and only goes on in a handler. In a clause of another class it halts with cause 3 under
BKHALT and is ILLEGAL-INSTRUCTION without. A trap that goes to a handler answers a next state. (18_debug.md R462,
16_traps.md R423) -/
def Obligations.Breakpoint : Prop :=
  let halts (s : State) : State :=
    let t := s.did (do haltCtx (← myId) 3)
    { t with me := { t.me with stepping := none, stepWord := none } }
  (∀ (g : Guard) (code : Byte) s, let r : Req := { guard := g, cls := some 7 }
    Ready r s →
    (s.me.bkhalt = true → exec (.bkpt g code) s = .next (halts s)) ∧
    (s.me.bkhalt = false → s.me.handler = true → s.flows → exec (.bkpt g code) s = .next (s.after r s.me.tok)) ∧
    (s.me.bkhalt = false → s.me.handler = false →
      exec (.bkpt g code) s =
        (raiseTrap { cause := 18, detail := 4, addr := code.setWidth 64 } false (s.me.guardLanes g)).toOutcome s)) ∧
  (∀ g code s, s.unhindered → s.me.curSlot.cls ≠ 7 →
    exec (.bkpt g code) s =
      if s.me.bkhalt then .next (halts s)
      else (raiseTrap { cause := 1 } false (s.trapLanes { guard := g, cls := some 7 })).toOutcome s) ∧
  (∀ s q, s.seat = some q → s.me.halted = none → (halts s).me.halted = some 3) ∧
  (∀ t paired lanes s, s.vectored → (takeTrap t paired lanes).toOutcome s = .next (s.did (takeTrap t paired lanes)))

/-- TRET retry and skip of a ready context in a handler, its results landed, leave the handler: the trapping slot again
has the MASK, DEPTH and STATE that entry kept, its return stack is cut to RSD, MODE is TMODE, no clause buffer is
held, and the slot stands at tpc0 for retry (where no loop-end check waits to be made again) and at the index after
it for skip inside its clause. Data, predicate and loop registers, the other slot and memory are as before. TRET
kill, and skip of a trap reported at a header, kill with the trap's cause. (16_traps.md R427, 16_traps.md R420,
16_traps.md R423) -/
def Obligations.TrapReturn : Prop :=
  ∀ g s k, let r := sysReq g [] [] s.me.isWave
    Ready r s → s.me.handler = true → s.me.pend = [] → s.me.kept = some k → k.slot ≤ 1 →
    let left (t : State) (pc : W64) : Prop :=
      t.me.cur = k.slot ∧ t.me.curSlot.pc = pc ∧ t.me.curSlot.mask = k.mask ∧ t.me.curSlot.depth = k.depth ∧
      t.me.curSlot.waiting = k.waiting ∧ t.me.curSlot.buf = none ∧
      t.me.curSlot.rstk = (s.me.slot k.slot).rstk.drop ((s.me.slot k.slot).rstk.length - field s.me.tcause 19 4) ∧
      t.me.slot (1 - k.slot) = s.me.slot (1 - k.slot) ∧ t.me.handler = false ∧ t.me.kept = none ∧
      t.me.mode = (s.me.tcause.extractLsb' 32 14).setWidth 32 ∧ t.me.pend = [] ∧
      (t.me.x, t.me.v, t.me.p) = (s.me.x, s.me.v, s.me.p) ∧ t.here.uni = s.here.uni ∧
      (t.me.dsp, t.me.ls, t.me.le, t.me.lc) = (s.me.dsp, s.me.ls, s.me.le, s.me.lc) ∧
      t.here.rows = s.here.rows ∧ t.mem = s.mem
    ((k.check = false ∨ s.me.tpc0 ≠ k.pc) → Completes (.tretRetry g) s fun t => left t s.me.tpc0) ∧
    (s.me.tcause.getLsbD 31 = false → pcIndex s.me.tpc0 < field s.me.tcause 27 4 →
      Completes (.tretSkip g) s fun t => left t (mkPc s.me.tpc0 (pcIndex s.me.tpc0 + 1))) ∧
    (s.me.tcause.getLsbD 31 = true →
      exec (.tretSkip g) s = (killMine (field s.me.tcause 0 8)).toOutcome (s.booked r s.me.tok)) ∧
    exec (.tretKill g) s = (killMine (field s.me.tcause 0 8)).toOutcome (s.booked r s.me.tok)

/-- For a ready context on plain operands, with no watchpoint on the access and its address granted in the data rows of
a core: ST answers a next state in which the width's bytes at the address hold the data, lowest first, and every
other byte of every row, all of memory and every register are as before. LD and LDC leave all bytes and registers as
they are, with the bytes read outstanding in the destination under the word's lookahead. ATOM puts its operation's
result there and CAS the desired value where the bytes equal the expected one, else nothing; the old value is
outstanding (with ATOM's flags), and all else is as before. (06_scratchpad.md R160, 06_scratchpad.md R157,
07_addresses.md R188, 07_addresses.md R203, 07_addresses.md R204, 07_addresses.md R205, 07_addresses.md R206,
07_addresses.md R207) -/
def Obligations.ScratchpadAccesses : Prop :=
  ∀ (m : MemF) (s : State) (core off : Nat), m.width.toNat ≤ 4 →
    let n := widthSize m.width
    let old := s.rowNat core off n
    (RowAccess m (stReq m s) .store (s.addrOf (stReq m s) m false) s core off →
      Completes (.st m) s fun t =>
        RowsHold s t core (s.storeValue (stReq m s) m) n off ∧ t.mem = s.mem ∧ SameRegisters s t ∧ t.me.owes = s.me.owes) ∧
    (RowAccess m (ldReq m s) .load (s.addrOf (ldReq m s) m false) s core off → ∀ i, i = .ld m ∨ i = .ldc m →
      Completes i s fun t =>
        AddsResult s t m.la.toNat (s.addrOf (ldReq m s) m false) (s.loadWrites m.width m.data old) ∧
        RowsHold s t core 0 0 off ∧ t.mem = s.mem ∧ SameRegisters s t) ∧
    (RowAccess m (atomReq m s) .rmw (s.addrOf (atomReq m s) m true) s core off →
      let r := atomValue (m.off.extractLsb' 9 4).toNat (8 * n) s.me old (s.storeValue (atomReq m s) m)
      Completes (.atom m) s fun t =>
        AddsResult s t m.la.toNat (s.addrOf (atomReq m s) m true)
          (s.loadWrites m.width m.data old ++ (if r.2 = 0 then [] else [.flags r.2])) ∧
        RowsHold s t core r.1 n off ∧ t.mem = s.mem ∧ SameRegisters s t) ∧
    (RowAccess m (casReq m s) .rmw (s.addrOf (casReq m s) m false) s core off →
      let ops := (s.gives (casOperands (issOf (casReq m s) s) m.width m.data)).getD (0, 0)
      Completes (.cas m) s fun t =>
        AddsResult s t m.la.toNat (s.addrOf (casReq m s) m false) (s.casWrites m.width m.data old) ∧
        RowsHold s t core ops.2 (if old = ops.1 then n else 0) off ∧ t.mem = s.mem ∧ SameRegisters s t)

/-- For a ready context on plain operands, with no watchpoint on the access, through a segment and a translation the TLB
holds, in one sub-page, the bytes at home and in no replica of the core: ST answers a next state in which the
width's bytes at the physical address hold the data, lowest first, at their point of coherence, and every other byte
of memory, every row and every register are as before. LD and LDC, where their path's cache does not answer for a
line, leave the bytes outstanding in their destination. ATOM and CAS replace and return the bytes as on a row.
Besides, only the heat of the page's frame record may have changed. (A byte that its home slice holds CLEAN counts
as kept where memory has the same: a slice may put such a line out without writing it.) (07_addresses.md R188,
07_addresses.md R190, 07_addresses.md R194, 07_addresses.md R199, 07_addresses.md R204, 07_addresses.md R205,
07_addresses.md R206, 07_addresses.md R207, 09_sharing.md R240, 09_sharing.md R242, 09_sharing.md R245,
08_residency.md R221) -/
def Obligations.GlobalAccesses : Prop :=
  ∀ (m : MemF) (s : State) (va : Nat) (e : Tlb), m.width.toNat ≤ 4 →
    let n := widthSize m.width
    let pa := tlbAddr e va
    let old := bytesToNat (s.viaBytes (atPoc m) pa n)
    let rows (t : State) : Prop := ∀ c, (t.core c).rows = (s.core c).rows
    (GlobalAccess m (stReq m s) .store (s.addrOf (stReq m s) m false) s va e →
      Completes (.st m) s fun t =>
        Puts m pa (s.storeValue (stReq m s) m) n s t ∧ rows t ∧ SameRegisters s t ∧ t.me.owes = s.me.owes) ∧
    (∀ i p, (i = .ld m ∧ p = .ls) ∨ (i = .ldc m ∧ p = .const) →
      GlobalAccess m (ldReq m s) .load (s.addrOf (ldReq m s) m false) s va e →
      (∀ line ∈ linesOf pa n, s.pathAnswer (viaOf p m) line = none) →
      Completes i s fun t =>
        AddsResult s t m.la.toNat (s.addrOf (ldReq m s) m false) (s.loadWrites m.width m.data old) ∧ Puts m pa 0 0 s t ∧ rows t ∧ SameRegisters s t) ∧
    (GlobalAccess m (atomReq m s) .rmw (s.addrOf (atomReq m s) m true) s va e →
      let r := atomValue (m.off.extractLsb' 9 4).toNat (8 * n) s.me old (s.storeValue (atomReq m s) m)
      Completes (.atom m) s fun t =>
        AddsResult s t m.la.toNat (s.addrOf (atomReq m s) m true)
          (s.loadWrites m.width m.data old ++ (if r.2 = 0 then [] else [.flags r.2])) ∧
        Puts m pa r.1 n s t ∧ rows t ∧ SameRegisters s t) ∧
    (GlobalAccess m (casReq m s) .rmw (s.addrOf (casReq m s) m false) s va e →
      let ops := (s.gives (casOperands (issOf (casReq m s) s) m.width m.data)).getD (0, 0)
      Completes (.cas m) s fun t =>
        AddsResult s t m.la.toNat (s.addrOf (casReq m s) m false) (s.casWrites m.width m.data old) ∧
        Puts m pa ops.2 (if old = ops.1 then n else 0) s t ∧ rows t ∧ SameRegisters s t)

/-- The checks of one address, in their order: an aperture address that names no core, offset or row granted to the
context is an APERTURE fault (cause 8), one that is not naturally aligned ALIGNMENT (7); a global address without
the segment's rights is a SEGMENT-RIGHTS fault (9, DETAIL the segment), one beyond its limit a SEGMENT-LIMIT fault
(10, DETAIL the segment), a read-modify- write not naturally aligned, or an access across two pages, ALIGNMENT (7);
TADDR is the address. LD, LDC and ST of a ready context take such a trap for the lanes on which the guard is true,
from the state before them; LD and ST of an address whose translation fails take PAGE (11) with the walk's DETAIL
and the virtual address. (06_scratchpad.md R160, 06_scratchpad.md R161, 06_scratchpad.md R163, 06_scratchpad.md
R157, 07_addresses.md R188, 07_addresses.md R190, 07_addresses.md R192, 07_addresses.md R198, 16_traps.md R418) -/
def Obligations.AccessChecks : Prop :=
  (∀ (s : State) (a : W64) (n : Nat) (need : Need), 0 < n → n ≠ 64 →
    let sn := field a 61 3
    let o := field a 0 61
    let va := segBase (s.me.seg sn) + o
    s.precheck a n need =
      if field a 48 16 = 0xFFFF then
        match apertureTarget s.hereId a with
        | none => .error (0, { cause := 8, addr := a })
        | some (core, off) =>
          if core ∈ s.sys.retired ∨
              s.rowsAllowed s.myDomain s.me.supervisor core off n need.rowStore = false then .error (0, { cause := 8, addr := a })
          else if a.toNat % n ≠ 0 then .error (3, { cause := 7, addr := a })
          else .ok (.row core off)
      else if segRights (s.me.seg sn) s.me.supervisor need = false then .error (1, { cause := 9, detail := sn, addr := a })
      else if segLimit (s.me.seg sn) < o + n then .error (2, { cause := 10, detail := sn, addr := a })
      else if (need.natural = true ∧ va % n ≠ 0) ∨ va / 2 ^ 21 ≠ (va + n - 1) / 2 ^ 21 then
        .error (3, { cause := 7, addr := a })
      else .ok (.glob va)) ∧
  (∀ (m : MemF) (s : State) (i : Instr) (r : Req) (need : Need) (rank : Nat) (t : Trap),
    ((i = .ld m ∨ i = .ldc m) ∧ r = ldReq m s ∧ need = .load) ∨ (i = .st m ∧ r = stReq m s ∧ need = .store) →
    Accesses m r need (s.addrOf r m false) s →
    s.precheck (s.addrOf r m false) (widthSize m.width) need = .error (rank, t) →
    exec i s =
      (raiseTrap { t with lanes := none } false (s.actLanes r)).toOutcome s) ∧
  (∀ (m : MemF) (s : State) (i : Instr) (r : Req) (need : Need) (va d : Nat),
    (i = .ld m ∧ r = ldReq m s ∧ need = .load) ∨ (i = .st m ∧ r = stReq m s ∧ need = .store) →
    Accesses m r need (s.addrOf r m false) s →
    s.precheck (s.addrOf r m false) (widthSize m.width) need = .ok (.glob va) →
    va / 1024 = (va + widthSize m.width - 1) / 1024 →
    let walk := translateMine va (if need.wr then .write else .read)
    s.gives walk = some (.page d) →
    exec i s =
      (raiseTrap { cause := 11, detail := d, addr := BitVec.ofNat 64 va } false (s.actLanes r)).toOutcome (s.did walk))

/-- CLAUSE_FETCH, HEADER_WAIT, POWER_WINDOW, LOAD_RESULT, PROMOTION, SWAP_OUT, TRAP_ENTRY and INTERRUPT, under the
conditions on the state that the table names (a clause that is read; a buffer whose header's waits hold), answer the
next state in which: the clause is in the buffer; the header's wait has ended; the window's counts are 0; the result
has landed; the oldest ready wave is active and the next one follows; the wave that may leave is pending, its state
in its swap rows; the trap that waited has entered; the thread that ITGT names has taken INTERRUPT with TCMP 0.
Every other piece of state is as it was but for what those changes cause. Constructors: clauseFetch, headerWait,
powerWindow, loadResult, promotion, swapOut, trapEntry, interrupt. (02_clauses.md R26, 02_clauses.md R27,
01_package.md R19, 04_registers.md R91, 03_contexts.md R67, 03_contexts.md R68, 16_traps.md R421, 16_traps.md R426) -/
def Obligations.ClauseAndContextEvents : Prop :=
  Happens issueEvents

/-- Where the context that the event names may issue and one of its slots stands at a POLL, an RPOP or an MPAIR lead
(POLL_RETRY: whose check is due), POLL_RETRY, GATHER_TIMEOUT or MPAIR_LIMIT_EXPIRY has the effect of that
instruction in that slot, where it is ready on plain operands and its conditions hold: the answer is the next state
with the effect done, the pc of that slot gone on, and the turn with the context, and the issue with the slot, that
had it. So it is for POLL_RETRY with a WAITC or a header's waits that now end. Constructors: pollRetry,
gatherTimeout, mpairLimitExpiry. (03_contexts.md R71, 13_rays.md R369, 11_matrix.md R293) -/
def Obligations.RetriesRunTheirInstructionAgain : Prop :=
  (∀ i s c n j e, retryOf i s = some (c, n, .word j) →
    let u := s.atSlot c n
    memoryOps j u = some e ∨ raysOps j u = some e ∨ matrixOps j u = some e →
    Ready e.req u → Plain e.req u → e.runs u = true → (e.leaves u).me.grant = false → (e.leaves u).flows →
    exec i s = .next (s.slotBack c ((e.leaves u).after e.req u.me.tok))) ∧
  (∀ s c d n g flags, retryOf (.pollRetry c) s = some (d, n, .word (.waitc g flags)) →
    let u := s.atSlot c n
    Ready { guard := g } u → u.flows → (flags.getLsbD 2 = true → u.loadsOpen = false) →
    (flags.getLsbD 0 = true → u.matrixOpen = false) → (flags.getLsbD 1 = true → u.pollWaits = false ∧ u.messageHere = true) →
    exec (.pollRetry c) s = .next (s.slotBack c (u.after { guard := g } u.me.tok))) ∧
  (∀ s c d n h, retryOf (.pollRetry c) s = some (d, n, .header) → issueEvents .headerWait = some h →
    h.when (s.atSlot c n) = true → exec (.pollRetry c) s = .next (s.slotBack c (h.leaves (s.atSlot c n))))

/-- TRANSFER_START, ACK, COPY, RED, K_BLOCK_STEP, DRAIN_COMPLETE and HOOP_URGENT answer the next state in which: of the
queued transfers of a core with fewer than four running that nothing holds the earliest launched runs, and a running
one has sent its next line; an acknowledged line counts for its transfer; a line of copy or reduce data is stored or
combined at its destination and acknowledged; the pair's next K-block has one cycle more, where both cores have
credit, or is finished; the next drain has written its tile (ERR set instead where its set is poisoned); and the
claimant whose replay was deferred is pre-empted. ACK, COPY and RED that their destination's check does not take in
leave only what the check does with them. Constructors: transferStart, ack, copy, red, kBlockStep, drainComplete,
hoopUrgent. (10_shuttle.md R266, 10_shuttle.md R274, 10_shuttle.md R275, 10_shuttle.md R277, 11_matrix.md R306,
11_matrix.md R307, 14_raster.md R386) -/
def Obligations.TransferEvents : Prop :=
  Happens transferEvents

/-- A flit of type QDATA, MSG, KEY, RET, RAY, HIT or TASK, not a record for the host, that its destination's check takes
in is: counted as a late arrival where it is for nobody or its core is retired; parked where its team is away, where
an earlier flit for the same place is parked (unless it is one read back), or where there is no room; and otherwise
delivered: elements at the end of the queue, the message in the ring, the value combined in the bin, the return
value in its rows and full, the ray or hit in its queue, the record in the task queue, or the child counted. One
that the check does not take in leaves only what the check does with it. Constructors: qdata, msg, key, retArrival,
ray, hit, task. (12_mesh.md R321, 12_mesh.md R325, 12_mesh.md R327, 12_mesh.md R331, 12_mesh.md R333, 12_mesh.md
R334, 12_mesh.md R336, 12_mesh.md R337, 13_rays.md R356, 13_rays.md R357, 15_work.md R409) -/
def Obligations.ArrivalsAreDeliveredParkedOrLate : Prop :=
  ∀ i a s, arrivingOf i = some a → exec i s = .next (a.leaves s)

/-- DIRECTORY_LOOKUP, TREELET_PAGE_IN, HEAT_REPORT, HEAT_REPORT_ARRIVAL and ROUTE_CACHE_EXPIRY answer the next state in
which: an unknown treelet is answered with 5, a resident one with its holders, a cold one is paged in for the
lookups held (8 where 64 are held already); the page-in has pricked the owner's rows and answers the lookups, tries
again while a page is awaited, or answers 6; the core's arrival counts are on their way and 0; the treelet's heat is
the count and a replica may be offered; and the expired route is gone. Constructors: directoryLookup, treeletPageIn,
heatReport, heatReportArrival, routeCacheExpiry. (13_rays.md R359, 13_rays.md R360, 13_rays.md R361, 13_rays.md
R362, 13_rays.md R363) -/
def Obligations.TreeletEvents : Prop :=
  Happens treeletEvents

/-- MREQ, FORWARDED_ACCESS, MRESP, WALK_COMPLETE, MISS_QUEUE_RETRY, ROUND_NOTICE, REFRESH, PRICK_OWNER, PRICK_REPLICA
and UNPRICK_OWNER answer the next state in which: a request waits while its line changes hands, is passed to the
owner's core, or is served and answered; the answer has landed in the waiting context; the walk and every miss
merged into it have left their queue and the translation stands, or a refused miss is merged, queued or tried again
after 16 cycles; the watch registers of the counter hold the later round; and the range is pricked, refreshed or
released, or tried again in the next cycle while a page is awaited. Constructors: mreq, forwardedAccess, mresp,
walkComplete, missQueueRetry, roundNotice, refresh, prickOwner, prickReplica, unprickOwner. (09_sharing.md R246,
07_addresses.md R198, 07_addresses.md R200, 09_sharing.md R251, 09_sharing.md R252, 09_sharing.md R248,
09_sharing.md R249, 09_sharing.md R250) -/
def Obligations.HomeAndPrickEvents : Prop :=
  Happens homeEvents

/-- FILL, FIRST_TOUCH, DEMOTION, DRAIN, TIER1_DEMOTION, TIER_EXHAUSTED_RETRY, FRAME_STARVATION_TIMEOUT, HEAT_HALVING and
PICOT_FILTER_EXPIRY answer the next state in which: a frame is taken for the parked page and its leaf entry is
MOVING, or at the end the page is copied and its entry valid, and its old place is kept as backing or freed; missing
tables are made and a zeroed page is mapped and charged; the victim of a die below its high mark is closing, or the
host is told that the lower tier is exhausted and the engine tries again after 65,536 cycles; a closing page with no
access left is copied down and released; a tier-1 page is on its way to tier 2; what has starved beyond its region's
patience has its team killed with cause FRAMES; every HEAT of the die is halved; and filter entries 4,096 cycles old
are written to their ring. Constructors: fill, firstTouch, demotion, drain, tier1Demotion, tierExhaustedRetry,
frameStarvationTimeout, heatHalving, picotFilterExpiry. (08_residency.md R216, 08_residency.md R220, 08_residency.md
R221, 08_residency.md R222, 08_residency.md R223, 08_residency.md R224, 08_residency.md R225, 08_residency.md R226,
08_residency.md R229, 08_residency.md R236) -/
def Obligations.ResidencyEvents : Prop :=
  Happens residencyEvents

/-- CREDIT, WAITER_RETRY, PARK_LIMIT_EXPIRY, LOOKUP_RETRY, REINJECT, SELVEDGE_REPLAY, NACK, RECOVERY_EXPIRY and
FLIT_HOLD_EXPIRY answer the next state in which: every binding of the core's contexts to that queue has the credits;
the context's waiting accesses have been tried again; the core's pending waves whose wait is over are ready; a
directory lookup that was refused for a full table is on its way again; the oldest parked flit of each place is
offered to its core again, before what else waits; a link replays a flit 24 cycles later up to 3 times, and a fourth
failure marks the link, raises vector 3 and lets the flit arrive failed; the sender sends the named flit and every
later one it holds on that channel to that destination again, and a flit no longer held fails for good; a recovery
entry whose time is up is gone, its flit failed for good; and a held flit whose time is up is dropped. Constructors:
credit, waiterRetry, parkLimitExpiry, lookupRetry, reinject, selvedgeReplay, nack, recoveryExpiry, flitHoldExpiry.
(12_mesh.md R331, 06_scratchpad.md R172, 03_contexts.md R84, 13_rays.md R360, 12_mesh.md R322, 12_mesh.md R325,
12_mesh.md R327) -/
def Obligations.FlitAndWaitEvents : Prop :=
  Happens creditEvents ∧
    Happens recoveryEvents

/-- HALT, RESUME, STEP, STEPX, RDCTX, WRCTX, RDROW, WRROW, PATCH, START and STOP of any source answer a next state. A
core that does not exist or is retired, or a context that is not there, is answered NOTARGET; a command that the
power state and lifecycle forbid has the status of its level; reserved or illegal arguments are BADARG. Otherwise
the cluster is no longer gated (but at level O) and the command has its effect: the contexts of the scope halt or go
on, one instruction steps within its limit, the bytes of the context space or row are read or written, the word is
patched at its home and dropped from every clause cache, the launch record is armed or written out; and the Tchios
slot holds the status, the tag and the data. Constructors: halt, debugResume, step, stepx, rdctx, wrctx, rdrow,
wrrow, patch, start, stop. (18_debug.md R452, 18_debug.md R453, 18_debug.md R456, 18_debug.md R457, 18_debug.md
R458, 18_debug.md R459, 18_debug.md R460, 18_debug.md R461, 18_debug.md R463, 18_debug.md R467, 19_system.md R480,
19_system.md R484) -/
def Obligations.DebugCommands : Prop :=
  ∀ i d s, dbgOf i = some d → exec i s = .next (d.leaves s)

/-- CTRL, STEP_LIMIT_EXPIRY, LAUNCH_RECORD_ARM and LINK_GRID_SNAPSHOT answer the next state in which: the command that
the flit's opcode and arguments name has been performed and answered at its cluster (NOTARGET at another cluster, a
refusal for an opcode or scope that is none; where the arguments lie in the flit is the model's choice, log 37); a
step that has waited past its limit is halted with cause WAITED; a record whose cycle has come counts from now on;
and the snapshot of the links is written, or skipped and counted while the one before is on its way. Constructors:
ctrl, stepLimitExpiry, launchRecordArm, linkGridSnapshot. (18_debug.md R452, 18_debug.md R453, 18_debug.md R458,
18_debug.md R467, 18_debug.md R468) -/
def Obligations.CommandFlitsAndMeasurementEvents : Prop :=
  Happens measureEvents

/-- A region command of either slot performs its operations and answers the next state with DONE and its status in the
slot, vector 0 raised for the host: 6 before bring-up or on a failed module (KILL runs there), 7 where a bit that
must be zero is not, 3 for an unknown region, the statuses of OPEN and CLOSE in their order, and 0 with the region
opened, closed, given its priority, deadline or limit, held with its subtree's teams asked to go, resumed, or
closing with its subtree's teams killed with cause 34. Constructors: regionOpen, regionClose, regionPrio,
regionDeadline, regionBudget, regionPreempt, regionResume, regionKill. (15_work.md R393, 15_work.md R391, 15_work.md
R390, 19_system.md R472, 01_package.md R23) -/
def Obligations.RegionCommands : Prop :=
  ∀ i d s, regionOf i = some d →
    exec i s = .next ((s.didAll (d.work s).1).answered d.slot (d.work s).2)

/-- EPOCH, PLACEMENT, TEAM_START, EXIT, CHILD_COMPLETION, PREEMPTION and RESUMPTION answer the next state in which: the
effective priorities stand and missed deadlines are counted and posted; the task queue has been dispatched and the
placement queue scanned once; every context of the team has started with its registers as launched; the exit waits,
or has released what the team held and signalled its completion; the child is counted, late or parked; the team
(with its pair's other team) is saved and gone, or is tried again in the next cycle; and the team that fits is back
with its ranges and transfers. Constructors: epoch, placement, teamStart, exit, childCompletion, preemption,
resumption. (15_work.md R396, 15_work.md R397, 15_work.md R401, 15_work.md R405, 15_work.md R408, 15_work.md R409,
15_work.md R411, 15_work.md R412, 15_work.md R413, 03_contexts.md R87) -/
def Obligations.TeamEvents : Prop :=
  Happens teamEvents

/-- POWER_REQ run, retention and off, POWER_STATE_REACHED, POWER_LOSS, IDLE_GATE, RETIRE, RETIRE_UNDO, UNIT_FAILURE,
LIFECYCLE_ADVANCE, TOKEN_NONCE, TOKEN_SUBMIT, TOKEN_REVOKE, TOKEN_EXPIRY, FW begin, chunk, commit and abort,
FWCTL_COMPLETE and ATTESTATION_REQUEST answer the next state that the table gives: requests accepted or not by the
power state and the teams; retention and off with what they keep; an idle cluster gated; a core without teams or
pricked rows retired; the first failed unit named and vector 3; only the moves of LIFE that are legal; a token
accepted only in deployed-locked with its fields, its keys and its signature good; a firmware command's result set
unless one is running, each by its order and lengths; and evidence with every part named by the rule. Constructors:
powerReqRun, powerReqRetention, powerReqOff, powerStateReached, powerLoss, idleGate, retire, retireUndo,
unitFailure, lifecycleAdvance, tokenNonce, tokenSubmit, tokenRevoke, tokenExpiry, fwBegin, fwChunk, fwCommit, key,
fwAbort, fwctlComplete, attestationRequest. (19_system.md R473, 19_system.md R475, 19_system.md R477, 19_system.md
R478, 19_system.md R479, 19_system.md R481, 19_system.md R482, 19_system.md R483, 01_package.md R22, 01_package.md
R23) -/
def Obligations.ManagementEvents : Prop :=
  Happens managementEvents

/-- HOST_ACTIVE_MESSAGE, HOST_MESSAGE_RING, a TASK record for the host, DIRECTORY_WINDOW_READ, REGISTER_WRITE,
PATROL_SCRUB, ROW_SCRUB and BRING_UP answer the next state in which: the message is on its way, or held (at most 64)
until the module is up; the record is in the ring with vector 1, or tried again while 64 are there; the selected
directory entry is latched; the register or window of the host has the written value's effect; each error is
counted, an uncorrectable one poisons its atom or row and raises vector 4; and a module that may come up is up,
retired and zeroised, waiting for firmware, or has its failed unit named. Constructors: hostActiveMessage,
hostMessageRing, task, directoryWindowRead, registerWrite, patrolScrub, rowScrub, bringUp. (19_system.md R470,
19_system.md R471, 19_system.md R472, 19_system.md R473, 19_system.md R474, 19_system.md R485, 19_system.md R486) -/
def Obligations.HostLinkEvents : Prop :=
  Happens linkEvents

/-- CLAUSE_FETCH puts the header at CP × 8 and the COUNT + 1 words after it into the issuing slot's buffer, and the slot
waits on its fetch until its next turn. In split mode they are the words of the core's own scratchpad, and nothing
else changes. In unified mode they are the words in memory under the translation of each word, for words that the
TLB finds with the right to execute, at home, unpoisoned, and in no clause cache; and registers and rows stay as
they are. A header that is not legal for the context, or not the one that a refetch must find, is left out.
(02_clauses.md R24, 02_clauses.md R26, 02_clauses.md R31, 02_clauses.md R32, 02_clauses.md R33, 07_addresses.md
R211, 07_addresses.md R212) -/
def Obligations.ClauseFetchReadsTheClause : Prop :=
  ∀ (s : State) (word : Nat → W64) (e : Nat → Tlb), let va := s.me.clauseAt
    let n := headerCount (word 0) + 1
    let pa (k : Nat) : Nat := tlbAddr (e k) (va + 8 * k)
    let waits (c : Ctx) : Ctx := { c.fetched word with stall := .fetch }
    s.me.acceptsHeader (word 0) = true →
    (s.unified = false →
      (∀ k ≤ n, word k = BitVec.ofNat 64 (bytesToNat (s.rowBytes s.hereId (va + 8 * k) 8)) ∧
        va + 8 * k + 8 ≤ 0x18000 ∧ Place1.poisoned s (.row s.hereId (va + 8 * k) 8) = false) →
      exec .clauseFetch s = .next { s with me := waits s.me }) ∧
    (s.unified = true →
      (∀ k ≤ n, FetchesAt s (e k) (va + 8 * k) ∧ word k = BitVec.ofNat 64 (s.pocN (pa k) 8) ∧
        ∀ l ≤ n, ∀ j < 8, ¬ heatByte (pa l) (pa k + j)) →
      Completes .clauseFetch s fun t =>
        t.me = waits s.me ∧ (∀ c, (t.core c).rows = (s.core c).rows) ∧ t.here.uni = s.here.uni)

/-- Where the next input gives a context its turn (or the turn's own context goes on), nothing keeps it from the turn,
and the word next in its clause buffer decodes to i, the step is exec i at that context, one cycle later, on the
slot whose turn it is, with the stall reasons of the cycle that ends counted; what follows a turn (the wave port,
pending waves) comes after. Where the next input is an event, the step is exec of that event one cycle later.
(02_clauses.md R24, 02_clauses.md R28, 02_clauses.md R29, 03_contexts.md R60) -/
def Obligations.StepRunsTheDecodedInstruction : Prop :=
  (∀ (s : State) (c : CtxId) rest w i, s.agenda = .turn c :: rest →
    let q := (State.clock { s.report 1 with agenda := rest } 1).switchTo c
    Issues q w i → step s = thenTurn (exec i q.withSlot)) ∧
  (∀ (s : State) rest w i, s.agenda = .go :: rest →
    let q := State.clock { s.report 1 with agenda := rest } 1
    Issues q w i → step s = thenTurn (exec i q.withSlot)) ∧
  (∀ (s : State) (i : Instr) rest, s.agenda = .event i :: rest → step s = exec i (State.clock { s.report 1 with agenda := rest } 1))

/-- Whatever the state, every instruction and every event answers a next state, and so does every step, with an input or
without: an instruction has its effect, waits, or takes the trap that its rules name, and nothing in the machine
stops it. (16_traps.md R418, 16_traps.md R422, 02_clauses.md R46, 02_clauses.md R36) -/
def Obligations.EveryStepAnswersAState : Prop :=
  (∀ (i : Instr) (s : State), ∃ t, exec i s = .next t) ∧ (∀ s : State, ∃ t, step s = .next t)

/-- For every well-formed instruction that has a word (every row of the table that is no event), at every value of every
operand and field that the encoding admits, the decoder reads from that word the same instruction: no bit of an
encoding is dropped. (02_clauses.md R34, 02_clauses.md R36, 02_clauses.md R37) -/
def Obligations.RoundTripOfEncoding : Prop :=
  ∀ (i : Instr) (w : W64), i.wf = true → encode i = some w → decodeTableWord 64 w.toNat = some i

/-- If a 64-bit word decodes to an instruction, that instruction is well formed and its word is that one, bit for bit:
two words never stand for one instruction, and every reserved bit of a word that decodes is zero. (02_clauses.md
R34, 02_clauses.md R36, 02_clauses.md R46) -/
def Obligations.DecodedWordsEncodeBack : Prop :=
  ∀ (n w : Nat) (i : Instr), w < 2 ^ 64 → decodeTableWord n w = some i → i.wf = true ∧ encode i = some (BitVec.ofNat 64 w)

/-- One word or more of each word family, written out field by field from the spec's formats or taken from its worked
encodings, decodes to the instruction that it stands for: ADD.s32, MOVI, BRA, LOOP, LD.b64 at an order with a bound,
SPAWN launch, VADD, VFMA.f32.rtz, FADD.f64 sub, VLD, a pair of two integer halves, MPAIR lead, MMA.np, KACC prod,
CPYW, MSEND, RPOP, XTILE, LDFE, FENCE.sc.pkg, TRAP, MTS tspare, TRET skip, CNTR and MARK. (02_clauses.md R34,
02_clauses.md R43, 04_registers.md R102, 03_contexts.md R73, 07_addresses.md R202, 05_lanes.md R129, 10_shuttle.md
R284, 12_mesh.md R339, 13_rays.md R368, 11_matrix.md R311, 16_traps.md R437, 18_debug.md R469) -/
def Obligations.WordsOfTheFamilies : Prop :=
  decodeTableWord 64 0x000A000040200C00 = some (.add 10 .s32 1 2 3) ∧
  decodeTableWord 64 0x170A004089ABCDEF = some (.movi 10 true 1 0x89ABCDEF) ∧
  decodeTableWord 64 0x200A0000FFFFFFFE = some (.bra 10 0xFFFFFFFE) ∧
  decodeTableWord 64 0x2410002030000009 = some (.loop 0 true 0x203 9) ∧
  decodeTableWord 64 0x303A01804793BFFF = some (.ld ⟨3, 10, 6, 4, 3, 6, 2, 7, 1, 8191⟩) ∧
  decodeTableWord 64 0x2C00011080401406 = some (.spawnLaunch 0 66 4 5 6) ∧
  decodeTableWord 64 0x400A050040200C00 = some (.vadd 10 false true 1 2 3) ∧
  decodeTableWord 64 0x53004000C0100805 = some (.vfma 0 .rtz .fma .f32 3 1 2 5) ∧
  decodeTableWord 64 0x600A250040200C00 = some (.fadd 10 .rne true .f64 1 2 3) ∧
  decodeTableWord 64 0x683A018044982005 = some (.vld ⟨3, 10, 6, 4, 2, 2, 3, 0, 1, 5⟩) ∧
  decodeTableWord 64 0x7000108313840800 = some (.pairI ⟨0, 1, 2, 3, 1⟩ ⟨14, 4, 2, 0, 0⟩) ∧
  decodeTableWord 64 0x8000001040030000 = some (.mpairLead 0 65 192) ∧
  decodeTableWord 64 0x8300A002940504C0 = some (.mma 0 true false true false 10 320 321 192) ∧
  decodeTableWord 64 0x8600880000401800 = some (.kacc 0 2 .prod 4 6) ∧
  decodeTableWord 64 0x900A901050500C00 = some (.cpyw 10 4 true 65 261 3) ∧
  decodeTableWord 64 0xA00A6C1040200C04 = some (.msend 10 true 3 65 2 3 4) ∧
  decodeTableWord 64 0xB03A180040200000 = some (.rpop 3 10 false true true 1 2) ∧
  decodeTableWord 64 0xB40A000040200C00 = some (.xtile 10 1 2 3) ∧
  decodeTableWord 64 0xC00A018046900005 = some (.ldfe ⟨0, 10, 6, 4, 3, 2, 2, 0, 0, 5⟩) ∧
  decodeTableWord 64 0xC400B00000000000 = some (.fence 0 .sc 4) ∧
  decodeTableWord 64 0xD00A000000001234 = some (.trap 10 0x1234) ∧
  decodeTableWord 64 0xD300000001C00005 = some (.mts 0 0 5 28) ∧
  decodeTableWord 64 0xD100010000000000 = some (.tretSkip 0) ∧
  decodeTableWord 64 0xE10000024C800000 = some (.cntr 0 false 9 200) ∧
  decodeTableWord 64 0xE30000000C500000 = some (.mark 0 197)

/-- After reset, on every core: CCTL, TVEC, TCMP, ITGT, every BFMT, every pgsel, every pricking entry's word, every
watch register and every matrix descriptor register are 0, and no team is resident; in every cluster CL_AMODE.SPLIT
is 1 and CL_FLAGS.HIST, CL_OVF, CL_IRQ, CL_IRQE and CL_LGRID are 0; on every die the watermarks are HIGH 2,048 and
LOW 1,024 for tier 0, 4,096 and 2,048 for tier 1, 0 for tier 2, and the reserve has 64 frames; no region is open;
comparators, counter banks and trap registers of every context are 0. (03_contexts.md R57, 06_scratchpad.md R165,
07_addresses.md R196, 07_addresses.md R211, 05_lanes.md R127, 12_mesh.md R328, 16_traps.md R425, 18_debug.md R468,
08_residency.md R220, 18_debug.md R454, 18_debug.md R464, 11_matrix.md R296) -/
def Obligations.ResetValues : Prop :=
  (∀ k, let c := State.reset.core k
    c.cctl = 0 ∧ c.tvec = 0 ∧ c.tcmp = 0 ∧ c.itgt = 0 ∧ (∀ n, Store.get 0 c.bfmt n = 0) ∧ (∀ n, Store.get 0 c.pgsel n = 0) ∧
    (∀ n, (Store.get Prick.reset c.pricks n).word = 0) ∧ (∀ n, Store.get 0 c.watch n = 0) ∧ (∀ n, Store.get 0 c.md n = 0) ∧
    c.teams = [] ∧
    (∀ n, let x := Store.get Ctx.blank c.ctxs n
      (∀ j, Store.get 0 x.bp j = 0) ∧ (∀ j, Store.get 0 x.wp j = 0) ∧ x.cbctl = 0 ∧ (∀ j, Store.get 0 x.cnt j = 0) ∧
      x.tpc0 = 0 ∧ x.tpc1 = 0 ∧ x.tcause = 0 ∧ x.taddr = 0 ∧ x.tmask = 0 ∧ x.tspare = 0)) ∧
  (∀ n, let c := State.reset.cluster n
    c.split = true ∧ c.hist = 0 ∧ c.ovf = 0 ∧ c.irq = 0 ∧ c.irqe = 0 ∧ c.lgrid = 0) ∧
  (∀ n, State.reset.wmHigh n 0 = 2048 ∧ State.reset.wmLow n 0 = 1024 ∧ State.reset.wmHigh n 1 = 4096 ∧
    State.reset.wmLow n 1 = 2048 ∧ State.reset.wmHigh n 2 = 0 ∧ State.reset.wmLow n 2 = 0 ∧
    (getSiteState State.reset n).reserve.length = 64) ∧
  State.reset.sys.regions = []

/-- The memory and the raw slices of the reset state list nothing, which is their canonical form. (That unlisted bytes
read as 0 is the model's choice, log 4.) (07_addresses.md R193, 07_addresses.md R214) -/
def Obligations.ResetKeepsMemoryForm : Prop :=
  State.reset.MemoryInv

/-- For every state whose memory and raw slices list their bytes in rising order of address and none that reads as an
unlisted one does, a step that answers a next state leaves them so: equal memories stay equal data, whatever
instruction or event the step performs. (That unlisted bytes read as 0 is the model's choice, log 4.)
(07_addresses.md R193, 07_addresses.md R214, 09_sharing.md R243) -/
def Obligations.StepKeepsMemoryForm : Prop :=
  ∀ s t, s.MemoryInv → step s = .next t → t.MemoryInv

/-- TRAP of a context that no comparator holds, in a clause of its class, takes PRIVILEGE (cause 3) with DETAIL 1 at
user privilege, and, once it may issue, TRAP (cause 16) at supervisor privilege; in both cases TADDR is the code,
and where the other slot awaits no agent and no result is outstanding, a handler that is there is entered in the
next state (else the trap waits for them: R421). A word of TRAP with a bit of imm[27:16] set decodes to nothing and
is rejected. (16_traps.md R438) -/
def Obligations.TrapInstruction : Prop :=
  (∀ g code s, s.unhindered → s.me.curSlot.cls = 6 → s.me.supervisor = false →
    let trap : Trap := { cause := 3, detail := 1, addr := code.setWidth 64 }
    exec (.trap g code) s = (raiseTrap trap false (s.trapLanes (trapReq g code))).toOutcome s ∧
    (s.settled → s.vectored → exec (.trap g code) s = .next (s.did (takeTrap trap false (s.trapLanes (trapReq g code)))))) ∧
  (∀ g code s, Ready (trapReq g code) s →
    let trap : Trap := { cause := 16, addr := code.setWidth 64 }
    exec (.trap g code) s = (raiseTrap trap false (s.me.guardLanes g)).toOutcome s ∧
    (s.settled → s.vectored → exec (.trap g code) s = .next (s.did (takeTrap trap false (s.me.guardLanes g))))) ∧
  (∀ (g : Guard) (code : BitVec 16) (high : BitVec 12), high ≠ 0 →
    decodeTableWord 64 (IWord.pack 0xD0 ⟨0, g, 0, 0, high ++ code⟩).toNat = none)

/-- SEGW of a ready context sets the issuing context's gN to (b, a) as one 128-bit value, a as its low half, and the pc
goes on, where no reserved bit is set and BASE + LIMIT of a valid segment is at most 2^57; otherwise it takes
ILLEGAL-OPERAND (cause 2) from the state before it. SEGR puts the named half of gN in its destination. In a handler
the context is the trapped one. (16_traps.md R440) -/
def Obligations.SegmentRegisters : Prop :=
  (∀ g n a b s, let r := segwReq g a b s
    Ready r s → Plain r s →
    let v : BitVec 128 := s.sysVal (issOf r s) b ++ s.sysVal (issOf r s) a
    (field v 64 2 = 0 ∧ field v 57 2 = 0 ∧ ¬(v.getLsbD 63 = true ∧ 2 ^ 57 < segBase v + segLimit v) → s.flows →
      Completes (.segw g n a b) s fun t => t.me.seg n.toNat = v ∧ (∀ m, m ≠ n.toNat → t.me.seg m = s.me.seg m) ∧ GoesOn s t ∧
        t.mem = s.mem ∧ t.here.rows = s.here.rows ∧ SameRegisters s t) ∧
    (¬(field v 64 2 = 0 ∧ field v 57 2 = 0 ∧ ¬(v.getLsbD 63 = true ∧ 2 ^ 57 < segBase v + segLimit v)) →
      exec (.segw g n a b) s = (raiseTrap { cause := 2 } false (s.actLanes r)).toOutcome s)) ∧
  (∀ g n hi d s, let r := segrReq g d s
    Ready r s → Plain r s → s.flows →
    Completes (.segr g n hi d) s fun t =>
      Writes s t (s.scalarWrites (issOf r s) d ((s.me.seg n.toNat).extractLsb' (if hi then 64 else 0) 64)))

/-- On every core the timer interrupt is pending exactly while TCMP is not 0, clk is at least TCMP and ITGT.EN is 1.
INTERRUPT, where it is pending and the thread of slot SLOT can take it, clears TCMP and takes the trap INTERRUPT
(cause 17) with DETAIL 1 in that thread; where the slot is empty or its thread is in a handler, or otherwise cannot
take it, or nothing is pending, everything stays as it is, and the interrupt with it. (16_traps.md R426) -/
def Obligations.TimerInterrupt : Prop :=
  (∀ (s : State) (core : Nat), s.timerPending core = true ↔
    (s.core core).tcmp ≠ 0 ∧ (s.core core).tcmp.toNat ≤ s.clk.toNat ∧ (s.core core).itgt.getLsbD 5 = true) ∧
  (∀ (s : State) (core : Nat), let c : CtxId := ⟨core, .slot (field (s.core core).itgt 0 5)⟩
    let t := s.onCore core fun k => { k with tcmp := 0 }
    let entry : M Unit := raiseTrap { cause := 17, detail := 1, imprecise := true } false 1
    (s.timerPending core = true → (s.ctx c).interruptible = true →
      exec (.interrupt core) s = .next (t.handedBack c ((t.asContext c).did entry))) ∧
    (s.timerPending core = false ∨ (s.ctx c).interruptible = false → exec (.interrupt core) s = .next s))
end

