-- ==== Sys2Proof/Laws/Monad.lean ====
section
/-! SUPPORT. How the meanings' monad runs: one lemma for each of its building blocks. -/

namespace Sys2Proof.Machine

theorem run_bind_ok {α β : Type} {m : M α} {f : α → M β} {s t : State} {a : α} (h : m.run s = .ok a t) :
    (m >>= f).run s = (f a).run t := by
  simp only [EStateM.run] at *
  show EStateM.bind m f s = f a t
  simp [EStateM.bind, h]

theorem run_bind_error {α β : Type} {m : M α} {f : α → M β} {s t : State} {e : Exit} (h : m.run s = .error e t) :
    (m >>= f).run s = .error e t := by
  simp only [EStateM.run] at *
  show EStateM.bind m f s = .error e t
  simp [EStateM.bind, h]

theorem run_bind {α β : Type} (m : M α) (f : α → M β) (s : State) :
    (m >>= f).run s = match m.run s with
      | .ok a t => (f a).run t
      | .error e t => .error e t := by
  cases h : m.run s with
  | ok a t => exact run_bind_ok h
  | error e t => exact run_bind_error h

theorem run_pure {α : Type} (a : α) (s : State) : (pure a : M α).run s = .ok a s := rfl
theorem run_throw {α : Type} (e : Exit) (s : State) : (throw e : M α).run s = .error e s := rfl
theorem run_get (s : State) : (get : M State).run s = .ok s s := rfl
theorem run_set (s t : State) : (set t : M Unit).run s = .ok () t := rfl
theorem run_modify (f : State → State) (s : State) : (modify f : M Unit).run s = .ok () (f s) := rfl
theorem run_getMe (s : State) : getMe.run s = .ok s.me s := rfl
theorem run_setMe (c : Ctx) (s : State) : (setMe c).run s = .ok () { s with me := c } := rfl
theorem run_modMe (f : Ctx → Ctx) (s : State) : (modMe f).run s = .ok () { s with me := f s.me } := rfl
theorem run_getHere (s : State) : getHere.run s = .ok s.here s := rfl
theorem run_modHere (f : Core → Core) (s : State) : (modHere f).run s = .ok () { s with here := f s.here } := rfl
theorem run_getCore (n : Nat) (s : State) : (getCore n).run s = .ok (s.core n) s := rfl
theorem run_modCore (n : Nat) (f : Core → Core) (s : State) :
    (modCore n f).run s = .ok () (s.putCore n (f (s.core n))) := rfl
theorem run_getCluster (n : Nat) (s : State) :
    (getCluster n).run s = .ok (Store.get .reset s.clusters n) s := rfl
theorem run_modCluster (n : Nat) (f : Cluster → Cluster) (s : State) :
    (modCluster n f).run s =
      .ok () { s with clusters := Store.set .reset s.clusters n (f (Store.get .reset s.clusters n)) } := rfl
theorem run_modSys (f : System → System) (s : State) : (modSys f).run s = .ok () { s with sys := f s.sys } := rfl

/-- A loop whose every round leaves the state and answers nothing. -/
theorem run_forIn_idle {α : Type} (l : List α) (f : α → PUnit → M (ForInStep PUnit)) (s : State)
    (h : ∀ a ∈ l, (f a ⟨⟩).run s = .ok (.yield ⟨⟩) s) : (forIn l PUnit.unit f).run s = .ok ⟨⟩ s := by
  induction l with
  | nil => rfl
  | cons a l ih =>
    rw [List.forIn_cons, run_bind_ok (h a (by simp))]
    exact ih fun b hb => h b (by simp [hb])

/-- The outcome of a meaning that does its work. -/
theorem toOutcome_ok {m : M Unit} {s t : State} (h : m.run s = .ok () t) : m.toOutcome s = .next t := by
  simp [M.toOutcome, h]

end Sys2Proof.Machine
end

