-- ==== Sys2Proof/Laws/Store.lean ====
section
/-! SUPPORT. Laws of stores: reading after writing, and the canonical form, which every operation on memory keeps. -/

namespace Sys2Proof.Machine

variable {α : Type}

/-- Keys of a store in canonical form lie at or above its bound. -/
theorem Store.get_below [DecidableEq α] (d : α) (m : Store α) (lo k : Nat) (h : Store.wfFrom d lo m = true) (hk : k < lo) :
    Store.get d m k = d := by
  induction m generalizing lo with
  | nil => rfl
  | cons e rest ih =>
    obtain ⟨k', v⟩ := e
    simp only [Store.wfFrom, Bool.and_eq_true, decide_eq_true_eq] at h
    have hne : k ≠ k' := by omega
    simp only [Store.get, hne, if_false]
    exact ih (k' + 1) h.2 (by omega)

theorem Store.wfFrom_mono [DecidableEq α] (d : α) (m : Store α) (lo lo' : Nat) (h : Store.wfFrom d lo m = true) (hl : lo' ≤ lo) :
    Store.wfFrom d lo' m = true := by
  cases m with
  | nil => rfl
  | cons e rest =>
    simp only [Store.wfFrom, Bool.and_eq_true, decide_eq_true_eq] at h ⊢
    exact ⟨⟨by omega, h.1.2⟩, h.2⟩

theorem Store.erase_wfFrom [DecidableEq α] (d : α) (m : Store α) (lo k : Nat) (h : Store.wfFrom d lo m = true) :
    Store.wfFrom d lo (Store.erase m k) = true := by
  induction m generalizing lo with
  | nil => rfl
  | cons e rest ih =>
    obtain ⟨k', v⟩ := e
    simp only [Store.wfFrom, Bool.and_eq_true, decide_eq_true_eq] at h
    by_cases hk : k = k'
    · simp only [Store.erase, hk, if_true]
      exact ih lo (Store.wfFrom_mono d rest (k' + 1) lo h.2 (by omega)) |> (hk ▸ ·)
    · simp only [Store.erase, hk, if_false, Store.wfFrom, Bool.and_eq_true, decide_eq_true_eq]
      exact ⟨h.1, ih (k' + 1) h.2⟩

/-- An erased key is not listed. -/
theorem Store.get_erase (d : α) (m : Store α) (k j : Nat) :
    Store.get d (Store.erase m k) j = if j = k then d else Store.get d m j := by
  induction m with
  | nil => simp [Store.erase, Store.get]
  | cons e rest ih =>
    obtain ⟨k', v⟩ := e
    by_cases hk : k = k'
    · subst hk
      simp only [Store.erase, if_true, ih, Store.get]
      split <;> simp_all
    · simp only [Store.erase, hk, if_false, Store.get, ih]
      split
      · rename_i hj
        subst hj
        simp [Ne.symm hk]
      · rfl

theorem Store.get_insert (d : α) (m : Store α) (k j : Nat) (v : α) (hk : Store.get d m k = d)
    (hm : ∀ e ∈ m, e.1 ≠ k) : Store.get d (Store.insert m k v) j = if j = k then v else Store.get d m j := by
  induction m with
  | nil => simp [Store.insert, Store.get]
  | cons e rest ih =>
    obtain ⟨k', v'⟩ := e
    have hne : k' ≠ k := hm (k', v') (by simp)
    by_cases hl : k < k'
    · simp only [Store.insert, hl, if_true, Store.get]
    · have hr : Store.get d rest k = d := by
        simp only [Store.get, Ne.symm hne, if_false] at hk
        exact hk
      have := ih hr (fun e he => hm e (by simp [he]))
      simp only [Store.insert, hl, if_false, Store.get, this]
      by_cases h1 : j = k'
      · subst h1
        simp [hne]
      · simp [h1]

theorem Store.erase_ne (m : Store α) (k : Nat) : ∀ e ∈ Store.erase m k, e.1 ≠ k := by
  induction m with
  | nil => simp [Store.erase]
  | cons e rest ih =>
    obtain ⟨k', v⟩ := e
    by_cases hk : k = k'
    · intro e he
      simp only [Store.erase, hk, if_true] at he
      exact hk ▸ ih e (hk ▸ he)
    · intro e he
      simp only [Store.erase, hk, if_false, List.mem_cons] at he
      rcases he with rfl | he
      · exact Ne.symm hk
      · exact ih e he

/-- Reading a key after writing one. -/
theorem Store.get_set [DecidableEq α] (d : α) (m : Store α) (k j : Nat) (v : α) :
    Store.get d (Store.set d m k v) j = if j = k then v else Store.get d m j := by
  unfold Store.set
  by_cases hv : v = d
  · simp only [hv, if_true, Store.get_erase]
  · simp only [hv, if_false]
    rw [Store.get_insert d _ k j v (by simp [Store.get_erase]) (Store.erase_ne m k), Store.get_erase]
    split <;> rfl

@[simp] theorem Store.get_set_same [DecidableEq α] (d : α) (m : Store α) (k : Nat) (v : α) :
    Store.get d (Store.set d m k v) k = v := by simp [Store.get_set]

theorem Store.get_set_other [DecidableEq α] (d : α) (m : Store α) (k j : Nat) (v : α) (h : j ≠ k) :
    Store.get d (Store.set d m k v) j = Store.get d m j := by simp [Store.get_set, h]

theorem Store.insert_wfFrom [DecidableEq α] (d : α) (m : Store α) (lo k : Nat) (v : α) (h : Store.wfFrom d lo m = true) (hl : lo ≤ k)
    (hv : v ≠ d) (hm : ∀ e ∈ m, e.1 ≠ k) : Store.wfFrom d lo (Store.insert m k v) = true := by
  induction m generalizing lo with
  | nil => simp [Store.insert, Store.wfFrom, hl, hv]
  | cons e rest ih =>
    obtain ⟨k', v'⟩ := e
    simp only [Store.wfFrom, Bool.and_eq_true, decide_eq_true_eq] at h
    have hne : k' ≠ k := hm (k', v') (by simp)
    by_cases hlt : k < k'
    · simp only [Store.insert, hlt, if_true, Store.wfFrom, Bool.and_eq_true, decide_eq_true_eq]
      exact ⟨⟨hl, hv⟩, ⟨by omega, h.1.2⟩, h.2⟩
    · simp only [Store.insert, hlt, if_false, Store.wfFrom, Bool.and_eq_true, decide_eq_true_eq]
      exact ⟨h.1, ih (k' + 1) h.2 (by omega) (fun e he => hm e (by simp [he]))⟩

/-- A write keeps the canonical form. -/
theorem Store.set_wf [DecidableEq α] (d : α) (m : Store α) (k : Nat) (v : α) (h : Store.wf d m = true) :
    Store.wf d (Store.set d m k v) = true := by
  unfold Store.set
  split
  · exact Store.erase_wfFrom d m 0 k h
  · rename_i hv
    exact Store.insert_wfFrom d _ 0 k v (Store.erase_wfFrom d m 0 k h) (by omega) hv (Store.erase_ne m k)

theorem Store.putBytes_wf (m : Store Byte) (k : Nat) (bs : List Byte) (h : Store.wf 0 m = true) :
    Store.wf 0 (Store.putBytes m k bs) = true := by
  induction bs generalizing m k with
  | nil => exact h
  | cons b rest ih => exact ih _ _ (Store.set_wf 0 m k b h)

theorem Store.writeN_wf (m : Store Byte) (k n v : Nat) (h : Store.wf 0 m = true) :
    Store.wf 0 (Store.writeN m k n v) = true := Store.putBytes_wf m k _ h

/-- A byte outside those written reads as before. -/
theorem Store.get_putBytes_other (m : Store Byte) (k : Nat) (bs : List Byte) (j : Nat) (h : j < k ∨ k + bs.length ≤ j) :
    Store.get 0 (Store.putBytes m k bs) j = Store.get 0 m j := by
  induction bs generalizing m k with
  | nil => rfl
  | cons b rest ih =>
    simp only [List.length_cons] at h
    simp only [Store.putBytes]
    rw [ih _ _ (by omega), Store.get_set_other 0 m k j b (by omega)]

/-- Bytes written read back. -/
theorem Store.get_putBytes (m : Store Byte) (k : Nat) (bs : List Byte) (i : Nat) (h : i < bs.length) :
    Store.get 0 (Store.putBytes m k bs) (k + i) = bs[i] := by
  induction bs generalizing m k i with
  | nil => simp at h
  | cons b rest ih =>
    simp only [Store.putBytes]
    cases i with
    | zero => rw [Store.get_putBytes_other _ _ _ _ (by omega)]; simp
    | succ i =>
      have := ih (Store.set 0 m k b) (k + 1) i (by simpa using h)
      simpa [Nat.add_assoc, Nat.add_comm 1 i] using this

theorem Store.bytes_putBytes (m : Store Byte) (k : Nat) (bs : List Byte) :
    Store.bytes (Store.putBytes m k bs) k bs.length = bs := by
  suffices h : ∀ (n i : Nat) (hn : i + n = bs.length), Store.bytes (Store.putBytes m k bs) (k + i) n = bs.drop i by
    simpa using h bs.length 0 (by simp)
  intro n
  induction n with
  | zero => intro i hn; simp [Store.bytes, ← hn]
  | succ n ih =>
    intro i hn
    have hi : i < bs.length := by omega
    have h1 := ih (i + 1) (by omega)
    have h2 := Store.get_putBytes m k bs i hi
    rw [List.drop_eq_getElem_cons hi]
    simp only [Store.bytes, h2, List.cons.injEq, true_and]
    simpa [Nat.add_assoc] using h1

/-! Memory. -/

theorem Memory.set_wf (m : Memory) (a : Nat) (b : Byte) (h : m.wf = true) : Memory.wf (Store.set 0 m a b) = true :=
  Store.set_wf 0 m a b h

theorem Memory.putBytes_wf (m : Memory) (a : Nat) (bs : List Byte) (h : m.wf = true) :
    Memory.wf (Store.putBytes m a bs) = true := Store.putBytes_wf m a bs h

theorem Memory.writeN_wf (m : Memory) (a n v : Nat) (h : m.wf = true) : Memory.wf (Store.writeN m a n v) = true :=
  Store.writeN_wf m a n v h

theorem Store.filter_wfFrom [DecidableEq α] (d : α) (m : Store α) (lo : Nat) (p : Nat × α → Bool) (h : Store.wfFrom d lo m = true) :
    Store.wfFrom d lo (m.filter p) = true := by
  induction m generalizing lo with
  | nil => rfl
  | cons e rest ih =>
    obtain ⟨k', v⟩ := e
    simp only [Store.wfFrom, Bool.and_eq_true, decide_eq_true_eq] at h
    by_cases hp : p (k', v) = true
    · simp only [List.filter, hp, Store.wfFrom, Bool.and_eq_true, decide_eq_true_eq]
      exact ⟨h.1, ih (k' + 1) h.2⟩
    · simp only [List.filter, hp]
      exact ih lo (Store.wfFrom_mono d rest (k' + 1) lo h.2 (by omega))

theorem Memory.filter_wf (m : Memory) (p : Nat × Byte → Bool) (h : m.wf = true) : Memory.wf (m.filter p) = true :=
  Store.filter_wfFrom 0 m 0 p h

end Sys2Proof.Machine
end

