-- ==== Sys2Proof/Laws/Issue.lean ====
section
/-! SUPPORT. What an issue does when nothing keeps the context from it: the one lemma that the claims about
instructions cite instead of unfolding the issue. -/

namespace Sys2Proof.Machine

theorem checkBreakpoints_ok {s : State} (h : s.me.breakMatch = none) : checkBreakpoints.run s = .ok () s := by
  simp only [checkBreakpoints, run_bind, run_getMe, h]
  rfl

theorem interlockOn_ok {regs : List Nat} {s : State} (h : s.metBy regs = []) (hu : s.uniOwed regs = false) :
    (interlockOn regs).run s = .ok () s := by
  simp only [interlockOn, run_bind, run_get, h, hu]
  rfl

theorem interlock_ok {r : Req} {s : State}
    (h : (s.me.pend.filter (Pend.meets (r.allRegs s.me.isWave))).isEmpty = true)
    (hu : s.uniOwed (r.allRegs s.me.isWave) = false) : (interlock r).run s = .ok () s := by
  simp only [interlock, run_bind, run_getMe]
  exact interlockOn_ok (List.isEmpty_iff.mp h) hu

/-- A uniform write that no register of an instruction meets, its guard does not meet. -/
theorem guardOwed {r : Req} {s : State} (h : s.uniOwed (r.allRegs s.me.isWave) = false) : s.uniOwed r.guardRegs = false := by
  have h' := List.any_eq_false.mp h
  refine List.any_eq_false.mpr fun w hw hc => h' w hw ?_
  simp only [Bool.and_eq_true, decide_eq_true_eq] at hc ⊢
  refine ⟨hc.1, List.contains_iff_mem.mpr ?_⟩
  have hc' := List.contains_iff_mem.mp hc.2
  unfold Req.guardRegs at hc'
  unfold Req.allRegs
  exact List.mem_append_left _ (List.mem_append_left _ hc')

/-- What no register of an instruction meets, its guard does not meet. -/
theorem guardLanded {r : Req} {s : State}
    (h : (s.me.pend.filter (Pend.meets (r.allRegs s.me.isWave))).isEmpty = true) : s.metBy r.guardRegs = [] := by
  have h' := List.filter_eq_nil_iff.mp (List.isEmpty_iff.mp h)
  refine List.filter_eq_nil_iff.mpr fun p hp hm => h' p hp ?_
  obtain ⟨w, hw, hc⟩ := List.any_eq_true.mp hm
  refine List.any_eq_true.mpr ⟨w, hw, List.contains_iff_mem.mpr ?_⟩
  have hc' := List.contains_iff_mem.mp hc
  unfold Req.guardRegs at hc'
  unfold Req.allRegs
  exact List.mem_append_left _ (List.mem_append_left _ hc')

theorem powerCap_ok {r : Req} {s : State} (h : r.counted = true → s.here.nv + s.here.nm < 320) :
    (powerCap r).run s = .ok () s := by
  simp only [powerCap, run_bind, run_getHere]
  by_cases hc : r.counted = true
  · have := h hc
    simp [hc, Nat.not_le.mpr this]
  · simp [hc]

/-- A plain operand is neither a queue nor a stream. -/
theorem plainOpnd_cases {s : State} {o : Opnd} (h : s.plainOpnd o = true) :
    opOf o ≠ .qi ∧ opOf o ≠ .qo ∧ ∀ n, opOf o = .prim n → s.me.streamOf n = none := by
  unfold State.plainOpnd at h
  cases ho : opOf o <;> simp_all

theorem pushChecks_plain {s : State} {i : Iss} {d : Opnd} (h : s.plainOpnd d = true) :
    (pushChecks i d).run s = .ok () s := by
  obtain ⟨-, h2, h3⟩ := plainOpnd_cases h
  simp only [pushChecks, run_bind, run_get]
  cases ho : opOf d with
  | qo => exact absurd ho h2
  | prim n => simp [Ctx.writeStream, h3 n ho]
  | _ => rfl

theorem popSources_plain {s : State} {i : Iss} (h : ∀ o ∈ i.srcs, s.plainOpnd o = true) :
    (popSources i).run s = .ok () s := by
  have key : ∀ o ∈ i.srcs.dedup.filter fun o => (Store.get [] s.me.latch (i.place o)).isEmpty,
      opOf o ≠ .qi ∧ ∀ n, opOf o = .prim n → s.me.readStream n = none := by
    intro o ho
    have ho' : o ∈ i.srcs := by simpa using (List.mem_filter.mp ho).1
    obtain ⟨h1, -, h3⟩ := plainOpnd_cases (h o ho')
    exact ⟨h1, fun n hn => by simp [Ctx.readStream, h3 n hn]⟩
  simp only [popSources, run_bind, run_get]
  rw [run_forIn_idle]
  · simp only []
    rw [run_forIn_idle]
    · simp only []
      rw [run_forIn_idle]
      · rfl
      · intro o ho
        obtain ⟨h1, h3⟩ := key o ho
        cases hop : opOf o with
        | qi => exact absurd hop h1
        | prim n => simp [h3 n hop]
        | _ => rfl
    · intro o ho
      obtain ⟨h1, h3⟩ := key o ho
      cases hop : opOf o with
      | qi => exact absurd hop h1
      | prim n => simp [h3 n hop]
      | _ => rfl
  · intro o ho
    obtain ⟨h1, h3⟩ := key o ho
    cases hop : opOf o with
    | qi => exact absurd hop h1
    | prim n => simp [h3 n hop]
    | _ => rfl

/-- Plain operands are no stream's, so the instruction makes no access by them. -/
theorem streamTouches_plain {s : State} {i : Iss} {dsts : List Opnd} (h : ∀ o ∈ i.srcs ++ dsts, s.plainOpnd o = true) :
    s.streamTouches i dsts = [] := by
  unfold State.streamTouches
  simp only []
  rw [List.filterMap_eq_nil_iff.mpr, List.filterMap_eq_nil_iff.mpr]
  · rfl
  · intro o ho
    have h3 := (plainOpnd_cases (h o (List.mem_append_right _ ho))).2.2
    cases hop : opOf o with
    | prim n => simp [Ctx.writeStream, h3 n hop]
    | _ => rfl
  · intro o ho
    have hs : o ∈ i.srcs := by simpa using (List.mem_filter.mp ho).1
    have h3 := (plainOpnd_cases (h o (List.mem_append_left _ hs))).2.2
    cases hop : opOf o with
    | prim n => simp [Ctx.readStream, h3 n hop]
    | _ => rfl

/-- An instruction whose accesses no watchpoint matches is not stopped by one. -/
theorem watchAll_ok {s : State} {gs : List (Nat × Need × List LaneAddr)} (h : s.me.watchMatch gs = none) :
    (watchAll gs).run s = .ok () s := by
  simp only [watchAll, run_bind, run_getMe, h]
  rfl

theorem watchMatch_nil (c : Ctx) : c.watchMatch [] = none := by
  unfold Ctx.watchMatch
  split
  · rfl
  · exact List.findSome?_eq_none_iff.mpr fun _ _ => rfl

theorem counts_same (c : Ctx) (code n : Nat) : ∃ a b, c.counts code n = { c with cnt := a, cbst := b } := by
  have one : ∀ c : Ctx, ∃ a b, c.count code = { c with cnt := a, cbst := b } := by
    intro c
    unfold Ctx.count
    generalize List.range 8 = l
    induction l generalizing c with
    | nil => exact ⟨c.cnt, c.cbst, rfl⟩
    | cons k l ih =>
      simp only [List.foldl_cons]
      split
      · split
        · obtain ⟨a, b, h⟩ := ih { c with cnt := _, cbst := _ }
          exact ⟨a, b, h⟩
        · obtain ⟨a, b, h⟩ := ih { c with cnt := _ }
          exact ⟨a, b, h⟩
      · exact ih c
  unfold Ctx.counts
  split
  · rename_i hx
    clear hx
    generalize List.range n = l
    induction l generalizing c with
    | nil => exact ⟨c.cnt, c.cbst, rfl⟩
    | cons k l ih =>
      simp only [List.foldl_cons]
      obtain ⟨a, b, h⟩ := one c
      rw [h]
      obtain ⟨a', b', h'⟩ := ih { c with cnt := a, cbst := b }
      exact ⟨a', b', h'⟩
  · exact ⟨c.cnt, c.cbst, rfl⟩

/-- What a count of events changes: the context's bank and the launch records of its cluster. -/
theorem counted_same (s : State) (code n : Nat) : ∃ a b k,
    s.counted code n = { s with me := { s.me with cnt := a, cbst := b }, clusters := k } ∧
    ∀ j, Store.get Cluster.reset k j =
      { Store.get Cluster.reset s.clusters j with launchRec := (Store.get Cluster.reset k j).launchRec } := by
  obtain ⟨a, b, h⟩ := counts_same s.me code n
  refine ⟨a, b, s.feeds code n, ?_, ?_⟩
  · simp only [State.counted, h]
  · intro j
    unfold State.feeds
    simp only []
    split
    · rfl
    · split
      · by_cases hj : j = clusterOf s.hereId
        · subst hj; simp
        · rw [Store.get_set_other _ _ _ _ _ hj]
      · rfl

/-! Where control goes depends on the slots and the loop registers alone. -/

/-- Two contexts agree on all that `stepped` looks at. -/
structure SameFlow (c d : Ctx) : Prop where
  slots : d.slots = c.slots
  cur : d.cur = c.cur
  handler : d.handler = c.handler
  ls : d.ls = c.ls
  le : d.le = c.le
  lc : d.lc = c.lc
  kind : d.kind = c.kind
  dsp : d.dsp = c.dsp

theorem SameFlow.refl (c : Ctx) : SameFlow c c := ⟨rfl, rfl, rfl, rfl, rfl, rfl, rfl, rfl⟩

theorem SameFlow.trans {a b c : Ctx} (h : SameFlow a b) (k : SameFlow b c) : SameFlow a c :=
  ⟨k.1.trans h.1, k.2.trans h.2, k.3.trans h.3, k.4.trans h.4, k.5.trans h.5, k.6.trans h.6, k.7.trans h.7, k.8.trans h.8⟩

theorem modCur_slots (c : Ctx) (f : PcSlot → PcSlot) :
    c.modCur f = { c with slots := (c.modCur f).slots } := by
  unfold Ctx.modCur Ctx.putSlot
  split <;> rfl

theorem modCur_congr {c d : Ctx} (h : SameFlow c d) (f : PcSlot → PcSlot) : (d.modCur f).slots = (c.modCur f).slots := by
  simp only [Ctx.modCur, Ctx.putSlot, Ctx.curSlot, Ctx.slot, h.cur, h.slots]
  split <;> rfl

theorem diverged_congr {c d : Ctx} (h : SameFlow c d) : d.diverged = c.diverged := by
  unfold Ctx.diverged Ctx.isWave Ctx.live
  rw [h.kind, h.slots, h.dsp]

theorem arrivedOuter_congr {c d : Ctx} (h : SameFlow c d) (a : W64) :
    (d.arrivedOuter a).1.slots = (c.arrivedOuter a).1.slots ∧ (d.arrivedOuter a).1.lc = (c.arrivedOuter a).1.lc ∧
    (d.arrivedOuter a).2 = (c.arrivedOuter a).2 ∧
    c.arrivedOuter a = ({ c with slots := (c.arrivedOuter a).1.slots, lc := (c.arrivedOuter a).1.lc }, (c.arrivedOuter a).2) := by
  unfold Ctx.arrivedOuter
  rw [h.le, h.lc, diverged_congr h, h.ls]
  cases loopCheck a c.le.1 c.lc.1 with
  | none => exact ⟨h.slots, h.lc, rfl, rfl⟩
  | some x =>
    obtain ⟨n, again⟩ := x
    simp only []
    split
    · exact ⟨h.slots, h.lc, rfl, rfl⟩
    · cases again with
      | false => exact ⟨h.slots, by simp, rfl, rfl⟩
      | true =>
        simp only [if_true]
        refine ⟨modCur_congr (by constructor <;> first | rfl | exact h.slots | exact h.cur | exact h.handler | exact h.ls | exact h.le | exact h.kind | exact h.dsp) _, ?_, trivial, ?_⟩
        · rw [modCur_slots, modCur_slots { c with lc := (n, c.lc.2) }]
        · rw [modCur_slots]

theorem arrived_congr {c d : Ctx} (h : SameFlow c d) (a : W64) :
    (d.arrived a).1.slots = (c.arrived a).1.slots ∧ (d.arrived a).1.lc = (c.arrived a).1.lc ∧
    (d.arrived a).2 = (c.arrived a).2 ∧
    c.arrived a = ({ c with slots := (c.arrived a).1.slots, lc := (c.arrived a).1.lc }, (c.arrived a).2) := by
  have h0 : SameFlow (c.modCur (·.at_ a)) (d.modCur (·.at_ a)) := by
    rw [modCur_slots c, modCur_slots d]
    exact ⟨modCur_congr h _, h.cur, h.handler, h.ls, h.le, h.lc, h.kind, h.dsp⟩
  have e0 : c.modCur (·.at_ a) = { c with slots := (c.modCur (·.at_ a)).slots } := modCur_slots c _
  unfold Ctx.arrived
  simp only []
  rw [h0.handler, h0.le, h0.lc, diverged_congr h0, h0.ls]
  generalize c.modCur (·.at_ a) = c0 at *
  generalize d.modCur (·.at_ a) = d0 at *
  split
  · exact ⟨h0.slots, h0.lc, rfl, by rw [e0]⟩
  · cases loopCheck a c0.le.2 c0.lc.2 with
    | none =>
      simp only []
      obtain ⟨o1, o2, o3, o4⟩ := arrivedOuter_congr h0 a
      refine ⟨o1, o2, o3, ?_⟩
      rw [o4, e0]
    | some x =>
      obtain ⟨n, again⟩ := x
      simp only []
      split
      · exact ⟨h0.slots, h0.lc, rfl, by rw [e0]⟩
      · cases again with
        | true =>
          simp only [if_true]
          refine ⟨modCur_congr (by constructor <;> first | rfl | exact h0.slots | exact h0.cur | exact h0.handler | exact h0.ls | exact h0.le | exact h0.kind | exact h0.dsp) _, ?_, trivial, ?_⟩
          · rw [modCur_slots, modCur_slots { c0 with lc := (c0.lc.1, n) }]
          · rw [modCur_slots { c0 with lc := (c0.lc.1, n) }, e0]
        | false =>
          simp only [Bool.false_eq_true, if_false]
          have hf (k : Ctx) (e : SameFlow { c0 with lc := (c0.lc.1, n) } k) := arrivedOuter_congr e a
          refine ⟨(hf _ ?_).1, (hf _ ?_).2.1, (hf _ ?_).2.2.1, ?_⟩
          all_goals first
            | (constructor <;> first | rfl | exact h0.slots | exact h0.cur | exact h0.handler | exact h0.ls | exact h0.le | exact h0.kind | exact h0.dsp)
            | rw [(hf _ (SameFlow.refl _)).2.2.2, e0]

theorem stepped_congr {c d : Ctx} (h : SameFlow c d) :
    d.stepped.1.slots = c.stepped.1.slots ∧ d.stepped.1.lc = c.stepped.1.lc ∧ d.stepped.2 = c.stepped.2 ∧
    c.stepped = ({ c with slots := c.stepped.1.slots, lc := c.stepped.1.lc }, c.stepped.2) := by
  have hs : d.curSlot = c.curSlot := by simp [Ctx.curSlot, Ctx.slot, h.cur, h.slots]
  unfold Ctx.stepped
  simp only [hs]
  split
  · refine ⟨modCur_congr h _, ?_, rfl, ?_⟩
    · rw [modCur_slots d, modCur_slots c]; exact h.lc
    · rw [modCur_slots c]
  · exact arrived_congr h _

/-! The issue itself. -/

theorem charged_same (s : State) (r : Req) : ∃ a b k n,
    s.charged r = { s with me := { s.me with cnt := a, cbst := b }, clusters := k, here := { s.here with nv := n } } ∧
    ∀ j, Store.get Cluster.reset k j =
      { Store.get Cluster.reset s.clusters j with launchRec := (Store.get Cluster.reset k j).launchRec } := by
  unfold State.charged
  split
  · obtain ⟨a, b, k, e, h⟩ := counted_same { s with here := { s.here with nv := s.here.nv + 1 } } 0x19 1
    exact ⟨a, b, k, _, e, h⟩
  · exact ⟨s.me.cnt, s.me.cbst, s.clusters, s.here.nv, rfl, fun _ => rfl⟩

theorem countedIssue_same (s : State) (r : Req) : ∃ a b k n,
    s.countedIssue r = { s with me := { s.me with cnt := a, cbst := b }, clusters := k, here := { s.here with nv := n } } ∧
    ∀ j, Store.get Cluster.reset k j =
      { Store.get Cluster.reset s.clusters j with launchRec := (Store.get Cluster.reset k j).launchRec } := by
  obtain ⟨a0, b0, k0, n, e0, h0⟩ := charged_same s r
  obtain ⟨a1, b1, k1, e1, h1⟩ := counted_same (s.charged r) 0x10 1
  obtain ⟨a2, b2, k2, e2, h2⟩ := counted_same ((s.charged r).counted 0x10) 0 1
  obtain ⟨a3, b3, k3, e3, h3⟩ := counted_same (((s.charged r).counted 0x10).counted 0) 0x11 1
  have g2 : ∀ j, Store.get Cluster.reset k2 j =
      { Store.get Cluster.reset s.clusters j with launchRec := (Store.get Cluster.reset k2 j).launchRec } := by
    intro j
    rw [h2 j, e1]
    simp only []
    rw [h1 j, e0]
    simp only []
    rw [h0 j]
  unfold State.countedIssue
  simp only []
  split
  · refine ⟨a3, b3, k3, n, by rw [e3, e2, e1, e0], fun j => ?_⟩
    rw [h3 j, e2]
    simp only []
    rw [g2 j]
  · exact ⟨a2, b2, k2, n, by rw [e2, e1, e0], g2⟩

theorem issued_ok {r : Req} {n : Nat} {s : State} (h : s.me.grant = false) :
    (issued r n).run s = .ok () (s.booked r n) := by
  obtain ⟨a, b, k, n', e, -⟩ := countedIssue_same s r
  simp only [issued, run_bind, run_modify, run_getMe]
  have hg : (s.countedIssue r).me.grant = false := by rw [e]; exact h
  simp [hg, State.booked]

theorem booked_flow (s : State) (r : Req) (n : Nat) : SameFlow s.me (s.booked r n).me := by
  obtain ⟨a, b, k, n', e, -⟩ := countedIssue_same s r
  unfold State.booked
  rw [e]
  exact ⟨rfl, rfl, rfl, rfl, rfl, rfl, rfl, rfl⟩

/-- A body that goes on is what it is. -/
theorem imprecise_ok {m : M Then} {s t : State} {k : Then} (h : m.run s = .ok k t) : (imprecise m).run s = .ok k t := by
  have h' : m s = .ok k t := h
  show imprecise m s = _
  simp only [imprecise, h']

/-- Up to its body: nothing keeps a ready context from the instruction's own effect. -/
theorem issueCtl_ready {r : Req} {s : State} (h : Ready r s) (hp : Plain r s) (body : Iss → M Then) :
    (issueCtl r body).run s = (do let go ← imprecise (body (issOf r s)); issued r s.me.tok; go : M Unit).run s := by
  have hpop : (popSources (issOf r s)).run s = .ok () s :=
    popSources_plain fun o ho => hp o (List.mem_append_left _ ho)
  simp only [issueCtl, run_bind, checkBreakpoints_ok h.comparator, run_get, h.checks, run_getMe, if_neg h.lanes,
    interlockOn_ok (guardLanded h.landed) (guardOwed h.uniform), interlock_ok h.landed h.uniform, powerCap_ok h.power]
  have htouch : s.streamTouches { lanes := s.actLanes r, vec := r.vec, srcs := r.srcs, lat := r.lat } r.dsts = [] :=
    streamTouches_plain hp
  rw [htouch, watchAll_ok (watchMatch_nil _)]
  simp only []
  rw [run_forIn_idle]
  · simp only []
    unfold issOf at hpop
    rw [hpop]
    rfl
  · intro d hd
    exact run_bind_ok (pushChecks_plain (hp d (List.mem_append_right _ hd)))

/-- An instruction that goes on at the next index: a ready context performs the instruction's effect, keeps its books and
goes on. -/
theorem runIssue_ready {r : Req} {s u : State} {body : Iss → M Unit} (h : Ready r s) (hp : Plain r s)
    (hb : Does (body (issOf r s)) s () u) (hg : u.me.grant = false) (hf : u.flows) :
    runIssue r body s = .next (u.after r s.me.tok) := by
  have hfl := stepped_congr (booked_flow u r s.me.tok)
  unfold runIssue runCtl settle
  rw [issueCtl_ready h hp]
  have hgo : (do body (issOf r s); return advance : M Then).run s = .ok advance u := by
    simp only [run_bind, show (body (issOf r s)).run s = .ok () u from hb]
    rfl
  rw [run_bind, imprecise_ok hgo]
  simp only [run_bind, issued_ok hg, advance, run_getMe, goOn, run_setMe]
  have h2 : (u.booked r s.me.tok).me.stepped.2 = false := hfl.2.2.1.trans hf
  simp only [h2]
  rfl

end Sys2Proof.Machine
end

