-- ==== Sys2Proof/Laws/State.lean ====
section
/-! SUPPORT. What each named update of the state and of a context leaves alone, one lemma for each field, so that no later
proof unfolds a record update. -/

namespace Sys2Proof.Machine

@[simp] theorem State.clock_agenda (s : State) (n : Nat) : (s.clock n).agenda = s.agenda := by unfold State.clock; simp only []; split <;> split <;> split <;> rfl
@[simp] theorem State.clock_timers (s : State) (n : Nat) : (s.clock n).timers = s.timers := by unfold State.clock; simp only []; split <;> split <;> split <;> rfl
@[simp] theorem State.clock_me (s : State) (n : Nat) : (s.clock n).me = s.me := by unfold State.clock; simp only []; split <;> split <;> split <;> rfl
@[simp] theorem State.clock_seat (s : State) (n : Nat) : (s.clock n).seat = s.seat := by unfold State.clock; simp only []; split <;> split <;> split <;> rfl
@[simp] theorem State.clock_hereId (s : State) (n : Nat) : (s.clock n).hereId = s.hereId := by unfold State.clock; simp only []; split <;> split <;> split <;> rfl
@[simp] theorem State.clock_clusters (s : State) (n : Nat) : (s.clock n).clusters = s.clusters := by unfold State.clock; simp only []; split <;> split <;> split <;> rfl
@[simp] theorem State.clock_sites (s : State) (n : Nat) : (s.clock n).sites = s.sites := by unfold State.clock; simp only []; split <;> split <;> split <;> rfl
@[simp] theorem State.clock_mem (s : State) (n : Nat) : (s.clock n).mem = s.mem := by unfold State.clock; simp only []; split <;> split <;> split <;> rfl
@[simp] theorem State.clock_homes (s : State) (n : Nat) : (s.clock n).homes = s.homes := by unfold State.clock; simp only []; split <;> split <;> split <;> rfl
@[simp] theorem State.clock_sram (s : State) (n : Nat) : (s.clock n).sram = s.sram := by unfold State.clock; simp only []; split <;> split <;> split <;> rfl
@[simp] theorem State.clock_poison (s : State) (n : Nat) : (s.clock n).poison = s.poison := by unfold State.clock; simp only []; split <;> split <;> split <;> rfl
@[simp] theorem State.clock_sys (s : State) (n : Nat) : (s.clock n).sys = s.sys := by unfold State.clock; simp only []; split <;> split <;> split <;> rfl

@[simp] theorem State.counted_agenda (s : State) (code n : Nat) : (s.counted code n).agenda = s.agenda := rfl
@[simp] theorem State.counted_pending (s : State) (code n : Nat) : (s.counted code n).pending = s.pending := rfl
@[simp] theorem State.counted_timers (s : State) (code n : Nat) : (s.counted code n).timers = s.timers := rfl
@[simp] theorem State.counted_ticks (s : State) (code n : Nat) : (s.counted code n).ticks = s.ticks := rfl
@[simp] theorem State.counted_clk (s : State) (code n : Nat) : (s.counted code n).clk = s.clk := rfl
@[simp] theorem State.counted_seat (s : State) (code n : Nat) : (s.counted code n).seat = s.seat := rfl
@[simp] theorem State.counted_here (s : State) (code n : Nat) : (s.counted code n).here = s.here := rfl
@[simp] theorem State.counted_hereId (s : State) (code n : Nat) : (s.counted code n).hereId = s.hereId := rfl
@[simp] theorem State.counted_cores (s : State) (code n : Nat) : (s.counted code n).cores = s.cores := rfl
@[simp] theorem State.counted_sites (s : State) (code n : Nat) : (s.counted code n).sites = s.sites := rfl
@[simp] theorem State.counted_mem (s : State) (code n : Nat) : (s.counted code n).mem = s.mem := rfl
@[simp] theorem State.counted_homes (s : State) (code n : Nat) : (s.counted code n).homes = s.homes := rfl
@[simp] theorem State.counted_sram (s : State) (code n : Nat) : (s.counted code n).sram = s.sram := rfl
@[simp] theorem State.counted_poison (s : State) (code n : Nat) : (s.counted code n).poison = s.poison := rfl
@[simp] theorem State.counted_sys (s : State) (code n : Nat) : (s.counted code n).sys = s.sys := rfl

@[simp] theorem State.withWord_pending (s : State) (w : W64) : (s.withWord w).pending = s.pending := rfl
@[simp] theorem State.withWord_timers (s : State) (w : W64) : (s.withWord w).timers = s.timers := rfl
@[simp] theorem State.withWord_ticks (s : State) (w : W64) : (s.withWord w).ticks = s.ticks := rfl
@[simp] theorem State.withWord_clk (s : State) (w : W64) : (s.withWord w).clk = s.clk := rfl
@[simp] theorem State.withWord_seat (s : State) (w : W64) : (s.withWord w).seat = s.seat := rfl
@[simp] theorem State.withWord_here (s : State) (w : W64) : (s.withWord w).here = s.here := rfl
@[simp] theorem State.withWord_hereId (s : State) (w : W64) : (s.withWord w).hereId = s.hereId := rfl
@[simp] theorem State.withWord_cores (s : State) (w : W64) : (s.withWord w).cores = s.cores := rfl
@[simp] theorem State.withWord_clusters (s : State) (w : W64) : (s.withWord w).clusters = s.clusters := rfl
@[simp] theorem State.withWord_sites (s : State) (w : W64) : (s.withWord w).sites = s.sites := rfl
@[simp] theorem State.withWord_mem (s : State) (w : W64) : (s.withWord w).mem = s.mem := rfl
@[simp] theorem State.withWord_homes (s : State) (w : W64) : (s.withWord w).homes = s.homes := rfl
@[simp] theorem State.withWord_sram (s : State) (w : W64) : (s.withWord w).sram = s.sram := rfl
@[simp] theorem State.withWord_poison (s : State) (w : W64) : (s.withWord w).poison = s.poison := rfl
@[simp] theorem State.withWord_sys (s : State) (w : W64) : (s.withWord w).sys = s.sys := rfl

@[simp] theorem State.putCore_agenda (s : State) (id : Nat) (c : Core) : (s.putCore id c).agenda = s.agenda := by unfold State.putCore; split <;> [split; skip] <;> rfl
@[simp] theorem State.putCore_pending (s : State) (id : Nat) (c : Core) : (s.putCore id c).pending = s.pending := by unfold State.putCore; split <;> [split; skip] <;> rfl
@[simp] theorem State.putCore_timers (s : State) (id : Nat) (c : Core) : (s.putCore id c).timers = s.timers := by unfold State.putCore; split <;> [split; skip] <;> rfl
@[simp] theorem State.putCore_ticks (s : State) (id : Nat) (c : Core) : (s.putCore id c).ticks = s.ticks := by unfold State.putCore; split <;> [split; skip] <;> rfl
@[simp] theorem State.putCore_clk (s : State) (id : Nat) (c : Core) : (s.putCore id c).clk = s.clk := by unfold State.putCore; split <;> [split; skip] <;> rfl
@[simp] theorem State.putCore_seat (s : State) (id : Nat) (c : Core) : (s.putCore id c).seat = s.seat := by unfold State.putCore; split <;> [split; skip] <;> rfl
@[simp] theorem State.putCore_hereId (s : State) (id : Nat) (c : Core) : (s.putCore id c).hereId = s.hereId := by unfold State.putCore; split <;> [split; skip] <;> rfl
@[simp] theorem State.putCore_clusters (s : State) (id : Nat) (c : Core) : (s.putCore id c).clusters = s.clusters := by unfold State.putCore; split <;> [split; skip] <;> rfl
@[simp] theorem State.putCore_sites (s : State) (id : Nat) (c : Core) : (s.putCore id c).sites = s.sites := by unfold State.putCore; split <;> [split; skip] <;> rfl
@[simp] theorem State.putCore_mem (s : State) (id : Nat) (c : Core) : (s.putCore id c).mem = s.mem := by unfold State.putCore; split <;> [split; skip] <;> rfl
@[simp] theorem State.putCore_homes (s : State) (id : Nat) (c : Core) : (s.putCore id c).homes = s.homes := by unfold State.putCore; split <;> [split; skip] <;> rfl
@[simp] theorem State.putCore_sram (s : State) (id : Nat) (c : Core) : (s.putCore id c).sram = s.sram := by unfold State.putCore; split <;> [split; skip] <;> rfl
@[simp] theorem State.putCore_poison (s : State) (id : Nat) (c : Core) : (s.putCore id c).poison = s.poison := by unfold State.putCore; split <;> [split; skip] <;> rfl
@[simp] theorem State.putCore_sys (s : State) (id : Nat) (c : Core) : (s.putCore id c).sys = s.sys := by unfold State.putCore; split <;> [split; skip] <;> rfl

@[simp] theorem State.raised_agenda (s : State) (f : BitVec 5) : (s.raised f).agenda = s.agenda := by unfold State.raised; split <;> rfl
@[simp] theorem State.raised_pending (s : State) (f : BitVec 5) : (s.raised f).pending = s.pending := by unfold State.raised; split <;> rfl
@[simp] theorem State.raised_timers (s : State) (f : BitVec 5) : (s.raised f).timers = s.timers := by unfold State.raised; split <;> rfl
@[simp] theorem State.raised_ticks (s : State) (f : BitVec 5) : (s.raised f).ticks = s.ticks := by unfold State.raised; split <;> rfl
@[simp] theorem State.raised_clk (s : State) (f : BitVec 5) : (s.raised f).clk = s.clk := by unfold State.raised; split <;> rfl
@[simp] theorem State.raised_seat (s : State) (f : BitVec 5) : (s.raised f).seat = s.seat := by unfold State.raised; split <;> rfl
@[simp] theorem State.raised_here (s : State) (f : BitVec 5) : (s.raised f).here = s.here := by unfold State.raised; split <;> rfl
@[simp] theorem State.raised_hereId (s : State) (f : BitVec 5) : (s.raised f).hereId = s.hereId := by unfold State.raised; split <;> rfl
@[simp] theorem State.raised_cores (s : State) (f : BitVec 5) : (s.raised f).cores = s.cores := by unfold State.raised; split <;> rfl
@[simp] theorem State.raised_sites (s : State) (f : BitVec 5) : (s.raised f).sites = s.sites := by unfold State.raised; split <;> rfl
@[simp] theorem State.raised_mem (s : State) (f : BitVec 5) : (s.raised f).mem = s.mem := by unfold State.raised; split <;> rfl
@[simp] theorem State.raised_homes (s : State) (f : BitVec 5) : (s.raised f).homes = s.homes := by unfold State.raised; split <;> rfl
@[simp] theorem State.raised_sram (s : State) (f : BitVec 5) : (s.raised f).sram = s.sram := by unfold State.raised; split <;> rfl
@[simp] theorem State.raised_poison (s : State) (f : BitVec 5) : (s.raised f).poison = s.poison := by unfold State.raised; split <;> rfl
@[simp] theorem State.raised_sys (s : State) (f : BitVec 5) : (s.raised f).sys = s.sys := by unfold State.raised; split <;> rfl

/-- Bytes written to rows of the turn's core change what a change of that core changes, alone. -/
theorem State.putRowBytes_here {β : Type} (f : State → β) (hf : ∀ s c, f (s.putCore s.hereId c) = f s) (s : State)
    (off : Nat) (bs : List Byte) : f (s.putRowBytes s.hereId off bs) = f s := by
  have word : ∀ t : State, t.hereId = s.hereId → ∀ o b,
      f (t.putRowWord s.hereId o b) = f t ∧ (t.putRowWord s.hereId o b).hereId = s.hereId := by
    intro t ht o b
    rw [← ht]
    unfold State.putRowWord State.putBlock
    split
    · exact ⟨hf _ _, (State.putCore_hereId _ _ _)⟩
    · split
      · exact ⟨hf _ _, (State.putCore_hereId _ _ _)⟩
      · exact ⟨rfl, rfl⟩
  unfold State.putRowBytes
  split
  · exact hf _ _
  · have go : ∀ (l : List (Nat × Nat × Nat)) (t : State), t.hereId = s.hereId →
        f (l.foldl (fun s' p => s'.putRowWord s.hereId p.1 ((bs.drop (bs.length - p.2.1)).take p.2.2)) t) = f t := by
      intro l
      induction l with
      | nil => intro t _; rfl
      | cons p l ih =>
        intro t ht
        obtain ⟨h1, h2⟩ := word t ht p.1 ((bs.drop (bs.length - p.2.1)).take p.2.2)
        exact (ih _ h2).trans h1
    exact go _ s rfl

theorem State.putCore_here_cores (s : State) (c : Core) : (s.putCore s.hereId c).cores = s.cores := by
  unfold State.putCore; rw [if_pos rfl]; split <;> rfl

@[simp] theorem State.ownedWritten_agenda (s : State) (core off n : Nat) : (s.ownedWritten core off n).agenda = s.agenda := by unfold State.ownedWritten; split <;> rfl
@[simp] theorem State.ownedWritten_pending (s : State) (core off n : Nat) : (s.ownedWritten core off n).pending = s.pending := by unfold State.ownedWritten; split <;> rfl
@[simp] theorem State.ownedWritten_timers (s : State) (core off n : Nat) : (s.ownedWritten core off n).timers = s.timers := by unfold State.ownedWritten; split <;> rfl
@[simp] theorem State.ownedWritten_ticks (s : State) (core off n : Nat) : (s.ownedWritten core off n).ticks = s.ticks := by unfold State.ownedWritten; split <;> rfl
@[simp] theorem State.ownedWritten_clk (s : State) (core off n : Nat) : (s.ownedWritten core off n).clk = s.clk := by unfold State.ownedWritten; split <;> rfl
@[simp] theorem State.ownedWritten_seat (s : State) (core off n : Nat) : (s.ownedWritten core off n).seat = s.seat := by unfold State.ownedWritten; split <;> rfl
@[simp] theorem State.ownedWritten_hereId (s : State) (core off n : Nat) : (s.ownedWritten core off n).hereId = s.hereId := by unfold State.ownedWritten; split <;> rfl
@[simp] theorem State.ownedWritten_cores (s : State) (core off n : Nat) : (s.ownedWritten core off n).cores = s.cores := by unfold State.ownedWritten; split <;> rfl
@[simp] theorem State.ownedWritten_sites (s : State) (core off n : Nat) : (s.ownedWritten core off n).sites = s.sites := by unfold State.ownedWritten; split <;> rfl
@[simp] theorem State.ownedWritten_mem (s : State) (core off n : Nat) : (s.ownedWritten core off n).mem = s.mem := by unfold State.ownedWritten; split <;> rfl
@[simp] theorem State.ownedWritten_homes (s : State) (core off n : Nat) : (s.ownedWritten core off n).homes = s.homes := by unfold State.ownedWritten; split <;> rfl
@[simp] theorem State.ownedWritten_sram (s : State) (core off n : Nat) : (s.ownedWritten core off n).sram = s.sram := by unfold State.ownedWritten; split <;> rfl
@[simp] theorem State.ownedWritten_poison (s : State) (core off n : Nat) : (s.ownedWritten core off n).poison = s.poison := by unfold State.ownedWritten; split <;> rfl
@[simp] theorem State.ownedWritten_sys (s : State) (core off n : Nat) : (s.ownedWritten core off n).sys = s.sys := by unfold State.ownedWritten; split <;> rfl

theorem State.rowWritten_agenda (s : State) (off : Nat) (bs : List Byte) :
    ((s.putRowBytes s.hereId off bs).ownedWritten s.hereId off bs.length).agenda = s.agenda :=
  (State.ownedWritten_agenda _ _ _ _).trans (State.putRowBytes_here (·.agenda) (fun s c => State.putCore_agenda s s.hereId c) s off bs)
theorem State.rowWritten_pending (s : State) (off : Nat) (bs : List Byte) :
    ((s.putRowBytes s.hereId off bs).ownedWritten s.hereId off bs.length).pending = s.pending :=
  (State.ownedWritten_pending _ _ _ _).trans (State.putRowBytes_here (·.pending) (fun s c => State.putCore_pending s s.hereId c) s off bs)
theorem State.rowWritten_timers (s : State) (off : Nat) (bs : List Byte) :
    ((s.putRowBytes s.hereId off bs).ownedWritten s.hereId off bs.length).timers = s.timers :=
  (State.ownedWritten_timers _ _ _ _).trans (State.putRowBytes_here (·.timers) (fun s c => State.putCore_timers s s.hereId c) s off bs)
theorem State.rowWritten_ticks (s : State) (off : Nat) (bs : List Byte) :
    ((s.putRowBytes s.hereId off bs).ownedWritten s.hereId off bs.length).ticks = s.ticks :=
  (State.ownedWritten_ticks _ _ _ _).trans (State.putRowBytes_here (·.ticks) (fun s c => State.putCore_ticks s s.hereId c) s off bs)
theorem State.rowWritten_clk (s : State) (off : Nat) (bs : List Byte) :
    ((s.putRowBytes s.hereId off bs).ownedWritten s.hereId off bs.length).clk = s.clk :=
  (State.ownedWritten_clk _ _ _ _).trans (State.putRowBytes_here (·.clk) (fun s c => State.putCore_clk s s.hereId c) s off bs)
theorem State.rowWritten_seat (s : State) (off : Nat) (bs : List Byte) :
    ((s.putRowBytes s.hereId off bs).ownedWritten s.hereId off bs.length).seat = s.seat :=
  (State.ownedWritten_seat _ _ _ _).trans (State.putRowBytes_here (·.seat) (fun s c => State.putCore_seat s s.hereId c) s off bs)
theorem State.rowWritten_hereId (s : State) (off : Nat) (bs : List Byte) :
    ((s.putRowBytes s.hereId off bs).ownedWritten s.hereId off bs.length).hereId = s.hereId :=
  (State.ownedWritten_hereId _ _ _ _).trans (State.putRowBytes_here (·.hereId) (fun s c => State.putCore_hereId s s.hereId c) s off bs)
theorem State.rowWritten_cores (s : State) (off : Nat) (bs : List Byte) :
    ((s.putRowBytes s.hereId off bs).ownedWritten s.hereId off bs.length).cores = s.cores :=
  (State.ownedWritten_cores _ _ _ _).trans (State.putRowBytes_here (·.cores) (State.putCore_here_cores) s off bs)
theorem State.rowWritten_sites (s : State) (off : Nat) (bs : List Byte) :
    ((s.putRowBytes s.hereId off bs).ownedWritten s.hereId off bs.length).sites = s.sites :=
  (State.ownedWritten_sites _ _ _ _).trans (State.putRowBytes_here (·.sites) (fun s c => State.putCore_sites s s.hereId c) s off bs)
theorem State.rowWritten_mem (s : State) (off : Nat) (bs : List Byte) :
    ((s.putRowBytes s.hereId off bs).ownedWritten s.hereId off bs.length).mem = s.mem :=
  (State.ownedWritten_mem _ _ _ _).trans (State.putRowBytes_here (·.mem) (fun s c => State.putCore_mem s s.hereId c) s off bs)
theorem State.rowWritten_homes (s : State) (off : Nat) (bs : List Byte) :
    ((s.putRowBytes s.hereId off bs).ownedWritten s.hereId off bs.length).homes = s.homes :=
  (State.ownedWritten_homes _ _ _ _).trans (State.putRowBytes_here (·.homes) (fun s c => State.putCore_homes s s.hereId c) s off bs)
theorem State.rowWritten_sram (s : State) (off : Nat) (bs : List Byte) :
    ((s.putRowBytes s.hereId off bs).ownedWritten s.hereId off bs.length).sram = s.sram :=
  (State.ownedWritten_sram _ _ _ _).trans (State.putRowBytes_here (·.sram) (fun s c => State.putCore_sram s s.hereId c) s off bs)
theorem State.rowWritten_poison (s : State) (off : Nat) (bs : List Byte) :
    ((s.putRowBytes s.hereId off bs).ownedWritten s.hereId off bs.length).poison = s.poison :=
  (State.ownedWritten_poison _ _ _ _).trans (State.putRowBytes_here (·.poison) (fun s c => State.putCore_poison s s.hereId c) s off bs)
theorem State.rowWritten_sys (s : State) (off : Nat) (bs : List Byte) :
    ((s.putRowBytes s.hereId off bs).ownedWritten s.hereId off bs.length).sys = s.sys :=
  (State.ownedWritten_sys _ _ _ _).trans (State.putRowBytes_here (·.sys) (fun s c => State.putCore_sys s s.hereId c) s off bs)

@[simp] theorem State.write_agenda (s : State) (w : RegWrite) : (s.write w).agenda = s.agenda := by
  cases w <;> first | rfl | exact State.raised_agenda _ _ | exact State.rowWritten_agenda _ _ _ | (simp only [State.write]; split <;> rfl)
@[simp] theorem State.write_pending (s : State) (w : RegWrite) : (s.write w).pending = s.pending := by
  cases w <;> first | rfl | exact State.raised_pending _ _ | exact State.rowWritten_pending _ _ _ | (simp only [State.write]; split <;> rfl)
@[simp] theorem State.write_timers (s : State) (w : RegWrite) : (s.write w).timers = s.timers := by
  cases w <;> first | rfl | exact State.raised_timers _ _ | exact State.rowWritten_timers _ _ _ | (simp only [State.write]; split <;> rfl)
@[simp] theorem State.write_ticks (s : State) (w : RegWrite) : (s.write w).ticks = s.ticks := by
  cases w <;> first | rfl | exact State.raised_ticks _ _ | exact State.rowWritten_ticks _ _ _ | (simp only [State.write]; split <;> rfl)
@[simp] theorem State.write_clk (s : State) (w : RegWrite) : (s.write w).clk = s.clk := by
  cases w <;> first | rfl | exact State.raised_clk _ _ | exact State.rowWritten_clk _ _ _ | (simp only [State.write]; split <;> rfl)
@[simp] theorem State.write_seat (s : State) (w : RegWrite) : (s.write w).seat = s.seat := by
  cases w <;> first | rfl | exact State.raised_seat _ _ | exact State.rowWritten_seat _ _ _ | (simp only [State.write]; split <;> rfl)
@[simp] theorem State.write_hereId (s : State) (w : RegWrite) : (s.write w).hereId = s.hereId := by
  cases w <;> first | rfl | exact State.raised_hereId _ _ | exact State.rowWritten_hereId _ _ _ | (simp only [State.write]; split <;> rfl)
@[simp] theorem State.write_cores (s : State) (w : RegWrite) : (s.write w).cores = s.cores := by
  cases w <;> first | rfl | exact State.raised_cores _ _ | exact State.rowWritten_cores _ _ _ | (simp only [State.write]; split <;> rfl)
@[simp] theorem State.write_sites (s : State) (w : RegWrite) : (s.write w).sites = s.sites := by
  cases w <;> first | rfl | exact State.raised_sites _ _ | exact State.rowWritten_sites _ _ _ | (simp only [State.write]; split <;> rfl)
@[simp] theorem State.write_mem (s : State) (w : RegWrite) : (s.write w).mem = s.mem := by
  cases w <;> first | rfl | exact State.raised_mem _ _ | exact State.rowWritten_mem _ _ _ | (simp only [State.write]; split <;> rfl)
@[simp] theorem State.write_homes (s : State) (w : RegWrite) : (s.write w).homes = s.homes := by
  cases w <;> first | rfl | exact State.raised_homes _ _ | exact State.rowWritten_homes _ _ _ | (simp only [State.write]; split <;> rfl)
@[simp] theorem State.write_sram (s : State) (w : RegWrite) : (s.write w).sram = s.sram := by
  cases w <;> first | rfl | exact State.raised_sram _ _ | exact State.rowWritten_sram _ _ _ | (simp only [State.write]; split <;> rfl)
@[simp] theorem State.write_poison (s : State) (w : RegWrite) : (s.write w).poison = s.poison := by
  cases w <;> first | rfl | exact State.raised_poison _ _ | exact State.rowWritten_poison _ _ _ | (simp only [State.write]; split <;> rfl)
@[simp] theorem State.write_sys (s : State) (w : RegWrite) : (s.write w).sys = s.sys := by
  cases w <;> first | rfl | exact State.raised_sys _ _ | exact State.rowWritten_sys _ _ _ | (simp only [State.write]; split <;> rfl)

@[simp] theorem State.writes_agenda (s : State) (ws : List RegWrite) : (s.writes ws).agenda = s.agenda := by induction ws generalizing s with | nil => rfl | cons w ws ih => exact (ih (s.write w)).trans (State.write_agenda s w)
@[simp] theorem State.writes_pending (s : State) (ws : List RegWrite) : (s.writes ws).pending = s.pending := by induction ws generalizing s with | nil => rfl | cons w ws ih => exact (ih (s.write w)).trans (State.write_pending s w)
@[simp] theorem State.writes_timers (s : State) (ws : List RegWrite) : (s.writes ws).timers = s.timers := by induction ws generalizing s with | nil => rfl | cons w ws ih => exact (ih (s.write w)).trans (State.write_timers s w)
@[simp] theorem State.writes_ticks (s : State) (ws : List RegWrite) : (s.writes ws).ticks = s.ticks := by induction ws generalizing s with | nil => rfl | cons w ws ih => exact (ih (s.write w)).trans (State.write_ticks s w)
@[simp] theorem State.writes_clk (s : State) (ws : List RegWrite) : (s.writes ws).clk = s.clk := by induction ws generalizing s with | nil => rfl | cons w ws ih => exact (ih (s.write w)).trans (State.write_clk s w)
@[simp] theorem State.writes_seat (s : State) (ws : List RegWrite) : (s.writes ws).seat = s.seat := by induction ws generalizing s with | nil => rfl | cons w ws ih => exact (ih (s.write w)).trans (State.write_seat s w)
@[simp] theorem State.writes_hereId (s : State) (ws : List RegWrite) : (s.writes ws).hereId = s.hereId := by induction ws generalizing s with | nil => rfl | cons w ws ih => exact (ih (s.write w)).trans (State.write_hereId s w)
@[simp] theorem State.writes_cores (s : State) (ws : List RegWrite) : (s.writes ws).cores = s.cores := by induction ws generalizing s with | nil => rfl | cons w ws ih => exact (ih (s.write w)).trans (State.write_cores s w)
@[simp] theorem State.writes_sites (s : State) (ws : List RegWrite) : (s.writes ws).sites = s.sites := by induction ws generalizing s with | nil => rfl | cons w ws ih => exact (ih (s.write w)).trans (State.write_sites s w)
@[simp] theorem State.writes_mem (s : State) (ws : List RegWrite) : (s.writes ws).mem = s.mem := by induction ws generalizing s with | nil => rfl | cons w ws ih => exact (ih (s.write w)).trans (State.write_mem s w)
@[simp] theorem State.writes_homes (s : State) (ws : List RegWrite) : (s.writes ws).homes = s.homes := by induction ws generalizing s with | nil => rfl | cons w ws ih => exact (ih (s.write w)).trans (State.write_homes s w)
@[simp] theorem State.writes_sram (s : State) (ws : List RegWrite) : (s.writes ws).sram = s.sram := by induction ws generalizing s with | nil => rfl | cons w ws ih => exact (ih (s.write w)).trans (State.write_sram s w)
@[simp] theorem State.writes_poison (s : State) (ws : List RegWrite) : (s.writes ws).poison = s.poison := by induction ws generalizing s with | nil => rfl | cons w ws ih => exact (ih (s.write w)).trans (State.write_poison s w)
@[simp] theorem State.writes_sys (s : State) (ws : List RegWrite) : (s.writes ws).sys = s.sys := by induction ws generalizing s with | nil => rfl | cons w ws ih => exact (ih (s.write w)).trans (State.write_sys s w)

@[simp] theorem State.putRowWord_agenda (s : State) (core off : Nat) (bs : List Byte) : (s.putRowWord core off bs).agenda = s.agenda := by
  unfold State.putRowWord State.putBlock; split
  · simp
  · split <;> simp
@[simp] theorem State.putRowWord_pending (s : State) (core off : Nat) (bs : List Byte) : (s.putRowWord core off bs).pending = s.pending := by
  unfold State.putRowWord State.putBlock; split
  · simp
  · split <;> simp
@[simp] theorem State.putRowWord_timers (s : State) (core off : Nat) (bs : List Byte) : (s.putRowWord core off bs).timers = s.timers := by
  unfold State.putRowWord State.putBlock; split
  · simp
  · split <;> simp
@[simp] theorem State.putRowWord_ticks (s : State) (core off : Nat) (bs : List Byte) : (s.putRowWord core off bs).ticks = s.ticks := by
  unfold State.putRowWord State.putBlock; split
  · simp
  · split <;> simp
@[simp] theorem State.putRowWord_clk (s : State) (core off : Nat) (bs : List Byte) : (s.putRowWord core off bs).clk = s.clk := by
  unfold State.putRowWord State.putBlock; split
  · simp
  · split <;> simp
@[simp] theorem State.putRowWord_seat (s : State) (core off : Nat) (bs : List Byte) : (s.putRowWord core off bs).seat = s.seat := by
  unfold State.putRowWord State.putBlock; split
  · simp
  · split <;> simp
@[simp] theorem State.putRowWord_hereId (s : State) (core off : Nat) (bs : List Byte) : (s.putRowWord core off bs).hereId = s.hereId := by
  unfold State.putRowWord State.putBlock; split
  · simp
  · split <;> simp
@[simp] theorem State.putRowWord_clusters (s : State) (core off : Nat) (bs : List Byte) : (s.putRowWord core off bs).clusters = s.clusters := by
  unfold State.putRowWord State.putBlock; split
  · simp
  · split <;> simp
@[simp] theorem State.putRowWord_sites (s : State) (core off : Nat) (bs : List Byte) : (s.putRowWord core off bs).sites = s.sites := by
  unfold State.putRowWord State.putBlock; split
  · simp
  · split <;> simp
@[simp] theorem State.putRowWord_mem (s : State) (core off : Nat) (bs : List Byte) : (s.putRowWord core off bs).mem = s.mem := by
  unfold State.putRowWord State.putBlock; split
  · simp
  · split <;> simp
@[simp] theorem State.putRowWord_homes (s : State) (core off : Nat) (bs : List Byte) : (s.putRowWord core off bs).homes = s.homes := by
  unfold State.putRowWord State.putBlock; split
  · simp
  · split <;> simp
@[simp] theorem State.putRowWord_sram (s : State) (core off : Nat) (bs : List Byte) : (s.putRowWord core off bs).sram = s.sram := by
  unfold State.putRowWord State.putBlock; split
  · simp
  · split <;> simp
@[simp] theorem State.putRowWord_poison (s : State) (core off : Nat) (bs : List Byte) : (s.putRowWord core off bs).poison = s.poison := by
  unfold State.putRowWord State.putBlock; split
  · simp
  · split <;> simp
@[simp] theorem State.putRowWord_sys (s : State) (core off : Nat) (bs : List Byte) : (s.putRowWord core off bs).sys = s.sys := by
  unfold State.putRowWord State.putBlock; split
  · simp
  · split <;> simp

@[simp] theorem State.modHome_agenda (s : State) (pa : Nat) (f : Cache → Cache) : (s.modHome pa f).agenda = s.agenda := rfl
@[simp] theorem State.modHome_pending (s : State) (pa : Nat) (f : Cache → Cache) : (s.modHome pa f).pending = s.pending := rfl
@[simp] theorem State.modHome_timers (s : State) (pa : Nat) (f : Cache → Cache) : (s.modHome pa f).timers = s.timers := rfl
@[simp] theorem State.modHome_ticks (s : State) (pa : Nat) (f : Cache → Cache) : (s.modHome pa f).ticks = s.ticks := rfl
@[simp] theorem State.modHome_clk (s : State) (pa : Nat) (f : Cache → Cache) : (s.modHome pa f).clk = s.clk := rfl
@[simp] theorem State.modHome_me (s : State) (pa : Nat) (f : Cache → Cache) : (s.modHome pa f).me = s.me := rfl
@[simp] theorem State.modHome_seat (s : State) (pa : Nat) (f : Cache → Cache) : (s.modHome pa f).seat = s.seat := rfl
@[simp] theorem State.modHome_here (s : State) (pa : Nat) (f : Cache → Cache) : (s.modHome pa f).here = s.here := rfl
@[simp] theorem State.modHome_hereId (s : State) (pa : Nat) (f : Cache → Cache) : (s.modHome pa f).hereId = s.hereId := rfl
@[simp] theorem State.modHome_cores (s : State) (pa : Nat) (f : Cache → Cache) : (s.modHome pa f).cores = s.cores := rfl
@[simp] theorem State.modHome_clusters (s : State) (pa : Nat) (f : Cache → Cache) : (s.modHome pa f).clusters = s.clusters := rfl
@[simp] theorem State.modHome_sites (s : State) (pa : Nat) (f : Cache → Cache) : (s.modHome pa f).sites = s.sites := rfl
@[simp] theorem State.modHome_mem (s : State) (pa : Nat) (f : Cache → Cache) : (s.modHome pa f).mem = s.mem := rfl
@[simp] theorem State.modHome_sram (s : State) (pa : Nat) (f : Cache → Cache) : (s.modHome pa f).sram = s.sram := rfl
@[simp] theorem State.modHome_poison (s : State) (pa : Nat) (f : Cache → Cache) : (s.modHome pa f).poison = s.poison := rfl
@[simp] theorem State.modHome_sys (s : State) (pa : Nat) (f : Cache → Cache) : (s.modHome pa f).sys = s.sys := rfl

@[simp] theorem State.pocPutByte_agenda (s : State) (pa : Nat) (b : Byte) : (s.pocPutByte pa b).agenda = s.agenda := by
  unfold State.pocPutByte
  split
  · simp
  · split <;> (try simp only []) <;> split <;> rfl
@[simp] theorem State.pocPutByte_pending (s : State) (pa : Nat) (b : Byte) : (s.pocPutByte pa b).pending = s.pending := by
  unfold State.pocPutByte
  split
  · simp
  · split <;> (try simp only []) <;> split <;> rfl
@[simp] theorem State.pocPutByte_timers (s : State) (pa : Nat) (b : Byte) : (s.pocPutByte pa b).timers = s.timers := by
  unfold State.pocPutByte
  split
  · simp
  · split <;> (try simp only []) <;> split <;> rfl
@[simp] theorem State.pocPutByte_ticks (s : State) (pa : Nat) (b : Byte) : (s.pocPutByte pa b).ticks = s.ticks := by
  unfold State.pocPutByte
  split
  · simp
  · split <;> (try simp only []) <;> split <;> rfl
@[simp] theorem State.pocPutByte_clk (s : State) (pa : Nat) (b : Byte) : (s.pocPutByte pa b).clk = s.clk := by
  unfold State.pocPutByte
  split
  · simp
  · split <;> (try simp only []) <;> split <;> rfl
@[simp] theorem State.pocPutByte_seat (s : State) (pa : Nat) (b : Byte) : (s.pocPutByte pa b).seat = s.seat := by
  unfold State.pocPutByte
  split
  · simp
  · split <;> (try simp only []) <;> split <;> rfl
@[simp] theorem State.pocPutByte_hereId (s : State) (pa : Nat) (b : Byte) : (s.pocPutByte pa b).hereId = s.hereId := by
  unfold State.pocPutByte
  split
  · simp
  · split <;> (try simp only []) <;> split <;> rfl
@[simp] theorem State.pocPutByte_clusters (s : State) (pa : Nat) (b : Byte) : (s.pocPutByte pa b).clusters = s.clusters := by
  unfold State.pocPutByte
  split
  · simp
  · split <;> (try simp only []) <;> split <;> rfl
@[simp] theorem State.pocPutByte_sites (s : State) (pa : Nat) (b : Byte) : (s.pocPutByte pa b).sites = s.sites := by
  unfold State.pocPutByte
  split
  · simp
  · split <;> (try simp only []) <;> split <;> rfl
@[simp] theorem State.pocPutByte_poison (s : State) (pa : Nat) (b : Byte) : (s.pocPutByte pa b).poison = s.poison := by
  unfold State.pocPutByte
  split
  · simp
  · split <;> (try simp only []) <;> split <;> rfl
@[simp] theorem State.pocPutByte_sys (s : State) (pa : Nat) (b : Byte) : (s.pocPutByte pa b).sys = s.sys := by
  unfold State.pocPutByte
  split
  · simp
  · split <;> (try simp only []) <;> split <;> rfl

@[simp] theorem State.putAll_agenda (s : State) (pa : Nat) (bs : List Byte) : (s.putAll pa bs).agenda = s.agenda := by
  induction bs generalizing s pa with
  | nil => rfl
  | cons b l ih => exact (ih (s.pocPutByte pa b) (pa + 1)).trans (State.pocPutByte_agenda s pa b)
@[simp] theorem State.putAll_pending (s : State) (pa : Nat) (bs : List Byte) : (s.putAll pa bs).pending = s.pending := by
  induction bs generalizing s pa with
  | nil => rfl
  | cons b l ih => exact (ih (s.pocPutByte pa b) (pa + 1)).trans (State.pocPutByte_pending s pa b)
@[simp] theorem State.putAll_timers (s : State) (pa : Nat) (bs : List Byte) : (s.putAll pa bs).timers = s.timers := by
  induction bs generalizing s pa with
  | nil => rfl
  | cons b l ih => exact (ih (s.pocPutByte pa b) (pa + 1)).trans (State.pocPutByte_timers s pa b)
@[simp] theorem State.putAll_ticks (s : State) (pa : Nat) (bs : List Byte) : (s.putAll pa bs).ticks = s.ticks := by
  induction bs generalizing s pa with
  | nil => rfl
  | cons b l ih => exact (ih (s.pocPutByte pa b) (pa + 1)).trans (State.pocPutByte_ticks s pa b)
@[simp] theorem State.putAll_clk (s : State) (pa : Nat) (bs : List Byte) : (s.putAll pa bs).clk = s.clk := by
  induction bs generalizing s pa with
  | nil => rfl
  | cons b l ih => exact (ih (s.pocPutByte pa b) (pa + 1)).trans (State.pocPutByte_clk s pa b)
@[simp] theorem State.putAll_seat (s : State) (pa : Nat) (bs : List Byte) : (s.putAll pa bs).seat = s.seat := by
  induction bs generalizing s pa with
  | nil => rfl
  | cons b l ih => exact (ih (s.pocPutByte pa b) (pa + 1)).trans (State.pocPutByte_seat s pa b)
@[simp] theorem State.putAll_hereId (s : State) (pa : Nat) (bs : List Byte) : (s.putAll pa bs).hereId = s.hereId := by
  induction bs generalizing s pa with
  | nil => rfl
  | cons b l ih => exact (ih (s.pocPutByte pa b) (pa + 1)).trans (State.pocPutByte_hereId s pa b)
@[simp] theorem State.putAll_clusters (s : State) (pa : Nat) (bs : List Byte) : (s.putAll pa bs).clusters = s.clusters := by
  induction bs generalizing s pa with
  | nil => rfl
  | cons b l ih => exact (ih (s.pocPutByte pa b) (pa + 1)).trans (State.pocPutByte_clusters s pa b)
@[simp] theorem State.putAll_sites (s : State) (pa : Nat) (bs : List Byte) : (s.putAll pa bs).sites = s.sites := by
  induction bs generalizing s pa with
  | nil => rfl
  | cons b l ih => exact (ih (s.pocPutByte pa b) (pa + 1)).trans (State.pocPutByte_sites s pa b)
@[simp] theorem State.putAll_poison (s : State) (pa : Nat) (bs : List Byte) : (s.putAll pa bs).poison = s.poison := by
  induction bs generalizing s pa with
  | nil => rfl
  | cons b l ih => exact (ih (s.pocPutByte pa b) (pa + 1)).trans (State.pocPutByte_poison s pa b)
@[simp] theorem State.putAll_sys (s : State) (pa : Nat) (bs : List Byte) : (s.putAll pa bs).sys = s.sys := by
  induction bs generalizing s pa with
  | nil => rfl
  | cons b l ih => exact (ih (s.pocPutByte pa b) (pa + 1)).trans (State.pocPutByte_sys s pa b)

@[simp] theorem State.cleanAtoms_agenda (s : State) (pa n : Nat) : (s.cleanAtoms pa n).agenda = s.agenda := by unfold State.cleanAtoms; split <;> rfl
@[simp] theorem State.cleanAtoms_pending (s : State) (pa n : Nat) : (s.cleanAtoms pa n).pending = s.pending := by unfold State.cleanAtoms; split <;> rfl
@[simp] theorem State.cleanAtoms_timers (s : State) (pa n : Nat) : (s.cleanAtoms pa n).timers = s.timers := by unfold State.cleanAtoms; split <;> rfl
@[simp] theorem State.cleanAtoms_ticks (s : State) (pa n : Nat) : (s.cleanAtoms pa n).ticks = s.ticks := by unfold State.cleanAtoms; split <;> rfl
@[simp] theorem State.cleanAtoms_clk (s : State) (pa n : Nat) : (s.cleanAtoms pa n).clk = s.clk := by unfold State.cleanAtoms; split <;> rfl
@[simp] theorem State.cleanAtoms_me (s : State) (pa n : Nat) : (s.cleanAtoms pa n).me = s.me := by unfold State.cleanAtoms; split <;> rfl
@[simp] theorem State.cleanAtoms_seat (s : State) (pa n : Nat) : (s.cleanAtoms pa n).seat = s.seat := by unfold State.cleanAtoms; split <;> rfl
@[simp] theorem State.cleanAtoms_here (s : State) (pa n : Nat) : (s.cleanAtoms pa n).here = s.here := by unfold State.cleanAtoms; split <;> rfl
@[simp] theorem State.cleanAtoms_hereId (s : State) (pa n : Nat) : (s.cleanAtoms pa n).hereId = s.hereId := by unfold State.cleanAtoms; split <;> rfl
@[simp] theorem State.cleanAtoms_cores (s : State) (pa n : Nat) : (s.cleanAtoms pa n).cores = s.cores := by unfold State.cleanAtoms; split <;> rfl
@[simp] theorem State.cleanAtoms_clusters (s : State) (pa n : Nat) : (s.cleanAtoms pa n).clusters = s.clusters := by unfold State.cleanAtoms; split <;> rfl
@[simp] theorem State.cleanAtoms_sites (s : State) (pa n : Nat) : (s.cleanAtoms pa n).sites = s.sites := by unfold State.cleanAtoms; split <;> rfl
@[simp] theorem State.cleanAtoms_mem (s : State) (pa n : Nat) : (s.cleanAtoms pa n).mem = s.mem := by unfold State.cleanAtoms; split <;> rfl
@[simp] theorem State.cleanAtoms_homes (s : State) (pa n : Nat) : (s.cleanAtoms pa n).homes = s.homes := by unfold State.cleanAtoms; split <;> rfl
@[simp] theorem State.cleanAtoms_sram (s : State) (pa n : Nat) : (s.cleanAtoms pa n).sram = s.sram := by unfold State.cleanAtoms; split <;> rfl
@[simp] theorem State.cleanAtoms_sys (s : State) (pa n : Nat) : (s.cleanAtoms pa n).sys = s.sys := by unfold State.cleanAtoms; split <;> rfl

@[simp] theorem State.cleanForwarded_agenda (s : State) (pa n : Nat) : (s.cleanForwarded pa n).agenda = s.agenda := by
  unfold State.cleanForwarded
  induction (List.range (n / 64 + 1)).map (fun j => (pa + 63) / 64 * 64 + 64 * j) generalizing s with
  | nil => rfl
  | cons a l ih =>
    rw [List.foldl_cons]
    refine (ih _).trans ?_
    split
    · split <;> simp
    · rfl
@[simp] theorem State.cleanForwarded_pending (s : State) (pa n : Nat) : (s.cleanForwarded pa n).pending = s.pending := by
  unfold State.cleanForwarded
  induction (List.range (n / 64 + 1)).map (fun j => (pa + 63) / 64 * 64 + 64 * j) generalizing s with
  | nil => rfl
  | cons a l ih =>
    rw [List.foldl_cons]
    refine (ih _).trans ?_
    split
    · split <;> simp
    · rfl
@[simp] theorem State.cleanForwarded_timers (s : State) (pa n : Nat) : (s.cleanForwarded pa n).timers = s.timers := by
  unfold State.cleanForwarded
  induction (List.range (n / 64 + 1)).map (fun j => (pa + 63) / 64 * 64 + 64 * j) generalizing s with
  | nil => rfl
  | cons a l ih =>
    rw [List.foldl_cons]
    refine (ih _).trans ?_
    split
    · split <;> simp
    · rfl
@[simp] theorem State.cleanForwarded_ticks (s : State) (pa n : Nat) : (s.cleanForwarded pa n).ticks = s.ticks := by
  unfold State.cleanForwarded
  induction (List.range (n / 64 + 1)).map (fun j => (pa + 63) / 64 * 64 + 64 * j) generalizing s with
  | nil => rfl
  | cons a l ih =>
    rw [List.foldl_cons]
    refine (ih _).trans ?_
    split
    · split <;> simp
    · rfl
@[simp] theorem State.cleanForwarded_clk (s : State) (pa n : Nat) : (s.cleanForwarded pa n).clk = s.clk := by
  unfold State.cleanForwarded
  induction (List.range (n / 64 + 1)).map (fun j => (pa + 63) / 64 * 64 + 64 * j) generalizing s with
  | nil => rfl
  | cons a l ih =>
    rw [List.foldl_cons]
    refine (ih _).trans ?_
    split
    · split <;> simp
    · rfl
@[simp] theorem State.cleanForwarded_seat (s : State) (pa n : Nat) : (s.cleanForwarded pa n).seat = s.seat := by
  unfold State.cleanForwarded
  induction (List.range (n / 64 + 1)).map (fun j => (pa + 63) / 64 * 64 + 64 * j) generalizing s with
  | nil => rfl
  | cons a l ih =>
    rw [List.foldl_cons]
    refine (ih _).trans ?_
    split
    · split <;> simp
    · rfl
@[simp] theorem State.cleanForwarded_hereId (s : State) (pa n : Nat) : (s.cleanForwarded pa n).hereId = s.hereId := by
  unfold State.cleanForwarded
  induction (List.range (n / 64 + 1)).map (fun j => (pa + 63) / 64 * 64 + 64 * j) generalizing s with
  | nil => rfl
  | cons a l ih =>
    rw [List.foldl_cons]
    refine (ih _).trans ?_
    split
    · split <;> simp
    · rfl
@[simp] theorem State.cleanForwarded_clusters (s : State) (pa n : Nat) : (s.cleanForwarded pa n).clusters = s.clusters := by
  unfold State.cleanForwarded
  induction (List.range (n / 64 + 1)).map (fun j => (pa + 63) / 64 * 64 + 64 * j) generalizing s with
  | nil => rfl
  | cons a l ih =>
    rw [List.foldl_cons]
    refine (ih _).trans ?_
    split
    · split <;> simp
    · rfl
@[simp] theorem State.cleanForwarded_sites (s : State) (pa n : Nat) : (s.cleanForwarded pa n).sites = s.sites := by
  unfold State.cleanForwarded
  induction (List.range (n / 64 + 1)).map (fun j => (pa + 63) / 64 * 64 + 64 * j) generalizing s with
  | nil => rfl
  | cons a l ih =>
    rw [List.foldl_cons]
    refine (ih _).trans ?_
    split
    · split <;> simp
    · rfl
@[simp] theorem State.cleanForwarded_mem (s : State) (pa n : Nat) : (s.cleanForwarded pa n).mem = s.mem := by
  unfold State.cleanForwarded
  induction (List.range (n / 64 + 1)).map (fun j => (pa + 63) / 64 * 64 + 64 * j) generalizing s with
  | nil => rfl
  | cons a l ih =>
    rw [List.foldl_cons]
    refine (ih _).trans ?_
    split
    · split <;> simp
    · rfl
@[simp] theorem State.cleanForwarded_homes (s : State) (pa n : Nat) : (s.cleanForwarded pa n).homes = s.homes := by
  unfold State.cleanForwarded
  induction (List.range (n / 64 + 1)).map (fun j => (pa + 63) / 64 * 64 + 64 * j) generalizing s with
  | nil => rfl
  | cons a l ih =>
    rw [List.foldl_cons]
    refine (ih _).trans ?_
    split
    · split <;> simp
    · rfl
@[simp] theorem State.cleanForwarded_sram (s : State) (pa n : Nat) : (s.cleanForwarded pa n).sram = s.sram := by
  unfold State.cleanForwarded
  induction (List.range (n / 64 + 1)).map (fun j => (pa + 63) / 64 * 64 + 64 * j) generalizing s with
  | nil => rfl
  | cons a l ih =>
    rw [List.foldl_cons]
    refine (ih _).trans ?_
    split
    · split <;> simp
    · rfl
@[simp] theorem State.cleanForwarded_poison (s : State) (pa n : Nat) : (s.cleanForwarded pa n).poison = s.poison := by
  unfold State.cleanForwarded
  induction (List.range (n / 64 + 1)).map (fun j => (pa + 63) / 64 * 64 + 64 * j) generalizing s with
  | nil => rfl
  | cons a l ih =>
    rw [List.foldl_cons]
    refine (ih _).trans ?_
    split
    · split <;> simp
    · rfl
@[simp] theorem State.cleanForwarded_sys (s : State) (pa n : Nat) : (s.cleanForwarded pa n).sys = s.sys := by
  unfold State.cleanForwarded
  induction (List.range (n / 64 + 1)).map (fun j => (pa + 63) / 64 * 64 + 64 * j) generalizing s with
  | nil => rfl
  | cons a l ih =>
    rw [List.foldl_cons]
    refine (ih _).trans ?_
    split
    · split <;> simp
    · rfl

@[simp] theorem State.pocPutBytes_agenda (s : State) (pa : Nat) (bs : List Byte) : (s.pocPutBytes pa bs).agenda = s.agenda := by simp [State.pocPutBytes]
@[simp] theorem State.pocPutBytes_pending (s : State) (pa : Nat) (bs : List Byte) : (s.pocPutBytes pa bs).pending = s.pending := by simp [State.pocPutBytes]
@[simp] theorem State.pocPutBytes_timers (s : State) (pa : Nat) (bs : List Byte) : (s.pocPutBytes pa bs).timers = s.timers := by simp [State.pocPutBytes]
@[simp] theorem State.pocPutBytes_ticks (s : State) (pa : Nat) (bs : List Byte) : (s.pocPutBytes pa bs).ticks = s.ticks := by simp [State.pocPutBytes]
@[simp] theorem State.pocPutBytes_clk (s : State) (pa : Nat) (bs : List Byte) : (s.pocPutBytes pa bs).clk = s.clk := by simp [State.pocPutBytes]
@[simp] theorem State.pocPutBytes_seat (s : State) (pa : Nat) (bs : List Byte) : (s.pocPutBytes pa bs).seat = s.seat := by simp [State.pocPutBytes]
@[simp] theorem State.pocPutBytes_hereId (s : State) (pa : Nat) (bs : List Byte) : (s.pocPutBytes pa bs).hereId = s.hereId := by simp [State.pocPutBytes]
@[simp] theorem State.pocPutBytes_clusters (s : State) (pa : Nat) (bs : List Byte) : (s.pocPutBytes pa bs).clusters = s.clusters := by simp [State.pocPutBytes]
@[simp] theorem State.pocPutBytes_sites (s : State) (pa : Nat) (bs : List Byte) : (s.pocPutBytes pa bs).sites = s.sites := by simp [State.pocPutBytes]
@[simp] theorem State.pocPutBytes_sys (s : State) (pa : Nat) (bs : List Byte) : (s.pocPutBytes pa bs).sys = s.sys := by simp [State.pocPutBytes]

@[simp] theorem State.putRecord_agenda (s : State) (site f : Nat) (r : BitVec 128) : (s.putRecord site f r).agenda = s.agenda := by simp [State.putRecord]
@[simp] theorem State.putRecord_pending (s : State) (site f : Nat) (r : BitVec 128) : (s.putRecord site f r).pending = s.pending := by simp [State.putRecord]
@[simp] theorem State.putRecord_timers (s : State) (site f : Nat) (r : BitVec 128) : (s.putRecord site f r).timers = s.timers := by simp [State.putRecord]
@[simp] theorem State.putRecord_ticks (s : State) (site f : Nat) (r : BitVec 128) : (s.putRecord site f r).ticks = s.ticks := by simp [State.putRecord]
@[simp] theorem State.putRecord_clk (s : State) (site f : Nat) (r : BitVec 128) : (s.putRecord site f r).clk = s.clk := by simp [State.putRecord]
@[simp] theorem State.putRecord_seat (s : State) (site f : Nat) (r : BitVec 128) : (s.putRecord site f r).seat = s.seat := by simp [State.putRecord]
@[simp] theorem State.putRecord_hereId (s : State) (site f : Nat) (r : BitVec 128) : (s.putRecord site f r).hereId = s.hereId := by simp [State.putRecord]
@[simp] theorem State.putRecord_clusters (s : State) (site f : Nat) (r : BitVec 128) : (s.putRecord site f r).clusters = s.clusters := by simp [State.putRecord]
@[simp] theorem State.putRecord_sites (s : State) (site f : Nat) (r : BitVec 128) : (s.putRecord site f r).sites = s.sites := by simp [State.putRecord]
@[simp] theorem State.putRecord_sys (s : State) (site f : Nat) (r : BitVec 128) : (s.putRecord site f r).sys = s.sys := by simp [State.putRecord]

@[simp] theorem State.switchTo_agenda (s : State) (c : CtxId) : (s.switchTo c).agenda = s.agenda := by unfold State.switchTo; split <;> simp <;> split <;> rfl
@[simp] theorem State.switchTo_pending (s : State) (c : CtxId) : (s.switchTo c).pending = s.pending := by unfold State.switchTo; split <;> simp <;> split <;> rfl
@[simp] theorem State.switchTo_timers (s : State) (c : CtxId) : (s.switchTo c).timers = s.timers := by unfold State.switchTo; split <;> simp <;> split <;> rfl
@[simp] theorem State.switchTo_ticks (s : State) (c : CtxId) : (s.switchTo c).ticks = s.ticks := by unfold State.switchTo; split <;> simp <;> split <;> rfl
@[simp] theorem State.switchTo_clk (s : State) (c : CtxId) : (s.switchTo c).clk = s.clk := by unfold State.switchTo; split <;> simp <;> split <;> rfl
@[simp] theorem State.switchTo_clusters (s : State) (c : CtxId) : (s.switchTo c).clusters = s.clusters := by unfold State.switchTo; split <;> simp <;> split <;> rfl
@[simp] theorem State.switchTo_sites (s : State) (c : CtxId) : (s.switchTo c).sites = s.sites := by unfold State.switchTo; split <;> simp <;> split <;> rfl
@[simp] theorem State.switchTo_mem (s : State) (c : CtxId) : (s.switchTo c).mem = s.mem := by unfold State.switchTo; split <;> simp <;> split <;> rfl
@[simp] theorem State.switchTo_homes (s : State) (c : CtxId) : (s.switchTo c).homes = s.homes := by unfold State.switchTo; split <;> simp <;> split <;> rfl
@[simp] theorem State.switchTo_sram (s : State) (c : CtxId) : (s.switchTo c).sram = s.sram := by unfold State.switchTo; split <;> simp <;> split <;> rfl
@[simp] theorem State.switchTo_poison (s : State) (c : CtxId) : (s.switchTo c).poison = s.poison := by unfold State.switchTo; split <;> simp <;> split <;> rfl
@[simp] theorem State.switchTo_sys (s : State) (c : CtxId) : (s.switchTo c).sys = s.sys := by unfold State.switchTo; split <;> simp <;> split <;> rfl

@[simp] theorem State.charged_agenda (s : State) (r : Req) : (s.charged r).agenda = s.agenda := by unfold State.charged; split <;> rfl
@[simp] theorem State.charged_pending (s : State) (r : Req) : (s.charged r).pending = s.pending := by unfold State.charged; split <;> rfl
@[simp] theorem State.charged_timers (s : State) (r : Req) : (s.charged r).timers = s.timers := by unfold State.charged; split <;> rfl
@[simp] theorem State.charged_ticks (s : State) (r : Req) : (s.charged r).ticks = s.ticks := by unfold State.charged; split <;> rfl
@[simp] theorem State.charged_clk (s : State) (r : Req) : (s.charged r).clk = s.clk := by unfold State.charged; split <;> rfl
@[simp] theorem State.charged_seat (s : State) (r : Req) : (s.charged r).seat = s.seat := by unfold State.charged; split <;> rfl
@[simp] theorem State.charged_hereId (s : State) (r : Req) : (s.charged r).hereId = s.hereId := by unfold State.charged; split <;> rfl
@[simp] theorem State.charged_cores (s : State) (r : Req) : (s.charged r).cores = s.cores := by unfold State.charged; split <;> rfl
@[simp] theorem State.charged_sites (s : State) (r : Req) : (s.charged r).sites = s.sites := by unfold State.charged; split <;> rfl
@[simp] theorem State.charged_mem (s : State) (r : Req) : (s.charged r).mem = s.mem := by unfold State.charged; split <;> rfl
@[simp] theorem State.charged_homes (s : State) (r : Req) : (s.charged r).homes = s.homes := by unfold State.charged; split <;> rfl
@[simp] theorem State.charged_sram (s : State) (r : Req) : (s.charged r).sram = s.sram := by unfold State.charged; split <;> rfl
@[simp] theorem State.charged_poison (s : State) (r : Req) : (s.charged r).poison = s.poison := by unfold State.charged; split <;> rfl
@[simp] theorem State.charged_sys (s : State) (r : Req) : (s.charged r).sys = s.sys := by unfold State.charged; split <;> rfl

@[simp] theorem State.countedIssue_agenda (s : State) (r : Req) : (s.countedIssue r).agenda = s.agenda := by unfold State.countedIssue; simp only []; split <;> simp
@[simp] theorem State.countedIssue_pending (s : State) (r : Req) : (s.countedIssue r).pending = s.pending := by unfold State.countedIssue; simp only []; split <;> simp
@[simp] theorem State.countedIssue_timers (s : State) (r : Req) : (s.countedIssue r).timers = s.timers := by unfold State.countedIssue; simp only []; split <;> simp
@[simp] theorem State.countedIssue_ticks (s : State) (r : Req) : (s.countedIssue r).ticks = s.ticks := by unfold State.countedIssue; simp only []; split <;> simp
@[simp] theorem State.countedIssue_clk (s : State) (r : Req) : (s.countedIssue r).clk = s.clk := by unfold State.countedIssue; simp only []; split <;> simp
@[simp] theorem State.countedIssue_seat (s : State) (r : Req) : (s.countedIssue r).seat = s.seat := by unfold State.countedIssue; simp only []; split <;> simp
@[simp] theorem State.countedIssue_hereId (s : State) (r : Req) : (s.countedIssue r).hereId = s.hereId := by unfold State.countedIssue; simp only []; split <;> simp
@[simp] theorem State.countedIssue_cores (s : State) (r : Req) : (s.countedIssue r).cores = s.cores := by unfold State.countedIssue; simp only []; split <;> simp
@[simp] theorem State.countedIssue_sites (s : State) (r : Req) : (s.countedIssue r).sites = s.sites := by unfold State.countedIssue; simp only []; split <;> simp
@[simp] theorem State.countedIssue_mem (s : State) (r : Req) : (s.countedIssue r).mem = s.mem := by unfold State.countedIssue; simp only []; split <;> simp
@[simp] theorem State.countedIssue_homes (s : State) (r : Req) : (s.countedIssue r).homes = s.homes := by unfold State.countedIssue; simp only []; split <;> simp
@[simp] theorem State.countedIssue_sram (s : State) (r : Req) : (s.countedIssue r).sram = s.sram := by unfold State.countedIssue; simp only []; split <;> simp
@[simp] theorem State.countedIssue_poison (s : State) (r : Req) : (s.countedIssue r).poison = s.poison := by unfold State.countedIssue; simp only []; split <;> simp
@[simp] theorem State.countedIssue_sys (s : State) (r : Req) : (s.countedIssue r).sys = s.sys := by unfold State.countedIssue; simp only []; split <;> simp

@[simp] theorem State.booked_agenda (s : State) (r : Req) (n : Nat) : (s.booked r n).agenda = s.agenda := by simp [State.booked]
@[simp] theorem State.booked_pending (s : State) (r : Req) (n : Nat) : (s.booked r n).pending = s.pending := by simp [State.booked]
@[simp] theorem State.booked_timers (s : State) (r : Req) (n : Nat) : (s.booked r n).timers = s.timers := by simp [State.booked]
@[simp] theorem State.booked_ticks (s : State) (r : Req) (n : Nat) : (s.booked r n).ticks = s.ticks := by simp [State.booked]
@[simp] theorem State.booked_clk (s : State) (r : Req) (n : Nat) : (s.booked r n).clk = s.clk := by simp [State.booked]
@[simp] theorem State.booked_seat (s : State) (r : Req) (n : Nat) : (s.booked r n).seat = s.seat := by simp [State.booked]
@[simp] theorem State.booked_hereId (s : State) (r : Req) (n : Nat) : (s.booked r n).hereId = s.hereId := by simp [State.booked]
@[simp] theorem State.booked_cores (s : State) (r : Req) (n : Nat) : (s.booked r n).cores = s.cores := by simp [State.booked]
@[simp] theorem State.booked_sites (s : State) (r : Req) (n : Nat) : (s.booked r n).sites = s.sites := by simp [State.booked]
@[simp] theorem State.booked_mem (s : State) (r : Req) (n : Nat) : (s.booked r n).mem = s.mem := by simp [State.booked]
@[simp] theorem State.booked_homes (s : State) (r : Req) (n : Nat) : (s.booked r n).homes = s.homes := by simp [State.booked]
@[simp] theorem State.booked_sram (s : State) (r : Req) (n : Nat) : (s.booked r n).sram = s.sram := by simp [State.booked]
@[simp] theorem State.booked_poison (s : State) (r : Req) (n : Nat) : (s.booked r n).poison = s.poison := by simp [State.booked]
@[simp] theorem State.booked_sys (s : State) (r : Req) (n : Nat) : (s.booked r n).sys = s.sys := by simp [State.booked]

@[simp] theorem State.after_agenda (s : State) (r : Req) (n : Nat) : (s.after r n).agenda = s.agenda := by simp [State.after]
@[simp] theorem State.after_pending (s : State) (r : Req) (n : Nat) : (s.after r n).pending = s.pending := by simp [State.after]
@[simp] theorem State.after_timers (s : State) (r : Req) (n : Nat) : (s.after r n).timers = s.timers := by simp [State.after]
@[simp] theorem State.after_ticks (s : State) (r : Req) (n : Nat) : (s.after r n).ticks = s.ticks := by simp [State.after]
@[simp] theorem State.after_clk (s : State) (r : Req) (n : Nat) : (s.after r n).clk = s.clk := by simp [State.after]
@[simp] theorem State.after_seat (s : State) (r : Req) (n : Nat) : (s.after r n).seat = s.seat := by simp [State.after]
@[simp] theorem State.after_hereId (s : State) (r : Req) (n : Nat) : (s.after r n).hereId = s.hereId := by simp [State.after]
@[simp] theorem State.after_cores (s : State) (r : Req) (n : Nat) : (s.after r n).cores = s.cores := by simp [State.after]
@[simp] theorem State.after_sites (s : State) (r : Req) (n : Nat) : (s.after r n).sites = s.sites := by simp [State.after]
@[simp] theorem State.after_mem (s : State) (r : Req) (n : Nat) : (s.after r n).mem = s.mem := by simp [State.after]
@[simp] theorem State.after_homes (s : State) (r : Req) (n : Nat) : (s.after r n).homes = s.homes := by simp [State.after]
@[simp] theorem State.after_sram (s : State) (r : Req) (n : Nat) : (s.after r n).sram = s.sram := by simp [State.after]
@[simp] theorem State.after_poison (s : State) (r : Req) (n : Nat) : (s.after r n).poison = s.poison := by simp [State.after]
@[simp] theorem State.after_sys (s : State) (r : Req) (n : Nat) : (s.after r n).sys = s.sys := by simp [State.after]

@[simp] theorem State.sentTo_agenda (s : State) (r : Req) (n : Nat) (a : W64) : (s.sentTo r n a).agenda = s.agenda := by simp [State.sentTo]
@[simp] theorem State.sentTo_pending (s : State) (r : Req) (n : Nat) (a : W64) : (s.sentTo r n a).pending = s.pending := by simp [State.sentTo]
@[simp] theorem State.sentTo_timers (s : State) (r : Req) (n : Nat) (a : W64) : (s.sentTo r n a).timers = s.timers := by simp [State.sentTo]
@[simp] theorem State.sentTo_ticks (s : State) (r : Req) (n : Nat) (a : W64) : (s.sentTo r n a).ticks = s.ticks := by simp [State.sentTo]
@[simp] theorem State.sentTo_clk (s : State) (r : Req) (n : Nat) (a : W64) : (s.sentTo r n a).clk = s.clk := by simp [State.sentTo]
@[simp] theorem State.sentTo_seat (s : State) (r : Req) (n : Nat) (a : W64) : (s.sentTo r n a).seat = s.seat := by simp [State.sentTo]
@[simp] theorem State.sentTo_hereId (s : State) (r : Req) (n : Nat) (a : W64) : (s.sentTo r n a).hereId = s.hereId := by simp [State.sentTo]
@[simp] theorem State.sentTo_cores (s : State) (r : Req) (n : Nat) (a : W64) : (s.sentTo r n a).cores = s.cores := by simp [State.sentTo]
@[simp] theorem State.sentTo_sites (s : State) (r : Req) (n : Nat) (a : W64) : (s.sentTo r n a).sites = s.sites := by simp [State.sentTo]
@[simp] theorem State.sentTo_mem (s : State) (r : Req) (n : Nat) (a : W64) : (s.sentTo r n a).mem = s.mem := by simp [State.sentTo]
@[simp] theorem State.sentTo_homes (s : State) (r : Req) (n : Nat) (a : W64) : (s.sentTo r n a).homes = s.homes := by simp [State.sentTo]
@[simp] theorem State.sentTo_sram (s : State) (r : Req) (n : Nat) (a : W64) : (s.sentTo r n a).sram = s.sram := by simp [State.sentTo]
@[simp] theorem State.sentTo_poison (s : State) (r : Req) (n : Nat) (a : W64) : (s.sentTo r n a).poison = s.poison := by simp [State.sentTo]
@[simp] theorem State.sentTo_sys (s : State) (r : Req) (n : Nat) (a : W64) : (s.sentTo r n a).sys = s.sys := by simp [State.sentTo]

@[simp] theorem Ctx.unhalt_present (c : Ctx) : c.unhalt.present = c.present := rfl
@[simp] theorem Ctx.unhalt_kind (c : Ctx) : c.unhalt.kind = c.kind := rfl
@[simp] theorem Ctx.unhalt_place (c : Ctx) : c.unhalt.place = c.place := rfl
@[simp] theorem Ctx.unhalt_team (c : Ctx) : c.unhalt.team = c.team := rfl
@[simp] theorem Ctx.unhalt_sup (c : Ctx) : c.unhalt.sup = c.sup := rfl
@[simp] theorem Ctx.unhalt_slots (c : Ctx) : c.unhalt.slots = c.slots := rfl
@[simp] theorem Ctx.unhalt_cur (c : Ctx) : c.unhalt.cur = c.cur := rfl
@[simp] theorem Ctx.unhalt_ran (c : Ctx) : c.unhalt.ran = c.ran := rfl
@[simp] theorem Ctx.unhalt_dsp (c : Ctx) : c.unhalt.dsp = c.dsp := rfl
@[simp] theorem Ctx.unhalt_stacked (c : Ctx) : c.unhalt.stacked = c.stacked := rfl
@[simp] theorem Ctx.unhalt_released (c : Ctx) : c.unhalt.released = c.released := rfl
@[simp] theorem Ctx.unhalt_x (c : Ctx) : c.unhalt.x = c.x := rfl
@[simp] theorem Ctx.unhalt_v (c : Ctx) : c.unhalt.v = c.v := rfl
@[simp] theorem Ctx.unhalt_p (c : Ctx) : c.unhalt.p = c.p := rfl
@[simp] theorem Ctx.unhalt_g (c : Ctx) : c.unhalt.g = c.g := rfl
@[simp] theorem Ctx.unhalt_ls (c : Ctx) : c.unhalt.ls = c.ls := rfl
@[simp] theorem Ctx.unhalt_le (c : Ctx) : c.unhalt.le = c.le := rfl
@[simp] theorem Ctx.unhalt_lc (c : Ctx) : c.unhalt.lc = c.lc := rfl
@[simp] theorem Ctx.unhalt_mode (c : Ctx) : c.unhalt.mode = c.mode := rfl
@[simp] theorem Ctx.unhalt_pend (c : Ctx) : c.unhalt.pend = c.pend := rfl
@[simp] theorem Ctx.unhalt_tok (c : Ctx) : c.unhalt.tok = c.tok := rfl
@[simp] theorem Ctx.unhalt_streams (c : Ctx) : c.unhalt.streams = c.streams := rfl
@[simp] theorem Ctx.unhalt_qi (c : Ctx) : c.unhalt.qi = c.qi := rfl
@[simp] theorem Ctx.unhalt_qo (c : Ctx) : c.unhalt.qo = c.qo := rfl
@[simp] theorem Ctx.unhalt_latch (c : Ctx) : c.unhalt.latch = c.latch := rfl
@[simp] theorem Ctx.unhalt_openBatch (c : Ctx) : c.unhalt.openBatch = c.openBatch := rfl
@[simp] theorem Ctx.unhalt_sealed (c : Ctx) : c.unhalt.sealed = c.sealed := rfl
@[simp] theorem Ctx.unhalt_stall2 (c : Ctx) : c.unhalt.stall2 = c.stall2 := rfl
@[simp] theorem Ctx.unhalt_parked (c : Ctx) : c.unhalt.parked = c.parked := rfl
@[simp] theorem Ctx.unhalt_yielded (c : Ctx) : c.unhalt.yielded = c.yielded := rfl
@[simp] theorem Ctx.unhalt_prog (c : Ctx) : c.unhalt.prog = c.prog := rfl
@[simp] theorem Ctx.unhalt_prog2 (c : Ctx) : c.unhalt.prog2 = c.prog2 := rfl
@[simp] theorem Ctx.unhalt_moved (c : Ctx) : c.unhalt.moved = c.moved := rfl
@[simp] theorem Ctx.unhalt_moved2 (c : Ctx) : c.unhalt.moved2 = c.moved2 := rfl
@[simp] theorem Ctx.unhalt_lastIssue (c : Ctx) : c.unhalt.lastIssue = c.lastIssue := rfl
@[simp] theorem Ctx.unhalt_asked (c : Ctx) : c.unhalt.asked = c.asked := rfl
@[simp] theorem Ctx.unhalt_handler (c : Ctx) : c.unhalt.handler = c.handler := rfl
@[simp] theorem Ctx.unhalt_kept (c : Ctx) : c.unhalt.kept = c.kept := rfl
@[simp] theorem Ctx.unhalt_trapping (c : Ctx) : c.unhalt.trapping = c.trapping := rfl
@[simp] theorem Ctx.unhalt_tpc0 (c : Ctx) : c.unhalt.tpc0 = c.tpc0 := rfl
@[simp] theorem Ctx.unhalt_tpc1 (c : Ctx) : c.unhalt.tpc1 = c.tpc1 := rfl
@[simp] theorem Ctx.unhalt_tcause (c : Ctx) : c.unhalt.tcause = c.tcause := rfl
@[simp] theorem Ctx.unhalt_taddr (c : Ctx) : c.unhalt.taddr = c.taddr := rfl
@[simp] theorem Ctx.unhalt_tmask (c : Ctx) : c.unhalt.tmask = c.tmask := rfl
@[simp] theorem Ctx.unhalt_tspare (c : Ctx) : c.unhalt.tspare = c.tspare := rfl
@[simp] theorem Ctx.unhalt_starved (c : Ctx) : c.unhalt.starved = c.starved := rfl
@[simp] theorem Ctx.unhalt_grant (c : Ctx) : c.unhalt.grant = c.grant := rfl
@[simp] theorem Ctx.unhalt_bkhalt (c : Ctx) : c.unhalt.bkhalt = c.bkhalt := rfl
@[simp] theorem Ctx.unhalt_bp (c : Ctx) : c.unhalt.bp = c.bp := rfl
@[simp] theorem Ctx.unhalt_wp (c : Ctx) : c.unhalt.wp = c.wp := rfl
@[simp] theorem Ctx.unhalt_cbctl (c : Ctx) : c.unhalt.cbctl = c.cbctl := rfl
@[simp] theorem Ctx.unhalt_cnt (c : Ctx) : c.unhalt.cnt = c.cnt := rfl
@[simp] theorem Ctx.unhalt_lav (c : Ctx) : c.unhalt.lav = c.lav := rfl
@[simp] theorem Ctx.unhalt_cbst (c : Ctx) : c.unhalt.cbst = c.cbst := rfl
@[simp] theorem Ctx.unhalt_mkval (c : Ctx) : c.unhalt.mkval = c.mkval := rfl
@[simp] theorem Ctx.unhalt_mkclk (c : Ctx) : c.unhalt.mkclk = c.mkclk := rfl

@[simp] theorem Ctx.booked_present (c : Ctx) (n now : Nat) : (c.booked n now).present = c.present := rfl
@[simp] theorem Ctx.booked_kind (c : Ctx) (n now : Nat) : (c.booked n now).kind = c.kind := rfl
@[simp] theorem Ctx.booked_place (c : Ctx) (n now : Nat) : (c.booked n now).place = c.place := rfl
@[simp] theorem Ctx.booked_team (c : Ctx) (n now : Nat) : (c.booked n now).team = c.team := rfl
@[simp] theorem Ctx.booked_sup (c : Ctx) (n now : Nat) : (c.booked n now).sup = c.sup := rfl
@[simp] theorem Ctx.booked_slots (c : Ctx) (n now : Nat) : (c.booked n now).slots = c.slots := rfl
@[simp] theorem Ctx.booked_cur (c : Ctx) (n now : Nat) : (c.booked n now).cur = c.cur := rfl
@[simp] theorem Ctx.booked_dsp (c : Ctx) (n now : Nat) : (c.booked n now).dsp = c.dsp := rfl
@[simp] theorem Ctx.booked_stacked (c : Ctx) (n now : Nat) : (c.booked n now).stacked = c.stacked := rfl
@[simp] theorem Ctx.booked_released (c : Ctx) (n now : Nat) : (c.booked n now).released = c.released := rfl
@[simp] theorem Ctx.booked_x (c : Ctx) (n now : Nat) : (c.booked n now).x = c.x := rfl
@[simp] theorem Ctx.booked_v (c : Ctx) (n now : Nat) : (c.booked n now).v = c.v := rfl
@[simp] theorem Ctx.booked_p (c : Ctx) (n now : Nat) : (c.booked n now).p = c.p := rfl
@[simp] theorem Ctx.booked_g (c : Ctx) (n now : Nat) : (c.booked n now).g = c.g := rfl
@[simp] theorem Ctx.booked_ls (c : Ctx) (n now : Nat) : (c.booked n now).ls = c.ls := rfl
@[simp] theorem Ctx.booked_le (c : Ctx) (n now : Nat) : (c.booked n now).le = c.le := rfl
@[simp] theorem Ctx.booked_lc (c : Ctx) (n now : Nat) : (c.booked n now).lc = c.lc := rfl
@[simp] theorem Ctx.booked_mode (c : Ctx) (n now : Nat) : (c.booked n now).mode = c.mode := rfl
@[simp] theorem Ctx.booked_tok (c : Ctx) (n now : Nat) : (c.booked n now).tok = c.tok := rfl
@[simp] theorem Ctx.booked_streams (c : Ctx) (n now : Nat) : (c.booked n now).streams = c.streams := rfl
@[simp] theorem Ctx.booked_qi (c : Ctx) (n now : Nat) : (c.booked n now).qi = c.qi := rfl
@[simp] theorem Ctx.booked_qo (c : Ctx) (n now : Nat) : (c.booked n now).qo = c.qo := rfl
@[simp] theorem Ctx.booked_openBatch (c : Ctx) (n now : Nat) : (c.booked n now).openBatch = c.openBatch := rfl
@[simp] theorem Ctx.booked_sealed (c : Ctx) (n now : Nat) : (c.booked n now).sealed = c.sealed := rfl
@[simp] theorem Ctx.booked_stall2 (c : Ctx) (n now : Nat) : (c.booked n now).stall2 = c.stall2 := rfl
@[simp] theorem Ctx.booked_parked (c : Ctx) (n now : Nat) : (c.booked n now).parked = c.parked := rfl
@[simp] theorem Ctx.booked_prog2 (c : Ctx) (n now : Nat) : (c.booked n now).prog2 = c.prog2 := rfl
@[simp] theorem Ctx.booked_moved (c : Ctx) (n now : Nat) : (c.booked n now).moved = c.moved := rfl
@[simp] theorem Ctx.booked_moved2 (c : Ctx) (n now : Nat) : (c.booked n now).moved2 = c.moved2 := rfl
@[simp] theorem Ctx.booked_asked (c : Ctx) (n now : Nat) : (c.booked n now).asked = c.asked := rfl
@[simp] theorem Ctx.booked_handler (c : Ctx) (n now : Nat) : (c.booked n now).handler = c.handler := rfl
@[simp] theorem Ctx.booked_kept (c : Ctx) (n now : Nat) : (c.booked n now).kept = c.kept := rfl
@[simp] theorem Ctx.booked_trapping (c : Ctx) (n now : Nat) : (c.booked n now).trapping = c.trapping := rfl
@[simp] theorem Ctx.booked_tpc0 (c : Ctx) (n now : Nat) : (c.booked n now).tpc0 = c.tpc0 := rfl
@[simp] theorem Ctx.booked_tpc1 (c : Ctx) (n now : Nat) : (c.booked n now).tpc1 = c.tpc1 := rfl
@[simp] theorem Ctx.booked_tcause (c : Ctx) (n now : Nat) : (c.booked n now).tcause = c.tcause := rfl
@[simp] theorem Ctx.booked_taddr (c : Ctx) (n now : Nat) : (c.booked n now).taddr = c.taddr := rfl
@[simp] theorem Ctx.booked_tmask (c : Ctx) (n now : Nat) : (c.booked n now).tmask = c.tmask := rfl
@[simp] theorem Ctx.booked_tspare (c : Ctx) (n now : Nat) : (c.booked n now).tspare = c.tspare := rfl
@[simp] theorem Ctx.booked_starved (c : Ctx) (n now : Nat) : (c.booked n now).starved = c.starved := rfl
@[simp] theorem Ctx.booked_grant (c : Ctx) (n now : Nat) : (c.booked n now).grant = c.grant := rfl
@[simp] theorem Ctx.booked_bkhalt (c : Ctx) (n now : Nat) : (c.booked n now).bkhalt = c.bkhalt := rfl
@[simp] theorem Ctx.booked_bp (c : Ctx) (n now : Nat) : (c.booked n now).bp = c.bp := rfl
@[simp] theorem Ctx.booked_wp (c : Ctx) (n now : Nat) : (c.booked n now).wp = c.wp := rfl
@[simp] theorem Ctx.booked_cbctl (c : Ctx) (n now : Nat) : (c.booked n now).cbctl = c.cbctl := rfl
@[simp] theorem Ctx.booked_cnt (c : Ctx) (n now : Nat) : (c.booked n now).cnt = c.cnt := rfl
@[simp] theorem Ctx.booked_lav (c : Ctx) (n now : Nat) : (c.booked n now).lav = c.lav := rfl
@[simp] theorem Ctx.booked_cbst (c : Ctx) (n now : Nat) : (c.booked n now).cbst = c.cbst := rfl
@[simp] theorem Ctx.booked_mkval (c : Ctx) (n now : Nat) : (c.booked n now).mkval = c.mkval := rfl
@[simp] theorem Ctx.booked_mkclk (c : Ctx) (n now : Nat) : (c.booked n now).mkclk = c.mkclk := rfl

@[simp] theorem Ctx.putSlot_present (c : Ctx) (n : Nat) (p : PcSlot) : (c.putSlot n p).present = c.present := by unfold Ctx.putSlot; split <;> rfl
@[simp] theorem Ctx.putSlot_kind (c : Ctx) (n : Nat) (p : PcSlot) : (c.putSlot n p).kind = c.kind := by unfold Ctx.putSlot; split <;> rfl
@[simp] theorem Ctx.putSlot_place (c : Ctx) (n : Nat) (p : PcSlot) : (c.putSlot n p).place = c.place := by unfold Ctx.putSlot; split <;> rfl
@[simp] theorem Ctx.putSlot_team (c : Ctx) (n : Nat) (p : PcSlot) : (c.putSlot n p).team = c.team := by unfold Ctx.putSlot; split <;> rfl
@[simp] theorem Ctx.putSlot_sup (c : Ctx) (n : Nat) (p : PcSlot) : (c.putSlot n p).sup = c.sup := by unfold Ctx.putSlot; split <;> rfl
@[simp] theorem Ctx.putSlot_cur (c : Ctx) (n : Nat) (p : PcSlot) : (c.putSlot n p).cur = c.cur := by unfold Ctx.putSlot; split <;> rfl
@[simp] theorem Ctx.putSlot_ran (c : Ctx) (n : Nat) (p : PcSlot) : (c.putSlot n p).ran = c.ran := by unfold Ctx.putSlot; split <;> rfl
@[simp] theorem Ctx.putSlot_dsp (c : Ctx) (n : Nat) (p : PcSlot) : (c.putSlot n p).dsp = c.dsp := by unfold Ctx.putSlot; split <;> rfl
@[simp] theorem Ctx.putSlot_stacked (c : Ctx) (n : Nat) (p : PcSlot) : (c.putSlot n p).stacked = c.stacked := by unfold Ctx.putSlot; split <;> rfl
@[simp] theorem Ctx.putSlot_released (c : Ctx) (n : Nat) (p : PcSlot) : (c.putSlot n p).released = c.released := by unfold Ctx.putSlot; split <;> rfl
@[simp] theorem Ctx.putSlot_x (c : Ctx) (n : Nat) (p : PcSlot) : (c.putSlot n p).x = c.x := by unfold Ctx.putSlot; split <;> rfl
@[simp] theorem Ctx.putSlot_v (c : Ctx) (n : Nat) (p : PcSlot) : (c.putSlot n p).v = c.v := by unfold Ctx.putSlot; split <;> rfl
@[simp] theorem Ctx.putSlot_p (c : Ctx) (n : Nat) (p : PcSlot) : (c.putSlot n p).p = c.p := by unfold Ctx.putSlot; split <;> rfl
@[simp] theorem Ctx.putSlot_g (c : Ctx) (n : Nat) (p : PcSlot) : (c.putSlot n p).g = c.g := by unfold Ctx.putSlot; split <;> rfl
@[simp] theorem Ctx.putSlot_ls (c : Ctx) (n : Nat) (p : PcSlot) : (c.putSlot n p).ls = c.ls := by unfold Ctx.putSlot; split <;> rfl
@[simp] theorem Ctx.putSlot_le (c : Ctx) (n : Nat) (p : PcSlot) : (c.putSlot n p).le = c.le := by unfold Ctx.putSlot; split <;> rfl
@[simp] theorem Ctx.putSlot_lc (c : Ctx) (n : Nat) (p : PcSlot) : (c.putSlot n p).lc = c.lc := by unfold Ctx.putSlot; split <;> rfl
@[simp] theorem Ctx.putSlot_mode (c : Ctx) (n : Nat) (p : PcSlot) : (c.putSlot n p).mode = c.mode := by unfold Ctx.putSlot; split <;> rfl
@[simp] theorem Ctx.putSlot_pend (c : Ctx) (n : Nat) (p : PcSlot) : (c.putSlot n p).pend = c.pend := by unfold Ctx.putSlot; split <;> rfl
@[simp] theorem Ctx.putSlot_tok (c : Ctx) (n : Nat) (p : PcSlot) : (c.putSlot n p).tok = c.tok := by unfold Ctx.putSlot; split <;> rfl
@[simp] theorem Ctx.putSlot_streams (c : Ctx) (n : Nat) (p : PcSlot) : (c.putSlot n p).streams = c.streams := by unfold Ctx.putSlot; split <;> rfl
@[simp] theorem Ctx.putSlot_qi (c : Ctx) (n : Nat) (p : PcSlot) : (c.putSlot n p).qi = c.qi := by unfold Ctx.putSlot; split <;> rfl
@[simp] theorem Ctx.putSlot_qo (c : Ctx) (n : Nat) (p : PcSlot) : (c.putSlot n p).qo = c.qo := by unfold Ctx.putSlot; split <;> rfl
@[simp] theorem Ctx.putSlot_latch (c : Ctx) (n : Nat) (p : PcSlot) : (c.putSlot n p).latch = c.latch := by unfold Ctx.putSlot; split <;> rfl
@[simp] theorem Ctx.putSlot_openBatch (c : Ctx) (n : Nat) (p : PcSlot) : (c.putSlot n p).openBatch = c.openBatch := by unfold Ctx.putSlot; split <;> rfl
@[simp] theorem Ctx.putSlot_sealed (c : Ctx) (n : Nat) (p : PcSlot) : (c.putSlot n p).sealed = c.sealed := by unfold Ctx.putSlot; split <;> rfl
@[simp] theorem Ctx.putSlot_stall (c : Ctx) (n : Nat) (p : PcSlot) : (c.putSlot n p).stall = c.stall := by unfold Ctx.putSlot; split <;> rfl
@[simp] theorem Ctx.putSlot_stall2 (c : Ctx) (n : Nat) (p : PcSlot) : (c.putSlot n p).stall2 = c.stall2 := by unfold Ctx.putSlot; split <;> rfl
@[simp] theorem Ctx.putSlot_parked (c : Ctx) (n : Nat) (p : PcSlot) : (c.putSlot n p).parked = c.parked := by unfold Ctx.putSlot; split <;> rfl
@[simp] theorem Ctx.putSlot_yielded (c : Ctx) (n : Nat) (p : PcSlot) : (c.putSlot n p).yielded = c.yielded := by unfold Ctx.putSlot; split <;> rfl
@[simp] theorem Ctx.putSlot_prog (c : Ctx) (n : Nat) (p : PcSlot) : (c.putSlot n p).prog = c.prog := by unfold Ctx.putSlot; split <;> rfl
@[simp] theorem Ctx.putSlot_prog2 (c : Ctx) (n : Nat) (p : PcSlot) : (c.putSlot n p).prog2 = c.prog2 := by unfold Ctx.putSlot; split <;> rfl
@[simp] theorem Ctx.putSlot_moved (c : Ctx) (n : Nat) (p : PcSlot) : (c.putSlot n p).moved = c.moved := by unfold Ctx.putSlot; split <;> rfl
@[simp] theorem Ctx.putSlot_moved2 (c : Ctx) (n : Nat) (p : PcSlot) : (c.putSlot n p).moved2 = c.moved2 := by unfold Ctx.putSlot; split <;> rfl
@[simp] theorem Ctx.putSlot_lastIssue (c : Ctx) (n : Nat) (p : PcSlot) : (c.putSlot n p).lastIssue = c.lastIssue := by unfold Ctx.putSlot; split <;> rfl
@[simp] theorem Ctx.putSlot_asked (c : Ctx) (n : Nat) (p : PcSlot) : (c.putSlot n p).asked = c.asked := by unfold Ctx.putSlot; split <;> rfl
@[simp] theorem Ctx.putSlot_handler (c : Ctx) (n : Nat) (p : PcSlot) : (c.putSlot n p).handler = c.handler := by unfold Ctx.putSlot; split <;> rfl
@[simp] theorem Ctx.putSlot_kept (c : Ctx) (n : Nat) (p : PcSlot) : (c.putSlot n p).kept = c.kept := by unfold Ctx.putSlot; split <;> rfl
@[simp] theorem Ctx.putSlot_trapping (c : Ctx) (n : Nat) (p : PcSlot) : (c.putSlot n p).trapping = c.trapping := by unfold Ctx.putSlot; split <;> rfl
@[simp] theorem Ctx.putSlot_tpc0 (c : Ctx) (n : Nat) (p : PcSlot) : (c.putSlot n p).tpc0 = c.tpc0 := by unfold Ctx.putSlot; split <;> rfl
@[simp] theorem Ctx.putSlot_tpc1 (c : Ctx) (n : Nat) (p : PcSlot) : (c.putSlot n p).tpc1 = c.tpc1 := by unfold Ctx.putSlot; split <;> rfl
@[simp] theorem Ctx.putSlot_tcause (c : Ctx) (n : Nat) (p : PcSlot) : (c.putSlot n p).tcause = c.tcause := by unfold Ctx.putSlot; split <;> rfl
@[simp] theorem Ctx.putSlot_taddr (c : Ctx) (n : Nat) (p : PcSlot) : (c.putSlot n p).taddr = c.taddr := by unfold Ctx.putSlot; split <;> rfl
@[simp] theorem Ctx.putSlot_tmask (c : Ctx) (n : Nat) (p : PcSlot) : (c.putSlot n p).tmask = c.tmask := by unfold Ctx.putSlot; split <;> rfl
@[simp] theorem Ctx.putSlot_tspare (c : Ctx) (n : Nat) (p : PcSlot) : (c.putSlot n p).tspare = c.tspare := by unfold Ctx.putSlot; split <;> rfl
@[simp] theorem Ctx.putSlot_starved (c : Ctx) (n : Nat) (p : PcSlot) : (c.putSlot n p).starved = c.starved := by unfold Ctx.putSlot; split <;> rfl
@[simp] theorem Ctx.putSlot_grant (c : Ctx) (n : Nat) (p : PcSlot) : (c.putSlot n p).grant = c.grant := by unfold Ctx.putSlot; split <;> rfl
@[simp] theorem Ctx.putSlot_halted (c : Ctx) (n : Nat) (p : PcSlot) : (c.putSlot n p).halted = c.halted := by unfold Ctx.putSlot; split <;> rfl
@[simp] theorem Ctx.putSlot_bkhalt (c : Ctx) (n : Nat) (p : PcSlot) : (c.putSlot n p).bkhalt = c.bkhalt := by unfold Ctx.putSlot; split <;> rfl
@[simp] theorem Ctx.putSlot_stepping (c : Ctx) (n : Nat) (p : PcSlot) : (c.putSlot n p).stepping = c.stepping := by unfold Ctx.putSlot; split <;> rfl
@[simp] theorem Ctx.putSlot_stepWord (c : Ctx) (n : Nat) (p : PcSlot) : (c.putSlot n p).stepWord = c.stepWord := by unfold Ctx.putSlot; split <;> rfl
@[simp] theorem Ctx.putSlot_bp (c : Ctx) (n : Nat) (p : PcSlot) : (c.putSlot n p).bp = c.bp := by unfold Ctx.putSlot; split <;> rfl
@[simp] theorem Ctx.putSlot_wp (c : Ctx) (n : Nat) (p : PcSlot) : (c.putSlot n p).wp = c.wp := by unfold Ctx.putSlot; split <;> rfl
@[simp] theorem Ctx.putSlot_cbctl (c : Ctx) (n : Nat) (p : PcSlot) : (c.putSlot n p).cbctl = c.cbctl := by unfold Ctx.putSlot; split <;> rfl
@[simp] theorem Ctx.putSlot_cnt (c : Ctx) (n : Nat) (p : PcSlot) : (c.putSlot n p).cnt = c.cnt := by unfold Ctx.putSlot; split <;> rfl
@[simp] theorem Ctx.putSlot_lav (c : Ctx) (n : Nat) (p : PcSlot) : (c.putSlot n p).lav = c.lav := by unfold Ctx.putSlot; split <;> rfl
@[simp] theorem Ctx.putSlot_cbst (c : Ctx) (n : Nat) (p : PcSlot) : (c.putSlot n p).cbst = c.cbst := by unfold Ctx.putSlot; split <;> rfl
@[simp] theorem Ctx.putSlot_mkval (c : Ctx) (n : Nat) (p : PcSlot) : (c.putSlot n p).mkval = c.mkval := by unfold Ctx.putSlot; split <;> rfl
@[simp] theorem Ctx.putSlot_mkclk (c : Ctx) (n : Nat) (p : PcSlot) : (c.putSlot n p).mkclk = c.mkclk := by unfold Ctx.putSlot; split <;> rfl

@[simp] theorem Ctx.modCur_present (c : Ctx) (f : PcSlot → PcSlot) : (c.modCur f).present = c.present := by simp [Ctx.modCur]
@[simp] theorem Ctx.modCur_kind (c : Ctx) (f : PcSlot → PcSlot) : (c.modCur f).kind = c.kind := by simp [Ctx.modCur]
@[simp] theorem Ctx.modCur_place (c : Ctx) (f : PcSlot → PcSlot) : (c.modCur f).place = c.place := by simp [Ctx.modCur]
@[simp] theorem Ctx.modCur_team (c : Ctx) (f : PcSlot → PcSlot) : (c.modCur f).team = c.team := by simp [Ctx.modCur]
@[simp] theorem Ctx.modCur_sup (c : Ctx) (f : PcSlot → PcSlot) : (c.modCur f).sup = c.sup := by simp [Ctx.modCur]
@[simp] theorem Ctx.modCur_cur (c : Ctx) (f : PcSlot → PcSlot) : (c.modCur f).cur = c.cur := by simp [Ctx.modCur]
@[simp] theorem Ctx.modCur_ran (c : Ctx) (f : PcSlot → PcSlot) : (c.modCur f).ran = c.ran := by simp [Ctx.modCur]
@[simp] theorem Ctx.modCur_dsp (c : Ctx) (f : PcSlot → PcSlot) : (c.modCur f).dsp = c.dsp := by simp [Ctx.modCur]
@[simp] theorem Ctx.modCur_stacked (c : Ctx) (f : PcSlot → PcSlot) : (c.modCur f).stacked = c.stacked := by simp [Ctx.modCur]
@[simp] theorem Ctx.modCur_released (c : Ctx) (f : PcSlot → PcSlot) : (c.modCur f).released = c.released := by simp [Ctx.modCur]
@[simp] theorem Ctx.modCur_x (c : Ctx) (f : PcSlot → PcSlot) : (c.modCur f).x = c.x := by simp [Ctx.modCur]
@[simp] theorem Ctx.modCur_v (c : Ctx) (f : PcSlot → PcSlot) : (c.modCur f).v = c.v := by simp [Ctx.modCur]
@[simp] theorem Ctx.modCur_p (c : Ctx) (f : PcSlot → PcSlot) : (c.modCur f).p = c.p := by simp [Ctx.modCur]
@[simp] theorem Ctx.modCur_g (c : Ctx) (f : PcSlot → PcSlot) : (c.modCur f).g = c.g := by simp [Ctx.modCur]
@[simp] theorem Ctx.modCur_ls (c : Ctx) (f : PcSlot → PcSlot) : (c.modCur f).ls = c.ls := by simp [Ctx.modCur]
@[simp] theorem Ctx.modCur_le (c : Ctx) (f : PcSlot → PcSlot) : (c.modCur f).le = c.le := by simp [Ctx.modCur]
@[simp] theorem Ctx.modCur_lc (c : Ctx) (f : PcSlot → PcSlot) : (c.modCur f).lc = c.lc := by simp [Ctx.modCur]
@[simp] theorem Ctx.modCur_mode (c : Ctx) (f : PcSlot → PcSlot) : (c.modCur f).mode = c.mode := by simp [Ctx.modCur]
@[simp] theorem Ctx.modCur_pend (c : Ctx) (f : PcSlot → PcSlot) : (c.modCur f).pend = c.pend := by simp [Ctx.modCur]
@[simp] theorem Ctx.modCur_tok (c : Ctx) (f : PcSlot → PcSlot) : (c.modCur f).tok = c.tok := by simp [Ctx.modCur]
@[simp] theorem Ctx.modCur_streams (c : Ctx) (f : PcSlot → PcSlot) : (c.modCur f).streams = c.streams := by simp [Ctx.modCur]
@[simp] theorem Ctx.modCur_qi (c : Ctx) (f : PcSlot → PcSlot) : (c.modCur f).qi = c.qi := by simp [Ctx.modCur]
@[simp] theorem Ctx.modCur_qo (c : Ctx) (f : PcSlot → PcSlot) : (c.modCur f).qo = c.qo := by simp [Ctx.modCur]
@[simp] theorem Ctx.modCur_latch (c : Ctx) (f : PcSlot → PcSlot) : (c.modCur f).latch = c.latch := by simp [Ctx.modCur]
@[simp] theorem Ctx.modCur_openBatch (c : Ctx) (f : PcSlot → PcSlot) : (c.modCur f).openBatch = c.openBatch := by simp [Ctx.modCur]
@[simp] theorem Ctx.modCur_sealed (c : Ctx) (f : PcSlot → PcSlot) : (c.modCur f).sealed = c.sealed := by simp [Ctx.modCur]
@[simp] theorem Ctx.modCur_stall (c : Ctx) (f : PcSlot → PcSlot) : (c.modCur f).stall = c.stall := by simp [Ctx.modCur]
@[simp] theorem Ctx.modCur_stall2 (c : Ctx) (f : PcSlot → PcSlot) : (c.modCur f).stall2 = c.stall2 := by simp [Ctx.modCur]
@[simp] theorem Ctx.modCur_parked (c : Ctx) (f : PcSlot → PcSlot) : (c.modCur f).parked = c.parked := by simp [Ctx.modCur]
@[simp] theorem Ctx.modCur_yielded (c : Ctx) (f : PcSlot → PcSlot) : (c.modCur f).yielded = c.yielded := by simp [Ctx.modCur]
@[simp] theorem Ctx.modCur_prog (c : Ctx) (f : PcSlot → PcSlot) : (c.modCur f).prog = c.prog := by simp [Ctx.modCur]
@[simp] theorem Ctx.modCur_prog2 (c : Ctx) (f : PcSlot → PcSlot) : (c.modCur f).prog2 = c.prog2 := by simp [Ctx.modCur]
@[simp] theorem Ctx.modCur_moved (c : Ctx) (f : PcSlot → PcSlot) : (c.modCur f).moved = c.moved := by simp [Ctx.modCur]
@[simp] theorem Ctx.modCur_moved2 (c : Ctx) (f : PcSlot → PcSlot) : (c.modCur f).moved2 = c.moved2 := by simp [Ctx.modCur]
@[simp] theorem Ctx.modCur_lastIssue (c : Ctx) (f : PcSlot → PcSlot) : (c.modCur f).lastIssue = c.lastIssue := by simp [Ctx.modCur]
@[simp] theorem Ctx.modCur_asked (c : Ctx) (f : PcSlot → PcSlot) : (c.modCur f).asked = c.asked := by simp [Ctx.modCur]
@[simp] theorem Ctx.modCur_handler (c : Ctx) (f : PcSlot → PcSlot) : (c.modCur f).handler = c.handler := by simp [Ctx.modCur]
@[simp] theorem Ctx.modCur_kept (c : Ctx) (f : PcSlot → PcSlot) : (c.modCur f).kept = c.kept := by simp [Ctx.modCur]
@[simp] theorem Ctx.modCur_trapping (c : Ctx) (f : PcSlot → PcSlot) : (c.modCur f).trapping = c.trapping := by simp [Ctx.modCur]
@[simp] theorem Ctx.modCur_tpc0 (c : Ctx) (f : PcSlot → PcSlot) : (c.modCur f).tpc0 = c.tpc0 := by simp [Ctx.modCur]
@[simp] theorem Ctx.modCur_tpc1 (c : Ctx) (f : PcSlot → PcSlot) : (c.modCur f).tpc1 = c.tpc1 := by simp [Ctx.modCur]
@[simp] theorem Ctx.modCur_tcause (c : Ctx) (f : PcSlot → PcSlot) : (c.modCur f).tcause = c.tcause := by simp [Ctx.modCur]
@[simp] theorem Ctx.modCur_taddr (c : Ctx) (f : PcSlot → PcSlot) : (c.modCur f).taddr = c.taddr := by simp [Ctx.modCur]
@[simp] theorem Ctx.modCur_tmask (c : Ctx) (f : PcSlot → PcSlot) : (c.modCur f).tmask = c.tmask := by simp [Ctx.modCur]
@[simp] theorem Ctx.modCur_tspare (c : Ctx) (f : PcSlot → PcSlot) : (c.modCur f).tspare = c.tspare := by simp [Ctx.modCur]
@[simp] theorem Ctx.modCur_starved (c : Ctx) (f : PcSlot → PcSlot) : (c.modCur f).starved = c.starved := by simp [Ctx.modCur]
@[simp] theorem Ctx.modCur_grant (c : Ctx) (f : PcSlot → PcSlot) : (c.modCur f).grant = c.grant := by simp [Ctx.modCur]
@[simp] theorem Ctx.modCur_halted (c : Ctx) (f : PcSlot → PcSlot) : (c.modCur f).halted = c.halted := by simp [Ctx.modCur]
@[simp] theorem Ctx.modCur_bkhalt (c : Ctx) (f : PcSlot → PcSlot) : (c.modCur f).bkhalt = c.bkhalt := by simp [Ctx.modCur]
@[simp] theorem Ctx.modCur_stepping (c : Ctx) (f : PcSlot → PcSlot) : (c.modCur f).stepping = c.stepping := by simp [Ctx.modCur]
@[simp] theorem Ctx.modCur_stepWord (c : Ctx) (f : PcSlot → PcSlot) : (c.modCur f).stepWord = c.stepWord := by simp [Ctx.modCur]
@[simp] theorem Ctx.modCur_bp (c : Ctx) (f : PcSlot → PcSlot) : (c.modCur f).bp = c.bp := by simp [Ctx.modCur]
@[simp] theorem Ctx.modCur_wp (c : Ctx) (f : PcSlot → PcSlot) : (c.modCur f).wp = c.wp := by simp [Ctx.modCur]
@[simp] theorem Ctx.modCur_cbctl (c : Ctx) (f : PcSlot → PcSlot) : (c.modCur f).cbctl = c.cbctl := by simp [Ctx.modCur]
@[simp] theorem Ctx.modCur_cnt (c : Ctx) (f : PcSlot → PcSlot) : (c.modCur f).cnt = c.cnt := by simp [Ctx.modCur]
@[simp] theorem Ctx.modCur_lav (c : Ctx) (f : PcSlot → PcSlot) : (c.modCur f).lav = c.lav := by simp [Ctx.modCur]
@[simp] theorem Ctx.modCur_cbst (c : Ctx) (f : PcSlot → PcSlot) : (c.modCur f).cbst = c.cbst := by simp [Ctx.modCur]
@[simp] theorem Ctx.modCur_mkval (c : Ctx) (f : PcSlot → PcSlot) : (c.modCur f).mkval = c.mkval := by simp [Ctx.modCur]
@[simp] theorem Ctx.modCur_mkclk (c : Ctx) (f : PcSlot → PcSlot) : (c.modCur f).mkclk = c.mkclk := by simp [Ctx.modCur]

@[simp] theorem Ctx.discard_present (c : Ctx) : c.discard.present = c.present := rfl
@[simp] theorem Ctx.discard_kind (c : Ctx) : c.discard.kind = c.kind := rfl
@[simp] theorem Ctx.discard_place (c : Ctx) : c.discard.place = c.place := rfl
@[simp] theorem Ctx.discard_team (c : Ctx) : c.discard.team = c.team := rfl
@[simp] theorem Ctx.discard_sup (c : Ctx) : c.discard.sup = c.sup := rfl
@[simp] theorem Ctx.discard_cur (c : Ctx) : c.discard.cur = c.cur := rfl
@[simp] theorem Ctx.discard_ran (c : Ctx) : c.discard.ran = c.ran := rfl
@[simp] theorem Ctx.discard_dsp (c : Ctx) : c.discard.dsp = c.dsp := rfl
@[simp] theorem Ctx.discard_stacked (c : Ctx) : c.discard.stacked = c.stacked := rfl
@[simp] theorem Ctx.discard_released (c : Ctx) : c.discard.released = c.released := rfl
@[simp] theorem Ctx.discard_x (c : Ctx) : c.discard.x = c.x := rfl
@[simp] theorem Ctx.discard_v (c : Ctx) : c.discard.v = c.v := rfl
@[simp] theorem Ctx.discard_p (c : Ctx) : c.discard.p = c.p := rfl
@[simp] theorem Ctx.discard_g (c : Ctx) : c.discard.g = c.g := rfl
@[simp] theorem Ctx.discard_ls (c : Ctx) : c.discard.ls = c.ls := rfl
@[simp] theorem Ctx.discard_le (c : Ctx) : c.discard.le = c.le := rfl
@[simp] theorem Ctx.discard_lc (c : Ctx) : c.discard.lc = c.lc := rfl
@[simp] theorem Ctx.discard_mode (c : Ctx) : c.discard.mode = c.mode := rfl
@[simp] theorem Ctx.discard_pend (c : Ctx) : c.discard.pend = c.pend := rfl
@[simp] theorem Ctx.discard_tok (c : Ctx) : c.discard.tok = c.tok := rfl
@[simp] theorem Ctx.discard_streams (c : Ctx) : c.discard.streams = c.streams := rfl
@[simp] theorem Ctx.discard_qi (c : Ctx) : c.discard.qi = c.qi := rfl
@[simp] theorem Ctx.discard_qo (c : Ctx) : c.discard.qo = c.qo := rfl
@[simp] theorem Ctx.discard_latch (c : Ctx) : c.discard.latch = c.latch := rfl
@[simp] theorem Ctx.discard_openBatch (c : Ctx) : c.discard.openBatch = c.openBatch := rfl
@[simp] theorem Ctx.discard_sealed (c : Ctx) : c.discard.sealed = c.sealed := rfl
@[simp] theorem Ctx.discard_stall (c : Ctx) : c.discard.stall = c.stall := rfl
@[simp] theorem Ctx.discard_stall2 (c : Ctx) : c.discard.stall2 = c.stall2 := rfl
@[simp] theorem Ctx.discard_parked (c : Ctx) : c.discard.parked = c.parked := rfl
@[simp] theorem Ctx.discard_yielded (c : Ctx) : c.discard.yielded = c.yielded := rfl
@[simp] theorem Ctx.discard_prog (c : Ctx) : c.discard.prog = c.prog := rfl
@[simp] theorem Ctx.discard_prog2 (c : Ctx) : c.discard.prog2 = c.prog2 := rfl
@[simp] theorem Ctx.discard_moved (c : Ctx) : c.discard.moved = c.moved := rfl
@[simp] theorem Ctx.discard_moved2 (c : Ctx) : c.discard.moved2 = c.moved2 := rfl
@[simp] theorem Ctx.discard_lastIssue (c : Ctx) : c.discard.lastIssue = c.lastIssue := rfl
@[simp] theorem Ctx.discard_asked (c : Ctx) : c.discard.asked = c.asked := rfl
@[simp] theorem Ctx.discard_handler (c : Ctx) : c.discard.handler = c.handler := rfl
@[simp] theorem Ctx.discard_kept (c : Ctx) : c.discard.kept = c.kept := rfl
@[simp] theorem Ctx.discard_trapping (c : Ctx) : c.discard.trapping = c.trapping := rfl
@[simp] theorem Ctx.discard_tpc0 (c : Ctx) : c.discard.tpc0 = c.tpc0 := rfl
@[simp] theorem Ctx.discard_tpc1 (c : Ctx) : c.discard.tpc1 = c.tpc1 := rfl
@[simp] theorem Ctx.discard_tcause (c : Ctx) : c.discard.tcause = c.tcause := rfl
@[simp] theorem Ctx.discard_taddr (c : Ctx) : c.discard.taddr = c.taddr := rfl
@[simp] theorem Ctx.discard_tmask (c : Ctx) : c.discard.tmask = c.tmask := rfl
@[simp] theorem Ctx.discard_tspare (c : Ctx) : c.discard.tspare = c.tspare := rfl
@[simp] theorem Ctx.discard_starved (c : Ctx) : c.discard.starved = c.starved := rfl
@[simp] theorem Ctx.discard_grant (c : Ctx) : c.discard.grant = c.grant := rfl
@[simp] theorem Ctx.discard_halted (c : Ctx) : c.discard.halted = c.halted := rfl
@[simp] theorem Ctx.discard_bkhalt (c : Ctx) : c.discard.bkhalt = c.bkhalt := rfl
@[simp] theorem Ctx.discard_stepping (c : Ctx) : c.discard.stepping = c.stepping := rfl
@[simp] theorem Ctx.discard_stepWord (c : Ctx) : c.discard.stepWord = c.stepWord := rfl
@[simp] theorem Ctx.discard_bp (c : Ctx) : c.discard.bp = c.bp := rfl
@[simp] theorem Ctx.discard_wp (c : Ctx) : c.discard.wp = c.wp := rfl
@[simp] theorem Ctx.discard_cbctl (c : Ctx) : c.discard.cbctl = c.cbctl := rfl
@[simp] theorem Ctx.discard_cnt (c : Ctx) : c.discard.cnt = c.cnt := rfl
@[simp] theorem Ctx.discard_lav (c : Ctx) : c.discard.lav = c.lav := rfl
@[simp] theorem Ctx.discard_cbst (c : Ctx) : c.discard.cbst = c.cbst := rfl
@[simp] theorem Ctx.discard_mkval (c : Ctx) : c.discard.mkval = c.mkval := rfl
@[simp] theorem Ctx.discard_mkclk (c : Ctx) : c.discard.mkclk = c.mkclk := rfl

@[simp] theorem Ctx.turnTo_present (c : Ctx) (n : Nat) : (c.turnTo n).present = c.present := by unfold Ctx.turnTo; split <;> rfl
@[simp] theorem Ctx.turnTo_kind (c : Ctx) (n : Nat) : (c.turnTo n).kind = c.kind := by unfold Ctx.turnTo; split <;> rfl
@[simp] theorem Ctx.turnTo_place (c : Ctx) (n : Nat) : (c.turnTo n).place = c.place := by unfold Ctx.turnTo; split <;> rfl
@[simp] theorem Ctx.turnTo_team (c : Ctx) (n : Nat) : (c.turnTo n).team = c.team := by unfold Ctx.turnTo; split <;> rfl
@[simp] theorem Ctx.turnTo_sup (c : Ctx) (n : Nat) : (c.turnTo n).sup = c.sup := by unfold Ctx.turnTo; split <;> rfl
@[simp] theorem Ctx.turnTo_slots (c : Ctx) (n : Nat) : (c.turnTo n).slots = c.slots := by unfold Ctx.turnTo; split <;> rfl
@[simp] theorem Ctx.turnTo_ran (c : Ctx) (n : Nat) : (c.turnTo n).ran = c.ran := by unfold Ctx.turnTo; split <;> rfl
@[simp] theorem Ctx.turnTo_dsp (c : Ctx) (n : Nat) : (c.turnTo n).dsp = c.dsp := by unfold Ctx.turnTo; split <;> rfl
@[simp] theorem Ctx.turnTo_stacked (c : Ctx) (n : Nat) : (c.turnTo n).stacked = c.stacked := by unfold Ctx.turnTo; split <;> rfl
@[simp] theorem Ctx.turnTo_released (c : Ctx) (n : Nat) : (c.turnTo n).released = c.released := by unfold Ctx.turnTo; split <;> rfl
@[simp] theorem Ctx.turnTo_x (c : Ctx) (n : Nat) : (c.turnTo n).x = c.x := by unfold Ctx.turnTo; split <;> rfl
@[simp] theorem Ctx.turnTo_v (c : Ctx) (n : Nat) : (c.turnTo n).v = c.v := by unfold Ctx.turnTo; split <;> rfl
@[simp] theorem Ctx.turnTo_p (c : Ctx) (n : Nat) : (c.turnTo n).p = c.p := by unfold Ctx.turnTo; split <;> rfl
@[simp] theorem Ctx.turnTo_g (c : Ctx) (n : Nat) : (c.turnTo n).g = c.g := by unfold Ctx.turnTo; split <;> rfl
@[simp] theorem Ctx.turnTo_ls (c : Ctx) (n : Nat) : (c.turnTo n).ls = c.ls := by unfold Ctx.turnTo; split <;> rfl
@[simp] theorem Ctx.turnTo_le (c : Ctx) (n : Nat) : (c.turnTo n).le = c.le := by unfold Ctx.turnTo; split <;> rfl
@[simp] theorem Ctx.turnTo_lc (c : Ctx) (n : Nat) : (c.turnTo n).lc = c.lc := by unfold Ctx.turnTo; split <;> rfl
@[simp] theorem Ctx.turnTo_mode (c : Ctx) (n : Nat) : (c.turnTo n).mode = c.mode := by unfold Ctx.turnTo; split <;> rfl
@[simp] theorem Ctx.turnTo_pend (c : Ctx) (n : Nat) : (c.turnTo n).pend = c.pend := by unfold Ctx.turnTo; split <;> rfl
@[simp] theorem Ctx.turnTo_tok (c : Ctx) (n : Nat) : (c.turnTo n).tok = c.tok := by unfold Ctx.turnTo; split <;> rfl
@[simp] theorem Ctx.turnTo_streams (c : Ctx) (n : Nat) : (c.turnTo n).streams = c.streams := by unfold Ctx.turnTo; split <;> rfl
@[simp] theorem Ctx.turnTo_qi (c : Ctx) (n : Nat) : (c.turnTo n).qi = c.qi := by unfold Ctx.turnTo; split <;> rfl
@[simp] theorem Ctx.turnTo_qo (c : Ctx) (n : Nat) : (c.turnTo n).qo = c.qo := by unfold Ctx.turnTo; split <;> rfl
@[simp] theorem Ctx.turnTo_latch (c : Ctx) (n : Nat) : (c.turnTo n).latch = c.latch := by unfold Ctx.turnTo; split <;> rfl
@[simp] theorem Ctx.turnTo_openBatch (c : Ctx) (n : Nat) : (c.turnTo n).openBatch = c.openBatch := by unfold Ctx.turnTo; split <;> rfl
@[simp] theorem Ctx.turnTo_sealed (c : Ctx) (n : Nat) : (c.turnTo n).sealed = c.sealed := by unfold Ctx.turnTo; split <;> rfl
@[simp] theorem Ctx.turnTo_parked (c : Ctx) (n : Nat) : (c.turnTo n).parked = c.parked := by unfold Ctx.turnTo; split <;> rfl
@[simp] theorem Ctx.turnTo_yielded (c : Ctx) (n : Nat) : (c.turnTo n).yielded = c.yielded := by unfold Ctx.turnTo; split <;> rfl
@[simp] theorem Ctx.turnTo_moved (c : Ctx) (n : Nat) : (c.turnTo n).moved = c.moved := by unfold Ctx.turnTo; split <;> rfl
@[simp] theorem Ctx.turnTo_moved2 (c : Ctx) (n : Nat) : (c.turnTo n).moved2 = c.moved2 := by unfold Ctx.turnTo; split <;> rfl
@[simp] theorem Ctx.turnTo_lastIssue (c : Ctx) (n : Nat) : (c.turnTo n).lastIssue = c.lastIssue := by unfold Ctx.turnTo; split <;> rfl
@[simp] theorem Ctx.turnTo_asked (c : Ctx) (n : Nat) : (c.turnTo n).asked = c.asked := by unfold Ctx.turnTo; split <;> rfl
@[simp] theorem Ctx.turnTo_handler (c : Ctx) (n : Nat) : (c.turnTo n).handler = c.handler := by unfold Ctx.turnTo; split <;> rfl
@[simp] theorem Ctx.turnTo_kept (c : Ctx) (n : Nat) : (c.turnTo n).kept = c.kept := by unfold Ctx.turnTo; split <;> rfl
@[simp] theorem Ctx.turnTo_trapping (c : Ctx) (n : Nat) : (c.turnTo n).trapping = c.trapping := by unfold Ctx.turnTo; split <;> rfl
@[simp] theorem Ctx.turnTo_tpc0 (c : Ctx) (n : Nat) : (c.turnTo n).tpc0 = c.tpc0 := by unfold Ctx.turnTo; split <;> rfl
@[simp] theorem Ctx.turnTo_tpc1 (c : Ctx) (n : Nat) : (c.turnTo n).tpc1 = c.tpc1 := by unfold Ctx.turnTo; split <;> rfl
@[simp] theorem Ctx.turnTo_tcause (c : Ctx) (n : Nat) : (c.turnTo n).tcause = c.tcause := by unfold Ctx.turnTo; split <;> rfl
@[simp] theorem Ctx.turnTo_taddr (c : Ctx) (n : Nat) : (c.turnTo n).taddr = c.taddr := by unfold Ctx.turnTo; split <;> rfl
@[simp] theorem Ctx.turnTo_tmask (c : Ctx) (n : Nat) : (c.turnTo n).tmask = c.tmask := by unfold Ctx.turnTo; split <;> rfl
@[simp] theorem Ctx.turnTo_tspare (c : Ctx) (n : Nat) : (c.turnTo n).tspare = c.tspare := by unfold Ctx.turnTo; split <;> rfl
@[simp] theorem Ctx.turnTo_starved (c : Ctx) (n : Nat) : (c.turnTo n).starved = c.starved := by unfold Ctx.turnTo; split <;> rfl
@[simp] theorem Ctx.turnTo_grant (c : Ctx) (n : Nat) : (c.turnTo n).grant = c.grant := by unfold Ctx.turnTo; split <;> rfl
@[simp] theorem Ctx.turnTo_halted (c : Ctx) (n : Nat) : (c.turnTo n).halted = c.halted := by unfold Ctx.turnTo; split <;> rfl
@[simp] theorem Ctx.turnTo_bkhalt (c : Ctx) (n : Nat) : (c.turnTo n).bkhalt = c.bkhalt := by unfold Ctx.turnTo; split <;> rfl
@[simp] theorem Ctx.turnTo_stepping (c : Ctx) (n : Nat) : (c.turnTo n).stepping = c.stepping := by unfold Ctx.turnTo; split <;> rfl
@[simp] theorem Ctx.turnTo_stepWord (c : Ctx) (n : Nat) : (c.turnTo n).stepWord = c.stepWord := by unfold Ctx.turnTo; split <;> rfl
@[simp] theorem Ctx.turnTo_bp (c : Ctx) (n : Nat) : (c.turnTo n).bp = c.bp := by unfold Ctx.turnTo; split <;> rfl
@[simp] theorem Ctx.turnTo_wp (c : Ctx) (n : Nat) : (c.turnTo n).wp = c.wp := by unfold Ctx.turnTo; split <;> rfl
@[simp] theorem Ctx.turnTo_cbctl (c : Ctx) (n : Nat) : (c.turnTo n).cbctl = c.cbctl := by unfold Ctx.turnTo; split <;> rfl
@[simp] theorem Ctx.turnTo_cnt (c : Ctx) (n : Nat) : (c.turnTo n).cnt = c.cnt := by unfold Ctx.turnTo; split <;> rfl
@[simp] theorem Ctx.turnTo_lav (c : Ctx) (n : Nat) : (c.turnTo n).lav = c.lav := by unfold Ctx.turnTo; split <;> rfl
@[simp] theorem Ctx.turnTo_cbst (c : Ctx) (n : Nat) : (c.turnTo n).cbst = c.cbst := by unfold Ctx.turnTo; split <;> rfl
@[simp] theorem Ctx.turnTo_mkval (c : Ctx) (n : Nat) : (c.turnTo n).mkval = c.mkval := by unfold Ctx.turnTo; split <;> rfl
@[simp] theorem Ctx.turnTo_mkclk (c : Ctx) (n : Nat) : (c.turnTo n).mkclk = c.mkclk := by unfold Ctx.turnTo; split <;> rfl

end Sys2Proof.Machine
end

