-- ==== Sys2Proof/Laws/Memory.lean ====
section
/-! SUPPORT. Memory keeps its canonical form: under the building blocks of the meanings, and under each operation that writes
memory; and what a byte and the engines' accesses do. -/

namespace Sys2Proof.Machine

/-- The form depends on memory and the raw slices alone. -/
theorem State.MemoryInv.congr {s t : State} (h : s.MemoryInv) (hm : t.mem = s.mem) (hr : t.sram = s.sram) : t.MemoryInv := by
  unfold State.MemoryInv
  rw [hm, hr]
  exact h

/-! Bytes at their point of coherence (09_sharing.md R239, R246). -/

theorem State.modHome_memoryInv {s : State} (h : s.MemoryInv) (pa : Nat) (g : Cache → Cache) :
    (s.modHome pa g).MemoryInv := h

theorem State.pocPutByte_memoryInv {s : State} (h : s.MemoryInv) (pa : Nat) (b : Byte) : (s.pocPutByte pa b).MemoryInv := by
  unfold State.pocPutByte
  split
  · exact h.congr (by simp) (by simp)
  · split
    · simp only []
      split
      · exact ⟨h.1, Memory.set_wf _ _ _ h.2⟩
      · exact ⟨h.1, Memory.set_wf _ _ _ h.2⟩
    · split
      · exact ⟨Memory.set_wf _ _ _ h.1, h.2⟩
      · exact h

theorem State.putAll_memoryInv {s : State} (h : s.MemoryInv) (pa : Nat) (bs : List Byte) : (s.putAll pa bs).MemoryInv := by
  induction bs generalizing s pa with
  | nil => exact h
  | cons b rest ih => exact ih (State.pocPutByte_memoryInv h pa b) (pa + 1)

/-- Changes in turn that each keep the form keep it. -/
theorem MemoryInv.foldl {α : Type} {f : State → α → State} (hf : ∀ s a, s.MemoryInv → (f s a).MemoryInv) (l : List α)
    {s : State} (h : s.MemoryInv) : (l.foldl f s).MemoryInv := by
  induction l generalizing s with
  | nil => exact h
  | cons a l ih => exact ih (hf s a h)

theorem State.cleanAtoms_memoryInv {s : State} (h : s.MemoryInv) (pa n : Nat) : (s.cleanAtoms pa n).MemoryInv := by
  unfold State.cleanAtoms
  split
  · exact h
  · exact h

theorem State.cleanForwarded_memoryInv {s : State} (h : s.MemoryInv) (pa n : Nat) : (s.cleanForwarded pa n).MemoryInv := by
  refine MemoryInv.foldl (fun s a hs => ?_) _ h
  split
  · split
    · exact hs.congr (by simp) (by simp)
    · exact hs
  · exact hs

theorem State.pocPutBytes_memoryInv {s : State} (h : s.MemoryInv) (pa : Nat) (bs : List Byte) :
    (s.pocPutBytes pa bs).MemoryInv :=
  State.cleanForwarded_memoryInv (State.cleanAtoms_memoryInv (State.putAll_memoryInv h pa bs) pa _) pa _

theorem State.putRecord_memoryInv {s : State} (h : s.MemoryInv) (site f : Nat) (r : BitVec 128) :
    (s.putRecord site f r).MemoryInv := State.pocPutBytes_memoryInv h _ _

/-- A byte of existing memory that no core has forwarded and no home slice holds reads as it was written, and every other
one as before. -/
theorem State.pocPutByte_mem {s : State} {pa : Nat} (h : s.forwarded pa = none) (hh : s.homeFind pa = none)
    (hp : s.populated pa = true) (b : Byte) (a : Nat) :
    Store.get 0 (s.pocPutByte pa b).mem a = if a = pa then b else Store.get 0 s.mem a := by
  unfold State.pocPutByte
  simp only [h, hh, hp, if_true]
  exact Store.get_set 0 s.mem pa a b

/-! Home slices (09_sharing.md R239, R242). -/

theorem State.writeBack_memoryInv {s : State} (h : s.MemoryInv) (pa k : Nat) (l : CLine) : (s.writeBack pa k l).MemoryInv := by
  have one : ∀ (m : Memory) (j : Nat), Memory.wf m = true →
      Memory.wf (if l.dirty.getLsbD j then
        Store.putBytes m (64 * l.line + 32 * j) (Store.bytes s.sram (sramKey (homeNumber pa) k + 32 * j) 32) else m) = true := by
    intro m j hm
    split
    · exact Memory.putBytes_wf _ _ _ hm
    · exact hm
  exact ⟨one _ 1 (one _ 0 h.1), h.2⟩

theorem State.unhome_memoryInv {s : State} (h : s.MemoryInv) (pa : Nat) : (s.unhome pa).MemoryInv := by
  unfold State.unhome
  split
  · exact h
  · exact State.modHome_memoryInv (State.writeBack_memoryInv h _ _ _) _ _

theorem State.unhomeAll_memoryInv {s : State} (h : s.MemoryInv) (p : CLine → Bool) : (s.unhomeAll p).MemoryInv :=
  MemoryInv.foldl (fun _ a hs => State.unhome_memoryInv hs a) _ h

theorem State.roomAt_memoryInv {s : State} (h : s.MemoryInv) (pa k : Nat) (m : Cache) : (s.roomAt pa k m).MemoryInv := by
  unfold State.roomAt
  simp only []
  split
  · exact State.writeBack_memoryInv h _ _ _
  · exact h

theorem State.bringTo_memoryInv {s : State} (h : s.MemoryInv) (pa reuse k : Nat) : (s.bringTo pa reuse k).MemoryInv :=
  ⟨h.1, Memory.putBytes_wf _ _ _ h.2⟩

theorem State.bring_memoryInv {s : State} (h : s.MemoryInv) (pa reuse : Nat) : (s.bring pa reuse).MemoryInv :=
  State.bringTo_memoryInv (State.roomAt_memoryInv h _ _ _) _ _ _

theorem State.heated_memoryInv {s : State} (h : s.MemoryInv) (pa : Nat) : (s.heated pa).MemoryInv := by
  have one : (if field (s.record (frameOf pa).1 (frameOf pa).2) 119 4 = 15 then s
      else s.putRecord (frameOf pa).1 (frameOf pa).2 (recHeated (s.record (frameOf pa).1 (frameOf pa).2))).MemoryInv := by
    split
    · exact h
    · exact State.putRecord_memoryInv h _ _ _
  unfold State.heated
  split
  · simp only []
    split
    · exact one
    · exact one
  · exact h

theorem State.homed_memoryInv {s : State} (h : s.MemoryInv) (pa reuse : Nat) (brings atomic : Bool) :
    (s.homed pa reuse brings atomic).MemoryInv := by
  unfold State.homed
  split
  · exact h
  · split
    · split
      · exact State.heated_memoryInv h pa
      · exact h
    · simp only []
      split
      · exact State.bring_memoryInv (State.heated_memoryInv h pa) pa reuse
      · exact State.heated_memoryInv h pa

theorem State.homedAll_memoryInv {s : State} (h : s.MemoryInv) (pa n reuse : Nat) (brings atomic : Bool) :
    (s.homedAll pa n reuse brings atomic).MemoryInv :=
  MemoryInv.foldl (fun _ a hs => State.homed_memoryInv hs a _ _ _) _ h

/-! Pages (08_residency.md R225, R226). -/

theorem clearRange_wf {m : Memory} (h : m.wf = true) (k n : Nat) : Memory.wf (clearRange m k n) = true :=
  Memory.filter_wf m _ h

theorem foldl_set_wf (l : List (Nat × Byte)) (f : Nat → Nat) {m : Memory} (h : m.wf = true) :
    Memory.wf (l.foldl (fun m x => Store.set 0 m (f x.1) x.2) m) = true := by
  induction l generalizing m with
  | nil => exact h
  | cons x l ih => exact ih (Memory.set_wf m _ _ h)

/-! A part of a meaning keeps the form whatever it answers. -/

/-- However it ends, what it leaves keeps the form. -/
def KeepsMemory {α : Type} (m : M α) : Prop :=
  ∀ s, s.MemoryInv → match m.run s with
    | .ok _ t => t.MemoryInv
    | .error _ t => t.MemoryInv

theorem keeps_pure {α : Type} (a : α) : KeepsMemory (pure a : M α) := fun _ h => h
theorem keeps_throw {α : Type} (e : Exit) : KeepsMemory (throw e : M α) := fun _ h => h
theorem keeps_get : KeepsMemory (get : M State) := fun _ h => h

theorem keeps_bind {α β : Type} {m : M α} {f : α → M β} (h : KeepsMemory m) (k : ∀ a, KeepsMemory (f a)) :
    KeepsMemory (m >>= f) := by
  intro s hs
  have hm := h s hs
  rw [run_bind]
  cases e : m.run s with
  | ok a t => rw [e] at hm; exact k a t hm
  | error x t => rw [e] at hm; exact hm

theorem keeps_modify {f : State → State} (h : ∀ s, s.MemoryInv → (f s).MemoryInv) : KeepsMemory (modify f : M Unit) :=
  fun s hs => h s hs

theorem keeps_modMe (f : Ctx → Ctx) : KeepsMemory (modMe f) := fun _ h => h
theorem keeps_modHere (f : Core → Core) : KeepsMemory (modHere f) := fun _ h => h
theorem keeps_modSys (f : System → System) : KeepsMemory (modSys f) := fun _ h => h
theorem keeps_modCluster (n : Nat) (f : Cluster → Cluster) : KeepsMemory (modCluster n f) := fun _ h => h
theorem keeps_modSite (n : Nat) (f : Site → Site) : KeepsMemory (modSite n f) := fun _ h => h
theorem keeps_modCore (n : Nat) (f : Core → Core) : KeepsMemory (modCore n f) :=
  keeps_modify fun _ h => h.congr (by simp) (by simp)

theorem keeps_forIn {α β : Type} (l : List α) (b : β) {f : α → β → M (ForInStep β)} (h : ∀ a b, KeepsMemory (f a b)) :
    KeepsMemory (forIn l b f) := by
  induction l generalizing b with
  | nil => exact keeps_pure b
  | cons a l ih =>
    rw [List.forIn_cons]
    exact keeps_bind (h a b) fun r => by cases r with
      | done b => exact keeps_pure b
      | yield b => exact ih b

/-! The engines' accesses (07_addresses.md R193). -/

theorem readPhys_run (pa n : Nat) (s : State) :
    (readPhys pa n).run s = .ok (s.pocN pa n) (s.homedAll pa n 0 true false) := rfl

theorem writePhys_run (pa n v : Nat) (s : State) :
    (writePhys pa n v).run s =
      .ok () ((s.pocPutBytes pa (natToBytes n v)).homedAll pa (natToBytes n v).length 0 false false) := rfl

theorem keeps_readPhys (pa n : Nat) : KeepsMemory (readPhys pa n) :=
  fun _ h => State.homedAll_memoryInv h _ _ _ _ _

theorem keeps_writePhys (pa n v : Nat) : KeepsMemory (writePhys pa n v) :=
  keeps_modify fun _ h => State.homedAll_memoryInv (State.pocPutBytes_memoryInv h _ _) _ _ _ _ _

theorem State.flushPage_memoryInv {s : State} (h : s.MemoryInv) (pa n : Nat) : (s.flushPage pa n).MemoryInv :=
  State.unhomeAll_memoryInv h _

theorem keeps_zeroPage (pa n : Nat) : KeepsMemory (zeroPage pa n) :=
  keeps_modify fun _ h =>
    have k := State.flushPage_memoryInv h pa n
    ⟨clearRange_wf k.1 pa n, k.2⟩

theorem keeps_copyPage (src dst n : Nat) : KeepsMemory (copyPage src dst n) :=
  keeps_bind (keeps_zeroPage dst n) fun _ => keeps_modify fun _ h =>
    have k := State.flushPage_memoryInv h src n
    ⟨foldl_set_wf _ (fun a => a - src + dst) k.1, k.2⟩

/-- The outcome of a part of a meaning that keeps the form. -/
theorem KeepsMemory.toOutcome {m : M Unit} (h : KeepsMemory m) {s t : State} (hs : s.MemoryInv) (e : m.toOutcome s = .next t) :
    t.MemoryInv := by
  have hm := h s hs
  unfold M.toOutcome at e
  cases r : m.run s with
  | ok a u => rw [r] at hm e; cases e; exact hm
  | error x u => rw [r] at hm e; cases x <;> cases e <;> exact hm

end Sys2Proof.Machine
end

