-- ==== Sys2Proof/Laws/Writes.lean ====
section
/-! SUPPORT. What an issue leaves whose body writes registers, at once or later. -/

namespace Sys2Proof.Machine

/-- A write of a register or of flags; not one of LATEST or of rows, which a load's result may carry. -/
def RegWrite.ofRegister : RegWrite → Bool
  | .latest _ _ | .row _ _ => false
  | _ => true

/-- Register writes change registers, the uniform writes to land, and HIST, alone. -/
theorem writes_same (s : State) (ws : List RegWrite) (h : ∀ w ∈ ws, w.ofRegister = true) : ∃ x v p mode due k,
    s.writes ws = { s with me := { s.me with x := x, v := v, p := p, mode := mode }, here := { s.here with uniDue := due },
                           clusters := k } ∧
    ∀ n, Store.get Cluster.reset k n =
      { Store.get Cluster.reset s.clusters n with hist := (Store.get Cluster.reset k n).hist } := by
  induction ws generalizing s with
  | nil => exact ⟨_, _, _, _, _, _, rfl, fun _ => rfl⟩
  | cons w ws ih =>
    have one : ∃ x v p mode due k,
        s.write w = { s with me := { s.me with x := x, v := v, p := p, mode := mode }, here := { s.here with uniDue := due },
                             clusters := k } ∧
        ∀ n, Store.get Cluster.reset k n =
          { Store.get Cluster.reset s.clusters n with hist := (Store.get Cluster.reset k n).hist } := by
      cases w with
      | x n val => exact ⟨_, _, _, _, _, _, rfl, fun _ => rfl⟩
      | v n l val => exact ⟨_, _, _, _, _, _, rfl, fun _ => rfl⟩
      | k h n val lat => exact ⟨_, _, _, _, _, _, rfl, fun _ => rfl⟩
      | p n lanes bits =>
        unfold State.write
        by_cases hn : n = 0
        · simp only [hn, if_true]; exact ⟨_, _, _, _, _, _, rfl, fun _ => rfl⟩
        · simp only [hn, if_false]; exact ⟨_, _, _, _, _, _, rfl, fun _ => rfl⟩
      | flags f =>
        simp only [State.write, State.raised]
        split
        · exact ⟨_, _, _, _, _, _, rfl, fun _ => rfl⟩
        · refine ⟨_, _, _, _, _, _, rfl, fun n => ?_⟩
          by_cases hn : n = clusterOf s.hereId
          · subst hn; simp
          · rw [Store.get_set_other _ _ _ _ _ hn]
      | latest pa v => exact absurd (h _ (List.mem_cons_self ..)) (by simp [RegWrite.ofRegister])
      | row off bs => exact absurd (h _ (List.mem_cons_self ..)) (by simp [RegWrite.ofRegister])
    obtain ⟨x1, v1, p1, m1, u1, k1, e1, q1⟩ := one
    obtain ⟨x2, v2, p2, m2, u2, k2, e2, q2⟩ := ih (s.write w) fun y hy => h y (List.mem_cons_of_mem _ hy)
    refine ⟨x2, v2, p2, m2, u2, k2, ?_, ?_⟩
    · show (s.write w).writes ws = _
      rw [e2, e1]
    · intro n
      rw [q2 n, e1]
      simp only []
      rw [q1 n]

theorem writes_flow (s : State) (ws : List RegWrite) (h : ∀ w ∈ ws, w.ofRegister = true) : SameFlow s.me (s.writes ws).me := by
  obtain ⟨x, v, p, m, u, k, e, -⟩ := writes_same s ws h
  rw [e]; exact ⟨rfl, rfl, rfl, rfl, rfl, rfl, rfl, rfl⟩

theorem scalarWrites_reg (s : State) (i : Iss) (d : Opnd) (v : W64) : ∀ w ∈ s.scalarWrites i d v, w.ofRegister = true := by
  intro w hw
  unfold State.scalarWrites at hw
  split at hw
  · split at hw
    · rw [List.mem_singleton.mp hw]; rfl
    · cases hw
  · split at hw
    · cases hw
    · rw [List.mem_singleton.mp hw]; rfl
  · rw [List.mem_singleton.mp hw]; rfl
  · cases hw

theorem vectorWrites_reg (s : State) (i : Iss) (d : Opnd) (f : Nat → W32) : ∀ w ∈ s.vectorWrites i d f, w.ofRegister = true := by
  intro w hw
  unfold State.vectorWrites at hw
  split at hw
  · split at hw
    · cases hw
    · obtain ⟨l, -, rfl⟩ := List.mem_map.mp hw
      rfl
  · rw [List.mem_singleton.mp hw]; rfl
  · cases hw

theorem maskWrites_reg (i : Iss) (d : Opnd) (bits : BitVec 16) : ∀ w ∈ maskWrites i d bits, w.ofRegister = true := by
  intro w hw
  unfold maskWrites at hw
  cases hd : opOf d <;> simp_all [RegWrite.ofRegister]

theorem map_owes (l : List Pend) (n : Nat) :
    (l.map fun p => if p.tok < n then { p with window := p.window - 1 } else p).map (fun q => (q.tok, q.writes)) =
      l.map fun q => (q.tok, q.writes) := by
  induction l with
  | nil => rfl
  | cons p l ih =>
    simp only [List.map_cons, ih]
    congr 1
    split <;> rfl

/-- What is left after an issue whose body leaves `u`: the state itself but for what the issue and `u` change. -/
theorem after_same (u : State) (r : Req) (n : Nat) : ∃ a b k q,
    u.after r n = { u with
      me := { u.me with
        cnt := a, cbst := b, slots := u.me.stepped.1.slots, lc := u.me.stepped.1.lc,
        pend := u.me.pend.map fun p => if p.tok < n then { p with window := p.window - 1 } else p,
        latch := (if u.me.handler then u.me.latch else []), prog := .none,
        stall := .issued, yielded := false,
        lastIssue := u.clk.toNat, ran := u.me.cur,
        halted := (if u.me.stepping.isSome then some 5 else u.me.halted), stepping := none, stepWord := none },
      clusters := k, here := { u.here with nv := q } } ∧
    ∀ j, Store.get Cluster.reset k j =
      { Store.get Cluster.reset u.clusters j with launchRec := (Store.get Cluster.reset k j).launchRec } := by
  obtain ⟨a, b, k, q, e, h⟩ := countedIssue_same u r
  obtain ⟨f1, f2, -, -⟩ := stepped_congr (booked_flow u r n)
  have f3 : (u.booked r n).me.stepped.1 =
      { (u.booked r n).me with slots := (u.booked r n).me.stepped.1.slots, lc := (u.booked r n).me.stepped.1.lc } := by
    have := (stepped_congr (SameFlow.refl (u.booked r n).me)).2.2.2
    exact congrArg Prod.fst this
  refine ⟨a, b, k, q, ?_, h⟩
  unfold State.after
  simp only []
  rw [f3, f1, f2]
  simp only [State.booked, Ctx.booked, e]

/-- An issue whose body performs the register writes `ws`. -/
theorem runIssue_writes {r : Req} {s : State} {body : Iss → M Unit} {ws : List RegWrite} (h : Ready r s) (hp : Plain r s)
    (hf : s.flows) (hw : ∀ w ∈ ws, w.ofRegister = true) (hb : Does (body (issOf r s)) s () (s.writes ws)) :
    ∃ t, runIssue r body s = .next t ∧ Writes s t ws := by
  obtain ⟨x, v, p, m, un, k2, e2, h2⟩ := writes_same s ws hw
  have hst := stepped_congr (writes_flow s ws hw)
  obtain ⟨a3, b3, k3, n3, e3, h3⟩ := after_same (s.writes ws) r s.me.tok
  refine ⟨_, runIssue_ready h hp hb (by rw [e2]; exact h.grant) (hst.2.2.1.trans hf), ?_⟩
  rw [e3]
  refine ⟨⟨rfl, rfl, rfl, rfl, ⟨rfl, rfl⟩, fun n => by simp only []; rw [h3 n]⟩, ⟨hst.1, hst.2.1⟩, ?_, ?_, ?_⟩
  · simp only [Ctx.owes]
    rw [map_owes, e2]
  · rw [e2]; rfl
  · refine ⟨?_, ?_, ?_, ?_, ?_, ?_, ?_, ?_, ?_, ?_, ?_⟩
    case refine_11 =>
      intro n
      simp only []
      rw [h3 n, e2]
      simp only []
      rw [h2 n]
    all_goals rw [e2]
    all_goals first
      | rfl
      | exact ⟨rfl, rfl⟩
      | exact ⟨rfl, rfl, rfl⟩

/-- The state whose context owes one more result. -/
def State.withLater (s : State) (la : Nat) (load : Bool) (ws : List RegWrite) (unit : Nat) : State :=
  { s with me := { s.me with
      pend := s.me.pend ++
        [{ tok := s.me.tok, writes := ws, window := la, load := load, addr := 0, since := s.clk.toNat, unit := unit }],
      tok := s.me.tok + 1 } }

/-- An issue whose body records the register writes `ws` to land later. -/
theorem runIssue_later {r : Req} {s : State} {body : Iss → M Unit} {ws : List RegWrite} {la unit : Nat} {load : Bool}
    (h : Ready r s) (hp : Plain r s) (hf : s.flows)
    (hb : Does (body (issOf r s)) s () (s.withLater la load ws unit)) :
    ∃ t, runIssue r body s = .next t ∧ Defers s t la load ws unit := by
  have hst := stepped_congr (show SameFlow s.me (s.withLater la load ws unit).me from ⟨rfl, rfl, rfl, rfl, rfl, rfl, rfl, rfl⟩)
  obtain ⟨a3, b3, k3, n3, e3, h3⟩ := after_same (s.withLater la load ws unit) r s.me.tok
  refine ⟨_, runIssue_ready h hp hb h.grant (hst.2.2.1.trans hf), ?_⟩
  rw [e3]
  refine ⟨⟨rfl, rfl, rfl, rfl, ⟨rfl, rfl⟩, fun n => by simp only []; rw [h3 n]; rfl⟩, ⟨hst.1, hst.2.1⟩, ?_, ?_, ?_⟩
  · refine ⟨s.me.pend.map fun p => if p.tok < s.me.tok then { p with window := p.window - 1 } else p, ?_, map_owes _ _⟩
    simp [State.withLater]
  · rfl
  · exact ⟨rfl, rfl, rfl, rfl, rfl, rfl, ⟨rfl, rfl, rfl⟩, ⟨rfl, rfl⟩, ⟨rfl, rfl⟩, rfl,
      fun n => by simp only []; rw [h3 n]; rfl⟩

/-! Destinations that are registers. -/

theorem pushTo_plain {s : State} {i : Iss} {d : Opnd} {vals : List W64} (h : s.plainOpnd d = true) :
    (pushTo i d vals).run s = .ok () s := by
  obtain ⟨-, h2, h3⟩ := plainOpnd_cases h
  simp only [pushTo]
  cases ho : opOf d with
  | qo => exact absurd ho h2
  | prim n => simp only [run_bind, run_getMe, Ctx.writeStream, h3 n ho]; rfl
  | _ => rfl

theorem writes_plain (s : State) (ws : List RegWrite) (h : ∀ w ∈ ws, w.ofRegister = true) (o : Opnd) :
    (s.writes ws).plainOpnd o = s.plainOpnd o := by
  obtain ⟨x, v, p, m, u, k, e, -⟩ := writes_same s ws h
  rw [e]; rfl

theorem putScalar_ok {s : State} {i : Iss} {d : Opnd} {v : W64} (h : s.plainOpnd d = true) :
    (putScalar i d v).run s = .ok () (s.writes (s.scalarWrites i d v)) := by
  simp only [putScalar, run_bind, run_get, applyAll, run_modify]
  exact pushTo_plain ((writes_plain s _ (scalarWrites_reg s i d v) d).trans h)

theorem putVector_ok {s : State} {i : Iss} {d : Opnd} {f : Nat → W32} (h : s.plainOpnd d = true) :
    (putVector i d f).run s = .ok () (s.writes (s.vectorWrites i d f)) := by
  simp only [putVector, run_bind, run_get, applyAll, run_modify]
  exact pushTo_plain ((writes_plain s _ (vectorWrites_reg s i d f) d).trans h)

theorem putLater_ok {s : State} {i : Iss} {d : Opnd} {la unit : Nat} {load : Bool} {ws : List RegWrite} {vals : List W64}
    (h : s.plainOpnd d = true) (hw : ws ≠ []) :
    (putLater la load i d ws vals unit).run s = .ok () (s.withLater la load ws unit) := by
  have he : (!ws.isEmpty) = true := by simpa using hw
  simp only [putLater, run_bind, he, if_true, pendResult, run_modify]
  exact pushTo_plain (by exact h)

theorem putLater_none {s : State} {i : Iss} {d : Opnd} {la unit : Nat} {load : Bool} {vals : List W64}
    (h : s.plainOpnd d = true) : (putLater la load i d [] vals unit).run s = .ok () s := by
  simp only [putLater]
  exact pushTo_plain h

theorem writes_append (s : State) (a b : List RegWrite) : s.writes (a ++ b) = (s.writes a).writes b := by
  simp [State.writes, List.foldl_append]

/-- The destination of an issue that names only plain operands. -/
theorem Plain.dst {r : Req} {s : State} (h : Plain r s) {d : Opnd} (hd : d ∈ r.dsts) :
    s.plainOpnd d = true :=
  h d (List.mem_append_right _ hd)

end Sys2Proof.Machine
end

