-- ==== Sys2Proof/Tests/Slice0.lean ====
section
/-! SUPPORT. Tests: words written out from the formats of R34 and the encoding tables, terms that well-formedness refuses,
single instructions against the rules' own numbers, and for each statement a state and operands that meet its hypotheses. -/

open Sys2Proof Sys2Proof.Machine

namespace Sys2Proof.Tests

/-! Words: each term beside its word, field by field from the tables (02_clauses.md R34 and the encoding rule of each group). -/

theorem test_decode_Integer :
    decodeTableWord 64 0x000A000040200C00 = some (.add 10 .s32 1 2 3) ∧
    decodeTableWord 64 0x010A010040200C00 = some (.sub 10 .z32 1 2 3) ∧
    decodeTableWord 64 0x022A00402FFFFFFF = some (.addi 10 .s64 1 2 0xFFFFFFF) ∧
    decodeTableWord 64 0x030A030040200C00 = some (.mul 10 .z64 1 2 3) ∧
    decodeTableWord 64 0x040A020040200C00 = some (.mulh 10 .s64 1 2 3) ∧
    decodeTableWord 64 0x055A000040200C00 = some (.div 5 10 .s32 1 2 3) ∧
    decodeTableWord 64 0x066A010040200C00 = some (.rem 6 10 .z32 1 2 3) ∧
    decodeTableWord 64 0x070A000040200C00 = some (.minmax 10 .s32 false 1 2 3) ∧
    decodeTableWord 64 0x070A050040200C00 = some (.minmax 10 .z32 true 1 2 3) ∧
    decodeTableWord 64 0x080A010040200C00 = some (.and 10 false 1 2 3) ∧
    decodeTableWord 64 0x090A030040200C00 = some (.or 10 true 1 2 3) ∧
    decodeTableWord 64 0x0A0A010040200C00 = some (.xor 10 false 1 2 3) ∧
    decodeTableWord 64 0x0B0A030040200C00 = some (.andn 10 true 1 2 3) ∧
    decodeTableWord 64 0x0C0A010040200C00 = some (.shl 10 false 1 2 3) ∧
    decodeTableWord 64 0x0D0A020040200C00 = some (.shr 10 .s64 1 2 3) ∧
    decodeTableWord 64 0x0E0A050040200C00 = some (.rot 10 false true 1 2 3) ∧
    decodeTableWord 64 0x0E0A030040200C00 = some (.rot 10 true false 1 2 3) ∧
    decodeTableWord 64 0x0F0A000040200C04 = some (.bfx 10 .s32 1 2 3 4) ∧
    decodeTableWord 64 0x100A030040200C04 = some (.bfi 10 true 1 2 3 4) ∧
    decodeTableWord 64 0x110A010040200000 = some (.popc 10 false 1 2) ∧
    decodeTableWord 64 0x120A030040200000 = some (.clz 10 true 1 2) ∧
    decodeTableWord 64 0x120A050040200000 = some (.ctz 10 false 1 2) ∧
    decodeTableWord 64 0x130A010040200000 = some (.brev 10 false 1 2) :=
  ⟨rfl, rfl, rfl, rfl, rfl, rfl, rfl, rfl, rfl, rfl, rfl, rfl, rfl, rfl, rfl, rfl, rfl, rfl, rfl, rfl, rfl, rfl, rfl⟩

theorem test_decode_IntegerMore :
    decodeTableWord 64 0x140A001040200C00 = some (.cmp 10 .s32 .eq 65 2 3) ∧
    decodeTableWord 64 0x140A041040200C00 = some (.cmp 10 .s32 .ne 65 2 3) ∧
    decodeTableWord 64 0x140A081040200C00 = some (.cmp 10 .s32 .lt 65 2 3) ∧
    decodeTableWord 64 0x140A0C1040200C00 = some (.cmp 10 .s32 .le 65 2 3) ∧
    decodeTableWord 64 0x140A101040200C00 = some (.cmp 10 .s32 .gt 65 2 3) ∧
    decodeTableWord 64 0x140A141040200C00 = some (.cmp 10 .s32 .ge 65 2 3) ∧
    decodeTableWord 64 0x150A030040200C42 = some (.sel 10 true 1 2 3 66) ∧
    decodeTableWord 64 0x160A000040200000 = some (.mov 10 .s32 1 2) ∧
    decodeTableWord 64 0x160A040600200000 = some (.sbind 10 24 2) ∧
    decodeTableWord 64 0x160A080600000000 = some (.sunb 10 24) ∧
    decodeTableWord 64 0x170A004089ABCDEF = some (.movi 10 true 1 0x89ABCDEF) ∧
    decodeTableWord 64 0x171A004089ABCDEF = some (.movi 10 false 1 0x89ABCDEF) ∧
    decodeTableWord 64 0x180A004089ABCDEF = some (.movh 10 1 0x89ABCDEF) ∧
    decodeTableWord 64 0x190A1B0040200C00 = some (.lea 10 .z64 6 1 2 3) ∧
    decodeTableWord 64 0x1A0A030040200C41 = some (.addc 10 true 1 2 3 65) ∧
    decodeTableWord 64 0x1B0A000040200C04 = some (.mad 10 .s32 1 2 3 4) ∧
    decodeTableWord 64 0x1C0A020040200C00 = some (.sxt 10 .s64 1 2 3) ∧
    decodeTableWord 64 0x1D0A010040200C00 = some (.hash 10 .crc32 1 2 3) ∧
    decodeTableWord 64 0x1D0A030040200C00 = some (.hash 10 .crc64 1 2 3) ∧
    decodeTableWord 64 0x1D0A050040200C00 = some (.hash 10 .range 1 2 3) ∧
    decodeTableWord 64 0x1E0A030040200000 = some (.cvta 10 .tocl 1 2) ∧
    decodeTableWord 64 0x1E0A070040200000 = some (.cvta 10 .toloc 1 2) ∧
    decodeTableWord 64 0x1E0A0B0040200000 = some (.cvta 10 .tovirt 1 2) ∧
    decodeTableWord 64 0x1F0A031040200000 = some (.iswin 10 .local 65 2) ∧
    decodeTableWord 64 0x1F0A071040200000 = some (.iswin 10 .clus 65 2) ∧
    decodeTableWord 64 0x1F0A0B1040200000 = some (.iswin 10 .prick 65 2) ∧
    decodeTableWord 64 0x1F0A0F1040200000 = some (.iswin 10 .seg 65 2) :=
  ⟨rfl, rfl, rfl, rfl, rfl, rfl, rfl, rfl, rfl, rfl, rfl, rfl, rfl, rfl, rfl, rfl, rfl, rfl, rfl, rfl, rfl, rfl, rfl, rfl, rfl, rfl, rfl⟩

theorem test_decode_Control :
    decodeTableWord 64 0x200A0000FFFFFFFE = some (.bra 10 0xFFFFFFFE) ∧
    decodeTableWord 64 0x210A000000200000 = some (.bri 10 2) ∧
    decodeTableWord 64 0x220A000000000009 = some (.call 10 9) ∧
    decodeTableWord 64 0x230A000000000000 = some (.ret 10) ∧
    decodeTableWord 64 0x2410002030000009 = some (.loop 0 true 0x203 9) ∧
    decodeTableWord 64 0x251A000000000000 = some (.lbrk 10 true) ∧
    decodeTableWord 64 0x260A000000000009 = some (.join 10 9) ∧
    decodeTableWord 64 0x271A000000000003 = some (.waitb 10 true 3) ∧
    decodeTableWord 64 0x280A000000000005 = some (.waitc 10 5) ∧
    decodeTableWord 64 0x290A000000000000 = some (.yield 10) ∧
    decodeTableWord 64 0x2A3A018044902002 = some (.poll ⟨3, 10, 6, 4, 2, 2, 2, 0, 1, 2⟩) ∧
    decodeTableWord 64 0x2B0A000000200C00 = some (.park 10 2 3) ∧
    decodeTableWord 64 0x2C0A001040200C04 = some (.spawn 10 65 2 3 4) ∧
    decodeTableWord 64 0x2C00011080401406 = some (.spawnLaunch 0 66 4 5 6) ∧
    decodeTableWord 64 0x2D0A000000000000 = some (.quit 10) ∧
    decodeTableWord 64 0x2E0A000000000000 = some (.nop 10) :=
  ⟨rfl, rfl, rfl, rfl, rfl, rfl, rfl, rfl, rfl, rfl, rfl, rfl, rfl, rfl, rfl, rfl⟩

theorem test_decode_Memory :
    decodeTableWord 64 0x303A01804793BFFF = some (.ld ⟨3, 10, 6, 4, 3, 6, 2, 7, 1, 8191⟩) ∧
    decodeTableWord 64 0x323A01804793BFFF = some (.ldc ⟨3, 10, 6, 4, 3, 6, 2, 7, 1, 8191⟩) ∧
    decodeTableWord 64 0x310A018048E80002 = some (.st ⟨0, 10, 6, 4, 4, 3, 5, 0, 0, 2⟩) ∧
    decodeTableWord 64 0x3300018045100202 = some (.atom ⟨0, 0, 6, 4, 2, 4, 2, 0, 0, 514⟩) ∧
    decodeTableWord 64 0x340A018047604002 = some (.cas ⟨0, 10, 6, 4, 3, 5, 4, 0, 2, 2⟩) ∧
    decodeTableWord 64 0x352A018044480681 = some (.ldlod ⟨2, 10, 6, 4, 2, 1, 1, 0, 0, 1665⟩) ∧
    decodeTableWord 64 0x360A00004A202002 = some (.pref ⟨0, 10, 0, 4, 5, 0, 4, 0, 1, 2⟩) ∧
    decodeTableWord 64 0x3710018046E00000 = some (.rbump ⟨1, 0, 6, 4, 3, 3, 4, 0, 0, 0⟩) ∧
    decodeTableWord 64 0x3800020046A00000 = some (.rsnap ⟨0, 0, 8, 4, 3, 2, 4, 0, 0, 0⟩) :=
  ⟨rfl, rfl, rfl, rfl, rfl, rfl, rfl, rfl, rfl⟩

theorem test_decode_VectorInteger :
    decodeTableWord 64 0x400A050040200C00 = some (.vadd 10 false true 1 2 3) ∧
    decodeTableWord 64 0x410A000040200C00 = some (.vsub 10 true false 1 2 3) ∧
    decodeTableWord 64 0x420A000040200C00 = some (.vmul 10 true .lo 1 2 3) ∧
    decodeTableWord 64 0x420A040040200C00 = some (.vmul 10 true .hi 1 2 3) ∧
    decodeTableWord 64 0x420A080040200C00 = some (.vmul 10 true .sat 1 2 3) ∧
    decodeTableWord 64 0x430A010040200C04 = some (.vmad 10 false 1 2 3 4) ∧
    decodeTableWord 64 0x440A040040200C00 = some (.vminmax 10 true true 1 2 3) ∧
    decodeTableWord 64 0x450A960040200C04 = some (.vlog 10 0x96 1 2 3 4) ∧
    decodeTableWord 64 0x460A010040200C00 = some (.vsh 10 false .shl 1 2 3) ∧
    decodeTableWord 64 0x460A050040200C00 = some (.vsh 10 false .shr 1 2 3) ∧
    decodeTableWord 64 0x460A090040200C00 = some (.vsh 10 false .rotl 1 2 3) ∧
    decodeTableWord 64 0x460A0D0040200C00 = some (.vsh 10 false .rotr 1 2 3) ∧
    decodeTableWord 64 0x470A081040200C00 = some (.vcmp 10 true .lt 65 2 3) ∧
    decodeTableWord 64 0x480A010040200C42 = some (.vsel 10 1 2 3 66) ∧
    decodeTableWord 64 0x490A000040200000 = some (.vmov 10 1 2) ∧
    decodeTableWord 64 0x4A0A000040230C00 = some (.vbcast 10 1 2 195) ∧
    decodeTableWord 64 0x4B0A000040200C00 = some (.vshuf 10 .idx 1 2 3) ∧
    decodeTableWord 64 0x4B0A040040200C00 = some (.vshuf 10 .xor 1 2 3) ∧
    decodeTableWord 64 0x4B0A080040200C00 = some (.vshuf 10 .rot 1 2 3) ∧
    decodeTableWord 64 0x4C0A010040200000 = some (.vred 10 false .add 1 2) ∧
    decodeTableWord 64 0x4C0A050040200000 = some (.vred 10 false .min 1 2) ∧
    decodeTableWord 64 0x4C0A090040200000 = some (.vred 10 false .max 1 2) ∧
    decodeTableWord 64 0x4C0A0D0040200000 = some (.vred 10 false .and 1 2) ∧
    decodeTableWord 64 0x4C0A110040200000 = some (.vred 10 false .or 1 2) ∧
    decodeTableWord 64 0x4C0A150040200000 = some (.vred 10 false .xor 1 2) ∧
    decodeTableWord 64 0x4D0A000044200000 = some (.vballot 10 1 66) ∧
    decodeTableWord 64 0x4E0A000040200000 = some (.vpopc 10 false 1 2) ∧
    decodeTableWord 64 0x4E0A040044200000 = some (.vpopc 10 true 1 66) :=
  ⟨rfl, rfl, rfl, rfl, rfl, rfl, rfl, rfl, rfl, rfl, rfl, rfl, rfl, rfl, rfl, rfl, rfl, rfl, rfl, rfl, rfl, rfl, rfl, rfl, rfl, rfl, rfl, rfl⟩

theorem test_decode_VectorFloat :
    decodeTableWord 64 0x500A200040200C00 = some (.vfadd 10 .rne .f32 1 2 3) ∧
    decodeTableWord 64 0x510A620040200C00 = some (.vfsub 10 .rup .f16 1 2 3) ∧
    decodeTableWord 64 0x520A830040200C00 = some (.vfmul 10 .rdn .bf16 1 2 3) ∧
    decodeTableWord 64 0x53004000C0100805 = some (.vfma 0 .rtz .fma .f32 3 1 2 5) ∧
    decodeTableWord 64 0x530AA40040200C04 = some (.vfma 10 .rna .fms .f32 1 2 3 4) ∧
    decodeTableWord 64 0x530AA80040200C04 = some (.vfma 10 .rna .fnma .f32 1 2 3 4) ∧
    decodeTableWord 64 0x530AAC0040200C04 = some (.vfma 10 .rna .fnms .f32 1 2 3 4) ∧
    decodeTableWord 64 0x540A000040200C00 = some (.vfminmax 10 .min .f32 1 2 3) ∧
    decodeTableWord 64 0x540A040040200C00 = some (.vfminmax 10 .max .f32 1 2 3) ∧
    decodeTableWord 64 0x540A080040200C00 = some (.vfminmax 10 .minnum .f32 1 2 3) ∧
    decodeTableWord 64 0x540A0C0040200C00 = some (.vfminmax 10 .maxnum .f32 1 2 3) ∧
    decodeTableWord 64 0x554AE00040200C00 = some (.vfdiv 4 10 .rto .f32 1 2 3) ∧
    decodeTableWord 64 0x564A020040200000 = some (.vfsqrt 4 10 .dyn .f16 1 2) ∧
    decodeTableWord 64 0x574A020040200000 = some (.vfrcp 4 10 .dyn .f16 1 2) ∧
    decodeTableWord 64 0x584A020040200000 = some (.vfrsq 4 10 .dyn .f16 1 2) ∧
    decodeTableWord 64 0x594A020040200000 = some (.vfexp2 4 10 .dyn .f16 1 2) ∧
    decodeTableWord 64 0x5A4A020040200000 = some (.vflog2 4 10 .dyn .f16 1 2) ∧
    decodeTableWord 64 0x5B4A020040200000 = some (.vfsin 4 10 .dyn .f16 1 2) ∧
    decodeTableWord 64 0x5C4A020040200000 = some (.vfcos 4 10 .dyn .f16 1 2) :=
  ⟨rfl, rfl, rfl, rfl, rfl, rfl, rfl, rfl, rfl, rfl, rfl, rfl, rfl, rfl, rfl, rfl, rfl, rfl, rfl⟩

theorem test_decode_VectorFloatMore :
    decodeTableWord 64 0x5D0A001040200C00 = some (.vfcmp 10 false .eq .f32 65 2 3) ∧
    decodeTableWord 64 0x5D0A041040200C00 = some (.vfcmp 10 false .ne .f32 65 2 3) ∧
    decodeTableWord 64 0x5D0A081040200C00 = some (.vfcmp 10 false .lt .f32 65 2 3) ∧
    decodeTableWord 64 0x5D0A0C1040200C00 = some (.vfcmp 10 false .le .f32 65 2 3) ∧
    decodeTableWord 64 0x5D0A101040200C00 = some (.vfcmp 10 false .gt .f32 65 2 3) ∧
    decodeTableWord 64 0x5D0A141040200C00 = some (.vfcmp 10 false .ge .f32 65 2 3) ∧
    decodeTableWord 64 0x5D0A181040200C00 = some (.vfcmp 10 false .un .f32 65 2 3) ∧
    decodeTableWord 64 0x5D0A1C1040200C00 = some (.vfcmp 10 false .ord .f32 65 2 3) ∧
    decodeTableWord 64 0x5D0A2A1040200C00 = some (.vfcmp 10 true .lt .f16 65 2 3) ∧
    decodeTableWord 64 0x5E0A030040200000 = some (.vfclass 10 .bf16 1 2) ∧
    decodeTableWord 64 0x5F0A400040200000 = some (.vcvt 10 .rtz 0 1 2 0) ∧
    decodeTableWord 64 0x5F0A100040200C00 = some (.vcvt 10 .dyn 16 1 2 3) :=
  ⟨rfl, rfl, rfl, rfl, rfl, rfl, rfl, rfl, rfl, rfl, rfl, rfl⟩

theorem test_decode_ScalarFloat :
    decodeTableWord 64 0x600A200040200C00 = some (.fadd 10 .rne false .f32 1 2 3) ∧
    decodeTableWord 64 0x600A250040200C00 = some (.fadd 10 .rne true .f64 1 2 3) ∧
    decodeTableWord 64 0x610A010040200C00 = some (.fmul 10 .dyn .f64 1 2 3) ∧
    decodeTableWord 64 0x620A6E0040200C04 = some (.ffma 10 .rup .fnms .f16 1 2 3 4) ∧
    decodeTableWord 64 0x630A0F0040200C00 = some (.fminmax 10 .maxnum .bf16 1 2 3) ∧
    decodeTableWord 64 0x640A191040200C00 = some (.fcmp 10 .un .f64 65 2 3) ∧
    decodeTableWord 64 0x654A810040200C00 = some (.fdiv 4 10 .rdn .f64 1 2 3) ∧
    decodeTableWord 64 0x664AA00040200000 = some (.fsqrt 4 10 .rna .f32 1 2) ∧
    decodeTableWord 64 0x670A470040200000 = some (.fcvt 10 .rtz 7 1 2) ∧
    decodeTableWord 64 0x670A1B0040200000 = some (.fcvt 10 .dyn 27 1 2) ∧
    decodeTableWord 64 0x670A1C0040000000 = some (.rdmode 10 1) ∧
    decodeTableWord 64 0x670A1D0000200C00 = some (.wrmode 10 2 3) :=
  ⟨rfl, rfl, rfl, rfl, rfl, rfl, rfl, rfl, rfl, rfl, rfl, rfl⟩

theorem test_decode_VectorMemory :
    decodeTableWord 64 0x683A018044982005 = some (.vld ⟨3, 10, 6, 4, 2, 2, 3, 0, 1, 5⟩) ∧
    decodeTableWord 64 0x690A01804B684005 = some (.vst ⟨0, 10, 6, 4, 5, 5, 5, 0, 2, 5⟩) ∧
    decodeTableWord 64 0x6A3A018040000005 = some (.vlds ⟨3, 10, 6, 4, 0, 0, 0, 0, 0, 5⟩) ∧
    decodeTableWord 64 0x6B0A018042000005 = some (.vsts ⟨0, 10, 6, 4, 1, 0, 0, 0, 0, 5⟩) ∧
    decodeTableWord 64 0x6C3A0180451013FF = some (.vatom ⟨3, 10, 6, 4, 2, 4, 2, 0, 0, 5119⟩) ∧
    decodeTableWord 64 0x6D0A000700200000 = some (.scfgBind 10 28 2) ∧
    decodeTableWord 64 0x6D0A040700000000 = some (.scfgUnbind 10 28) ∧
    decodeTableWord 64 0x6D0A080000200C04 = some (.scfgRtag 10 2 3 4) ∧
    decodeTableWord 64 0x6E0A040040200C00 = some (.vpack 10 1 1 2 3) ∧
    decodeTableWord 64 0x6F0A040040200C00 = some (.vunpk 10 1 1 2 3) :=
  ⟨rfl, rfl, rfl, rfl, rfl, rfl, rfl, rfl, rfl, rfl⟩

theorem test_decode_Paired :
    decodeTableWord 64 0x7000108313840800 = some (.pairI ⟨0, 1, 2, 3, 1⟩ ⟨14, 4, 2, 0, 0⟩) ∧
    decodeTableWord 64 0x718050834A460C00 = some (.pairF ⟨32, 5, 2, 3, 4⟩ ⟨41, 6, 3, 0, 0⟩) ∧
    decodeTableWord 64 0x7238408008050834 = some (.pairIF ⟨14, 4, 2, 0, 0⟩ ⟨32, 5, 2, 3, 4⟩) :=
  ⟨rfl, rfl, rfl⟩

theorem test_decode_Matrix :
    decodeTableWord 64 0x8000001040030000 = some (.mpairLead 0 65 192) ∧
    decodeTableWord 64 0x800A041040000000 = some (.mpairFollow 10 65) ∧
    decodeTableWord 64 0x810A000000000000 = some (.mrel 10) ∧
    decodeTableWord 64 0x820AB01054100C00 = some (.mcfg 10 5 true 65 321 3) ∧
    decodeTableWord 64 0x8300A002940504C0 = some (.mma 0 true false true false 10 320 321 192) ∧
    decodeTableWord 64 0x830A500294050403 = some (.mma 10 false true false true 10 320 321 3) ∧
    decodeTableWord 64 0x84000002D4230000 = some (.mdrain 0 false false false 11 322 192) ∧
    decodeTableWord 64 0x840A3802D4200000 = some (.mdrain 10 true true true 11 322 0) ∧
    decodeTableWord 64 0x840A5402C0000C00 = some (.mdrainKacc 10 true false 2 11 3) ∧
    decodeTableWord 64 0x850A0202C0000000 = some (.mstat 10 .pair true 11 0) ∧
    decodeTableWord 64 0x850A0402D4100000 = some (.mstat 10 .latch false 11 321) ∧
    decodeTableWord 64 0x850A0802C0300000 = some (.mstat 10 .ter false 11 3) :=
  ⟨rfl, rfl, rfl, rfl, rfl, rfl, rfl, rfl, rfl, rfl, rfl, rfl⟩

theorem test_decode_Accumulator :
    decodeTableWord 64 0x8600880000401800 = some (.kacc 0 2 .prod 4 6) ∧
    decodeTableWord 64 0x860A400000200000 = some (.kacc 10 1 .f32 2 0) ∧
    decodeTableWord 64 0x860A500000200000 = some (.kacc 10 1 .f64 2 0) ∧
    decodeTableWord 64 0x860A580000200000 = some (.kacc 10 1 .s32 2 0) ∧
    decodeTableWord 64 0x860A600000200000 = some (.kacc 10 1 .s64 2 0) ∧
    decodeTableWord 64 0x870AC00000000000 = some (.kclr 10 3) ∧
    decodeTableWord 64 0x880A560040000000 = some (.krnd 10 1 .rtz true true 1) ∧
    decodeTableWord 64 0x890A820040000000 = some (.kstat 10 2 true 1) :=
  ⟨rfl, rfl, rfl, rfl, rfl, rfl, rfl, rfl⟩

theorem test_decode_Shuttle :
    decodeTableWord 64 0x900A901050500C00 = some (.cpyw 10 4 true 65 261 3) ∧
    decodeTableWord 64 0x910A000050500000 = some (.cpygo 10 1 261) ∧
    decodeTableWord 64 0x920A000040200C00 = some (.shkick 10 1 2 3) ∧
    decodeTableWord 64 0x930A000000000000 = some (.seal 10) ∧
    decodeTableWord 64 0x940A000040200000 = some (.cpyq 10 .id 1 2) ∧
    decodeTableWord 64 0x940A040050500000 = some (.cpyq 10 .shadow 1 261) ∧
    decodeTableWord 64 0x940A080040000000 = some (.cpyq 10 .free 1 0) ∧
    decodeTableWord 64 0x950A001040200C04 = some (.bari 10 65 2 3 4) ∧
    decodeTableWord 64 0x960A000000200C00 = some (.bara 10 2 3) ∧
    decodeTableWord 64 0x970A000040200000 = some (.barw 10 1 2) ∧
    decodeTableWord 64 0x980A001040200000 = some (.cpyx 10 65 2) :=
  ⟨rfl, rfl, rfl, rfl, rfl, rfl, rfl, rfl, rfl, rfl, rfl⟩

theorem test_decode_Network :
    decodeTableWord 64 0xA00A6C1040200C04 = some (.msend 10 true 3 65 2 3 4) ∧
    decodeTableWord 64 0xA13A480040200000 = some (.mrecv 3 10 true 2 1 2) ∧
    decodeTableWord 64 0xA20A321040200C04 = some (.ksend 10 false 4 true 65 2 3 4) ∧
    decodeTableWord 64 0xA30A001040200C04 = some (.racfgBin 10 65 2 3 4) ∧
    decodeTableWord 64 0xA30A201040000C00 = some (.racfgUnbin 10 65 3) ∧
    decodeTableWord 64 0xA30A401040200C04 = some (.racfgRoute 10 65 2 3 4) ∧
    decodeTableWord 64 0xA30A600040000C00 = some (.racfgQuery 10 1 3) ∧
    decodeTableWord 64 0xA40A151040200C04 = some (.qcfgIn 10 true 5 65 2 3 4) ∧
    decodeTableWord 64 0xA40A251040200C00 = some (.qcfgOut 10 false 5 65 2 3) ∧
    decodeTableWord 64 0xA40A401040200C00 = some (.qcfgRx 10 65 2 3) ∧
    decodeTableWord 64 0xA40A651040000000 = some (.qcfgUnin 10 5 65) ∧
    decodeTableWord 64 0xA40A851040000000 = some (.qcfgUnout 10 5 65) ∧
    decodeTableWord 64 0xA40AA01040000000 = some (.qcfgUnrx 10 65) ∧
    decodeTableWord 64 0xA50A001040200C04 = some (.callat 10 65 2 3 4) ∧
    decodeTableWord 64 0xA60A101040200C00 = some (.retm 10 true 65 2 3) ∧
    decodeTableWord 64 0xA70A001040200C04 = some (.amsg 10 65 2 3 4) :=
  ⟨rfl, rfl, rfl, rfl, rfl, rfl, rfl, rfl, rfl, rfl, rfl, rfl, rfl, rfl, rfl, rfl⟩

theorem test_decode_Rays :
    decodeTableWord 64 0xB03A180040200000 = some (.rpop 3 10 false true true 1 2) ∧
    decodeTableWord 64 0xB03A200040200000 = some (.rpop 3 10 true false false 1 2) ∧
    decodeTableWord 64 0xB03A600048000000 = some (.rpopClaim 3 10 true 1 128) ∧
    decodeTableWord 64 0xB03A800048000000 = some (.rpopRelease 3 10 false 1 128) ∧
    decodeTableWord 64 0xB10A800040200000 = some (.rsend 10 true 1 2) ∧
    decodeTableWord 64 0xB23A000040200C00 = some (.xnode 3 10 1 2 3) ∧
    decodeTableWord 64 0xB33A000040200C00 = some (.xtri 3 10 1 2 3) ∧
    decodeTableWord 64 0xB40A000040200C00 = some (.xtile 10 1 2 3) ∧
    decodeTableWord 64 0xB50A000040200000 = some (.hsend 10 1 2) ∧
    decodeTableWord 64 0xB60A000040200000 = some (.tmapMap 10 1 2) ∧
    decodeTableWord 64 0xB60A200040200000 = some (.tmapUnmap 10 1 2) ∧
    decodeTableWord 64 0xB70A000040200000 = some (.tlpin 10 1 2) ∧
    decodeTableWord 64 0xB80A000040200C04 = some (.tlrepOffer 10 1 2 3 4) ∧
    decodeTableWord 64 0xB80A200040200000 = some (.tlrepWithdraw 10 1 2) ∧
    decodeTableWord 64 0xB90A000040000000 = some (.hoopwClaim 10 1) ∧
    decodeTableWord 64 0xB90A200040000000 = some (.hoopwRelease 10 1) ∧
    decodeTableWord 64 0xB90A400040200000 = some (.hoopwState 10 1 2) ∧
    decodeTableWord 64 0xB90A600040200000 = some (.hoopwAdd 10 1 2) ∧
    decodeTableWord 64 0xB90A800040000000 = some (.hoopwClear 10 1) ∧
    decodeTableWord 64 0xBA0A000040200C00 = some (.hoopr 10 1 2 3) :=
  ⟨rfl, rfl, rfl, rfl, rfl, rfl, rfl, rfl, rfl, rfl, rfl, rfl, rfl, rfl, rfl, rfl, rfl, rfl, rfl, rfl⟩

theorem test_decode_Synchronisation :
    decodeTableWord 64 0xC00A018046900005 = some (.ldfe ⟨0, 10, 6, 4, 3, 2, 2, 0, 0, 5⟩) ∧
    decodeTableWord 64 0xC10A018044C80005 = some (.stfe ⟨0, 10, 6, 4, 2, 3, 1, 0, 0, 5⟩) ∧
    decodeTableWord 64 0xC20A011040200000 = some (.feqTest 10 true 65 2) ∧
    decodeTableWord 64 0xC20A040000200000 = some (.feqFill 10 false 2) ∧
    decodeTableWord 64 0xC20A090000200000 = some (.feqDrain 10 true 2) ∧
    decodeTableWord 64 0xC32A001040200C00 = some (.barsInit 10 2 65 2 3) ∧
    decodeTableWord 64 0xC35A041040200C00 = some (.barsArrive 10 5 65 2 3) ∧
    decodeTableWord 64 0xC31A081040200C00 = some (.barsWait 10 1 65 2 3) ∧
    decodeTableWord 64 0xC31A0C1040200000 = some (.barsSync 10 1 65 2) ∧
    decodeTableWord 64 0xC400B00000000000 = some (.fence 0 .sc 4) ∧
    decodeTableWord 64 0xC4006C0000000000 = some (.fence 0 .rel 3) ∧
    decodeTableWord 64 0xC40A400000000000 = some (.fence 10 .acq 0) ∧
    decodeTableWord 64 0xC40A880000000000 = some (.fence 10 .acqrel 2) ∧
    decodeTableWord 64 0xC500200000000000 = some (.pfence 0 2) ∧
    decodeTableWord 64 0xC50AD00000000000 = some (.pfence 10 13) :=
  ⟨rfl, rfl, rfl, rfl, rfl, rfl, rfl, rfl, rfl, rfl, rfl, rfl, rfl, rfl, rfl⟩

theorem test_decode_System :
    decodeTableWord 64 0xD00A000000001234 = some (.trap 10 0x1234) ∧
    decodeTableWord 64 0xD100000000000000 = some (.tretRetry 0) ∧
    decodeTableWord 64 0xD100010000000000 = some (.tretSkip 0) ∧
    decodeTableWord 64 0xD10A020000000000 = some (.tretKill 10) ∧
    decodeTableWord 64 0xD300000001C00005 = some (.mts 0 0 5 28) ∧
    decodeTableWord 64 0xD200000700000005 = some (.mfs 0 0 5 28) ∧
    decodeTableWord 64 0xD30A010000200000 = some (.cctlWrite 10 2) ∧
    decodeTableWord 64 0xD30A020000200005 = some (.bfmtWrite 10 5 2) ∧
    decodeTableWord 64 0xD30A030000200007 = some (.pgselWrite 10 7 2) ∧
    decodeTableWord 64 0xD30A060000200001 = some (.clAmodeWrite 10 2) ∧
    decodeTableWord 64 0xD30A070000200003 = some (.tierWmWrite 10 2 2) ∧
    decodeTableWord 64 0xD30A060000200002 = some (.clOvfWrite 10 2) ∧
    decodeTableWord 64 0xD20A060040000003 = some (.clOvfsRead 10 1) ∧
    decodeTableWord 64 0xD40AA00000200C00 = some (.segw 10 5 2 3) ∧
    decodeTableWord 64 0xD50AB00040000000 = some (.segr 10 5 true 1) ∧
    decodeTableWord 64 0xD60A000040200C04 = some (.pgmapMap 10 1 2 3 4) ∧
    decodeTableWord 64 0xD60A200040200C04 = some (.pgmapUnmap 10 1 2 3 4) ∧
    decodeTableWord 64 0xD60A400040200C04 = some (.pgmapPin 10 1 2 3 4) ∧
    decodeTableWord 64 0xD60A600040200C04 = some (.pgmapUnpin 10 1 2 3 4) ∧
    decodeTableWord 64 0xD60A800040200C04 = some (.pgmapDemote 10 1 2 3 4) ∧
    decodeTableWord 64 0xD70A500000200C00 = some (.tlbi 10 2 4 2 3) ∧
    decodeTableWord 64 0xD80A200000200C00 = some (.icinv 10 1 false 2 3) ∧
    decodeTableWord 64 0xD80AB00000000000 = some (.icinv 10 5 true 0 0) ∧
    decodeTableWord 64 0xD900000001C00000 = some (.ctxsv 0 28) ∧
    decodeTableWord 64 0xDA0A000001C00000 = some (.ctxld 10 28) ∧
    decodeTableWord 64 0xDB5A00402FFFFFFF = some (.ldphy 10 5 3 1 2 0x3FFFFFF) ∧
    decodeTableWord 64 0xDC1A004028000008 = some (.stphy 10 1 2 1 2 8) :=
  ⟨rfl, rfl, rfl, rfl, rfl, rfl, rfl, rfl, rfl, rfl, rfl, rfl, rfl, rfl, rfl, rfl, rfl, rfl, rfl, rfl, rfl, rfl, rfl, rfl, rfl, rfl, rfl⟩

theorem test_decode_Debug :
    decodeTableWord 64 0xE000070000000000 = some (.bkpt 0 7) ∧
    decodeTableWord 64 0xE10000024C800000 = some (.cntr 0 false 9 200) ∧
    decodeTableWord 64 0xE10A040240300000 = some (.cntr 10 true 9 3) ∧
    decodeTableWord 64 0xE20000000C231400 = some (.cntctlSel 0 194 197) ∧
    decodeTableWord 64 0xE20A040000200000 = some (.cntctlEn 10 2) ∧
    decodeTableWord 64 0xE20A080000200000 = some (.cntctlClr 10 2) ∧
    decodeTableWord 64 0xE20A0C0000200000 = some (.cntctlUclr 10 2) ∧
    decodeTableWord 64 0xE30000000C500000 = some (.mark 0 197) :=
  ⟨rfl, rfl, rfl, rfl, rfl, rfl, rfl, rfl⟩

/-- Words that no instruction has: a reserved major, a reserved function, a field that must be zero, a width of ADD, an order
of LD that is a store's, and scope 6 (R36, R37, R102). -/
theorem test_reserved_words_refused :
    decodeTableWord 64 0x3F00000000000000 = none ∧ decodeTableWord 64 0x0000040000000000 = none ∧
    decodeTableWord 64 0x0000000000000001 = none ∧ decodeTableWord 64 0x0800000000000000 = none ∧
    decodeTableWord 64 0x3000000004C00000 = none ∧ decodeTableWord 64 0x3000000004700000 = none :=
  ⟨rfl, rfl, rfl, rfl, rfl, rfl⟩

/-! Well-formedness refuses, by name, a term that breaks each of its rules. -/

theorem test_illformed_width : (.ld ⟨0, 0, 1, 2, 5, 0, 0, 0, 0, 0⟩ : Instr).formError = some .width := by decide

theorem test_illformed_order : (.st ⟨0, 0, 1, 2, 2, 2, 2, 0, 0, 0⟩ : Instr).formError = some .order := by decide

theorem test_illformed_scope : (.fence 0 .sc 6 : Instr).formError = some .scope := by decide

theorem test_illformed_reserved : (.st ⟨1, 0, 1, 2, 2, 0, 0, 0, 0, 0⟩ : Instr).formError = some .reserved := by decide

theorem test_illformed_atomOp : (.atom ⟨0, 0, 1, 2, 2, 1, 0, 0, 0, 0x1400⟩ : Instr).formError = some .atomOp := by decide

theorem test_illformed_leaShift : (.lea 0 .z64 7 1 2 3 : Instr).formError = some .leaShift := by decide

theorem test_illformed_waitbCount : (.waitb 0 false 15 : Instr).formError = some .waitbCount := by decide

theorem test_illformed_waitcNone : (.waitc 0 0 : Instr).formError = some .waitcNone := by decide

theorem test_illformed_vectorType : (.vfadd 0 .rne .f64 1 2 3 : Instr).formError = some .vectorType := by decide

theorem test_illformed_cmpHi : (.vfcmp 0 true .lt .f32 65 2 3 : Instr).formError = some .cmpHi := by decide

theorem test_illformed_cvtCode : (.vcvt 0 .dyn 17 1 2 0 : Instr).formError = some .cvtCode := by decide

theorem test_illformed_cvtRound : (.vcvt 0 .rtz 7 1 2 0 : Instr).formError = some .cvtRound := by decide

theorem test_illformed_packKind : (.vpack 0 7 1 2 3 : Instr).formError = some .packKind := by decide

theorem test_illformed_halfOp : (.pairI ⟨0x16, 1, 2, 3, 0⟩ ⟨2, 4, 2, 3, 0⟩ : Instr).formError = some .halfOp := by decide

theorem test_illformed_pairDest : (.pairI ⟨0, 1, 2, 3, 0⟩ ⟨2, 1, 2, 3, 0⟩ : Instr).formError = some .pairDest := by decide

theorem test_illformed_pairBank : (.pairI ⟨0, 1, 2, 3, 0⟩ ⟨2, 5, 2, 3, 0⟩ : Instr).formError = some .pairBank := by decide

theorem test_illformed_pairReads : (.pairI ⟨0, 1, 2, 3, 0⟩ ⟨2, 4, 6, 7, 0⟩ : Instr).formError = some .pairReads := by decide

theorem test_illformed_pairUnits : (.pairF ⟨0x29, 1, 2, 0, 0⟩ ⟨0x2F, 4, 2, 3, 0⟩ : Instr).formError = some .pairUnits := by decide

theorem test_illformed_pfenceNone : (.pfence 0 0 : Instr).formError = some .pfenceNone := by decide

theorem test_illformed_sysReg : (.mts 0 4 0 2 : Instr).formError = some .sysReg := by decide

theorem test_illformed_tlbiKind : (.tlbi 0 3 2 0 0 : Instr).formError = some .tlbiKind := by decide

theorem test_illformed_phySpace : (.ldphy 0 6 0 1 2 0 : Instr).formError = some .phySpace := by decide

theorem test_illformed_gatherNoWait : (.rpop 0 0 false false true 1 2 : Instr).formError = some .gatherNoWait := by decide

/-! States of the tests. -/


/-- A supervisor context after reset about to issue a word: a thread, or a wave for a word of class V. -/
def held (w : W64) : State := { State.reset with me := { State.reset.me.holdingWord w with sup := true } }

/-- A team of one thread and one wave on rows 192 to 207, with 64 uniforms and 8 Shuttle slots. -/
def crew : Team :=
  { tag := 1, lnum := 5, rcb := 0, threads := 1, waves := 1, uniforms := 64, shuttle := 8, nokacc := false, half := 0,
    slots := [0], runs := [(192, 16)], accRow := some 200, frames := [], entry := 0, desc := 0, mode0 := 0x100, segs := [],
    done := 0, waitch := false, records := [], depth := 0, children := 0, acc := [], inq := [], ring := none, bins := [],
    routes := [], decl := 0, fmts := 0, merge := false, started := true, exiting := false, held := false, returning := none,
    batches := [] }

/-- A translation of the 2 MiB page at 0. -/
def page0 : Tlb := { asn := 0, page := 0, fine := false, frame := 0, rd := true, wr := true, ex := true, dty := true }

/-- A valid segment at 0 with every right. -/
def seg0 : BitVec 128 := BitVec.ofNat 128 (2 ^ 63 + 2 ^ 62 + 2 ^ 61 + 2 ^ 60 + 2 ^ 40 * 2 ^ 66)

/-- A member of the crew about to issue a word, in unified mode: x2 and x4 name row 192, x3 is 1, x5 names byte 0x1000 of
global memory. -/
def rig (w : W64) : State :=
  let h := State.reset.here
  let tags := (List.range 16).foldl (fun (c : Core) n => c.putTag (192 + n) (mkTag 4 1)) h
  { State.reset with
    clusters := [(0, { Cluster.reset with split := false, tlb := [page0] })],
    here := { tags with teams := [crew] },
    me := { State.reset.me.holdingWord w with
      team := 1, sup := true, g := [(0, seg0)],
      x := [(2, 0xFFFFFF0000003000), (3, 1), (4, 0xFFFFFF0000003000), (5, 0x1000)] } }

/-- A thread or a wave equipped for every unit: x2, x4, k2 and k3 name row 192, x5, k4 and k5 byte 0x1000 of memory, where a
descriptor of one 4-byte element at 0x2000 lies, x6 is 1 and p1 true in lane 0; it drives a formed pair, with A, B and OUT
images of row 192 in md0 to md2, and a copy of 4 bytes is in sh5 and at row 193; its barrier at row 192 expects one arrival,
the word after it is full, its ring holds one message, bin 1 is routed, and a route is cached. -/
def kit (w : W64) : State :=
  let s := rig w
  let copy : List Byte := natToBytes 8 0xFFFFFF0000003000 ++ natToBytes 8 0xFFFFFF0000003040 ++ natToBytes 8 3
  { s with
    seat := some (.slot 0),
    here := { s.here with
      uni := [(2, 0x3000), (3, 0xFFFFFF00), (4, 0x1000), (6, 1)], fe := [(0xC01, true)],
      rows := Store.putBytes [(0x3008, 1)] 0x3040 copy,
      half := some ⟨1, some (.slot 0)⟩, pair := some .fresh,
      md := [(0, 0xFFFFFF0000003000), (4, 2), (8, 0xFFFFFF0000003000), (12, 3), (16, 0xFFFFFF0000003000), (20, 5)],
      sh := [(40, 0xFFFFFF0000003000), (41, 0xFFFFFF0000003040), (42, 3)],
      routes := [⟨0, 0, ⟨0, 0, 0, 0⟩, 100⟩],
      teams := [{ crew with ring := some ⟨0x3080, 1, 0, 1⟩, routes := [(1, (0, 4))] }] },
    me := { s.me with
      x := [(2, 0xFFFFFF0000003000), (3, 0x100), (4, 0xFFFFFF0000003040), (5, 0x1000), (6, 1), (7, 1)], p := [(1, 1)] },
    mem := Store.putBytes [] 0x1000
      (natToBytes 8 0x2000 ++ natToBytes 8 0 ++ natToBytes 8 0x100000001 ++ natToBytes 8 2) }

/-- The context of a state changed. -/
def withMe (s : State) (f : Ctx → Ctx) : State := { s with me := f s.me }

/-- The word of an instruction. -/
def wordOf (i : Instr) : W64 := (encode i).getD 0

/-! Single steps, against the numbers of the rules. -/

/-- MARK 5 sets MKVAL (18_debug.md R469). -/
theorem test_mark : (match step (State.reset.withFetchWord 64 0xE30000000C500000) with
    | .next t => t.me.mkval
    | _ => 0) = 5 := by decide

/-- The value of x1 after an instruction of a thread whose x2 and x3 are given. -/
def x1After (i : Instr) (a b : W64) : Option W64 :=
  match exec i (withMe (held (wordOf i)) fun c => { c with x := [(2, a), (3, b)] }) with
  | .next t => some (t.me.xreg 1)
  | _ => none

/-- 32-bit types wrap and extend by their sign (04_registers.md R89, R101, R102). -/
theorem test_add_wraps : x1After (.add 0 .s32 1 2 3) 0x7FFFFFFF 1 = some 0xFFFFFFFF80000000 := by decide
theorem test_sub_wraps : x1After (.sub 0 .z32 1 2 3) 0 1 = some 0xFFFFFFFF := by decide
theorem test_addi_negative : x1After (.addi 0 .s64 1 2 0xFFFFFFF) 0 0 = some 0xFFFFFFFFFFFFFFFF := by decide
theorem test_mulh_signed : x1After (.mulh 0 .s64 1 2 3) 0xFFFFFFFFFFFFFFFF 2 = some 0xFFFFFFFFFFFFFFFF := by decide
/-- Shift amounts are taken modulo the width (R102). -/
theorem test_shr_arithmetic : x1After (.shr 0 .s32 1 2 3) 0x80000000 33 = some 0xFFFFFFFFC0000000 := by decide
theorem test_rot_left : x1After (.rot 0 false true 1 2 3) 0x80000001 1 = some 3 := by decide
theorem test_clz_zero : x1After (.clz 0 false 1 2) 0 0 = some 32 := by decide
theorem test_minmax_signed : x1After (.minmax 0 .s32 true 1 2 3) 0xFFFFFFFF 0 = some 0 := by decide
/-- MOVI.z32 extends with zeros, MOVH keeps the low half (R102). -/
theorem test_movi : x1After (.movi 0 false 1 0x80000000) 0 0 = some 0x80000000 := by decide
theorem test_movh : x1After (.movh 0 2 5) 0 0 = some 0 := by decide

/-! What statements ask of a state, as tests that evaluate. -/

/-- The conditions of `Ready`. -/
def isReady (r : Req) (s : State) : Bool :=
  s.me.breakMatch.isNone && (s.checkTrap r).isNone && decide (s.actLanes r ≠ 0) &&
  (s.me.pend.filter (Pend.meets (r.allRegs s.me.isWave))).isEmpty && !s.uniOwed (r.allRegs s.me.isWave) &&
  (!r.counted || decide (s.here.nv + s.here.nm < 320)) && !s.me.grant

theorem ready_of {r : Req} {s : State} (h : isReady r s = true) : Ready r s := by
  simp only [isReady, Bool.and_eq_true, Option.isNone_iff_eq_none, decide_eq_true_eq, Bool.or_eq_true, Bool.not_eq_true'] at h
  obtain ⟨⟨⟨⟨⟨⟨h1, h2⟩, h3⟩, h4⟩, h5⟩, h6⟩, h7⟩ := h
  exact ⟨h1, h2, h3, h4, h5, fun c => h6.resolve_left (by simp [c]), h7⟩

/-- The conditions of `Plain`. -/
def isPlain (r : Req) (s : State) : Bool := (r.srcs ++ r.dsts).all s.plainOpnd

theorem plain_of {r : Req} {s : State} (h : isPlain r s = true) : Plain r s := fun o ho => List.all_eq_true.mp h o ho

/-- An instruction of a register table that meets the hypotheses of its statement. -/
def RegMet (table : Instr → Option RegEffect) (i : Instr) (s : State) : Prop :=
  ∃ e, table i = some e ∧ Ready e.req s ∧ Plain e.req s ∧ s.flows ∧ intRuns i s (issOf e.req s) = true

def isRegMet (table : Instr → Option RegEffect) (i : Instr) (s : State) : Bool :=
  match table i with
  | none => false
  | some e => isReady e.req s && isPlain e.req s && !s.me.stepped.2 && intRuns i s (issOf e.req s)

theorem regMet_of {table : Instr → Option RegEffect} {i : Instr} {s : State} (h : isRegMet table i s = true) :
    RegMet table i s := by
  unfold isRegMet at h
  cases e : table i with
  | none => rw [e] at h; cases h
  | some x =>
    rw [e] at h
    simp only [Bool.and_eq_true, Bool.not_eq_true'] at h
    exact ⟨x, e, ready_of h.1.1.1, plain_of h.1.1.2, h.1.2, h.2⟩

/-- An instruction of a table that meets the hypotheses of `Performs`. -/
def Met (table : Instr → State → Option Effect) (i : Instr) (s : State) : Prop :=
  ∃ e, table i s = some e ∧ Ready e.req s ∧ Plain e.req s ∧ e.runs s = true ∧ (e.leaves s).me.grant = false ∧ (e.leaves s).flows

def isMet (table : Instr → State → Option Effect) (i : Instr) (s : State) : Bool :=
  match table i s with
  | none => false
  | some e => isReady e.req s && isPlain e.req s && e.runs s && !(e.leaves s).me.grant && !(e.leaves s).me.stepped.2

theorem met_of {table : Instr → State → Option Effect} {i : Instr} {s : State} (h : isMet table i s = true) : Met table i s := by
  unfold isMet at h
  cases e : table i s with
  | none => rw [e] at h; cases h
  | some x =>
    rw [e] at h
    simp only [Bool.and_eq_true, Bool.not_eq_true'] at h
    exact ⟨x, e, ready_of h.1.1.1.1, plain_of h.1.1.1.2, h.1.1.2, h.1.2, h.2⟩

/-- An event of a table that meets the hypotheses of `Happens`. -/
def Occurs (table : Instr → Option Happening) (i : Instr) (s : State) : Prop := ∃ h, table i = some h ∧ h.when s = true


/-! Register instructions: every one of each table. -/

/-- Instructions of a register table that each meet the hypotheses of its statement. -/
theorem regMets {table : Instr → Option RegEffect} {st : W64 → State} {l : List Instr}
    (h : (l.all fun i => isRegMet table i (st (wordOf i))) = true) : ∀ i ∈ l, RegMet table i (st (wordOf i)) :=
  fun i hi => regMet_of (List.all_eq_true.mp h i hi)

theorem test_witness_ScalarIntegerResults : ∀ i ∈
     [.add 10 .s32 1 2 3, .sub 10 .z32 1 2 3, .addi 10 .s64 1 2 0xFFFFFFF, .mul 10 .z64 1 2 3, .mulh 10 .s64 1 2
      3, .minmax 10 .s32 false 1 2 3, .and 10 false 1 2 3, .or 10 true 1 2 3, .xor 10 false 1 2 3, .andn 10 true
      1 2 3, .shl 10 false 1 2 3, .shr 10 .s64 1 2 3, .rot 10 false true 1 2 3, .bfx 10 .s32 1 2 3 4, .bfi 10
      true 1 2 3 4, .popc 10 false 1 2, .clz 10 true 1 2, .ctz 10 false 1 2, .brev 10 false 1 2, .lea 10 .z64 6
      1 2 3, .mad 10 .s32 1 2 3 4, .sxt 10 .s64 1 2 3, .hash 10 .crc32 1 2 3, .movi 10 true 1 0x89ABCDEF, .movh
      10 1 0x89ABCDEF, .mov 10 .s32 1 2, .cmp 10 .s32 .eq 65 2 3, .iswin 10 .local 65 2, .sel 10 true 1 2 3 66,
      .addc 10 true 1 2 3 65, .cvta 10 .tocl 1 2],
    RegMet intEffect i (held (wordOf i)) :=
  regMets (by decide +kernel)

theorem test_witness_VectorIntegerResults :
    (∀ i ∈
     [.vadd 10 false true 1 2 3, .vsub 10 true false 1 2 3, .vmul 10 true .lo 1 2 3, .vmad 10 false 1 2 3 4,
      .vminmax 10 true true 1 2 3, .vlog 10 0x96 1 2 3 4, .vsh 10 false .shl 1 2 3, .vmov 10 1 2, .vcmp 10 true
      .lt 65 2 3, .vsel 10 1 2 3 66, .vbcast 10 1 2 195, .vshuf 10 .idx 1 2 3, .vred 10 false .add 1 2, .vballot
      10 1 66, .vpopc 10 false 1 2],
      RegMet vecEffect i (held (wordOf i))) ∧
    (∀ i ∈
     [.vpack 10 0 1 2 3, .vunpk 10 0 1 2 3],
      RegMet vecEffect i (rig (wordOf i))) :=
  ⟨regMets (by decide +kernel), regMets (by decide +kernel)⟩

theorem test_witness_FloatingPointResults : ∀ i ∈
     [.vfadd 10 .rne .f32 1 2 3, .vfsub 10 .rup .f16 1 2 3, .vfmul 10 .rdn .bf16 1 2 3, .vfma 0 .rtz .fma .f32 3
      1 2 5, .vfminmax 10 .min .f32 1 2 3, .vfcmp 10 false .eq .f32 65 2 3, .vfclass 10 .bf16 1 2, .vcvt 10 .rtz
      0 1 2 0, .fadd 10 .rne false .f32 1 2 3, .fmul 10 .dyn .f64 1 2 3, .ffma 10 .rup .fnms .f16 1 2 3 4,
      .fminmax 10 .maxnum .bf16 1 2 3, .fcmp 10 .un .f64 65 2 3, .fcvt 10 .rtz 7 1 2],
    RegMet fpEffect i (held (wordOf i)) :=
  regMets (by decide +kernel)

theorem test_witness_LongLatencyResults : ∀ i ∈
     [.div 5 10 .s32 1 2 3, .rem 6 10 .z32 1 2 3, .fdiv 4 10 .rdn .f64 1 2 3, .fsqrt 4 10 .rna .f32 1 2, .vfdiv
      4 10 .rto .f32 1 2 3, .vfsqrt 4 10 .dyn .f16 1 2, .vfrcp 4 10 .dyn .f16 1 2, .vfrsq 4 10 .dyn .f16 1 2,
      .vfexp2 4 10 .dyn .f16 1 2, .vflog2 4 10 .dyn .f16 1 2, .vfsin 4 10 .dyn .f16 1 2, .vfcos 4 10 .dyn .f16 1
      2],
    RegMet (fun i => (longEffect i).map (·.2)) i (held (wordOf i)) :=
  regMets (by decide +kernel)

/-- The rig with an inbound queue of two elements that its context has bound. -/
def queued (w : W64) : State :=
  let s := rig w
  { s with here := { s.here with
      teams := [{ crew with inq := [(2, some ⟨0x3000, 1, 9, true, 0, 2, 0⟩)] }] },
           me := { s.me with qi := some 2 } }

/-- What a part of a meaning leaves, where it goes on. -/
def okState (m : M Unit) (s : State) : Option State :=
  match m.run s with
  | .ok _ t => some t
  | .error _ _ => none

theorem flows_of {s : State} (h : s.me.stepped.2 = false) : s.flows := h
theorem reaches_of {s : State} {a : W64} (h : (s.me.arrived a).2 = false) : s.reaches a := h

theorem does_of {m : M Unit} {s : State} (h : (okState m s).isSome = true) : Does m s () (s.did m) := by
  unfold okState at h
  unfold Does State.did
  cases e : m.run s with
  | ok a t => rfl
  | error x t => rw [e] at h; cases h

/-- An ADD that pops its first operand meets the hypotheses of QueueAndStreamForms. -/
theorem test_witness_QueueAndStreamForms :
    let i : Instr := .add 0 .s64 1 0x081 3
    let s := queued (wordOf i)
    ∃ e u w, intEffect i = some e ∧ Ready e.req s ∧ s.me.watchMatch (s.streamTouches (issOf e.req s) e.req.dsts) = none ∧
      (∀ d ∈ e.req.dsts, Does (pushChecks (issOf e.req s) d) s () s) ∧ Does (popSources (issOf e.req s)) s () u ∧ intRuns i u (issOf e.req s) = true ∧
      Does ((e.puts u (issOf e.req s)).forM (Put.perform (issOf e.req s))) u () w ∧ w.me.grant = false ∧ w.flows :=
  ⟨_, _, _, rfl, ready_of (by decide), rfl, fun d hd => by rw [List.mem_singleton.mp hd]; exact pushChecks_plain (by decide),
    does_of (by decide), by decide, does_of (by decide), by decide, flows_of (by decide)⟩

/-! Transfers of control. -/

/-- A wave of the rig that stands at a word, its mask full, p1 true in lanes 0 to 3. -/
def wave (w : W64) : State :=
  withMe (rig w) fun c => { c with kind := .wave, slots := ({ c.slots.1 with mask := 0xFFFF }, c.slots.2), p := [(1, 0xF)] }

/-- The conditions that the statements on transfers share. -/
def JumpMet (i : Instr) (s : State) (j : Jump) : Prop :=
  jumpOf i = some j ∧ Ready j.req s ∧ Plain j.req s ∧ j.runs s (issOf j.req s) = true

theorem test_witness_TransfersOfControl :
    (∃ j, JumpMet (.bra 0 0xFFFFFFFE) (held (wordOf (.bra 0 0xFFFFFFFE))) j ∧
      (held (wordOf (.bra 0 0xFFFFFFFE))).me.isWave = false ∧
      (held (wordOf (.bra 0 0xFFFFFFFE))).reaches (j.target (held (wordOf (.bra 0 0xFFFFFFFE))) (issOf j.req (held 0)))) ∧
    (∃ j, JumpMet (.bri 0 3) (held (wordOf (.bri 0 3))) j) ∧
    (∃ j, JumpMet (.call 0 9) (wave (wordOf (.call 0 9))) j ∧
      (wave (wordOf (.call 0 9))).actLanes j.req = (wave (wordOf (.call 0 9))).me.curSlot.mask ∧
      (wave (wordOf (.call 0 9))).me.otherSlot.live = false) ∧
    (∃ j, JumpMet (.ret 0) (withMe (held (wordOf (.ret 0))) fun c => c.modCur fun p => { p with rstk := [0x1000] }) j) :=
  ⟨⟨_, ⟨rfl, ready_of (by decide), plain_of (by decide), rfl⟩, by decide, reaches_of (by decide)⟩,
   ⟨_, rfl, ready_of (by decide), plain_of (by decide), by decide⟩,
   ⟨_, ⟨rfl, ready_of (by decide), plain_of (by decide), by decide⟩, by decide, by decide⟩,
   ⟨_, rfl, ready_of (by decide), plain_of (by decide), by decide⟩⟩

/-- The wave with a second slot that waits at a join. -/
def split (w : W64) : State :=
  withMe (wave w) fun c => { c with
    slots := ({ c.slots.1 with mask := 0x00FF, depth := 1 },
              { c.slots.1 with mask := 0xFF00, depth := 1, waiting := true, jpc := 0x48, buf := none }) }

theorem test_witness_SplitOfWave :
    let i : Instr := .bra 1 9
    (∃ j, let s := wave (wordOf i)
      JumpMet i s j ∧ s.me.isWave = true ∧ s.me.handler = false ∧ s.actLanes j.req ≠ s.me.curSlot.mask ∧ s.me.cur ≤ 1 ∧
      (s.me.otherSlot.live = true → s.me.dsp < 4) ∧ (s.me.lc.1 = 0 ∧ s.me.lc.2 = 0)) ∧
    (∃ j, let s := split (wordOf i)
      JumpMet i s j ∧ s.me.isWave = true ∧ s.me.handler = false ∧ s.actLanes j.req ≠ s.me.curSlot.mask ∧ s.me.cur ≤ 1 ∧
      (s.me.otherSlot.live = true ∧ s.me.dsp < 4) ∧ (s.me.lc.1 = 0 ∧ s.me.lc.2 = 0)) :=
  ⟨⟨_, ⟨rfl, ready_of (by decide), plain_of (by decide), by decide⟩, by decide⟩,
   ⟨_, ⟨rfl, ready_of (by decide), plain_of (by decide), by decide⟩, by decide⟩⟩

/-- The stack full, and a handler. -/
theorem test_witness_SplitOfWave_diverges :
    let i : Instr := .bra 1 9
    (∃ j, let s := withMe (split (wordOf i)) fun c => { c with dsp := 4 }
      JumpMet i s j ∧ s.me.isWave = true ∧ s.actLanes j.req ≠ s.me.curSlot.mask ∧ s.me.prog2.active = false ∧
      s.me.otherSlot.live = true ∧ 4 ≤ s.me.dsp) ∧
    (∃ j, let s := withMe (wave (wordOf i)) fun c => { c with handler := true }
      JumpMet i s j ∧ s.me.isWave = true ∧ s.actLanes j.req ≠ s.me.curSlot.mask ∧ s.me.prog2.active = false ∧
      s.me.handler = true) :=
  ⟨⟨_, ⟨rfl, ready_of (by decide), plain_of (by decide), by decide⟩, by decide⟩,
   ⟨_, ⟨rfl, ready_of (by decide), plain_of (by decide), by decide⟩, by decide⟩⟩

/-- LOOP with its end 2 words on (too near: n = 1), 3 words on, and in a wave of two slots; count 1 and 0. -/
theorem test_witness_LoopSetsItsLevel :
    let r : Req := { guard := 0, form := notInHandler, ok := fun s => s.ctlSrcOk 3, srcs := [3] }
    let z : Req := { guard := 0, form := notInHandler, ok := fun s => s.ctlSrcOk 0x080, srcs := [0x080] }
    (let s := rig (wordOf (.loop 0 true 3 2)); Ready r s ∧ Plain r s ∧ s.me.curSlot.count = 0 ∧ s.me.prog2.active = false) ∧
    (let s := rig (wordOf (.loop 0 true 3 3)); Ready r s ∧ Plain r s ∧ (s.me.isWave = true → s.me.live ≤ 1 ∧ s.me.dsp = 0) ∧
      (s.sval (issOf r s) false 3).setWidth 32 = (1 : W32)) ∧
    (let s := rig (wordOf (.loop 0 true 0x080 3)); Ready z s ∧ Plain z s ∧
      (s.sval (issOf z s) false 0x080).setWidth 32 = (0 : W32)) ∧
    (let s := split (wordOf (.loop 0 true 0x080 3)); Ready z s ∧ Plain z s ∧ s.me.isWave = true ∧ 1 < s.me.live ∧
      s.actLanes z = s.me.curSlot.mask ∧ s.me.prog2.active = false) :=
  ⟨⟨ready_of (by decide), plain_of (by decide), by decide⟩, ⟨ready_of (by decide), plain_of (by decide), by decide⟩,
   ⟨ready_of (by decide), plain_of (by decide), by decide⟩, ⟨ready_of (by decide), plain_of (by decide), by decide⟩⟩

/-- A context with both levels given as end and count, arriving at 0x40. -/
def looped (e0 e1 : W64) (n0 n1 : W32) : Ctx := { (held 0).me with le := (e0, e1), lc := (n0, n1) }

theorem test_witness_LoopEndsAndBreaks :
    (∀ c ∈ [looped 0 0x40 0 2, looped 0 0x40 0 1, looped 0x40 0 2 0, looped 0x40 0x40 2 1, looped 0 0 0 0],
      c.handler = false ∧ c.diverged = false) ∧
    ((looped 0 0x40 0 2).lc.2 ≠ 1 ∧ pcAddr (looped 0 0x40 0 2).le.2 = pcAddr 0x40) ∧
    ((looped 0 0x40 0 1).lc.2 = 1 ∧ (looped 0 0x40 0 1).lc.1 = 0) ∧
    ((looped 0x40 0 2 0).lc.2 = 0 ∧ (looped 0x40 0 2 0).lc.1 ≠ 1 ∧ pcAddr (looped 0x40 0 2 0).le.1 = pcAddr 0x40) ∧
    ((looped 0x40 0x40 2 1).lc.2 = 1 ∧ (looped 0x40 0x40 2 1).lc.1 ≠ 1) ∧ (looped 0 0 0 0).noLoopEnd 0x40 ∧
    (let r : Req := { guard := 0, form := notInHandler }
     let s := withMe (held (wordOf (.lbrk 0 true))) fun c => { c with lc := (0, 1) }
     Ready r s ∧ s.reaches s.me.le.2 ∧ s.me.lc.2 ≠ 0 ∧ s.me.isWave = false) ∧
    (let r : Req := { guard := 0, form := notInHandler }
     let s := held (wordOf (.lbrk 0 true))
     Ready r s ∧ s.me.lc.2 = 0 ∧ s.me.prog2.active = false) :=
  ⟨by decide, by decide, by decide, by decide, by decide, ⟨.inl rfl, .inl rfl⟩,
   ⟨ready_of (by decide), reaches_of (by decide), by decide⟩,
   ⟨ready_of (by decide), by decide⟩⟩

theorem test_witness_JoinGoesOnWaitsOrMerges :
    (let s := held (wordOf (.join 0 9)); Ready { guard := 0 } s ∧ s.reaches 0x48 ∧ s.me.isWave = false) ∧
    (let s := split (wordOf (.join 0 9)); Ready { guard := 0 } s ∧ s.me.isWave = true ∧ s.me.curSlot.depth ≠ 0 ∧
      s.me.otherSlot.live = true ∧ s.me.otherSlot.depth = s.me.curSlot.depth ∧ s.me.otherSlot.waiting = true ∧
      pcAddr s.me.otherSlot.jpc = pcAddr (pcAddr s.me.curSlot.pc + 8 * (9 : BitVec 32).signExtend 64) ∧
      s.me.otherSlot.rstk = s.me.curSlot.rstk ∧ s.me.dsp = 0) ∧
    (let s := withMe (split (wordOf (.join 0 9))) fun c => { c with slots := (c.slots.1, { c.slots.2 with waiting := false }) }
     Ready { guard := 0 } s ∧ s.me.isWave = true ∧ s.me.curSlot.depth ≠ 0 ∧ s.me.otherSlot.live = true ∧
      s.me.otherSlot.depth = s.me.curSlot.depth ∧ s.me.otherSlot.waiting = false) :=
  ⟨⟨ready_of (by decide), reaches_of (by decide), by decide⟩, ⟨ready_of (by decide), by decide⟩,
   ⟨ready_of (by decide), by decide⟩⟩

/-- A thread with a load outstanding, one whose next check is due later, and one with a matrix command open. -/
def loading (w : W64) : State :=
  withMe (held w) fun c => { c with
    pend := [{ tok := 0, writes := [.x 2 9], window := 0, load := true, addr := 0, since := 0, unit := 0 }], tok := 1 }
def polling (w : W64) : State := withMe (held w) fun c => { c with prog := { c.prog with nextCheck := 9 } }
def multiplying (w : W64) : State :=
  let s := held w
  { s with here := { s.here with pair := some { MatPair.fresh with queue := [drainCmd s 3 false false] } } }

theorem test_witness_WaitsAndHints :
    (Ready { guard := 0 } (held (wordOf (.nop 0))) ∧ (held (wordOf (.nop 0))).flows) ∧
    (Ready { guard := 0 } (held (wordOf (.waitb 0 false 0))) ∧ (held (wordOf (.waitb 0 false 0))).flows) ∧
    (let s := held (wordOf (.waitc 0 5)); Ready { guard := 0 } s ∧ s.flows ∧ s.loadsOpen = false ∧ s.matrixOpen = false) ∧
    (let s := loading (wordOf (.waitc 0 4)); Ready { guard := 0 } s ∧ s.loadsOpen = true) ∧
    (let s := multiplying (wordOf (.waitc 0 1)); Ready { guard := 0 } s ∧ s.matrixOpen = true) ∧
    (let s := polling (wordOf (.waitc 0 2)); Ready { guard := 0 } s ∧ s.pollWaits = true) ∧
    (let s := held (wordOf (.yield 0)); Ready { guard := 0 } s ∧ s.reaches s.me.nextHeader) ∧
    (let s := held (wordOf (.park 0 0x0C2 0x0C1))
     let r : Req := { guard := 0, ok := fun s => s.ctlSrcOk 0x0C2 && s.ctlSrcOk 0x0C1, srcs := [0x0C2, 0x0C1] }
     let u : State := { s with me := { s.me with parked := none } }
     Ready r s ∧ Plain r s ∧ s.me.isWave = false ∧ s.parkWakes 2 = true ∧ u.reaches s.me.nextHeader) :=
  ⟨⟨ready_of (by decide), flows_of (by decide)⟩, ⟨ready_of (by decide), flows_of (by decide)⟩,
   ⟨ready_of (by decide), flows_of (by decide), by decide⟩, ⟨ready_of (by decide), by decide⟩,
   ⟨ready_of (by decide), by decide⟩, ⟨ready_of (by decide), by decide⟩, ⟨ready_of (by decide), reaches_of (by decide)⟩,
   ⟨ready_of (by decide), plain_of (by decide), by decide, by decide, reaches_of (by decide)⟩⟩

/-- NOP and YIELD, WAITB with no batch, WAITC with nothing awaited, PARK awake by its batches and LBRK of an active level. -/
theorem test_witness_ControlInstructionsComplete :
    (∀ i ∈ ([.nop 0, .yield 0, .waitb 0 false 0, .waitb 0 true 0, .waitc 0 5] : List Instr), let s := held (wordOf i)
      Ready { guard := 0 } s ∧ s.me.isWave = false ∧ s.flows ∧ s.reaches s.me.nextHeader ∧ s.teamBatches = 0 ∧
        s.here.openBatches s.me = 0 ∧ s.loadsOpen = false ∧ s.matrixOpen = false) ∧
    (let s := kit (wordOf (.waitc 0 2)); Ready { guard := 0 } s ∧ s.flows ∧ s.pollWaits = false ∧ s.messageHere = true) ∧
    (let s := held (wordOf (.park 0 0x0C2 0x0C1))
     let r : Req := { guard := 0, ok := fun s => s.ctlSrcOk 0x0C2 && s.ctlSrcOk 0x0C1, srcs := [0x0C2, 0x0C1] }
     Ready { guard := 0 } s ∧ Ready r s ∧ Plain r s ∧ s.me.parked = none ∧
       s.parkWakes ((s.sval (issOf r s) false 0x0C2).setWidth 4) = true) ∧
    (let s := withMe (held (wordOf (.lbrk 0 true))) fun c => { c with lc := (0, 1) }
     Ready { guard := 0 } s ∧ Ready { guard := 0, form := notInHandler } s ∧ s.me.handler = false ∧ s.me.lc.2 ≠ 0 ∧
       s.reaches s.me.le.2) :=
  ⟨fun i hi => by
    simp only [List.mem_cons, List.not_mem_nil, or_false] at hi
    obtain rfl | rfl | rfl | rfl | rfl := hi <;>
      exact ⟨ready_of (by decide), by decide, flows_of (by decide), reaches_of (by decide), by decide⟩,
   ⟨ready_of (by decide), flows_of (by decide), by decide⟩,
   ⟨ready_of (by decide), ready_of (by decide), plain_of (by decide), by decide⟩,
   ⟨ready_of (by decide), ready_of (by decide), by decide, by decide, reaches_of (by decide)⟩⟩

theorem test_witness_QuitEndsLanesAndContexts :
    (let s := wave (wordOf (.quit 1))
     let u := withMe s fun c => c.modCur fun p => { p with mask := 0xFFF0 }
     Ready { guard := 1 } s ∧ u.flows ∧ s.me.isWave = true ∧ s.me.curSlot.mask &&& ~~~(s.actLanes { guard := 1 }) = 0xFFF0) ∧
    (let s : State := { held (wordOf (.quit 0)) with seat := some (.slot 0) }; Ready { guard := 0 } s ∧ s.seat.isSome = true ∧ s.me.isWave = false) :=
  ⟨⟨ready_of (by decide), flows_of (by decide), by decide⟩, ⟨ready_of (by decide), by decide⟩⟩

/-! Unit instructions, one table each: every instruction that has an effect there. -/

/-- The rig in its handler; the image at row 192 has MODE 100H. -/
def handling (w : W64) : State :=
  let s := rig w
  withMe { s with here := { s.here with rows := [(0x3109, 1)] } } fun c => { c with handler := true, kept := some ⟨0, none, 1, 0, false, mkPc 0x40 1, 0, none, false⟩ }

/-- Instructions of a table that each meet the hypotheses of `Performs` in the state that holds their word. -/
theorem mets {table : Instr → State → Option Effect} {st : W64 → State} {l : List Instr}
    (h : (l.all fun i => isMet table i (st (wordOf i))) = true) : ∀ i ∈ l, Met table i (st (wordOf i)) :=
  fun i hi => met_of (List.all_eq_true.mp h i hi)

theorem test_witness_AccumulatorsModeAndPairedWords :
    (∀ i ∈
     [.kacc 0 2 .prod 4 6, .kclr 10 3, .krnd 10 1 .rtz true true 1, .kstat 10 2 true 1],
      Met arithOps i (rig (wordOf i))) ∧
    (∀ i ∈
     [.rdmode 10 1, .wrmode 10 2 3, .pairI ⟨0, 1, 2, 3, 1⟩ ⟨14, 4, 2, 0, 0⟩, .pairF ⟨32, 5, 2, 3, 4⟩ ⟨41, 6, 3,
      0, 0⟩, .pairIF ⟨14, 4, 2, 0, 0⟩ ⟨32, 5, 2, 3, 4⟩],
      Met arithOps i (held (wordOf i))) :=
  ⟨mets (by decide +kernel), mets (by decide +kernel)⟩

theorem test_witness_LoadsStoresAndAtomics :
    (∀ i ∈
     [.ld ⟨3, 10, 6, 4, 3, 6, 2, 7, 1, 8191⟩, .ldc ⟨3, 10, 6, 4, 3, 6, 2, 7, 1, 8191⟩, .st ⟨0, 10, 6, 4, 4, 3,
      5, 0, 0, 2⟩, .atom ⟨0, 0, 6, 4, 2, 4, 2, 0, 0, 514⟩, .cas ⟨0, 10, 6, 4, 3, 5, 4, 0, 2, 2⟩, .ldlod ⟨2, 10,
      6, 4, 2, 1, 1, 0, 0, 1665⟩, .pref ⟨0, 10, 0, 4, 5, 0, 4, 0, 1, 2⟩, .rbump ⟨1, 0, 6, 5, 3, 3, 4, 0, 0, 0⟩,
      .rsnap ⟨0, 0, 8, 5, 3, 2, 4, 0, 0, 0⟩, .vld ⟨3, 0, 6, 4, 2, 2, 3, 0, 1, 5⟩],
      Met memoryOps i (rig (wordOf i))) ∧
    (∀ i ∈
     [.fence 0 .sc 4, .pfence 0 2],
      Met memoryOps i (held (wordOf i))) ∧
    (∀ i ∈
     [.poll ⟨3, 0, 7, 5, 2, 2, 2, 0, 0, 2⟩, .vst ⟨0, 1, 6, 0x202, 5, 0, 0, 0, 0, 0⟩, .vlds ⟨3, 0, 6, 0x202, 2,
      0, 0, 0, 0, 0⟩, .vsts ⟨0, 1, 6, 0x202, 2, 0, 0, 0, 0, 0⟩, .vatom ⟨3, 1, 6, 4, 2, 4, 2, 0, 0, 513⟩],
      Met memoryOps i (kit (wordOf i))) :=
  ⟨mets (by decide +kernel), mets (by decide +kernel), mets (by decide +kernel)⟩

theorem test_witness_StreamBinding :
    (∀ i ∈
     [.sbind 10 24 2, .scfgUnbind 10 28],
      Met streamOps i (rig (wordOf i))) ∧
    (∀ i ∈
     [.scfgBind 0 28 0x204, .scfgRtag 0 0x202 0x0C1 0x0C1],
      Met streamOps i (kit (wordOf i))) ∧
    (∀ i ∈
     [.sunb 10 24],
      Met streamOps i (held (wordOf i))) :=
  ⟨mets (by decide +kernel), mets (by decide +kernel), mets (by decide +kernel)⟩

theorem test_witness_MatrixUnit :
    (∀ i ∈
     [.mpairLead 0 65 192, .mpairFollow 10 65, .mrel 10, .mstat 10 .pair true 11 0, .mstat 10 .latch false 11
      321, .mstat 10 .ter false 11 3],
      Met matrixOps i (held (wordOf i))) ∧
    (∀ i ∈
     [.mcfg 0 5 true 65 320 0x202, .mma 0 true false false true 10 320 321 192, .mdrain 0 false false false 11
      322 192, .mdrainKacc 0 true false 2 11 6],
      Met matrixOps i (kit (wordOf i))) :=
  ⟨mets (by decide +kernel), mets (by decide +kernel)⟩

theorem test_witness_ShuttleAndSynchronisation :
    (∀ i ∈
     [.cpyw 0 4 true 65 261 0x202, .cpygo 0 1 261, .shkick 0 1 4 6, .bari 0 65 2 6 0x0C0, .barsArrive 0 5 6 2 6,
      .barsWait 0 1 65 2 0x0C1, .barsSync 0 1 65 2, .barw 0 1 2, .ldfe ⟨0, 0, 6, 2, 2, 2, 2, 0, 0, 1⟩, .stfe ⟨0,
      0, 6, 4, 2, 3, 1, 0, 0, 0⟩],
      Met shuttleOps i (kit (wordOf i))) ∧
    (∀ i ∈
     [.seal 10, .cpyq 10 .id 1 2, .cpyx 10 65 2],
      Met shuttleOps i (held (wordOf i))) ∧
    (∀ i ∈
     [.bara 10 2 3, .barsInit 10 2 65 2 3, .feqTest 10 true 65 2, .feqFill 10 false 2, .feqDrain 10 true 2],
      Met shuttleOps i (rig (wordOf i))) :=
  ⟨mets (by decide +kernel), mets (by decide +kernel), mets (by decide +kernel)⟩

theorem test_witness_TasksMessagesAndQueues :
    (∀ i ∈
     [.spawn 10 65 2 3 4, .racfgUnbin 10 65 3, .racfgRoute 10 65 2 3 4, .racfgQuery 10 1 3, .qcfgUnin 10 5 65,
      .qcfgUnout 10 5 65, .qcfgUnrx 10 65, .amsg 10 65 2 3 4],
      Met networkOps i (held (wordOf i))) ∧
    (∀ i ∈
     [.spawnLaunch 0 66 5 6 6, .msend 0 true 3 65 0x0C0 4 6, .mrecv 3 0 true 2 1 2, .ksend 0 false 4 false 65 2
      6 0x0C1, .racfgBin 0 65 2 3 0x080],
      Met networkOps i (kit (wordOf i))) ∧
    (∀ i ∈
     [.qcfgIn 10 true 5 65 2 3 4, .qcfgOut 10 false 5 65 2 3, .qcfgRx 10 65 2 3, .callat 10 65 2 3 4, .retm 10
      true 65 2 3],
      Met networkOps i (rig (wordOf i))) :=
  ⟨mets (by decide +kernel), mets (by decide +kernel), mets (by decide +kernel)⟩

theorem test_witness_RaysAndTreelets :
    (∀ i ∈
     [.rpop 3 10 false true true 1 2, .rpopClaim 3 10 true 1 128, .rpopRelease 3 10 false 1 128, .hsend 10 1 2,
      .xtri 3 10 1 2 3, .tmapMap 10 1 2, .tmapUnmap 10 1 2, .tlpin 10 1 2, .tlrepWithdraw 10 1 2],
      Met raysOps i (rig (wordOf i))) ∧
    (∀ i ∈
     [.rsend 0 false 1 2, .xnode 3 0 1 2 5, .tlrepOffer 0 1 2 6 5],
      Met raysOps i (kit (wordOf i))) :=
  ⟨mets (by decide +kernel), mets (by decide +kernel)⟩

theorem test_witness_RasterAndHoopWindow :
    (∀ i ∈
     [.xtile 10 1 2 3, .hoopwClaim 10 1, .hoopwRelease 10 1, .hoopwState 10 1 0x080, .hoopwAdd 10 1 2,
      .hoopwClear 10 1, .hoopr 10 1 2 3],
      Met rasterOps i (rig (wordOf i))) :=
  mets (by decide +kernel)

theorem test_witness_SystemAndDebugGroups :
    (∀ i ∈
     [.mfs 0 0 5 28, .mts 0 0 5 28, .cctlWrite 10 2, .bfmtWrite 10 5 2, .pgselWrite 10 7 2, .clAmodeWrite 10 2,
      .tierWmWrite 10 2 2, .clOvfWrite 10 2, .clOvfsRead 10 1, .segw 10 5 2 3, .segr 10 5 true 1, .pgmapMap 10 1
      2 3 4, .pgmapUnmap 10 1 2 3 4, .pgmapPin 10 1 2 3 4, .pgmapUnpin 10 1 2 3 4, .pgmapDemote 10 1 2 3 4,
      .tlbi 10 2 4 2 3, .icinv 10 5 true 0 0, .ldphy 10 5 3 1 2 8, .stphy 10 1 2 1 2 8, .cntr 0 false 9 200,
      .cntctlSel 0 194 197, .cntctlEn 10 2, .cntctlClr 10 2, .cntctlUclr 10 2, .mark 0 197],
      Met systemOps i (held (wordOf i))) ∧
    (∀ i ∈
     [.ctxsv 0 2, .ctxld 0 2],
      Met systemOps i (handling (wordOf i))) :=
  ⟨mets (by decide +kernel), mets (by decide +kernel)⟩

/-- Operands that pop a queue meet the hypotheses of `PerformsAny`: a WRCCTL of a popped value, and a WRMODE of one. -/
def AnyMet (table : Instr → State → Option Effect) (i : Instr) (s : State) : Prop :=
  ∃ e u v, table i s = some e ∧ Ready e.req s ∧ s.me.watchMatch (s.streamTouches (issOf e.req s) e.req.dsts) = none ∧
    (∀ d ∈ e.req.dsts, Does (pushChecks (issOf e.req s) d) s () s) ∧ Does (popSources (issOf e.req s)) s () u ∧ e.asks u (issOf e.req s) = true ∧
    Does ((e.puts u (issOf e.req s)).forM (Put.perform (issOf e.req s))) (e.change u (issOf e.req s)) () v

theorem test_witness_UnitQueueAndStreamForms :
    AnyMet systemOps (.cctlWrite 0 0x081) (queued (wordOf (.cctlWrite 0 0x081))) ∧
    AnyMet arithOps (.wrmode 0 0x081 3) (queued (wordOf (.wrmode 0 0x081 3))) :=
  ⟨⟨_, _, _, rfl, ready_of (by decide), rfl, nofun, does_of (by decide), by decide, does_of (by decide)⟩,
   ⟨_, _, _, rfl, ready_of (by decide), rfl, nofun, does_of (by decide), by decide, does_of (by decide)⟩⟩

/-! Checks, interlocks and traps. -/

/-- The core with a handler. -/
def handled (s : State) : State := { s with here := { s.here with tvec := 0x8000000000000040 } }

/-- An ADD in a clause with a destination that no operand is, and a TRAP in a clause of class U. -/
theorem test_witness_ChecksTakeTheirTrap :
    (∃ r t, let s := held (wordOf (.add 0 .s32 0x0C1 2 3))
      reqOf (.add 0 .s32 0x0C1 2 3) s = some r ∧ s.unhindered ∧ s.checkTrap r = some t ∧ t.cause = 2) ∧
    (∃ r t, let s := held 0
      reqOf (.trap 0 7) s = some r ∧ s.unhindered ∧ s.checkTrap r = some t ∧ t.cause = 1) :=
  ⟨⟨_, _, rfl, rfl, rfl, rfl⟩, ⟨_, _, rfl, rfl, rfl, rfl⟩⟩

theorem test_witness_GuardFalseIsNoOp :
    let i : Instr := .add 1 .s32 1 2 3
    let s := held (wordOf i)
    (∃ r, reqOf i s = some r ∧ s.flows ∧
      (s.me.breakMatch = none ∧ strictPair i s = false ∧ s.checkTrap r = none ∧ s.metBy r.guardRegs = [] ∧
        s.uniOwed r.guardRegs = false ∧ s.actLanes r = 0 ∧ s.me.grant = false)) ∧
    (let j : Instr := .vfadd 1 .rne .f32 1 2 3
     let s := held (wordOf j)
     ∃ r, reqOf j s = some r ∧ s.flows ∧
      (s.checkTrap r = none ∧ s.metBy r.guardRegs = [] ∧ r.counted = true ∧ s.here.nv + s.here.nm < 320 ∧ s.actLanes r = 0)) :=
  ⟨⟨_, rfl, flows_of (by decide), by decide⟩, ⟨_, rfl, flows_of (by decide), by decide⟩⟩

/-- A thread with a load of x2 outstanding, its window as given, STRICT as given. -/
def owing (window : Nat) (mode : BitVec 32) (w : W64) : State :=
  withMe (held w) fun c => { c with mode := mode, pend := [{ tok := 0, writes := [.x 2 9], window := window, load := true, addr := 0, since := 0, unit := 0 }], tok := 1 }

theorem test_witness_OutstandingResultsInterlock :
    let i : Instr := .add 0 .s32 1 2 3
    (∃ r, let s := owing 1 0x2100 (wordOf i)
      reqOf i s = some r ∧ s.unhindered ∧ s.checkTrap r = none ∧ s.actLanes r ≠ 0 ∧ s.met r ≠ [] ∧
      ((s.met r).any fun q => decide (0 < q.window)) = true ∧ s.me.mode.getLsbD 13 = true) ∧
    (∃ r, let s := owing 1 0x100 (wordOf i)
      reqOf i s = some r ∧ s.unhindered ∧ s.checkTrap r = none ∧ s.actLanes r ≠ 0 ∧ s.met r ≠ [] ∧
      s.me.mode.getLsbD 13 = false) ∧
    (∃ r, let s := owing 0 0x2100 (wordOf i)
      reqOf i s = some r ∧ s.unhindered ∧ s.checkTrap r = none ∧ s.actLanes r ≠ 0 ∧ s.met r ≠ [] ∧
      ((s.met r).any fun q => decide (0 < q.window)) = false) ∧
    (let j : Instr := .add 1 .s32 1 2 3
     ∃ r, let s := withMe (held (wordOf j)) fun c => { c with
       pend := [{ tok := 0, writes := [.p 1 1 1], window := 1, load := false, addr := 0, since := 0, unit := 1 }], tok := 1 }
      reqOf j s = some r ∧ s.unhindered ∧ s.checkTrap r = none ∧ s.met r ≠ [] ∧ s.metBy r.guardRegs ≠ [] ∧
      s.actLanes r = 0) ∧
    (∃ r, let u := rig (wordOf (.add 0 .s32 1 512 3))
      let s : State := { u with seat := some (.slot 0), here := { u.here with uniDue := [⟨9, 2, 0, 5, some (.slot 0)⟩] } }
      reqOf (.add 0 .s32 1 512 3) s = some r ∧ s.unhindered ∧ s.checkTrap r = none ∧ s.met r = [] ∧
      s.uniOwed (r.allRegs s.me.isWave) = true ∧ s.actLanes r ≠ 0) :=
  ⟨⟨_, rfl, rfl, by decide⟩, ⟨_, rfl, rfl, by decide⟩, ⟨_, rfl, rfl, by decide⟩, ⟨_, rfl, rfl, by decide⟩,
   ⟨_, rfl, rfl, by decide⟩⟩

/-- A pair whose second half reads the first one's destination. -/
theorem test_witness_PairedHalvesThatMeetTrapUnderStrict :
    let i : Instr := .pairI ⟨0, 1, 2, 3, 0⟩ ⟨0x0E, 4, 1, 0, 0⟩
    ∃ r, let s := withMe (held (wordOf i)) fun c => { c with mode := 0x2100 }
      reqOf i s = some r ∧ s.unhindered ∧ s.checkTrap r = none ∧ strictPair i s = true :=
  ⟨_, rfl, rfl, by decide⟩

theorem test_witness_PowerCapHoldsVectorIssues :
    let i : Instr := .vfadd 0 .rne .f32 1 2 3
    ∃ r, let s := { held (wordOf i) with here := { (held 0).here with nv := 320 } }
      reqOf i s = some r ∧ s.unhindered ∧ strictPair i s = false ∧ s.checkTrap r = none ∧ s.actLanes r ≠ 0 ∧ s.met r = [] ∧
      s.uniOwed (r.allRegs s.me.isWave) = false ∧ r.counted = true ∧ 320 ≤ s.here.nv + s.here.nm :=
  ⟨_, rfl, rfl, by decide⟩

theorem test_witness_TrapEntry :
    ((withMe (held 0) fun c => { c with handler := true }).me.handler = true ∧ (held 0).me.cur ≤ 1) ∧
    ((held 0).me.handler = false ∧ (held 0).here.tvec.getLsbD 63 = false) ∧
    ((handled (held 0)).settled ∧ ¬ (owing 0 0x100 0).settled) ∧
    ((handled (held 0)).vectored ∧ (handled (held 0)).me.stepping = none ∧ (handled (held 0)).me.halted = none) :=
  ⟨by decide, by decide, ⟨⟨rfl, rfl⟩, nofun⟩, ⟨by decide, by decide⟩, by decide⟩

theorem test_witness_TrapCauseWord :
    (held 0).me.cur ≤ 1 ∧ (held 0).me.curSlot.rstk.length ≤ 8 ∧ (held 0).me.curSlot.buf.isSome = true ∧
    (withMe (held 0) fun c => { c.modCur (fun p => { p with rstk := List.replicate 8 0 }) with cur := 0 }).me.curSlot.rstk.length ≤ 8 := by
  decide

theorem test_witness_Breakpoint :
    let r : Req := { guard := 0, cls := some 7 }
    let s := held (wordOf (.bkpt 0 7))
    (Ready r (withMe s fun c => { c with bkhalt := true })) ∧
    (Ready r (withMe s fun c => { c with handler := true }) ∧ (withMe s fun c => { c with handler := true }).flows) ∧
    (Ready r s ∧ s.me.bkhalt = false ∧ s.me.handler = false) ∧
    ((held 0).unhindered ∧ (held 0).me.curSlot.cls ≠ 7) ∧
    (({ s with seat := some (.slot 0) } : State).seat = some (.slot 0) ∧ s.me.halted = none) ∧ (handled s).vectored :=
  ⟨ready_of (by decide), ⟨ready_of (by decide), flows_of (by decide)⟩, ⟨ready_of (by decide), by decide⟩, ⟨rfl, by decide⟩,
   ⟨rfl, rfl⟩, ⟨rfl, rfl⟩⟩

theorem test_witness_TrapInstruction :
    (let s := withMe (handled (held (wordOf (.trap 0 7)))) fun c => { c with sup := false }
     s.unhindered ∧ s.settled ∧ s.vectored ∧ s.me.curSlot.cls = 6 ∧ s.me.supervisor = false) ∧
    (let s := handled (held (wordOf (.trap 0 7))); Ready (trapReq 0 7) s ∧ s.settled ∧ s.vectored) ∧
    (1 : BitVec 12) ≠ 0 :=
  ⟨⟨rfl, ⟨rfl, rfl⟩, ⟨rfl, rfl⟩, by decide⟩, ⟨ready_of (by decide), ⟨rfl, rfl⟩, ⟨rfl, rfl⟩⟩, by decide⟩

/-- A thread in its handler, trapped at index `n` of the clause at 0x40, with the word of its cause. -/
def trapped (n : Nat) (tcause : W64) (w : W64) : State :=
  withMe (held w) fun c => { c with
    handler := true, tpc0 := mkPc 0x40 n, tcause := tcause,
    kept := some ⟨0, none, 1, 0, false, mkPc 0x40 1, 0, none, false⟩ }

theorem test_witness_TrapReturn :
    let r := sysReq 0 [] [] false
    (let s := trapped 0 16 (wordOf (.tretRetry 0)); Ready r s ∧ s.me.handler = true ∧ s.me.pend = [] ∧
      s.me.kept = some ⟨0, none, 1, 0, false, mkPc 0x40 1, 0, none, false⟩) ∧
    (let s := trapped 2 0x18000010 (wordOf (.tretSkip 0)); Ready r s ∧ s.me.tcause.getLsbD 31 = false ∧
      pcIndex s.me.tpc0 < field s.me.tcause 27 4) ∧
    (let s := trapped 0 0x80000010 (wordOf (.tretSkip 0)); Ready r s ∧ s.me.tcause.getLsbD 31 = true) ∧
    Ready r (trapped 0 16 (wordOf (.tretKill 0))) :=
  ⟨⟨ready_of (by decide), by decide⟩, ⟨ready_of (by decide), by decide⟩, ⟨ready_of (by decide), by decide⟩, ready_of (by decide)⟩

/-! Accesses. -/

/-- A store, a load, an atomic and a compare of aperture addresses; 16 bytes and 8. -/
theorem test_witness_ScratchpadAccesses :
    (let m : MemF := ⟨0, 0, 6, 4, 4, 0, 0, 0, 0, 0⟩
     let s := rig (wordOf (.st m)); RowAccess m (stReq m s) .store (s.addrOf (stReq m s) m false) s 0 0x3000) ∧
    (let m : MemF := ⟨3, 0, 6, 4, 4, 0, 0, 0, 0, 0⟩
     let s := rig (wordOf (.ld m)); RowAccess m (ldReq m s) .load (s.addrOf (ldReq m s) m false) s 0 0x3000) ∧
    (let m : MemF := ⟨3, 0, 3, 4, 3, 1, 2, 0, 0, 0x201⟩
     let s := rig (wordOf (.atom m)); RowAccess m (atomReq m s) .rmw (s.addrOf (atomReq m s) m true) s 0 0x3008) ∧
    (let m : MemF := ⟨3, 0, 6, 4, 3, 1, 2, 0, 0, 1⟩
     let s := rig (wordOf (.cas m)); RowAccess m (casReq m s) .rmw (s.addrOf (casReq m s) m false) s 0 0x3008) :=
  ⟨⟨⟨ready_of (by decide), plain_of (by decide), flows_of (by decide), rfl, by decide, rfl⟩, rfl, by decide, by decide⟩,
   ⟨⟨ready_of (by decide), plain_of (by decide), flows_of (by decide), rfl, by decide, rfl⟩, rfl, by decide, by decide⟩,
   ⟨⟨ready_of (by decide), plain_of (by decide), flows_of (by decide), rfl, by decide, rfl⟩, rfl, by decide, by decide⟩,
   ⟨⟨ready_of (by decide), plain_of (by decide), flows_of (by decide), rfl, by decide, rfl⟩, rfl, by decide, by decide⟩⟩

theorem record_of {s : State} {pa : Nat}
    (h : ∀ k, k < 16 → s.forwarded (recordAddr (frameOf pa).1 (frameOf pa).2 + k) = none) :
    ∀ b, heatByte pa b → s.forwarded b = none := by
  rintro b ⟨-, h1, h2⟩
  have := h (b - recordAddr (frameOf pa).1 (frameOf pa).2) (by omega)
  rwa [Nat.add_sub_cancel' h1] at this

/-- The same of byte 0x1000 and on of the page that the TLB holds. -/
theorem test_witness_GlobalAccesses :
    (let m : MemF := ⟨0, 0, 6, 5, 4, 0, 0, 0, 0, 0⟩
     let s := rig (wordOf (.st m)); GlobalAccess m (stReq m s) .store (s.addrOf (stReq m s) m false) s 0x1000 page0) ∧
    (let m : MemF := ⟨3, 0, 6, 5, 4, 0, 0, 0, 0, 0⟩
     let s := rig (wordOf (.ld m)); GlobalAccess m (ldReq m s) .load (s.addrOf (ldReq m s) m false) s 0x1000 page0 ∧
      ∀ line ∈ linesOf (tlbAddr page0 0x1000) 16, s.pathAnswer (viaOf .ls m) line = none) ∧
    (let m : MemF := ⟨3, 0, 3, 5, 3, 1, 2, 0, 0, 0x201⟩
     let s := rig (wordOf (.atom m)); GlobalAccess m (atomReq m s) .rmw (s.addrOf (atomReq m s) m true) s 0x1008 page0) ∧
    (let m : MemF := ⟨3, 0, 6, 5, 3, 1, 2, 0, 0, 1⟩
     let s := rig (wordOf (.cas m)); GlobalAccess m (casReq m s) .rmw (s.addrOf (casReq m s) m false) s 0x1008 page0) :=
  ⟨⟨⟨ready_of (by decide), plain_of (by decide), flows_of (by decide), rfl, by decide, rfl⟩, rfl, by decide, by decide, by decide,
     by unfold heatByte; decide, record_of (by decide), by decide, by decide⟩,
   ⟨⟨⟨ready_of (by decide), plain_of (by decide), flows_of (by decide), rfl, by decide, rfl⟩, rfl, by decide, by decide, by decide,
     by unfold heatByte; decide, record_of (by decide), by decide, by decide⟩, by decide⟩,
   ⟨⟨ready_of (by decide), plain_of (by decide), flows_of (by decide), rfl, by decide, rfl⟩, rfl, by decide, by decide, by decide,
     by unfold heatByte; decide, record_of (by decide), by decide, by decide⟩,
   ⟨⟨ready_of (by decide), plain_of (by decide), flows_of (by decide), rfl, by decide, rfl⟩, rfl, by decide, by decide, by decide,
     by unfold heatByte; decide, record_of (by decide), by decide, by decide⟩⟩

/-- A load through a segment register that is not valid, and a load of a page without RD. -/
theorem test_witness_AccessChecks :
    (let m : MemF := ⟨3, 0, 6, 3, 2, 0, 0, 0, 0, 0⟩
     let s := withMe (rig (wordOf (.ld m))) fun c => { c with g := [] }
     Accesses m (ldReq m s) .load (s.addrOf (ldReq m s) m false) s ∧
      s.precheck (s.addrOf (ldReq m s) m false) 4 .load = .error (1, { cause := 9, addr := 1 })) ∧
    (let m : MemF := ⟨3, 0, 6, 5, 2, 0, 0, 0, 0, 0⟩
     let s : State := { rig (wordOf (.ld m)) with
       clusters := [(0, { Cluster.reset with split := false, tlb := [{ page0 with rd := false }] })] }
     Accesses m (ldReq m s) .load (s.addrOf (ldReq m s) m false) s ∧
      s.precheck (s.addrOf (ldReq m s) m false) 4 .load = .ok (.glob 0x1000) ∧
      ∃ d, s.gives (translateMine 0x1000 .read) = some (.page d)) :=
  ⟨⟨⟨ready_of (by decide), plain_of (by decide), flows_of (by decide), rfl, by decide, rfl⟩, rfl⟩,
   ⟨ready_of (by decide), plain_of (by decide), flows_of (by decide), rfl, by decide, rfl⟩, rfl, _, rfl⟩

/-! Events. -/

/-- The header of a good flit for core 0. -/
def hdr : Hdr := ⟨5, 0, 0, true, false⟩

/-- A thread that waits at a header, and one whose timer has run out. -/
def atHeader : State := withMe (held 0) fun c => c.modCur fun p => { p with buf := some { oneWord 0 with ready := false } }
def timed : State :=
  let s := rig 0
  { s with seat := some (.slot 0), clk := 5, here := { s.here with tcmp := 1, itgt := 0x20, tvec := 0x8000000000000040 } }

theorem test_witness_ClauseAndContextEvents :
    Occurs issueEvents (.powerWindow 0) State.reset ∧
    Occurs issueEvents (.loadResult ⟨0, .slot 0⟩ 0) State.reset ∧
    Occurs issueEvents (.headerWait) atHeader ∧
    Occurs issueEvents (.interrupt 0) timed ∧
    Occurs issueEvents (.promotion 0) State.reset ∧
    Occurs issueEvents (.swapOut 0 0) State.reset ∧
    Occurs issueEvents (.trapEntry ⟨0, .slot 0⟩) State.reset :=
  ⟨⟨_, rfl, by decide⟩, ⟨_, rfl, by decide⟩, ⟨_, rfl, by decide⟩, ⟨_, rfl, by decide⟩, ⟨_, rfl, by decide⟩, ⟨_, rfl, by decide⟩, ⟨_, rfl, by decide⟩⟩

theorem test_witness_TransferEvents :
    Occurs transferEvents (.ack hdr 0 0 0 64 .done) State.reset ∧
    Occurs transferEvents (.transferStart 0 0) State.reset ∧
    Occurs transferEvents (.kBlockStep 0) State.reset ∧
    Occurs transferEvents (.drainComplete 0) State.reset ∧
    Occurs transferEvents (.copy hdr ⟨0, 0, 0, [1], 0x3000, 1, false, 0, 0, 0, 0⟩) (rig 0) ∧
    Occurs transferEvents (.red hdr ⟨0, 0, 0, [1], 0, 0x3000, false, 1, 0, 0, 0⟩) (rig 0) ∧
    Occurs transferEvents (.hoopUrgent 0) State.reset :=
  ⟨⟨_, rfl, by decide⟩, ⟨_, rfl, by decide⟩, ⟨_, rfl, by decide⟩, ⟨_, rfl, by decide⟩, ⟨_, rfl, by decide⟩, ⟨_, rfl, by decide⟩, ⟨_, rfl, by decide⟩⟩

theorem test_witness_FlitAndWaitEvents :
    Occurs creditEvents (.credit hdr 1 3) State.reset ∧
    Occurs creditEvents (.waiterRetry ⟨0, .slot 0⟩) State.reset ∧
    Occurs creditEvents (.parkLimitExpiry ⟨0, .slot 0⟩) State.reset ∧
    Occurs creditEvents (.lookupRetry ⟨0, .slot 0⟩) State.reset ∧
    Occurs recoveryEvents (.reinject 0 0) State.reset ∧
    Occurs recoveryEvents (.nack hdr .qdata 0) State.reset ∧
    Occurs recoveryEvents (.recoveryExpiry 0 0 0) State.reset ∧
    Occurs recoveryEvents (.flitHoldExpiry 0 0) State.reset ∧
    Occurs recoveryEvents (.selvedgeReplay 0 .qdata hdr 0) State.reset :=
  ⟨⟨_, rfl, by decide⟩, ⟨_, rfl, by decide⟩, ⟨_, rfl, by decide⟩, ⟨_, rfl, by decide⟩, ⟨_, rfl, by decide⟩, ⟨_, rfl, by decide⟩, ⟨_, rfl, by decide⟩, ⟨_, rfl, by decide⟩, ⟨_, rfl, by decide⟩⟩

theorem test_witness_TreeletEvents :
    Occurs treeletEvents (.directoryLookup 0 0 5 ⟨0, .slot 0⟩) State.reset ∧
    Occurs treeletEvents (.treeletPageIn 0 0 5) State.reset ∧
    Occurs treeletEvents (.heatReport 0) State.reset ∧
    Occurs treeletEvents (.heatReportArrival 0 0 5 7) State.reset ∧
    Occurs treeletEvents (.routeCacheExpiry 0 0 5) State.reset :=
  ⟨⟨_, rfl, by decide⟩, ⟨_, rfl, by decide⟩, ⟨_, rfl, by decide⟩, ⟨_, rfl, by decide⟩, ⟨_, rfl, by decide⟩⟩

theorem test_witness_HomeAndPrickEvents :
    Occurs homeEvents (.mresp hdr ⟨0, .slot 0⟩ 0 []) State.reset ∧
    Occurs homeEvents (.mreq hdr ⟨0x1000, .read 8, ⟨0, .slot 0⟩, 0⟩) (rig 0) ∧
    Occurs homeEvents (.forwardedAccess 0 ⟨0x1000, .read 8, ⟨0, .slot 0⟩, 0⟩) (rig 0) ∧
    Occurs homeEvents (.roundNotice 0 0x1000 7) State.reset ∧
    Occurs homeEvents (.unprickOwner 0 0) State.reset ∧
    Occurs homeEvents (.refresh 0 0) State.reset ∧
    Occurs homeEvents (.prickOwner 0 ⟨0x1000, 1, 200, 1, 1, 0⟩) (rig 0) ∧
    Occurs homeEvents (.prickReplica 0 ⟨0x1000, 1, 200, 1, 1, 0x2000⟩) (rig 0) ∧
    Occurs homeEvents (.walkComplete 0 ⟨0, 0, 0, 0x1000, false⟩) State.reset ∧
    Occurs homeEvents (.missQueueRetry 0 ⟨0, 0, 0, 0x1000, false⟩) State.reset :=
  ⟨⟨_, rfl, by decide⟩, ⟨_, rfl, by decide⟩, ⟨_, rfl, by decide⟩, ⟨_, rfl, by decide⟩, ⟨_, rfl, by decide⟩, ⟨_, rfl, by decide⟩, ⟨_, rfl, by decide⟩, ⟨_, rfl, by decide⟩, ⟨_, rfl, by decide⟩, ⟨_, rfl, by decide⟩⟩

theorem test_witness_ResidencyEvents :
    Occurs residencyEvents (.demotion 0) State.reset ∧
    Occurs residencyEvents (.drain 0 false) State.reset ∧
    Occurs residencyEvents (.tier1Demotion 0 0 false) State.reset ∧
    Occurs residencyEvents (.tierExhaustedRetry 0 0) State.reset ∧
    Occurs residencyEvents (.frameStarvationTimeout (.ctx ⟨0, .slot 0⟩)) State.reset ∧
    Occurs residencyEvents (.heatHalving 0) State.reset ∧
    Occurs residencyEvents (.picotFilterExpiry 0 0) State.reset ∧
    Occurs residencyEvents (.fill ⟨0, 0, 0x1000, false, .nobody, 0, false, 0, 0⟩) State.reset ∧
    Occurs residencyEvents (.firstTouch ⟨0, 0, 0x1000, false, .nobody, 0, false, 0, 0⟩) State.reset :=
  ⟨⟨_, rfl, by decide⟩, ⟨_, rfl, by decide⟩, ⟨_, rfl, by decide⟩, ⟨_, rfl, by decide⟩, ⟨_, rfl, by decide⟩, ⟨_, rfl, by decide⟩, ⟨_, rfl, by decide⟩, ⟨_, rfl, by decide⟩, ⟨_, rfl, by decide⟩⟩

theorem test_witness_CommandFlitsAndMeasurementEvents :
    Occurs measureEvents (.ctrl 0 ⟨hdr, 0, ⟨true, 1, ⟨0, .slot 0⟩⟩, []⟩) State.reset ∧
    Occurs measureEvents (.stepLimitExpiry ⟨0, .slot 0⟩) State.reset ∧
    Occurs measureEvents (.launchRecordArm 0 0) State.reset ∧
    Occurs measureEvents (.linkGridSnapshot 0) State.reset :=
  ⟨⟨_, rfl, by decide⟩, ⟨_, rfl, by decide⟩, ⟨_, rfl, by decide⟩, ⟨_, rfl, by decide⟩⟩

theorem test_witness_TeamEvents :
    Occurs teamEvents (.epoch) State.reset ∧
    Occurs teamEvents (.placement 0) State.reset ∧
    Occurs teamEvents (.teamStart 0 1) State.reset ∧
    Occurs teamEvents (.exit 0 1) State.reset ∧
    Occurs teamEvents (.childCompletion 0 1) State.reset ∧
    Occurs teamEvents (.preemption 0 1 false) State.reset ∧
    Occurs teamEvents (.resumption 0 1) State.reset :=
  ⟨⟨_, rfl, by decide⟩, ⟨_, rfl, by decide⟩, ⟨_, rfl, by decide⟩, ⟨_, rfl, by decide⟩, ⟨_, rfl, by decide⟩, ⟨_, rfl, by decide⟩, ⟨_, rfl, by decide⟩⟩

theorem test_witness_ManagementEvents :
    Occurs managementEvents (.powerReqRun) State.reset ∧
    Occurs managementEvents (.powerReqRetention) State.reset ∧
    Occurs managementEvents (.powerReqOff) State.reset ∧
    Occurs managementEvents (.powerStateReached) State.reset ∧
    Occurs managementEvents (.powerLoss false) State.reset ∧
    Occurs managementEvents (.idleGate 0) State.reset ∧
    Occurs managementEvents (.retire 0) State.reset ∧
    Occurs managementEvents (.retireUndo 0) State.reset ∧
    Occurs managementEvents (.unitFailure 0 false) State.reset ∧
    Occurs managementEvents (.lifecycleAdvance 2) State.reset ∧
    Occurs managementEvents (.tokenNonce []) State.reset ∧
    Occurs managementEvents (.tokenSubmit true true true) State.reset ∧
    Occurs managementEvents (.tokenRevoke) State.reset ∧
    Occurs managementEvents (.tokenExpiry) State.reset ∧
    Occurs managementEvents (.fwBegin 0 64) State.reset ∧
    Occurs managementEvents (.fwChunk 0 64) State.reset ∧
    Occurs managementEvents (.fwCommit .ok true) State.reset ∧
    Occurs managementEvents (.fwAbort) State.reset ∧
    Occurs managementEvents (.fwctlComplete) State.reset ∧
    Occurs managementEvents (.attestationRequest [] []) State.reset :=
  ⟨⟨_, rfl, by decide⟩, ⟨_, rfl, by decide⟩, ⟨_, rfl, by decide⟩, ⟨_, rfl, by decide⟩, ⟨_, rfl, by decide⟩, ⟨_, rfl, by decide⟩, ⟨_, rfl, by decide⟩, ⟨_, rfl, by decide⟩, ⟨_, rfl, by decide⟩, ⟨_, rfl, by decide⟩, ⟨_, rfl, by decide⟩, ⟨_, rfl, by decide⟩, ⟨_, rfl, by decide⟩, ⟨_, rfl, by decide⟩, ⟨_, rfl, by decide⟩, ⟨_, rfl, by decide⟩, ⟨_, rfl, by decide⟩, ⟨_, rfl, by decide⟩, ⟨_, rfl, by decide⟩, ⟨_, rfl, by decide⟩⟩

theorem test_witness_HostLinkEvents :
    Occurs linkEvents (.hostActiveMessage 0 0x1000 1 2) State.reset ∧
    Occurs linkEvents (.directoryWindowRead) State.reset ∧
    Occurs linkEvents (.registerWrite true 0 5) State.reset ∧
    Occurs linkEvents (.patrolScrub [(0, false)]) State.reset ∧
    Occurs linkEvents (.rowScrub 0 200 (some true)) State.reset ∧
    Occurs linkEvents (.bringUp none ⟨[], 1⟩) State.reset ∧
    Occurs linkEvents (.task { hdr with dst := hostId } ⟨0, 1, 2, 0, 0, 1⟩) State.reset ∧
    Occurs linkEvents (.hostMessageRing ⟨0, 1, 2, 0, 0, 1⟩) State.reset :=
  ⟨⟨_, rfl, by decide⟩, ⟨_, rfl, by decide⟩, ⟨_, rfl, by decide⟩, ⟨_, rfl, by decide⟩, ⟨_, rfl, by decide⟩, ⟨_, rfl, by decide⟩, ⟨_, rfl, by decide⟩, ⟨_, rfl, by decide⟩⟩

theorem test_witness_RetriesRunTheirInstructionAgain :
    let j : Instr := .rpop 0 0 false false false 1 2
    let s : State := { rig (wordOf j) with seat := some (.slot 0) }
    retryOf (.gatherTimeout ⟨0, .slot 0⟩) s = some (⟨0, .slot 0⟩, 0, .word j) ∧ Met raysOps j (s.atSlot ⟨0, .slot 0⟩ 0) ∧
    (let t : State := { kit (wordOf (.waitc 0 2)) with seat := some (.slot 0) }
     let u := t.atSlot ⟨0, .slot 0⟩ 0
     retryOf (.pollRetry ⟨0, .slot 0⟩) t = some (⟨0, .slot 0⟩, 0, .word (.waitc 0 2)) ∧ Ready { guard := 0 } u ∧ u.flows ∧
       u.pollWaits = false ∧ u.messageHere = true) ∧
    (let t : State := { atHeader with seat := some (.slot 0) }
     retryOf (.pollRetry ⟨0, .slot 0⟩) t = some (⟨0, .slot 0⟩, 0, .header) ∧
       Occurs issueEvents .headerWait (t.atSlot ⟨0, .slot 0⟩ 0)) :=
  ⟨rfl, met_of (by decide), ⟨rfl, ready_of (by decide), flows_of (by decide), by decide⟩, rfl, _, rfl, by decide⟩

theorem test_witness_ArrivalsAreDeliveredParkedOrLate :
    ∃ a, arrivingOf (.qdata hdr 5 2 false [1]) = some a ∧ (rig 0).takes a.hdr a.ev = true ∧ a.hdr.dst ≠ hostId :=
  ⟨_, rfl, by decide⟩

theorem test_witness_DebugCommands : ∃ d, dbgOf (.halt ⟨true, 1, ⟨0, .slot 0⟩⟩ .context) = some d := ⟨_, rfl⟩

theorem test_witness_RegionCommands : ∃ d, regionOf (.regionPrio .host 0x1000 3 0) = some d := ⟨_, rfl⟩

/-- A clause of one word, at 0x3000 of the core's rows and at 0 of memory. -/
def clause0 : List Byte := natToBytes 8 (bareHeader 0).toNat ++ natToBytes 8 0x2E00000000000000
def words0 (k : Nat) : W64 := if k = 0 then bareHeader 0 else 0x2E00000000000000

theorem test_witness_ClauseFetchReadsTheClause :
    (let s : State := withMe { held 0 with here := { (held 0).here with rows := Store.putBytes [] 0x3000 clause0 } }
       fun c => c.modCur fun p => { p with pc := mkPc 0x3000 0 }
     s.me.acceptsHeader (words0 0) = true ∧ s.unified = false ∧
      ∀ k ≤ headerCount (words0 0) + 1,
        words0 k = BitVec.ofNat 64 (bytesToNat (s.rowBytes s.hereId (s.me.clauseAt + 8 * k) 8)) ∧
        s.me.clauseAt + 8 * k + 8 ≤ 0x18000 ∧ Place1.poisoned s (.row s.hereId (s.me.clauseAt + 8 * k) 8) = false) ∧
    (let s : State := { rig 0 with mem := Store.putBytes [] 0 clause0 }
     let pa (k : Nat) : Nat := tlbAddr page0 (s.me.clauseAt + 8 * k)
     s.me.acceptsHeader (words0 0) = true ∧ s.unified = true ∧
      ∀ k ≤ headerCount (words0 0) + 1, FetchesAt s page0 (s.me.clauseAt + 8 * k) ∧
        words0 k = BitVec.ofNat 64 (s.pocN (pa k) 8) ∧
        ∀ l ≤ headerCount (words0 0) + 1, ∀ j < 8, ¬ heatByte (pa l) (pa k + j)) := by
  refine ⟨by decide, by decide, by decide, fun k hk => ?_⟩
  have h : k ≤ 1 := hk
  unfold heatByte
  match k, h with
  | 0, _ => exact ⟨⟨by decide, by decide, by decide, rfl, by decide, record_of (by decide), by decide, by decide⟩, by decide, by decide⟩
  | 1, _ => exact ⟨⟨by decide, by decide, by decide, rfl, by decide, record_of (by decide), by decide, by decide⟩, by decide, by decide⟩

/-- CLAUSE_FETCH meets the condition of its table. -/
theorem test_witness_ClauseFetchEvent :
    Occurs issueEvents .clauseFetch (withMe { held 0 with
        here := { (held 0).here with rows := Store.putBytes [] 0x3000 clause0 } }
      fun c => c.modCur fun p => { p with pc := mkPc 0x3000 0, buf := none }) :=
  ⟨_, rfl, by decide⟩

/-! The machine. -/

theorem test_witness_StepRunsTheDecodedInstruction :
    Issues (State.clock { State.reset.withFetchWord 64 0x2E00000000000000 with agenda := [] } 1) 0x2E00000000000000 (.nop 0) ∧
    (let s : State := { held 0x2E00000000000000 with seat := some (.slot 0) }
     Issues ((State.clock s 1).switchTo ⟨0, .slot 0⟩) 0x2E00000000000000 (.nop 0)) :=
  ⟨⟨by decide, by decide, by decide, by decide, by decide, by decide, ⟨_, rfl, rfl⟩, by decide, rfl⟩,
   ⟨by decide, by decide, by decide, by decide, by decide, by decide, ⟨_, rfl, rfl⟩, by decide, rfl⟩⟩

theorem test_witness_RoundTripOfEncoding :
    (Instr.nop 0).wf = true ∧ encode (.nop 0) = some 0x2E00000000000000 ∧ (Instr.nop 15).wf = true ∧
      encode (.nop 15) = some 0x2E0F000000000000 := by decide

theorem test_witness_DecodedWordsEncodeBack :
    decodeTableWord 64 0x2E00000000000000 = some (.nop 0) ∧ 0xE3000000FC500000 < 2 ^ 64 := ⟨rfl, by decide⟩

/-- A state with one listed byte keeps the form and steps. -/
theorem test_witness_StepKeepsMemoryForm :
    let s : State := { State.reset.withFetchWord 64 0x2E00000000000000 with mem := [(5, 7)] }
    s.MemoryInv ∧ ∃ t, step s = .next t := ⟨⟨rfl, rfl⟩, _, rfl⟩

theorem test_witness_SegmentRegisters :
    (let i : Instr := .segw 0 5 2 3
     let s := held (wordOf i)
     Ready (segwReq 0 2 3 s) s ∧ Plain (segwReq 0 2 3 s) s ∧ s.flows ∧
      s.sysVal (issOf (segwReq 0 2 3 s) s) 3 ++ s.sysVal (issOf (segwReq 0 2 3 s) s) 2 = (0 : BitVec 128)) ∧
    (let i : Instr := .segw 0 5 2 3
     let s := rig (wordOf i)
     Ready (segwReq 0 2 3 s) s ∧ Plain (segwReq 0 2 3 s) s ∧
      field (s.sysVal (issOf (segwReq 0 2 3 s) s) 3 ++ s.sysVal (issOf (segwReq 0 2 3 s) s) 2 : BitVec 128) 64 2 = 1) ∧
    (let s := held (wordOf (.segr 0 5 true 1)); Ready (segrReq 0 1 s) s ∧ Plain (segrReq 0 1 s) s ∧ s.flows) :=
  ⟨⟨ready_of (by decide), plain_of (by decide), flows_of (by decide), by decide⟩,
   ⟨ready_of (by decide), plain_of (by decide), by decide⟩,
   ⟨ready_of (by decide), plain_of (by decide), flows_of (by decide)⟩⟩

theorem test_witness_TimerInterrupt :
    (timed.timerPending 0 = true ∧ (timed.ctx ⟨0, .slot 0⟩).interruptible = true) ∧
    (State.reset.timerPending 0 = false ∧ (withMe timed fun c => { c with present := false }).timerPending 0 = true ∧
      ((withMe timed fun c => { c with present := false }).ctx ⟨0, .slot 0⟩).interruptible = false) := by decide

end Sys2Proof.Tests
end

section
/-! SUPPORT. Every instruction with a request is an issue under it: each row of the tables of Effects.lean and
OpEffects.lean names the requirements under which `exec` issues its instruction, so a statement about every instruction
with a request speaks of `runCtl` alone (02_clauses.md R35, R41, R46; 01_package.md R20). -/

namespace Sys2Proof.Machine

/-- In `s` the meaning of the instruction is the issue of some body, of which `r` is what it asks. -/
def IssuesAs (i : Instr) (r : Req) (s : State) : Prop := ∃ body, exec i s = runCtl r body s

/-! The tables, row by row: the request of a row is the one under which its instruction issues. -/

theorem intEffect_issues {i : Instr} {e : RegEffect} (h : intEffect i = some e) (s : State) : IssuesAs i e.req s := by
  unfold intEffect at h
  split at h <;> cases h <;> exact ⟨_, rfl⟩

theorem vecEffect_issues {i : Instr} {e : RegEffect} (h : vecEffect i = some e) (s : State) : IssuesAs i e.req s := by
  unfold vecEffect at h
  split at h <;> cases h <;> exact ⟨_, rfl⟩

theorem fpEffect_issues {i : Instr} {e : RegEffect} (h : fpEffect i = some e) (s : State) : IssuesAs i e.req s := by
  unfold fpEffect at h
  split at h <;> cases h <;> exact ⟨_, rfl⟩

theorem longEffect_issues {i : Instr} {la : BitVec 4} {e : RegEffect} (h : longEffect i = some (la, e)) (s : State) :
    IssuesAs i e.req s := by
  unfold longEffect at h
  split at h <;> cases h <;> exact ⟨_, rfl⟩

theorem jumpOf_issues {i : Instr} {j : Jump} (h : jumpOf i = some j) (s : State) : IssuesAs i j.req s := by
  unfold jumpOf at h
  split at h <;> cases h <;> exact ⟨_, rfl⟩

theorem memoryOps_issues {i : Instr} {s : State} {e : Effect} (h : memoryOps i s = some e) : IssuesAs i e.req s := by
  unfold memoryOps at h
  split at h <;> cases h <;> exact ⟨_, rfl⟩

theorem streamOps_issues {i : Instr} {s : State} {e : Effect} (h : streamOps i s = some e) : IssuesAs i e.req s := by
  unfold streamOps at h
  split at h <;> cases h <;> exact ⟨_, rfl⟩

theorem matrixOps_issues {i : Instr} {s : State} {e : Effect} (h : matrixOps i s = some e) : IssuesAs i e.req s := by
  unfold matrixOps at h
  split at h <;> cases h <;> exact ⟨_, rfl⟩

theorem shuttleOps_issues {i : Instr} {s : State} {e : Effect} (h : shuttleOps i s = some e) : IssuesAs i e.req s := by
  unfold shuttleOps at h
  split at h <;> cases h <;> exact ⟨_, rfl⟩

theorem networkOps_issues {i : Instr} {s : State} {e : Effect} (h : networkOps i s = some e) : IssuesAs i e.req s := by
  unfold networkOps at h
  split at h <;> cases h <;> exact ⟨_, rfl⟩

theorem raysOps_issues {i : Instr} {s : State} {e : Effect} (h : raysOps i s = some e) : IssuesAs i e.req s := by
  unfold raysOps at h
  split at h <;> cases h <;> exact ⟨_, rfl⟩

theorem rasterOps_issues {i : Instr} {s : State} {e : Effect} (h : rasterOps i s = some e) : IssuesAs i e.req s := by
  unfold rasterOps at h
  split at h <;> cases h <;> exact ⟨_, rfl⟩

theorem systemOps_issues {i : Instr} {s : State} {e : Effect} (h : systemOps i s = some e) : IssuesAs i e.req s := by
  unfold systemOps at h
  split at h <;> cases h <;> exact ⟨_, rfl⟩

/-- A paired word that takes no STRICT trap of its halves (R45) issues as any other instruction does. -/
theorem runPair_issues {fa fb : Bool} {x y : Half} {s : State} (hfree : s.unhindered)
    (hstrict : s.checkTrap (pairReq fa fb x y) = none → (s.me.mode.getLsbD 13 && halvesMeet fa fb x y) = false) :
    ∃ body, runPair fa fb x y s = runCtl (pairReq fa fb x y) body s := by
  have hpass : ((s.checkTrap (pairReq fa fb x y)).isNone && halvesMeet fa fb x y && s.me.mode.getLsbD 13) = false := by
    cases hc : s.checkTrap (pairReq fa fb x y) with
    | some t => rfl
    | none => rw [Option.isNone_none, Bool.true_and, Bool.and_comm, hstrict hc]
  simp only [runPair, settle, run_bind, checkBreakpoints_ok hfree, run_get, run_getMe, hpass, Bool.false_eq_true, if_false]
  exact ⟨_, rfl⟩

theorem arithOps_issues {i : Instr} {s : State} {e : Effect} (h : arithOps i s = some e) (hfree : s.unhindered)
    (hstrict : s.checkTrap e.req = none → strictPair i s = false) : IssuesAs i e.req s := by
  unfold arithOps at h
  split at h <;> cases h
  -- the three paired words
  case h_7 | h_8 | h_9 => exact runPair_issues hfree hstrict
  all_goals exact ⟨_, rfl⟩

/-- Every row of the nine tables of OpEffects.lean. -/
theorem opTables_issues {table : Instr → State → Option Effect} (ht : table ∈ opTables) {i : Instr} {s : State} {e : Effect}
    (h : table i s = some e) (hfree : s.unhindered)
    (hstrict : s.checkTrap e.req = none → strictPair i s = false) : IssuesAs i e.req s := by
  simp only [opTables, List.mem_cons, List.not_mem_nil, or_false] at ht
  rcases ht with rfl | rfl | rfl | rfl | rfl | rfl | rfl | rfl | rfl
  · exact arithOps_issues h hfree hstrict
  · exact memoryOps_issues h
  · exact streamOps_issues h
  · exact matrixOps_issues h
  · exact shuttleOps_issues h
  · exact networkOps_issues h
  · exact raysOps_issues h
  · exact rasterOps_issues h
  · exact systemOps_issues h

/-- An instruction with a request issues under it, unless it is a paired word that passes its checks and takes the STRICT
trap of its halves first. -/
theorem reqOf_issues {i : Instr} {r : Req} {s : State} (h : reqOf i s = some r) (hfree : s.unhindered)
    (hstrict : s.checkTrap r = none → strictPair i s = false) : IssuesAs i r s := by
  unfold reqOf at h
  split at h
  -- an instruction that `reqOf` does not name itself: a row of a table
  case h_14 =>
    split at h
    · cases h; exact intEffect_issues ‹_› s
    · cases h; exact vecEffect_issues ‹_› s
    · cases h; exact fpEffect_issues ‹_› s
    · cases h; exact longEffect_issues ‹_› s
    · cases h; exact jumpOf_issues ‹_› s
    · obtain ⟨e, hfind, rfl⟩ := Option.map_eq_some_iff.mp h
      obtain ⟨table, ht, he⟩ := List.exists_of_findSome?_eq_some hfind
      exact opTables_issues ht he hfree hstrict
  all_goals
    cases h
    exact ⟨_, rfl⟩

/-! An issue at the power cap (01_package.md R19, R20). -/

/-- A wait other than a halt is recorded and nothing else is. -/
theorem waits_outcome {w : Stall} (h : w ≠ .halt) (k : WaitKind) (s : State) :
    (waits w k).toOutcome s = .next (s.waitsFor w k) :=
  toOutcome_ok (by simp only [waits, run_modMe, if_neg h]; rfl)

/-- An issue that waits changes nothing more than the wait. -/
theorem runCtl_hold {r : Req} {body : Iss → M Then} {s u : State} {w : Stall} {k : WaitKind} (hw : w ≠ .halt)
    (h : (issueCtl r body).run s = .error (.hold w k) u) : runCtl r body s = .next (u.waitsFor w k) := by
  simp only [runCtl, settle, h, waits_outcome hw]

theorem run_bumpUnit (core idx n : Nat) (s : State) :
    (bumpUnit core idx n).run s = .ok () (s.did (bumpUnit core idx n)) := by
  unfold bumpUnit
  split <;> rfl

theorem powerCap_held {r : Req} {s : State} (hcounted : r.counted = true) (hcap : 320 ≤ s.here.nv + s.here.nm) :
    (powerCap r).run s = .error (.hold .lostArb {}) (s.did (bumpUnit s.hereId 3)) := by
  simp only [powerCap, run_bind, run_getHere, hcounted, hcap, decide_true, Bool.and_self, if_true, run_get, run_bumpUnit]
  rfl

/-- An issue that passes its checks and its interlock comes to the power cap before it has had any effect. -/
theorem issueCtl_held {r : Req} {s : State} (body : Iss → M Then) (hfree : s.unhindered) (hchecks : s.checkTrap r = none)
    (hlanes : s.actLanes r ≠ 0) (hlanded : s.met r = []) (huni : s.uniOwed (r.allRegs s.me.isWave) = false)
    (hcounted : r.counted = true) (hcap : 320 ≤ s.here.nv + s.here.nm) :
    (issueCtl r body).run s = .error (.hold .lostArb {}) (s.did (bumpUnit s.hereId 3)) := by
  have hlanded' := List.isEmpty_iff.mpr hlanded
  simp only [issueCtl, run_bind, checkBreakpoints_ok hfree, run_get, hchecks, run_getMe, if_neg hlanes,
    interlockOn_ok (guardLanded hlanded') (guardOwed huni), interlock_ok hlanded' huni, powerCap_held hcounted hcap]

/-- Settles O27: a counted instruction issues under its request, and its issue stops at the power cap. -/
theorem powerCapHoldsVectorIssues : Obligations.PowerCapHoldsVectorIssues := by
  unfold Obligations.PowerCapHoldsVectorIssues
  intro i r s hreq hfree hstrict hchecks hlanes hlanded huni hcounted hcap
  obtain ⟨body, hexec⟩ := reqOf_issues hreq hfree fun _ => hstrict
  rw [hexec]
  exact runCtl_hold (by decide) (issueCtl_held body hfree hchecks hlanes hlanded huni hcounted hcap)

end Sys2Proof.Machine
end

section
/-! SUPPORT. Results performed: a list of results whose destinations are registers leaves the register writes that the
results name, whatever the issue changed before them outside its destinations (04_registers.md R89, R94, R125). -/

namespace Sys2Proof.Machine

/-- Two states agree on what decides where a destination's value goes: the streams bound, and the half of the uniform
registers of the turn's team. -/
structure SameDests (s t : State) : Prop where
  streams : t.me.streamOf = s.me.streamOf
  half : t.myTeam.map Team.half = s.myTeam.map Team.half

theorem SameDests.refl (s : State) : SameDests s s := ⟨rfl, rfl⟩

theorem SameDests.trans {s t u : State} (h : SameDests s t) (k : SameDests t u) : SameDests s u :=
  ⟨k.streams.trans h.streams, k.half.trans h.half⟩

/-- Register writes bind no stream and move no team. -/
theorem writes_sameDests (s : State) {ws : List RegWrite} (h : ∀ w ∈ ws, w.ofRegister = true) : SameDests s (s.writes ws) := by
  obtain ⟨x, v, p, mode, due, k, e, -⟩ := writes_same s ws h
  rw [e]
  exact ⟨rfl, rfl⟩

theorem SameDests.plainOpnd {s t : State} (h : SameDests s t) (o : Opnd) : t.plainOpnd o = s.plainOpnd o := by
  unfold State.plainOpnd
  rw [h.streams]

theorem SameDests.vectorWrites {s t : State} (h : SameDests s t) (i : Iss) (d : Opnd) (f : Nat → W32) :
    t.vectorWrites i d f = s.vectorWrites i d f := by
  unfold State.vectorWrites
  rw [h.streams]

theorem SameDests.scalarWrites {s t : State} (h : SameDests s t) (i : Iss) (d : Opnd) (v : W64) :
    t.scalarWrites i d v = s.scalarWrites i d v := by
  have hhalf := h.half
  unfold State.scalarWrites
  rw [h.streams]
  cases ht : t.myTeam <;> cases hs : s.myTeam <;> simp_all

/-- The destinations of a result that are operands are among those that a request names; writes given as they are, are
writes of registers. -/
def Put.Into (r : Req) : Put → Prop
  | .scalar d _ | .vector d _ => d ∈ r.dsts
  | .regs ws => ∀ w ∈ ws, w.ofRegister = true
  | .mask .. | .flags _ => True

theorem Put.writes_ofRegister {r : Req} {p : Put} (h : p.Into r) (s : State) (i : Iss) :
    ∀ w ∈ p.writes s i, w.ofRegister = true := by
  cases p with
  | scalar d v => exact scalarWrites_reg s i d v
  | vector d f => exact vectorWrites_reg s i d f
  | mask d bits => exact maskWrites_reg i d bits
  | regs ws => exact h
  | flags f =>
    intro w hw
    simp only [Put.writes] at hw
    split at hw
    · cases hw
    · rw [List.mem_singleton.mp hw]
      rfl

/-- Flags raised are the flags of a result written. -/
theorem writes_flagsPut (s t : State) (i : Iss) (f : FlagSet) : t.writes ((Put.flags f).writes s i) = t.raised f := by
  simp only [Put.writes]
  split
  · rename_i hf
    simp [State.writes, State.raised, hf]
  · rfl

/-- A result performed on operands that are registers. -/
theorem Put.perform_ok {r : Req} {s t : State} {p : Put} {i : Iss} (hp : Plain r s) (hi : p.Into r) (h : SameDests s t) :
    (p.perform i).run t = .ok () (t.writes (p.writes s i)) := by
  cases p with
  | scalar d v =>
    rw [Put.writes, ← h.scalarWrites]
    exact putScalar_ok ((h.plainOpnd d).trans (hp.dst hi))
  | vector d f =>
    rw [Put.writes, ← h.vectorWrites]
    exact putVector_ok ((h.plainOpnd d).trans (hp.dst hi))
  | mask d bits => rfl
  | regs ws => rfl
  | flags f =>
    rw [writes_flagsPut]
    rfl

/-- Results performed in order. -/
theorem performAll_ok {r : Req} {s t : State} {ps : List Put} {i : Iss} (hp : Plain r s) (hi : ∀ p ∈ ps, p.Into r)
    (h : SameDests s t) :
    (ps.forM (Put.perform i)).run t = .ok () (t.writes (ps.flatMap (Put.writes s i))) := by
  induction ps generalizing t with
  | nil => rfl
  | cons p ps ih =>
    have hhead : p.Into r := hi p (List.mem_cons_self ..)
    have hnext : SameDests s (t.writes (p.writes s i)) :=
      h.trans (writes_sameDests t (Put.writes_ofRegister hhead s i))
    have htail : ∀ q ∈ ps, q.Into r := fun q hq => hi q (List.mem_cons_of_mem _ hq)
    rw [List.forM_eq_forM, List.forM_cons, run_bind_ok (Put.perform_ok hp hhead h), ← List.forM_eq_forM, ih htail hnext,
      List.flatMap_cons, writes_append]

theorem performOne_run (i : Iss) (p : Put) (s : State) : ([p].forM (Put.perform i)).run s = (p.perform i).run s := by
  rw [List.forM_eq_forM, List.forM_cons, run_bind]
  cases (p.perform i).run s <;> rfl

theorem performTwo_run (i : Iss) (p q : Put) (s : State) :
    ([p, q].forM (Put.perform i)).run s = (do p.perform i; q.perform i : M Unit).run s := by
  rw [List.forM_eq_forM, List.forM_cons, run_bind, run_bind]
  cases (p.perform i).run s with
  | ok a t => exact performOne_run i q t
  | error x t => rfl

/-! An instruction whose body performs the results of an effect on registers. -/

/-- In `s` the meaning of the instruction is the issue of a body that performs the results of `e`, which go where `e` asks. -/
structure PerformsPuts (i : Instr) (e : RegEffect) (s : State) (body : Iss → M Unit) : Prop where
  issue : exec i s = runIssue e.req body s
  body : ∀ q, (body q).run s = ((e.puts s q).forM (Put.perform q)).run s
  into : ∀ q, ∀ p ∈ e.puts s q, p.Into e.req

theorem PerformsPuts.completes {i : Instr} {e : RegEffect} {s : State} {body : Iss → M Unit} (h : PerformsPuts i e s body)
    (hr : Ready e.req s) (hp : Plain e.req s) (hf : s.flows) : Completes i s fun t => Writes s t (e.writes s) := by
  have hregs : ∀ w ∈ e.writes s, w.ofRegister = true := by
    intro w hw
    obtain ⟨p, hput, hin⟩ := List.mem_flatMap.mp hw
    exact Put.writes_ofRegister (h.into _ p hput) s _ w hin
  have hbody : Does (body (issOf e.req s)) s () (s.writes (e.writes s)) :=
    (h.body _).trans (performAll_ok hp (h.into _) (.refl s))
  unfold Completes
  rw [h.issue]
  exact runIssue_writes hr hp hf hregs hbody

end Sys2Proof.Machine
end

section
/-! SUPPORT. The floating-point instructions of fixed latency (05_lanes.md R118, R125, R128 to R137). -/

namespace Sys2Proof.Machine

/-- A vector operation of fixed latency performs its lanes' results and the flags of all of them (R125). -/
theorem vfp_performs {i : Instr} {e : RegEffect} {s : State} {g : Guard} {r : Rnd} {t : FTy} {d : Opnd} {srcs : List Opnd}
    {f : Fmt → Env → List Num → Nat × FlagSet} (hexec : exec i s = vfpOp g r t d srcs f s)
    (h : vfp g r t false d srcs f = some e) : ∃ body, PerformsPuts i e s body := by
  cases h
  exact ⟨_, hexec, fun _ => by simp only [performTwo_run, run_bind, run_get, Put.perform], fun _ => by simp [Put.Into, vfpReq]⟩

/-- A scalar operation of fixed latency performs its result and its flags (R125, R135). -/
theorem sfp_performs {i : Instr} {e : RegEffect} {s : State} {lat : Nat} {g : Guard} {r : Rnd} {t : FTy} {d : Opnd}
    {srcs : List Opnd} {f : Fmt → Env → List Num → Nat × FlagSet} (hexec : exec i s = sfpOp lat g r t d srcs f s)
    (h : sfp lat g r t false d srcs f = some e) : ∃ body, PerformsPuts i e s body := by
  cases h
  exact ⟨_, hexec, fun _ => by simp only [performTwo_run, run_bind, run_get, Put.perform], fun _ => by simp [Put.Into, sfpReq]⟩

theorem fpEffect_performs {i : Instr} {e : RegEffect} (h : fpEffect i = some e) (s : State) :
    ∃ body, PerformsPuts i e s body := by
  cases i with
  | vfadd | vfsub | vfmul | vfma | vfminmax => exact vfp_performs rfl h
  | fadd | fmul | ffma | fminmax => exact sfp_performs rfl h
  | vfclass =>
    cases h
    exact ⟨_, rfl, fun _ => by simp only [performOne_run, run_bind, run_get, Put.perform], fun _ => by simp [Put.Into, vfpReq]⟩
  | vcvt =>
    cases h
    -- built apart, the model and the table look up a lane's result by matchers of their own, which `rfl` sees as one
    exact ⟨_, rfl, fun _ => by simp only [performTwo_run, run_bind, run_get, Put.perform] <;> rfl,
      fun _ => by simp [Put.Into]⟩
  | vfcmp | fcmp | fcvt =>
    cases h
    exact ⟨_, rfl, fun _ => by simp only [List.singleton_append, performTwo_run, run_bind, run_get, Put.perform],
      fun _ => by simp [Put.Into]⟩
  | _ => cases h

/-- Settles O3: each member's body performs the results that its effect names. -/
theorem floatingPointResults : Obligations.FloatingPointResults := by
  unfold Obligations.FloatingPointResults
  intro i e s h hr hp hf
  obtain ⟨body, hbody⟩ := fpEffect_performs h s
  exact hbody.completes hr hp hf

end Sys2Proof.Machine
end

section
/-! SUPPORT. Issues that carry out an effect: a body that leaves the state which the effect names, and goes on. -/

namespace Sys2Proof.Machine

/-- In `s` the meaning of the instruction is an issue, under the effect's request, of a body that leaves what the effect
leaves and goes on at the next index. -/
def CarriesOut (i : Instr) (e : Effect) (s : State) : Prop :=
  ∃ body, exec i s = runCtl e.req body s ∧ (body (issOf e.req s)).run s = .ok advance (e.leaves s)

theorem carriesOut_of_issue {i : Instr} {e : Effect} {s : State} {body : Iss → M Unit} (hexec : exec i s = runIssue e.req body s)
    (hbody : Does (body (issOf e.req s)) s () (e.leaves s)) : CarriesOut i e s :=
  ⟨_, hexec, run_bind_ok hbody⟩

/-- What a ready context answers when it carries out an effect. -/
theorem CarriesOut.answers {i : Instr} {e : Effect} {s : State} (h : CarriesOut i e s) (hr : Ready e.req s)
    (hp : Plain e.req s) (hg : (e.leaves s).me.grant = false) (hf : (e.leaves s).flows) :
    exec i s = .next ((e.leaves s).after e.req s.me.tok) := by
  obtain ⟨body, hexec, hbody⟩ := h
  have hstep : ((e.leaves s).booked e.req s.me.tok).me.stepped.2 = false := by
    obtain ⟨-, -, hloop, -⟩ := stepped_congr (booked_flow (e.leaves s) e.req s.me.tok)
    exact hloop.trans hf
  rw [hexec]
  unfold runCtl settle
  rw [issueCtl_ready hr hp, run_bind, imprecise_ok hbody]
  simp only [run_bind, issued_ok hg, advance, run_getMe, goOn, run_setMe, hstep]
  rfl

end Sys2Proof.Machine
end

section
/-! SUPPORT. The accumulators (05_lanes.md R138 to R145): a change of one answers and changes the turn's core alone, so that
the results of the unit go where they would have gone before it. -/

namespace Sys2Proof.Machine

/-- A team put back in its own place keeps every team's half of the uniform registers when it keeps its own. -/
theorem putTeam_half {c : Core} {t u : Team} {tag : Nat} (ht : c.team tag = some t) (hu : u.tag = t.tag) (hhalf : u.half = t.half)
    (n : Nat) : ((c.putTeam u).team n).map Team.half = (c.team n).map Team.half := by
  have htag : t.tag = tag := by simpa using List.find?_some ht
  have hsame : ((fun v : Team => decide (v.tag = n)) ∘ fun v => if v.tag = u.tag then u else v) =
      fun v : Team => decide (v.tag = n) := by
    funext v
    by_cases hv : v.tag = u.tag <;> simp [hv]
  unfold Core.team Core.putTeam
  rw [List.find?_map, hsame]
  by_cases hn : n = tag
  · have hfound : c.teams.find? (fun v => decide (v.tag = n)) = some t := hn ▸ ht
    simp [hfound, hu, hhalf]
  · cases hfind : c.teams.find? (fun v => decide (v.tag = n)) with
    | none => rfl
    | some v =>
      have hv : v.tag = n := by simpa using List.find?_some hfind
      have hne : v.tag ≠ u.tag := by omega
      simp [hne]

/-- From `s` to `t` the turn's core alone has changed, and none of its teams' halves of the uniform registers. -/
def OnlyHere (s t : State) : Prop :=
  ∃ h : Core, t = { s with here := h } ∧ ∀ n, (h.team n).map Team.half = (s.here.team n).map Team.half

theorem OnlyHere.refl (s : State) : OnlyHere s s := ⟨s.here, rfl, fun _ => rfl⟩

theorem OnlyHere.trans {s t u : State} (h : OnlyHere s t) (k : OnlyHere t u) : OnlyHere s u := by
  obtain ⟨c, rfl, hc⟩ := h
  obtain ⟨d, rfl, hd⟩ := k
  exact ⟨d, rfl, fun n => (hd n).trans (hc n)⟩

theorem OnlyHere.me {s t : State} (h : OnlyHere s t) : t.me = s.me := by
  obtain ⟨c, rfl, -⟩ := h
  rfl

theorem OnlyHere.hereId {s t : State} (h : OnlyHere s t) : t.hereId = s.hereId := by
  obtain ⟨c, rfl, -⟩ := h
  rfl

theorem OnlyHere.sameDests {s t : State} (h : OnlyHere s t) : SameDests s t := by
  obtain ⟨c, rfl, hc⟩ := h
  exact ⟨rfl, hc _⟩

/-- A change of the turn's core as a whole that neither sees nor changes its contexts, nor its teams' halves. -/
theorem putCore_onlyHere (s : State) {g : Core → Core} (hctxs : ∀ c x, g { c with ctxs := x } = { g c with ctxs := x })
    (hhalf : ∀ c n, ((g c).team n).map Team.half = (c.team n).map Team.half) :
    OnlyHere s (s.putCore s.hereId (g (s.core s.hereId))) := by
  have hfield : ∃ x, s.putCore s.hereId (g (s.core s.hereId)) = { s with here := { g s.here with ctxs := x } } := by
    unfold State.putCore State.core
    rw [if_pos rfl, if_pos rfl]
    cases hseat : s.seat with
    | none => exact ⟨(g s.here).ctxs, rfl⟩
    | some q =>
      rw [hctxs]
      refine ⟨Store.set .blank (Store.set .blank s.here.ctxs (seatIndex q) s.me) (seatIndex q) .blank, ?_⟩
      simp only [Store.get_set_same]
  obtain ⟨x, hx⟩ := hfield
  exact ⟨_, hx, hhalf s.here⟩

/-- A change of the rows of the turn's core. -/
theorem rowsChanged_onlyHere (s : State) (f : Core → Store Byte) (hf : ∀ c x, f { c with ctxs := x } = f c) :
    OnlyHere s (s.putCore s.hereId { s.core s.hereId with rows := f (s.core s.hereId) }) :=
  putCore_onlyHere s (g := fun c => { c with rows := f c }) (fun c x => by rw [hf]) fun _ _ => rfl

/-- A core whose team with a tag has changed. -/
def Core.withTeam (c : Core) (tag : Nat) (f : Team → Team) : Core :=
  match c.team tag with
  | some t => c.putTeam (f t)
  | none => c

theorem run_modTeam (core tag : Nat) (f : Team → Team) (s : State) :
    (modTeam core tag f).run s = .ok () (s.putCore core ((s.core core).withTeam tag f)) := rfl

theorem withTeam_ctxs (c : Core) (tag : Nat) (f : Team → Team) (x : Store Ctx) :
    Core.withTeam { c with ctxs := x } tag f = { c.withTeam tag f with ctxs := x } := by
  have hteam : ({ c with ctxs := x } : Core).team tag = c.team tag := rfl
  unfold Core.withTeam
  rw [hteam]
  cases c.team tag <;> rfl

/-- A change of a team in other things than its tag and its half. -/
theorem withTeam_half (c : Core) (tag : Nat) {f : Team → Team} (htag : ∀ t, (f t).tag = t.tag) (hhalf : ∀ t, (f t).half = t.half)
    (n : Nat) : ((c.withTeam tag f).team n).map Team.half = (c.team n).map Team.half := by
  unfold Core.withTeam
  cases ht : c.team tag with
  | none => rfl
  | some t => exact putTeam_half ht (htag t) (hhalf t) n

theorem teamChanged_onlyHere (s : State) (tag : Nat) {f : Team → Team} (htag : ∀ t, (f t).tag = t.tag)
    (hhalf : ∀ t, (f t).half = t.half) : OnlyHere s (s.putCore s.hereId ((s.core s.hereId).withTeam tag f)) :=
  putCore_onlyHere s (g := fun c => c.withTeam tag f) (fun c x => withTeam_ctxs c tag f x)
    fun c n => withTeam_half c tag htag hhalf n

/-- A change of an accumulator answers, of whatever core and team. -/
theorem modAcc_did (core tag i : Nat) (f : Nat → AccStat → Nat × AccStat) (s : State) :
    (modAcc core tag i f).run s = .ok () (s.did (modAcc core tag i f)) := by
  unfold State.did
  simp only [modAcc, run_bind, run_getCore]
  split
  · rfl
  · split <;> rfl

/-- A change of an accumulator of the turn's core changes that core alone. -/
theorem modAcc_onlyHere (s : State) (tag i : Nat) (f : Nat → AccStat → Nat × AccStat) :
    OnlyHere s (s.did (modAcc s.hereId tag i f)) := by
  have hruns : ∃ t, (modAcc s.hereId tag i f).run s = .ok () t ∧ OnlyHere s t := by
    simp only [modAcc, run_bind, run_getCore]
    split
    · exact ⟨s, rfl, .refl s⟩
    · split
      · exact ⟨s, rfl, .refl s⟩
      · rename_i t _ _ row _
        generalize f _ _ = r
        have hrows : OnlyHere s (s.putCore s.hereId { s.core s.hereId with
            rows := Store.writeN (s.core s.hereId).rows (accOff row i) 80 r.1 }) :=
          rowsChanged_onlyHere s (fun c => Store.writeN c.rows (accOff row i) 80 r.1) fun _ _ => rfl
        simp only [run_bind, run_modCore, run_modTeam]
        have hteam := teamChanged_onlyHere (s.putCore s.hereId { s.core s.hereId with
            rows := Store.writeN (s.core s.hereId).rows (accOff row i) 80 r.1 }) tag
          (f := fun t => { t with acc := Store.set .zero t.acc i r.2 }) (fun _ => rfl) fun _ => rfl
        rw [hrows.hereId] at hteam
        exact ⟨_, rfl, hrows.trans hteam⟩
  obtain ⟨t, hrun, ht⟩ := hruns
  unfold State.did
  rw [hrun]
  exact ht

theorem accTurn_ok {i : BitVec 2} {s : State} (h : s.drainsInto (some i.toNat) = false) : (accTurn i).run s = .ok () s := by
  simp only [accTurn, run_bind, run_get, h]
  rfl

/-- A loop whose rounds each do one part of a meaning. -/
theorem run_forIn_did {α : Type} (l : List α) (m : α → M Unit) (hm : ∀ a s, (m a).run s = .ok () (s.did (m a))) (s : State) :
    (forIn l PUnit.unit fun a _ => do m a; pure (.yield ⟨⟩)).run s = .ok ⟨⟩ (l.foldl (fun t a => t.did (m a)) s) := by
  induction l generalizing s with
  | nil => rfl
  | cons a l ih =>
    rw [List.forIn_cons, run_bind, run_bind, hm]
    exact ih _

/-- The results of the accumulator unit go where its request says. -/
theorem accPuts_into {r : Req} {s : State} {w64 : Bool} {d : Opnd} {v : W64}
    (h : ∀ o ∈ accDsts s.me.isWave w64 d, o ∈ r.dsts) : ∀ p ∈ accPuts s w64 d v, p.Into r := by
  have hd : d ∈ r.dsts := h d (by unfold accDsts; split <;> simp)
  unfold accPuts
  split
  · by_cases hwave : s.me.isWave = true
    · cases w64 with
      | false => simpa [hwave, Put.Into] using hd
      | true => simpa [hwave, Put.Into] using ⟨hd, h (nextOpnd d) (by simp [accDsts, hwave])⟩
    · simpa [hwave, Put.Into] using hd
  · simpa [Put.Into] using hd

/-- A result of the accumulator unit, performed. -/
theorem putAcc_ok {r : Req} {s t : State} {q : Iss} {w64 : Bool} {d : Opnd} {v : W64} (hp : Plain r s)
    (hd : ∀ o ∈ accDsts s.me.isWave w64 d, o ∈ r.dsts) (h : SameDests s t) (hme : t.me = s.me) :
    (putAcc q w64 d v).run t = .ok () (t.writes ((accPuts s w64 d v).flatMap (Put.writes s q))) := by
  rw [← performAll_ok hp (accPuts_into hd) h]
  simp only [putAcc, accPuts, run_bind, run_get, hme]
  cases hop : opOf d with
  | prim n =>
    by_cases hwave : s.me.isWave = true
    · cases w64 with
      | false =>
        simp only [hwave, if_true, Bool.false_eq_true, if_false, performOne_run, Put.perform, run_bind]
        cases (putVector q d fun _ => v.setWidth 32).run t <;> rfl
      | true => simp only [hwave, if_true, performTwo_run, Put.perform, run_bind]
    · simp only [hwave, Bool.false_eq_true, if_false, performOne_run, Put.perform]
  | _ => simp only [performOne_run, Put.perform]

theorem kacc_carriesOut {g : Guard} {n : BitVec 2} {kind : AccKind} {a b : Opnd} {s : State} {e : Effect}
    (h : arithOps (.kacc g n kind a b) s = some e) (hruns : e.runs s = true) : CarriesOut (.kacc g n kind a b) e s := by
  cases h
  have hfree : s.drainsInto (some n.toNat) = false := by simpa [Effect.runs] using hruns
  refine carriesOut_of_issue (body := kaccBody n kind a b) rfl ?_
  simp only [Does, kaccBody, run_bind, accTurn_ok hfree, run_get]
  rw [run_forIn_did _ _ fun _ _ => modAcc_did _ _ _ _ _]
  rfl

theorem kclr_carriesOut {g : Guard} {n : BitVec 2} {s : State} {e : Effect} (h : arithOps (.kclr g n) s = some e)
    (hruns : e.runs s = true) : CarriesOut (.kclr g n) e s := by
  cases h
  have hfree : s.drainsInto (some n.toNat) = false := by simpa [Effect.runs] using hruns
  refine carriesOut_of_issue (body := kclrBody n) rfl ?_
  simp only [Does, kclrBody, run_bind, accTurn_ok hfree, run_get]
  exact modAcc_did _ _ _ _ _

/-- KRND and KSTAT change the accumulator that they read with `.clr` alone. -/
theorem clearedIf_onlyHere (s : State) (clr : Bool) (tag i : Nat) (f : Nat → AccStat → Nat × AccStat) :
    OnlyHere s (if clr then s.did (modAcc s.hereId tag i f) else s) := by
  cases clr with
  | false => exact .refl s
  | true => exact modAcc_onlyHere s tag i f

theorem krnd_carriesOut {g : Guard} {n : BitVec 2} {r : Rnd} {f64 clr : Bool} {d : Opnd} {s : State} {e : Effect}
    (h : arithOps (.krnd g n r f64 clr d) s = some e) (hp : Plain e.req s) (hruns : e.runs s = true) :
    CarriesOut (.krnd g n r f64 clr d) e s := by
  cases h
  have hfree : s.drainsInto (some n.toNat) = false := by simpa [Effect.runs] using hruns
  have hclr := clearedIf_onlyHere s clr s.me.team n.toNat fun _ _ => (0, .zero)
  have hput := fun v => putAcc_ok (q := issOf (krndReq g f64 d s) s) (v := v) hp (fun _ ho => ho) hclr.sameDests hclr.me
  refine carriesOut_of_issue (body := krndBody n r f64 clr d) rfl ?_
  simp only [Does, Effect.leaves, krndBody, clearAcc, run_bind, accTurn_ok hfree, run_get, List.flatMap_append, writes_append,
    List.flatMap_singleton, writes_flagsPut, List.foldl_nil]
  cases clr with
  | false =>
    simp only [Bool.false_eq_true, if_false] at hput ⊢
    rw [run_bind_ok (hput _)]
    rfl
  | true =>
    simp only [if_true] at hput ⊢
    rw [run_bind_ok (modAcc_did _ _ _ _ _), run_bind_ok (hput _)]
    rfl

theorem kstat_carriesOut {g : Guard} {n : BitVec 2} {clr : Bool} {d : Opnd} {s : State} {e : Effect}
    (h : arithOps (.kstat g n clr d) s = some e) (hp : Plain e.req s) (hruns : e.runs s = true) :
    CarriesOut (.kstat g n clr d) e s := by
  cases h
  have hfree : s.drainsInto (some n.toNat) = false := by simpa [Effect.runs] using hruns
  have hclr := clearedIf_onlyHere s clr s.me.team n.toNat fun v st => (v, { AccStat.zero with wrap := st.wrap })
  have hput := fun v => putAcc_ok (q := issOf (kstatReq g d s) s) (w64 := false) (d := d) (v := v) hp
    (fun _ ho => by simpa [accDsts, kstatReq] using ho) hclr.sameDests hclr.me
  refine carriesOut_of_issue (body := kstatBody n clr d) rfl ?_
  simp only [Does, kstatBody, run_bind, accTurn_ok hfree, run_get]
  cases clr with
  | false => exact hput _
  | true => exact run_bind_ok (modAcc_did _ _ _ _ _) |>.trans (hput _)

end Sys2Proof.Machine
end

section
/-! SUPPORT. MODE (05_lanes.md R121, R126). -/

namespace Sys2Proof.Machine

theorem awaitFp_ok {s : State} (h : s.fpOwed = false) : awaitFp.run s = .ok () s := by
  simp only [awaitFp, run_bind, run_get, h]
  rfl

theorem run_sval (q : Iss) (o : Opnd) (s : State) : (sval q o).run s = .ok (s.sval q false o) s := rfl

theorem rdmode_carriesOut {g : Guard} {d : Opnd} {s : State} {e : Effect} (h : arithOps (.rdmode g d) s = some e)
    (hp : Plain e.req s) (hruns : e.runs s = true) : CarriesOut (.rdmode g d) e s := by
  cases h
  have hfree : s.fpOwed = false := by simpa [Effect.runs] using hruns
  refine carriesOut_of_issue (body := rdmodeBody d) rfl ?_
  simp only [Does, Effect.leaves, rdmodeBody, run_bind, awaitFp_ok hfree, run_getMe, List.flatMap_singleton, List.foldl_nil]
  exact putScalar_ok (hp.dst (List.mem_singleton_self d))

theorem needOperand_ok {ok : Bool} (h : ok = true) (s : State) : (needOperand ok).run s = .ok () s := by
  rw [h]
  rfl

/-- WRMODE's check of MODE.RM, on the field and on its number (R121). -/
theorem rm_valid {m : BitVec 32} (hzero : m.extractLsb' 8 3 ≠ 0) (hsix : m.extractLsb' 8 3 ≠ 6) :
    (decide ((m.extractLsb' 8 3).toNat ≠ 0) && decide ((m.extractLsb' 8 3).toNat ≠ 6)) = true :=
  Bool.and_eq_true_iff.mpr ⟨decide_eq_true (BitVec.toNat_ne.mp hzero), decide_eq_true (BitVec.toNat_ne.mp hsix)⟩

theorem wrmode_carriesOut {g : Guard} {a b : Opnd} {s : State} {e : Effect} (h : arithOps (.wrmode g a b) s = some e)
    (hruns : e.runs s = true) : CarriesOut (.wrmode g a b) e s := by
  cases h
  refine carriesOut_of_issue (body := wrmodeBody a b) rfl ?_
  simp only [Effect.runs, Bool.and_eq_true, Bool.not_eq_true', decide_eq_true_eq] at hruns
  obtain ⟨⟨hfree, hzero⟩, hsix⟩ := hruns
  unfold modeAfter at hzero hsix
  simp only [Does, wrmodeBody, run_bind, awaitFp_ok hfree, run_sval, run_getMe, needOperand_ok (rm_valid hzero hsix)]
  rfl

end Sys2Proof.Machine
end

section
/-! SUPPORT. Paired words (02_clauses.md R43 to R45; 04_registers.md R113, R114): what the halves write at once and what
lands later, in whatever order they come. -/

namespace Sys2Proof.Machine

/-- A write of a register and a result recorded to land later: neither sees the other. -/
theorem write_owing (addr : W64) (q : Nat × Bool × List RegWrite) (s : State) {w : RegWrite} (h : w.ofRegister = true) :
    (s.owing addr q).write w = (s.write w).owing addr q := by
  cases w with
  | x | v | k => rfl
  | p n lanes bits =>
    simp only [State.write]
    split <;> rfl
  | flags f =>
    simp only [State.write, State.raised]
    split <;> rfl
  | latest | row => cases h

theorem writes_owing (addr : W64) (q : Nat × Bool × List RegWrite) (s : State) {ws : List RegWrite}
    (h : ∀ w ∈ ws, w.ofRegister = true) : (s.owing addr q).writes ws = (s.writes ws).owing addr q := by
  induction ws generalizing s with
  | nil => rfl
  | cons w ws ih =>
    show ((s.owing addr q).write w).writes ws = ((s.write w).writes ws).owing addr q
    rw [write_owing addr q s (h w (List.mem_cons_self ..)), ih _ fun x hx => h x (List.mem_cons_of_mem _ hx)]

/-- A state after register writes `ws` whose context owes the results `ls` besides. -/
def State.written (s : State) (ws : List RegWrite) (ls : List (Nat × Bool × List RegWrite)) : State :=
  ls.foldl (State.owing 0) (s.writes ws)

theorem written_owing (s : State) (ws : List RegWrite) (ls : List (Nat × Bool × List RegWrite)) (q : Nat × Bool × List RegWrite) :
    (s.written ws ls).owing 0 q = s.written ws (ls ++ [q]) := by
  simp [State.written]

theorem owing_writes (ls : List (Nat × Bool × List RegWrite)) (t : State) {vs : List RegWrite}
    (h : ∀ w ∈ vs, w.ofRegister = true) :
    (ls.foldl (State.owing 0) t).writes vs = ls.foldl (State.owing 0) (t.writes vs) := by
  induction ls generalizing t with
  | nil => rfl
  | cons q ls ih => rw [List.foldl_cons, List.foldl_cons, ih, writes_owing 0 q t h]

theorem written_writes (s : State) (ws : List RegWrite) (ls : List (Nat × Bool × List RegWrite)) {vs : List RegWrite}
    (h : ∀ w ∈ vs, w.ofRegister = true) : (s.written ws ls).writes vs = s.written (ws ++ vs) ls := by
  unfold State.written
  rw [owing_writes ls _ h, writes_append]

theorem written_sameDests (s : State) {ws : List RegWrite} (ls : List (Nat × Bool × List RegWrite))
    (h : ∀ w ∈ ws, w.ofRegister = true) : SameDests s (s.written ws ls) := by
  have howed : ∀ t : State, SameDests t (ls.foldl (State.owing 0) t) := by
    induction ls with
    | nil => exact SameDests.refl
    | cons q ls ih => exact fun t => SameDests.trans (t := t.owing 0 q) ⟨rfl, rfl⟩ (ih _)
  exact (writes_sameDests s h).trans (howed _)

/-- What is written at once of writes that land later where `long` says so. -/
def atOnce (long : Bool) (ws : List RegWrite) : List RegWrite := if long then [] else ws

/-- What is recorded to land later of them: nothing where there is nothing. -/
def inTime (long : Bool) (ws : List RegWrite) : List (Nat × Bool × List RegWrite) :=
  if long && !ws.isEmpty then [(0, false, ws)] else []

theorem atOnce_ofRegister {long : Bool} {ws : List RegWrite} (h : ∀ w ∈ ws, w.ofRegister = true) :
    ∀ w ∈ atOnce long ws, w.ofRegister = true := by
  cases long with
  | false => exact h
  | true => exact fun w hw => nomatch hw

/-- A vector result is made of its values in the lanes of the issue alone. -/
theorem vectorWrites_congr (s : State) (i : Iss) (d : Opnd) {f g : Nat → W32} (h : ∀ l ∈ lanesOf i.lanes, f l = g l) :
    s.vectorWrites i d f = s.vectorWrites i d g := by
  unfold State.vectorWrites
  split
  · split
    · rfl
    · exact List.map_congr_left fun l hl => by rw [h l hl]
  · rw [List.foldl_ext _ _ _ fun m l hl => by rw [h l hl]]
  · rfl

/-- The results of the sixteen lanes, listed, are those of the lanes of an issue. -/
theorem lanes_getD (i : Iss) (f : Nat → W32) : ∀ l ∈ lanesOf i.lanes, ((List.range 16).map f).getD l 0 = f l := by
  intro l hl
  have hlt : l < 16 := List.mem_range.mp (List.mem_filter.mp hl).1
  simp [List.getD_eq_getElem?_getD, hlt]

/-- A half's result: written at once, or recorded to land later. -/
theorem putHalf_ok {s : State} {i : Iss} {h : Half} {ws : List RegWrite} (ls : List (Nat × Bool × List RegWrite)) (long : Bool)
    (f : Nat → W32) (hd : s.plainOpnd (halfOpnd h.d) = true) (hws : ∀ w ∈ ws, w.ofRegister = true) :
    (putHalf long i h ((List.range 16).map f)).run (s.written ws ls) =
      .ok () (s.written (ws ++ atOnce long (s.vectorWrites i (halfOpnd h.d) f))
        (ls ++ inTime long (s.vectorWrites i (halfOpnd h.d) f))) := by
  have hdest := written_sameDests s ls hws
  have hplain := (hdest.plainOpnd (halfOpnd h.d)).trans hd
  have hsame : (s.written ws ls).vectorWrites i (halfOpnd h.d) (fun l => ((List.range 16).map f).getD l 0) =
      s.vectorWrites i (halfOpnd h.d) f :=
    (vectorWrites_congr _ i _ (lanes_getD i f)).trans (hdest.vectorWrites i _ f)
  cases long with
  | false =>
    simp only [putHalf, Bool.false_eq_true, if_false, putVector_ok hplain, hsame, atOnce, inTime, Bool.false_and, List.append_nil]
    rw [written_writes s ws ls (vectorWrites_reg s i _ f)]
  | true =>
    simp only [putHalf, if_true, run_bind, run_get, hsame, atOnce, inTime, Bool.true_and, List.append_nil]
    by_cases hnone : s.vectorWrites i (halfOpnd h.d) f = []
    · simp [hnone, putLater_none hplain]
    · simp only [putLater_ok hplain hnone, List.isEmpty_eq_false_iff.mpr hnone, Bool.not_false, if_true]
      rw [← written_owing]
      rfl

theorem pairFlags_ofRegister (fa fb : Bool) (x y : Half) (s : State) (i : Iss) :
    ∀ w ∈ pairFlags fa fb x y s i, w.ofRegister = true := by
  intro w hw
  simp only [pairFlags] at hw
  split at hw
  · cases hw
  · rw [List.mem_singleton.mp hw]
    rfl

/-- The register writes of half A's result. -/
def firstWrites (fa : Bool) (x : Half) (s : State) (i : Iss) : List RegWrite :=
  (Put.vector (halfOpnd x.d) fun l => (pairFirst fa x s i l).1).writes s i

/-- The register writes of half B's result. -/
def secondWrites (fa fb : Bool) (x y : Half) (s : State) (i : Iss) : List RegWrite :=
  (Put.vector (halfOpnd y.d) fun l => (pairSecond fa fb x y s i l).1).writes s i

/-- What a paired word leaves: the results of its short halves written, those of its long ones to land later, and the flags
with them where there is one (R114). -/
def State.pairLeaves (s : State) (fa fb : Bool) (x y : Half) (i : Iss) : State :=
  s.written
    (atOnce (x.special fa) (firstWrites fa x s i) ++ atOnce (y.special fb) (secondWrites fa fb x y s i) ++
      atOnce (x.special fa || y.special fb) (pairFlags fa fb x y s i))
    (inTime (x.special fa) (firstWrites fa x s i) ++ inTime (y.special fb) (secondWrites fa fb x y s i) ++
      inTime (x.special fa || y.special fb) (pairFlags fa fb x y s i))

/-- The end of a paired word: its flags raised, or recorded to land later. -/
theorem putFlags_ok (s : State) (ws : List RegWrite) (ls : List (Nat × Bool × List RegWrite)) (late : Bool) {fl : List RegWrite}
    (hfl : ∀ w ∈ fl, w.ofRegister = true) :
    (do
        if late then (if fl.isEmpty then pure () else pendResult 0 false fl 1) else applyAll fl
        return advance : M Then).run (s.written ws ls) =
      .ok advance (s.written (ws ++ atOnce late fl) (ls ++ inTime late fl)) := by
  cases late with
  | false =>
    simp only [Bool.false_eq_true, if_false, atOnce, inTime, Bool.false_and, List.append_nil, ← written_writes s ws ls hfl]
    rfl
  | true =>
    cases fl with
    | nil => simp [atOnce, inTime]
    | cons w fl =>
      simp only [if_true, atOnce, inTime, Bool.true_and, List.isEmpty_cons, Bool.not_false, List.append_nil, ← written_owing]
      rfl

/-- A paired word whose halves do not meet under MODE.STRICT (R45): its checks done, it issues its two halves. -/
theorem runPair_leaves {fa fb : Bool} {x y : Half} {s : State} (hfree : s.me.breakMatch = none)
    (hstrict : (halvesMeet fa fb x y && s.me.mode.getLsbD 13) = false)
    (hx : s.plainOpnd (halfOpnd x.d) = true) (hy : s.plainOpnd (halfOpnd y.d) = true) (i : Iss) :
    ∃ body, runPair fa fb x y s = runCtl (pairReq fa fb x y) body s ∧
      (body i).run s = .ok advance (s.pairLeaves fa fb x y i) := by
  have hpass : ((s.checkTrap (pairReq fa fb x y)).isNone && halvesMeet fa fb x y && s.me.mode.getLsbD 13) = false := by
    rw [Bool.and_assoc, hstrict, Bool.and_false]
  simp only [runPair, settle, run_bind, checkBreakpoints_ok hfree, run_get, run_getMe, hpass, Bool.false_eq_true, if_false]
  refine ⟨_, rfl, ?_⟩
  have hfirst : (putHalf (x.special fa) i x ((List.range 16).map fun l => (pairFirst fa x s i l).1)).run s =
      .ok () (s.written (atOnce (x.special fa) (firstWrites fa x s i)) (inTime (x.special fa) (firstWrites fa x s i))) :=
    putHalf_ok (ws := []) [] _ _ hx fun w hw => nomatch hw
  have hsecond := putHalf_ok (i := i) (inTime (x.special fa) (firstWrites fa x s i)) (y.special fb)
    (fun l => (pairSecond fa fb x y s i l).1) hy
    (atOnce_ofRegister (long := x.special fa) (vectorWrites_reg s i (halfOpnd x.d) fun l => (pairFirst fa x s i l).1))
  have hflags := putFlags_ok s
    (atOnce (x.special fa) (firstWrites fa x s i) ++ atOnce (y.special fb) (secondWrites fa fb x y s i))
    (inTime (x.special fa) (firstWrites fa x s i) ++ inTime (y.special fb) (secondWrites fa fb x y s i))
    (x.special fa || y.special fb) (pairFlags_ofRegister fa fb x y s i)
  exact (run_bind_ok (run_get s)).trans ((run_bind_ok hfirst).trans ((run_bind_ok hsecond).trans hflags))

theorem flatMap_atOnce (s : State) (i : Iss) (long : Bool) (p : Put) :
    (if long then [] else [p]).flatMap (Put.writes s i) = atOnce long (p.writes s i) := by
  cases long <;> simp [atOnce]

theorem map_inTime (long : Bool) (ws : List RegWrite) :
    ((if long then [ws] else []).filter (· ≠ [])).map (fun w => ((0, false, w) : Nat × Bool × List RegWrite)) = inTime long ws := by
  cases long with
  | false => rfl
  | true => cases ws <;> rfl

/-- A paired word of the table carries out its effect. -/
theorem pair_carriesOut {i : Instr} {fa fb : Bool} {x y : Half} {s : State} {e : Effect}
    (hexec : exec i s = runPair fa fb x y s) (h : arithOps.pairOps fa fb x y = some e) (hr : Ready e.req s) (hp : Plain e.req s)
    (hruns : e.runs s = true) : CarriesOut i e s := by
  cases h
  have hstrict : (halvesMeet fa fb x y && s.me.mode.getLsbD 13) = false := by simpa only [Effect.runs, Bool.not_eq_true'] using hruns
  have hx : s.plainOpnd (halfOpnd x.d) = true := hp.dst (List.mem_cons_self ..)
  have hy : s.plainOpnd (halfOpnd y.d) = true := hp.dst (List.mem_cons_of_mem _ (List.mem_singleton_self _))
  obtain ⟨body, hissue, hbody⟩ := runPair_leaves hr.comparator hstrict hx hy (issOf (pairReq fa fb x y) s)
  refine ⟨body, hexec.trans hissue, hbody.trans (congrArg _ ?_)⟩
  simp only [Effect.leaves, List.flatMap_append, List.filter_append, List.map_append, flatMap_atOnce, map_inTime]
  rfl

end Sys2Proof.Machine
end

section
/-! SUPPORT. The table of the accumulators, MODE and the paired words as a whole. -/

namespace Sys2Proof.Machine

theorem arithOps_carriesOut {i : Instr} {s : State} {e : Effect} (h : arithOps i s = some e) (hr : Ready e.req s)
    (hp : Plain e.req s) (hruns : e.runs s = true) : CarriesOut i e s := by
  cases i with
  | kacc => exact kacc_carriesOut h hruns
  | kclr => exact kclr_carriesOut h hruns
  | krnd => exact krnd_carriesOut h hp hruns
  | kstat => exact kstat_carriesOut h hp hruns
  | rdmode => exact rdmode_carriesOut h hp hruns
  | wrmode => exact wrmode_carriesOut h hruns
  | pairI | pairF | pairIF => exact pair_carriesOut rfl h hr hp hruns
  | _ => cases h

/-- Settles O14: each member issues a body that leaves what its effect names, and goes on. -/
theorem accumulatorsModeAndPairedWords : Obligations.AccumulatorsModeAndPairedWords := by
  unfold Obligations.AccumulatorsModeAndPairedWords Performs
  intro i s e h hr hp hruns hg hf
  exact (arithOps_carriesOut h hr hp hruns).answers hr hp hg hf

end Sys2Proof.Machine
end

section
/-! SUPPORT. Numbers written as bytes in a store (00_scope.md R4). -/

namespace Sys2Proof.Machine

@[simp] theorem natToBytes_length (n v : Nat) : (natToBytes n v).length = n := by
  induction n generalizing v with
  | zero => rfl
  | succ n ih => simp [natToBytes, ih]

theorem natToBytes_getElem (n v j : Nat) (h : j < (natToBytes n v).length) :
    (natToBytes n v)[j] = BitVec.ofNat 8 (v / 256 ^ j) := by
  induction n generalizing v j with
  | zero => simp [natToBytes] at h
  | succ n ih =>
    cases j with
    | zero => simp [natToBytes]
    | succ j =>
      have hj : j < (natToBytes n (v / 256)).length := by simpa [natToBytes] using h
      simp only [natToBytes, List.getElem_cons_succ, ih _ _ hj, Nat.div_div_eq_div_mul, Nat.pow_succ']

/-- No bytes written is nothing changed. -/
theorem holds_refl (v base : Nat) (f : Nat → Byte) : Holds v 0 base f f := fun a => by
  rw [if_neg (by omega)]

/-- The bytes of a number written over a store's. -/
theorem holds_putBytes (v n base : Nat) (m : Store Byte) :
    Holds v n base (Store.get 0 m) (Store.get 0 (Store.putBytes m base (natToBytes n v))) := by
  intro a
  split
  · rename_i ha
    obtain ⟨j, rfl⟩ := Nat.exists_eq_add_of_le ha.1
    have hj : j < (natToBytes n v).length := by rw [natToBytes_length]; omega
    rw [Store.get_putBytes _ _ _ _ hj, natToBytes_getElem, Nat.add_sub_cancel_left]
  · rename_i ha
    exact Store.get_putBytes_other _ _ _ _ (by rw [natToBytes_length]; omega)

end Sys2Proof.Machine
end

section
/-! SUPPORT. Cores put back as wholes, and bytes written to their rows: what of a core and of the turn they leave
(06_scratchpad.md R148, R155). -/

namespace Sys2Proof.Machine

theorem core_rows (s : State) (c : Nat) :
    (s.core c).rows = if c = s.hereId then s.here.rows else (Store.get Core.reset s.cores c).rows := by
  unfold State.core
  split
  · split <;> rfl
  · rfl

/-- The rows of every core are those of the state's cores. -/
theorem core_rows_congr {s t : State} (hid : t.hereId = s.hereId) (hcores : t.cores = s.cores) (hhere : t.here.rows = s.here.rows)
    (c : Nat) : (t.core c).rows = (s.core c).rows := by
  rw [core_rows, core_rows, hid, hcores, hhere]

theorem putCore_rows (s : State) (core : Nat) (k : Core) (c : Nat) :
    ((s.putCore core k).core c).rows = if c = core then k.rows else (s.core c).rows := by
  rw [core_rows, core_rows, State.putCore_hereId]
  unfold State.putCore
  by_cases hcore : core = s.hereId
  · subst hcore
    by_cases hc : c = s.hereId
    · cases s.seat <;> simp [hc]
    · cases s.seat <;> simp [hc]
  · by_cases hc : c = core
    · subst hc
      simp [hcore]
    · simp [hcore, hc, Store.get_set_other]

/-- A core put back with the contexts that it had leaves the turn's context as it was. -/
theorem putCore_me {s : State} {core : Nat} {k : Core} (h : k.ctxs = (s.core core).ctxs) : (s.putCore core k).me = s.me := by
  unfold State.putCore
  by_cases hcore : core = s.hereId
  · rw [if_pos hcore]
    unfold State.core at h
    rw [if_pos hcore] at h
    cases hseat : s.seat with
    | none => rfl
    | some q =>
      rw [hseat] at h
      simp only [h, Store.get_set_same]
  · rw [if_neg hcore]

/-- What a change of a core makes of a part of the turn's core that it does not change. -/
theorem putCore_here {β : Type} (f : Core → β) (hf : ∀ c x, f { c with ctxs := x } = f c) {s : State} {core : Nat} {k : Core}
    (h : f k = f (s.core core)) : f (s.putCore core k).here = f s.here := by
  unfold State.putCore
  by_cases hcore : core = s.hereId
  · rw [if_pos hcore]
    unfold State.core at h
    rw [if_pos hcore] at h
    cases hseat : s.seat with
    | none => rw [hseat] at h; exact h
    | some q =>
      rw [hseat] at h
      exact (hf _ _).trans (h.trans (hf _ _))
  · rw [if_neg hcore]

/-- Poison cleared changes tags alone. -/
theorem cleanRows_same (c : Core) (rs : List Nat) : c.cleanRows rs = { c with tags := (c.cleanRows rs).tags } := by
  unfold Core.cleanRows
  induction rs generalizing c with
  | nil => rfl
  | cons r rs ih =>
    rw [List.foldl_cons]
    refine (ih _).trans ?_
    split <;> rfl

/-- Bytes written to rows change those bytes, and tags. -/
theorem putRows_same (c : Core) (off : Nat) (bs : List Byte) :
    c.putRows off bs = { c with rows := Store.putBytes c.rows off bs, tags := (c.putRows off bs).tags } :=
  cleanRows_same _ _

end Sys2Proof.Machine
end

section
/-! SUPPORT. Bytes stored in the data rows of a core (06_scratchpad.md R160, R186): they change, and of what
an instruction's operands and its books depend on nothing does. -/

namespace Sys2Proof.Machine

/-- From `s` to `t` the rows of a core hold the number `v` in `n` bytes at an offset, and of the rest nothing has changed that
an instruction's result, its books or the rows of a core depend on. -/
structure RowsStored (s t : State) (core v n off : Nat) : Prop where
  rows : RowsHold s t core v n off
  me : t.me = s.me
  mem : t.mem = s.mem
  clk : t.clk = s.clk
  hereId : t.hereId = s.hereId
  uni : t.here.uni = s.here.uni
  teams : t.here.teams = s.here.teams

theorem RowsStored.refl (s : State) (core v off : Nat) : RowsStored s s core v 0 off where
  rows c := by rw [ite_self]; exact holds_refl v off _
  me := rfl
  mem := rfl
  clk := rfl
  hereId := rfl
  uni := rfl
  teams := rfl

/-- The state with another load-store cache of the turn's core. -/
def State.withLsCache (s : State) (l : Cache) : State := { s with here := { s.here with lsCache := l } }

theorem withLsCache_rows (s : State) (l : Cache) (c : Nat) : ((s.withLsCache l).core c).rows = (s.core c).rows :=
  core_rows_congr (s := s) (t := s.withLsCache l) rfl rfl rfl c

/-- A change of that cache after it. -/
theorem RowsStored.cached {s t : State} {core v n off : Nat} (h : RowsStored s t core v n off) (l : Cache) :
    RowsStored s (t.withLsCache l) core v n off where
  rows c := by rw [withLsCache_rows]; exact h.rows c
  me := h.me
  mem := h.mem
  clk := h.clk
  hereId := h.hereId
  uni := h.uni
  teams := h.teams

theorem ownedWritten_same (s : State) (core off n : Nat) : ∃ l, s.ownedWritten core off n = s.withLsCache l := by
  unfold State.ownedWritten
  split
  · exact ⟨s.here.lsCache, rfl⟩
  · exact ⟨_, rfl⟩

/-- A number stored in the data rows of a core. -/
theorem putRowBytes_stored (s : State) {core off : Nat} (v n : Nat) (hoff : 1024 ≤ off) :
    RowsStored s (s.putRowBytes core off (natToBytes n v)) core v n off := by
  have hput : s.putRowBytes core off (natToBytes n v) = s.putCore core ((s.core core).putRows off (natToBytes n v)) := if_pos hoff
  rw [hput]
  constructor
  case rows =>
    intro c
    rw [putCore_rows, putRows_same]
    by_cases hc : c = core
    · rw [if_pos hc, if_pos hc, hc]
      exact holds_putBytes v n off _
    · rw [if_neg hc, if_neg hc]
      exact holds_refl v off _
  case me => exact putCore_me (by rw [putRows_same])
  case mem => exact State.putCore_mem ..
  case clk => exact State.putCore_clk ..
  case hereId => exact State.putCore_hereId ..
  case uni => exact putCore_here Core.uni (fun _ _ => rfl) (by rw [putRows_same])
  case teams => exact putCore_here Core.teams (fun _ _ => rfl) (by rw [putRows_same])

/-- The same with the lines of the path cache that the rows hold dropped (R186). -/
theorem rowWrite_stored (s : State) {core off : Nat} (v n : Nat) (hoff : 1024 ≤ off) :
    RowsStored s ((s.putRowBytes core off (natToBytes n v)).ownedWritten core off n) core v n off := by
  obtain ⟨l, hl⟩ := ownedWritten_same (s.putRowBytes core off (natToBytes n v)) core off n
  rw [hl]
  exact (putRowBytes_stored s v n hoff).cached l

theorem RowsStored.myTeam {s t : State} {core v n off : Nat} (h : RowsStored s t core v n off) : t.myTeam = s.myTeam := by
  unfold State.myTeam Core.team
  rw [h.teams, h.me]

theorem RowsStored.uniReg {s t : State} {core v n off : Nat} (h : RowsStored s t core v n off) (k : Nat) : t.uni k = s.uni k := by
  unfold State.uni
  rw [h.myTeam, h.uni]

theorem RowsStored.val {s t : State} {core v n off : Nat} (h : RowsStored s t core v n off) (i : Iss) (sx : Bool) (o : Opnd)
    (l : Nat) : t.val i sx o l = s.val i sx o l := by
  unfold State.val State.latched
  simp only [h.uniReg, h.me, h.hereId, h.clk]

theorem RowsStored.wide {s t : State} {core v n off : Nat} (h : RowsStored s t core v n off) (i : Iss) (o : Opnd) (l : Nat) :
    t.wide i o l = s.wide i o l := by
  unfold State.wide
  simp only [h.uniReg, h.val, h.me]

theorem RowsStored.loadWrites {s t : State} {core v n off : Nat} (h : RowsStored s t core v n off) (w : BitVec 3) (d : Opnd)
    (x : Nat) : t.loadWrites w d x = s.loadWrites w d x := by
  unfold State.loadWrites
  rw [h.myTeam]

theorem RowsStored.casWrites {s t : State} {core v n off : Nat} (h : RowsStored s t core v n off) (w : BitVec 3) (d : Opnd)
    (x : Nat) : t.casWrites w d x = s.casWrites w d x := by
  unfold State.casWrites
  rw [h.myTeam, h.me]

end Sys2Proof.Machine
end

section
/-! SUPPORT. The checks of an access of one lane (07_addresses.md R192, R198; 06_scratchpad.md R148), and the reads and
writes of a piece that is a row. -/

namespace Sys2Proof.Machine

theorem watchCheck_ok {s : State} {n : Nat} {need : Need} {lanes : List LaneAddr} (h : s.me.watchMatch [(n, need, lanes)] = none) :
    (watchCheck n need lanes).run s = .ok () s := watchAll_ok h

theorem machineCheck_sound {s : State} {v : Via} {lanes : List LaneAddr} {got : List (Nat × List Place1)}
    (h : ∀ g ∈ got, ∀ q ∈ g.2, q.poisoned s = false) : (machineCheck v lanes got).run s = .ok () s := by
  have hnone : ∀ row, got.filter (fun g => g.2.any fun q => q.isRow = row && q.strikes s v) = [] := by
    intro row
    refine List.filter_eq_nil_iff.mpr fun g hg => ?_
    simp only [Bool.not_eq_true, List.any_eq_false]
    intro q hq
    simp [Place1.strikes, h g hg q hq]
  simp only [machineCheck, run_bind, run_get, hnone]
  rfl

theorem machineCheck_row {s : State} {v : Via} {lanes : List LaneAddr} {l core off n : Nat}
    (h : (Place1.row core off n).poisoned s = false) : (machineCheck v lanes [(l, [.row core off n])]).run s = .ok () s :=
  machineCheck_sound (by simp [h])

theorem firstCause_nil : firstCause [] = none := rfl

/-- Before accesses to rows alone no other's access comes first. -/
theorem awaitForwards_row (s : State) (l core off n : Nat) : (awaitForwards [(l, [.row core off n])]).run s = .ok () s := rfl

/-- An access whose address is granted, to a row without poison, passes its checks. -/
theorem access_row {s : State} {n : Nat} {need : Need} {l : Nat} {a : W64} {core off : Nat}
    (hw : s.me.watchMatch [(n, need, [(l, a)])] = none) (ht : s.precheck a n need = .ok (.row core off))
    (hs : (Place1.row core off n).poisoned s = false) :
    (access n need [(l, a)]).run s = .ok [(l, [.row core off n])] s := by
  simp only [access, run_bind, watchCheck_ok hw, run_get, List.map_cons, List.map_nil, ht, Bool.not_false, if_true,
    List.filterMap_cons, List.filterMap_nil, firstCause_nil, List.forIn_cons, List.forIn_nil, run_pure, List.nil_append,
    List.isEmpty_nil, awaitForwards_row, List.filter_cons, List.filter_nil, List.length_nil, Nat.lt_irrefl,
    decide_false, Bool.false_and, Bool.false_eq_true, if_false]
  cases need.via with
  | none => rfl
  | some v =>
    cases need.rd with
    | false => rfl
    | true => exact run_bind_ok (machineCheck_row hs)

/-- The cause of the one lane that meets one. -/
theorem firstCause_one (l rank : Nat) (t : Trap) :
    firstCause [(l, rank, t)] = some { t with lanes := some (0 ||| laneBit l) } := by
  simp [firstCause]

/-- An access whose address fails a check takes its trap, before anything is read or written (R198). -/
theorem access_fails {s : State} {n : Nat} {need : Need} {l : Nat} {a : W64} {rank : Nat} {t : Trap}
    (hw : s.me.watchMatch [(n, need, [(l, a)])] = none) (ht : s.precheck a n need = .error (rank, t)) :
    (access n need [(l, a)]).run s = .error (.trap { t with lanes := some (0 ||| laneBit l) }) s := by
  simp only [access, run_bind, watchCheck_ok hw, run_get, List.map_cons, List.map_nil, ht, Bool.not_false, if_true,
    List.filterMap_cons, List.filterMap_nil, firstCause_one, run_throw]

/-- The PAGE trap of an address whose translation fails with a DETAIL. -/
def pageTrap (d va : Nat) : Trap := { cause := 11, detail := d, addr := BitVec.ofNat 64 va }

/-- An access of one page whose translation fails takes PAGE, from the state that the translation leaves (R198). -/
theorem access_page {s u : State} {n : Nat} {need : Need} {l : Nat} {a : W64} {va d : Nat}
    (hw : s.me.watchMatch [(n, need, [(l, a)])] = none) (ht : s.precheck a n need = .ok (.glob va))
    (hwhole : va / 1024 = (va + n - 1) / 1024) (hone : (need.rd && need.wr) = false)
    (hwalk : (translateMine va (if need.wr then .write else .read)).run s = .ok (.page d) u) :
    (access n need [(l, a)]).run s =
      .error (.trap { pageTrap d va with lanes := some (0 ||| laneBit l) }) u := by
  have hsplit : pieceSplit va n = [(va, n)] := if_pos hwhole
  simp only [access, run_bind, watchCheck_ok hw, run_get, List.map_cons, List.map_nil, ht, Bool.not_false, if_true,
    List.filterMap_cons, List.filterMap_nil, firstCause_nil, List.forIn_cons, List.forIn_nil, run_pure, List.nil_append,
    hsplit, hwalk, hone, Bool.false_eq_true, if_false, firstCause_one, run_throw, pageTrap]

/-! The pieces of an access to a row. -/

/-- Bytes of a data row read. -/
theorem readPieces_row {s : State} {v : Via} {core off n : Nat} (hoff : 1024 ≤ off) :
    (readPieces v [.row core off n]).run s = .ok (s.rowNat core off n) s := by
  simp only [readPieces, readPlace, if_pos hoff, List.forIn_cons, List.forIn_nil, run_bind, run_getCore, run_pure, List.nil_append]
  rfl

theorem writePieces_row {s : State} {v : Via} {core off n val : Nat} :
    (writePieces v [.row core off n] n val).run s =
      .ok () ((s.putRowBytes core off (natToBytes n val)).ownedWritten core off n) := by
  have hall : (natToBytes n val).take n = natToBytes n val := List.take_of_length_le (natToBytes_length n val).le
  simp only [writePieces, writePlace, Place1.len, hall, natToBytes_length, List.forIn_cons, List.forIn_nil, run_bind, run_modify,
    run_pure]

theorem atomicAtHome_row (s : State) (v : Via) (core off n : Nat) : (atomicAtHome v [.row core off n]).run s = .ok () s := rfl

/-- A row is no replica: a bounded load reads it as it is (06_scratchpad.md R164). -/
theorem boundedPieces_row (s : State) (order bound core off n : Nat) :
    (boundedPieces order bound [.row core off n]).run s = .ok [.row core off n] s := by
  unfold boundedPieces
  split <;> rfl

/-- A load of a row without poison, of any order and bound. -/
theorem loadLanesAt_row {s : State} {v : Via} {order bound l core off n : Nat} {lanes : List LaneAddr} (hoff : 1024 ≤ off)
    (hs : (Place1.row core off n).poisoned s = false) :
    (loadLanesAt v order bound lanes [(l, [.row core off n])]).run s = .ok [(l, s.rowNat core off n)] s := by
  have hsound : (machineCheck v lanes [(l, [.row core off n])]).run s = .ok () s := machineCheck_row hs
  simp only [loadLanesAt, run_bind, List.mapM_cons, List.mapM_nil, boundedPieces_row, run_pure]
  split
  · simp only [run_bind, hsound, readPieces_row hoff, run_pure]
  · simp only [run_bind, readPieces_row hoff, run_pure]

end Sys2Proof.Machine
end

section
/-! SUPPORT. What LD, LDC, ST, ATOM and CAS do besides their access (07_addresses.md R203, R210; 09_sharing.md R245). -/

namespace Sys2Proof.Machine

theorem gives_ok {α : Type} {m : M α} {s t : State} {a : α} (h : m.run s = .ok a t) : s.gives m = some a := by
  unfold State.gives
  rw [h]

theorem gives_eq_some {α : Type} {m : M α} {s : State} {a : α} (h : s.gives m = some a) : m.run s = .ok a (s.did m) := by
  unfold State.gives at h
  unfold State.did
  cases hrun : m.run s with
  | ok b t => rw [hrun] at h; cases h; rfl
  | error e t => rw [hrun] at h; cases h

/-- A store's data are read, and nothing changes. -/
theorem storeData_ok (s : State) (i : Iss) (w : BitVec 3) (d : Opnd) :
    (storeData i w d).run s = .ok ((s.gives (storeData i w d)).getD 0) s := by
  have hok : ∃ v, (storeData i w d).run s = .ok v s := by
    simp only [storeData, run_bind, run_get]
    split <;> exact ⟨_, rfl⟩
  obtain ⟨v, hv⟩ := hok
  rw [gives_ok hv, hv, Option.getD_some]

theorem casOperands_ok (s : State) (i : Iss) (w : BitVec 3) (d : Opnd) :
    (casOperands i w d).run s = .ok ((s.gives (casOperands i w d)).getD (0, 0)) s := by
  have hok : ∃ v, (casOperands i w d).run s = .ok v s := by
    simp only [casOperands, run_bind, run_get]
    split
    · exact ⟨_, rfl⟩
    · split <;> exact ⟨_, rfl⟩
    · exact ⟨_, rfl⟩
  obtain ⟨v, hv⟩ := hok
  rw [gives_ok hv, hv, Option.getD_some]

theorem acquired_ok (order scope : Nat) (s : State) : ∃ l, (acquired order scope).run s = .ok () (s.withLsCache l) := by
  unfold acquired
  split
  · exact ⟨[], rfl⟩
  · exact ⟨s.here.lsCache, rfl⟩

/-- The end of an access that returns a value: an acquire empties the path cache, and the writes of the result, which no store to
rows changes, are recorded to land. -/
theorem recordsResult {s u : State} {core v n off : Nat} (hu : RowsStored s u core v n off) {f : State → List RegWrite}
    (hf : ∀ t, RowsStored s t core v n off → f t = f s) (m : MemF) (b : BitVec 13) (size : Nat) (i : Iss) :
    ∃ t, RowsStored s t core v n off ∧
      (do acquired m.order.toNat m.scope.toNat; loadResult m b size i (f (← get)) : M Unit).run u =
        .ok () (t.owing (memAddr (s.wide i m.base i.rep) b size) (m.la.toNat, true, f s)) := by
  obtain ⟨l, hl⟩ := acquired_ok m.order.toNat m.scope.toNat u
  have ht := hu.cached l
  refine ⟨_, ht, ?_⟩
  rw [run_bind_ok hl, ← hf _ ht, ← ht.wide]
  rfl

end Sys2Proof.Machine
end

section
/-! SUPPORT. What is left when the issue of an access ends (02_clauses.md R41). -/

namespace Sys2Proof.Machine

/-- The books of an issue and the advance of the pc change no row, no memory and no register. -/
theorem after_keeps {s u : State} {core v n off : Nat} (hrows : RowsHold s u core v n off) (hmem : u.mem = s.mem)
    (hregs : SameRegisters s u) (r : Req) (k : Nat) :
    RowsHold s (u.after r k) core v n off ∧ (u.after r k).mem = s.mem ∧ SameRegisters s (u.after r k) := by
  obtain ⟨a, b, c, q, e, -⟩ := after_same u r k
  have hsame (j : Nat) : ((u.after r k).core j).rows = (u.core j).rows :=
    core_rows_congr (by rw [e]) (by rw [e]) (by rw [e]) j
  refine ⟨fun j => ?_, (State.after_mem u r k).trans hmem, ?_⟩
  · rw [hsame]
    exact hrows j
  · rw [e]
    exact hregs

theorem RowsStored.sameRegisters {s t : State} {core v n off : Nat} (h : RowsStored s t core v n off) : SameRegisters s t :=
  ⟨by rw [h.me], h.uni⟩

theorem after_owes (u : State) (r : Req) (k : Nat) : (u.after r k).me.owes = u.me.owes := by
  obtain ⟨a, b, c, q, e, -⟩ := after_same u r k
  rw [e]
  exact map_owes _ _

/-- A store that a ready context performs on rows. -/
theorem store_completes {r : Req} {s u : State} {body : Iss → M Unit} {core v n off : Nat} (h : Ready r s) (hp : Plain r s)
    (hf : s.flows) (hu : RowsStored s u core v n off) (hb : Does (body (issOf r s)) s () u) :
    ∃ t, runIssue r body s = .next t ∧
      RowsHold s t core v n off ∧ t.mem = s.mem ∧ SameRegisters s t ∧ t.me.owes = s.me.owes := by
  have hflows : u.flows := by unfold State.flows; rw [hu.me]; exact hf
  obtain ⟨hrows, hmem, hregs⟩ := after_keeps hu.rows hu.mem hu.sameRegisters r s.me.tok
  exact ⟨_, runIssue_ready h hp hb (by rw [hu.me]; exact h.grant) hflows, hrows, hmem, hregs,
    by rw [after_owes, hu.me]⟩

/-- An access to rows of a ready context that returns a value. -/
theorem access_completes {r : Req} {s u : State} {body : Iss → M Unit} {core v n off la : Nat} {a : W64} {ws : List RegWrite}
    (h : Ready r s) (hp : Plain r s) (hf : s.flows) (hu : RowsStored s u core v n off)
    (hb : Does (body (issOf r s)) s () (u.owing a (la, true, ws))) :
    ∃ t, runIssue r body s = .next t ∧
      AddsResult s t la a ws ∧ RowsHold s t core v n off ∧ t.mem = s.mem ∧ SameRegisters s t := by
  have hflow : SameFlow s.me (u.owing a (la, true, ws)).me := by
    unfold State.owing
    rw [hu.me]
    exact ⟨rfl, rfl, rfl, rfl, rfl, rfl, rfl, rfl⟩
  have hflows : (u.owing a (la, true, ws)).flows := (stepped_congr hflow).2.2.1.trans hf
  have hgrant : (u.owing a (la, true, ws)).me.grant = false := (congrArg Ctx.grant hu.me).trans h.grant
  have hrows : RowsHold s (u.owing a (la, true, ws)) core v n off := fun c => by
    rw [core_rows_congr (s := u) (t := u.owing a (la, true, ws)) rfl rfl rfl c]
    exact hu.rows c
  refine ⟨_, runIssue_ready h hp hb hgrant hflows, ?_, after_keeps hrows hu.mem hu.sameRegisters r s.me.tok⟩
  obtain ⟨x, y, z, q, e, -⟩ := after_same (u.owing a (la, true, ws)) r s.me.tok
  refine ⟨s.me.pend.map fun p => if p.tok < s.me.tok then { p with window := p.window - 1 } else p, ?_, map_owes _ _⟩
  rw [e]
  simp [State.owing, hu.me, hu.clk]

end Sys2Proof.Machine
end

section
/-! SUPPORT. LD, LDC, ST, ATOM and CAS of a row (06_scratchpad.md R160, R164; 07_addresses.md R204 to R207). -/

namespace Sys2Proof.Machine

/-- A watchpoint looks at an access's reads and writes alone. -/
theorem watchMatch_congr (c : Ctx) {n : Nat} {need need' : Need} (lanes : List LaneAddr) (hrd : need'.rd = need.rd)
    (hwr : need'.wr = need.wr) : c.watchMatch [(n, need', lanes)] = c.watchMatch [(n, need, lanes)] := by
  unfold Ctx.watchMatch Ctx.watchHit
  simp only [List.findSome?_cons, List.findSome?_nil, hrd, hwr]

/-- A load's watchpoints are those of its reads, however it reads. -/
theorem Accesses.loadWatch {m : MemF} {s : State} {r : Req} {a : W64} (h : Accesses m r .load a s) (v : Via) (order : Nat) :
    s.me.watchMatch [(widthSize m.width, loadNeed v order, [((issOf r s).rep, a)])] = none :=
  (watchMatch_congr s.me _ rfl rfl).trans h.watch

theorem RowAccess.granted {m : MemF} {r : Req} {need : Need} {a : W64} {s : State} {core off : Nat}
    (h : RowAccess m r need a s core off) :
    (access (widthSize m.width) need [((issOf r s).rep, a)]).run s =
      .ok [((issOf r s).rep, [.row core off (widthSize m.width)])] s :=
  access_row h.accesses.watch h.target h.sound

theorem RowAccess.low {m : MemF} {r : Req} {need : Need} {a : W64} {s : State} {core off : Nat}
    (h : RowAccess m r need a s core off) : 1024 ≤ off := by have := h.data; omega

theorem run_scalarAddr (r : Req) (m : MemF) (s : State) :
    (scalarAddr (issOf r s) m (widthSize m.width)).run s = .ok (s.addrOf r m false) s := rfl

theorem run_wval (i : Iss) (o : Opnd) (l : Nat) (s : State) : (wval i o l).run s = .ok (s.wide i o l) s := rfl

section

variable {m : MemF} {s : State} {core off : Nat}

/-- What LD and LDC read: the bytes of the row (R204). -/
theorem loadValue_row (h : RowAccess m (ldReq m s) .load (s.addrOf (ldReq m s) m false) s core off) (p : Path) :
    (loadValue p m (issOf (ldReq m s) s)).run s = .ok (s.rowNat core off (widthSize m.width)) s := by
  have hgrant : (access (widthSize m.width) (loadNeed (viaOf p m) m.order.toNat)
      [((issOf (ldReq m s) s).rep, s.addrOf (ldReq m s) m false)]).run s =
        .ok [((issOf (ldReq m s) s).rep, [.row core off (widthSize m.width)])] s :=
    access_row (h.accesses.loadWatch _ _) h.target h.sound
  simp only [loadValue, run_bind, run_scalarAddr, hgrant, loadLanesAt_row h.low h.sound, run_pure]
  rfl

theorem loadBody_row (h : RowAccess m (ldReq m s) .load (s.addrOf (ldReq m s) m false) s core off) (p : Path) :
    ∃ u, RowsStored s u core 0 0 off ∧ Does (loadBody p m (issOf (ldReq m s) s)) s ()
      (u.owing (s.addrOf (ldReq m s) m false)
        (m.la.toNat, true, s.loadWrites m.width m.data (s.rowNat core off (widthSize m.width)))) := by
  obtain ⟨u, hu, hrun⟩ := recordsResult (.refl s core 0 off)
    (f := fun t => t.loadWrites m.width m.data (s.rowNat core off (widthSize m.width)))
    (fun t ht => ht.loadWrites _ _ _) m m.off (widthSize m.width) (issOf (ldReq m s) s)
  exact ⟨u, hu, (run_bind_ok (loadValue_row h p)).trans hrun⟩

/-- ST: its data in the row (R205). -/
theorem stBody_row (h : RowAccess m (stReq m s) .store (s.addrOf (stReq m s) m false) s core off) :
    ∃ u, RowsStored s u core (s.storeValue (stReq m s) m) (widthSize m.width) off ∧
      Does (stBody m (issOf (stReq m s) s)) s () u := by
  refine ⟨_, rowWrite_stored s _ _ h.low, ?_⟩
  have hrel := h.accesses.released
  unfold Does at hrel ⊢
  simp only [stBody, storeAt, run_bind, hrel, run_scalarAddr, h.granted, storeData_ok, List.headD_cons]
  exact writePieces_row

/-- ATOM's read-modify-write: the result of its operation in the row, the old value and the flags returned (R206). -/
theorem atomValueAt_row (h : RowAccess m (atomReq m s) .rmw (s.addrOf (atomReq m s) m true) s core off) :
    let r := atomValue (m.off.extractLsb' 9 4).toNat (8 * widthSize m.width) s.me (s.rowNat core off (widthSize m.width))
      (s.storeValue (atomReq m s) m)
    ∃ u, RowsStored s u core r.1 (widthSize m.width) off ∧
      (atomValueAt m (issOf (atomReq m s) s)).run s = .ok (s.rowNat core off (widthSize m.width), r.2) u := by
  refine ⟨_, rowWrite_stored s _ _ h.low, ?_⟩
  have hgrant := h.granted
  have haddr : s.addrOf (atomReq m s) m true =
    memAddr (s.wide (issOf (atomReq m s) s) m.base (issOf (atomReq m s) s).rep) (atomOff m) (widthSize m.width) := rfl
  rw [haddr] at hgrant
  simp only [atomValueAt, run_bind, run_wval, hgrant, List.headD_cons, atomicAtHome_row, readPieces_row h.low, storeData_ok,
    run_getMe, writePieces_row, run_pure]
  rfl

theorem atomBody_row (h : RowAccess m (atomReq m s) .rmw (s.addrOf (atomReq m s) m true) s core off) :
    let r := atomValue (m.off.extractLsb' 9 4).toNat (8 * widthSize m.width) s.me (s.rowNat core off (widthSize m.width))
      (s.storeValue (atomReq m s) m)
    ∃ u, RowsStored s u core r.1 (widthSize m.width) off ∧ Does (atomBody m (issOf (atomReq m s) s)) s ()
      (u.owing (s.addrOf (atomReq m s) m true) (m.la.toNat, true,
        s.loadWrites m.width m.data (s.rowNat core off (widthSize m.width)) ++ (if r.2 = 0 then [] else [.flags r.2]))) := by
  intro r
  obtain ⟨v, hv, hvalue⟩ := atomValueAt_row h
  obtain ⟨u, hu, hrun⟩ := recordsResult hv
    (f := fun t => t.loadWrites m.width m.data (s.rowNat core off (widthSize m.width)) ++ (if r.2 = 0 then [] else [.flags r.2]))
    (fun t ht => by simp only [ht.loadWrites]) m (atomOff m) (widthSize m.width) (issOf (atomReq m s) s)
  exact ⟨u, hu, (run_bind_ok h.accesses.released).trans ((run_bind_ok hvalue).trans hrun)⟩

/-- CAS's comparison and store: the desired value in the row where it held the expected one (R207). -/
theorem casValueAt_row (h : RowAccess m (casReq m s) .rmw (s.addrOf (casReq m s) m false) s core off) :
    let old := s.rowNat core off (widthSize m.width)
    let ops := (s.gives (casOperands (issOf (casReq m s) s) m.width m.data)).getD (0, 0)
    ∃ u, RowsStored s u core ops.2 (if old = ops.1 then widthSize m.width else 0) off ∧
      (casValueAt m (issOf (casReq m s) s)).run s = .ok old u := by
  intro old ops
  simp only [casValueAt, run_bind, run_scalarAddr, h.granted, List.headD_cons, atomicAtHome_row, readPieces_row h.low,
    casOperands_ok]
  by_cases heq : old = ops.1
  · rw [if_pos heq, if_pos heq]
    exact ⟨_, rowWrite_stored s _ _ h.low, run_bind_ok writePieces_row⟩
  · rw [if_neg heq, if_neg heq]
    exact ⟨s, .refl s core _ off, rfl⟩

theorem casBody_row (h : RowAccess m (casReq m s) .rmw (s.addrOf (casReq m s) m false) s core off) :
    let old := s.rowNat core off (widthSize m.width)
    let ops := (s.gives (casOperands (issOf (casReq m s) s) m.width m.data)).getD (0, 0)
    ∃ u, RowsStored s u core ops.2 (if old = ops.1 then widthSize m.width else 0) off ∧
      Does (casBody m (issOf (casReq m s) s)) s ()
        (u.owing (s.addrOf (casReq m s) m false) (m.la.toNat, true, s.casWrites m.width m.data old)) := by
  intro old ops
  obtain ⟨v, hv, hvalue⟩ := casValueAt_row h
  obtain ⟨u, hu, hrun⟩ := recordsResult hv (f := fun t => t.casWrites m.width m.data old) (fun t ht => ht.casWrites _ _ _)
    m m.off (widthSize m.width) (issOf (casReq m s) s)
  exact ⟨u, hu, (run_bind_ok h.accesses.released).trans ((run_bind_ok hvalue).trans hrun)⟩

theorem load_completes (h : RowAccess m (ldReq m s) .load (s.addrOf (ldReq m s) m false) s core off) (p : Path) :
    ∃ t, runIssue (ldReq m s) (loadBody p m) s = .next t ∧
      AddsResult s t m.la.toNat (s.addrOf (ldReq m s) m false)
        (s.loadWrites m.width m.data (s.rowNat core off (widthSize m.width))) ∧
      RowsHold s t core 0 0 off ∧ t.mem = s.mem ∧ SameRegisters s t := by
  obtain ⟨u, hu, hbody⟩ := loadBody_row h p
  exact access_completes h.accesses.ready h.accesses.plain h.accesses.flows hu hbody

end

/-- Settles O32: each body stores in the rows what it stores and records its result, and the issue ends as any other does. -/
theorem scratchpadAccesses : Obligations.ScratchpadAccesses := by
  unfold Obligations.ScratchpadAccesses Completes
  intro m s core off _ n old
  refine ⟨fun h => ?_, fun h i hi => ?_, fun h => ?_, fun h => ?_⟩
  · obtain ⟨u, hu, hbody⟩ := stBody_row h
    exact store_completes h.accesses.ready h.accesses.plain h.accesses.flows hu hbody
  · rcases hi with rfl | rfl
    · exact load_completes h .ls
    · exact load_completes h .const
  · obtain ⟨u, hu, hbody⟩ := atomBody_row h
    exact access_completes h.accesses.ready h.accesses.plain h.accesses.flows hu hbody
  · obtain ⟨u, hu, hbody⟩ := casBody_row h
    exact access_completes h.accesses.ready h.accesses.plain h.accesses.flows hu hbody

end Sys2Proof.Machine
end

section
/-! SUPPORT. Translations of an access leave the turn's context: memory at its point of coherence, the homes of lines and the frame
records (07_addresses.md R194; 08_residency.md R221; 09_sharing.md R241, R243). -/

namespace Sys2Proof.Machine

theorem pocPutByte_me (s : State) (pa : Nat) (b : Byte) : (s.pocPutByte pa b).me = s.me := by
  unfold State.pocPutByte
  split
  · exact putCore_me rfl
  · split
    · simp only []
      split <;> rfl
    · split <;> rfl

theorem putAll_me (s : State) (pa : Nat) (bs : List Byte) : (s.putAll pa bs).me = s.me := by
  induction bs generalizing s pa with
  | nil => rfl
  | cons b l ih => exact (ih (s.pocPutByte pa b) (pa + 1)).trans (pocPutByte_me s pa b)

/-- A fold of steps each of which leaves the turn's context. -/
theorem foldl_me {α : Type} {f : State → α → State} (hf : ∀ s a, (f s a).me = s.me) (l : List α) (s : State) :
    (l.foldl f s).me = s.me := by
  induction l generalizing s with
  | nil => rfl
  | cons a l ih => exact (ih (f s a)).trans (hf s a)

theorem cleanForwarded_me (s : State) (pa n : Nat) : (s.cleanForwarded pa n).me = s.me := by
  refine foldl_me (fun t a => ?_) _ s
  split
  · split
    · exact putCore_me (by rw [cleanRows_same])
    · rfl
  · rfl

theorem pocPutBytes_me (s : State) (pa : Nat) (bs : List Byte) : (s.pocPutBytes pa bs).me = s.me := by
  unfold State.pocPutBytes
  rw [cleanForwarded_me, State.cleanAtoms_me, putAll_me]

theorem heated_me (s : State) (pa : Nat) : (s.heated pa).me = s.me := by
  have hrecord : (if field (s.record (frameOf pa).1 (frameOf pa).2) 119 4 = 15 then s
      else s.putRecord (frameOf pa).1 (frameOf pa).2 (recHeated (s.record (frameOf pa).1 (frameOf pa).2))).me = s.me := by
    split
    · rfl
    · exact pocPutBytes_me ..
  unfold State.heated
  split
  · simp only []
    split
    · exact hrecord
    · exact hrecord
  · rfl

theorem roomAt_me (s : State) (pa k : Nat) (m : Cache) : (s.roomAt pa k m).me = s.me := by
  unfold State.roomAt
  simp only []
  split <;> rfl

theorem bring_me (s : State) (pa reuse : Nat) : (s.bring pa reuse).me = s.me := roomAt_me ..

theorem homed_me (s : State) (pa reuse : Nat) (brings atomic : Bool) : (s.homed pa reuse brings atomic).me = s.me := by
  unfold State.homed
  split
  · rfl
  · split
    · rw [State.modHome_me]
      split
      · exact heated_me s pa
      · rfl
    · simp only []
      split
      · rw [bring_me, heated_me]
      · exact heated_me s pa

theorem walked_me (s : State) (dom core va : Nat) : (s.walked dom core va).me = s.me := by
  unfold State.walked
  split
  · rfl
  · exact foldl_me (fun t a => homed_me t a 0 true false) _ s

end Sys2Proof.Machine
end

section
/-! SUPPORT. A translation of an access moves no lane of the issue that makes it (07_addresses.md R194, R200). -/

namespace Sys2Proof.Machine

/-- From `s` to `t` the slots and the predicates of the turn's context have not changed. -/
structure SameLanes (s t : State) : Prop where
  slots : t.me.slots = s.me.slots
  cur : t.me.cur = s.me.cur
  p : t.me.p = s.me.p

theorem SameLanes.of_me {s t : State} (h : t.me = s.me) : SameLanes s t := ⟨by rw [h], by rw [h], by rw [h]⟩

theorem SameLanes.trans {s t u : State} (h : SameLanes s t) (k : SameLanes t u) : SameLanes s u :=
  ⟨k.slots.trans h.slots, k.cur.trans h.cur, k.p.trans h.p⟩

/-- An instruction acts on the same lanes. -/
theorem SameLanes.actLanes {s t : State} (h : SameLanes s t) (r : Req) : t.actLanes r = s.actLanes r := by
  unfold State.actLanes Ctx.guardLanes Ctx.pred Ctx.curSlot Ctx.slot
  rw [h.slots, h.cur, h.p]

theorem counted_sameLanes (s : State) (code n : Nat) : SameLanes s (s.counted code n) := by
  obtain ⟨a, b, k, e, -⟩ := counted_same s code n
  rw [e]
  exact ⟨rfl, rfl, rfl⟩

/-- However it ends, a part of a meaning leaves the slots and the predicates of the turn's context. -/
def KeepsLanes {α : Type} (m : M α) : Prop := ∀ s, SameLanes s (s.did m)

variable {α β : Type}

theorem did_ok {m : M α} {s t : State} {a : α} (h : m.run s = .ok a t) : s.did m = t := by
  unfold State.did
  rw [h]

theorem did_error {m : M α} {s t : State} {e : Exit} (h : m.run s = .error e t) : s.did m = t := by
  unfold State.did
  rw [h]

theorem keepsLanes_pure (a : α) : KeepsLanes (pure a : M α) := fun _ => .of_me rfl
theorem keepsLanes_throw (e : Exit) : KeepsLanes (throw e : M α) := fun _ => .of_me rfl
theorem keepsLanes_get : KeepsLanes (get : M State) := fun _ => .of_me rfl

theorem keepsLanes_modify {f : State → State} (h : ∀ s, SameLanes s (f s)) : KeepsLanes (modify f : M Unit) := h

theorem keepsLanes_bind {m : M α} {f : α → M β} (h : KeepsLanes m) (k : ∀ a, KeepsLanes (f a)) : KeepsLanes (m >>= f) := by
  intro s
  have hm := h s
  cases hrun : m.run s with
  | ok a t =>
    rw [did_ok hrun] at hm
    have hboth : s.did (m >>= f) = t.did (f a) := by
      unfold State.did
      rw [run_bind_ok hrun]
    rw [hboth]
    exact hm.trans (k a t)
  | error e t =>
    rw [did_error hrun] at hm
    rw [did_error (run_bind_error hrun)]
    exact hm

theorem keepsLanes_modCluster (n : Nat) (f : Cluster → Cluster) : KeepsLanes (modCluster n f) := fun _ => .of_me rfl

theorem keepsLanes_modCore (n : Nat) {f : Core → Core} (h : ∀ c, (f c).ctxs = c.ctxs) : KeepsLanes (modCore n f) :=
  keepsLanes_modify fun _ => .of_me (putCore_me (h _))

theorem keepsLanes_bumpUnit (core idx n : Nat) : KeepsLanes (bumpUnit core idx n) := by
  unfold bumpUnit
  split
  · exact keepsLanes_modCore core fun _ => rfl
  · exact keepsLanes_modCluster _ _

theorem keepsLanes_later (e : Ev) : KeepsLanes (later e) := fun _ => .of_me rfl

theorem keepsLanes_modMe {f : Ctx → Ctx} (h : ∀ c, (f c).slots = c.slots ∧ (f c).cur = c.cur ∧ (f c).p = c.p) :
    KeepsLanes (modMe f) :=
  keepsLanes_modify fun s => ⟨(h s.me).1, (h s.me).2.1, (h s.me).2.2⟩

theorem keepsLanes_ite {c : Prop} [Decidable c] {m k : M α} (h : KeepsLanes m) (h' : KeepsLanes k) :
    KeepsLanes (if c then m else k) := by
  split
  · exact h
  · exact h'

theorem keepsLanes_sendFlit (core : Nat) (dst : GlobalId) (vc : Nat) (mk : Hdr → Ev) : KeepsLanes (sendFlit core dst vc mk) :=
  keepsLanes_bind keepsLanes_get fun _ => keepsLanes_bind (keepsLanes_modCore core fun _ => rfl) fun _ =>
    keepsLanes_ite (keepsLanes_later _) (keepsLanes_pure _)

theorem keepsLanes_sendTask (core : Nat) (dst : GlobalId) (r : TaskRec) : KeepsLanes (sendTask core dst r) :=
  keepsLanes_bind keepsLanes_get fun _ => keepsLanes_ite (keepsLanes_later _) (keepsLanes_sendFlit _ _ _ _)

theorem keepsLanes_supInterrupt (cl code : Nat) : KeepsLanes (supInterrupt cl code) :=
  keepsLanes_bind (fun _ => .of_me rfl) fun _ =>
    keepsLanes_ite (keepsLanes_bind keepsLanes_get fun _ => keepsLanes_sendTask _ _ _) (keepsLanes_pure _)

theorem keepsLanes_hold (why : Stall) (k : WaitKind) : KeepsLanes (hold why k : M α) := keepsLanes_throw _

/-- A part done on a condition, before the rest. -/
theorem keepsLanes_when {c : Prop} [Decidable c] {m : M Unit} {k : Unit → M α} (h : KeepsLanes m) (hk : KeepsLanes (k ())) :
    KeepsLanes (if c then m >>= k else k ()) :=
  keepsLanes_ite (keepsLanes_bind h fun _ => hk) hk

/-- Two parts done on a condition, before the rest. -/
theorem keepsLanes_whenBoth {c : Prop} [Decidable c] {m m' : M Unit} {k : Unit → M α} (h : KeepsLanes m) (h' : KeepsLanes m')
    (hk : KeepsLanes (k ())) : KeepsLanes (if c then m >>= fun _ => m' >>= k else k ()) :=
  keepsLanes_ite (keepsLanes_bind h fun _ => keepsLanes_bind h' fun _ => hk) hk

theorem keepsLanes_offerMiss (why : Stall) (q : MissReq) : KeepsLanes (offerMiss why q) := by
  refine keepsLanes_bind keepsLanes_get fun s => keepsLanes_when (keepsLanes_hold _ _) ?_
  exact keepsLanes_ite (keepsLanes_bind (keepsLanes_modMe fun _ => ⟨rfl, rfl, rfl⟩) fun _ => keepsLanes_hold _ _)
    (keepsLanes_pure _)

theorem keepsLanes_translate (dom core va : Nat) (u : Use) (fills again : Bool) :
    KeepsLanes (translate dom core va u fills again) := by
  unfold translate
  refine @keepsLanes_bind State Trans get _ keepsLanes_get fun s => ?_
  extract_lets cl asn fine c job found missed
  -- the translation that a walk has found, or the fault or the wait that it has met
  have hfound : KeepsLanes (found ()) := by
    unfold found
    generalize s.walk dom core va = walk
    cases walk with
    | fail d => exact keepsLanes_pure _
    | leaf at_ e fineLeaf =>
      refine keepsLanes_when (keepsLanes_bumpUnit _ _ _) ?_
      refine keepsLanes_when (keepsLanes_modify fun t => .of_me (pocPutBytes_me t _ _)) ?_
      refine keepsLanes_bind (keepsLanes_modCluster _ _) fun _ => ?_
      exact keepsLanes_ite (keepsLanes_pure _) (keepsLanes_pure _)
    | miss at_ e level =>
      dsimp only
      cases parkedState e level with
      | badFormat => exact keepsLanes_pure _
      | moving | tier1 | tier2 | unmapped => exact keepsLanes_ite (keepsLanes_pure _) (keepsLanes_pure _)
  have hmissed : KeepsLanes (missed ()) := by
    refine keepsLanes_bind (keepsLanes_modify fun t => .of_me (walked_me t _ _ _)) fun _ => ?_
    exact keepsLanes_when (keepsLanes_supInterrupt _ _) hfound
  clear_value c found missed
  generalize c.tlb.find? (tlbHit asn fine va (u = .write)) = held
  cases held with
  | none =>
    exact keepsLanes_whenBoth (keepsLanes_bumpUnit _ _ _) (keepsLanes_bumpUnit _ _ _) hmissed
  | some e =>
    refine keepsLanes_when (keepsLanes_modCluster _ _) ?_
    exact keepsLanes_ite (keepsLanes_pure _) (keepsLanes_pure _)

theorem keepsLanes_translateMine (va : Nat) (u : Use) (fills : Bool) (why : Stall) : KeepsLanes (translateMine va u fills why) := by
  refine keepsLanes_bind keepsLanes_get fun s => keepsLanes_ite (keepsLanes_translate _ _ _ _ _ _) ?_
  exact keepsLanes_bind (keepsLanes_offerMiss _ _) fun _ =>
    keepsLanes_whenBoth (keepsLanes_modify fun t => counted_sameLanes t _ _) (keepsLanes_modMe fun _ => ⟨rfl, rfl, rfl⟩)
      (keepsLanes_translate _ _ _ _ _ _)

end Sys2Proof.Machine
end

section
/-! SUPPORT. LD, LDC and ST whose access takes a trap (06_scratchpad.md R160, R161, R163; 07_addresses.md R190, R192, R198;
16_traps.md R418, R420). -/

namespace Sys2Proof.Machine

/-- A trap that an access takes at its own instruction, before its confirmation: none of a header or a breakpoint (16_traps.md
R419, R420). -/
structure Trap.AtIssue (t : Trap) : Prop where
  precise : t.imprecise = false
  header : t.header = false
  cause : t.cause ≠ 18

theorem atIssue_of {cause : Nat} (h : cause ≠ 18) (detail : Nat) (addr : W64) :
    ({ cause := cause, detail := detail, addr := addr } : Trap).AtIssue := ⟨rfl, rfl, h⟩

/-- Every trap of the address checks is one. -/
theorem precheck_atIssue {s : State} {a : W64} {n : Nat} {need : Need} {rank : Nat} {t : Trap}
    (h : s.precheck a n need = .error (rank, t)) : t.AtIssue := by
  unfold State.precheck at h
  dsimp only at h
  -- each check that fails names its cause; the two targets are no error
  repeat' split at h
  all_goals cases h
  all_goals exact atIssue_of (by decide) _ _

/-- A trap of a body before the confirmation is the trap of its instruction. -/
theorem imprecise_trap {m : M Then} {s u : State} {t : Trap} (h : m.run s = .error (.trap t) u) (ht : t.imprecise = false) :
    (imprecise m).run s = .error (.trap t) u := by
  have h' : m s = .error (.trap t) u := h
  show imprecise m s = _
  simp only [imprecise, h', ht, Bool.false_eq_true, if_false]

/-- The trap of a scalar instruction is raised in the state that its body has left, for the lanes on which the guard is true,
whatever lane its access stood for (16_traps.md R420). -/
theorem runIssue_traps {r : Req} {s u : State} {body : Iss → M Unit} {t : Trap} {l : Option (BitVec 16)} (h : Ready r s)
    (hp : Plain r s) (hscalar : r.vec = false) (hsingle : r.paired = false) (ht : t.AtIssue)
    (hb : (body (issOf r s)).run s = .error (.trap { t with lanes := l }) u) (hl : SameLanes s u) :
    runIssue r body s = (raiseTrap { t with lanes := none } false (s.actLanes r)).toOutcome u := by
  have hlanes : u.trapLanes r = s.actLanes r := by
    unfold State.trapLanes
    rw [hl.actLanes, if_neg h.lanes]
  have hissue : ({ t with lanes := l } : Trap).forIssue false = { t with lanes := none } := by
    simp [Trap.forIssue, ht.header, ht.cause]
  unfold runIssue runCtl settle
  rw [issueCtl_ready h hp, run_bind, imprecise_trap (run_bind_error hb) ht.precise]
  simp only [hscalar, hsingle]
  rw [hissue]
  simp only [ht.header, Bool.false_eq_true, if_false, hlanes]

section

variable {m : MemF} {s u : State} {t : Trap} {l : Option (BitVec 16)}

/-- LD or LDC whose access takes a trap. -/
theorem load_traps {p : Path} (h : Accesses m (ldReq m s) .load (s.addrOf (ldReq m s) m false) s)
    (hx : (access (widthSize m.width) (loadNeed (viaOf p m) m.order.toNat)
      [((issOf (ldReq m s) s).rep, s.addrOf (ldReq m s) m false)]).run s = .error (.trap { t with lanes := l }) u)
    (ht : t.AtIssue) (hl : SameLanes s u) :
    runIssue (ldReq m s) (loadBody p m) s = (raiseTrap { t with lanes := none } false (s.actLanes (ldReq m s))).toOutcome u := by
  have hvalue : (loadValue p m (issOf (ldReq m s) s)).run s = .error (.trap { t with lanes := l }) u :=
    (run_bind_ok (run_scalarAddr _ m s)).trans (run_bind_error hx)
  exact runIssue_traps h.ready h.plain rfl rfl ht (run_bind_error hvalue) hl

/-- ST whose access takes a trap. -/
theorem store_traps (h : Accesses m (stReq m s) .store (s.addrOf (stReq m s) m false) s)
    (hx : (access (widthSize m.width) .store [((issOf (stReq m s) s).rep, s.addrOf (stReq m s) m false)]).run s =
      .error (.trap { t with lanes := l }) u)
    (ht : t.AtIssue) (hl : SameLanes s u) :
    runIssue (stReq m s) (stBody m) s = (raiseTrap { t with lanes := none } false (s.actLanes (stReq m s))).toOutcome u := by
  have hstore : (storeAt m (issOf (stReq m s) s)).run s = .error (.trap { t with lanes := l }) u :=
    (run_bind_ok (run_scalarAddr _ m s)).trans (run_bind_error hx)
  exact runIssue_traps h.ready h.plain rfl rfl ht ((run_bind_ok h.released).trans hstore) hl

/-- An address that fails a check, in LD or LDC. -/
theorem load_fails {rank : Nat} (p : Path) (h : Accesses m (ldReq m s) .load (s.addrOf (ldReq m s) m false) s)
    (hfail : s.precheck (s.addrOf (ldReq m s) m false) (widthSize m.width) .load = .error (rank, t)) :
    runIssue (ldReq m s) (loadBody p m) s = (raiseTrap { t with lanes := none } false (s.actLanes (ldReq m s))).toOutcome s :=
  load_traps h (access_fails (h.loadWatch _ _) hfail) (precheck_atIssue hfail) (.of_me rfl)

/-- The same in ST. -/
theorem store_fails {rank : Nat} (h : Accesses m (stReq m s) .store (s.addrOf (stReq m s) m false) s)
    (hfail : s.precheck (s.addrOf (stReq m s) m false) (widthSize m.width) .store = .error (rank, t)) :
    runIssue (stReq m s) (stBody m) s = (raiseTrap { t with lanes := none } false (s.actLanes (stReq m s))).toOutcome s :=
  store_traps h (access_fails h.watch hfail) (precheck_atIssue hfail) (.of_me rfl)

end

/-- Settles O34: an access takes the trap of its first failing check, or that of its translation, which moves no lane of the
issue. -/
theorem accessChecks : Obligations.AccessChecks := by
  unfold Obligations.AccessChecks
  refine ⟨?_, ?_, ?_⟩
  · intro s a n need _ hn sn o va
    -- the model checks natural alignment and the page boundary one after the other
    simp only [State.precheck, List.contains_iff_mem, Bool.not_eq_true', hn, or_false, ite_or] <;> rfl
  · rintro m s i r need rank t (⟨rfl | rfl, rfl, rfl⟩ | ⟨rfl, rfl, rfl⟩) h hfail
    · exact load_fails .ls h hfail
    · exact load_fails .const h hfail
    · exact store_fails h hfail
  · intro m s i r need va d hi h hok hwhole walk hpage
    have hwalk := gives_eq_some hpage
    have hlanes : SameLanes s (s.did walk) := keepsLanes_translateMine _ _ _ _ s
    have hpageTrap : (pageTrap d va).AtIssue := atIssue_of (by decide) d _
    rcases hi with ⟨rfl, rfl, rfl⟩ | ⟨rfl, rfl, rfl⟩
    · exact load_traps (t := pageTrap d va) h (access_page (h.loadWatch _ _) hok hwhole rfl hwalk) hpageTrap hlanes
    · exact store_traps (t := pageTrap d va) h (access_page h.watch hok hwhole rfl hwalk) hpageTrap hlanes

end Sys2Proof.Machine
end
